-- ==== Sys2Proof/Word.lean ====
section
/-! DEFINITION. The word types of spec/00 (R3) and spec/01 (R8): a byte is 8 bits, a word 32, a double-word 64. -/

namespace Sys2Proof

abbrev Byte := BitVec 8
abbrev Word := BitVec 32
abbrev DWord := BitVec 64

/-- A 6-bit register field (R9): 0 to 15 name g0 to g15, 16 to 63 name w0 to w47. -/
abbrev Reg := Fin 64

/-- A 4-bit predicate field (R10): p0 to p15. -/
abbrev Pred := Fin 16

end Sys2Proof
end

