-- ==== Sys2Proof/Syntax.lean ====
section
/-! DEFINITION. The instructions and events of spec/opcode_table.json, one constructor each (formats: R63 to R68). -/

namespace Sys2Proof

/-! ## Field records of the formats (R63) -/

/-- Format A: guard, destination, two sources. -/
structure FmtA where
  p : Pred
  d : Reg
  a : Reg
  b : Reg
  deriving DecidableEq, Repr

/-- Formats A and V where the b field is unused or holds control bits: guard, destination, one source. -/
structure FmtU where
  p : Pred
  d : Reg
  a : Reg
  deriving DecidableEq, Repr

/-- Format B: an 8-bit immediate. -/
structure FmtB where
  p : Pred
  d : Reg
  a : Reg
  i : BitVec 8
  deriving DecidableEq, Repr

/-- Format C: a long-latency operation with lookahead and a dependency counter (R70, R71); dc 6 names no counter. -/
structure FmtC where
  p : Pred
  d : Reg
  a : Reg
  look : Fin 16
  dc : Fin 7
  deriving DecidableEq, Repr

/-- Format J: a signed displacement in words. -/
structure FmtJ where
  p : Pred
  disp : BitVec 20
  deriving DecidableEq, Repr

/-- Format M: accumulator name and two register fields. -/
structure FmtM where
  p : Pred
  acc : Fin 4
  a : Reg
  b : Reg
  deriving DecidableEq, Repr

/-- Format P without its condition code. -/
structure FmtP where
  p : Pred
  pd : Pred
  a : Reg
  b : Reg
  deriving DecidableEq, Repr

/-- Format Q: predicate logic. -/
structure FmtQ where
  p : Pred
  pd : Pred
  pa : Pred
  pb : Pred
  na : Bool
  nb : Bool
  deriving DecidableEq, Repr

/-- The XM word (R66): the home-die hint (3 is reserved) and the 30-bit offset. -/
structure XM where
  hint : Fin 3
  off : BitVec 30
  deriving DecidableEq, Repr

/-! ## Operand selectors -/

/-- m of add and sub (R89). -/
inductive SatMode | wrap | satS | satN
  deriving DecidableEq, Repr

/-- Signed (.s) or unsigned (.n) reading of an operand. -/
inductive Sgn | s | n
  deriving DecidableEq, Repr

/-- imm8 of movi (R93). -/
inductive MoviKind | b32 | s64 | n64
  deriving DecidableEq, Repr

/-- cc of the integer compares (R95). -/
inductive Cond | eq | ne | ltS | leS | gtS | geS | ltN | leN | gtN | geN | tst | ntst
  deriving DecidableEq, Repr

/-- cc of fcmp (R120). -/
inductive FCond | eq | ne | lt | le | gt | ge | un | ord | qlt | qle | qgt | qge
  deriving DecidableEq, Repr

/-- m of fadd, fsub, fmul, ffma (R115). -/
inductive RmSel | fpst | rne | rz
  deriving DecidableEq, Repr

/-- m of frnd (R119). -/
inductive FrndSel | fpst | rne | rz | rdn
  deriving DecidableEq, Repr

/-- The floating-point formats with a code in R65. -/
inductive Fp | f32 | bf16 | f16 | e4m3 | e5m2 | t8 | t6
  deriving DecidableEq, Repr

/-- sf and df of fcvt (R65, R122). -/
inductive ConvTy | fp (f : Fp) | s32 | n32 | s64 | n64
  deriving DecidableEq, Repr

/-- Source format of fcls (R118). -/
inductive ClsFmt | f32 | bf16 | f16
  deriving DecidableEq, Repr

/-- F of pkq, upk and acc.cvt (R123, R276). -/
inductive PackFmt | bf16 | f16 | e4m3 | e5m2 | t8 | t6
  deriving DecidableEq, Repr

/-- F of qblk and dqblk (R126). -/
inductive MxFmt | mx8 | mx6 | mx4
  deriving DecidableEq, Repr

/-- Integer types of atom.add, atom.min, atom.max (R186). -/
inductive IntTy | s32 | n32 | s64 | n64
  deriving DecidableEq, Repr

/-- Raw types of the bitwise atomics, of shfl and of mcst. -/
inductive RawTy | b32 | b64
  deriving DecidableEq, Repr

/-- Float types of atom.fadd, red and mcld.red. -/
inductive FloatTy | f32 | bf16x2
  deriving DecidableEq, Repr

/-- OP of red and mcld.red (R189, R381). -/
inductive RedOp | add | min | max
  deriving DecidableEq, Repr

/-- M of shfl (R179). -/
inductive ShflMode | sel | rot | rev | seg
  deriving DecidableEq, Repr

/-- M of vote (R180). -/
inductive VoteMode | count | mask | first | last
  deriving DecidableEq, Repr

/-- OP and type of gred and gscan (R181): only the listed combinations exist. -/
inductive GOp | addI (t : IntTy) | addF | minI (t : IntTy) | minF | maxI (t : IntTy) | maxF
  | and (t : RawTy) | or (t : RawTy) | xor (t : RawTy)
  deriving DecidableEq, Repr

/-- The trip count of loop (R75): a register or the XL literal. -/
inductive LoopCount | reg (a : Reg) | lit (n : Word)
  deriving DecidableEq, Repr

/-- XO of bar.wait and bar.test (R304). -/
structure BarXO where
  c : Reg
  off : BitVec 16
  deriving DecidableEq, Repr

/-- Fields of the atomics besides the type (R186). -/
structure AtomF where
  f : FmtC
  c : Reg
  off : BitVec 16
  deriving DecidableEq, Repr

/-! ## Arguments of events -/

/-- A thread: its launch, cluster, team and c.tid. -/
structure Tid where
  lid : Nat
  clus : Nat
  team : Nat
  tid : Nat
  deriving DecidableEq, Repr

/-- A cluster of a launch. -/
structure Cid where
  lid : Nat
  clus : Nat
  deriving DecidableEq, Repr

/-- Who reaches the control space: a hart in one of its modes, or a launch processor (R411). -/
inductive HartMode | user | supervisor | machine | launch
  deriving DecidableEq, Repr

/-- A host-complex AMO (R164): the RISC-V operations, and an LR/SC pair whose SC succeeds as a swap under its loaded value. -/
inductive AmoOp | swap | add | xor | and | or | min | max | minu | maxu | lrsc
  deriving DecidableEq, Repr

/-- A fabric flit (R371) with its payload; bytes of the header are held as numbers. -/
structure Flit where
  ty : Nat
  vl : Nat
  nocode : Bool
  src : Nat
  dst : Nat
  inc : Nat
  serial : Nat
  ctx : Nat
  keyid : Nat
  addr : Nat
  aux : Nat
  payload : List Byte
  deriving DecidableEq, Repr

/-- The tag of a shuffle unit (R371, R395): its shuffle as 65536 × context id + SID, sender position, receiver position and
unit number. -/
structure UnitTag where
  sid : Nat
  snd : Nat
  rcv : Nat
  k : Nat
  deriving DecidableEq, Repr

/-- The arrays whose protected words a bit error can strike (R344). -/
inductive EccArray
  | hbm | llc | scratchpad (core : Nat) | deque (core : Nat) | tile (core : Nat)
  | regs (core : Nat) | checkpoint (core : Nat) | watchTable | directory | lockTable | staging (die : Nat) | decodeBuffer (die : Nat)
  | derived
  deriving DecidableEq, Repr

/-- A page under migration: its address, and that of its new place (R232). -/
structure PageMove where
  pa : Nat
  newPa : Nat
  deriving DecidableEq, Repr

/-! ## Instructions and events -/

/-- One constructor per row of the table of operations and events. -/
inductive Instr
  -- class 0
  | nop (p : Pred)
  | hint (o : Fin 8) (z : BitVec 24)
  | add (f : FmtA) (m : SatMode)
  | sub (f : FmtA) (m : SatMode)
  | mul (f : FmtA)
  | mulh (f : FmtA) (m : Sgn)
  | mad (f : FmtA) (c : Reg)
  | div (f : FmtA) (m : Sgn)
  | rem (f : FmtA) (m : Sgn)
  | min (f : FmtA) (m : Sgn)
  | max (f : FmtA) (m : Sgn)
  | abs (f : FmtU) (sat : Bool)
  | neg (f : FmtU) (sat : Bool)
  | and (f : FmtA)
  | or (f : FmtA)
  | xor (f : FmtA)
  | andn (f : FmtA)
  | not (f : FmtU)
  | shl (f : FmtA)
  | shr (f : FmtA)
  | sar (f : FmtA)
  | rot (f : FmtA) (right : Bool)
  | bfx (f : FmtA) (m : Sgn)
  | bfi (f : FmtA)
  | clz (f : FmtU)
  | popc (f : FmtU)
  | brev (f : FmtU)
  | sel (f : FmtA) (wide : Bool) (sp : Pred)
  | mov (f : FmtU)
  | lea (f : FmtA) (k : Fin 4)
  | add64 (f : FmtA)
  | sub64 (f : FmtA)
  | lea64 (f : FmtA) (k : Fin 4)
  | mov64 (f : FmtU)
  | movi (p : Pred) (d : Reg) (k : MoviKind) (lit : Word)
  | addImm (f : FmtB)
  | andImm (f : FmtB)
  | orImm (f : FmtB)
  | xorImm (f : FmtB)
  | shlImm (f : FmtB)
  | shrImm (f : FmtB)
  | sarImm (f : FmtB)
  | icmp (f : FmtP) (cc : Cond)
  | icmp64 (f : FmtP) (cc : Cond)
  | icmpImm (p : Pred) (pd : Pred) (a : Reg) (i : BitVec 6) (cc : Cond)
  | pand (f : FmtQ)
  | por (f : FmtQ)
  | pxor (f : FmtQ)
  | pnot (p : Pred) (pd : Pred) (pa : Pred) (na : Bool)
  | pmov (p : Pred) (pd : Pred) (pa : Pred) (na : Bool)
  | bra (f : FmtJ)
  | brm (f : FmtJ)
  | jmp (p : Pred) (a : Reg)
  | call (f : FmtJ)
  | callr (p : Pred) (a : Reg)
  | ret (p : Pred)
  | exit (p : Pred)
  | loop (p : Pred) (lv : Fin 3) (cnt : LoopCount) (len : Fin 256)
  | lexit (p : Pred) (lv : Fin 3)
  | rpt (p : Pred) (n : Fin 64) (sd : Fin 8) (sa : Fin 8) (sb : Fin 8)
  | wait (p : Pred) (mask : BitVec 6)
  | yld (p : Pred)
  | brk (p : Pred) (code : BitVec 8)
  | trap (p : Pred) (code : BitVec 8)
  | crd (p : Pred) (d : Reg) (n : BitVec 8)
  | cwr (p : Pred) (a : Reg) (n : BitVec 8)
  | cmt (p : Pred)
  | tret (p : Pred)
  | spec (p : Pred) (lvl : Fin 3) (fix : Bool) (clr : Bool)
  -- class 1
  | fadd (f : FmtA) (m : RmSel)
  | fsub (f : FmtA) (m : RmSel)
  | fmul (f : FmtA) (m : RmSel)
  | ffma (f : FmtA) (c : Reg) (m : RmSel)
  | fmin (f : FmtA)
  | fmax (f : FmtA)
  | fabs (f : FmtU) (x2 : Bool)
  | fneg (f : FmtU) (x2 : Bool)
  | fcls (f : FmtU) (m : ClsFmt)
  | frnd (f : FmtU) (m : FrndSel)
  | fcmp (f : FmtP) (cc : FCond)
  | fcvt (f : FmtU) (sf : ConvTy) (df : ConvTy)
  | fcvtSat (f : FmtU) (sf : ConvTy) (df : ConvTy)
  | hadd2 (f : FmtA) (half : Bool)
  | hmul2 (f : FmtA) (half : Bool)
  | hfma2 (f : FmtA) (c : Reg) (half : Bool)
  | pkq (f : FmtU) (fmt : PackFmt) (sat : Bool) (dth : Bool)
  | upk (f : FmtU) (fmt : PackFmt)
  | qblk (f : FmtU) (fmt : MxFmt) (bsel : Fin 4) (dth : Bool) (e : Reg) (mask : Reg)
  | dqblk (f : FmtU) (fmt : MxFmt) (bsel : Fin 4) (e : Reg) (mask : Reg)
  -- class 2
  | rcp (f : FmtC)
  | rsq (f : FmtC)
  | sqrt (f : FmtC)
  | ex2 (f : FmtC)
  | lg2 (f : FmtC)
  | sinpi (f : FmtC)
  | cospi (f : FmtC)
  | tanh (f : FmtC)
  | sigm (f : FmtC)
  | gelu (f : FmtC)
  | silu (f : FmtC)
  | erf (f : FmtC)
  -- class 3
  | ldN8 (f : FmtC) (x : Option XM)
  | ldS8 (f : FmtC) (x : Option XM)
  | ldN16 (f : FmtC) (x : Option XM)
  | ldS16 (f : FmtC) (x : Option XM)
  | ldB32 (f : FmtC) (x : Option XM)
  | ldB64 (f : FmtC) (x : Option XM)
  | ldB128 (f : FmtC) (x : Option XM)
  | stB8 (f : FmtC) (x : Option XM)
  | stB16 (f : FmtC) (x : Option XM)
  | stB32 (f : FmtC) (x : Option XM)
  | stB64 (f : FmtC) (x : Option XM)
  | stB128 (f : FmtC) (x : Option XM)
  | atomAdd (f : AtomF) (t : IntTy)
  | atomMin (f : AtomF) (t : IntTy)
  | atomMax (f : AtomF) (t : IntTy)
  | atomAnd (f : AtomF) (t : RawTy)
  | atomOr (f : AtomF) (t : RawTy)
  | atomXor (f : AtomF) (t : RawTy)
  | atomExch (f : AtomF) (t : RawTy)
  | atomCas (f : AtomF) (e : Reg) (t : RawTy)
  | atomFadd (f : AtomF) (t : FloatTy)
  | red (p : Pred) (op : RedOp) (len : Fin 3) (a : Reg) (look : Fin 16) (dc : Fin 7) (c : Reg) (t : FloatTy) (off : BitVec 16)
  -- class 4
  | shfl (f : FmtA) (m : ShflMode) (t : RawTy) (mask : Reg)
  | vote (f : FmtU) (m : VoteMode) (mask : Reg)
  | gred (f : FmtU) (op : GOp) (mask : Reg)
  | gscan (f : FmtU) (op : GOp) (excl : Bool) (mask : Reg)
  | gsync (p : Pred) (mask : Reg)
  | tbar (p : Pred) (a : Reg) (n : Fin 16) (arrive : Bool)
  | cbar (p : Pred) (a : Reg) (n : Fin 4) (arrive : Bool)
  | tqPush (f : FmtC) (c : Reg)
  | tqPop (p : Pred) (d : Reg) (look : Fin 16) (dc : Fin 7) (c : Reg)
  | tqSteal (f : FmtC) (c : Reg)
  -- class 5
  | mmaBf16 (f : FmtM) (va : Bool) (z : Bool)
  | mmaF16 (f : FmtM) (va : Bool) (z : Bool)
  | mmaE4m3 (f : FmtM) (va : Bool) (z : Bool)
  | mmaE5m2 (f : FmtM) (va : Bool) (z : Bool)
  | mmaT8 (f : FmtM) (va : Bool) (z : Bool)
  | mmaT6 (f : FmtM) (z : Bool)
  | mmaMx8 (f : FmtM) (bsel : Fin 4) (z : Bool)
  | mmaMx6 (f : FmtM) (bsel : Fin 4) (z : Bool)
  | mmaMx4 (f : FmtM) (bsel : Fin 4) (z : Bool)
  | mmaI8 (f : FmtM) (va : Bool) (z : Bool)
  | accZero (p : Pred) (acc : Fin 4)
  | accLd (p : Pred) (acc : Fin 4) (a : Reg) (look : Fin 16) (dc : Fin 7) (off : Option (BitVec 30))
  | accSt (p : Pred) (acc : Fin 4) (rls : Bool) (a : Reg) (look : Fin 16) (dc : Fin 7) (off : Option (BitVec 30))
  | accRd (p : Pred) (d : Reg) (acc : Fin 4) (b : Reg)
  | accWr (p : Pred) (acc : Fin 4) (a : Reg) (b : Reg)
  | accCvt (p : Pred) (acc : Fin 4) (rls : Bool) (a : Reg) (fmt : PackFmt) (s32 : Bool) (sat : Bool) (dth : Bool)
  -- class 6
  | xcp (p : Pred) (dth : Bool) (a : Reg) (look : Fin 16) (dc : Fin 7) (off : Option (BitVec 16))
  | xcpq (p : Pred) (dth : Bool) (n : Fin 32) (a : Reg) (look : Fin 16) (dc : Fin 7) (off : Option (BitVec 16))
  | barInit (f : FmtC) (off : Option (BitVec 16))
  | barExp (f : FmtC) (off : Option (BitVec 16))
  | barArr (f : FmtC) (off : Option (BitVec 16))
  | barWait (f : FmtC) (x : Option BarXO)
  | barTest (f : FmtC) (x : Option BarXO)
  | rlq (f : FmtC) (off : Option (BitVec 16))
  | mcst (f : FmtC) (c : Reg) (t : RawTy) (off : BitVec 16)
  | mcldRed (f : FmtC) (c : Reg) (e : Reg) (t : FloatTy) (op : RedOp)
  | collArm (f : FmtC) (off : Option (BitVec 16))
  | collWait (f : FmtC)
  | shfSide (f : FmtC) (c : Reg) (off : BitVec 16)
  | shfPost (f : FmtC) (off : Option (BitVec 16))
  | shfWait (f : FmtC)
  -- events of the issue ports and of run-ahead
  | unassignedOpcode (w : Word)
  | ageingIssue (core port : Nat)
  | mergeHoldTimeout (t : Tid)
  | yieldExpiry (t : Tid)
  | rendezvousIssue (t : Tid)
  | divergenceWaitLimit (t : Tid)
  | loadComplete (t : Tid)
  | storePerform (t : Tid)
  | atomicPerform (t : Tid)
  | instructionCompletion (t : Tid)
  | parkedLoadResume (t : Tid)
  | conflictNotice (t : Tid)
  | ownedWaitExpiry (t : Tid)
  | deferredTrapTaken (t : Tid)
  -- events of the launch processors and firmware
  | debugRelease (c : Cid)
  | pagesPresentReport (c : Cid) (ok : Bool)
  | spillLimitService (c : Cid) (team : Nat) (tid : Nat) (rslim : Option DWord)
  | preemptRequest (c : Cid)
  | clusterRestore (c : Cid) (cores : List Nat)
  | clusterPlaceAfresh (c : Cid) (cores : List Nat)
  | launchRecordTake (die queue : Nat)
  | clusterClaim (die lid : Nat) (cores : List Nat)
  | clusterRetire (c : Cid)
  | launchEnd (v : Word)
  | scratchpadPageRefill (c : Cid) (slot page : Nat)
  | eccFatalState (c : Cid) (team : Nat)
  -- translation, caches, migration
  | pageWalk (core lid : Nat) (va : Nat)
  | tlbInvalidate (v : Word)
  | invalidateComplete
  | llcEviction (die : Nat) (pa : Nat)
  | mirrorWriteApply (t : Tid)
  | migrationLock (pa : PageMove) (len : Nat) (mir : Bool)
  | migrationSwitch (pa newPa : Nat)
  -- copy engine and matrix array
  | copyLaunchPoint (t : Tid)
  | copyTransferStep (core pos : Nat)
  | engineCountUpdate (core pos : Nat)
  | copyComplete (core pos : Nat)
  | copyLateFail (core pos : Nat) (code : Byte)
  | mmaStart (core : Nat)
  | mmaLastSliceRead (core : Nat)
  | mmaComplete (core : Nat)
  | accLdComplete (core op : Nat)
  | accTileReadEnd (core op : Nat)
  | accSectorLanded (core op : Nat)
  | accDrainComplete (core op : Nat)
  | chainStartTileWait (t : Tid)
  -- keys, control space, harts, sensors
  | keyInstall (id : Nat)
  | keyDestroy (id : Nat)
  | keyDestroyReceipt
  | rtoctlWrite (v : Word)
  | prismbufWrite (v : Word)
  | prismbufApply
  | pcapWrite (v : Word)
  | loupeClear (u : Nat)
  | loupeSample (u v : Nat)
  | controlRegisterWrite (h : Nat) (m : HartMode) (off size : Nat) (v : DWord)
  | hartLoad (h : Nat) (m : HartMode) (pa size : Nat)
  | hartStore (h : Nat) (m : HartMode) (pa size : Nat) (v : DWord)
  | hartAmo (h : Nat) (m : HartMode) (op : AmoOp) (pa size : Nat) (v : DWord)
  | coreClockCycle (core : Nat)
  | softError (arr : EccArray) (addr : Nat) (bits : Nat)
  | scrub (pa : Nat)
  | telemetrySample (mw : Word) (t0 t1 : BitVec 16)
  | thermalTrip
  | attestationRequest (nonce : List Byte)
  | powerGood
  -- fabric and collective engines
  | collectiveFire (die slot : Nat)
  | collectivePartComplete (die slot : Nat) (err : Byte)
  | shuffleStart (die slot : Nat)
  | read (f : Flit)
  | write (f : Flit)
  | atomic (f : Flit)
  | response (f : Flit)
  | remoteFaultResponse (f : Flit)
  | remoteTimeout (serial : Nat)
  | watchRegister (f : Flit)
  | watchRelease (f : Flit)
  | remoteConflictNotice (f : Flit)
  | multicastWrite (f : Flit)
  | loadAndReduce (f : Flit)
  | collectiveData (die slot member : Nat) (data : List Byte)
  | shuffleUnitUncoded (u : UnitTag) (fallback : Bool) (data : List Byte)
  | shuffleUnitCoded (u v : UnitTag) (cu cv : Word) (data : List Byte)
  | sideDeclare (dev inc : Nat) (u : UnitTag)
  | sideEvict (dev : Nat) (u : UnitTag)
  | decodeReserve (u v : UnitTag)
  | reserveGrant (u v : UnitTag) (atU granted : Bool)
  | fallbackRequest (u : UnitTag)
  | reservedFlitDrop (f : Flit)
  | laneStop (port lane : Nat)
  | laneGo (port lane : Nat)
  | flitRetry (port : Nat)
  | portTrain (port : Nat)
  | linkTrained (port : Nat)
  | joinCleanReport (port : Nat)
  | linkDown (port : Nat)
  | peerAbsent (dev : Nat)
  | peerRejoin (dev inc : Nat)
  deriving DecidableEq, Repr

end Sys2Proof
end

