-- ==== Sys2Proof/WellFormed.lean ====
section
/-! DEFINITION. The checks of an instruction's fields that its constructor does not already make impossible: pairs are even
(R9), quads are multiples of 4 (R104, R190, R270), listed combinations only (R64, R122, R123, R124), assigned control
registers only (R26). A word whose instruction fails one raises ILLEGAL_OPCODE. -/

namespace Sys2Proof

/-- R9: a field that names a pair is even. -/
def pairOk (r : Reg) : Bool := r.val % 2 == 0

/-- R104, R190, R270: a field that names four registers is a multiple of 4. -/
def quadOk (r : Reg) : Bool := r.val % 4 == 0

/-- 64-bit integer codes of R65. -/
def IntTy.wide : IntTy → Bool
  | .s32 => false
  | .n32 => false
  | .s64 => true
  | .n64 => true

def RawTy.wide : RawTy → Bool
  | .b32 => false
  | .b64 => true

def ConvTy.isInt : ConvTy → Bool
  | .fp _ => false
  | .s32 => true
  | .n32 => true
  | .s64 => true
  | .n64 => true

def ConvTy.wide : ConvTy → Bool
  | .fp _ => false
  | .s32 => false
  | .n32 => false
  | .s64 => true
  | .n64 => true

/-- R123: how many elements a packed group of F holds. -/
def PackFmt.count : PackFmt → Nat
  | .bf16 => 2
  | .f16 => 2
  | .e4m3 => 4
  | .e5m2 => 4
  | .t8 => 4
  | .t6 => 16

/-- The operation of gred and gscan works on pairs (R177). -/
def GOp.wide : GOp → Bool
  | .addI t => t.wide
  | .addF => false
  | .minI t => t.wide
  | .minF => false
  | .maxI t => t.wide
  | .maxF => false
  | .and t => t.wide
  | .or t => t.wide
  | .xor t => t.wide

/-- R189: words of a reduce-store's vector. -/
def redWords (len : Fin 3) : Nat := if len.val = 0 then 1 else if len.val = 1 then 2 else 4

/-- R26, R74, R201, R222, R251, R324: the assigned control-register numbers. -/
def cregAssigned (n : Nat) : Bool :=
  n ≤ 0x12 || (0x14 ≤ n && n ≤ 0x1D) || (0x20 ≤ n && n ≤ 0x2A) || (0x40 ≤ n && n ≤ 0x4C)
    || (0x4E ≤ n && n ≤ 0x55) || (0x58 ≤ n && n ≤ 0x5A)

/-- R67: the assigned major opcodes. -/
def opcodeAssigned (op : Nat) : Bool :=
  op ≤ 0x3E || (0x40 ≤ op && op ≤ 0x53) || (0x60 ≤ op && op ≤ 0x6B) || (0x70 ≤ op && op ≤ 0x76)
    || (0x78 ≤ op && op ≤ 0x7C) || (0x80 ≤ op && op ≤ 0x89) || (0x90 ≤ op && op ≤ 0x99)
    || (0xB0 ≤ op && op ≤ 0xC7) || (0xD0 ≤ op && op ≤ 0xD6) || (0xE0 ≤ op && op ≤ 0xE4)
    || (0xF0 ≤ op && op ≤ 0xF7)

/-- Pair fields of the register atomics (R186). -/
def AtomF.ok (f : AtomF) (wide : Bool) : Bool :=
  pairOk f.f.a && (!wide || (pairOk f.f.d && pairOk f.c))

/-- Field checks of an instruction; an event carries no encoded field. -/
def Instr.wf : Instr → Bool
  | .sel f wide _ => !wide || (pairOk f.d && pairOk f.a && pairOk f.b)
  | .add64 f => pairOk f.d && pairOk f.a && pairOk f.b
  | .sub64 f => pairOk f.d && pairOk f.a && pairOk f.b
  | .lea64 f _ => pairOk f.d && pairOk f.a
  | .mov64 f => pairOk f.d && pairOk f.a
  | .movi _ d k _ => k == .b32 || pairOk d
  | .icmp64 f _ => pairOk f.a && pairOk f.b
  | .jmp _ a => pairOk a
  | .callr _ a => pairOk a
  | .crd _ _ n => cregAssigned n.toNat
  | .cwr _ _ n => cregAssigned n.toNat
  | .fcvt f sf df => !(sf == df) && !(sf.isInt && df.isInt) && (!sf.wide || pairOk f.a) && (!df.wide || pairOk f.d)
  | .fcvtSat f sf df => !(sf == df) && !(sf.isInt && df.isInt) && (!sf.wide || pairOk f.a) && (!df.wide || pairOk f.d)
  | .pkq f fmt _ _ => f.a.val % fmt.count == 0 && (!(fmt == .t6) || f.d.val ≤ 61)
  | .upk f fmt => f.d.val % fmt.count == 0 && (!(fmt == .t6) || f.a.val ≤ 61)
  | .qblk _ _ _ _ _ mask => pairOk mask
  | .dqblk _ _ _ _ mask => pairOk mask
  | .ldN8 f _ => pairOk f.a
  | .ldS8 f _ => pairOk f.a
  | .ldN16 f _ => pairOk f.a
  | .ldS16 f _ => pairOk f.a
  | .ldB32 f _ => pairOk f.a
  | .ldB64 f _ => pairOk f.a && pairOk f.d
  | .ldB128 f _ => pairOk f.a && quadOk f.d
  | .stB8 f _ => pairOk f.a
  | .stB16 f _ => pairOk f.a
  | .stB32 f _ => pairOk f.a
  | .stB64 f _ => pairOk f.a && pairOk f.d
  | .stB128 f _ => pairOk f.a && quadOk f.d
  | .atomAdd f t => f.ok t.wide
  | .atomMin f t => f.ok t.wide
  | .atomMax f t => f.ok t.wide
  | .atomAnd f t => f.ok t.wide
  | .atomOr f t => f.ok t.wide
  | .atomXor f t => f.ok t.wide
  | .atomExch f t => f.ok t.wide
  | .atomCas f e t => f.ok t.wide && (!t.wide || pairOk e)
  | .atomFadd f _ => f.ok false
  | .red _ _ len a _ _ c _ _ => pairOk a && c.val % redWords len == 0
  | .shfl f _ t mask => pairOk mask && (!t.wide || (pairOk f.d && pairOk f.a))
  | .vote f m mask => pairOk mask && (!(m == .mask) || pairOk f.d)
  | .gred f op mask => pairOk mask && (!op.wide || (pairOk f.d && pairOk f.a))
  | .gscan f op _ mask => pairOk mask && (!op.wide || (pairOk f.d && pairOk f.a))
  | .gsync _ mask => pairOk mask
  | .tqPush f _ => quadOk f.a
  | .tqPop _ d _ _ _ => quadOk d
  | .tqSteal f _ => quadOk f.d
  | .mmaBf16 f va _ => (if va then quadOk f.a else pairOk f.a) && pairOk f.b
  | .mmaF16 f va _ => (if va then quadOk f.a else pairOk f.a) && pairOk f.b
  | .mmaE4m3 f va _ => (if va then quadOk f.a else pairOk f.a) && pairOk f.b
  | .mmaE5m2 f va _ => (if va then quadOk f.a else pairOk f.a) && pairOk f.b
  | .mmaT8 f va _ => (if va then quadOk f.a else pairOk f.a) && pairOk f.b
  | .mmaT6 f _ => pairOk f.a && pairOk f.b
  | .mmaMx8 f _ _ => quadOk f.a && quadOk f.b
  | .mmaMx6 f _ _ => quadOk f.a && quadOk f.b
  | .mmaMx4 f _ _ => quadOk f.a && quadOk f.b
  | .mmaI8 f va _ => (if va then quadOk f.a else pairOk f.a) && pairOk f.b
  | .accLd _ _ a _ _ _ => pairOk a
  | .accSt _ _ _ a _ _ _ => pairOk a
  | .accCvt _ _ _ a _ _ _ _ => pairOk a
  | .xcp _ _ a _ _ _ => pairOk a
  | .xcpq _ _ _ a _ _ _ => pairOk a
  | .barInit f _ => pairOk f.a
  | .barExp f _ => pairOk f.a
  | .barArr f _ => pairOk f.a
  | .barWait f _ => pairOk f.a
  | .barTest f _ => pairOk f.a
  | .rlq f _ => pairOk f.a
  | .mcst f _ t _ => pairOk f.a && (!t.wide || pairOk f.d)
  | .mcldRed f _ e _ _ => pairOk f.a && pairOk e
  | .collArm f _ => pairOk f.a
  | .shfSide f _ _ => pairOk f.a
  | .shfPost f _ => pairOk f.a
  | .unassignedOpcode w => !opcodeAssigned (w.toNat / 0x1000000)
  | _ => true

end Sys2Proof
end

