-- ==== Sys2Proof/Decode.lean ====
section
/-! DEFINITION. The decoder (R63 to R68 and the field tables of each entry) and, after it, the encoder. A word is read as a
number; bit k of the manual is bit k of the number. -/

namespace Sys2Proof

/-! ## Fields -/

/-- Guard, bits [23:20] of every format (R63). -/
def fP (w : Nat) : Pred := Fin.ofNat 16 (w / 0x100000)

/-- d of formats A, B, C and V. -/
def fD (w : Nat) : Reg := Fin.ofNat 64 (w / 0x4000)

/-- a of formats A, B, C and V. -/
def fA (w : Nat) : Reg := Fin.ofNat 64 (w / 0x100)

/-- b of format A. -/
def fB (w : Nat) : Reg := Fin.ofNat 64 (w / 4)

/-- b of format A as a number, where an entry gives it a control meaning. -/
def nB (w : Nat) : Nat := w / 4 % 64

/-- m of format A. -/
def nM (w : Nat) : Nat := w % 4

/-- imm8 of format B. -/
def nI (w : Nat) : Nat := w % 256

/-- look, dc and x of format C. -/
def fLook (w : Nat) : Fin 16 := Fin.ofNat 16 (w / 16)
def nDc (w : Nat) : Nat := w / 2 % 8
def nX (w : Nat) : Nat := w % 2

/-- a and b of formats M and P. -/
def fA10 (w : Nat) : Reg := Fin.ofNat 64 (w / 0x400)
def fB4 (w : Nat) : Reg := Fin.ofNat 64 (w / 16)

/-- Bits [19:16] of formats M, P and Q. -/
def n16 (w : Nat) : Nat := w / 0x10000 % 16
def f16 (w : Nat) : Pred := Fin.ofNat 16 (w / 0x10000)

/-- XO fields (R66). -/
def xC (x : Nat) : Reg := Fin.ofNat 64 x
def xE (x : Nat) : Reg := Fin.ofNat 64 (x / 64)
def xT (x : Nat) : Nat := x / 0x1000 % 16
def xOff (x : Nat) : BitVec 16 := BitVec.ofNat 16 (x / 0x10000)

/-- A 7-valued dependency counter field: 7 is refused (R64). -/
def dcOf (n : Nat) : Option (Fin 7) := if h : n < 7 then some ⟨n, h⟩ else none

/-- Fields of fewer codes than their bits hold. -/
def fin3Of (n : Nat) : Option (Fin 3) := if h : n < 3 then some ⟨n, h⟩ else none
def fin4Of (n : Nat) : Option (Fin 4) := if h : n < 4 then some ⟨n, h⟩ else none

/-- `v` where the fields that must hold a fixed value hold it (R64). -/
def when (c : Bool) (v : Option α) : Option α := if c then v else none

/-! ## Codes of the selectors -/

/-- Codes in the order of the entry. -/
def SatMode.code : SatMode → Nat
  | .wrap => 0
  | .satS => 1
  | .satN => 2

def SatMode.of (n : Nat) : Option SatMode :=
  if n = 0 then some .wrap
  else if n = 1 then some .satS
  else if n = 2 then some .satN
  else none

/-- Codes in the order of the entry. -/
def Sgn.code : Sgn → Nat
  | .s => 0
  | .n => 1

def Sgn.of (n : Nat) : Option Sgn :=
  if n = 0 then some .s
  else if n = 1 then some .n
  else none

/-- Codes in the order of the entry. -/
def MoviKind.code : MoviKind → Nat
  | .b32 => 0
  | .s64 => 1
  | .n64 => 2

def MoviKind.of (n : Nat) : Option MoviKind :=
  if n = 0 then some .b32
  else if n = 1 then some .s64
  else if n = 2 then some .n64
  else none

/-- Codes in the order of the entry. -/
def Cond.code : Cond → Nat
  | .eq => 0
  | .ne => 1
  | .ltS => 2
  | .leS => 3
  | .gtS => 4
  | .geS => 5
  | .ltN => 6
  | .leN => 7
  | .gtN => 8
  | .geN => 9
  | .tst => 10
  | .ntst => 11

def Cond.of (n : Nat) : Option Cond :=
  if n = 0 then some .eq
  else if n = 1 then some .ne
  else if n = 2 then some .ltS
  else if n = 3 then some .leS
  else if n = 4 then some .gtS
  else if n = 5 then some .geS
  else if n = 6 then some .ltN
  else if n = 7 then some .leN
  else if n = 8 then some .gtN
  else if n = 9 then some .geN
  else if n = 10 then some .tst
  else if n = 11 then some .ntst
  else none

/-- Codes in the order of the entry. -/
def FCond.code : FCond → Nat
  | .eq => 0
  | .ne => 1
  | .lt => 2
  | .le => 3
  | .gt => 4
  | .ge => 5
  | .un => 6
  | .ord => 7
  | .qlt => 8
  | .qle => 9
  | .qgt => 10
  | .qge => 11

def FCond.of (n : Nat) : Option FCond :=
  if n = 0 then some .eq
  else if n = 1 then some .ne
  else if n = 2 then some .lt
  else if n = 3 then some .le
  else if n = 4 then some .gt
  else if n = 5 then some .ge
  else if n = 6 then some .un
  else if n = 7 then some .ord
  else if n = 8 then some .qlt
  else if n = 9 then some .qle
  else if n = 10 then some .qgt
  else if n = 11 then some .qge
  else none

/-- Codes in the order of the entry. -/
def RmSel.code : RmSel → Nat
  | .fpst => 0
  | .rne => 1
  | .rz => 2

def RmSel.of (n : Nat) : Option RmSel :=
  if n = 0 then some .fpst
  else if n = 1 then some .rne
  else if n = 2 then some .rz
  else none

/-- Codes in the order of the entry. -/
def FrndSel.code : FrndSel → Nat
  | .fpst => 0
  | .rne => 1
  | .rz => 2
  | .rdn => 3

def FrndSel.of (n : Nat) : Option FrndSel :=
  if n = 0 then some .fpst
  else if n = 1 then some .rne
  else if n = 2 then some .rz
  else if n = 3 then some .rdn
  else none

/-- Codes in the order of the entry. -/
def ClsFmt.code : ClsFmt → Nat
  | .f32 => 0
  | .bf16 => 1
  | .f16 => 2

def ClsFmt.of (n : Nat) : Option ClsFmt :=
  if n = 0 then some .f32
  else if n = 1 then some .bf16
  else if n = 2 then some .f16
  else none

/-- Codes in the order of the entry. -/
def MxFmt.code : MxFmt → Nat
  | .mx8 => 0
  | .mx6 => 1
  | .mx4 => 2

def MxFmt.of (n : Nat) : Option MxFmt :=
  if n = 0 then some .mx8
  else if n = 1 then some .mx6
  else if n = 2 then some .mx4
  else none

/-- Codes in the order of the entry. -/
def RedOp.code : RedOp → Nat
  | .add => 0
  | .min => 1
  | .max => 2

def RedOp.of (n : Nat) : Option RedOp :=
  if n = 0 then some .add
  else if n = 1 then some .min
  else if n = 2 then some .max
  else none

/-- Codes in the order of the entry. -/
def ShflMode.code : ShflMode → Nat
  | .sel => 0
  | .rot => 1
  | .rev => 2
  | .seg => 3

def ShflMode.of (n : Nat) : Option ShflMode :=
  if n = 0 then some .sel
  else if n = 1 then some .rot
  else if n = 2 then some .rev
  else if n = 3 then some .seg
  else none

/-- Codes in the order of the entry. -/
def VoteMode.code : VoteMode → Nat
  | .count => 0
  | .mask => 1
  | .first => 2
  | .last => 3

def VoteMode.of (n : Nat) : Option VoteMode :=
  if n = 0 then some .count
  else if n = 1 then some .mask
  else if n = 2 then some .first
  else if n = 3 then some .last
  else none

/-- T codes of r65. -/
def IntTy.code : IntTy → Nat
  | .s32 => 0
  | .n32 => 1
  | .s64 => 4
  | .n64 => 5

def IntTy.of (n : Nat) : Option IntTy :=
  if n = 0 then some .s32
  else if n = 1 then some .n32
  else if n = 4 then some .s64
  else if n = 5 then some .n64
  else none

/-- T codes of r65. -/
def RawTy.code : RawTy → Nat
  | .b32 => 2
  | .b64 => 6

def RawTy.of (n : Nat) : Option RawTy :=
  if n = 2 then some .b32
  else if n = 6 then some .b64
  else none

/-- T codes of r65. -/
def FloatTy.code : FloatTy → Nat
  | .f32 => 3
  | .bf16x2 => 7

def FloatTy.of (n : Nat) : Option FloatTy :=
  if n = 3 then some .f32
  else if n = 7 then some .bf16x2
  else none

/-- Codes of r65 in b[5:3]. -/
def PackFmt.code : PackFmt → Nat
  | .bf16 => 1
  | .f16 => 2
  | .e4m3 => 3
  | .e5m2 => 4
  | .t8 => 5
  | .t6 => 6

def PackFmt.of (n : Nat) : Option PackFmt :=
  if n = 1 then some .bf16
  else if n = 2 then some .f16
  else if n = 3 then some .e4m3
  else if n = 4 then some .e5m2
  else if n = 5 then some .t8
  else if n = 6 then some .t6
  else none

/-- sf and df codes of R65. -/
def ConvTy.code : ConvTy → Nat
  | .fp .f32 => 0
  | .fp .bf16 => 1
  | .fp .f16 => 2
  | .fp .e4m3 => 3
  | .fp .e5m2 => 4
  | .fp .t8 => 5
  | .fp .t6 => 6
  | .s32 => 8
  | .n32 => 9
  | .s64 => 10
  | .n64 => 11

def ConvTy.of (n : Nat) : Option ConvTy :=
  if n = 0 then some (.fp .f32)
  else if n = 1 then some (.fp .bf16)
  else if n = 2 then some (.fp .f16)
  else if n = 3 then some (.fp .e4m3)
  else if n = 4 then some (.fp .e5m2)
  else if n = 5 then some (.fp .t8)
  else if n = 6 then some (.fp .t6)
  else if n = 8 then some .s32
  else if n = 9 then some .n32
  else if n = 10 then some .s64
  else if n = 11 then some .n64
  else none

/-- b of gred and gscan, and their type code (R181). -/
def GOp.code : GOp → Nat
  | .addI _ => 0
  | .addF => 0
  | .minI _ => 1
  | .minF => 1
  | .maxI _ => 2
  | .maxF => 2
  | .and _ => 3
  | .or _ => 4
  | .xor _ => 5

def GOp.ty : GOp → Nat
  | .addI t => t.code
  | .addF => 3
  | .minI t => t.code
  | .minF => 3
  | .maxI t => t.code
  | .maxF => 3
  | .and t => t.code
  | .or t => t.code
  | .xor t => t.code

def GOp.of (b t : Nat) : Option GOp :=
  if b = 0 then (if t = 3 then some .addF else (IntTy.of t).map .addI)
  else if b = 1 then (if t = 3 then some .minF else (IntTy.of t).map .minI)
  else if b = 2 then (if t = 3 then some .maxF else (IntTy.of t).map .maxI)
  else if b = 3 then (RawTy.of t).map .and
  else if b = 4 then (RawTy.of t).map .or
  else if b = 5 then (RawTy.of t).map .xor
  else none

/-! ## Formats (R63) -/

def fmtA (w : Nat) : FmtA := ⟨fP w, fD w, fA w, fB w⟩
def fmtU (w : Nat) : FmtU := ⟨fP w, fD w, fA w⟩
def fmtB (w : Nat) : FmtB := ⟨fP w, fD w, fA w, BitVec.ofNat 8 w⟩
def fmtJ (w : Nat) : FmtJ := ⟨fP w, BitVec.ofNat 20 w⟩
def fmtP (w : Nat) : FmtP := ⟨fP w, f16 w, fA10 w, fB4 w⟩
def fmtQ (w : Nat) : FmtQ :=
  ⟨fP w, f16 w, Fin.ofNat 16 (w / 0x1000), Fin.ofNat 16 (w / 0x100), w / 128 % 2 == 1, w / 64 % 2 == 1⟩

/-- Format C: dc 7 is refused. -/
def fmtC (w : Nat) : Option FmtC := (dcOf (nDc w)).map fun dc => ⟨fP w, fD w, fA w, fLook w, dc⟩

/-- Format M: a name of 4 or more is refused. -/
def fmtM (w : Nat) : Option FmtM := (fin4Of (n16 w)).map fun acc => ⟨fP w, acc, fA10 w, fB4 w⟩

/-- XM (R66): hint 3 is refused; x = 0 gives none. -/
def xmOf (w x : Nat) : Option (Option XM) :=
  if nX w = 0 then some none
  else (fin3Of (x / 0x40000000 % 4)).map fun h => some ⟨h, BitVec.ofNat 30 x⟩

/-- XM of acc.ld and acc.st (R274): the hint is 0. -/
def xm0Of (w x : Nat) : Option (Option (BitVec 30)) :=
  if nX w = 0 then some none
  else if x / 0x40000000 % 4 = 0 then some (some (BitVec.ofNat 30 x)) else none

/-- XO that holds an offset only. -/
def xoOff (w x : Nat) : Option (Option (BitVec 16)) :=
  if nX w = 0 then some none
  else if x % 0x10000 = 0 then some (some (xOff x)) else none

/-- XO of bar.wait and bar.test: target register and offset. -/
def xoBar (w x : Nat) : Option (Option BarXO) :=
  if nX w = 0 then some none
  else if x / 64 % 0x400 = 0 then some (some ⟨xC x, xOff x⟩) else none

/-- Fields of the atomics but `cas`: e is 0. -/
def atomF (w x : Nat) : Option AtomF :=
  when (nX w == 1) ((fmtC w).map fun f => ⟨f, xC x, xOff x⟩)

/-! ## One function a row of the opcode map (R67) -/

def row0 (c w x : Nat) : Option Instr :=
  match c with
  | 0 =>
    when (w % 0x100000 == 0) (some (.nop (fP w)))
  | 1 =>
    (SatMode.of (nM w)).map fun m => .add (fmtA w) m
  | 2 =>
    (SatMode.of (nM w)).map fun m => .sub (fmtA w) m
  | 3 =>
    when (nM w == 0) (some (.mul (fmtA w)))
  | 4 =>
    (Sgn.of (nM w)).map fun m => .mulh (fmtA w) m
  | 5 =>
    when (nM w == 0 && x / 64 % 0x4000000 == 0) (some (.mad (fmtA w) (xC x)))
  | 6 =>
    (Sgn.of (nM w)).map fun m => .div (fmtA w) m
  | 7 =>
    (Sgn.of (nM w)).map fun m => .rem (fmtA w) m
  | 8 =>
    (Sgn.of (nM w)).map fun m => .min (fmtA w) m
  | 9 =>
    (Sgn.of (nM w)).map fun m => .max (fmtA w) m
  | 10 =>
    when (nB w == 0 && nM w < 2) (some (.abs (fmtU w) (nM w == 1)))
  | 11 =>
    when (nB w == 0 && nM w < 2) (some (.neg (fmtU w) (nM w == 1)))
  | 12 =>
    when (nM w == 0) (some (.and (fmtA w)))
  | 13 =>
    when (nM w == 0) (some (.or (fmtA w)))
  | 14 =>
    when (nM w == 0) (some (.xor (fmtA w)))
  | 15 =>
    when (nM w == 0) (some (.andn (fmtA w)))
  | _ => none

def row1 (c w x : Nat) : Option Instr :=
  match c with
  | 0 =>
    when (w % 256 == 0) (some (.not (fmtU w)))
  | 1 =>
    when (nM w == 0) (some (.shl (fmtA w)))
  | 2 =>
    when (nM w == 0) (some (.shr (fmtA w)))
  | 3 =>
    when (nM w == 0) (some (.sar (fmtA w)))
  | 4 =>
    when (nM w < 2) (some (.rot (fmtA w) (nM w == 1)))
  | 5 =>
    when (nM w < 2) (some (.bfx (fmtA w) (if nM w = 1 then .s else .n)))
  | 6 =>
    when (nM w == 0) (some (.bfi (fmtA w)))
  | 7 =>
    when (w % 256 == 0) (some (.clz (fmtU w)))
  | 8 =>
    when (w % 256 == 0) (some (.popc (fmtU w)))
  | 9 =>
    when (w % 256 == 0) (some (.brev (fmtU w)))
  | 10 =>
    when (nM w < 2 && x % 0x1000 == 0 && x / 0x10000 % 0x10000 == 0)
      (some (.sel (fmtA w) (nM w == 1) (Fin.ofNat 16 (x / 0x1000))))
  | 11 =>
    when (w % 256 == 0) (some (.mov (fmtU w)))
  | 12 =>
    some (.lea (fmtA w) (Fin.ofNat 4 w))
  | 13 =>
    when (nM w == 0) (some (.add64 (fmtA w)))
  | 14 =>
    when (nM w == 0) (some (.sub64 (fmtA w)))
  | 15 =>
    some (.lea64 (fmtA w) (Fin.ofNat 4 w))
  | _ => none

def row2 (c w x : Nat) : Option Instr :=
  match c with
  | 0 =>
    when (w % 256 == 0) (some (.mov64 (fmtU w)))
  | 1 =>
    (Cond.of (w % 16)).map fun c => .icmp (fmtP w) c
  | 2 =>
    (Cond.of (w % 16)).map fun c => .icmp64 (fmtP w) c
  | 3 =>
    when (w % 64 == 0) (some (.pand (fmtQ w)))
  | 4 =>
    when (w % 64 == 0) (some (.por (fmtQ w)))
  | 5 =>
    when (w % 64 == 0) (some (.pxor (fmtQ w)))
  | 6 =>
    when (w % 128 == 0 && w / 256 % 16 == 0)
      (some (.pnot (fP w) (f16 w) (Fin.ofNat 16 (w / 0x1000)) (w / 128 % 2 == 1)))
  | 7 =>
    when (w % 128 == 0 && w / 256 % 16 == 0)
      (some (.pmov (fP w) (f16 w) (Fin.ofNat 16 (w / 0x1000)) (w / 128 % 2 == 1)))
  | 8 =>
    when (w / 256 % 64 == 0) ((MoviKind.of (nI w)).map fun k => .movi (fP w) (fD w) k (BitVec.ofNat 32 x))
  | 9 =>
    some (.addImm (fmtB w))
  | 10 =>
    some (.andImm (fmtB w))
  | 11 =>
    some (.orImm (fmtB w))
  | 12 =>
    some (.xorImm (fmtB w))
  | 13 =>
    some (.shlImm (fmtB w))
  | 14 =>
    some (.shrImm (fmtB w))
  | 15 =>
    some (.sarImm (fmtB w))
  | _ => none

def row3 (c w x : Nat) : Option Instr :=
  match c with
  | 0 =>
    (Cond.of (w % 16)).map fun c => .icmpImm (fP w) (f16 w) (fA10 w) (BitVec.ofNat 6 (w / 16)) c
  | 1 =>
    some (.bra (fmtJ w))
  | 2 =>
    some (.brm (fmtJ w))
  | 3 =>
    when (w % 256 == 0 && w / 0x4000 % 64 == 0) (some (.jmp (fP w) (fA w)))
  | 4 =>
    some (.call (fmtJ w))
  | 5 =>
    when (w % 256 == 0 && w / 0x4000 % 64 == 0) (some (.callr (fP w) (fA w)))
  | 6 =>
    when (w % 0x100000 == 0) (some (.ret (fP w)))
  | 7 =>
    when (w % 0x100000 == 0) (some (.exit (fP w)))
  | 8 =>
    when (w / 2 % 8 == 0 && (nX w == 0 || w / 0x1000 % 64 == 0))
      ((fin3Of (w / 0x40000 % 4)).map fun lv => .loop (fP w) lv
        (if nX w = 0 then .reg (Fin.ofNat 64 (w / 0x1000)) else .lit (BitVec.ofNat 32 x)) (Fin.ofNat 256 (w / 16)))
  | 9 =>
    when (w % 0x40000 == 0) ((fin3Of (w / 0x40000 % 4)).map fun lv => .lexit (fP w) lv)
  | 10 =>
    when (w % 32 == 0)
      (some (.rpt (fP w) (Fin.ofNat 64 (w / 0x4000)) (Fin.ofNat 8 (w / 0x800)) (Fin.ofNat 8 (w / 0x100)) (Fin.ofNat 8 (w / 32))))
  | 11 =>
    when (w / 64 % 0x4000 == 0) (some (.wait (fP w) (BitVec.ofNat 6 w)))
  | 12 =>
    when (w % 0x100000 == 0) (some (.yld (fP w)))
  | 13 =>
    when (w / 256 % 0x1000 == 0) (some (.brk (fP w) (BitVec.ofNat 8 w)))
  | 14 =>
    when (w / 256 % 0x1000 == 0) (some (.trap (fP w) (BitVec.ofNat 8 w)))
  | _ => some (.unassignedOpcode (BitVec.ofNat 32 w))

def row4 (c w x : Nat) : Option Instr :=
  match c with
  | 0 =>
    (RmSel.of (nM w)).map fun m => .fadd (fmtA w) m
  | 1 =>
    (RmSel.of (nM w)).map fun m => .fsub (fmtA w) m
  | 2 =>
    (RmSel.of (nM w)).map fun m => .fmul (fmtA w) m
  | 3 =>
    when (x / 64 % 0x4000000 == 0) ((RmSel.of (nM w)).map fun m => .ffma (fmtA w) (xC x) m)
  | 4 =>
    when (nM w == 0) (some (.fmin (fmtA w)))
  | 5 =>
    when (nM w == 0) (some (.fmax (fmtA w)))
  | 6 =>
    when (nB w == 0 && nM w < 2) (some (.fabs (fmtU w) (nM w == 1)))
  | 7 =>
    when (nB w == 0 && nM w < 2) (some (.fneg (fmtU w) (nM w == 1)))
  | 8 =>
    when (nB w == 0) ((ClsFmt.of (nM w)).map fun m => .fcls (fmtU w) m)
  | 9 =>
    when (nB w == 0) ((FrndSel.of (nM w)).map fun m => .frnd (fmtU w) m)
  | 10 =>
    (FCond.of (w % 16)).map fun c => .fcmp (fmtP w) c
  | 11 =>
    (ConvTy.of (w / 16 % 16)).bind fun s => (ConvTy.of (w % 16)).map fun d => .fcvt (fmtU w) s d
  | 12 =>
    (ConvTy.of (w / 16 % 16)).bind fun s => (ConvTy.of (w % 16)).map fun d => .fcvtSat (fmtU w) s d
  | 13 =>
    when (nM w < 2) (some (.hadd2 (fmtA w) (nM w == 1)))
  | 14 =>
    when (nM w < 2) (some (.hmul2 (fmtA w) (nM w == 1)))
  | 15 =>
    when (nM w < 2 && x / 64 % 0x4000000 == 0) (some (.hfma2 (fmtA w) (xC x) (nM w == 1)))
  | _ => none

def row5 (c w x : Nat) : Option Instr :=
  match c with
  | 0 =>
    when (nB w % 8 == 0)
      ((PackFmt.of (nB w / 8)).map fun f => .pkq (fmtU w) f (w % 2 == 1) (w / 2 % 2 == 1))
  | 1 =>
    when (w % 32 == 0) ((PackFmt.of (nB w / 8)).map fun f => .upk (fmtU w) f)
  | 2 =>
    when (nB w / 8 == 0 && xT x == 3 && x / 0x10000 % 0x10000 == 0)
      ((MxFmt.of (nM w)).map fun f => .qblk (fmtU w) f (Fin.ofNat 4 (w / 8)) (w / 4 % 2 == 1) (xE x) (xC x))
  | 3 =>
    when (nB w / 8 == 0 && w / 4 % 2 == 0 && xT x == 3 && x / 0x10000 % 0x10000 == 0)
      ((MxFmt.of (nM w)).map fun f => .dqblk (fmtU w) f (Fin.ofNat 4 (w / 8)) (xE x) (xC x))
  | _ => some (.unassignedOpcode (BitVec.ofNat 32 w))

def row6 (c w _x : Nat) : Option Instr :=
  match c with
  | 0 =>
    when (nX w == 0) ((fmtC w).map .rcp)
  | 1 =>
    when (nX w == 0) ((fmtC w).map .rsq)
  | 2 =>
    when (nX w == 0) ((fmtC w).map .sqrt)
  | 3 =>
    when (nX w == 0) ((fmtC w).map .ex2)
  | 4 =>
    when (nX w == 0) ((fmtC w).map .lg2)
  | 5 =>
    when (nX w == 0) ((fmtC w).map .sinpi)
  | 6 =>
    when (nX w == 0) ((fmtC w).map .cospi)
  | 7 =>
    when (nX w == 0) ((fmtC w).map .tanh)
  | 8 =>
    when (nX w == 0) ((fmtC w).map .sigm)
  | 9 =>
    when (nX w == 0) ((fmtC w).map .gelu)
  | 10 =>
    when (nX w == 0) ((fmtC w).map .silu)
  | 11 =>
    when (nX w == 0) ((fmtC w).map .erf)
  | _ => some (.unassignedOpcode (BitVec.ofNat 32 w))

def row7 (c w x : Nat) : Option Instr :=
  match c with
  | 0 =>
    (fmtC w).bind fun f => (xmOf w x).map fun o => .ldN8 f o
  | 1 =>
    (fmtC w).bind fun f => (xmOf w x).map fun o => .ldS8 f o
  | 2 =>
    (fmtC w).bind fun f => (xmOf w x).map fun o => .ldN16 f o
  | 3 =>
    (fmtC w).bind fun f => (xmOf w x).map fun o => .ldS16 f o
  | 4 =>
    (fmtC w).bind fun f => (xmOf w x).map fun o => .ldB32 f o
  | 5 =>
    (fmtC w).bind fun f => (xmOf w x).map fun o => .ldB64 f o
  | 6 =>
    (fmtC w).bind fun f => (xmOf w x).map fun o => .ldB128 f o
  | 8 =>
    (fmtC w).bind fun f => (xmOf w x).map fun o => .stB8 f o
  | 9 =>
    (fmtC w).bind fun f => (xmOf w x).map fun o => .stB16 f o
  | 10 =>
    (fmtC w).bind fun f => (xmOf w x).map fun o => .stB32 f o
  | 11 =>
    (fmtC w).bind fun f => (xmOf w x).map fun o => .stB64 f o
  | 12 =>
    (fmtC w).bind fun f => (xmOf w x).map fun o => .stB128 f o
  | _ => some (.unassignedOpcode (BitVec.ofNat 32 w))

def row8 (c w x : Nat) : Option Instr :=
  match c with
  | 0 =>
    when (xE x == 0) ((atomF w x).bind fun f => (IntTy.of (xT x)).map fun t => .atomAdd f t)
  | 1 =>
    when (xE x == 0) ((atomF w x).bind fun f => (IntTy.of (xT x)).map fun t => .atomMin f t)
  | 2 =>
    when (xE x == 0) ((atomF w x).bind fun f => (IntTy.of (xT x)).map fun t => .atomMax f t)
  | 3 =>
    when (xE x == 0) ((atomF w x).bind fun f => (RawTy.of (xT x)).map fun t => .atomAnd f t)
  | 4 =>
    when (xE x == 0) ((atomF w x).bind fun f => (RawTy.of (xT x)).map fun t => .atomOr f t)
  | 5 =>
    when (xE x == 0) ((atomF w x).bind fun f => (RawTy.of (xT x)).map fun t => .atomXor f t)
  | 6 =>
    when (xE x == 0) ((atomF w x).bind fun f => (RawTy.of (xT x)).map fun t => .atomExch f t)
  | 7 =>
    (atomF w x).bind fun f => (RawTy.of (xT x)).map fun t => .atomCas f (xE x) t
  | 8 =>
    when (xE x == 0) ((atomF w x).bind fun f => (FloatTy.of (xT x)).map fun t => .atomFadd f t)
  | 9 =>
    when (nX w == 1 && xE x == 0 && w / 0x40000 % 4 == 0)
      ((dcOf (nDc w)).bind fun dc => (RedOp.of (w / 0x10000 % 4)).bind fun op => (fin3Of (w / 0x4000 % 4)).bind fun len =>
        (FloatTy.of (xT x)).map fun t => .red (fP w) op len (fA w) (fLook w) dc (xC x) t (xOff x))
  | _ => some (.unassignedOpcode (BitVec.ofNat 32 w))

def row9 (c w x : Nat) : Option Instr :=
  match c with
  | 0 =>
    when (x / 64 % 64 == 0 && x / 0x10000 % 0x10000 == 0)
      ((ShflMode.of (nM w)).bind fun m => (RawTy.of (xT x)).map fun t => .shfl (fmtA w) m t (xC x))
  | 1 =>
    when (nB w == 0 && x / 64 % 0x4000000 == 0) ((VoteMode.of (nM w)).map fun m => .vote (fmtU w) m (xC x))
  | 2 =>
    when (nM w == 0 && x / 64 % 64 == 0 && x / 0x10000 % 0x10000 == 0)
      ((GOp.of (nB w) (xT x)).map fun o => .gred (fmtU w) o (xC x))
  | 3 =>
    when (nM w < 2 && x / 64 % 64 == 0 && x / 0x10000 % 0x10000 == 0)
      ((GOp.of (nB w) (xT x)).map fun o => .gscan (fmtU w) o (nM w == 1) (xC x))
  | 4 =>
    when (w % 0x100000 == 0 && x / 64 % 0x4000000 == 0) (some (.gsync (fP w) (xC x)))
  | 5 =>
    when (w / 0x4000 % 64 == 0 && nB w < 16 && nM w < 2 && x % 0x100000000 == 0)
      (some (.tbar (fP w) (fA w) (Fin.ofNat 16 (w / 4)) (nM w == 1)))
  | 6 =>
    when (w / 0x4000 % 64 == 0 && nB w < 4 && nM w < 2 && x % 0x100000000 == 0)
      (some (.cbar (fP w) (fA w) (Fin.ofNat 4 (w / 4)) (nM w == 1)))
  | 7 =>
    when (nX w == 1 && x / 64 % 0x4000000 == 0) ((fmtC w).map fun f => .tqPush f (xC x))
  | 8 =>
    when (nX w == 1 && w / 256 % 64 == 0 && x / 64 % 0x4000000 == 0)
      ((dcOf (nDc w)).map fun dc => .tqPop (fP w) (fD w) (fLook w) dc (xC x))
  | 9 =>
    when (nX w == 1 && x / 64 % 0x4000000 == 0) ((fmtC w).map fun f => .tqSteal f (xC x))
  | _ => some (.unassignedOpcode (BitVec.ofNat 32 w))

def rowB (c w x : Nat) : Option Instr :=
  match c with
  | 0 =>
    when (w / 4 % 4 == 0) ((fmtM w).map fun f => .mmaBf16 f (w / 2 % 2 == 1) (w % 2 == 1))
  | 1 =>
    when (w / 4 % 4 == 0) ((fmtM w).map fun f => .mmaF16 f (w / 2 % 2 == 1) (w % 2 == 1))
  | 2 =>
    when (w / 4 % 4 == 0) ((fmtM w).map fun f => .mmaE4m3 f (w / 2 % 2 == 1) (w % 2 == 1))
  | 3 =>
    when (w / 4 % 4 == 0) ((fmtM w).map fun f => .mmaE5m2 f (w / 2 % 2 == 1) (w % 2 == 1))
  | 4 =>
    when (w / 4 % 4 == 0) ((fmtM w).map fun f => .mmaT8 f (w / 2 % 2 == 1) (w % 2 == 1))
  | 5 =>
    when (w / 2 % 8 == 0) ((fmtM w).map fun f => .mmaT6 f (w % 2 == 1))
  | 6 =>
    when (w / 2 % 2 == 0) ((fmtM w).map fun f => .mmaMx8 f (Fin.ofNat 4 (w / 4)) (w % 2 == 1))
  | 7 =>
    when (w / 2 % 2 == 0) ((fmtM w).map fun f => .mmaMx6 f (Fin.ofNat 4 (w / 4)) (w % 2 == 1))
  | 8 =>
    when (w / 2 % 2 == 0) ((fmtM w).map fun f => .mmaMx4 f (Fin.ofNat 4 (w / 4)) (w % 2 == 1))
  | 9 =>
    when (w / 4 % 4 == 0) ((fmtM w).map fun f => .mmaI8 f (w / 2 % 2 == 1) (w % 2 == 1))
  | 10 =>
    when (w % 0x10000 == 1) ((fin4Of (n16 w)).map fun n => .accZero (fP w) n)
  | 11 =>
    when (w / 0x10000 % 16 == 0)
      ((dcOf (nDc w)).bind fun dc => (xm0Of w x).map fun o => .accLd (fP w) (Fin.ofNat 4 (w / 0x4000)) (fA w) (fLook w) dc o)
  | 12 =>
    when (w / 0x20000 % 8 == 0)
      ((dcOf (nDc w)).bind fun dc => (xm0Of w x).map fun o =>
        .accSt (fP w) (Fin.ofNat 4 (w / 0x4000)) (w / 0x10000 % 2 == 1) (fA w) (fLook w) dc o)
  | 13 =>
    when (nM w == 0) ((fin4Of (w / 256 % 64)).map fun n => .accRd (fP w) (fD w) n (fB w))
  | 14 =>
    when (nM w == 0) ((fin4Of (w / 0x4000 % 64)).map fun n => .accWr (fP w) n (fA w) (fB w))
  | 15 =>
    when (w / 0x20000 % 8 == 0 && nB w % 4 == 0)
      ((PackFmt.of (nB w / 8)).map fun f => .accCvt (fP w) (Fin.ofNat 4 (w / 0x4000)) (w / 0x10000 % 2 == 1) (fA w) f
        (w / 16 % 2 == 1) (w % 2 == 1) (w / 2 % 2 == 1))
  | _ => none

def rowC (c w x : Nat) : Option Instr :=
  match c with
  | 0 =>
    when (w / 0x4000 % 32 == 0)
      ((dcOf (nDc w)).bind fun dc => (xoOff w x).map fun o => .xcp (fP w) (w / 0x80000 % 2 == 1) (fA w) (fLook w) dc o)
  | 1 =>
    (dcOf (nDc w)).bind fun dc => (xoOff w x).map fun o =>
      .xcpq (fP w) (w / 0x80000 % 2 == 1) (Fin.ofNat 32 (w / 0x4000)) (fA w) (fLook w) dc o
  | 2 =>
    (fmtC w).bind fun f => (xoOff w x).map fun o => .barInit f o
  | 3 =>
    (fmtC w).bind fun f => (xoOff w x).map fun o => .barExp f o
  | 4 =>
    (fmtC w).bind fun f => (xoOff w x).map fun o => .barArr f o
  | 5 =>
    (fmtC w).bind fun f => (xoBar w x).map fun o => .barWait f o
  | 6 =>
    (fmtC w).bind fun f => (xoBar w x).map fun o => .barTest f o
  | 7 =>
    (fmtC w).bind fun f => (xoOff w x).map fun o => .rlq f o
  | _ => some (.unassignedOpcode (BitVec.ofNat 32 w))

def rowD (c w x : Nat) : Option Instr :=
  match c with
  | 0 =>
    when (nX w == 1 && xE x == 0)
      ((fmtC w).bind fun f => (RawTy.of (xT x)).map fun t => .mcst f (xC x) t (xOff x))
  | 1 =>
    when (nX w == 1 && x / 0x40000 % 0x4000 == 0)
      ((fmtC w).bind fun f => (FloatTy.of (xT x)).bind fun t => (RedOp.of (x / 0x10000 % 4)).map fun op =>
        .mcldRed f (xC x) (xE x) t op)
  | 2 =>
    (fmtC w).bind fun f => (xoOff w x).map fun o => .collArm f o
  | 3 =>
    when (nX w == 0) ((fmtC w).map .collWait)
  | 4 =>
    when (nX w == 1 && x / 64 % 0x400 == 0) ((fmtC w).map fun f => .shfSide f (xC x) (xOff x))
  | 5 =>
    (fmtC w).bind fun f => (xoOff w x).map fun o => .shfPost f o
  | 6 =>
    when (nX w == 0) ((fmtC w).map .shfWait)
  | _ => some (.unassignedOpcode (BitVec.ofNat 32 w))

def rowE (c w _x : Nat) : Option Instr :=
  match c with
  | 0 =>
    when (w / 256 % 64 == 0) (some (.crd (fP w) (fD w) (BitVec.ofNat 8 w)))
  | 1 =>
    when (w / 0x4000 % 64 == 0) (some (.cwr (fP w) (fA w) (BitVec.ofNat 8 w)))
  | 2 =>
    when (w % 0x100000 == 0) (some (.cmt (fP w)))
  | 3 =>
    when (w % 0x100000 == 0) (some (.tret (fP w)))
  | 4 =>
    when (w / 16 % 0x10000 == 0) ((fin3Of (w % 4)).map fun l => .spec (fP w) l (w / 4 % 2 == 1) (w / 8 % 2 == 1))
  | _ => some (.unassignedOpcode (BitVec.ofNat 32 w))

/-- The fields of word `w` with extension word `x`, before the checks of `Instr.wf`. An unassigned opcode is an
instruction of its own, so that it raises its trap only when it is reached (R61). -/
def rawDecode (w x : Nat) : Option Instr :=
  let c := w / 0x1000000 % 16
  match w / 0x10000000 % 16 with
  | 0 => row0 c w x
  | 1 => row1 c w x
  | 2 => row2 c w x
  | 3 => row3 c w x
  | 4 => row4 c w x
  | 5 => row5 c w x
  | 6 => row6 c w x
  | 7 => row7 c w x
  | 8 => row8 c w x
  | 9 => row9 c w x
  | 11 => rowB c w x
  | 12 => rowC c w x
  | 13 => rowD c w x
  | 14 => rowE c w x
  | 15 => if c < 8 then some (.hint (Fin.ofNat 8 c) (BitVec.ofNat 24 w))
          else some (.unassignedOpcode (BitVec.ofNat 32 w))
  | _ => some (.unassignedOpcode (BitVec.ofNat 32 w))

/-- R68: opcodes followed by an extension word whatever their x bit. -/
def extAlways (op : Nat) : Bool :=
  op == 0x05 || op == 0x1A || op == 0x43 || op == 0x4F || op == 0x52 || op == 0x53 || (0x90 ≤ op && op ≤ 0x96)
    || op == 0x28 || (0x80 ≤ op && op ≤ 0x89) || (0x97 ≤ op && op ≤ 0x99) || op == 0xD0 || op == 0xD1 || op == 0xD4

/-- R68: opcodes followed by an extension word exactly when x = 1. -/
def extByX (op : Nat) : Bool :=
  (0x70 ≤ op && op ≤ 0x76) || (0x78 ≤ op && op ≤ 0x7C) || op == 0xBB || op == 0xBC || (0xC0 ≤ op && op ≤ 0xC7)
    || op == 0xD2 || op == 0xD5 || op == 0x38

/-- Does an extension word follow word `w` (R68)? An unassigned opcode has none (R61). -/
def hasExt (w : Nat) : Bool :=
  let op := w / 0x1000000 % 256
  extAlways op || (extByX op && nX w == 1)

/-- The instruction of word `w`, with extension word `x` where it takes one; `none` where R64 refuses a field. -/
def decodeWord (w x : Nat) : Option Instr :=
  (rawDecode w x).filter Instr.wf

/-- Words read from the front of a list: the instruction and the rest. -/
def decodeWords : List Word → Option (Instr × List Word)
  | [] => none
  | w :: rest =>
    if hasExt w.toNat then
      match rest with
      | [] => none
      | x :: rest' => (decodeWord w.toNat x.toNat).map fun i => (i, rest')
    else (decodeWord w.toNat 0).map fun i => (i, rest)

/-- R59: a word from four bytes, least significant first. -/
def wordOfBytes (b0 b1 b2 b3 : Byte) : Word :=
  BitVec.ofNat 32 (b0.toNat + 0x100 * b1.toNat + 0x10000 * b2.toNat + 0x1000000 * b3.toNat)

def wordsOfBytes : List Byte → List Word
  | b0 :: b1 :: b2 :: b3 :: rest => wordOfBytes b0 b1 b2 b3 :: wordsOfBytes rest
  | _ => []

def byteOfNat (n : Nat) : Byte := BitVec.ofNat 8 n

def bytesOfWord (w : Word) : List Byte :=
  [byteOfNat w.toNat, byteOfNat (w.toNat / 0x100), byteOfNat (w.toNat / 0x10000), byteOfNat (w.toNat / 0x1000000)]

def bytesOfWords : List Word → List Byte
  | [] => []
  | w :: ws => bytesOfWord w ++ bytesOfWords ws

/-- The decoder on any bytes: the instruction at the front, or nothing. -/
def decode (bs : List Byte) : Option Instr := (decodeWords (wordsOfBytes bs)).map (·.1)

/-- An instruction's bits as one number, the first word lowest; words above `nbits` are zero. -/
def tableWords (nbits w : Nat) : List Word :=
  let v := w % 2 ^ nbits
  [BitVec.ofNat 32 v, BitVec.ofNat 32 (v / 0x100000000)]

/-- What the decoder reads from an instruction whose bits are `w`, laid out in memory as R59 says. -/
def decodeTableWord (nbits w : Nat) : Option Instr := decode (bytesOfWords (tableWords nbits w))

/-! ## The encoder -/

def b1 (b : Bool) : Nat := if b then 1 else 0

def hdr (op : Nat) (p : Pred) : Nat := op * 0x1000000 + p.val * 0x100000
def encA (op : Nat) (f : FmtA) (m : Nat) : Nat := hdr op f.p + f.d.val * 0x4000 + f.a.val * 0x100 + f.b.val * 4 + m
def encU (op : Nat) (f : FmtU) (b m : Nat) : Nat := hdr op f.p + f.d.val * 0x4000 + f.a.val * 0x100 + b * 4 + m
def encB (op : Nat) (f : FmtB) : Nat := hdr op f.p + f.d.val * 0x4000 + f.a.val * 0x100 + f.i.toNat
def encC (op : Nat) (f : FmtC) (x : Nat) : Nat :=
  hdr op f.p + f.d.val * 0x4000 + f.a.val * 0x100 + f.look.val * 16 + f.dc.val * 2 + x
def encC' (op : Nat) (p : Pred) (d : Nat) (a : Reg) (look : Fin 16) (dc : Fin 7) (x : Nat) : Nat :=
  hdr op p + d * 0x4000 + a.val * 0x100 + look.val * 16 + dc.val * 2 + x
def encJ (op : Nat) (f : FmtJ) : Nat := hdr op f.p + f.disp.toNat
def encM (op : Nat) (f : FmtM) (low : Nat) : Nat := hdr op f.p + f.acc.val * 0x10000 + f.a.val * 0x400 + f.b.val * 16 + low
def encP (op : Nat) (f : FmtP) (cc : Nat) : Nat := hdr op f.p + f.pd.val * 0x10000 + f.a.val * 0x400 + f.b.val * 16 + cc
def encQ (op : Nat) (f : FmtQ) : Nat :=
  hdr op f.p + f.pd.val * 0x10000 + f.pa.val * 0x1000 + f.pb.val * 0x100 + b1 f.na * 128 + b1 f.nb * 64

/-- XO word (R66). -/
def encXO (c e t off : Nat) : Nat := c + e * 64 + t * 0x1000 + off * 0x10000

def encXM : Option XM → Option Nat
  | none => none
  | some m => some (m.hint.val * 0x40000000 + m.off.toNat)
def encXM0 : Option (BitVec 30) → Option Nat
  | none => none
  | some o => some o.toNat
def encOff : Option (BitVec 16) → Option Nat
  | none => none
  | some o => some (o.toNat * 0x10000)
def encBarXO : Option BarXO → Option Nat
  | none => none
  | some o => some (encXO o.c.val 0 0 o.off.toNat)
def xBit (o : Option α) : Nat := if o.isSome then 1 else 0

/-- The first word of a program instruction; an event has none and gives 0. -/
def encodeWord : Instr → Nat
  | .nop p => hdr 0x00 p
  | .hint o z => (0xF0 + o.val) * 0x1000000 + z.toNat
  | .add f m => encA 0x01 f m.code
  | .sub f m => encA 0x02 f m.code
  | .mul f => encA 0x03 f 0
  | .mulh f m => encA 0x04 f m.code
  | .mad f _ => encA 0x05 f 0
  | .div f m => encA 0x06 f m.code
  | .rem f m => encA 0x07 f m.code
  | .min f m => encA 0x08 f m.code
  | .max f m => encA 0x09 f m.code
  | .abs f m => encU 0x0A f 0 (b1 m)
  | .neg f m => encU 0x0B f 0 (b1 m)
  | .and f => encA 0x0C f 0
  | .or f => encA 0x0D f 0
  | .xor f => encA 0x0E f 0
  | .andn f => encA 0x0F f 0
  | .not f => encU 0x10 f 0 0
  | .shl f => encA 0x11 f 0
  | .shr f => encA 0x12 f 0
  | .sar f => encA 0x13 f 0
  | .rot f m => encA 0x14 f (b1 m)
  | .bfx f m => encA 0x15 f (match m with | .s => 1 | .n => 0)
  | .bfi f => encA 0x16 f 0
  | .clz f => encU 0x17 f 0 0
  | .popc f => encU 0x18 f 0 0
  | .brev f => encU 0x19 f 0 0
  | .sel f wide _ => encA 0x1A f (b1 wide)
  | .mov f => encU 0x1B f 0 0
  | .lea f k => encA 0x1C f k.val
  | .add64 f => encA 0x1D f 0
  | .sub64 f => encA 0x1E f 0
  | .lea64 f k => encA 0x1F f k.val
  | .mov64 f => encU 0x20 f 0 0
  | .movi p d k _ => hdr 0x28 p + d.val * 0x4000 + k.code
  | .addImm f => encB 0x29 f
  | .andImm f => encB 0x2A f
  | .orImm f => encB 0x2B f
  | .xorImm f => encB 0x2C f
  | .shlImm f => encB 0x2D f
  | .shrImm f => encB 0x2E f
  | .sarImm f => encB 0x2F f
  | .icmp f cc => encP 0x21 f cc.code
  | .icmp64 f cc => encP 0x22 f cc.code
  | .icmpImm p pd a i cc => hdr 0x30 p + pd.val * 0x10000 + a.val * 0x400 + i.toNat * 16 + cc.code
  | .pand f => encQ 0x23 f
  | .por f => encQ 0x24 f
  | .pxor f => encQ 0x25 f
  | .pnot p pd pa na => hdr 0x26 p + pd.val * 0x10000 + pa.val * 0x1000 + b1 na * 128
  | .pmov p pd pa na => hdr 0x27 p + pd.val * 0x10000 + pa.val * 0x1000 + b1 na * 128
  | .bra f => encJ 0x31 f
  | .brm f => encJ 0x32 f
  | .jmp p a => hdr 0x33 p + a.val * 0x100
  | .call f => encJ 0x34 f
  | .callr p a => hdr 0x35 p + a.val * 0x100
  | .ret p => hdr 0x36 p
  | .exit p => hdr 0x37 p
  | .loop p lv cnt len => hdr 0x38 p + lv.val * 0x40000 + (match cnt with | .reg a => a.val * 0x1000 | .lit _ => 1) + len.val * 16
  | .lexit p lv => hdr 0x39 p + lv.val * 0x40000
  | .rpt p n sd sa sb => hdr 0x3A p + n.val * 0x4000 + sd.val * 0x800 + sa.val * 0x100 + sb.val * 32
  | .wait p mask => hdr 0x3B p + mask.toNat
  | .yld p => hdr 0x3C p
  | .brk p code => hdr 0x3D p + code.toNat
  | .trap p code => hdr 0x3E p + code.toNat
  | .crd p d n => hdr 0xE0 p + d.val * 0x4000 + n.toNat
  | .cwr p a n => hdr 0xE1 p + a.val * 0x100 + n.toNat
  | .cmt p => hdr 0xE2 p
  | .tret p => hdr 0xE3 p
  | .spec p lvl fix clr => hdr 0xE4 p + lvl.val + b1 fix * 4 + b1 clr * 8
  | .fadd f m => encA 0x40 f m.code
  | .fsub f m => encA 0x41 f m.code
  | .fmul f m => encA 0x42 f m.code
  | .ffma f _ m => encA 0x43 f m.code
  | .fmin f => encA 0x44 f 0
  | .fmax f => encA 0x45 f 0
  | .fabs f m => encU 0x46 f 0 (b1 m)
  | .fneg f m => encU 0x47 f 0 (b1 m)
  | .fcls f m => encU 0x48 f 0 m.code
  | .frnd f m => encU 0x49 f 0 m.code
  | .fcmp f cc => encP 0x4A f cc.code
  | .fcvt f sf df => encU 0x4B f 0 0 + sf.code * 16 + df.code
  | .fcvtSat f sf df => encU 0x4C f 0 0 + sf.code * 16 + df.code
  | .hadd2 f m => encA 0x4D f (b1 m)
  | .hmul2 f m => encA 0x4E f (b1 m)
  | .hfma2 f _ m => encA 0x4F f (b1 m)
  | .pkq f fmt sat dth => encU 0x50 f (fmt.code * 8) (b1 sat + b1 dth * 2)
  | .upk f fmt => encU 0x51 f (fmt.code * 8) 0
  | .qblk f fmt bsel dth _ _ => encU 0x52 f (b1 dth + bsel.val * 2) fmt.code
  | .dqblk f fmt bsel _ _ => encU 0x53 f (bsel.val * 2) fmt.code
  | .rcp f => encC 0x60 f 0
  | .rsq f => encC 0x61 f 0
  | .sqrt f => encC 0x62 f 0
  | .ex2 f => encC 0x63 f 0
  | .lg2 f => encC 0x64 f 0
  | .sinpi f => encC 0x65 f 0
  | .cospi f => encC 0x66 f 0
  | .tanh f => encC 0x67 f 0
  | .sigm f => encC 0x68 f 0
  | .gelu f => encC 0x69 f 0
  | .silu f => encC 0x6A f 0
  | .erf f => encC 0x6B f 0
  | .ldN8 f x => encC 0x70 f (xBit x)
  | .ldS8 f x => encC 0x71 f (xBit x)
  | .ldN16 f x => encC 0x72 f (xBit x)
  | .ldS16 f x => encC 0x73 f (xBit x)
  | .ldB32 f x => encC 0x74 f (xBit x)
  | .ldB64 f x => encC 0x75 f (xBit x)
  | .ldB128 f x => encC 0x76 f (xBit x)
  | .stB8 f x => encC 0x78 f (xBit x)
  | .stB16 f x => encC 0x79 f (xBit x)
  | .stB32 f x => encC 0x7A f (xBit x)
  | .stB64 f x => encC 0x7B f (xBit x)
  | .stB128 f x => encC 0x7C f (xBit x)
  | .atomAdd f _ => encC 0x80 f.f 1
  | .atomMin f _ => encC 0x81 f.f 1
  | .atomMax f _ => encC 0x82 f.f 1
  | .atomAnd f _ => encC 0x83 f.f 1
  | .atomOr f _ => encC 0x84 f.f 1
  | .atomXor f _ => encC 0x85 f.f 1
  | .atomExch f _ => encC 0x86 f.f 1
  | .atomCas f _ _ => encC 0x87 f.f 1
  | .atomFadd f _ => encC 0x88 f.f 1
  | .red p op len a look dc _ _ _ => encC' 0x89 p (len.val + op.code * 4) a look dc 1
  | .shfl f m _ _ => encA 0x90 f m.code
  | .vote f m _ => encU 0x91 f 0 m.code
  | .gred f op _ => encU 0x92 f op.code 0
  | .gscan f op excl _ => encU 0x93 f op.code (b1 excl)
  | .gsync p _ => hdr 0x94 p
  | .tbar p a n arrive => hdr 0x95 p + a.val * 0x100 + n.val * 4 + b1 arrive
  | .cbar p a n arrive => hdr 0x96 p + a.val * 0x100 + n.val * 4 + b1 arrive
  | .tqPush f _ => encC 0x97 f 1
  | .tqPop p d look dc _ => encC' 0x98 p d.val 0 look dc 1
  | .tqSteal f _ => encC 0x99 f 1
  | .mmaBf16 f va z => encM 0xB0 f (b1 va * 2 + b1 z)
  | .mmaF16 f va z => encM 0xB1 f (b1 va * 2 + b1 z)
  | .mmaE4m3 f va z => encM 0xB2 f (b1 va * 2 + b1 z)
  | .mmaE5m2 f va z => encM 0xB3 f (b1 va * 2 + b1 z)
  | .mmaT8 f va z => encM 0xB4 f (b1 va * 2 + b1 z)
  | .mmaT6 f z => encM 0xB5 f (b1 z)
  | .mmaMx8 f bsel z => encM 0xB6 f (bsel.val * 4 + b1 z)
  | .mmaMx6 f bsel z => encM 0xB7 f (bsel.val * 4 + b1 z)
  | .mmaMx4 f bsel z => encM 0xB8 f (bsel.val * 4 + b1 z)
  | .mmaI8 f va z => encM 0xB9 f (b1 va * 2 + b1 z)
  | .accZero p acc => hdr 0xBA p + acc.val * 0x10000 + 1
  | .accLd p acc a look dc off => encC' 0xBB p acc.val a look dc (xBit off)
  | .accSt p acc rls a look dc off => encC' 0xBC p (acc.val + b1 rls * 4) a look dc (xBit off)
  | .accRd p d acc b => hdr 0xBD p + d.val * 0x4000 + acc.val * 0x100 + b.val * 4
  | .accWr p acc a b => hdr 0xBE p + acc.val * 0x4000 + a.val * 0x100 + b.val * 4
  | .accCvt p acc rls a fmt s32 sat dth => hdr 0xBF p + (acc.val + b1 rls * 4) * 0x4000 + a.val * 0x100 + fmt.code * 32 + b1 s32 * 16 + b1 dth * 2 + b1 sat
  | .xcp p dth a look dc off => encC' 0xC0 p (b1 dth * 32) a look dc (xBit off)
  | .xcpq p dth n a look dc off => encC' 0xC1 p (b1 dth * 32 + n.val) a look dc (xBit off)
  | .barInit f off => encC 0xC2 f (xBit off)
  | .barExp f off => encC 0xC3 f (xBit off)
  | .barArr f off => encC 0xC4 f (xBit off)
  | .barWait f x => encC 0xC5 f (xBit x)
  | .barTest f x => encC 0xC6 f (xBit x)
  | .rlq f off => encC 0xC7 f (xBit off)
  | .mcst f _ _ _ => encC 0xD0 f 1
  | .mcldRed f _ _ _ _ => encC 0xD1 f 1
  | .collArm f off => encC 0xD2 f (xBit off)
  | .collWait f => encC 0xD3 f 0
  | .shfSide f _ _ => encC 0xD4 f 1
  | .shfPost f off => encC 0xD5 f (xBit off)
  | .shfWait f => encC 0xD6 f 0
  | .unassignedOpcode w => w.toNat
  | _ => 0

/-- The extension word, where the instruction has one. -/
def encodeExt : Instr → Option Nat
  | .mad _ c => some (encXO c.val 0 0 0)
  | .sel _ _ sp => some (encXO 0 0 sp.val 0)
  | .movi _ _ _ lit => some lit.toNat
  | .loop _ _ cnt _ => match cnt with | .reg _ => none | .lit n => some n.toNat
  | .ffma _ c _ => some (encXO c.val 0 0 0)
  | .hfma2 _ c _ => some (encXO c.val 0 0 0)
  | .qblk _ _ _ _ e mask => some (encXO mask.val e.val 3 0)
  | .dqblk _ _ _ e mask => some (encXO mask.val e.val 3 0)
  | .ldN8 _ x => encXM x
  | .ldS8 _ x => encXM x
  | .ldN16 _ x => encXM x
  | .ldS16 _ x => encXM x
  | .ldB32 _ x => encXM x
  | .ldB64 _ x => encXM x
  | .ldB128 _ x => encXM x
  | .stB8 _ x => encXM x
  | .stB16 _ x => encXM x
  | .stB32 _ x => encXM x
  | .stB64 _ x => encXM x
  | .stB128 _ x => encXM x
  | .atomAdd f t => some (encXO f.c.val 0 t.code f.off.toNat)
  | .atomMin f t => some (encXO f.c.val 0 t.code f.off.toNat)
  | .atomMax f t => some (encXO f.c.val 0 t.code f.off.toNat)
  | .atomAnd f t => some (encXO f.c.val 0 t.code f.off.toNat)
  | .atomOr f t => some (encXO f.c.val 0 t.code f.off.toNat)
  | .atomXor f t => some (encXO f.c.val 0 t.code f.off.toNat)
  | .atomExch f t => some (encXO f.c.val 0 t.code f.off.toNat)
  | .atomCas f e t => some (encXO f.c.val e.val t.code f.off.toNat)
  | .atomFadd f t => some (encXO f.c.val 0 t.code f.off.toNat)
  | .red _ _ _ _ _ _ c t off => some (encXO c.val 0 t.code off.toNat)
  | .shfl _ _ t mask => some (encXO mask.val 0 t.code 0)
  | .vote _ _ mask => some (encXO mask.val 0 0 0)
  | .gred _ op mask => some (encXO mask.val 0 op.ty 0)
  | .gscan _ op _ mask => some (encXO mask.val 0 op.ty 0)
  | .gsync _ mask => some (encXO mask.val 0 0 0)
  | .tbar _ _ _ _ => some 0
  | .cbar _ _ _ _ => some 0
  | .tqPush _ c => some (encXO c.val 0 0 0)
  | .tqPop _ _ _ _ c => some (encXO c.val 0 0 0)
  | .tqSteal _ c => some (encXO c.val 0 0 0)
  | .accLd _ _ _ _ _ off => encXM0 off
  | .accSt _ _ _ _ _ _ off => encXM0 off
  | .xcp _ _ _ _ _ off => encOff off
  | .xcpq _ _ _ _ _ _ off => encOff off
  | .barInit _ off => encOff off
  | .barExp _ off => encOff off
  | .barArr _ off => encOff off
  | .barWait _ x => encBarXO x
  | .barTest _ x => encBarXO x
  | .rlq _ off => encOff off
  | .mcst _ c t off => some (encXO c.val 0 t.code off.toNat)
  | .mcldRed _ c e t op => some (encXO c.val e.val t.code op.code)
  | .collArm _ off => encOff off
  | .shfSide _ c off => some (encXO c.val 0 0 off.toNat)
  | .shfPost _ off => encOff off
  | _ => none

/-- Is `i` an instruction that words encode, not an event? -/
def Instr.isProgram (i : Instr) : Bool :=
  match i with
  | .nop _ => true
  | _ => encodeWord i != 0

/-- The words of an instruction, first word first. -/
def encode (i : Instr) : List Word :=
  BitVec.ofNat 32 (encodeWord i) :: (match encodeExt i with | none => [] | some x => [BitVec.ofNat 32 x])

end Sys2Proof
end

