-- ==== Sys2Proof/Config.lean ====
section
/-! DEFINITION. What an implementation fixes, and the free values: constants with no body, so that nothing can be proved
of a value the spec leaves open (notes/assumptions/1, 3, 4, 6, 12, 65). -/

namespace Sys2Proof

/-- The two grades of R1 and R2: they differ in what the capability list reports and in nothing else. -/
inductive Grade | sa4 | sa2
  deriving DecidableEq, Repr, Inhabited

/-- The grade of this device (R1). -/
opaque Config.grade : Grade

/-- DESIGN CHOICE (log 3), safe: the n-th unspecified register word, as in the words of a new frame (R15). -/
opaque Config.freeWord : Nat → Word

/-- DESIGN CHOICE (log 4), safe: the bits of special function `op` at an argument for which R129 to R131 fix only a bound. -/
opaque Config.sfu : Nat → Word → Word

/-- DESIGN CHOICE (log 6), safe: whether the n-th byte in doubt keeps its old value after a failed engine operation (R170)
or a timed-out write or reduction (R378). -/
opaque Config.keepsOld : Nat → Bool

/-- DESIGN CHOICE (log 12), safe: the private key of 32 bytes of the device attestation key pair (R221, R419). -/
opaque Config.attestKey : List Byte

/-- A firmware image with what its signature is judged by (R419): its bytes, its security version, the public key and the signature. -/
structure FwImage where
  body : List Byte
  version : Nat
  key : List Byte
  sig : List Byte
  deriving DecidableEq, Repr, Inhabited

/-- DESIGN CHOICE (log 12), safe: the device certificate, the images of the stages that bring-up runs, in order, the security version
of the running firmware, and one less than the number of measurement registers it keeps (R221, R416, R419). -/
opaque Config.certificate : List Byte
opaque Config.images : List FwImage
opaque Config.svn : Word
opaque Config.moreRegs : Fin 65535

/-- DESIGN CHOICE (log 12), safe: the fuses: the digest of the key that signs firmware, and the least security version (R419). -/
opaque Config.fusedDigest : List Byte
opaque Config.fusedVersion : Nat

/-- R416: MREGS is at least 1. -/
def Config.mregs : Nat := Config.moreRegs.val + 1

/-- DESIGN CHOICE (log 12), safe: the device index and incarnation that bring-up gives (R412), and the key pair of key id 0 (R420). -/
opaque Config.selfIndex : BitVec 10
opaque Config.selfIncarnation : BitVec 16
opaque Config.keyZero : List Byte

/-- DESIGN CHOICE (log 1), safe: which of the moves open to the device comes n-th, where the spec orders none. -/
opaque Config.choice : Nat → Nat

/-- DESIGN CHOICE (log 1), safe: how many free choices may pass over the move that has stood open longest. -/
opaque Config.patience : Nat → Nat

/-- DESIGN CHOICE (log 65), safe: the heap triple that a launch processor gives a launch all of whose teams are saved (R223). -/
opaque Config.heapTriple : Nat → DWord × DWord × DWord

/-! Constants of the device. -/

def Config.coresPerDie : Nat := 336
def Config.cores : Nat := 672
def Config.hbmTop : Nat := 0x009000000000
def Config.dieOneBase : Nat := 0x004800000000
def Config.ctlBase : Nat := 0x000FE00000000000
def Config.dequeEntries : Nat := 512
def Config.tilesPerCore : Nat := 12
def Config.lockEntries : Nat := 4096
def Config.watchEntries : Nat := 1024

end Sys2Proof
end

