-- ==== Sys2Proof/Machine/State.lean ====
section
/-! DEFINITION. The state of one device, as plain data: threads, clusters, launches, cores, memory, translation, fabric,
collective engines and control space. INVENTORY.md names the rule of each field. Fields marked MODEL are the model's own. -/

namespace Sys2Proof.Machine

/-- Bytes by address, addresses strictly rising, no entry equal to 0x00, which an unlisted address reads as (log 2). -/
abbrev Mem := List Host.Cell

/-! ## Threads -/

/-- One loop level: lc, LEN, c.lbeg and c.ld (R23, R74). -/
structure LoopLvl where
  cnt : Word
  len : BitVec 8
  beg : DWord
  dep : Word
  deriving DecidableEq, Repr

/-- The repeat prefix in force between two of its issues (R72): its address, its count and its steps. -/
structure Rep where
  addr : DWord
  n : Nat
  sd : Nat
  sa : Nat
  sb : Nat
  deriving DecidableEq, Repr

/-- The `wait` that the next instruction stands behind (R102): its address, header, clause end and YIELD, and the loop levels before
it. A save puts the thread back there. -/
structure WaitAt where
  pc : DWord
  clh : DWord
  cend : DWord
  yieldHdr : Bool
  lv0 : LoopLvl
  lv1 : LoopLvl
  lv2 : LoopLvl
  ld : Nat
  deriving DecidableEq, Repr

/-- The thread state that a rollback restores (R238), with the position inside the clause. -/
structure Ctx where
  g : Vector Word 16
  win : Vector Word 48
  /-- resident frames below the current one, newest first: w0 to w39 of each (R13) -/
  res : List (Vector Word 40)
  preds : BitVec 15
  lv0 : LoopLvl
  lv1 : LoopLvl
  lv2 : LoopLvl
  ld : Nat
  ri : BitVec 6
  rep : Option Rep
  depth : Word
  spill : DWord
  pc : DWord
  /-- header of the clause that holds pc; equal to pc at a header not yet entered -/
  clh : DWord
  /-- first address beyond that clause -/
  cend : DWord
  /-- YIELD of that clause's header (R60) -/
  yieldHdr : Bool
  /-- counters that the next instruction awaits (R60, R102) -/
  wmask : BitVec 6
  wfrom : Option WaitAt
  /-- a `cmt` stands before the next instruction (R252) -/
  drain : Bool
  fpst : Word
  dphase : BitVec 6
  /-- c.rd latch (R26): number of the last low-word read and the high word then -/
  latch : Option (Nat × Word)
  /-- IN of c.tstat (R324) -/
  inH : Bool
  /-- instructions issued, and how many had been when a taken transfer or a trap last ended the lookahead windows (R70, R237) -/
  icount : Nat
  wend : Nat
  deriving DecidableEq, Repr

/-- What a launch fixes for a thread at placement (R26, R201, R222, R28). -/
structure Place where
  core : Nat
  port : Nat
  lane : Nat
  grp : Nat
  slot : Nat
  nslot : Nat
  spsz : Nat
  width : Nat
  regs : Nat
  ctx : Nat
  keyId : Nat
  root : Nat
  hbase : DWord
  hlim : DWord
  hoff : DWord
  code : DWord
  clen : Nat
  thand : DWord
  rsbase : DWord
  rslim : DWord
  prom : Bool
  flog : Nat
  dlimLog : Nat
  tq : Bool
  deriving DecidableEq, Repr

/-- The fields of c.spec (R250). -/
structure SpecReg where
  slvl : BitVec 2
  fix : Bool
  lvl : BitVec 2
  t1 : BitVec 4
  t2 : BitVec 4
  dlog : BitVec 4
  deriving DecidableEq, Repr

/-- An escalation entry (R249). -/
structure Esc where
  addr : DWord
  level : Nat
  rolls : Nat
  commits : Nat
  deriving DecidableEq, Repr

/-- The trap registers (R324); IN of c.tstat stands in `Ctx`, as a rollback restores it (R245). -/
structure TrapRegs where
  cause : Word
  info : Word
  tpc : DWord
  taddr : DWord
  tclh : DWord
  ri : BitVec 6
  pset : BitVec 15
  deriving DecidableEq, Repr

/-- A trap, or a lane kill, found by an instruction or an access (R322, R206). -/
inductive Exc
  | trap (code : Nat) (info : Word) (addr : DWord)
  | kill (addr : DWord)
  deriving DecidableEq, Repr

/-- How the bytes of a load become register words (R104, R313); a piece of a fill, and whether a `tret` fills (R16, R327). -/
inductive LoadExt
  | zext
  | sext
  | fill (tret : Bool)
  | barStatus (target : BitVec 8)
  deriving DecidableEq, Repr

/-- Operations of the atomics (R186, R187). -/
inductive AtomOp
  | addS | addN | minS | minN | maxS | maxN | and | or | xor | exch | cas | fadd32 | faddBf
  deriving DecidableEq, Repr

/-- Operations on a deque (R191): an entry is four words. -/
inductive TqOp
  | push (slot : Option Nat) (e : Vector Word 4)
  | pop
  | steal (slot : Option Nat)
  deriving DecidableEq, Repr

/-- One request of an `xcp` or `xcpq` waiting for its launch point (R306, R307). -/
structure CopyReq where
  ea : DWord
  ph : BitVec 6
  dth : Bool
  /-- counter named at issue; number of the instruction's first access, and how many requests it hands over -/
  dc : Fin 7
  group : Nat
  size : Nat
  deriving DecidableEq, Repr

/-- An item of thread state that a checkpoint holds a pre-image of (R238): a global register, a word of the frames counted from the
thread's first, c.pset, the loop state, c.fpst, c.dphase. -/
inductive PreKey
  | glob (n : Nat)
  | word (n : Nat)
  | preds
  | loops
  | fpst
  | dphase
  deriving DecidableEq, Repr

/-- What an outstanding access does when it performs. -/
inductive AccKind
  | load (size : Nat) (ext : LoadExt) (dests : List Reg)
  | store (bytes : List Byte)
  | barExp (v : Nat)
  | barArr (n : Nat)
  | atom (op : AtomOp) (size : Nat) (c : DWord) (e : DWord) (d : Reg)
  | red (op : RedOp) (bf : Bool) (vec : List Word)
  | tq (op : TqOp) (status : Reg) (d : Reg)
  /-- members are those of the group's entry at issue (R412) -/
  | mcst (members : List Nat) (bytes : List Byte)
  | mcldRed (members : List Nat) (op : RedOp) (bf : Bool) (count : Nat) (dst : DWord)
  | copy (r : CopyReq)
  deriving DecidableEq, Repr

/-- Where an access goes: a physical address, with the mirror mark of its leaf; a scratchpad slot of a cluster and an offset;
a peer device and an offset, with the physical address that this device's own index reaches (R369). -/
inductive Loc
  | hbm (pa : Nat) (mir : Bool)
  | spad (cid : Cid) (slot off : Nat)
  | peer (dev off : Nat) (own : Option Nat)
  deriving DecidableEq, Repr

/-- An access that has issued and not yet performed or committed (R235 to R246). -/
structure Access where
  seq : Nat
  kind : AccKind
  ea : DWord
  loc : Option Loc
  dc : Fin 7
  look : Nat
  /-- home-die hint (R66) -/
  hint : Nat
  /-- issued speculatively, and not yet committed (R235, R236) -/
  ran : Bool
  spec : Bool
  /-- bytes read early, under watch (R241) -/
  early : Option (List Byte)
  /-- the home of its peer word has confirmed the release of its watch (R236) -/
  closed : Bool
  /-- watched with the intent bit (R248) -/
  intent : Bool
  /-- fault held until the access is the oldest (R246) -/
  fault : Option Exc
  /-- thread state before its instruction, and that instruction's address (R238, R249) -/
  snap : Ctx
  iaddr : DWord
  /-- instructions issued by the thread before it (R237) -/
  icount : Nat
  /-- parked on an absent sector or an unpinned page (R204, R208) -/
  parked : Bool
  /-- waits at its home for a watch with intent (R248), or behind a migration lock (R232) -/
  held : Bool
  /-- serial of the fabric request it awaits (R378) -/
  serial : Option Nat
  /-- responses of members still awaited, and whether one of them failed (R383) -/
  awaited : List Nat
  failed : Option Exc
  deriving DecidableEq, Repr

/-- A register result, or a release of a counter, that a long-latency operation other than an access still owes (R70, R71). -/
structure PendOp where
  writes : List (Reg × Word)
  dc : Fin 7
  look : Nat
  flags : Word
  seq : Nat
  /-- instructions issued by the thread before it (R70) -/
  icount : Nat
  deriving DecidableEq, Repr

/-- What a thread waits for (R141). -/
inductive Status
  | run
  /-- arrived at a group-collective instruction: member set, issue opportunities counted, and the instruction (R151) -/
  | rv (mask : BitVec 64) (count : Nat) (i : Instr)
  /-- in a `.sync` barrier phase (R185) -/
  | tbar (n : Nat)
  | cbar (n : Nat)
  /-- awaiting service by the launch processor: cause and address (R331) -/
  | svc (code : Nat) (addr : DWord)
  /-- met a trap that is fatal to its cluster or launch: code, and raised in a handler (R328, R329) -/
  | fatal (code : Nat) (nested : Bool)
  /-- at a `brk` that stops the cluster for a debugger (R330) -/
  | debug
  | exited
  | killed
  /-- the slot of a thread of no cluster (State.reset) -/
  | free
  deriving DecidableEq, Repr

structure Thread where
  id : Tid
  place : Place
  status : Status
  ctx : Ctx
  dc : Vector (BitVec 6) 6
  trap : TrapRegs
  /-- EXITED, MHOLD and AGED of c.gstat (R150) -/
  exitedF : Bool
  mhold : Bool
  aged : Bool
  spec : SpecReg
  rbk : Word
  ncmt : Word
  nesc : Word
  esc : List Esc
  /-- level that governs the accesses now outstanding (R249) -/
  gov : Option Nat
  accs : List Access
  ops : List PendOp
  /-- MODEL: next access number -/
  seq : Nat
  /-- when each item was last overwritten: the number of the instruction (R238) -/
  marks : List (PreKey × Nat)
  /-- a conflict notice has reached the thread (R244) -/
  notice : Bool
  age : Nat
  /-- issue opportunities a yield still lasts (R148) -/
  yielded : Option Nat
  /-- issue opportunities since a merge hold began (R149) -/
  held : Option Nat
  /-- a spill or fill that is parked: a write or not, where it stopped, its address (R204, R208) -/
  wpark : Option (Bool × Loc × DWord)
  /-- handler entry whose window action is still to be done (R326) -/
  entryPend : Bool
  /-- trap to be taken first after a restore (R339) -/
  pend : Option Exc
  deriving DecidableEq, Repr

/-! ## Engine and matrix operations -/

/-- A physically contiguous piece of an engine operation's global ranges, as translated at its launch point (R296). -/
structure CopySeg where
  va : Nat
  pa : Nat
  len : Nat
  mir : Bool
  deriving DecidableEq, Repr

/-- A copy operation at or before its launch point in one position of a copy engine (R300 to R302). -/
structure CopyOp where
  pos : Nat
  /-- 1 waiting, 2 transferring, 3 stopped -/
  state : Nat
  fail : Bool
  err : Nat
  slot : Nat
  cid : Cid
  team : Nat
  tid : Nat
  dc : Fin 7
  ctx : Nat
  keyId : Nat
  req : List Byte
  lay : List Byte
  ph : BitVec 6
  dth : Bool
  /-- number of the issuing instruction's first access, and its requests (R307) -/
  group : Nat
  size : Nat
  /-- MODEL: place of its launch point among all launch points -/
  born : Nat
  next : Nat
  cnt : Nat
  reqAddr : DWord
  /-- bytes landed and not yet counted to the barrier (R293) -/
  uncounted : Nat
  /-- scratchpad ranges held against writes (R299): slot, offset, length -/
  holds : List (Nat × Nat × Nat)
  segs : List CopySeg
  deriving DecidableEq, Repr

/-- A matrix operation past its launch point (R264 to R268), with the operands taken there. -/
structure MatOp where
  ident : Nat
  /-- MODEL: place of its launch point among all launch points -/
  born : Nat
  cid : Cid
  team : Nat
  grp : Nat
  /-- cluster slot of the group's core -/
  slot : Nat
  ins : Instr
  iaddr : DWord
  addrA : DWord
  scaleA : DWord
  addrB : DWord
  scaleB : DWord
  ph : BitVec 6
  /-- tile read or written; 12 is none -/
  tile : Nat
  /-- 0 waiting, 1 started, 2 sources read -/
  stage : Nat
  /-- sectors still to land, for a drain -/
  left : List Nat
  result : List (Nat × Word)
  /-- scratchpad ranges held against writes (R264): slot, offset, length -/
  holds : List (Nat × Nat × Nat)
  deriving DecidableEq, Repr

/-- A physical accumulator tile in use (R261): words not listed are 0. -/
structure Tile where
  cid : Cid
  team : Nat
  grp : Nat
  draining : Bool
  words : List (Nat × Word)
  /-- uncorrectable words (R344) -/
  bad : List Nat
  deriving DecidableEq, Repr

/-! ## Clusters -/

/-- A cluster slot: its core and its scratchpad allocation (R138, R198, R203, R208). -/
structure Slot where
  core : Nat
  size : Nat
  bytes : Mem
  /-- absent 32-byte sectors, rising -/
  absent : List Nat
  /-- unpinned pages (R208) -/
  unpinned : List Nat
  /-- uncorrectable 8-byte words (R344) -/
  bad : List Nat
  deriving DecidableEq, Repr

/-- A team or cluster barrier (R185): expected count of its open phase, arrivals, and who has arrived. -/
structure Barrier where
  opened : Bool
  expect : Word
  arrived : Nat
  seen : List Tid
  deriving DecidableEq, Repr

/-- The names a0 to a3 of a group, as indices of physical tiles (R261), and its kill record (R206). -/
structure Group where
  names : Vector (Option Nat) 4
  kill : BitVec 64
  killPc : DWord
  killAddr : DWord
  deriving DecidableEq, Repr

/-- A team with its barriers, groups and the counts of its fault record (R341). -/
structure Team where
  slot : Nat
  paired : Bool
  bars : List Barrier
  groups : List Group
  retired : Bool
  asyncN : Nat
  asyncErr : Nat
  asyncSlot : Nat
  asyncPos : Nat
  asyncReq : DWord
  saves : Nat
  replays : Nat
  deriving DecidableEq, Repr

/-- Where a cluster stands. -/
inductive CStatus
  | waiting   -- discarded by replay, or refused a place, to be placed afresh
  | resident
  /-- initial argument reads await service (R424) -/
  | placing
  | stopping  -- issue stopped for a save (R332)
  | dying     -- to be terminated (R329)
  | saved
  | retired   -- every thread has ended; held while its engine operations run (R302)
  deriving DecidableEq, Repr

/-- A cluster of a launch. -/
structure Cluster where
  id : Cid
  status : CStatus
  teams : List Team
  slots : List Slot
  cbars : List Barrier
  ext : Bool
  /-- reasons of the save still in force (R331): 1 pre-emption, 2 page service, 3 spill limit, 4 debug stop -/
  reasons : List Nat
  /-- what its frames hold besides threads and groups (R338): engine and matrix operations by team, with their cores, and tiles -/
  ops : List CopyOp
  mats : List MatOp
  tiles : List (Nat × Tile)
  /-- address of its first context frame, and of its backing pages (R208); 0 for none -/
  frame : Nat
  back : Nat
  /-- page or table fault of an argument read in service (R424) -/
  argFault : Option (Nat × DWord)
  arrival : Nat
  deriving DecidableEq, Repr

/-! ## Launches -/

/-- A launch that a launch processor has opened: the fields of its record (R363), its tickets and its outcome. -/
structure Launch where
  /-- MODEL: number of the opened launch; and the address of its record -/
  lid : Nat
  recAddr : Nat
  queue : Nat
  code : DWord
  clen : Nat
  entry : Nat
  args : DWord
  arglen : Nat
  ctx : Nat
  keyId : Nat
  n : Nat
  dieMask : Nat
  teams : Nat
  groups : Nat
  width : Nat
  paired : Bool
  alloc : Nat
  accRes : Nat
  spad : Nat
  rsArea : DWord
  rsPer : Nat
  hbase : DWord
  hlim : DWord
  hoff : DWord
  root : Nat
  handler : DWord
  faults : Nat
  compl : Nat
  noProm : Bool
  replay : Bool
  fatalAll : Bool
  tq : Bool
  flog : Nat
  dwLog : Nat
  spec : Word
  bind : List Byte
  /-- physical sections of the code range at the launch's start (R35): base and length -/
  codePhys : List (Nat × Nat)
  placed : Nat
  status : Nat
  firstC : Nat
  discard : Nat
  saves : Nat
  replays : Nat
  /-- the launch's fault record (R342) -/
  asyncN : Nat
  asyncErr : Nat
  asyncSlot : Nat
  asyncPos : Nat
  asyncReq : DWord
  asyncClus : Nat
  asyncTeam : Nat
  ended : Bool
  /-- a cluster's claim stops: TICKET has reached N (R366) -/
  closed : Bool
  /-- dies whose launch processor has stopped claiming, as a mask (R366) -/
  stopped : Nat
  complete : Bool
  /-- CONS has passed its record (R362) -/
  passed : Bool
  deriving DecidableEq, Repr

/-! ## Cores -/

/-- An issue port's picker: current leader of each team, and the team served last (R144, R145). -/
structure Picker where
  leaders : List ((Cid × Nat) × Nat)
  last : Option (Cid × Nat)
  deriving DecidableEq, Repr

structure Core where
  cyc : DWord
  /-- deque, top first (R156), and its owner launch -/
  deque : List (Vector Word 4)
  owner : Option Nat
  tiles : List (Option Tile)
  eng : List CopyOp
  mats : List MatOp
  port0 : Picker
  port1 : Picker
  /-- places in the deque whose entries are uncorrectable (R344), the top one 0 -/
  dqBad : List Nat
  deriving DecidableEq, Repr

/-! ## Memory -/

/-- State of a sector in one die's LLC (R356). -/
inductive Coh | m | o | e | s | i
  deriving DecidableEq, Repr

/-- A sector held in either LLC: states on the two dies, key generation of the copy, and, while it differs from HBM, what
HBM holds and under which generation. -/
structure LlcLine where
  pa : Nat
  d0 : Coh
  d1 : Coh
  gen : Nat
  old : List Byte
  oldGen : Option Nat
  /-- harts that hold a copy, and the one that holds it in M (R359) -/
  harts : List Nat
  hartM : Option Nat
  deriving DecidableEq, Repr

/-- Owner of a range-lock entry (R296): an engine operation, or a collective or shuffle of a die and slot. -/
inductive LockOwner
  | copy (core pos : Nat)
  | coll (die slot : Nat)
  /-- the source of a part that has ended here, which other members still read (R384): its die, slot and generation -/
  | past (die slot gen : Nat)
  | side (die : Nat) (u : UnitTag)
  /-- an engine operation held in a frame: its issuing thread's cluster and its place among the cluster's operations -/
  | saved (c : Cid) (ix : Nat)
  deriving DecidableEq, Repr

/-- A range-lock entry: sectors from `lo` up to `hi`. -/
structure RLock where
  owner : LockOwner
  die : Nat
  lo : Nat
  hi : Nat
  dest : Bool
  deriving DecidableEq, Repr

/-- A page under migration (R232, R361): its old copy, its new place, its length, and whether it is a mirror page. -/
structure Migration where
  pa : Nat
  newPa : Nat
  len : Nat
  mir : Bool
  deriving DecidableEq, Repr

/-- A write of a hart or of a peer that waits at its home (R232, R248): its place in the order of arrival, its range, the access. -/
structure HeldWrite where
  num : Nat
  pa : Nat
  len : Nat
  ev : Instr
  deriving DecidableEq, Repr

/-- A write of a launch processor or of firmware that waits (R169, R232, R248): its place in the order of arrival, the key's
generation, the address, whether it adds to the word there, and the bytes. -/
structure FwWrite where
  num : Nat
  gen : Nat
  pa : Nat
  add : Bool
  bytes : List Byte
  deriving DecidableEq, Repr

structure MemSys where
  /-- latest performed value of each HBM byte -/
  hbm : Mem
  /-- key generation under which each sector was last written -/
  tags : List (Nat × Nat)
  llc : List LlcLine
  /-- 128-byte lines by their latest use on each die, the latest first (R211) -/
  lru0 : List Nat
  lru1 : List Nat
  /-- uncorrectable 32-byte words as an access now finds them, and, under a copy in an LLC, those of HBM itself -/
  bad : List Nat
  hidden : List Nat
  /-- 32-byte words of HBM with a single-bit error not yet corrected -/
  soft : List Nat
  /-- CEHBM (R414) -/
  ceHbm : Word
  locks : List RLock
  migs : List Migration
  /-- writes of harts and peers held at their homes, and of launch processors, each in the order of arrival -/
  waits : List HeldWrite
  fwq : List FwWrite
  /-- MODEL: the key pair of each generation, under which HBM's ciphertext stands (R218) -/
  pairs : List (Nat × List Byte)
  deriving DecidableEq, Repr

/-! ## Translation -/

/-- A leaf found by a walk (R224): page address, size exponent and permissions. -/
structure Leaf where
  page : Nat
  size : Nat
  w : Bool
  x : Bool
  mir : Bool
  deriving DecidableEq, Repr

/-- A TLB entry: the level (0 micro of a core, 1 of a bay, 2 of a die), the unit, the context and the page. -/
structure TlbEntry where
  level : Nat
  unit : Nat
  ctx : Nat
  va : Nat
  leaf : Leaf
  deriving DecidableEq, Repr

/-- A non-leaf entry in a walk unit's cache (R228, R230): the unit by die and stack, the context, the level's index shift, the
virtual address walked, and the next node. -/
structure NodeEntry where
  unit : Nat
  ctx : Nat
  shift : Nat
  va : Nat
  next : Nat
  deriving DecidableEq, Repr

structure Xlat where
  tlb : List TlbEntry
  nodes : List NodeEntry
  /-- invalidation registers (R231) -/
  invCtl : Word
  invVa : DWord
  deriving DecidableEq, Repr

/-! ## Keys and control space -/

/-- A valid key slot: its pair and its generation, new at every install (R217). -/
structure KeySlot where
  id : Nat
  key : List Byte
  gen : Nat
  deriving DecidableEq, Repr

/-- A hart's fault record (R422). -/
structure HartFault where
  addr : DWord
  cause : Byte
  v : Bool
  st : Bool
  ovf : Bool
  deriving DecidableEq, Repr

/-- RISC-V exceptions of an access: a misaligned load, a load access fault, a misaligned store or AMO, a store/AMO access fault
(R164, R422). -/
inductive HartExc | loadAlign | loadFault | storeAlign | storeFault
  deriving DecidableEq, Repr

structure Hart where
  keyReg : Word
  fault : HartFault
  /-- MODEL: value of the hart's latest load or AMO, and whether its latest access raised an exception -/
  value : DWord
  faulted : Bool
  /-- the RISC-V exception last raised by an access, and the hart's trap value register (R164, R422) -/
  excep : Option HartExc
  tval : DWord
  deriving DecidableEq, Repr

/-- MODEL: a launch processor's accesses to the control space (R411): the value of its latest load, and whether the latest access raised
PROT. -/
structure Proc where
  value : DWord
  prot : Bool
  deriving DecidableEq, Repr

/-- A Loupe unit (R417). -/
structure Loupe where
  ctl : Word
  min : Word
  max : Word
  cnt : Word
  bins : List Word
  deriving DecidableEq, Repr

/-- Bring-up, telemetry, key ports, queues, attestation (R411 to R420). -/
structure Control where
  /-- the launch queues are open and every register is reachable (R420) -/
  up : Bool
  /-- steps of bring-up done so far, and the images measured (R419, R420) -/
  stage : Nat
  measured : Nat
  queues : List DWord
  keys : List KeySlot
  /-- MODEL: next key generation -/
  nextGen : Nat
  key0Done : Bool
  kcmd : Word
  /-- a destruction has cleared its slot and owes its receipt -/
  destroying : Bool
  kdata : List Byte
  krcpt : List Byte
  serial : DWord
  /-- LLC lines that a destruction has invalidated on each die so far -/
  lines0 : Nat
  lines1 : Nat
  harts : List Hart
  procs : List Proc
  pwr : Word
  temp0 : BitVec 16
  temp1 : BitVec 16
  clk : BitVec 16
  pcap : BitVec 16
  capOn : Bool
  tripOn : Bool
  ceSram : Word
  ueCnt : Word
  loupe : List Loupe
  reports : DWord
  meas : List Byte
  /-- MODEL: the latest attestation report that firmware returned -/
  report : List Byte
  launchEnd : Word
  deriving DecidableEq, Repr

/-! ## Fabric and collective engines -/

/-- Port states (R374). -/
inductive PortState | down | train | join | up
  deriving DecidableEq, Repr

/-- A port: its state, retries of the flit at its head, lanes that the receiver has stopped (R371, R373). -/
structure Port where
  st : PortState
  retries : Nat
  stopped : List Nat
  deriving DecidableEq, Repr

/-- An outstanding peer request (R378): its thread, the access's number, its target and its age in cycles. -/
structure PeerReq where
  serial : Nat
  tid : Tid
  seq : Nat
  dev : Nat
  age : Nat
  deriving DecidableEq, Repr

/-- An entry of the remote-watch table (R376): initiator, incarnation, 128-byte line here, the line's offset as the initiator
named it, word mask, intent. -/
structure RWatch where
  dev : Nat
  inc : Nat
  line : Nat
  off : Nat
  mask : Nat
  intent : Bool
  deriving DecidableEq, Repr

/-- A piece of a member's data for a load-and-reduce (R381): the request's serial, the member, the offset of the piece. -/
structure Gather where
  serial : Nat
  dev : Nat
  off : Nat
  data : List Byte
  deriving DecidableEq, Repr

/-- A pairing that a Prism has asked for, with the answers so far (R398, R399). -/
structure Pairing where
  u : UnitTag
  v : UnitTag
  atU : Option Bool
  atV : Option Bool
  deriving DecidableEq, Repr

structure Fabric where
  tlog : Nat
  prism : Nat
  selfIdx : BitVec 10
  selfInc : BitVec 16
  iflBase : DWord
  iflHead : Word
  iflDrop : Word
  /-- MEMBER and the GROUP entries as bytes at their offsets (R412) -/
  member : Mem
  groups : Mem
  ports : List Port
  reqs : List PeerReq
  nextSerial : Nat
  rwatch : List RWatch
  /-- peers now absent, and the incarnations that rejoined peers announced (R375, R376) -/
  absent : List Nat
  incs : List (Nat × Nat)
  dropped : Nat
  /-- the switch's shadow of side-information tables: device, incarnation, block (R396) -/
  shadow : List (Nat × Nat × UnitTag)
  pairs : List Pairing
  gather : List Gather
  /-- the device has been present under its incarnation (R375) -/
  joined : Bool
  /-- MODEL: requests given up whose flits have not left yet (R369) -/
  ghosts : List PeerReq
  /-- an entry of the inbound fault log is written and IFLHEAD does not count it yet (R412) -/
  iflOwed : Bool
  deriving DecidableEq, Repr

/-- A collective or shuffle in a slot of a die's engine (R384 to R395). -/
structure CollOp where
  slot : Nat
  gen : Nat
  shf : Bool
  /-- 0 armed or posted, 1 past its launch point, 2 completed or failed -/
  st : Nat
  /-- its trigger has been met (R387), or every member has posted (R395) -/
  fired : Bool
  /-- failure found or reported (R391) -/
  err : Nat
  /-- it waits for a page that firmware is to make present, and its STATUS cannot be reached (R384) -/
  lost : Bool
  nostat : Bool
  lid : Nat
  /-- issuing thread whose counter the arm stepped -/
  tid : Option Tid
  dc : Fin 7
  desc : List Byte
  ctx : Nat
  keyId : Nat
  /-- its ranges as translated at its launch point -/
  segs : List CopySeg
  /-- while it waits at the lock tables: its number in the order of arrival, then their dies (R298, R387) -/
  arrived : List Nat
  /-- positions of the members that are known to have completed (R384) -/
  doneBy : List Nat
  ctr : Nat
  thresh : Nat
  /-- device indices of the members, by position (R380) -/
  members : List Nat
  grp : Nat
  /-- arm order in its group (R386) -/
  order : Nat
  /-- the bound chunk (R392) -/
  chunk : Option Nat
  /-- data received: position of the member, bytes -/
  data : List (Nat × List Byte)
  /-- units delivered, and side declarations still to be judged: sender, receiver, address (R395, R396) -/
  units : List UnitTag
  sides : List (Nat × Nat × Nat)
  uncoded : Nat
  coded : Nat
  decoded : Nat
  dfault : Nat
  fallback : Nat
  evict : Nat
  sideRej : Nat
  deriving DecidableEq, Repr

/-- A side-information entry (R396): its block (unit 0 of the tag), its shuffle's launch, context and key, the copy's pieces. -/
structure Side where
  u : UnitTag
  lid : Nat
  ctx : Nat
  keyId : Nat
  segs : List CopySeg
  deriving DecidableEq, Repr

/-- A decode-buffer slot held (R399): the sender of this device's unit, its incarnation, that unit and its partner. -/
structure Resv where
  dev : Nat
  inc : Nat
  u : UnitTag
  v : UnitTag
  deriving DecidableEq, Repr

structure Counter where
  val : Word
  holder : Option Nat
  deriving DecidableEq, Repr

structure CollEngine where
  ops : List CollOp
  /-- next generation of each of the 64 slots -/
  gens : List Nat
  ctrs : List Counter
  /-- oldest declaration first -/
  side : List Side
  resv : List Resv
  /-- buffer size in force, in 32 KiB units (R379) -/
  buf : Nat
  /-- arms so far on each group -/
  orders : List (Nat × Nat)
  /-- parts that have ended here, their slots taken again, whose sources other members still read (R384, R400) -/
  past : List CollOp
  deriving DecidableEq, Repr

/-! ## Faults and refusals -/

/-- Reasons to stop. No spec behaviour stops this device: every trap and every failure is a next state. -/
inductive Fault
  /-- Raised by no instruction: a state in which the step finds no rule. Safe: nothing is claimed of a next state. -/
  | noRule
  deriving DecidableEq, Repr

/-- Reasons to refuse. -/
inductive Refusal
  /-- Raised by an arm of `exec` that has no meaning yet. Safe: the model goes no further. -/
  | notModelled (mnemonic : String)
  deriving DecidableEq, Repr

/-! ## Moves (log 1) -/

/-- A move of the device: an event, a cycle of a core with the choices of its ports, a flit of its own that comes back to it,
the launch processors' work on a cluster, a request's timeout (R378), a launch processor's write that waits, a write of a hart or
a peer that waits at its home, a flit that leaves on a lane (R373), source locks that the other members of a collective no longer
need (R384), the new heap of a launch whose teams are saved (R223), what a posted shuffle still waits for (R384, R395), the
head of the inbound fault log (R412), and the result of an `mcld.red` that waits at its destination (R248). -/
inductive Move
  | ev (i : Instr)
  | tick (core : Nat)
  | own (f : Flit)
  | args (c : Cid)
  | save (c : Cid)
  | fin (c : Cid)
  | late (serial : Nat)
  | firm
  | retry (num : Nat)
  | send (port lane : Nat)
  | lift (w : LockOwner) (member : Nat)
  | heap (lid : Nat)
  | post (die slot : Nat)
  | head
  | land (t : Tid)
  deriving DecidableEq, Repr

/-! ## The device -/

structure State where
  /-- the thread that issues now; the others are in `pool` -/
  th : Thread
  pool : List Thread
  /-- MODEL: threads of the chosen bundle that still issue (log 1) -/
  bundle : List Tid
  /-- MODEL: moves of other agents, in the order that the spec leaves open (log 1) -/
  agenda : List Instr
  /-- MODEL: moves that stand open, the longest-standing first, and the choices that may still pass over it (log 1) -/
  queue : List Move
  grace : Nat
  clusters : List Cluster
  launches : List Launch
  /-- cores by number 336 × die + 12 × bay + core; an unlisted core is as reset leaves it -/
  cores : List (Nat × Core)
  mem : MemSys
  xl : Xlat
  fab : Fabric
  coll0 : CollEngine
  coll1 : CollEngine
  ctl : Control
  /-- MODEL: counter of free values (log 3) -/
  fresh : Nat
  /-- MODEL: flits sent and not yet taken by the fabric -/
  out : List Flit
  deriving DecidableEq, Repr

/-! ## Reset -/

def LoopLvl.zero : LoopLvl := ⟨0, 0, 0, 0⟩

def Ctx.zero : Ctx :=
  { g := Vector.replicate 16 0, win := Vector.replicate 48 0, res := [], preds := 0,
    lv0 := LoopLvl.zero, lv1 := LoopLvl.zero, lv2 := LoopLvl.zero, ld := 0, ri := 0, rep := none,
    depth := 0, spill := 0, pc := 0, clh := 0, cend := 0, yieldHdr := false, wmask := 0, wfrom := none, drain := false,
    fpst := 0, dphase := 0, latch := none, inH := false, icount := 0, wend := 0 }

/-- DESIGN CHOICE (log 8), unsafe: the place of a thread slot that no launch has filled; W 16 and 64 registers. -/
def Place.zero : Place :=
  { core := 0, port := 0, lane := 0, grp := 0, slot := 0, nslot := 1, spsz := 0, width := 16, regs := 64,
    ctx := 0, keyId := 0, root := 0, hbase := 0, hlim := 0, hoff := 0, code := 0, clen := 0, thand := 0,
    rsbase := 0, rslim := 0, prom := true, flog := 12, dlimLog := 16, tq := false }

/-- R250: the default of c.spec, 0x00083300. -/
def SpecReg.default : SpecReg := { slvl := 0, fix := false, lvl := 0, t1 := 3, t2 := 3, dlog := 8 }

def TrapRegs.zero : TrapRegs :=
  { cause := 0, info := 0, tpc := 0, taddr := 0, tclh := 0, ri := 0, pset := 0 }

def Thread.zero : Thread :=
  { id := ⟨0, 0, 0, 0⟩, place := Place.zero, status := .free, ctx := Ctx.zero, dc := Vector.replicate 6 0,
    trap := TrapRegs.zero, exitedF := false, mhold := false, aged := false, spec := SpecReg.default,
    rbk := 0, ncmt := 0, nesc := 0, esc := [], gov := none, accs := [], ops := [], seq := 0, marks := [],
    notice := false, age := 0, yielded := none, held := none, wpark := none, entryPend := false, pend := none }

def Picker.zero : Picker := ⟨[], none⟩

/-- R29, R156, R261, R300: a core after reset. -/
def Core.zero : Core :=
  { cyc := 0, deque := [], owner := none, tiles := List.replicate 12 none, eng := [], mats := [],
    port0 := Picker.zero, port1 := Picker.zero, dqBad := [] }

def MemSys.zero : MemSys :=
  { hbm := [], tags := [], llc := [], lru0 := [], lru1 := [], bad := [], hidden := [], soft := [], ceHbm := 0, locks := [], migs := [],
    waits := [], fwq := [], pairs := [] }

/-- R231: LOG2N resets to 16. -/
def Xlat.zero : Xlat := { tlb := [], nodes := [], invCtl := 0x10000000, invVa := 0 }

/-- R379, R412, R374. -/
def Fabric.zero : Fabric :=
  { tlog := 20, prism := 0, selfIdx := Config.selfIndex, selfInc := Config.selfIncarnation,
    iflBase := 0, iflHead := 0, iflDrop := 0, member := [], groups := [],
    ports := List.replicate 18 ⟨.down, 0, []⟩, reqs := [], nextSerial := 0, rwatch := [], absent := [],
    incs := [], dropped := 0, shadow := [], pairs := [], gather := [], joined := false, ghosts := [], iflOwed := false }

def CollEngine.zero : CollEngine :=
  { ops := [], gens := List.replicate 64 0, ctrs := List.replicate 64 ⟨0, none⟩, side := [], resv := [],
    buf := 0, orders := [], past := [] }

def HartFault.zero : HartFault := ⟨0, 0, false, false, false⟩
def Hart.zero : Hart := ⟨0, HartFault.zero, 0, false, none, 0⟩

/-- R417. -/
def Loupe.zero : Loupe := { ctl := 0, min := 0xFFFFFFFF, max := 0, cnt := 0, bins := List.replicate 16 0 }

/-- R411, R413, R414, R419: before bring-up. -/
def Control.zero : Control :=
  { up := false, stage := 0, measured := 0, queues := List.replicate 16 0, keys := [], nextGen := 1, key0Done := false, kcmd := 0,
    destroying := false,
    kdata := List.replicate 64 0, krcpt := List.replicate 128 0, serial := 0, lines0 := 0, lines1 := 0,
    harts := List.replicate 16 Hart.zero, procs := List.replicate 2 ⟨0, false⟩, pwr := 0, temp0 := 0, temp1 := 0, clk := 1500, pcap := 3600,
    capOn := false, tripOn := false, ceSram := 0, ueCnt := 0,
    loupe := List.replicate 32 Loupe.zero, reports := 0, meas := List.replicate 64 0, report := [],
    launchEnd := 0 }

/-- The device right after reset, before bring-up: no thread, no launch, no key, memory with nothing listed. -/
def State.reset : State :=
  { th := Thread.zero, pool := [], bundle := [], agenda := [], queue := [], grace := 0, clusters := [], launches := [], cores := [],
    mem := MemSys.zero, xl := Xlat.zero, fab := Fabric.zero, coll0 := CollEngine.zero, coll1 := CollEngine.zero,
    ctl := Control.zero, fresh := 0, out := [] }

end Sys2Proof.Machine
end

