-- ==== Sys2Proof/Machine/Bytes.lean ====
section
/-! DEFINITION. Bytes and numbers, memory as a canonical list of cells, and lists keyed by a number. -/

namespace Sys2Proof.Machine

/-! ## Bytes and numbers (R33: least significant byte first) -/

def natOfBytes : List Byte → Nat
  | [] => 0
  | b :: bs => b.toNat + 256 * natOfBytes bs

def bytesOfNat : Nat → Nat → List Byte
  | 0, _ => []
  | n + 1, v => BitVec.ofNat 8 v :: bytesOfNat n (v / 256)

def bytesOfW (w : Word) : List Byte := bytesOfNat 4 w.toNat
def bytesOfD (d : DWord) : List Byte := bytesOfNat 8 d.toNat

/-- Words of a byte string, four bytes each. -/
def wordsOf : Nat → List Byte → List Word
  | 0, _ => []
  | n + 1, bs => BitVec.ofNat 32 (natOfBytes (bs.take 4)) :: wordsOf n (bs.drop 4)

def bytesOf : List Word → List Byte
  | [] => []
  | w :: ws => bytesOfW w ++ bytesOf ws

/-- Bytes `lo` to `lo + n - 1` of a record as a number. -/
def fieldOf (bs : List Byte) (lo n : Nat) : Nat := natOfBytes ((bs.drop lo).take n)

def dwOf (n : Nat) : DWord := BitVec.ofNat 64 n
def wOf (n : Nat) : Word := BitVec.ofNat 32 n

/-- sext(x, n) as an integer (R3). -/
def sextN (n x : Nat) : Int := if x % 2 ^ n ≥ 2 ^ (n - 1) then (x % 2 ^ n : Int) - 2 ^ n else (x % 2 ^ n : Int)

/-- The pair of a low and a high word (R9). -/
def pairD (lo hi : Word) : DWord := dwOf (lo.toNat + 0x100000000 * hi.toNat)
def loW (d : DWord) : Word := wOf d.toNat
def hiW (d : DWord) : Word := wOf (d.toNat / 0x100000000)

/-! ## Cells -/

def Mem.get : Mem → Nat → Byte
  | [], _ => 0
  | c :: r, a => if c.1 = a then c.2 else Mem.get r a

/-- Write one byte; writing 0x00 removes the entry. -/
def Mem.set : Mem → Nat → Byte → Mem
  | [], a, b => if b = 0 then [] else [(a, b)]
  | c :: r, a, b =>
    if a < c.1 then (if b = 0 then c :: r else (a, b) :: c :: r)
    else if a = c.1 then (if b = 0 then r else (a, b) :: r)
    else c :: Mem.set r a b

def Mem.load (m : Mem) (a : Nat) : Nat → List Byte
  | 0 => []
  | n + 1 => Mem.get m a :: Mem.load m (a + 1) n

def Mem.store (m : Mem) (a : Nat) : List Byte → Mem
  | [] => m
  | b :: bs => Mem.store (Mem.set m a b) (a + 1) bs

/-- Addresses from `lo` on strictly rising, no byte 0x00. -/
def Mem.wfFrom (lo : Nat) : Mem → Bool
  | [] => true
  | c :: r => decide (lo ≤ c.1) && !(c.2 == 0) && Mem.wfFrom (c.1 + 1) r

/-- The canonical form of a memory. -/
def Mem.wf (m : Mem) : Bool := Mem.wfFrom 0 m

/-! ## Lists keyed by a number, keys rising -/

def keyGet (l : List (Nat × α)) (k : Nat) : Option α :=
  match l with
  | [] => none
  | c :: r => if c.1 = k then some c.2 else keyGet r k

def keyDel (l : List (Nat × α)) (k : Nat) : List (Nat × α) := l.filter fun c => c.1 != k

def keyPut (l : List (Nat × α)) (k : Nat) (v : α) : List (Nat × α) :=
  match l with
  | [] => [(k, v)]
  | c :: r => if k < c.1 then (k, v) :: c :: r else if k = c.1 then (k, v) :: r else c :: keyPut r k v

/-! ## Sets of numbers, rising -/

def setAdd : List Nat → Nat → List Nat
  | [], k => [k]
  | c :: r, k => if k < c then k :: c :: r else if k = c then c :: r else c :: setAdd r k

def setDel (l : List Nat) (k : Nat) : List Nat := l.filter fun c => c != k

/-- The numbers from `a` to `a + n - 1`. -/
def rangeFrom (a : Nat) : Nat → List Nat
  | 0 => []
  | n + 1 => a :: rangeFrom (a + 1) n

/-- Aligned units of `u` bytes that `n` bytes at `a` touch. -/
def unitsOf (u a n : Nat) : List Nat := if n = 0 then [] else rangeFrom (a / u) ((a + n - 1) / u - a / u + 1)

/-- The `i`-th element replaced. -/
def listSet (l : List α) (i : Nat) (v : α) : List α := l.set i v

/-- Bit `i` of a number. -/
def bitN (x i : Nat) : Bool := x / 2 ^ i % 2 == 1

/-- The numbers below `n` whose bit is set in `x`. -/
def bitsOf (x n : Nat) : List Nat := (List.range n).filter fun i => bitN x i

end Sys2Proof.Machine
end

