-- ==== Sys2Proof/Machine/Aes.lean ====
section
/-! DEFINITION. AES-256 and its XTS mode over the 16-byte blocks of an HBM line (R218, as FIPS 197 and IEEE 1619 give them). -/

namespace Sys2Proof.Machine

/-! ## Bytes as elements of GF(2^8) -/

/-- Product with x. -/
def gfDouble (a : Nat) : Nat := if a < 128 then 2 * a else Nat.xor (2 * a) 0x11B

def gfMulFrom : Nat → Nat → Nat → Nat
  | 0, _, _ => 0
  | n + 1, a, b => Nat.xor (if b % 2 = 1 then a else 0) (gfMulFrom n (gfDouble a) (b / 2))

def gfMul (a b : Nat) : Nat := gfMulFrom 8 a b

/-- `a` to the power 2, 4, 8, ... multiplied: a^254, the inverse of `a`, and 0 for 0. -/
def gfInv (a : Nat) : Nat :=
  let q := gfMul a a
  ((List.range 6).foldl (fun x _ => let r := gfMul x.1 x.1; (r, gfMul x.2 r)) (q, q)).2

def rotl8 (a k : Nat) : Nat := (a * 2 ^ k + a / 2 ^ (8 - k)) % 256

/-- The S-box, and its inverse. -/
def aesSub (a : Nat) : Nat :=
  let b := gfInv a
  Nat.xor 0x63 (Nat.xor b (Nat.xor (rotl8 b 1) (Nat.xor (rotl8 b 2) (Nat.xor (rotl8 b 3) (rotl8 b 4)))))
def aesUnsub (a : Nat) : Nat := gfInv (Nat.xor 0x05 (Nat.xor (rotl8 a 1) (Nat.xor (rotl8 a 3) (rotl8 a 6))))

/-! ## The cipher: a block is 16 bytes, column by column -/

def xorList (a b : List Nat) : List Nat := List.zipWith Nat.xor a b

/-- Row `r` is shifted by `r` columns, or by `f r`. -/
def aesShift (f : Nat → Nat) (b : List Nat) : List Nat :=
  (List.range 16).map fun i => b.getD (i % 4 + 4 * ((i / 4 + f (i % 4)) % 4)) 0

/-- Each column multiplied by the circulant of `m`. -/
def aesMix (m : List Nat) (b : List Nat) : List Nat :=
  (List.range 16).map fun i =>
    (List.range 4).foldl (fun x k => Nat.xor x (gfMul (m.getD ((k + 4 - i % 4) % 4) 0) (b.getD (i / 4 * 4 + k) 0))) 0

/-- The 60 words of the key schedule, four bytes each, from the 32 bytes of the key. -/
def aesWords (key : List Nat) : List (List Nat) :=
  let w0 := (List.range 8).map fun i => (key.drop (4 * i)).take 4
  (List.range 52).foldl (fun ws n =>
    let i := n + 8
    let t := ws.getD (i - 1) []
    let u := if i % 8 = 0 then
        xorList ((t.drop 1 ++ t.take 1).map aesSub) [(List.range (i / 8 - 1)).foldl (fun x _ => gfDouble x) 1, 0, 0, 0]
      else if i % 8 = 4 then t.map aesSub else t
    ws ++ [xorList (ws.getD (i - 8) []) u]) w0

/-- Round key `r`. -/
def aesRoundKey (ws : List (List Nat)) (r : Nat) : List Nat := ((ws.drop (4 * r)).take 4).flatten

def aesEncWith (ws : List (List Nat)) (b : List Nat) : List Nat :=
  let mid := (List.range 13).foldl (fun x r =>
    xorList (aesMix [2, 3, 1, 1] (aesShift id (x.map aesSub))) (aesRoundKey ws (r + 1))) (xorList b (aesRoundKey ws 0))
  xorList (aesShift id (mid.map aesSub)) (aesRoundKey ws 14)

def aesDecWith (ws : List (List Nat)) (b : List Nat) : List Nat :=
  let back (r : Nat) : Nat := (4 - r) % 4
  let mid := (List.range 13).foldl (fun x r =>
    aesMix [14, 11, 13, 9] (xorList ((aesShift back x).map aesUnsub) (aesRoundKey ws (13 - r)))) (xorList b (aesRoundKey ws 14))
  xorList ((aesShift back mid).map aesUnsub) (aesRoundKey ws 0)

/-! ## XTS -/

def natsOf (bs : List Byte) : List Nat := bs.map (·.toNat)
def bytesOfNats (l : List Nat) : List Byte := l.map (BitVec.ofNat 8)

/-- The tweak of block `j`, doubled `j` times in GF(2^128). -/
def xtsTweak (t : Nat) : Nat → Nat
  | 0 => t
  | j + 1 =>
    let u := xtsTweak t j
    if u < 2 ^ 127 then 2 * u else Nat.xor (2 * u - 2 ^ 128) 0x87

/-- `n` blocks of a data unit from its block `j` on, encrypted or decrypted under the pair `key`: the first half is the data key, the
second the tweak key. -/
def xts (enc : Bool) (key : List Byte) (line j n : Nat) (bs : List Byte) : List Byte :=
  let k := natsOf key
  let ws := aesWords (k.take 32)
  let t := natOfBytes (bytesOfNats (aesEncWith (aesWords (k.drop 32)) (natsOf (bytesOfNat 16 line))))
  (List.range n).flatMap fun i =>
    let m := natsOf (bytesOfNat 16 (xtsTweak t (j + i)))
    let b := natsOf ((bs.drop (16 * i)).take 16)
    bytesOfNats (xorList m ((if enc then aesEncWith ws else aesDecWith ws) (xorList m b)))

/-- R218: the 64-byte sector at `pa` under a key pair. The tweak is pa[51:7]. -/
def sectorCrypt (enc : Bool) (key : List Byte) (pa : Nat) (bs : List Byte) : List Byte :=
  xts enc key (pa / 128 % 2 ^ 45) (pa % 128 / 16) 4 bs

end Sys2Proof.Machine
end

