-- ==== Sys2Proof/Machine/Memory.lean ====
section
/-! DEFINITION. Physical memory: HBM bytes under key generations (R218, R219), the two LLCs' coherence states (R356, R357),
uncorrectable words (R344, R345), range locks (R297), migration (R232), key slots, page walks and TLBs (R224 to R230). -/

namespace Sys2Proof.Machine

/-! ## Homes -/

/-- R213: the home die of a physical address. -/
def homeDie (pa : Nat) : Nat := if Config.dieOneBase ≤ pa then 1 else 0

/-- R213: `n` bytes at `pa` lie in HBM. -/
def inHbm (pa n : Nat) : Bool := decide (pa + n ≤ Config.hbmTop)

/-- R210: the slice, of the 256 of whichever die caches it, that holds the line of `pa`. -/
def sliceIx (pa : Nat) : Nat :=
  let n := (pa - homeDie pa * Config.dieOneBase) / 128
  Nat.xor (n % 256) (n / 256 % 256)

/-- R241: the slice of the home die, numbered over both dies. -/
def sliceOf (pa : Nat) : Nat := 256 * homeDie pa + sliceIx pa

/-- R213: the stack, of the six of its home die, that holds the page of `pa`, numbered over both dies. -/
def stackOf (pa : Nat) : Nat := 6 * homeDie pa + (pa - homeDie pa * Config.dieOneBase) / 4096 % 6

/-- R210: sets of a slice. -/
def Grade.sets : Grade → Nat
  | .sa4 => 8192
  | .sa2 => 4096

/-- DESIGN CHOICE (log 62), unsafe: the set of a line is the low part of its die-local index above the slice's bits. -/
def setOf (pa : Nat) : Nat := (pa - homeDie pa * Config.dieOneBase) / 128 / 256 % Grade.sets Config.grade

/-- Base of the 64-byte sector of `pa` (R210). -/
def sectorOf (pa : Nat) : Nat := pa / 64 * 64

/-- R360: the die-1 replica of a mirror address. -/
def mirrorOf (pa : Nat) : Nat := pa + Config.dieOneBase

/-! ## Coherence (R356, R357) -/

/-- States after a read at this die, from this die's and the other die's state. -/
def cohRead (this other : Coh) : Coh × Coh :=
  match this with
  | .i =>
    match other with
    | .m => (.s, .o)
    | .o => (.s, .o)
    | .e => (.s, .s)
    | .s => (.s, .s)
    | .i => (.e, .i)
  | .m => (.m, other)
  | .o => (.o, other)
  | .e => (.e, other)
  | .s => (.s, other)

/-- States after a write at this die. -/
def cohWrite (_this _o : Coh) : Coh × Coh := (.m, .i)

/-- Does either die hold the sector differing from HBM? -/
def LlcLine.dirty (l : LlcLine) : Bool := l.d0 == .m || l.d0 == .o || l.d1 == .m || l.d1 == .o

def llcFind (m : MemSys) (sec : Nat) : Option LlcLine := m.llc.find? fun l => l.pa == sec

/-- Saturating addition on a counter. -/
def satAdd (w : Word) (n : Nat) : Word := if 0xFFFFFFFF ≤ w.toNat + n then 0xFFFFFFFF else wOf (w.toNat + n)

/-- The 32-byte words of a sector. -/
def inSector (sec w : Nat) : Bool := w / 2 == sec / 64

/-- A sector that no LLC holds any more: a clean copy's errors go with it, and HBM's show again (R344). -/
def llcDrop (m : MemSys) (sec : Nat) (dirty : Bool) : MemSys :=
  { m with llc := m.llc.filter fun l => l.pa != sec,
           bad := if dirty then m.bad else m.bad.filter (fun w => !inSector sec w) ++ m.hidden.filter (inSector sec),
           hidden := m.hidden.filter fun w => !inSector sec w }

/-- The entry of a sector. -/
def llcPut (m : MemSys) (l : LlcLine) : MemSys := { m with llc := l :: m.llc.filter fun k => k.pa != l.pa }

/-- The copy of sector `sec`, retired where its tag is another generation than `gen`. -/
def llcRetireSector (m : MemSys) (gen sec : Nat) : MemSys :=
  match llcFind m sec with
  | none => m
  | some l => if l.gen = gen then m else llcDrop m sec l.dirty

/-- R210, R219: the tag is the 128-byte line's, so copies of both its sectors under another key are written back and invalidated
before the access proceeds. -/
def llcRetire (m : MemSys) (sec gen : Nat) : MemSys :=
  [sec / 128 * 128, sec / 128 * 128 + 64].foldl (fun m x => llcRetireSector m gen x) m

def LlcLine.fresh (sec gen : Nat) : LlcLine :=
  { pa := sec, d0 := .i, d1 := .i, gen := gen, old := [], oldGen := none, harts := [], hartM := none }

/-- The state of a sector on one die, and with that die's copy, and the copies of its harts, gone (R359). -/
def LlcLine.at' (l : LlcLine) (die : Nat) : Coh := if die = 0 then l.d0 else l.d1
def LlcLine.without (l : LlcLine) (die : Nat) : LlcLine :=
  let k := { l with harts := l.harts.filter fun h => h / 8 != die,
                    hartM := match l.hartM with
                      | some h => if h / 8 = die then none else some h
                      | none => none }
  if die = 0 then { k with d0 := .i } else { k with d1 := .i }

/-- R357: die `die` evicts the sector of `pa`, writing it back from M or O. -/
def evict (m : MemSys) (die pa : Nat) : MemSys :=
  match llcFind m (sectorOf pa) with
  | none => m
  | some l =>
    if l.at' die = .i then m
    else
      let k := l.without die
      if l.at' die == .m || l.at' die == .o then
        let k := { k with old := [], oldGen := none }
        if k.d0 == .i && k.d1 == .i then llcDrop m l.pa true
        else llcPut { m with hidden := m.bad.filter (inSector l.pa) ++ m.hidden.filter (fun w => !inSector l.pa w) } k
      else if k.d0 == .i && k.d1 == .i then llcDrop m l.pa false
      else llcPut m k

/-- Numbers with their later repetitions left out. -/
def firsts : List Nat → List Nat
  | [] => []
  | a :: r => a :: (firsts r).filter fun b => b != a

/-- R211: the lines of a die by their latest use there. -/
def MemSys.lru (m : MemSys) (die : Nat) : List Nat := if die = 0 then m.lru0 else m.lru1
def MemSys.setLru (m : MemSys) (die : Nat) (l : List Nat) : MemSys := if die = 0 then { m with lru0 := l } else { m with lru1 := l }

/-- Die `die` holds a sector of line `n`. -/
def lineHeld (m : MemSys) (die n : Nat) : Bool := m.llc.any fun l => l.pa / 128 == n && l.at' die != .i

/-- R210, R211: a use of `sec` on die `die`; beyond 16 lines in its set there the least recently used line leaves. -/
def llcTrim (m : MemSys) (die sec : Nat) : MemSys :=
  let used := (sec / 128) :: (m.lru die).filter fun n => n != sec / 128
  if m.llc.length ≤ 16 then m.setLru die used
  else
    let live := used.filter (lineHeld m die)
    let mine := live.filter fun n => sliceIx (128 * n) == sliceIx sec && setOf (128 * n) == setOf sec
    (mine.drop 16).foldl (fun m n => evict (evict m die (128 * n)) die (128 * n + 64)) (m.setLru die live)

/-- The copy of a sector, filled from HBM where there is none; the fill corrects and counts single-bit errors (R344). -/
def llcFill (m : MemSys) (sec gen : Nat) : MemSys × LlcLine :=
  let m := llcRetire m sec gen
  match llcFind m sec with
  | some l => (m, l)
  | none =>
    ({ m with hidden := m.bad.filter (inSector sec) ++ m.hidden.filter (fun w => !inSector sec w),
              soft := m.soft.filter fun w => !inSector sec w,
              ceHbm := satAdd m.ceHbm (m.soft.filter (inSector sec)).length }, LlcLine.fresh sec gen)

/-- R357: a read of sector `sec` at die `die` under generation `gen`. A hart's copy in M gives its data and is shared (R359). -/
def llcRead (m : MemSys) (die sec gen : Nat) : MemSys :=
  let f := llcFill m sec gen
  let l := { f.2 with hartM := none }
  llcTrim (if die = 0 then
    let c := cohRead l.d0 l.d1
    llcPut f.1 { l with d0 := c.1, d1 := c.2 }
  else
    let c := cohRead l.d1 l.d0
    llcPut f.1 { l with d1 := c.1, d0 := c.2 }) die sec

/-- R357: a write. What HBM holds is kept while the copy differs from it; copies of harts are recalled first (R359). -/
def llcWrite (m : MemSys) (die sec gen : Nat) : MemSys :=
  let f := llcFill m sec gen
  let m := f.1
  let k := { f.2 with harts := [], hartM := none }
  let l := if k.dirty then k else { k with old := Mem.load m.hbm sec 64, oldGen := keyGet m.tags sec }
  llcTrim (if die = 0 then
    let c := cohWrite l.d0 l.d1
    llcPut m { l with d0 := c.1, d1 := c.2 }
  else
    let c := cohWrite l.d1 l.d0
    llcPut m { l with d1 := c.1, d0 := c.2 }) die sec

/-- R359: hart `h` keeps a copy of the sector, in M after its write. -/
def llcHart (m : MemSys) (h sec : Nat) (write : Bool) : MemSys :=
  match llcFind m sec with
  | none => m
  | some l => llcPut m { l with harts := if write then [h] else setAdd l.harts h, hartM := if write then some h else none }

/-- R358: a watch registered at die `die` moves a holder of the sector on the other die from M or E to O or S. -/
def llcShare (m : MemSys) (die sec : Nat) : MemSys :=
  let down (c : Coh) : Coh := match c with
    | .m => .o
    | .e => .s
    | .o => .o
    | .s => .s
    | .i => .i
  match llcFind m sec with
  | none => m
  | some l => llcPut m (if die = 0 then { l with d1 := down l.d1 } else { l with d0 := down l.d0 })

/-! ## Bytes under a key generation -/

/-- The key pair of a generation. -/
def MemSys.pair (m : MemSys) (gen : Nat) : List Byte := (keyGet m.pairs gen).getD []

/-- R218, R219: what a reader under the pair `r` sees of a sector written under the pair `w`: its ciphertext, decrypted. -/
def recrypt (w r : List Byte) (sec : Nat) (bs : List Byte) : List Byte :=
  if w = r then bs else sectorCrypt false r sec (sectorCrypt true w sec bs)

/-- The plaintext of sector `sec` as a reader under `gen` sees it (R219, log 5). -/
def sectorUnder (m : MemSys) (gen sec : Nat) : List Byte :=
  let raw := Mem.load m.hbm sec 64
  match keyGet m.tags sec with
  | none => raw
  | some w => if w = gen then raw else recrypt (m.pair w) (m.pair gen) sec raw

def padTo (n : Nat) (bs : List Byte) : List Byte := (bs ++ List.replicate n 0).take n

/-- Byte at `pa` as a reader under `gen` sees it. -/
def physByte (m : MemSys) (gen pa : Nat) : Byte :=
  match keyGet m.tags (sectorOf pa) with
  | none => Mem.get m.hbm pa
  | some w =>
    if w = gen then Mem.get m.hbm pa
    else (sectorUnder m gen (sectorOf pa)).getD (pa % 64) 0

def physRead (m : MemSys) (gen pa : Nat) : Nat → List Byte
  | 0 => []
  | n + 1 => physByte m gen pa :: physRead m gen (pa + 1) n

/-- Make sector `sec` belong to generation `gen`, its other bytes being what a reader under `gen` sees. -/
def retag (m : MemSys) (gen sec : Nat) : MemSys :=
  match keyGet m.tags sec with
  | none => { m with tags := keyPut m.tags sec gen }
  | some w =>
    if w = gen then m
    else { m with hbm := Mem.store m.hbm sec (padTo 64 (sectorUnder m gen sec)), tags := keyPut m.tags sec gen }

/-- Write the bytes of one sector at `pa` under `gen`. -/
def physWrite1 (m : MemSys) (gen pa : Nat) (bs : List Byte) : MemSys :=
  let m := retag m gen (sectorOf pa)
  { m with hbm := Mem.store m.hbm pa bs }

/-- R345: words of 32 bytes that a write covers whole are replaced. -/
def badCleared (bad : List Nat) (pa n : Nat) : List Nat :=
  bad.filter fun w => !(decide (pa ≤ w * 32) && decide (w * 32 + 32 ≤ pa + n))

/-- Does an access of `n` bytes at `pa` read an uncorrectable word? A write reads the words it covers in part. -/
def badHit (m : MemSys) (pa n : Nat) (write : Bool) : Bool :=
  (unitsOf 32 pa n).any fun w =>
    m.bad.contains w && (!write || !(decide (pa ≤ w * 32) && decide (w * 32 + 32 ≤ pa + n)))

/-- Coherent write of bytes that stay in one sector, at die `die`. -/
def physStore (m : MemSys) (die gen pa : Nat) (bs : List Byte) : MemSys :=
  let m := llcWrite m die (sectorOf pa) gen
  let m := physWrite1 m gen pa bs
  { m with bad := badCleared m.bad pa bs.length }

/-- Coherent write of any length, sector by sector; `fuel` bounds the number of sectors. -/
def physStoreAll : Nat → MemSys → Nat → Nat → Nat → List Byte → MemSys
  | 0, m, _, _, _, _ => m
  | fuel + 1, m, die, gen, pa, bs =>
    match bs with
    | [] => m
    | _ =>
      let k := 64 - pa % 64
      physStoreAll fuel (physStore m die gen pa (bs.take k)) die gen (pa + k) (bs.drop k)

/-- Engine and firmware writes take M at the home die (R357). -/
def homeStore (m : MemSys) (gen pa : Nat) (bs : List Byte) : MemSys :=
  physStoreAll (bs.length / 64 + 2) m (homeDie pa) gen pa bs

/-! ## Range locks and migration -/

/-- R297: an entry overlaps `n` bytes at `pa`. -/
def lockHit (m : MemSys) (pa n : Nat) : Bool :=
  m.locks.any fun l => decide (l.lo < pa + n) && decide (pa < l.hi)

/-- R298: entries that make a new range wait: any for a destination, destinations for a source. -/
def lockConflict (m : MemSys) (lo hi : Nat) (dest : Bool) : Bool :=
  m.locks.any fun l => (dest || l.dest) && decide (l.lo < hi) && decide (lo < l.hi)

/-- The places of a page, or of both its replicas where it is a mirror page (R360). -/
def replicas (pa : Nat) (mir : Bool) : List Nat := if mir then [pa, mirrorOf pa] else [pa]

/-- R232, R361: the page under migration that `n` bytes at `pa` meet, in its old copy or at its new place, on either die. -/
def migHit (m : MemSys) (pa n : Nat) : Option Migration :=
  m.migs.find? fun g => (replicas g.pa g.mir ++ replicas g.newPa g.mir).any fun p => decide (p < pa + n) && decide (pa < p + g.len)

/-- An address at the new place of a page under migration, in its old copy. -/
def Migration.back (g : Migration) (pa : Nat) : Option Nat :=
  ((replicas g.newPa g.mir).zip (replicas g.pa g.mir)).findSome? fun p =>
    if p.1 ≤ pa ∧ pa < p.1 + g.len then some (p.2 + (pa - p.1)) else none

/-- R232: until the switch, what the new place of a page names is served from its old copy, and its writes are held there. -/
def MemSys.live (m : MemSys) (pa : Nat) : Nat := (m.migs.findSome? fun g => g.back pa).getD pa

/-! ## Keys -/

/-- R217: the generation of a valid key slot. -/
def genOf (s : State) (k : Nat) : Option Nat := (s.ctl.keys.find? fun e => e.id == k).map (·.gen)

/-- Walk units read under key id 0 (R229). -/
def gen0 (s : State) : Nat := (genOf s 0).getD 0

/-! ## Page walks (R225 to R228) -/

/-- Index shift, index bits, size of the next level's node, and log2 of a leaf's page (0: no leaf here). -/
def walkLevels : List (Nat × Nat × Nat × Nat) :=
  [(47, 9, 4096, 0), (38, 9, 1024, 0), (31, 7, 512, 31), (25, 6, 4096, 25), (16, 9, 1, 16)]

/-- One entry against R227: the next node, a leaf, or the code of the trap. -/
def readEntry (e next pageLog : Nat) (last : Bool) : Except Nat (Nat ⊕ Leaf) :=
  let leaf := bitN e 1
  let addr := e / 512 % 2 ^ 43 * 512
  if !bitN e 0 then .error 0x0B
  else if bitN e 5 then .error (if leaf then 0x0B else 0x0C)
  else if bitN e 6 && !leaf then .error 0x0D
  else if e / 2 ^ 52 != 0 || (leaf && pageLog == 0) || (!leaf && last) then .error 0x09
  else if leaf then
    if bitN e 6 || addr % 2 ^ pageLog != 0 || !inHbm addr (2 ^ pageLog)
        || (bitN e 4 && !decide (addr + 2 ^ pageLog ≤ Config.dieOneBase)) then .error 0x09
    else .ok (.inr { page := addr, size := pageLog, w := bitN e 2, x := bitN e 3, mir := bitN e 4 })
  else if bitN e 2 || bitN e 3 || bitN e 4 || addr % next != 0 || !inHbm addr next then .error 0x09
  else .ok (.inl addr)

/-- R230: the next node that the walk unit of `node` holds for `va` at the level with index shift `shift`. -/
def nodeFind (x : Xlat) (ctx node shift va : Nat) : Option Nat :=
  (x.nodes.find? fun e => e.unit == stackOf node && e.ctx == ctx && e.shift == shift && e.va / 2 ^ shift == va / 2 ^ shift).map (·.next)

/-- Address of the entry of `va` in `node`. -/
def entryAt (node shift bits va : Nat) : Nat := node + 8 * (va / 2 ^ shift % 2 ^ bits)

/-- R228: the walk from `node` on. Each entry is read by the walk unit of the node's stack, which may hold it; a node in a page
under migration is read in its old copy (R232). -/
def walkFrom (x : Xlat) (m : MemSys) (gen ctx va : Nat) : List (Nat × Nat × Nat × Nat) → Nat → Except Nat Leaf
  | [], _ => .error 0x09
  | (shift, bits, next, pageLog) :: rest, node =>
    match nodeFind x ctx node shift va with
    | some n => walkFrom x m gen ctx va rest n
    | none =>
      if badHit m (m.live (entryAt node shift bits va)) 8 false then .error 0x12
      else
        match readEntry (natOfBytes (physRead m gen (m.live (entryAt node shift bits va)) 8)) next pageLog rest.isEmpty with
        | .error c => .error c
        | .ok (.inr l) => .ok l
        | .ok (.inl n) => walkFrom x m gen ctx va rest n

/-- R227: the leaf of `va` in context `ctx`, or the trap's code. -/
def walk (s : State) (ctx root va : Nat) : Except Nat Leaf := walkFrom s.xl s.mem (gen0 s) ctx va walkLevels root

/-- The entries that a walk reads in memory: index shift, node, and the next node, 0 for the last. -/
def walkPath (x : Xlat) (m : MemSys) (gen ctx va : Nat) : List (Nat × Nat × Nat × Nat) → Nat → List (Nat × Nat × Nat × Nat)
  | [], _ => []
  | (shift, bits, next, pageLog) :: rest, node =>
    match nodeFind x ctx node shift va with
    | some n => walkPath x m gen ctx va rest n
    | none =>
      let e := m.live (entryAt node shift bits va)
      match readEntry (natOfBytes (physRead m gen e 8)) next pageLog rest.isEmpty with
      | .ok (.inl n) => (shift, node, e, n) :: walkPath x m gen ctx va rest n
      | _ => [(shift, node, e, 0)]

/-- R219: the walk's reads retire the copies of its entries that stand under another key. -/
def walkRetire (x : Xlat) (m : MemSys) (gen ctx root va : Nat) : MemSys :=
  (walkPath x m gen ctx va walkLevels root).foldl (fun m r => llcRetire m (sectorOf r.2.2.1) gen) m

/-- The entries of a node with a listed byte, or in a sector written under another generation; every other one reads as 0. -/
def liveEntries (m : MemSys) (gen node bits : Nat) : List Nat :=
  let within (a : Nat) : Bool := decide (node ≤ a) && decide (a < node + 8 * 2 ^ bits)
  firsts (((m.hbm.filter fun c => within c.1).map fun c => (c.1 - node) / 8)
    ++ (m.tags.filter fun t => t.2 != gen && within t.1).flatMap fun t => (List.range 8).map fun i => (t.1 - node) / 8 + i)

/-- Every leaf of a page table: the virtual address of its page, and the leaf. -/
def leavesFrom (m : MemSys) (gen : Nat) : List (Nat × Nat × Nat × Nat) → Nat → Nat → List (Nat × Leaf)
  | [], _, _ => []
  | (shift, bits, next, pageLog) :: rest, node, va =>
    (liveEntries m gen (m.live node) bits).flatMap fun i =>
      match readEntry (natOfBytes (physRead m gen (m.live node + 8 * i) 8)) next pageLog rest.isEmpty with
      | .error _ => []
      | .ok (.inr l) => [(va + i * 2 ^ shift, l)]
      | .ok (.inl n) => leavesFrom m gen rest n (va + i * 2 ^ shift)

/-- The leaves of the launches that run, with their contexts. -/
def allLeaves (s : State) : List (Nat × Nat × Leaf) :=
  (s.launches.filter fun l => !l.complete).flatMap fun l => (leavesFrom s.mem (gen0 s) walkLevels l.root 0).map fun x => (l.ctx, x)

/-- A page under migration as a leaf. -/
def Migration.leaf (g : Migration) : Leaf := { page := g.pa, size := Nat.log2 g.len, w := true, x := true, mir := g.mir }

/-- R360: the mirror page that holds `pa` in one of its replicas: the page of die 0, and its size. DESIGN CHOICE (log 68): for an
agent that names physical addresses a page is a mirror page while a leaf with MIR in the tables of an open launch names it, or firmware migrates it as one. -/
def mirrorPage (s : State) (pa : Nat) : Option Leaf :=
  let mapped : List Leaf := (allLeaves s).map fun x => { x.2.2 with page := s.mem.live x.2.2.page }
  (mapped ++ s.mem.migs.map Migration.leaf).find? fun l => l.mir &&
    ((decide (l.page ≤ pa) && decide (pa < l.page + 2 ^ l.size)) || (decide (mirrorOf l.page ≤ pa) && decide (pa < mirrorOf l.page + 2 ^ l.size)))

/-- R360: the sequencer die of a mirror page: the lowest bit of ADDR above the page offset. -/
def Leaf.sequencer (l : Leaf) : Nat := l.page / 2 ^ l.size % 2

/-! ## Translation (R224) -/

/-- What an issuing unit translates under. -/
structure Xctx where
  ctx : Nat
  root : Nat
  hbase : Nat
  hlim : Nat
  hoff : Nat
  deriving DecidableEq, Repr

def Place.xctx (p : Place) : Xctx := ⟨p.ctx, p.root, p.hbase.toNat, p.hlim.toNat, p.hoff.toNat⟩
def Launch.xctx (l : Launch) : Xctx := ⟨l.ctx, l.root, l.hbase.toNat, l.hlim.toNat, l.hoff.toNat⟩

/-- Kinds of access for permissions (R227). -/
inductive AccT | rd | wr | fetch
  deriving DecidableEq, Repr

/-- R230, R233: the held leaf of `va` in the TLBs from level `first` on: the core's, its bay's, its die's. An engine has none of its
own and starts at the bay's. -/
def tlbFind (s : State) (first core ctx va : Nat) : Option Leaf :=
  let hit (lv unit : Nat) := if lv < first then none else (s.xl.tlb.find? fun e =>
    e.level == lv && e.unit == unit && e.ctx == ctx && e.va / 2 ^ e.leaf.size == va / 2 ^ e.leaf.size).map (·.leaf)
  (hit 0 core).orElse fun _ => (hit 1 (core / 12)).orElse fun _ => hit 2 (core / 336)

def Xctx.inHeap (x : Xctx) (va : Nat) : Bool := decide (x.hbase ≤ va) && decide (va < x.hlim)

/-- R224: what the tables, or the heap's offset, give for a tag-0x00 address: physical address and mirror mark, or the code of the
trap. -/
def xlateFrom (s : State) (first core : Nat) (x : Xctx) (va : Nat) (t : AccT) : Except Nat (Nat × Bool) :=
  if x.inHeap va then
    if t = .fetch then .error 0x09 else .ok ((va + x.hoff) % 2 ^ 64, false)
  else
    match (match tlbFind s first core x.ctx va with
           | some l => Except.ok l
           | none => walk s x.ctx x.root va) with
    | .error c => .error c
    | .ok l =>
      if (t == .wr && !l.w) || (t == .fetch && !l.x) then .error 0x09
      else .ok (l.page + va % 2 ^ l.size, l.mir)

/-- R224, R232: where an access of the unit goes now, the old copy standing for a page under migration. -/
def xlateAt (s : State) (first core : Nat) (x : Xctx) (va : Nat) (t : AccT) : Except Nat (Nat × Bool) :=
  match xlateFrom s first core x va t with
  | .error c => .error c
  | .ok (pa, mir) => .ok (s.mem.live pa, mir)

/-- R224: a thread's address. -/
def xlate (s : State) (core : Nat) (x : Xctx) (va : Nat) (t : AccT) : Except Nat (Nat × Bool) := xlateAt s 0 core x va t

/-- R224, R233: an address of the copy engine of a core, or of the collective engine that the core's bay serves. -/
def xlateEng (s : State) (core : Nat) (x : Xctx) (va : Nat) (t : AccT) : Except Nat (Nat × Bool) := xlateAt s 1 core x va t

/-- R219, R228: the LLC after the walk, if one is needed, of an address. -/
def walked (s : State) (first core : Nat) (x : Xctx) (va : Nat) : State :=
  if x.inHeap va || (tlbFind s first core x.ctx va).isSome then s
  else { s with mem := walkRetire s.xl s.mem (gen0 s) x.ctx x.root va }

/-- R361: each die reads its own replica of a mirror page. -/
def replica (pa : Nat) (mir : Bool) (die : Nat) : Nat := if mir && die == 1 then mirrorOf pa else pa

/-- R35: a write reaches a location of an open launch's code range. -/
def codeHit (s : State) (pa n : Nat) : Bool :=
  s.launches.any fun l => !l.complete && l.codePhys.any fun r => decide (r.1 < pa + n) && decide (pa < r.1 + r.2)

/-! ## Clusters and scratchpads -/

def findCluster (s : State) (c : Cid) : Option Cluster := s.clusters.find? fun k => k.id == c

def setCluster (s : State) (k : Cluster) : State :=
  { s with clusters := s.clusters.map fun c => if c.id == k.id then k else c }

def findLaunch (s : State) (lid : Nat) : Option Launch := s.launches.find? fun l => l.lid == lid

def setLaunch (s : State) (l : Launch) : State :=
  { s with launches := s.launches.map fun k => if k.lid == l.lid then l else k }

def findSlot (s : State) (c : Cid) (i : Nat) : Option Slot := (findCluster s c).bind fun k => k.slots[i]?

def setSlot (s : State) (c : Cid) (i : Nat) (v : Slot) : State :=
  match findCluster s c with
  | none => s
  | some k => setCluster s { k with slots := k.slots.set i v }

def getCore (s : State) (n : Nat) : Core := (keyGet s.cores n).getD Core.zero
def setCore (s : State) (n : Nat) (c : Core) : State := { s with cores := keyPut s.cores n c }

/-- R203: some 32-byte sector of the range is absent. -/
def Slot.isAbsent (v : Slot) (off n : Nat) : Bool := (unitsOf 32 off n).any v.absent.contains

/-- R208: some page of the range is unpinned. -/
def Slot.isUnpinned (v : Slot) (off n : Nat) : Bool := (unitsOf 4096 off n).any v.unpinned.contains

/-- R344: some 8-byte word of the range is uncorrectable; a write reads the words it covers in part. -/
def Slot.badHit (v : Slot) (off n : Nat) (write : Bool) : Bool :=
  (unitsOf 8 off n).any fun w =>
    v.bad.contains w && (!write || !(decide (off ≤ w * 8) && decide (w * 8 + 8 ≤ off + n)))

/-- Bytes written to a scratchpad, replacing whole protected words. -/
def Slot.write (v : Slot) (off : Nat) (bs : List Byte) : Slot :=
  { v with bytes := Mem.store v.bytes off bs,
           bad := v.bad.filter fun w => !(decide (off ≤ w * 8) && decide (w * 8 + 8 ≤ off + bs.length)) }

def Slot.setAbsent (v : Slot) (off n : Nat) : Slot := { v with absent := (unitsOf 32 off n).foldl setAdd v.absent }
def Slot.setPresent (v : Slot) (off n : Nat) : Slot :=
  { v with absent := v.absent.filter fun k => !(unitsOf 32 off n).contains k }

/-- R197, R199: the slot and the offset that a scratchpad address names, seen from slot `own`. -/
def spadSlot (own : Nat) (ea : Nat) : Nat := if ea / 2 ^ 56 = 0xF0 then own else ea / 2 ^ 20 % 16
def spadOff (ea : Nat) : Nat := ea % 2 ^ 20

/-- R200: the bits that must be zero, the slot's number and its allocation. -/
def spadOk (s : State) (c : Cid) (own ea n : Nat) : Bool :=
  let zeros := if ea / 2 ^ 56 = 0xF0 then ea / 2 ^ 20 % 2 ^ 36 == 0 else ea / 2 ^ 24 % 2 ^ 32 == 0
  zeros && (match findSlot s c (spadSlot own ea) with
            | none => false
            | some v => decide (spadOff ea + n ≤ v.size))

end Sys2Proof.Machine
end

