-- ==== Sys2Proof/Machine/Access.lean ====
section
/-! DEFINITION. One access: where its address goes (R197, R323), whether it may perform now (R204, R205, R232, R297, R361),
and its read or write with the probe of watches (R243). -/

namespace Sys2Proof.Machine

/-! ## Causes (R322) -/

def cIllegalOpcode : Nat := 0x01
def cIllegalClause : Nat := 0x02
def cIllconv : Nat := 0x03
def cConvDeadlock : Nat := 0x04
def cMisaligned : Nat := 0x05
def cSpadRange : Nat := 0x06
def cAbsentStore : Nat := 0x07
def cRangeBusy : Nat := 0x08
def cProt : Nat := 0x09
def cKeyFault : Nat := 0x0A
def cPageFault : Nat := 0x0B
def cTableFault : Nat := 0x0C
def cTableFar : Nat := 0x0D
def cSpillLimit : Nat := 0x0E
def cRemoteFault : Nat := 0x0F
def cRemoteTimeout : Nat := 0x10
def cAsyncFault : Nat := 0x11
def cEccFatal : Nat := 0x12
def cBrk : Nat := 0x13
def cTrap : Nat := 0x14

def excOf (code : Nat) (addr : DWord) : Exc := .trap code 0 addr

/-! ## Resolving an address -/

/-- The membership table (R369, R412). -/
def isMember (s : State) (dev : Nat) : Bool := bitN (Mem.get s.fab.member (dev / 8)).toNat (dev % 8)

/-- R369: the device's own index. -/
def isSelf (s : State) (dev : Nat) : Bool := dev == s.fab.selfIdx.toNat

/-- R161, R369: an offset of the device's own index is the tag-0x00 address that it spells, in the thread's launch. -/
def peerLoc (s : State) (th : Thread) (dev off : Nat) : Loc :=
  .peer dev off (if isSelf s dev then (match xlate s th.place.core th.place.xctx off .rd with
    | .ok (pa, _) => some pa
    | .error _ => none) else none)

/-- R323: checks 5 to 9 of an access of `n` bytes at `ea`, and where it goes. -/
def resolve (s : State) (th : Thread) (t : AccT) (ea : DWord) (n : Nat) : Except Exc Loc :=
  let a := ea.toNat
  if a % n != 0 then .error (excOf cMisaligned ea)
  else if a / 2 ^ 56 = 0xF0 || a / 2 ^ 56 = 0xF1 then
    if spadOk s ⟨th.id.lid, th.id.clus⟩ th.place.slot a n then
      .ok (.spad ⟨th.id.lid, th.id.clus⟩ (spadSlot th.place.slot a) (spadOff a))
    else .error (.kill ea)
  else if a / 2 ^ 56 = 0xF4 then
    if isMember s (a / 2 ^ 46 % 1024) then .ok (peerLoc s th (a / 2 ^ 46 % 1024) (a % 2 ^ 46))
    else .error (excOf cProt ea)
  else if a / 2 ^ 56 != 0 then .error (excOf cProt ea)
  else
    match xlate s th.place.core th.place.xctx a t with
    | .error c => .error (excOf c ea)
    | .ok (pa, mir) =>
      if t == .wr && codeHit s pa n then .error (excOf cProt ea)
      else if (genOf s th.place.keyId).isNone then .error (excOf cKeyFault ea)
      else .ok (.hbm pa mir)

/-! ## May it perform now? -/

/-- Go on, wait (parked or held at its home), or raise. -/
inductive Gate
  | go
  | park
  | wait
  | bad (e : Exc)
  deriving DecidableEq, Repr

/-- R264, R299: a scratchpad source range of an operation in flight is held against writes. -/
def spadHeld (s : State) (c : Cid) (slot off n : Nat) : Bool :=
  s.cores.any fun k =>
    (k.2.mats.any fun o => o.cid == c && o.holds.any fun h => h.1 == slot && decide (h.2.1 < off + n) && decide (off < h.2.1 + h.2.2))
    || (k.2.eng.any fun o => o.cid == c && o.holds.any fun h => h.1 == slot && decide (h.2.1 < off + n) && decide (off < h.2.1 + h.2.2))

/-- R323: checks 10 to 12 at the moment when the access performs, with the code range as it is then (R35), parking (R204, R208) and migration (R232). -/
def gate (s : State) (die : Nat) (t : AccT) (loc : Loc) (ea : DWord) (n : Nat) : Gate :=
  match loc with
  | .peer _ _ _ => .go
  | .spad c i off =>
    match findSlot s c i with
    | none => .bad (.kill ea)
    | some v =>
      if v.isUnpinned off n then .park
      else if t == .wr then
        if spadHeld s c i off n then .bad (excOf cRangeBusy ea)
        else if v.isAbsent off n then .bad (excOf cAbsentStore ea)
        else if v.badHit off n true then .bad (excOf cEccFatal ea)
        else .go
      else if v.isAbsent off n then .park
      else if v.badHit off n false then .bad (excOf cEccFatal ea)
      else .go
  | .hbm pa mir =>
    let p := replica pa mir die
    let wr := t == .wr
    if wr && (codeHit s pa n || (mir && codeHit s (mirrorOf pa) n)) then .bad (excOf cProt ea)
    else if lockHit s.mem p n || (mir && wr && lockHit s.mem (mirrorOf pa) n) then .bad (excOf cRangeBusy ea)
    else if wr && ((migHit s.mem pa n).isSome || (mir && (migHit s.mem (mirrorOf pa) n).isSome)) then .wait
    else if badHit s.mem p n wr || (mir && wr && (replicas pa true).any fun q => badHit s.mem q n true) then .bad (excOf cEccFatal ea)
    else .go

/-! ## Watches (R241, R243) -/

/-- R161: what an address of the device's own index reaches is the location of the physical address. -/
def Loc.home : Loc → Loc
  | .hbm pa mir => .hbm pa mir
  | .spad c i off => .spad c i off
  | .peer _ _ (some pa) => .hbm pa false
  | .peer d o none => .peer d o none

/-- Do two ranges share an aligned 4-byte word of one location space? -/
def Loc.meets (l : Loc) (n : Nat) (k : Loc) (m : Nat) : Bool :=
  let ov (a b : Nat) : Bool := decide (a / 4 ≤ (b + m - 1) / 4) && decide (b / 4 ≤ (a + n - 1) / 4)
  match l.home, k.home with
  | .hbm a _, .hbm b _ => ov a b
  | .spad c i a, .spad d j b => c == d && i == j && ov a b
  | .peer d a _, .peer e b _ => d == e && ov a b
  | _, _ => false

def Loc.isPeer : Loc → Bool
  | .peer _ _ _ => true
  | .hbm _ _ => false
  | .spad _ _ _ => false

/-- Bytes that an access touches. -/
def AccKind.size : AccKind → Nat
  | .load n _ _ => n
  | .store bs => bs.length
  | .barExp _ => 16
  | .barArr _ => 16
  | .atom _ n _ _ _ => n
  | .red _ _ v => 4 * v.length
  | .tq _ _ _ => 0
  | .mcst _ bs => bs.length
  | .mcldRed _ _ _ _ _ => 0
  | .copy _ => 0

/-- Does the thread hold a watch of this device's tables on the range? Watches on peer words stand in remote-watch tables (R376). -/
def Thread.watches (t : Thread) (loc : Loc) (n : Nat) : Bool :=
  t.accs.any fun a => a.early.isSome && a.spec && (match a.loc with
    | none => false
    | some l => !l.isPeer && l.meets a.kind.size loc n)

/-- Does it hold one with the intent bit (R248), and has it had no notice yet? -/
def Thread.intends (t : Thread) (loc : Loc) (n : Nat) : Bool :=
  !t.notice && t.accs.any fun a => a.early.isSome && a.spec && a.intent && (match a.loc with
    | none => false
    | some l => !l.isPeer && l.meets a.kind.size loc n)

/-- R243: a conflict notice to a thread that watches the range and is not the writer. -/
def notify (writer : Option Tid) (loc : Loc) (n : Nat) (t : Thread) : Thread :=
  if some t.id != writer && t.watches loc n then { t with notice := true } else t

/-- Word mask of `n` bytes at `off` within its 128-byte line. -/
def lineMask (off n : Nat) : Nat := (unitsOf 4 off n).foldl (fun m w => m + 2 ^ (w % 32)) 0

/-- Does the thread hold a remote watch on device `dev` that `hit` accepts, as offset and size? -/
def Thread.watchesPeer (t : Thread) (dev : Nat) (hit : Nat → Nat → Bool) : Bool :=
  t.accs.any fun a => a.spec && (a.early.isSome || a.serial.isSome) && (match a.loc with
    | some (.peer d o _) => d == dev && hit o a.kind.size
    | _ => false)

/-- Do `n` bytes at offset `o` meet the words `mask` of the line at `off`? -/
def watchWords (off mask o n : Nat) : Bool := o / 128 * 128 == off && Nat.land (lineMask o n) mask != 0

/-- R376: words of a remote watch on the range. -/
def RWatch.hit (r : RWatch) (pa n : Nat) : Bool :=
  (unitsOf 4 pa n).any fun w => w / 32 == r.line && bitN r.mask (w % 32)

def Flit.blank : Flit :=
  { ty := 0, vl := 0, nocode := false, src := 0, dst := 0, inc := 0, serial := 0, ctx := 0, keyid := 0, addr := 0, aux := 0,
    payload := [] }

/-- A flit of this device (R371); `vl` is its lane, and 4 more for the last flit of a message. -/
def mkFlit (s : State) (ty vl dst : Nat) : Flit :=
  { Flit.blank with ty := ty, vl := vl, src := s.fab.selfIdx.toNat, dst := dst, inc := s.fab.selfInc.toNat }

/-- Words of the watch that a write of `n` bytes at `pa` meets. -/
def RWatch.metMask (r : RWatch) (pa n : Nat) : Nat :=
  ((unitsOf 4 pa n).filter fun w => w / 32 == r.line && bitN r.mask (w % 32)).foldl (fun m w => m + 2 ^ (w % 32)) 0

/-- R376: a conflict notice to a watch's initiator; ADDR names the line, AUX the words (log 15). -/
def rnotice (s : State) (pa n : Nat) (r : RWatch) : Flit :=
  { mkFlit s 0x08 5 r.dev with addr := r.off, aux := r.metMask pa n }

/-- The threads that hold entry `r` of the device itself, the writer apart: its notice reaches them as the write performs, so that
commits and writes are ordered at the word's home (R236, R369). -/
def ownHolders (writer : Option Tid) (pa n : Nat) (dev : Nat) (r : RWatch) (t : Thread) : Bool :=
  some t.id != writer && r.hit pa n && t.watchesPeer dev (watchWords r.off (r.metMask pa n))

/-- R376: a conflict notice for each remote watch that the write meets. -/
def remoteProbe (s : State) (writer : Option Tid) (loc : Loc) (n : Nat) : State :=
  match loc with
  | .hbm pa _ =>
    let me := s.fab.selfIdx.toNat
    let mine := s.fab.rwatch.filter fun r => isSelf s r.dev
    let tell (t : Thread) : Thread := if mine.any fun r => ownHolders writer pa n me r t then { t with notice := true } else t
    { s with
      out := s.out ++ (s.fab.rwatch.filter fun r => !isSelf s r.dev && r.hit pa n).map (rnotice s pa n),
      th := tell s.th, pool := s.pool.map tell }
  | .spad _ _ _ => s
  | .peer _ _ _ => s

/-- R243: the probe of a write at its home. -/
def probe (s : State) (writer : Option Tid) (loc : Loc) (n : Nat) : State :=
  remoteProbe { s with th := notify writer loc n s.th, pool := s.pool.map (notify writer loc n) } writer loc n

/-- R248: some watch with intent holds the write at its home. -/
def intentHolds (s : State) (writer : Option Tid) (loc : Loc) (n : Nat) : Bool :=
  (s.th :: s.pool).any (fun t => some t.id != writer && t.intends loc n)
    || (match loc with
        | .hbm pa _ => s.fab.rwatch.any fun r => r.intent && r.hit pa n
          && (!isSelf s r.dev || (s.th :: s.pool).any fun t => !t.notice && ownHolders writer pa n r.dev r t)
        | _ => false)

/-! ## Writes that wait at their homes, in the order of their arrival (R232, R248) -/

/-- The number of a thread's held write, and its range. -/
def Thread.heldNow (t : Thread) : Option (Nat × Loc × Nat) :=
  match t.accs with
  | [] => none
  | a :: _ =>
    match a.held, a.loc, a.awaited with
    | true, some l, k :: _ => some (k, l, a.kind.size)
    | _, _, _ => none

/-- Some write that reached its home before number `num` waits on a word of the range. -/
def queuedBefore (s : State) (num : Nat) (loc : Loc) (n : Nat) : Bool :=
  ((s.th :: s.pool).any fun t => match t.heldNow with
    | none => false
    | some (k, l, m) => decide (k < num) && l.meets m loc n)
  || (s.mem.waits.any fun w => decide (w.num < num) && (Loc.hbm w.pa false).meets w.len loc n)
  || (s.mem.fwq.any fun w => decide (w.num < num) && (Loc.hbm w.pa false).meets w.bytes.length loc n)

/-- A page under migration holds the write (R232, R361). -/
def migHolds (s : State) (pa n : Nat) (mir : Bool) : Bool :=
  (migHit s.mem pa n).isSome || (mir && (migHit s.mem (mirrorOf pa) n).isSome)

/-- The write of event `ev` as it waits, or as it would wait now. -/
def heldEntry (s : State) (pa n : Nat) (ev : Instr) : HeldWrite :=
  (s.mem.waits.find? fun w => w.ev == ev).getD ⟨s.fresh, pa, n, ev⟩

/-- R232, R248: a write of `n` bytes at `pa` by a hart or a peer: held at its home, or free to perform. -/
def holdForeign (s : State) (writer : Option Tid) (pa n : Nat) (mir : Bool) (ev : Instr) : Option State :=
  let w := heldEntry s pa n ev
  if migHolds s pa n mir || intentHolds s writer (.hbm pa mir) n || queuedBefore s w.num (.hbm pa mir) n then
    some (if s.mem.waits.contains w then s else { s with fresh := s.fresh + 1, mem := { s.mem with waits := s.mem.waits ++ [w] } })
  else none

/-- The write is held no more. -/
def endForeign (s : State) (ev : Instr) : State :=
  { s with mem := { s.mem with waits := s.mem.waits.filter fun w => w.ev != ev } }

/-! ## Reads and writes -/

/-- R354: the die at which a thread's access allocates. -/
def allocDie (own : Nat) (hint : Nat) (loc : Loc) : Nat :=
  match loc with
  | .hbm pa mir => if !mir && hint == 2 - own && homeDie pa == 1 - own then 1 - own else own
  | _ => own

/-- R360: the sequencer die of the mirror page at `pa`. -/
def seqDie (s : State) (pa : Nat) : Nat := match mirrorPage s pa with
  | none => 0
  | some l => l.sequencer

/-- Bytes at a location, without a change of the caches. -/
def peekLoc (s : State) (die gen : Nat) (loc : Loc) (n : Nat) : List Byte :=
  match loc with
  | .hbm pa mir => physRead s.mem gen (replica pa mir die) n
  | .spad c i off =>
    match findSlot s c i with
    | none => List.replicate n 0
    | some v => Mem.load v.bytes off n
  | .peer _ _ _ => List.replicate n 0

/-- R358: the registration of a watch on the location by die `die`. -/
def shareLoc (s : State) (die : Nat) (loc : Loc) : State :=
  match loc with
  | .hbm pa mir => if mir then s else { s with mem := llcShare s.mem die (sectorOf pa) }
  | .spad _ _ _ => s
  | .peer _ _ _ => s

/-- A read that takes its place at its home (R166). -/
def readLoc (s : State) (die gen : Nat) (loc : Loc) (n : Nat) : State × List Byte :=
  let bs := peekLoc s die gen loc n
  match loc with
  | .hbm pa mir =>
    let p := replica pa mir die
    ({ s with mem := llcRead s.mem die (sectorOf p) gen }, bs)
  | _ => (s, bs)

/-- The write itself, without its probe. -/
def pokeLoc (s : State) (die gen : Nat) (loc : Loc) (bs : List Byte) : State :=
  match loc with
  | .hbm pa mir =>
    if mir then { s with mem := physStore (physStore s.mem 0 gen pa bs) 1 gen (mirrorOf pa) bs }
    else { s with mem := physStore s.mem die gen pa bs }
  | .spad c i off =>
    match findSlot s c i with
    | none => s
    | some v => setSlot s c i (v.write off bs)
  | .peer _ _ _ => s

/-- A write that performs at its home, with its probe (R166, R243). -/
def writeLoc (s : State) (writer : Option Tid) (die gen : Nat) (loc : Loc) (bs : List Byte) : State :=
  probe (pokeLoc s die gen loc bs) writer loc bs.length

/-- The key generation of a thread's accesses. -/
def thGen (s : State) (th : Thread) : Nat := (genOf s th.place.keyId).getD 0

/-- c.die (R26). -/
def Place.die (p : Place) : Nat := p.core / 336

end Sys2Proof.Machine
end

