-- ==== Sys2Proof/Machine/Ops.lean ====
section
/-! DEFINITION. The shared operations of a thread: registers and predicates (R9, R10), counters (R24), the end of an
instruction and its clause (R59 to R62, R72, R76), windows (R13 to R18), and taking an exception (R322 to R330). -/

namespace Sys2Proof.Machine

abbrev Out := Host.Outcome State Fault Refusal

/-! ## Registers and predicates -/

/-- The register `k` after `r` (R9, R33). -/
def plusReg (r : Reg) (k : Nat) : Reg := Fin.ofNat 64 (r.val + k)

/-- R9, R10: g0 reads zero. -/
def Ctx.reg (c : Ctx) (r : Reg) : Word :=
  if r.val = 0 then 0
  else if h : r.val < 16 then c.g[r.val]'h
  else c.win[r.val - 16]'(by have := r.isLt; omega)

/-- R10: a write to g0 is discarded. -/
def Ctx.setReg (c : Ctx) (r : Reg) (v : Word) : Ctx :=
  if r.val = 0 then c
  else if h : r.val < 16 then { c with g := c.g.set r.val v h }
  else { c with win := c.win.set (r.val - 16) v (by have := r.isLt; omega) }

/-- R9: a pair; g0d reads zero. -/
def Ctx.pair (c : Ctx) (r : Reg) : DWord :=
  if r.val = 0 then 0 else pairD (c.reg r) (c.reg (plusReg r 1))

/-- R10: a write to g0d is discarded in full. -/
def Ctx.setPair (c : Ctx) (r : Reg) (v : DWord) : Ctx :=
  if r.val = 0 then c else (c.setReg r (loW v)).setReg (plusReg r 1) (hiW v)

/-- Consecutive registers from `r`. -/
def Ctx.regs (c : Ctx) (r : Reg) : Nat → List Word
  | 0 => []
  | n + 1 => c.reg r :: Ctx.regs c (plusReg r 1) n

def Ctx.setRegs (c : Ctx) (r : Reg) : List Word → Ctx
  | [] => c
  | v :: vs => Ctx.setRegs (c.setReg r v) (plusReg r 1) vs

/-- Registers written one by one. -/
def Ctx.setMany (c : Ctx) : List (Reg × Word) → Ctx
  | [] => c
  | (r, v) :: l => Ctx.setMany (c.setReg r v) l

/-- R10: p15 reads true. -/
def Ctx.pred (c : Ctx) (p : Pred) : Bool := p.val == 15 || c.preds.getLsbD p.val

/-- R86: a write to p15 is discarded. -/
def Ctx.setPred (c : Ctx) (p : Pred) (v : Bool) : Ctx :=
  if p.val = 15 then c
  else
    let bit : BitVec 15 := 1#15 <<< p.val
    { c with preds := if v then c.preds ||| bit else c.preds &&& ~~~bit }

/-! ## The focus thread and the others -/

def modTh (s : State) (f : Thread → Thread) : State := { s with th := f s.th }

def modCtx (s : State) (f : Ctx → Ctx) : State := { s with th := { s.th with ctx := f s.th.ctx } }

def threads (s : State) : List Thread := s.th :: s.pool

def mapThreads (s : State) (f : Thread → Thread) : State := { s with th := f s.th, pool := s.pool.map f }

/-- Bring thread `t` into focus. -/
def focus (s : State) (t : Tid) : Option State :=
  if s.th.id = t then some s
  else
    match s.pool.find? fun x => x.id == t with
    | none => none
    | some x =>
      let rest := s.pool.filter fun y => y.id != t
      some { s with th := x, pool := if s.th.status = .free then rest else s.th :: rest }

/-- Apply an operation of the focus thread to thread `t`, and focus as before. -/
def onThread (s : State) (t : Tid) (f : State → State) : State :=
  if s.th.id = t then f s
  else
    match focus s t with
    | none => s
    | some s1 =>
      let s2 := f s1
      (focus s2 s.th.id).getD s2

def findThread (s : State) (t : Tid) : Option Thread := (threads s).find? fun x => x.id == t

def Thread.live (t : Thread) : Bool := !(t.status == .exited) && !(t.status == .killed) && !(t.status == .free)

def Thread.cid (t : Thread) : Cid := ⟨t.id.lid, t.id.clus⟩

def sameCluster (a b : Thread) : Bool := a.id.lid == b.id.lid && a.id.clus == b.id.clus
def sameTeam (a b : Thread) : Bool := sameCluster a b && a.id.team == b.id.team
def sameGroup (a b : Thread) : Bool := sameTeam a b && a.place.grp == b.place.grp

/-! ## Guard and counters -/

def guard (s : State) (p : Pred) : Bool := s.th.ctx.pred p

/-- R24, R71. -/
def dcGet (t : Thread) (d : Fin 7) : BitVec 6 := if h : d.val < 6 then t.dc[d.val]'h else 0
def dcStep (t : Thread) (d : Fin 7) : Thread :=
  if h : d.val < 6 then { t with dc := t.dc.set d.val (t.dc[d.val]'h + 1) h } else t
def dcDrop (t : Thread) (d : Fin 7) : Thread :=
  if h : d.val < 6 then { t with dc := t.dc.set d.val (t.dc[d.val]'h - 1) h } else t

/-- R24: issue stalls on a counter at 63. -/
def dcFull (t : Thread) (d : Fin 7) : Bool := dcGet t d == 63

def dcDropN (t : Thread) (d : Fin 7) : Nat → Thread
  | 0 => t
  | n + 1 => dcDropN (dcDrop t d) d n

/-! ## Loop levels (R74 to R77) -/

def Ctx.lvl (c : Ctx) (k : Nat) : LoopLvl := if k = 0 then c.lv0 else if k = 1 then c.lv1 else c.lv2
def Ctx.setLvl (c : Ctx) (k : Nat) (l : LoopLvl) : Ctx :=
  if k = 0 then { c with lv0 := l } else if k = 1 then { c with lv1 := l } else { c with lv2 := l }

/-- E_k. -/
def LoopLvl.fin (l : LoopLvl) : DWord := l.beg + dwOf (4 * (l.len.toNat + 1))

def LoopLvl.holds (l : LoopLvl) (a : DWord) : Bool := decide (l.beg ≤ a) && decide (a < l.fin)

/-- R76: the end check at `a`; the address where execution goes on. -/
def endCheck : Nat → Ctx → DWord → Ctx × DWord
  | 0, c, a => (c, a)
  | fuel + 1, c, a =>
    if c.ld = 0 then (c, a)
    else
      let k := c.ld - 1
      let l := c.lvl k
      if l.dep = c.depth && l.fin = a then
        let c := c.setLvl k { l with cnt := l.cnt - 1 }
        if l.cnt - 1 != 0 then (c, l.beg) else endCheck fuel { c with ld := k } a
      else (c, a)

/-- R77: a taken transfer to `t` closes every level of this depth whose body does not hold `t`, and those inside it. -/
def closeLoops (c : Ctx) (t : DWord) : Ctx :=
  match (List.range c.ld).find? fun k => (c.lvl k).dep == c.depth && !(c.lvl k).holds t with
  | none => c
  | some k => { c with ld := k }

/-- R77: a return closes every level opened at the returning depth. -/
def closeDepth (c : Ctx) (d : Word) : Ctx :=
  match (List.range c.ld).find? fun k => (c.lvl k).dep == d with
  | none => c
  | some k => { c with ld := k }

/-! ## Fetch and targets -/

/-- R84, R99: `n` bytes at `a` lie in the launch's code range. -/
def inCode (p : Place) (a : DWord) (n : Nat) : Bool :=
  decide (p.code.toNat ≤ a.toNat) && decide (a.toNat + n ≤ p.code.toNat + p.clen)

/-- A word of code (R35, R175, R224). -/
def fetchWord (s : State) (th : Thread) (a : DWord) : Except Exc Word :=
  if !inCode th.place a 4 then .error (excOf cProt a)
  else
    match xlate s th.place.core th.place.xctx a.toNat .fetch with
    | .error c => .error (excOf c a)
    | .ok (pa, mir) =>
      match genOf s th.place.keyId with
      | none => .error (excOf cKeyFault a)
      | some g =>
        let p := replica pa mir th.place.die
        if badHit s.mem p 4 false then .error (excOf cEccFatal a)
        else .ok (wOf (natOfBytes (physRead s.mem g p 4)))

/-- R62, R99: the checks of a transfer's target. -/
def checkTarget (s : State) (t : DWord) : Option Exc :=
  if t.toNat % 4 != 0 then some (excOf cMisaligned t)
  else if !inCode s.th.place t 4 then some (excOf cProt t)
  else none

/-! ## Merge points (R149) -/

/-- MERGE of the header at `a`. -/
def mergeAt (s : State) (th : Thread) (a : DWord) : Bool :=
  match fetchWord s th a with
  | .error _ => false
  | .ok w => bitN w.toNat 17

/-- Parked on an absent sector or an unpinned page by an access, a spill or a fill (R204, R208). -/
def Thread.parkedNow (t : Thread) : Bool := t.wpark.isSome || t.accs.any fun a => a.parked && (match a.kind with
  | .copy _ => false
  | _ => true)

/-- Does the thread stand at the header `a`, not yet in its clause? One that is parked, or that waits at a rendezvous or at a
barrier, does not. -/
def Thread.standsAt (t : Thread) (a : DWord) : Bool := t.status == .run && !t.parkedNow && t.ctx.pc == a && t.ctx.clh == a

/-- Release the held threads of a group at every address where all its live threads stand. -/
def recheckHolds (s : State) (g : Thread) : State :=
  let grp := (threads s).filter fun t => sameGroup t g && t.live
  mapThreads s fun t =>
    if t.held.isSome && sameGroup t g && grp.all (fun x => x.standsAt t.ctx.pc) then { t with held := none } else t

/-! ## Landing, sequential advance, the end of an instruction -/

/-- Stand at the header `a`. -/
def Ctx.land (c : Ctx) (a : DWord) : Ctx := { c with pc := a, clh := a, cend := a }

/-- Reach the header `a`; `brm` marks the target of a taken `brm`. The arrival may complete a hold of the group. -/
def arrive (s : State) (a : DWord) (brm : Bool) : State :=
  let s := modCtx s fun c => c.land a
  recheckHolds (if brm || mergeAt s s.th a then modTh s fun t => { t with held := some 0 } else s) s.th

/-- R70: a taken transfer or a trap ends every window. -/
def lookEnd (t : Thread) : Thread :=
  { t with ctx := { t.ctx with wend := t.ctx.icount } }

/-- What every issue does: count it, spend the waits that stood before it (R70, R102). -/
def issued (s : State) : State :=
  modCtx s fun c => { c with icount := c.icount + 1, wmask := 0, wfrom := none, drain := false }

/-- Words of the instruction at pc: the word and, where it has one, its extension (R68). -/
def instrLen (s : State) : Nat :=
  match fetchWord s s.th s.th.ctx.pc with
  | .error _ => 1
  | .ok w => if hasExt w.toNat then 2 else 1

/-- R148: the YIELD bit acts at the clause's last instruction. -/
def yieldAtEnd (s : State) (next : DWord) : State :=
  if s.th.ctx.yieldHdr && next == s.th.ctx.cend then modTh s fun t => { t with yielded := some 0 } else s

/-- Go on after the instruction of `len` words at pc: the next issue of its repeat, the next word, or the next header. -/
def goOn (s : State) (len : Nat) : State :=
  let c := s.th.ctx
  match c.rep with
  | some r =>
    if c.ri.toNat + 1 < r.n then modCtx s fun c => { c with ri := c.ri + 1 }
    else step { s with th := { s.th with ctx := { c with ri := 0, rep := none } } }
  | none => step s
where
  step (s : State) : State :=
    let next := s.th.ctx.pc + dwOf (4 * len)
    if next = s.th.ctx.cend then
      let s := yieldAtEnd s next
      let e := endCheck 4 s.th.ctx next
      arrive { s with th := { s.th with ctx := e.1 } } e.2 false
    else modCtx s fun c => { c with pc := next }

/-- The end of an instruction that has issued and transfers nowhere. -/
def retire (s : State) : Out := .next (goOn (issued s) (instrLen s))

/-- The end of a taken transfer to `t` (checked), closing no loop. -/
def transfer (s : State) (t : DWord) (brm : Bool) : State :=
  let s1 := yieldAtEnd s s.th.ctx.cend
  arrive (modTh (issued s1) lookEnd) t brm

/-! ## Levels (R248, R249) -/

def escFind (t : Thread) (a : DWord) : Option Esc := t.esc.find? fun e => e.addr == a

/-- An entry put in front of the others; the fifth, least recently used, drops out. DESIGN CHOICE (log 73): R249 does not say what uses
an entry; a rollback and a commit do, an issue that takes its level from the entry does not. -/
def escPut (t : Thread) (e : Esc) : Thread :=
  { t with esc := (e :: t.esc.filter fun k => k.addr != e.addr).take 4 }

/-- The level of an access that issues at `a`, and the level that governs from then on. -/
def levelFor (t : Thread) (a : DWord) : Nat × Option Nat :=
  if t.spec.fix then (t.spec.slvl.toNat, none)
  else
    let gov := if t.accs.isEmpty then none else t.gov
    match escFind t a with
    | some e => (e.level, some e.level)
    | none => (gov.getD t.spec.slvl.toNat, gov)

/-- R249, on a commit of an access of the instruction at `a`. -/
def escCommit (t : Thread) (a : DWord) : Thread :=
  if t.spec.fix then t
  else
    match escFind t a with
    | none => t
    | some e =>
      if e.commits + 1 = 2 ^ t.spec.dlog.toNat then
        escPut t { e with rolls := 0, commits := 0, level := Nat.max (e.level - 1) t.spec.slvl.toNat }
      else escPut t { e with rolls := 0, commits := e.commits + 1 }

/-- Saturating increment (R251). -/
def satInc (w : Word) : Word := if w = 0xFFFFFFFF then w else w + 1

/-- R249, R250: `n` accesses of the instruction at pc that issue non-speculatively have performed. -/
def madeWhole (s : State) (n : Nat) : State :=
  modTh s fun t =>
    let a := t.ctx.pc
    let t1 := { t with spec := { t.spec with lvl := BitVec.ofNat 2 (levelFor t a).1 } }
    (List.range n).foldl (fun t _ => escCommit t a) t1

/-! ## Accesses made whole in one step: spills, fills and engine-like reads -/

/-- Store `bs` at `ea` for the focus thread now. `go` says that it has performed. -/
def storeNow (s : State) (ea : DWord) (bs : List Byte) : State × Gate :=
  match resolve s s.th .wr ea bs.length with
  | .error e => (s, .bad e)
  | .ok loc =>
    match gate s s.th.place.die .wr loc ea bs.length with
    | .go =>
      if intentHolds s (some s.th.id) loc bs.length || queuedBefore s s.fresh loc bs.length then (s, .wait)
      else (writeLoc s (some s.th.id) s.th.place.die (thGen s s.th) loc bs, .go)
    | g => (s, g)

/-- Load `n` bytes at `ea` for the focus thread now. -/
def loadNow (s : State) (ea : DWord) (n : Nat) : State × List Byte × Gate :=
  match resolve s s.th .rd ea n with
  | .error e => (s, [], .bad e)
  | .ok loc =>
    match gate s s.th.place.die .rd loc ea n with
    | .go =>
      let r := readLoc s s.th.place.die (thGen s s.th) loc n
      (r.1, r.2, .go)
    | g => (s, [], g)

/-- May the access perform now? -/
def gateNow (s : State) (t : AccT) (ea : DWord) (n : Nat) : Gate :=
  match resolve s s.th t ea n with
  | .error e => .bad e
  | .ok loc =>
    match gate s s.th.place.die t loc ea n with
    | .go => if t == .wr && (intentHolds s (some s.th.id) loc n || queuedBefore s s.fresh loc n) then .wait else .go
    | g => g

/-- The first of `n` accesses of 16 bytes, in ascending order, that may not perform now, with its address. -/
def runGate (s : State) (t : AccT) (ea : DWord) : Nat → Gate × DWord
  | 0 => (.go, ea)
  | n + 1 =>
    match gateNow s t ea 16 with
    | .go => runGate s t (ea + 16) n
    | g => (g, ea)

/-- The thread parks on a piece of its spill or fill (R204, R208). -/
def parkWindow (s : State) (t : AccT) (ea : DWord) : State :=
  modTh s fun th => { th with wpark := match resolve s s.th t ea 16 with
    | .ok loc => some (t == .wr, loc, ea)
    | .error _ => none }

/-- Stores of 16 bytes in ascending order, up to the first that does not perform (R14, R18). DESIGN CHOICE (log 59): those that
perform do so in one step, so that no other agent's access falls between them. -/
def storeRun (s : State) (ea : DWord) : List (List Byte) → State × Gate
  | [] => (s, .go)
  | bs :: rest =>
    match storeNow s ea bs with
    | (s', .go) => storeRun s' (ea + 16) rest
    | r => r

/-- Loads of 16 bytes in ascending order (R16), in one step (log 59). -/
def loadRun (s : State) (ea : DWord) : Nat → State × List Byte × Gate
  | 0 => (s, [], .go)
  | n + 1 =>
    match loadNow s ea 16 with
    | (s', bs, .go) =>
      match loadRun s' (ea + 16) n with
      | (s'', rest, g) => (s'', bs ++ rest, g)
    | r => r

/-! ## Spills and fills through the peer window (R17, R369) -/

/-- Where the ten pieces of a frame at `ea` lie. -/
def frameLocs (s : State) (t : AccT) (ea : DWord) : List (Except Exc Loc) :=
  (List.range 10).map fun j => resolve s s.th t (ea + dwOf (16 * j)) 16

def inPeer (r : Except Exc Loc) : Bool :=
  match r with
  | .ok (.peer _ _ _) => true
  | _ => false

/-- Piece `j` of a spill or fill as an access of the thread, with the state before the call or return. -/
def pieceAcc (t : Thread) (j : Nat) (kind : AccKind) (ea : DWord) (loc : Loc) : Access :=
  { seq := t.seq + j, kind := kind, ea := ea + dwOf (16 * j), loc := some loc, dc := 6, look := 0, hint := 0, ran := false, spec := false,
    early := none, closed := false, intent := false, fault := none, snap := t.ctx, iaddr := t.ctx.pc, icount := t.ctx.icount,
    parked := false, held := false, serial := none, awaited := [], failed := none }

/-- The ten accesses of a spill or fill, one of whose pieces lies at a peer: they perform one after another, as their responses come. -/
def queueFrame (s : State) (t : AccT) (ea : DWord) (kind : Nat → AccKind) : State × Gate :=
  let ls := frameLocs s t ea
  let bad := ls.findSome? fun r => match r with
    | .error e => some e
    | .ok _ => none
  match bad with
  | some e => (s, .bad e)
  | none =>
    (modTh s fun th => { th with
      seq := th.seq + 10,
      accs := th.accs ++ ((List.range 10).zip ls).filterMap fun x => match x.2 with
        | .ok l => some (pieceAcc th x.1 (kind x.1) ea l)
        | .error _ => none }, .go)

/-- R249, R250: the ten accesses of a spill or fill whose instruction is at pc; those that wait as accesses commit as they perform. -/
def frameMade (s : State) : State := madeWhole s (if s.th.accs.isEmpty then 10 else 0)

/-- R17: after a call or return whose spill or fill still performs, no instruction issues until it has. -/
def awaitFrame (before after : State) : State :=
  if before.th.accs.isEmpty && !after.th.accs.isEmpty then modCtx after fun c => { c with drain := true } else after

/-! ## Windows (R13 to R18) -/

/-- R12: resident frames that the allocation holds. -/
def residentMax (alloc : Nat) : Nat := 1 + (alloc - 16 - 48) / 40

/-- w0 to w39 of the current frame. -/
def Ctx.frame (c : Ctx) : Vector Word 40 := Vector.ofFn fun i => c.win[i.val]'(by omega)

/-- The oldest resident frame. -/
def Ctx.oldest (c : Ctx) : Vector Word 40 := c.res.getLast?.getD c.frame

/-- Frames of 40 words as ten 16-byte pieces. -/
def framePieces (f : Vector Word 40) : List (List Byte) :=
  (List.range 10).map fun j => bytesOf ((f.toList.drop (4 * j)).take 4)

/-- The window after a call, without its spill: the new frame's w0 to w7 are the old w40 to w47, w38d is the link, and its
other words hold free values (R14, R15, log 3). -/
def Ctx.pushFrame (c : Ctx) (link : DWord) (fresh : Nat) (keep : Bool) : Ctx :=
  let win : Vector Word 48 := Vector.ofFn fun i =>
    if h : i.val < 8 then c.win[i.val + 40]'(by omega)
    else if i.val = 38 then loW link
    else if i.val = 39 then hiW link
    else Config.freeWord (fresh + i.val)
  { c with win := win, depth := c.depth + 1,
           res := if keep then c.frame :: c.res else if c.res = [] then [] else c.frame :: c.res.dropLast }

/-- Does a call of this thread spill (R14)? -/
def callSpills (t : Thread) : Bool := !(decide (1 + t.ctx.res.length < residentMax t.place.regs))

/-- R14: the window action of a call. -/
def callWindow (s : State) (link : DWord) : State × Gate :=
  let c := s.th.ctx
  if 1 + c.res.length < residentMax s.th.place.regs then
    (modCtx { s with fresh := s.fresh + 48 } fun c => c.pushFrame link s.fresh true, .go)
  else if c.spill.toNat + 160 > s.th.place.rslim.toNat || c.depth = 0xFFFFFFFF then
    (s, .bad (excOf cSpillLimit c.spill))
  else
    let run := if (frameLocs s .wr c.spill).any inPeer
      then queueFrame s .wr c.spill fun j => .store ((framePieces c.oldest).getD j [])
      else match runGate s .wr c.spill 10 with
        | (.park, ea) => (parkWindow s .wr ea, .park)
        | (.wait, _) => (s, .wait)
        | _ => storeRun s c.spill (framePieces c.oldest)
    match run with
    | (s', .go) =>
      (modCtx { s' with fresh := s'.fresh + 48 } fun c =>
        { c.pushFrame link s'.fresh false with spill := c.spill + 160 }, .go)
    | r => r

/-- The caller's frame back in the window, its w40 to w47 the returning frame's w0 to w7. -/
def Ctx.popFrame (c : Ctx) (f : Vector Word 40) (res : List (Vector Word 40)) : Ctx :=
  let win : Vector Word 48 := Vector.ofFn fun i =>
    if h : i.val < 40 then f[i.val]'h else c.win[i.val - 40]'(by omega)
  { c with win := win, depth := c.depth - 1, res := res }

/-- R16: the window action of a return at depth above 0, by `ret` or by `tret`. -/
def retWindow (s : State) (tret : Bool) : State × Gate :=
  let c := s.th.ctx
  match c.res with
  | f :: rest => (modCtx s fun c => c.popFrame f rest, .go)
  | [] =>
    if (frameLocs s .rd (c.spill - 160)).any inPeer then
      match queueFrame s .rd (c.spill - 160) fun j => .load 16 (.fill tret) ((List.range 4).map fun i => Fin.ofNat 64 (16 + 4 * j + i)) with
      | (s', .go) => (modCtx s' fun c => { c.popFrame c.frame [] with spill := c.spill - 160 }, .go)
      | r => r
    else
    match runGate s .rd (c.spill - 160) 10 with
    | (.park, ea) => (parkWindow s .rd ea, .park)
    | (.wait, _) => (s, .wait)
    | _ =>
      match loadRun s (c.spill - 160) 10 with
      | (s', bs, .go) =>
        let ws := wordsOf 40 bs
        let f : Vector Word 40 := Vector.ofFn fun i => ws.getD i.val 0
        (modCtx s' fun c => { c.popFrame f [] with spill := c.spill - 160 }, .go)
      | (s', _, g) => (s', g)

/-! ## Deques (R156, R157) -/

/-- A push at the bottom, a pop from it, and a steal of the top entry; an uncorrectable entry keeps its place (R344). -/
def Core.pushTask (c : Core) (e : Vector Word 4) : Core := { c with deque := c.deque ++ [e] }
def Core.popTask (c : Core) : Core :=
  { c with deque := c.deque.dropLast, dqBad := c.dqBad.filter fun i => decide (i + 1 < c.deque.length) }
def Core.stealTask (c : Core) : Core :=
  { c with deque := c.deque.drop 1, dqBad := (c.dqBad.filter fun i => i != 0).map fun i => i - 1 }

/-- A cluster in this state occupies its cores. -/
def CStatus.onCore : CStatus → Bool
  | .resident => true
  | .placing => true
  | .stopping => true
  | .dying => true
  | .retired => true
  | .waiting => false
  | .saved => false

/-- A launch has a team on the core. -/
def teamOn (s : State) (core lid : Nat) : Bool :=
  s.clusters.any fun k => k.id.lid == lid && k.status.onCore && k.slots.any fun v => v.core == core

/-- The cluster that came first to a core among those of launches with task queues. -/
def firstOn (s : State) (core : Nat) : Option Cluster :=
  (s.clusters.filter fun k => k.status.onCore && k.slots.any (fun v => v.core == core)
      && (match findLaunch s k.id.lid with | none => false | some l => l.tq && !l.complete)).foldl (fun b k =>
    match b with
    | none => some k
    | some x => if k.arrival < x.arrival then some k else some x) none

/-- R157: an owner with no team and no entry leaves the deque, and the launch that came first takes a free one. -/
def settleDeque (s : State) (core : Nat) : State :=
  let c := getCore s core
  let c1 := match c.owner with
    | none => c
    | some l => if c.deque.isEmpty && !teamOn s core l then { c with owner := none, dqBad := [] } else c
  let c2 := match c1.owner, firstOn s core with
    | none, some k => { c1 with owner := some k.id.lid }
    | _, _ => c1
  if c2 = c then s else setCore s core c2

/-! ## The end of a thread -/

/-- Is physical tile `t` of a core still to be read by an `acc.st` or `acc.cvt` (R262)? -/
def hasReader (c : Core) (t : Nat) : Bool :=
  c.mats.any fun o => o.tile == t && decide (o.stage < 2) && (match o.ins with
    | .accSt _ _ _ _ _ _ _ => true
    | .accCvt _ _ _ _ _ _ _ _ => true
    | _ => false)

/-- Free a tile, or let it drain to its pending readers (R262, R263). What still runs into a freed tile has no reader left. -/
def dropTile (c : Core) (t : Nat) : Core :=
  if hasReader c t then { c with tiles := c.tiles.set t (((c.tiles[t]?).getD none).map fun x => { x with draining := true }) }
  else { c with tiles := c.tiles.set t none, mats := c.mats.map fun o => if o.tile = t then { o with tile := 12 } else o }

def findTeam (s : State) (c : Cid) (t : Nat) : Option Team := (findCluster s c).bind fun k => k.teams[t]?
def setTeam (s : State) (c : Cid) (t : Nat) (v : Team) : State :=
  match findCluster s c with
  | none => s
  | some k => setCluster s { k with teams := k.teams.set t v }
def findGroup (s : State) (c : Cid) (t g : Nat) : Option Group := (findTeam s c t).bind fun k => k.groups[g]?
def setGroup (s : State) (c : Cid) (t g : Nat) (v : Group) : State :=
  match findTeam s c t with
  | none => s
  | some k => setTeam s c t { k with groups := k.groups.set g v }

/-- R263: a group whose lanes have all ended gives up its names. -/
def unbindGroup (s : State) (th : Thread) : State :=
  if (threads s).any fun t => sameGroup t th && t.live then s
  else
    match findGroup s th.cid th.id.team th.place.grp with
    | none => s
    | some g =>
      let core := g.names.toList.foldl (fun c n => match n with | none => c | some t => dropTile c t) (getCore s th.place.core)
      setGroup (setCore s th.place.core core) th.cid th.id.team th.place.grp { g with names := Vector.replicate 4 none }

/-- R185: a phase of count 0 over `who` is complete. -/
def Barrier.allIn (b : Barrier) (who : List Thread) : Bool := who.all fun t => !t.live || b.seen.contains t.id

def Barrier.empty : Barrier := ⟨false, 0, 0, []⟩

/-- Is the open phase complete? -/
def Barrier.full (b : Barrier) (who : List Thread) : Bool :=
  b.opened && (if b.expect = 0 then b.allIn who else decide (b.expect.toNat ≤ b.arrived))

/-- A thread that a barrier releases goes on from where its instruction has left it; it may reach a merge point (R149, R185). -/
def releaseWaiter (s : State) : State :=
  let s1 := modTh s fun t => { t with status := .run }
  if s1.th.ctx.pc = s1.th.ctx.clh then arrive s1 s1.th.ctx.pc false else s1

/-- Empty the complete phases of a team's and its cluster's barriers, and release their waiters (R185). -/
def settleBarriers (s : State) (th : Thread) : State :=
  let team := (threads s).filter fun t => sameTeam t th
  let clus := (threads s).filter fun t => sameCluster t th
  match findCluster s th.cid with
  | none => s
  | some k =>
    match k.teams[th.id.team]? with
    | none => s
    | some tm =>
      let doneT := (List.range tm.bars.length).filter fun i => ((tm.bars[i]?).getD Barrier.empty).full team
      let doneC := (List.range k.cbars.length).filter fun i => ((k.cbars[i]?).getD Barrier.empty).full clus
      let tm := { tm with bars := tm.bars.map fun b => if b.full team then Barrier.empty else b }
      let k := { k with cbars := k.cbars.map (fun b => if b.full clus then Barrier.empty else b),
                        teams := k.teams.set th.id.team tm }
      let free (t : Thread) : Bool := match t.status with
        | .tbar n => sameTeam t th && doneT.contains n
        | .cbar n => sameCluster t th && doneC.contains n
        | _ => false
      let ids := (if free s.th then [s.th.id] else []) ++ ((s.pool.filter free).map (·.id)).filter fun x => x != s.th.id
      ids.foldl (fun s t => onThread s t releaseWaiter) (setCluster s k)

/-- What follows the end of the focus thread, by exit or kill: holds, barriers and names (R149, R185, R263). -/
def afterEnd (s : State) : State :=
  unbindGroup (settleBarriers (recheckHolds s s.th) s.th) s.th

/-- R100: the thread ends. -/
def exitThread (s : State) : State :=
  afterEnd (modTh s fun t => { lookEnd t with status := .exited, held := none, yielded := none, ops := [],
                                              ctx := { t.ctx with ld := 0 } })

/-- R206: the lane that made a SPAD_RANGE access is killed. -/
def killLane (s : State) (pc addr : DWord) : State :=
  let s1 := modTh s fun t => { t with status := .killed, accs := [], ops := [], held := none, yielded := none }
  let s2 := match findGroup s1 s.th.cid s.th.id.team s.th.place.grp with
    | none => s1
    | some g =>
      setGroup s1 s.th.cid s.th.id.team s.th.place.grp
        { g with kill := g.kill ||| (1#64 <<< s.th.place.lane),
                 killPc := if g.kill = 0 then pc else g.killPc,
                 killAddr := if g.kill = 0 then addr else g.killAddr }
  afterEnd s2

/-! ## Taking an exception (R322 to R330) -/

/-- c.tpc of a trap of the instruction at pc: the repeat prefix under R73, else the instruction. -/
def Ctx.trapPc (c : Ctx) : DWord :=
  match c.rep with
  | some r => r.addr
  | none => c.pc

/-- Stand at c.tpc with c.ri kept, to execute again from there (R73). -/
def Ctx.rewind (c : Ctx) : Ctx := { c with pc := c.trapPc, rep := none }

/-- R324: the registers that a trap writes before its disposal. -/
def writeTrapRegs (t : Thread) (code : Nat) (info : Word) (addr : DWord) : Thread :=
  { t with trap := { t.trap with cause := wOf code, info := info, tpc := t.ctx.trapPc, taddr := addr, tclh := t.ctx.clh } }

/-- Mark the focus thread's cluster to be saved for `reason` (R331), unless it is dying. -/
def stopCluster (s : State) (c : Cid) (reason : Nat) : State :=
  match findCluster s c with
  | none => s
  | some k => setCluster s { k with reasons := setAdd k.reasons reason,
                                    status := if k.status = .resident then .stopping else k.status }

/-- Mark the focus thread's cluster to be terminated (R329). -/
def dieCluster (s : State) (c : Cid) : State :=
  match findCluster s c with
  | none => s
  | some k => setCluster s { k with status := .dying }

/-- UECNT (R414, R345): one more uncorrectable error reported. -/
def countUe (s : State) : State := { s with ctl := { s.ctl with ueCnt := satAdd s.ctl.ueCnt 1 } }

/-- R329: a fatal trap; the thread's trap registers are already written. -/
def fatal (s : State) (code : Nat) (nested : Bool) : State :=
  let s := if code = cEccFatal then countUe s else s
  dieCluster (modTh s fun t => { t with status := .fatal code nested }) s.th.cid

/-- R331: the launch processor services the trap; the thread executes the instruction again. -/
def service (s : State) (code : Nat) (addr : DWord) : State :=
  stopCluster (modTh s fun t => { t with status := .svc code addr, ctx := t.ctx.rewind }) s.th.cid
    (if code = cSpillLimit then 3 else 2)

/-- R329: the focus thread's cluster is being terminated: what its released accesses still meet reaches no thread. -/
def dyingNow (s : State) : Bool :=
  match findCluster s s.th.cid with
  | none => false
  | some k => k.status == .dying

/-- A fault of the spill of a handler's entry, or of the fill of a `tret`: a page or table fault is serviced, any other is fatal
with the nested flag (R326, R327). -/
def windowFault (s : State) (e : Exc) : State :=
  if dyingNow s then s
  else
    match e with
    | .trap code info addr =>
      if code = cPageFault || code = cTableFault then service s code addr
      else fatal (modTh s fun t => writeTrapRegs t code info addr) code true
    | .kill addr => fatal (modTh s fun t => writeTrapRegs t cSpadRange 0 addr) cSpadRange true

/-- R326, second half: the window action of handler entry and the transfer to c.thand. -/
def enterHandler (s : State) : State :=
  match callWindow s s.th.trap.tpc with
  | (s', .go) =>
    let s1 := if callSpills s.th then frameMade s' else s'
    awaitFrame s (arrive (modTh s1 fun t => { lookEnd t with entryPend := false }) s'.th.place.thand false)
  | (s', .bad e) => windowFault (modTh s' fun t => { t with entryPend := true }) e
  | (s', .park) => modTh s' fun t => { t with entryPend := true }
  | (s', .wait) => modTh s' fun t => { t with entryPend := true }

/-- R326, first half: the registers that entry saves. -/
def saveForHandler (t : Thread) : Thread :=
  { t with trap := { t.trap with ri := t.ctx.ri, pset := t.ctx.preds },
           ctx := { t.ctx.rewind with ri := 0, wmask := 0, wfrom := none, drain := false, inH := true } }

/-- Take exception `e` at the focus thread, whose registers are those before the instruction (R323 to R330). -/
def takeExc (s : State) (e : Exc) : State :=
  match e with
  | .kill addr => killLane s s.th.ctx.trapPc addr
  | .trap code info addr =>
    if dyingNow s then s
    else if code = cPageFault || code = cTableFault then service s code addr
    else if code = cBrk && (s.th.ctx.inH || s.th.place.thand = 0) then
      -- R330: a debug stop; inside a handler it writes no trap register
      let s1 := if s.th.ctx.inH then s else modTh s fun t => writeTrapRegs t code info addr
      stopCluster (modTh s1 fun t => { t with status := .debug, ctx := t.ctx.rewind }) s.th.cid 4
    else
      let s1 := modTh s fun t => writeTrapRegs t code info addr
      if code = cSpillLimit then service s1 code addr
      else if code = cTableFar || code = cEccFatal then fatal s1 code false
      else if s.th.ctx.inH then fatal s1 code true
      else if s.th.place.thand = 0 then fatal s1 code false
      else enterHandler (modTh s1 saveForHandler)

/-- Raise a trap of the instruction that is issuing: it waits while older accesses or operations of the thread are incomplete
(R246, R324). -/
def raise (s : State) (e : Exc) : Out :=
  if s.th.accs.isEmpty && s.th.ops.isEmpty then .next (takeExc s e) else .next s

def raiseCode (s : State) (code : Nat) (addr : DWord) : Out := raise s (excOf code addr)

/-- R64: the encoding trap. -/
def illegal (s : State) : Out := raiseCode s cIllegalOpcode 0

/-! ## Forms of a meaning -/

/-- An instruction whose guard is false only advances (R11). -/
def guarded (s : State) (p : Pred) (k : State → Out) : Out := if guard s p then k s else retire s

/-- A register operation: new context, then the next instruction. -/
def regOp (s : State) (p : Pred) (f : Ctx → Ctx) : Out := guarded s p fun s => retire (modCtx s f)

/-- An irrevocable operation or ordering point issues only when no older access is unperformed (R171, R172). -/
def oldest (s : State) (k : State → Out) : Out := if s.th.accs.isEmpty then k s else .next s

end Sys2Proof.Machine
end

