-- ==== Sys2Proof/Machine/Operands.lean ====
section
/-! DEFINITION. Operand forms: immediates (R94, R95), addresses (R105, R186, R305), vectors, member masks (R151). -/

namespace Sys2Proof.Machine

/-- sext(imm8, 8). -/
def sext8 (i : BitVec 8) : Word := i.signExtend 32
/-- zext(imm8, 8). -/
def zext8 (i : BitVec 8) : Word := i.zeroExtend 32

/-- R105: the address of an XM operand. -/
def eaXM (c : Ctx) (a : Reg) (x : Option XM) : DWord :=
  c.pair a + (match x with | none => 0 | some m => m.off.signExtend 64)

/-- The home-die hint (R66). -/
def hintOf (x : Option XM) : Nat := match x with | none => 0 | some m => m.hint.val

/-- R274: the address of an accumulator transfer. -/
def eaXM0 (c : Ctx) (a : Reg) (x : Option (BitVec 30)) : DWord :=
  c.pair a + (match x with | none => 0 | some o => o.signExtend 64)

/-- R186: pair plus sext(off16, 16). -/
def eaOff (c : Ctx) (a : Reg) (off : BitVec 16) : DWord := c.pair a + off.signExtend 64

/-- R305. -/
def eaXO (c : Ctx) (a : Reg) (x : Option (BitVec 16)) : DWord :=
  match x with
  | none => c.pair a
  | some o => eaOff c a o

/-- R151: the member set that mask pair `m` gives a lane; field 0 means every lane of the group. -/
def memberSet (c : Ctx) (w lane : Nat) (m : Reg) : BitVec 64 :=
  let all : BitVec 64 := BitVec.ofNat 64 (2 ^ w - 1)
  (if m.val = 0 then all else c.pair m &&& all) ||| (1#64 <<< lane)

/-- Registers named one by one (R33). -/
def regRun (r : Reg) : Nat → List Reg
  | 0 => []
  | n + 1 => r :: regRun (plusReg r 1) n

end Sys2Proof.Machine
end

