-- ==== Sys2Proof/Machine/Overwrites.lean ====
section
/-! DEFINITION. What an instruction overwrites in its thread (R86, R104, R238), and the pre-images that a checkpoint holds (R238,
R240). -/

namespace Sys2Proof.Machine

/-- R123: words of a `pkq` result. -/
def packWords (f : PackFmt) : Nat := if f = .t6 then 3 else 1

/-- Registers of a pair. -/
def pairRegs (r : Reg) : List Reg := [r, plusReg r 1]

/-- Registers and predicates that a register operation of class 0 or 1 may write. -/
def regEffect (i : Instr) : Option (List Reg × List Pred) :=
  match i with
  | .nop _ | .hint _ _ => some ([], [])
  | .add f _ | .sub f _ | .mul f | .mulh f _ | .mad f _ | .div f _ | .rem f _ | .min f _ | .max f _ | .and f | .or f | .xor f
  | .andn f | .shl f | .shr f | .sar f | .rot f _ | .bfx f _ | .bfi f | .lea f _
  | .fadd f _ | .fsub f _ | .fmul f _ | .ffma f _ _ | .fmin f | .fmax f | .hadd2 f _ | .hmul2 f _ | .hfma2 f _ _ => some ([f.d], [])
  | .sel f wide _ => some (if wide then pairRegs f.d else [f.d], [])
  | .add64 f | .sub64 f | .lea64 f _ => some (pairRegs f.d, [])
  | .abs f _ | .neg f _ | .not f | .clz f | .popc f | .brev f | .mov f | .fabs f _ | .fneg f _ | .fcls f _ | .frnd f _ => some ([f.d], [])
  | .mov64 f => some (pairRegs f.d, [])
  | .fcvt f _ df | .fcvtSat f _ df => some (if df.wide then pairRegs f.d else [f.d], [])
  | .pkq f fmt _ _ => some (regRun f.d (packWords fmt), [])
  | .upk f fmt => some (regRun f.d fmt.count, [])
  | .movi _ d k _ => some (if k = .b32 then [d] else pairRegs d, [])
  | .addImm f | .andImm f | .orImm f | .xorImm f | .shlImm f | .shrImm f | .sarImm f => some ([f.d], [])
  | .icmp f _ | .icmp64 f _ | .fcmp f _ => some ([], [f.pd])
  | .icmpImm _ pd _ _ _ | .pnot _ pd _ _ | .pmov _ pd _ _ => some ([], [pd])
  | .pand f | .por f | .pxor f => some ([], [f.pd])
  | _ => none

/-- Does the instruction step c.dphase? -/
def dithers (i : Instr) : Bool :=
  match i with
  | .pkq _ _ _ dth => dth
  | .xcp _ dth _ _ _ _ => dth
  | .xcpq _ dth _ _ _ _ _ => dth
  | _ => false

/-- Registers that the other instructions that may issue inside a region write, at once or later. -/
def lateDests (i : Instr) : List Reg :=
  match i with
  | .ldN8 f _ | .ldS8 f _ | .ldN16 f _ | .ldS16 f _ | .ldB32 f _ => [f.d]
  | .ldB64 f _ => regRun f.d 2
  | .ldB128 f _ => regRun f.d 4
  | .rcp f | .rsq f | .sqrt f | .ex2 f | .lg2 f | .sinpi f | .cospi f | .tanh f | .sigm f | .gelu f | .silu f | .erf f => [f.d]
  | .barTest f _ | .barWait f _ | .rlq f _ => [f.d]
  | .crd _ d _ => [d]
  | _ => []

/-- An instruction that makes an access, or hands over requests, and may do so speculatively (R235). -/
def mayOpen (i : Instr) : Bool :=
  match i with
  | .ldN8 _ _ | .ldS8 _ _ | .ldN16 _ _ | .ldS16 _ _ | .ldB32 _ _ | .ldB64 _ _ | .ldB128 _ _ => true
  | .stB8 _ _ | .stB16 _ _ | .stB32 _ _ | .stB64 _ _ | .stB128 _ _ => true
  | .barInit _ _ | .barExp _ _ | .barArr _ _ | .barWait _ _ | .barTest _ _ | .xcp _ _ _ _ _ _ | .xcpq _ _ _ _ _ _ _ => true
  | _ => false

/-- A register by its place: a global one, or a word of the frames, counted from the thread's first (R13). -/
def Ctx.preKey (c : Ctx) (r : Reg) : PreKey := if r.val < 16 then .glob r.val else .word (40 * c.depth.toNat + (r.val - 16))

/-- R238: what the instruction overwrites where its guard is true. -/
def overwritten (c : Ctx) (i : Instr) : List PreKey :=
  let regs (l : List Reg) : List PreKey := (l.filter fun r => r.val != 0).map c.preKey
  match i with
  | .loop _ _ _ _ => [.loops]
  | .call _ => [.word (40 * (c.depth.toNat + 1) + 38), .word (40 * (c.depth.toNat + 1) + 39)]
  | .callr _ _ => [.word (40 * (c.depth.toNat + 1) + 38), .word (40 * (c.depth.toNat + 1) + 39)]
  | i =>
    (match regEffect i with
     | some (ds, ps) => regs ds ++ if ps.isEmpty then [] else [.preds]
     | none => regs (lateDests i)) ++ if dithers i then [.dphase] else []

/-- The overwriting of `ks` by the instruction that issues as the thread's `n`-th; marks of cancelled issues are gone. -/
def Thread.mark (t : Thread) (ks : List PreKey) : Thread :=
  let n := t.ctx.icount
  { t with marks := ks.foldl (fun l k => (k, n) :: l.filter fun m => m.1 != k) (t.marks.filter fun m => decide (m.2 < n)) }

/-- What the checkpoint of access `a` has lost since: overwritten registers, predicates, dither phase; changed loops and c.fpst. -/
def Thread.lost (t : Thread) (a : Access) : List PreKey :=
  let k := a.snap
  let c := t.ctx
  let marked := (t.marks.filter fun m => decide (a.icount ≤ m.2) && decide (m.2 < c.icount)).map (·.1)
  let also (b : Bool) (x : PreKey) (l : List PreKey) : List PreKey := if b && !l.contains x then x :: l else l
  also (c.fpst != k.fpst) .fpst (also (!(c.lv0 == k.lv0 && c.lv1 == k.lv1 && c.lv2 == k.lv2 && c.ld == k.ld)) .loops marked)

/-- R238, R240: pre-images that a thread's checkpoint holds, one for each item on its first overwrite. -/
def Thread.preImages (t : Thread) : Nat :=
  match t.accs.find? fun a => a.spec with
  | none => 0
  | some a => (t.lost a).length

/-- The pre-images that the instruction needs. -/
def Thread.newImages (t : Thread) (i : Instr) : List PreKey :=
  match t.accs.find? fun a => a.spec with
  | none => if !t.accs.isEmpty && mayOpen i then overwritten t.ctx i else []
  | some a => (overwritten t.ctx i).filter fun k => !(t.lost a).contains k

/-- R240: pre-images in the checkpoint buffer of a core. -/
def bufferUse (s : State) (core : Nat) : Nat :=
  (threads s).foldl (fun n t => if t.place.core = core then n + t.preImages else n) 0

/-- R240: the checkpoint buffer, of 8,192 pre-images, has no room for those that the instruction needs. -/
def imagesShort (s : State) (i : Instr) : Bool :=
  let n := (s.th.newImages i).length
  n != 0 && decide (8192 < bufferUse s s.th.place.core + n)

end Sys2Proof.Machine
end

