-- ==== Sys2Proof/Machine/Clause.lean ====
section
/-! DEFINITION. Clauses: header fields and entry (R60 to R62), the repeat prefix's stepping (R72), formats (R68), and the
interlock before an issue (R24, R70, R102, R240, R252). -/

namespace Sys2Proof.Machine

/-! ## Words by opcode -/

def opOf (w : Nat) : Nat := w / 0x1000000

/-- R67: the class of an opcode's row. -/
def classOf (op : Nat) : Nat :=
  if op < 0x40 then 0 else if op < 0x60 then 1 else if op < 0x70 then 2 else if op < 0x90 then 3
  else if op < 0xB0 then 4 else if op < 0xC0 then 5 else if op < 0xE0 then 6 else if op < 0xF0 then 7 else 0

/-- R61. -/
def branchType (op : Nat) : Bool := (0x31 ≤ op && op ≤ 0x39) || op == 0xE3

def isRpt (w : Nat) : Bool := opOf w == 0x3A

/-- R68: format A. -/
def formatA (op : Nat) : Bool :=
  (0x01 ≤ op && op ≤ 0x20) || op == 0x33 || op == 0x35 || (0x40 ≤ op && op ≤ 0x49) || (0x4D ≤ op && op ≤ 0x53)
    || (0x90 ≤ op && op ≤ 0x96) || (0xBD ≤ op && op ≤ 0xBF)

/-- R68: format B. -/
def formatB (op : Nat) : Bool :=
  (0x28 ≤ op && op ≤ 0x2F) || op == 0x3B || op == 0x3D || op == 0x3E || op == 0xE0 || op == 0xE1 || op == 0xE4

/-- R68: format C. -/
def formatC (op : Nat) : Bool :=
  (0x60 ≤ op && op ≤ 0x6B) || (0x70 ≤ op && op ≤ 0x76) || (0x78 ≤ op && op ≤ 0x7C) || (0x80 ≤ op && op ≤ 0x89)
    || (0x97 ≤ op && op ≤ 0x99) || op == 0xBB || op == 0xBC || (0xC0 ≤ op && op ≤ 0xC7) || (0xD0 ≤ op && op ≤ 0xD6)

/-- R68: format V. -/
def formatV (op : Nat) : Bool := op == 0x4B || op == 0x4C

/-- R72: may `w` follow a prefix with step `sb`? -/
def rptLegal (w sb : Nat) : Bool :=
  let op := opOf w
  !(op == 0x33 || op == 0x35 || op == 0x3B || op == 0x3D || op == 0x3E || op == 0xE4)
    && (formatA op || ((formatB op || formatC op || formatV op) && sb == 0))

/-- R72: word `w` at issue `i` of a repeat; none if a stepped field passes 63. -/
def stepWord (r : Rep) (i w : Nat) : Option Nat :=
  let d := w / 0x4000 % 64 + i * r.sd
  let a := w / 0x100 % 64 + i * r.sa
  let b := if formatA (opOf w) then w / 4 % 64 + i * r.sb else 0
  if d > 63 || a > 63 || b > 63 then none
  else some (w + i * r.sd * 0x4000 + i * r.sa * 0x100 + (if formatA (opOf w) then i * r.sb * 4 else 0))

/-! ## The words of a clause (R59, R61) -/

/-- COUNT, WAIT and YIELD of a header. -/
def hdrCount (w : Nat) : Nat := w / 0x10000000
def hdrClass (w : Nat) : Nat := w / 0x2000000 % 8
def hdrWait (w : Nat) : BitVec 6 := BitVec.ofNat 6 (w / 0x80000)
def hdrYield (w : Nat) : Bool := bitN w 18

/-- R60: COUNT is not 0 and [16:0] is zero. -/
def hdrOk (w : Nat) : Bool := hdrCount w != 0 && w % 0x20000 == 0

/-- What a word of a clause is: an instruction where the thread can resume, one that a prefix governs, or an extension. -/
inductive Role | ins | gov | ext
  deriving DecidableEq, Repr

/-- Roles of a clause's words; `gov` says that a prefix stands before them, `ext` that an extension word comes first. -/
def rolesFrom (gov ext : Bool) : List Nat → List Role
  | [] => []
  | w :: rest =>
    if ext then .ext :: rolesFrom gov false rest
    else (if gov then .gov else .ins) :: rolesFrom (isRpt w) (hasExt w) rest

def roles (ws : List Nat) : List Role := rolesFrom false false ws

/-- R61 on a clause's words, with what must still follow: a governed instruction, or an extension word. -/
def clauseOkFrom (cls : Nat) (gov ext : Bool) : List Nat → Bool
  | [] => !gov && !ext
  | w :: rest =>
    if ext then clauseOkFrom cls gov false rest
    else
      let op := opOf w
      let tail := if hasExt w then rest.drop 1 else rest
      !(opcodeAssigned op && classOf op != 0 && classOf op != cls)
        && !(branchType op && !tail.isEmpty)
        && clauseOkFrom cls (isRpt w) (hasExt w) rest

/-- R61: does the clause break no rule? -/
def clauseOk (hdr : Nat) (ws : List Nat) : Bool := clauseOkFrom (hdrClass hdr) false false ws

/-- Words of code from `a` on; a failing fetch gives its address and its trap. -/
def fetchWords (s : State) (th : Thread) (a : DWord) : Nat → Except (DWord × Exc) (List Nat)
  | 0 => .ok []
  | n + 1 =>
    match fetchWord s th a with
    | .error e => .error (a, e)
    | .ok w =>
      match fetchWords s th (a + 4) n with
      | .error x => .error x
      | .ok ws => .ok (w.toNat :: ws)

/-- A trap of a fetch at `a`: c.tpc is the fetch target; a serviced one resumes at the header (R227, R331). -/
def fetchTrap (s : State) (a : DWord) (e : Exc) : Out :=
  if s.th.accs.isEmpty && s.th.ops.isEmpty then
    match e with
    | .trap code _ _ =>
      if code = cPageFault || code = cTableFault then .next (takeExc s e)
      else .next (takeExc (modCtx s fun c => { c with pc := a }) e)
    | .kill _ => .next (takeExc s e)
  else .next s

/-- R61: the clause at the header where the thread stands is decoded whole and entered. -/
def enterClause (s : State) : Out :=
  let h := s.th.ctx.clh
  if h.toNat % 4 != 0 then raiseCode s cMisaligned h
  else
    match fetchWord s s.th h with
    | .error e => fetchTrap s h e
    | .ok w =>
      if !hdrOk w.toNat then raiseCode s cIllegalClause 0
      else
        match fetchWords s s.th (h + 4) (hdrCount w.toNat) with
        | .error (a, e) => fetchTrap s a e
        | .ok ws =>
          if !clauseOk w.toNat ws then raiseCode s cIllegalClause 0
          else .next (modCtx s fun c => { c with
            pc := h + 4, cend := h + 4 + dwOf (4 * ws.length), yieldHdr := hdrYield w.toNat,
            wmask := c.wmask ||| hdrWait w.toNat })

/-! ## The interlock -/

/-- R70: registers that an access still owes. -/
def AccKind.dests : AccKind → List Reg
  | .load _ _ ds => ds
  | .atom _ size _ _ d => if size = 8 then [d, plusReg d 1] else [d]
  | .tq op st d =>
    match op with
    | .push _ _ => [st]
    | .pop => [st, d, plusReg d 1, plusReg d 2, plusReg d 3]
    | .steal _ => [st, d, plusReg d 1, plusReg d 2, plusReg d 3]
  | .store _ => []
  | .barExp _ => []
  | .barArr _ => []
  | .red _ _ _ => []
  | .mcst _ _ => []
  | .mcldRed _ _ _ _ _ => []
  | .copy _ => []

/-- R70: is the lookahead window of an instruction of `look`, the `n`-th to issue, over before the next one? -/
def Ctx.windowOver (c : Ctx) (n look : Nat) : Bool := decide (n + look < c.icount) || decide (n < c.wend)

/-- Results not yet written, and whether their windows are over. -/
def Thread.owed (t : Thread) : List (List Reg × Bool) :=
  ((t.accs.filter fun a => a.early.isNone).map fun a => (a.kind.dests, t.ctx.windowOver a.icount a.look))
    ++ t.ops.map fun o => (o.writes.map (·.1), t.ctx.windowOver o.icount o.look)

/-- Is any register result still owed? -/
def Thread.owes (t : Thread) : Bool := t.owed.any fun o => !o.1.isEmpty

/-- The register fields of a word and of its extension; every register where the instruction names a run of them or moves
the window. A field stands for itself and the three registers after it (a larger set changes only timing, R70). -/
def touches (w x : Nat) (r : Reg) : Bool :=
  let op := opOf w
  let near (f : Reg) : Bool := (r.val + 64 - f.val) % 64 < 4
  let exts := hasExt w && op != 0x28 && op != 0x38 && (near (xC x) || near (xE x))
  if (0x50 ≤ op && op ≤ 0x53) || (0x34 ≤ op && op ≤ 0x37) || op == 0xE3 then true
  else if formatA op then near (fD w) || near (fA w) || near (fB w) || exts
  else if formatB op || formatC op || formatV op then near (fD w) || near (fA w) || exts
  else if op == 0x38 then near (Fin.ofNat 64 (w / 0x1000))
  else near (fA10 w) || near (fB4 w)

/-- R237: the region stands at one of its limits, or `n` more accesses would take it beyond its 64. -/
def Thread.regionFull (t : Thread) (n : Nat) : Bool :=
  match t.accs.find? fun a => a.spec with
  | none => false
  | some a => decide (64 < (t.accs.filter fun b => b.spec).length + Nat.max n 1) || decide (a.icount + 512 ≤ t.ctx.icount)

/-- Accesses that an instruction makes: the requests of an `xcpq` (R307), else at most one. -/
def accessesOf (w : Nat) : Nat := if opOf w == 0xC1 then w / 0x4000 % 32 + 1 else 1

/-- Must the instruction `w` (extension `x`) wait? -/
def interlock (s : State) (w x : Nat) : Bool :=
  let t := s.th
  (t.owed.any fun o => !o.1.isEmpty && (o.2 || o.1.any (touches w x)))
    || ((List.range 6).any fun k => t.ctx.wmask.getLsbD k && dcGet t (Fin.ofNat 7 k) != 0)
    || (t.ctx.drain && !t.accs.isEmpty)
    || t.regionFull (accessesOf w)
    || (t.ctx.pred (fP w) && (match decodeWord w x with
        | none => false
        | some i => imagesShort s i))
    -- R46, R85: c.fpst is read and written only once every older flag is in it
    || ((opOf w == 0xE0 || opOf w == 0xE1) && nI w == 0x1A && t.ops.any fun o => o.flags != 0)
    || (formatC (opOf w) && nDc w < 6 && dcFull t (Fin.ofNat 7 (nDc w)) && s.th.ctx.pred (fP w))

end Sys2Proof.Machine
end

