-- ==== Sys2Proof/Machine/BarObj.lean ====
section
/-! DEFINITION. Barrier objects in scratchpad (R291, R292, R293, R295, R311, R312). -/

namespace Sys2Proof.Machine

/-- The fields of a barrier object (R291). -/
structure BarObj where
  expb : Nat
  arrb : Nat
  expa : Nat
  arra : Nat
  ph : Nat
  err : Nat
  eslot : Nat
  last : Nat
  deriving DecidableEq, Repr

def barOf (bs : List Byte) : BarObj :=
  { expb := fieldOf bs 0 4, arrb := fieldOf bs 4 4, expa := fieldOf bs 8 2, arra := fieldOf bs 10 2,
    ph := fieldOf bs 12 1, err := fieldOf bs 13 1, eslot := fieldOf bs 14 1, last := fieldOf bs 15 1 }

def BarObj.bytes (b : BarObj) : List Byte :=
  bytesOfNat 4 b.expb ++ bytesOfNat 4 b.arrb ++ bytesOfNat 2 b.expa ++ bytesOfNat 2 b.arra
    ++ bytesOfNat 1 b.ph ++ bytesOfNat 1 b.err ++ bytesOfNat 1 b.eslot ++ bytesOfNat 1 b.last

/-- Record the first error (R291). -/
def BarObj.fail (b : BarObj) (code slot : Nat) : BarObj := if b.err = 0 then { b with err := code, eslot := slot } else b

/-- R292. -/
def BarObj.check (b : BarObj) : BarObj :=
  if b.arra = b.expa && b.expb ≤ b.arrb then
    { b with err := if b.expb < b.arrb && b.err == 0 then 8 else b.err,
             ph := (b.ph + 1) % 256, arra := 0, arrb := 0, expb := 0 }
  else b

/-- R311. -/
def BarObj.init (expa : Nat) : BarObj := ⟨0, 0, expa % 0x10000, 0, 0, 0, 0, 0⟩

/-- R312: `bar.exp`. -/
def BarObj.expect (b : BarObj) (v slot : Nat) : BarObj :=
  BarObj.check (if 0xFFFFFFFF < b.expb + v then { b.fail 8 slot with expb := 0xFFFFFFFF } else { b with expb := b.expb + v })

/-- R312: `bar.arr`. -/
def BarObj.arrive (b : BarObj) (n slot : Nat) : BarObj :=
  BarObj.check (if b.expa < b.arra + n then { b.fail 8 slot with arra := b.expa } else { b with arra := b.arra + n })

/-- ARRB after a count to `n` bytes: beyond its 32 bits the spec states no value, and it is free (log 56). -/
def landed (n : Nat) : Nat := if n < 0x100000000 then n else (Config.freeWord n).toNat

/-- R293: an engine's count of landed bytes. -/
def BarObj.count (b : BarObj) (n : Nat) : BarObj := BarObj.check { b with arrb := landed (b.arrb + n) }

/-- R295: a failed operation's update; `rest` bytes are counted, or those that bring ARRB to EXPB where it is none (R308). -/
def BarObj.failCount (b : BarObj) (code slot : Nat) (rest : Option Nat) : BarObj :=
  BarObj.check { b.fail code slot with arrb := match rest with
    | some n => landed (b.arrb + n)
    | none => Nat.max b.arrb b.expb }

end Sys2Proof.Machine
end

