-- ==== Sys2Proof/Machine/Numeric.lean ====
section
/-! DEFINITION. Number formats and their arithmetic (R39 to R58): exact values, rounding, saturation, dither, block quantisation. -/

namespace Sys2Proof.Machine

/-- Every format that an element can have (R39, R44). -/
inductive NumFmt | f32 | bf16 | f16 | e5m2 | e4m3 | e2m3 | e2m1 | t8 | t6
  deriving DecidableEq, Repr

/-- An exact value: a NaN (signalling or quiet), an infinity, or (−1)^s × m × 2^e. -/
inductive Num
  | nan (sig : Bool)
  | inf (s : Bool)
  | fin (s : Bool) (m : Nat) (e : Int)
  deriving DecidableEq, Repr

/-- Rounding modes (R46, R51). -/
inductive Rm | rne | rz | rup | rdn | dith (i : Nat)
  deriving DecidableEq, Repr

/-! ## Flags (R46) -/

def fNV : Word := 0x100
def fDZ : Word := 0x200
def fOF : Word := 0x400
def fUF : Word := 0x800
def fNX : Word := 0x1000
def fSA : Word := 0x2000
def fBN : Word := 0x4000

/-- c.fpst RM. -/
def rmOf (fpst : Word) : Rm :=
  match fpst.toNat % 4 with
  | 0 => .rne
  | 1 => .rz
  | 2 => .rup
  | _ => .rdn

/-! ## Fields of the formats (R39) -/

def NumFmt.bits : NumFmt → Nat
  | .f32 => 32 | .bf16 => 16 | .f16 => 16 | .e5m2 => 8 | .e4m3 => 8 | .e2m3 => 6 | .e2m1 => 4 | .t8 => 8 | .t6 => 6

def NumFmt.fbits : NumFmt → Nat
  | .f32 => 23 | .bf16 => 7 | .f16 => 10 | .e5m2 => 2 | .e4m3 => 3 | .e2m3 => 3 | .e2m1 => 1 | .t8 => 0 | .t6 => 0

def NumFmt.bias : NumFmt → Nat
  | .f32 => 127 | .bf16 => 127 | .f16 => 15 | .e5m2 => 15 | .e4m3 => 7 | .e2m3 => 1 | .e2m1 => 1 | .t8 => 0 | .t6 => 0

/-- Code of the largest finite magnitude. -/
def NumFmt.maxCode : NumFmt → Nat
  | .f32 => 0x7F7FFFFF | .bf16 => 0x7F7F | .f16 => 0x7BFF | .e5m2 => 0x7B | .e4m3 => 0x7E | .e2m3 => 0x1F | .e2m1 => 7
  | .t8 => 0x7F | .t6 => 0x1F

/-- The format has infinities. -/
def NumFmt.hasInf : NumFmt → Bool
  | .f32 => true | .bf16 => true | .f16 => true | .e5m2 => true
  | .e4m3 => false | .e2m3 => false | .e2m1 => false | .t8 => false | .t6 => false

def NumFmt.tapered : NumFmt → Bool
  | .t8 => true | .t6 => true
  | .f32 => false | .bf16 => false | .f16 => false | .e5m2 => false | .e4m3 => false | .e2m3 => false | .e2m1 => false

/-- The canonical NaN (R40, R44); E2M3 and E2M1 have none. -/
def NumFmt.nanCode : NumFmt → Nat
  | .f32 => 0x7FC00000 | .bf16 => 0x7FC0 | .f16 => 0x7E00 | .e5m2 => 0x7E | .e4m3 => 0x7F | .e2m3 => 0 | .e2m1 => 0
  | .t8 => 0x80 | .t6 => 0x20

def NumFmt.signBit (f : NumFmt) : Nat := 2 ^ (f.bits - 1)

/-- Exponent bits of a tapered format. -/
def NumFmt.es : NumFmt → Nat
  | .t8 => 2 | .t6 => 1
  | .f32 => 0 | .bf16 => 0 | .f16 => 0 | .e5m2 => 0 | .e4m3 => 0 | .e2m3 => 0 | .e2m1 => 0

/-! ## Decoding -/

/-- Length of the run of bits equal to `v` from bit i − 1 of `b` downward. -/
def leadRun (v : Bool) (b : Nat) : Nat → Nat
  | 0 => 0
  | i + 1 => if bitN b i = v then 1 + leadRun v b i else 0

/-- R44 on a positive code: significand and exponent. -/
def tValue (f : NumFmt) (b : Nat) : Nat × Int :=
  let w := f.bits - 1
  let v := bitN b (w - 1)
  let k := leadRun v b w
  let rg : Int := if v then (k : Int) - 1 else -(k : Int)
  let restLen := w - k - 1
  let rest := b % 2 ^ restLen
  let es := f.es
  let e := if es ≤ restLen then rest / 2 ^ (restLen - es) else rest * 2 ^ (es - restLen)
  let fl := restLen - es
  (2 ^ fl + rest % 2 ^ fl, rg * 2 ^ es + e - fl)

/-- The exact value of a code (R39, R44). -/
def numOf (f : NumFmt) (code : Nat) : Num :=
  let c := code % 2 ^ f.bits
  let s := decide (f.signBit ≤ c)
  if f.tapered then
    if c = 0 then .fin false 0 0
    else if c = f.signBit then .nan false
    else
      let v := tValue f (if s then 2 ^ f.bits - c else c)
      .fin s v.1 v.2
  else
    let fb := f.fbits
    let mag := c % f.signBit
    let ex := mag / 2 ^ fb
    let fr := mag % 2 ^ fb
    if f.hasInf && mag > f.maxCode then
      if fr = 0 then .inf s else .nan (f != .e5m2 && fr < 2 ^ (fb - 1))
    else if mag > f.maxCode then .nan false
    else if ex = 0 then .fin s fr (1 - (f.bias : Int) - fb)
    else .fin s (2 ^ fb + fr) ((ex : Int) - f.bias - fb)

def Num.isNan : Num → Bool
  | .nan _ => true
  | .inf _ => false
  | .fin _ _ _ => false

/-- NV of a signalling input (R40). -/
def Num.sig : Num → Word
  | .nan true => fNV
  | .nan false => 0
  | .inf _ => 0
  | .fin _ _ _ => 0

/-! ## Rounding -/

/-- R51: D[i], the bit reversal of i. -/
def ditherD (i : Nat) : Nat :=
  let b (k : Nat) (w : Nat) : Nat := if bitN i k then w else 0
  b 0 32 + b 1 16 + b 2 8 + b 3 4 + b 4 2 + b 5 1

/-- Does a magnitude n + r / q, 0 < r < q, round up to n + 1? `odd` is the low bit of n's code. -/
def roundsUp (m : Rm) (s odd : Bool) (r q : Nat) : Bool :=
  match m with
  | .rne => decide (q < 2 * r) || (2 * r == q && odd)
  | .rz => false
  | .rup => !s
  | .rdn => s
  | .dith i => decide ((2 * ditherD (i % 64) + 1) * q < 128 * r)

/-- m × 2^(−sh) rounded to an integer magnitude, and whether it is inexact. -/
def roundShift (md : Rm) (s : Bool) (m : Nat) (sh : Int) : Nat × Bool :=
  if sh ≤ 0 then (m <<< (-sh).toNat, false)
  else
    let k := sh.toNat
    let n := m >>> k
    let r := m % 2 ^ k
    if r = 0 then (n, false) else (if roundsUp md s (n % 2 == 1) r (2 ^ k) then n + 1 else n, true)

/-- m1 × 2^e1 ≤ m2 × 2^e2. -/
def leDy (m1 : Nat) (e1 : Int) (m2 : Nat) (e2 : Int) : Bool :=
  if e1 ≤ e2 then decide (m1 ≤ m2 <<< (e2 - e1).toNat) else decide (m1 <<< (e1 - e2).toNat ≤ m2)

/-- Rounded code of a positive tapered value, and flags (R47 step 3, R52). -/
def encT (f : NumFmt) (md : Rm) (s : Bool) (m : Nat) (e : Int) : Nat × Word :=
  let le (c : Nat) : Bool := let v := tValue f c; leDy v.1 v.2 m e
  let eq (c : Nat) : Bool := let v := tValue f c; leDy v.1 v.2 m e && leDy m e v.1 v.2
  let i := ((List.range (f.maxCode + 1)).drop 1).foldl (fun n c => if le c then n + 1 else n) 0
  if i = 0 then (1, fUF ||| fNX)
  else if eq i then (i, 0)
  else if i = f.maxCode then (i, fOF ||| fNX)
  else
    let lo := tValue f i
    let hi := tValue f (i + 1)
    let b : Int := min e (min lo.2 hi.2)
    let at' (m : Nat) (e : Int) : Nat := m <<< (e - b).toNat
    let l := at' lo.1 lo.2
    (if roundsUp md s (i % 2 == 1) (at' m e - l) (at' hi.1 hi.2 - l) then i + 1 else i, fNX)

/-- The result of an overflow without saturation (R47 step 2). -/
def overflowCode (f : NumFmt) (md : Rm) (s : Bool) : Nat :=
  let sb := if s then f.signBit else 0
  if f.hasInf then
    let up := match md with
      | .rne => true
      | .rz => false
      | .rup => !s
      | .rdn => s
      | .dith _ => true
    if up then sb + (f.maxCode / 2 ^ f.fbits + 1) * 2 ^ f.fbits else sb + f.maxCode
  else if f = .e4m3 then f.nanCode
  else sb + f.maxCode

/-- A nonzero magnitude in a binary format (R47, R48, R52). DEDUCED (log 57): SA stands where saturation changes the value that
step 2 of R47 gives; where that value is already the largest one, R48's sentence governs and SA is not set. -/
def encB (f : NumFmt) (md : Rm) (sat s : Bool) (m : Nat) (e : Int) : Nat × Word :=
  let fb := f.fbits
  let sb := if s then f.signBit else 0
  let emin : Int := 1 - f.bias
  let top : Int := (Nat.log2 m : Int) + e
  let q : Int := max top emin - fb
  -- R52: beyond the largest finite value dither rounds as RNE does
  let mx := numOf f f.maxCode
  let md' := match md, mx with
    | .dith i, .fin _ mm me => if leDy m e mm me then .dith i else .rne
    | x, _ => x
  let r := roundShift md' s m (q - e)
  let n := if r.1 = 2 ^ (fb + 1) then 2 ^ fb else r.1
  let q' : Int := if r.1 = 2 ^ (fb + 1) then q + 1 else q
  let code := if n < 2 ^ fb then n else (q' + fb + f.bias).toNat * 2 ^ fb + (n - 2 ^ fb)
  let nx := if r.2 then fNX else 0
  if code > f.maxCode then
    let res := overflowCode f md' s
    if sat && (res != sb + f.maxCode || f == .e2m3 || f == .e2m1) then (sb + f.maxCode, fOF ||| fNX ||| fSA)
    else (res, fOF ||| fNX)
  else (sb + code, nx ||| (if r.2 && 0 < code && code < 2 ^ fb then fUF else 0))

/-- Round an exact value into `f` (R47 to R50); the NV of a signalling source is the caller's. DESIGN CHOICE (log 57), unsafe: an
infinity saturates in every conversion that selects saturation, also in `fcvt.sat` of the widening ones (R122). -/
def encNum (f : NumFmt) (md : Rm) (sat : Bool) (v : Num) : Nat × Word :=
  let sb (s : Bool) : Nat := if s then f.signBit else 0
  let neg (s : Bool) (c : Nat) : Nat := if s then 2 ^ f.bits - c else c
  match v with
  | .nan _ => (f.nanCode, 0)
  | .inf s =>
    if sat then (if f.tapered then neg s f.maxCode else sb s + f.maxCode, fSA)
    else if f.hasInf then (sb s + (f.maxCode / 2 ^ f.fbits + 1) * 2 ^ f.fbits, 0)
    else (f.nanCode, fNV)
  | .fin s m e =>
    if m = 0 then (if f.tapered then 0 else sb s, 0)
    else if f.tapered then
      let r := encT f md s m e
      (neg s r.1, r.2)
    else encB f md sat s m e

/-! ## Integers (R50, R122) -/

/-- Signed significand. -/
def sgnd (s : Bool) (m : Nat) : Int := if s then -(m : Int) else m

/-- R50, R122: a value rounded into `w` bits, signed or not; its bits and flags. A source outside the type's range is invalid,
also one that would round into it. -/
def intOf (md : Rm) (signed : Bool) (w : Nat) (v : Num) : Nat × Word :=
  let lo : Int := if signed then -(2 ^ (w - 1) : Int) else 0
  let hi : Int := if signed then 2 ^ (w - 1) - 1 else 2 ^ w - 1
  let bits (x : Int) : Nat := (x % (2 ^ w : Int)).toNat
  match v with
  | .nan _ => (0, fNV)
  | .inf s => (bits (if s then lo else hi), fNV)
  | .fin s m e =>
    let r := roundShift md s m (-e)
    let below := s && !leDy m e lo.natAbs 0
    let above := !s && !leDy m e hi.natAbs 0
    if below then (bits lo, fNV) else if above then (bits hi, fNV) else (bits (sgnd s r.1), if r.2 then fNX else 0)

def numOfInt (x : Int) : Num := .fin (decide (x < 0)) x.natAbs 0

/-! ## Exact arithmetic (R49, R115) -/

/-- Exact sum; `rdn` gives the sign of an exact zero. DEDUCED (log 57): (+0) + (+0) is +0 under every mode, as IEEE 754-2019, which
R115 cites, has it. -/
def addNum (rdn : Bool) (a b : Num) : Num × Word :=
  match a, b with
  | .nan _, _ => (.nan false, 0)
  | _, .nan _ => (.nan false, 0)
  | .inf s, .inf t => if s = t then (.inf s, 0) else (.nan false, fNV)
  | .inf s, .fin _ _ _ => (.inf s, 0)
  | .fin _ _ _, .inf t => (.inf t, 0)
  | .fin s m e, .fin t n g =>
    let b := min e g
    let x := sgnd s (m <<< (e - b).toNat) + sgnd t (n <<< (g - b).toNat)
    if x = 0 then (.fin (if m = 0 && n = 0 && s == t then s else rdn) 0 0, 0)
    else (.fin (decide (x < 0)) x.natAbs b, 0)

def negNum : Num → Num
  | .nan q => .nan q
  | .inf s => .inf (!s)
  | .fin s m e => .fin (!s) m e

/-- Exact product. -/
def mulNum (a b : Num) : Num × Word :=
  match a, b with
  | .nan _, _ => (.nan false, 0)
  | _, .nan _ => (.nan false, 0)
  | .inf s, .inf t => (.inf (s ^^ t), 0)
  | .inf s, .fin t m _ => if m = 0 then (.nan false, fNV) else (.inf (s ^^ t), 0)
  | .fin s m _, .inf t => if m = 0 then (.nan false, fNV) else (.inf (s ^^ t), 0)
  | .fin s m e, .fin t n g => (.fin (s ^^ t) (m * n) (e + g), 0)

/-- Exact a × b + c; 0 × ∞ sets NV even beside a quiet NaN (R115). -/
def fmaNum (rdn : Bool) (a b c : Num) : Num × Word :=
  let p := mulNum a b
  let r := addNum rdn p.1 c
  (r.1, p.2 ||| r.2)

def Rm.isDn : Rm → Bool
  | .rdn => true
  | .rne => false
  | .rz => false
  | .rup => false
  | .dith _ => false

/-- Round a result into `f` with its flags. -/
def finish (f : NumFmt) (md : Rm) (r : Num × Word) : Nat × Word :=
  let e := encNum f md false r.1
  (e.1, r.2 ||| e.2)

/-- a + b in `f` (R115). -/
def faddBits (f : NumFmt) (md : Rm) (a b : Nat) : Nat × Word :=
  let x := numOf f a
  let y := numOf f b
  let r := finish f md (addNum md.isDn x y)
  (r.1, r.2 ||| x.sig ||| y.sig)

/-- a × b in `f`. -/
def fmulBits (f : NumFmt) (md : Rm) (a b : Nat) : Nat × Word :=
  let x := numOf f a
  let y := numOf f b
  let r := finish f md (mulNum x y)
  (r.1, r.2 ||| x.sig ||| y.sig)

/-- a × b + c in `f` (R58). -/
def ffmaBits (f : NumFmt) (md : Rm) (a b c : Nat) : Nat × Word :=
  let x := numOf f a
  let y := numOf f b
  let z := numOf f c
  let r := finish f md (fmaNum md.isDn x y z)
  (r.1, r.2 ||| x.sig ||| y.sig ||| z.sig)

/-- −a as bits. -/
def negBits (f : NumFmt) (a : Nat) : Nat := if a % 2 ^ f.bits ≥ f.signBit then a - f.signBit else a + f.signBit

/-- Order of two codes of a binary format that are no NaN, −0 below +0 (R116). -/
def codeKey (f : NumFmt) (a : Nat) : Int :=
  let c := a % 2 ^ f.bits
  if f.signBit ≤ c then -((c - f.signBit : Nat) : Int) - 1 else c

/-- Minimum or maximum of two codes (R116). -/
def fminmax (f : NumFmt) (wantMax : Bool) (a b : Nat) : Nat × Word :=
  let x := numOf f a
  let y := numOf f b
  if x.isNan || y.isNan then (f.nanCode, x.sig ||| y.sig)
  else
    let aLess := decide (codeKey f a ≤ codeKey f b)
    (if aLess == wantMax then b % 2 ^ f.bits else a % 2 ^ f.bits, 0)

/-! ## Block quantisation (R54, R55, R127) -/

/-- Element format and emax of the MX types (R43). -/
def mxElem : MxFmt → NumFmt
  | .mx8 => .e4m3 | .mx6 => .e2m3 | .mx4 => .e2m1
def mxEmax : MxFmt → Nat
  | .mx8 => 8 | .mx6 => 2 | .mx4 => 2

/-- The largest ⌊log2 |x|⌋ of the nonzero values of a block. -/
def topLog : List Num → Option Int
  | [] => none
  | .fin _ m e :: l =>
    if m = 0 then topLog l
    else
      let t := (Nat.log2 m : Int) + e
      some (match topLog l with | none => t | some u => max t u)
  | .nan _ :: l => topLog l
  | .inf _ :: l => topLog l

def Num.isFin : Num → Bool
  | .fin _ _ _ => true
  | .nan _ => false
  | .inf _ => false

/-- A NaN in `f` for any NaN, and every other code as it is (R40). -/
def canonNan (f : NumFmt) (a : Nat) : Nat × Word := let x := numOf f a; if x.isNan then (f.nanCode, x.sig) else (a, 0)

/-- R54: scale, element codes and the flags of each element. DEDUCED (log 57): a block that holds a NaN sets BN and no NV, a
signalling one too, since R126 and R55 name the flags of a block and NV is not among them; `dith` gives the dither index of each element. -/
def quantBlock (mx : MxFmt) (xs : List Num) (dith : Option (List Nat)) : Nat × List Nat × Word :=
  if xs.any fun x => !x.isFin then (0xFF, xs.map fun _ => 0, fBN)
  else
    let sc : Int := match topLog xs with
      | none => 0
      | some t => max (t - mxEmax mx) (-127)
    let md (j : Nat) : Rm := match dith with
      | none => .rne
      | some l => .dith (l.getD j 0)
    let els := (List.range xs.length).map fun j =>
      match xs.getD j (.fin false 0 0) with
      | .fin s m e => encNum (mxElem mx) (md j) true (.fin s m (e - sc))
      | .nan _ => (0, 0)
      | .inf _ => (0, 0)
    ((sc + 127).toNat, els.map (·.1), els.foldl (fun fl e => fl ||| e.2) 0)

/-- R127: scale × element as .f32, and flags: every subnormal or zero result of a nonzero product sets UF and NX. -/
def dequant (mx : MxFmt) (scale code : Nat) : Nat × Word :=
  if scale = 0xFF then (0x7FC00000, 0)
  else
    match numOf (mxElem mx) code with
    | .nan _ => (0x7FC00000, 0)
    | .inf _ => (0x7FC00000, 0)
    | .fin s m e =>
      let r := encNum .f32 .rne false (.fin s m (e + scale - 127))
      if m != 0 && r.1 % 0x80000000 < 0x00800000 then (r.1, r.2 ||| fUF ||| fNX) else r

/-! ## Packed strings (R38) -/

/-- Elements of `w` bits packed from bit 0 up. -/
def packN (w : Nat) : List Nat → Nat
  | [] => 0
  | x :: xs => x % 2 ^ w + 2 ^ w * packN w xs

def unpackN (w : Nat) : Nat → Nat → List Nat
  | 0, _ => []
  | n + 1, v => v % 2 ^ w :: unpackN w n (v / 2 ^ w)

/-- The low `n` words of a number. -/
def wordsOfNat : Nat → Nat → List Word
  | 0, _ => []
  | n + 1, v => wOf v :: wordsOfNat n (v / 0x100000000)

def natOfWords : List Word → Nat
  | [] => 0
  | w :: ws => w.toNat + 0x100000000 * natOfWords ws

end Sys2Proof.Machine
end

