-- ==== Sys2Proof/Machine/Flags.lean ====
section
/-! DEFINITION. c.fpst flags and rounding modes (R46, R113, R115, R119), the classes of `fcls` (R118), the relations of `fcmp`
(R120), and operations whose result comes later (R70, R71). -/

namespace Sys2Proof.Machine

/-- R113: flags are OR-ed into c.fpst. -/
def Ctx.orFlags (c : Ctx) (f : Word) : Ctx := { c with fpst := c.fpst ||| f }

/-- R115. -/
def rmSel (c : Ctx) (m : RmSel) : Rm :=
  match m with
  | .fpst => rmOf c.fpst
  | .rne => .rne
  | .rz => .rz

/-- R119. -/
def frndSel (c : Ctx) (m : FrndSel) : Rm :=
  match m with
  | .fpst => rmOf c.fpst
  | .rne => .rne
  | .rz => .rz
  | .rdn => .rdn

/-- A result word with its flags. -/
def Ctx.setF (c : Ctx) (d : Reg) (r : Nat × Word) : Ctx := (c.setReg d (wOf r.1)).orFlags r.2

def clsFmt : ClsFmt → NumFmt
  | .f32 => .f32 | .bf16 => .bf16 | .f16 => .f16

/-- R118: the bit of a value's class. -/
def classBit (f : NumFmt) (code : Nat) : Nat :=
  match numOf f code with
  | .nan true => 8
  | .nan false => 9
  | .inf s => if s then 0 else 7
  | .fin s m _ =>
    if m = 0 then (if s then 3 else 4)
    else if m < 2 ^ f.fbits then (if s then 2 else 5)
    else (if s then 1 else 6)

/-- R120: a < b and a = b of two .f32 codes that are no NaN. -/
def fEq (a b : Word) : Bool := a == b || (a.toNat % 0x80000000 == 0 && b.toNat % 0x80000000 == 0)
def fLt (a b : Word) : Bool := !fEq a b && decide (codeKey .f32 a.toNat < codeKey .f32 b.toNat)

/-- R120: the predicate and the flags of `fcmp`. -/
def fcmpOf (cc : FCond) (a b : Word) : Bool × Word :=
  let x := numOf .f32 a.toNat
  let y := numOf .f32 b.toNat
  let un := x.isNan || y.isNan
  let quiet := x.sig ||| y.sig
  let loud : Word := if un then fNV else 0
  match cc with
  | .eq => (!un && fEq a b, quiet)
  | .ne => (un || !fEq a b, quiet)
  | .lt => (!un && fLt a b, loud)
  | .le => (!un && (fLt a b || fEq a b), loud)
  | .gt => (!un && fLt b a, loud)
  | .ge => (!un && (fLt b a || fEq a b), loud)
  | .un => (un, quiet)
  | .ord => (!un, quiet)
  | .qlt => (!un && fLt a b, quiet)
  | .qle => (!un && (fLt a b || fEq a b), quiet)
  | .qgt => (!un && fLt b a, quiet)
  | .qge => (!un && (fLt b a || fEq a b), quiet)

/-- R119: a .f32 value rounded to an integral one. -/
def frndBits (md : Rm) (a : Nat) : Nat × Word :=
  match numOf .f32 a with
  | .nan q => (0x7FC00000, if q then fNV else 0)
  | .inf _ => (a, 0)
  | .fin s m e =>
    if m = 0 || 0 ≤ e then (a, 0)
    else
      let r := roundShift md s m (-e)
      ((encNum .f32 .rne false (.fin s r.1 0)).1, if r.2 then fNX else 0)

/-- R70, R71: the end of the issue of an operation that will write `writes` and set `flags` later. -/
def issueOp (s : State) (f : FmtC) (writes : List (Reg × Word)) (flags : Word) : Out :=
  .next (modTh (goOn (issued s) (instrLen s)) fun t =>
    dcStep { t with ops := t.ops ++ [⟨writes, f.dc, f.look.val, flags, t.seq, s.th.ctx.icount⟩], seq := t.seq + 1 } f.dc)

/-- A value that an older operation owes reaches the checkpoints of younger accesses as well (R238, R239). -/
def patchSnaps (t : Thread) (seq : Nat) (f : Ctx → Ctx) : Thread :=
  { t with accs := t.accs.map fun a => if seq < a.seq then { a with snap := f a.snap } else a }

/-- R71: the oldest pending operation of the focus thread completes. -/
def completeOp (s : State) : State :=
  match s.th.ops with
  | [] => s
  | o :: rest =>
    let put (c : Ctx) : Ctx := (c.setMany o.writes).orFlags o.flags
    modTh s fun t => dcDrop (patchSnaps { t with ops := rest, ctx := put t.ctx } o.seq put) o.dc

/-- R71. -/
def execInstructionCompletion (t : Tid) (s : State) : Out := .next (onThread s t completeOp)

end Sys2Proof.Machine
end

