-- ==== Sys2Proof/Machine/Peer.lean ====
section
/-! DEFINITION. A thread's accesses to peers: request flits, serials, watches (R369, R376, R378, R421). -/

namespace Sys2Proof.Machine

/-- OP of AUX (R421). -/
def AtomOp.auxOp : AtomOp → Nat
  | .addS => 1 | .addN => 1 | .minS => 2 | .minN => 2 | .maxS => 3 | .maxN => 3 | .and => 4 | .or => 5 | .xor => 6 | .exch => 7 | .cas => 8
  | .fadd32 => 9 | .faddBf => 9

/-- T of AUX: the type code of R65. -/
def AtomOp.auxT (o : AtomOp) (size : Nat) : Nat :=
  let w (n m : Nat) : Nat := if size = 8 then m else n
  match o with
  | .addS => w 0 4 | .addN => w 1 5 | .minS => w 0 4 | .minN => w 1 5 | .maxS => w 0 4 | .maxN => w 1 5
  | .and => w 2 6 | .or => w 2 6 | .xor => w 2 6 | .exch => w 2 6 | .cas => w 2 6
  | .fadd32 => 3 | .faddBf => 7

def redAuxOp : RedOp → Nat
  | .add => 10 | .min => 11 | .max => 12

/-- TYPE, AUX and payload of an access's request; none where it sends none. -/
def AccKind.request : AccKind → Option (Nat × Nat × List Byte)
  | .load n _ _ => some (0x01, n, [])
  | .store bs => some (0x02, bs.length, bs)
  | .atom op n c e _ => some (0x03, n + 0x100 * op.auxOp + 0x1000 * op.auxT n,
      bytesOfNat n c.toNat ++ if op = .cas then bytesOfNat n e.toNat else [])
  | .red op bf v => some (0x03, 4 * v.length + 0x100 * redAuxOp op + 0x1000 * (if bf then 7 else 3), bytesOf v)
  | .barExp _ => none
  | .barArr _ => none
  | .tq _ _ _ => none
  | .mcst _ _ => none
  | .mcldRed _ _ _ _ _ => none
  | .copy _ => none

/-- A request of the focus thread: the flit, and its entry among the outstanding requests (R378). -/
def sendRequest (s : State) (seq dev off : Nat) (r : Nat × Nat × List Byte) : State × Nat :=
  let n := s.fab.nextSerial
  ({ s with
      out := s.out ++ [{ mkFlit s r.1 4 dev with
        serial := n, ctx := s.th.place.ctx, keyid := s.th.place.keyId, addr := off, aux := r.2.1, payload := r.2.2 }],
      fab := { s.fab with nextSerial := (n + 1) % 0x100000000, reqs := s.fab.reqs ++ [⟨n, s.th.id, seq, dev, 0⟩] } }, n)

/-- R376: watch register (0x06) or release (0x07): ADDR is the line, AUX the words, payload byte 0 the intent, and SERIAL of a
register that of the load's request, which travels after it (log 15). -/
def sendWatch (s : State) (ty dev off n : Nat) (intent : Bool) : State :=
  { s with out := s.out ++ [{ mkFlit s ty 5 dev with
      serial := if ty = 0x06 then s.fab.nextSerial else 0, ctx := s.th.place.ctx, keyid := s.th.place.keyId,
      addr := off / 128 * 128, aux := lineMask off n, payload := [if intent then 1 else 0] }] }

/-- R236, R376: the release that a commit sends, whose answer it awaits as that of any request (log 66). -/
def sendRelease (s : State) (seq dev off n : Nat) (intent : Bool) : State × Nat :=
  let k := s.fab.nextSerial
  ({ s with
      out := s.out ++ [{ mkFlit s 0x07 5 dev with
        serial := k, ctx := s.th.place.ctx, keyid := s.th.place.keyId, addr := off / 128 * 128, aux := lineMask off n,
        payload := [if intent then 1 else 0, 1] }],
      fab := { s.fab with nextSerial := (k + 1) % 0x100000000, reqs := s.fab.reqs ++ [⟨k, s.th.id, seq, dev, 0⟩] } }, k)

/-- R376: commit or rollback releases the remote watch that a speculative access holds, unless a commit has sent the release. -/
def releaseWatch (s : State) (a : Access) : State :=
  match a.loc, a.spec && !a.closed && (a.early.isSome != a.serial.isSome), a.kind with
  | some (.peer d o _), true, .load n _ _ => sendWatch s 0x07 d o n a.intent
  | _, _, _ => s

/-- The request flit that a held write of the home carries. -/
def heldFlit (ev : Instr) : Option Flit :=
  match ev with
  | .write f => some f
  | .atomic f => some f
  | _ => none

/-- A request of the device to itself is still on its way: its flit has not left, or its write is held at the home. -/
def onItsWay (s : State) (n : Nat) : Bool :=
  (s.out.any fun f => isSelf s f.dst && f.serial == n)
    || s.mem.waits.any fun w => (match heldFlit w.ev with
      | some f => isSelf s f.src && f.serial == n
      | none => false)

/-- Drop an access's outstanding request. What is still on its way to the device itself keeps the name of its thread, whose launch it
is performed for (R369). -/
def dropRequest (s : State) (a : Access) : State :=
  match a.serial with
  | none => s
  | some n =>
    let gone := s.fab.reqs.filter fun r => r.serial == n && onItsWay s n
    { s with fab := { s.fab with reqs := s.fab.reqs.filter (fun r => r.serial != n), ghosts := s.fab.ghosts ++ gone } }

end Sys2Proof.Machine
end

