-- ==== Sys2Proof/Machine/RunAhead.lean ====
section
/-! DEFINITION. Run-ahead (R235 to R253): levels, the issue of an access, early reads under watch, commit, rollback, deferred
traps, and the performing of the oldest access. -/

namespace Sys2Proof.Machine

/-! ## Escalation (R249) -/

/-- R249, on a conflict rollback that resumes at `a`. -/
def escRoll (t : Thread) (a : DWord) : Thread :=
  if t.spec.fix then t
  else
    let e := (escFind t a).getD ⟨a, t.spec.slvl.toNat, 0, 0⟩
    let n := e.rolls + 1
    if e.level = 0 && t.spec.t1.toNat ≤ n then { escPut t { e with level := 1, rolls := 0 } with nesc := satInc t.nesc }
    else if e.level = 1 && t.spec.t2.toNat ≤ n then { escPut t { e with level := 2, rolls := 0 } with nesc := satInc t.nesc }
    else escPut t { e with rolls := n }

/-! ## Commit (R236) -/

def Thread.openRegion (t : Thread) : Bool := t.accs.any fun a => a.spec

/-- Take the oldest access off the thread and release its counter. -/
def dropHead (s : State) : State :=
  match s.th.accs with
  | [] => s
  | a :: rest => modTh (dropRequest s a) fun t => dcDrop { t with accs := rest, gov := if rest.isEmpty then none else t.gov } a.dc

def modHead (s : State) (f : Access → Access) : State :=
  modTh s fun t => { t with accs := match t.accs with | [] => [] | a :: r => f a :: r }

/-- R205, R246: what stops a held write of the device's own memory as it becomes its thread's oldest access; it is not committed. -/
def commitFault (s : State) (a : Access) : Option Exc :=
  match a.kind, a.loc with
  | .load _ _ _, _ => none
  | .copy _, _ => none
  | _, none => none
  | _, some loc =>
    (match gate s s.th.place.die .wr loc a.ea a.kind.size with
     | .bad e => some e
     | _ => none)

/-- An early read of a word of another device. -/
def readAway (s : State) (a : Access) : Bool :=
  a.early.isSome && (match a.loc with
    | some (.peer d _ _) => !isSelf s d
    | _ => false)

/-- A load of a word of another device whose read is on its way: it took its place there before older accesses performed, so that it
commits as an early read (R236). -/
def awaitsRead (s : State) (a : Access) : Bool :=
  a.early.isNone && a.serial.isSome && (match a.loc, a.kind with
    | some (.peer d _ _), .load _ _ _ => !isSelf s d
    | _, _ => false)

/-- DEDUCED (log 66): a commit and a write to a word of another device are ordered at the word's home (R236, R401), so the release of
its watch asks the home for an answer, which comes after every notice that the home has sent before; the load is final with it. -/
def closeWatch (s : State) (a : Access) : State :=
  match a.loc, a.kind, a.serial with
  | some (.peer d o _), .load n _ _, none =>
    let x := sendRelease s a.seq d o n a.intent
    modHead x.1 fun b => { b with serial := some x.2 }
  | _, _, _ => s

/-- The oldest access commits when it is speculative, unless a notice or its fault stands against it. An early read of another
device's word waits for its home's answer. -/
def settleFrom : Nat → State → State
  | 0, s => s
  | n + 1, s =>
    match s.th.accs with
    | [] => s
    | a :: rest =>
      if !a.spec || s.th.notice || a.fault.isSome then s
      else if (commitFault s a).isSome then modHead s fun b => { b with fault := commitFault s a }
      else if awaitsRead s a then s
      else if readAway s a && !a.closed then closeWatch s a
      else
        let s1 := modTh s fun t =>
          let t1 := { escCommit t a.iaddr with accs := { a with spec := false } :: rest }
          if t1.openRegion then t1 else { t1 with ncmt := satInc t1.ncmt }
        let s2 := if a.closed then s1 else releaseWatch s1 a
        if a.early.isSome then settleFrom n (dropHead s2) else s2

def settle (s : State) : State := settleFrom (s.th.accs.length + 1) s

/-- The oldest access has performed (R71, R249). -/
def finishHead (s : State) : State :=
  match s.th.accs with
  | [] => s
  | a :: _ => settle (dropHead (if a.ran then s else modTh s fun t => escCommit t a.iaddr))

/-! ## Rollback (R245) and deferred traps (R246) -/

/-- Undo the counter steps of cancelled accesses and operations. -/
def undoSteps (t : Thread) (as : List Access) (os : List PendOp) : Thread :=
  os.foldl (fun t o => dcDrop t o.dc) (as.foldl (fun t a => dcDrop t a.dc) t)

/-- Cancel `as` and every later operation, and stand at the snapshot of the first of them. -/
def cancelFrom (s : State) (keep as : List Access) (a : Access) : State :=
  let s1 := as.foldl (fun s x => dropRequest (releaseWatch s x) x) s
  modTh s1 fun t =>
    let gone := t.ops.filter fun o => a.seq < o.seq
    undoSteps { t with
      ctx := a.snap, accs := keep, ops := t.ops.filter (fun o => !(decide (a.seq < o.seq))),
      notice := false, held := none, wpark := none, gov := if keep.isEmpty then none else t.gov } as gone

/-- R245: the region is cancelled and the thread stands at its checkpoint. -/
def rollback (s : State) (conflict : Bool) : State :=
  let keep := s.th.accs.takeWhile fun a => !a.spec
  let as := s.th.accs.dropWhile fun a => !a.spec
  match as with
  | [] => modTh s fun t => { t with notice := false }
  | a :: _ =>
    modTh (cancelFrom s keep as a) fun t =>
      let t1 := { t with rbk := satInc t.rbk }
      if conflict then escRoll t1 a.iaddr else t1

/-- R339: a timeout of a thread whose cluster is being saved is kept for the restore. -/
def timeoutHeld (s : State) (e : Exc) : Bool :=
  (match e with
   | .trap code _ _ => code == cRemoteTimeout
   | .kill _ => false)
  && (match findCluster s s.th.cid with
      | none => false
      | some k => k.status == .stopping)

/-- A piece of the fill of a `tret`. -/
def Access.ofTret (a : Access) : Bool :=
  match a.kind with
  | .load _ (.fill true) _ => true
  | _ => false

/-- R246: the oldest access's fault `e` is taken at its instruction, once every older operation is complete. -/
def takeFault (s : State) (e : Exc) : State :=
  match s.th.accs with
  | [] => s
  | a :: _ =>
    if s.th.ops.any fun o => decide (o.seq < a.seq) then modTh s fun t =>
      { t with accs := match t.accs with | [] => [] | x :: r => { x with fault := some e } :: r }
    else
      let s0 := cancelFrom s [] s.th.accs a
      let s1 := if s.th.openRegion then modTh s0 fun t => { t with rbk := satInc t.rbk } else s0
      if timeoutHeld s e then modTh s1 fun t => { t with pend := some e }
      else if a.ofTret then windowFault s1 e else takeExc s1 e

/-! ## Loads (R104, R106, R313) -/

/-- R313: the status word of a barrier from the word at +12, for target `t`. -/
def barStatusWord (w : Word) (t : BitVec 8) : Word :=
  let d : BitVec 8 := w.truncate 8 - t
  (w &&& 0x00FFFFFF) ||| (if d.toNat < 128 then 0x01000000 else 0)

/-- What a load writes to its registers. -/
def loadWrite (c : Ctx) (n : Nat) (ext : LoadExt) (ds : List Reg) (bs : List Byte) : Ctx :=
  let v := natOfBytes bs
  match ext with
  | .zext => c.setMany (ds.zip (if n ≤ 4 then [wOf v] else wordsOf (n / 4) bs))
  | .fill _ => c.setMany (ds.zip (wordsOf (n / 4) bs))
  | .sext => c.setMany (ds.zip [BitVec.ofInt 32 (sextN (8 * n) v)])
  | .barStatus t => c.setMany (ds.zip [barStatusWord (wOf v) t])

/-- Byte `i` of a range that a held store of the thread covers. -/
def storeByte (a : Access) (l : Loc) (i : Nat) : Option Byte :=
  match a.kind, a.loc with
  | .store bs, some k =>
    (match l.home, k.home with
     | .hbm p _, .hbm q _ => if q ≤ p + i then bs[p + i - q]? else none
     | .spad c x p, .spad d y q => if c == d && x == y && q ≤ p + i then bs[p + i - q]? else none
     | _, _ => none)
  | _, _ => none

/-- R240: the bytes of an early read, with the thread's own held stores over them. -/
def overlay (accs : List Access) (l : Loc) (bs : List Byte) : List Byte :=
  (List.range bs.length).zipWith (fun i b => accs.foldl (fun x a => (storeByte a l i).getD x) b) bs

/-- R161: where a location of the device's own index lies now: its page may have been mapped since its access issued. -/
def Loc.now (s : State) (l : Loc) : Loc :=
  match l with
  | .peer d o none => peerLoc s s.th d o
  | k => k

/-- A location of the device's own index that translates to nothing yet: it may turn out to be any global one. -/
def Loc.unplaced (s : State) (l : Loc) : Bool :=
  match l with
  | .peer d _ none => isSelf s d
  | _ => false

def Loc.isSpad : Loc → Bool
  | .spad _ _ _ => true
  | .hbm _ _ => false
  | .peer _ _ _ => false

/-- Two accesses of the focus thread may overlap. -/
def mayMeet (s : State) (k : Loc) (m : Nat) (l : Loc) (n : Nat) : Bool :=
  let a := k.now s
  let b := l.now s
  a.meets m b n || ((a.unplaced s || b.unplaced s) && !a.isSpad && !b.isSpad)

/-- R240: an own older operation whose effect on the range an early read could not know; a store through the peer window performs at
its target before its response has come. -/
def mustWait (s : State) (accs : List Access) (l : Loc) (n : Nat) : Bool :=
  accs.any fun a =>
    let meets := match a.loc with | none => false | some k => mayMeet s k a.kind.size l n
    match a.kind with
    | .load _ _ _ => false
    | .store _ => (l.isPeer || (match a.loc with | none => false | some k => k.isPeer)) && meets
    | .barExp _ => meets
    | .barArr _ => meets
    | .atom _ _ _ _ _ => meets
    | .red _ _ _ => meets
    | .tq _ _ _ => false
    | .mcst _ _ => true
    | .mcldRed _ _ _ _ _ => true
    | .copy _ => false

/-- Loads that hold a watch now, with their threads' cores. -/
def watching (s : State) : List (Nat × Access) :=
  (threads s).flatMap fun t => (t.accs.filter fun a => a.spec && (a.early.isSome || a.serial.isSome)).map fun a => (t.place.core, a)

/-- R241: a value joins a set of at most `cap`. -/
def roomFor (l : List Nat) (cap v : Nat) : Bool :=
  let d := l.foldl setAdd []
  d.contains v || decide (d.length < cap)

/-- Physical addresses watched from this device, and by peers. -/
def watchedPas (ws : List (Nat × Access)) : List Nat :=
  ws.filterMap fun w => match w.2.loc with
    | some (.hbm pa _) => some pa
    | _ => none

/-- R241: the directory of `pa`'s slice has room for its region. -/
def dirRoom (s : State) (pa : Nat) : Bool :=
  roomFor (((watchedPas (watching s) ++ (s.fab.rwatch.map fun (r : RWatch) => 128 * r.line)).filter fun p => sliceOf p == sliceOf pa).map (· / 512))
    16384 (pa / 512)

/-- R241, R242: the watch finds room in the core's table, and for a tag-0x00 word in its bay's filter and the directory. -/
def watchRoom (s : State) (loc : Loc) : Bool :=
  let ws := watching s
  let core := s.th.place.core
  decide ((ws.filter fun w => w.1 == core).length < Config.watchEntries)
    && (match loc with
        | .hbm pa _ =>
          roomFor ((watchedPas (ws.filter fun w => w.1 / 12 == core / 12)).map (· / 128)) 8192 (pa / 128) && dirRoom s pa
        | .spad _ _ _ => true
        | .peer _ _ _ => true)

/-- R235, R241: the bytes that a speculative load reads early, if it may. -/
def earlyRead (s : State) (lvl : Nat) (loc : Loc) (ea : DWord) (n : Nat) : Option (List Byte) :=
  match loc with
  | .peer _ _ _ => none
  | l =>
    if lvl < 2 && watchRoom s l && !mustWait s s.th.accs l n
        && gate s s.th.place.die .rd l ea n == .go then
      some (overlay s.th.accs l (readLoc s s.th.place.die (thGen s s.th) l n).2)
    else none

/-! ## The issue of an access -/

/-- An access of the focus thread as it stands at issue. -/
def newAcc (s : State) (kind : AccKind) (ea : DWord) (loc : Option Loc) (dc : Fin 7) (look hint : Nat) (spec : Bool) : Access :=
  { seq := s.th.seq, kind := kind, ea := ea, loc := loc, dc := dc, look := look, hint := hint, ran := spec, spec := spec,
    early := none, closed := false, intent := false, fault := none, snap := s.th.ctx, iaddr := s.th.ctx.pc, icount := s.th.ctx.icount,
    parked := false, held := false, serial := none, awaited := [], failed := none }

/-- The end of the issue of an access: it joins the thread's accesses, and its counter is stepped. -/
def pushAcc (s : State) (a : Access) (lvl : Nat) (gov : Option Nat) : Out :=
  .next (modTh (goOn (issued s) (instrLen s)) fun t =>
    dcStep { t with accs := t.accs ++ [a], seq := t.seq + 1, gov := gov,
                    spec := { t.spec with lvl := BitVec.ofNat 2 lvl } } a.dc)

/-- R242: the request of a peer access that can travel now, and its watch if it is speculative. -/
def sendPeer (s : State) (a : Access) (lvl : Nat) : State × Access :=
  match a.loc, a.kind.request with
  | some (.peer d o _), some r =>
    let a1 := { a with intent := lvl == 1 }
    let s1 := if a.ran then sendWatch s 0x06 d o a.kind.size a1.intent else s
    let x := sendRequest s1 a.seq d o r
    (x.1, { a1 with serial := some x.2 })
  | _, _ => (s, a)

/-- An access of `n` bytes at `ea` whose address checks answer `res` (R32, R105, R235 to R248). -/
def issueAt (s : State) (kind : AccKind) (n : Nat) (ea : DWord) (dc : Fin 7) (look hint : Nat) (res : Except Exc Loc) : Out :=
  let spec := !s.th.accs.isEmpty
  let lv := levelFor s.th s.th.ctx.pc
  if spec && lv.1 == 2 then .next s
  else
    match res with
    | .error e =>
      if spec then pushAcc s { newAcc s kind ea none dc look hint true with fault := some e } lv.1 lv.2 else raise s e
    | .ok loc =>
      let a := newAcc s kind ea (some loc) dc look hint spec
      match kind with
      | .load m ext ds =>
        (match gate s s.th.place.die .rd loc ea n with
         | .bad e => if spec then pushAcc s { a with fault := some e } lv.1 lv.2 else raise s e
         | .park => pushAcc s { a with parked := true } lv.1 lv.2
         | .wait => pushAcc s a lv.1 lv.2
         | .go =>
           if spec then
             match earlyRead s lv.1 loc ea n with
             | some bs =>
               pushAcc (modCtx (shareLoc (readLoc s (allocDie s.th.place.die hint loc) (thGen s s.th) loc n).1 s.th.place.die loc)
                   fun c => loadWrite c m ext ds bs)
                 { a with early := some bs, intent := lv.1 == 1 } lv.1 lv.2
             | none =>
               -- R240: it waits, unperformed, for an own older operation; R242: without room for its watch it issues as the oldest access
               if mustWait s s.th.accs loc n then pushAcc s a lv.1 lv.2
               else if !watchRoom s loc then .next s
               else
                 let p := sendPeer s a lv.1
                 pushAcc p.1 p.2 lv.1 lv.2
           else
             let p := sendPeer s a lv.1
             pushAcc p.1 p.2 lv.1 lv.2)
      | _ =>
        if spec then pushAcc s a lv.1 lv.2
        else
          match gate s s.th.place.die .wr loc ea n with
          | .bad e => raise s e
          | .park => pushAcc s { a with parked := true } lv.1 lv.2
          | .wait => pushAcc s a lv.1 lv.2
          | .go => pushAcc s a lv.1 lv.2

/-- R323: an access of `n` bytes at `ea`. -/
def issueAcc (s : State) (kind : AccKind) (t : AccT) (n : Nat) (ea : DWord) (dc : Fin 7) (look hint : Nat) : Out :=
  issueAt s kind n ea dc look hint (resolve s s.th t ea n)

/-- R336: the cluster of the focus thread has made an external effect. -/
def setExt (s : State) : State :=
  match findCluster s s.th.cid with
  | none => s
  | some k => setCluster s { k with ext := true }

/-- Tags 0xF0 and 0xF1 (R197). -/
def spadTag (ea : DWord) : Bool := ea.toNat / 2 ^ 56 == 0xF0 || ea.toNat / 2 ^ 56 == 0xF1

/-- Tags 0x00 and 0xF4: global memory and the fabric (R197). -/
def extTag (ea : DWord) : Bool := ea.toNat / 2 ^ 56 == 0 || ea.toNat / 2 ^ 56 == 0xF4

/-- R171: an irrevocable access issues only as the oldest; on global memory or the fabric it has an external effect (R336). -/
def issueIrrev (s : State) (kind : AccKind) (n : Nat) (ea : DWord) (f : FmtC) : Out :=
  oldest s fun s => issueAcc (if extTag ea then setExt s else s) kind .wr n ea f.dc f.look.val 0

/-! ## The performing of the oldest access (R166) -/

/-- The value of an older operation, written to the thread and to younger checkpoints. -/
def deliver (s : State) (seq : Nat) (f : Ctx → Ctx) : State :=
  modTh s fun t => patchSnaps { t with ctx := f t.ctx } seq f

/-- The value of a load reaches its registers; that of a fill reaches no checkpoint, which has the window before it (R18). -/
def giveLoad (s : State) (a : Access) (n : Nat) (ext : LoadExt) (ds : List Reg) (bs : List Byte) : State :=
  match ext with
  | .fill _ => modCtx s fun c => loadWrite c n ext ds bs
  | .zext => deliver s a.seq fun c => loadWrite c n ext ds bs
  | .sext => deliver s a.seq fun c => loadWrite c n ext ds bs
  | .barStatus _ => deliver s a.seq fun c => loadWrite c n ext ds bs

/-- A load that is its thread's oldest access: it reads and is final. -/
def performLoad (s : State) (a : Access) : State :=
  match a.kind, a.loc with
  | .load n ext ds, some loc =>
    (match loc with
     | .peer d o _ =>
       -- the response completes it; a load that has found no room before sends its request now
       if a.serial.isSome then s
       else
         match a.kind.request with
         | none => s
         | some r =>
           let x := sendRequest s a.seq d o r
           modHead x.1 fun b => { b with serial := some x.2, ran := a.ran }
     | _ =>
       match gate s s.th.place.die .rd loc a.ea n with
       | .bad e => takeFault s e
       | .park => modHead s fun b => { b with parked := true }
       | .wait => s
       | .go =>
         let r := readLoc s s.th.place.die (thGen s s.th) loc n
         finishHead (giveLoad { r.1 with mem := (readLoc s (allocDie s.th.place.die a.hint loc) (thGen s s.th) loc n).1.mem } a n ext ds r.2))
  | _, _ => s

/-- The die at whose slice the write of `a` takes place: a read-modify-write at its home, or at the sequencer of its mirror page. -/
def writeDie (s : State) (a : Access) (rmw : Bool) (loc : Loc) : Nat :=
  match rmw, loc with
  | true, .hbm pa mir => if mir then seqDie s pa else homeDie pa
  | _, _ => allocDie s.th.place.die a.hint loc

/-- R205, R248: may the write of the oldest access take place? Writes to one word that wait at their home perform in the order of
their arrival. A read-modify-write reads where it is made. -/
def writeGate (s : State) (a : Access) (loc : Loc) (rmw : Bool) : Gate :=
  let n := a.kind.size
  match gate s s.th.place.die .wr loc a.ea n with
  | .go =>
    let num := match a.held, a.awaited with
      | true, k :: _ => k
      | _, _ => s.fresh
    if intentHolds s (some s.th.id) loc n || queuedBefore s num loc n then .wait
    else if rmw then gate s (writeDie s a true loc) .rd loc a.ea n else .go
  | g => g

/-- A write that is its thread's oldest access (R216, R357: a read-modify-write takes place at the home die's slice): `f` gives the new bytes from the old ones, and what the registers receive. -/
def performWrite (s : State) (a : Access) (rmw : Bool) (f : List Byte → List Byte × (Ctx → Ctx)) : State :=
  match a.loc with
  | none => s
  | some (.peer d o _) =>
    if a.serial.isSome then s
    else
      match a.kind.request with
      | none => s
      | some r =>
        let x := sendRequest s a.seq d o r
        modHead x.1 fun b => { b with serial := some x.2 }
  | some loc =>
    match writeGate s a loc rmw with
    | .bad e => takeFault s e
    | .park => modHead s fun b => { b with parked := true }
    | .wait => if a.held then s else modHead { s with fresh := s.fresh + 1 } fun b => { b with held := true, awaited := [s.fresh] }
    | .go =>
      let die := writeDie s a rmw loc
      let r := f (peekLoc s (if rmw then die else s.th.place.die) (thGen s s.th) loc a.kind.size)
      let s1 := writeLoc s (some s.th.id) die (thGen s s.th) loc r.1
      finishHead (deliver s1 a.seq r.2)

/-- The oldest access of the focus thread, unless it is uncommitted or faulted. -/
def headAcc (s : State) : Option Access :=
  match s.th.accs with
  | [] => none
  | a :: _ => if a.spec || a.fault.isSome then none else some a

end Sys2Proof.Machine
end

