-- ==== Sys2Proof/Machine/LoadStore.lean ====
section
/-! DEFINITION. Loads and stores (R104 to R107), and the events of a thread's accesses (R166, R204, R205, R244 to R248). -/

namespace Sys2Proof.Machine

/-- A load into named registers. -/
def loadOp (s : State) (f : FmtC) (x : Option XM) (n : Nat) (ext : LoadExt) (ds : List Reg) : Out :=
  guarded s f.p fun s =>
    issueAcc s (.load n ext ds) .rd n (eaXM s.th.ctx f.a x) f.dc f.look.val (hintOf x)

/-- R104. -/
def execLdN8 (f : FmtC) (x : Option XM) (s : State) : Out := loadOp s f x 1 .zext [f.d]
/-- R104. -/
def execLdS8 (f : FmtC) (x : Option XM) (s : State) : Out := loadOp s f x 1 .sext [f.d]
/-- R104. -/
def execLdN16 (f : FmtC) (x : Option XM) (s : State) : Out := loadOp s f x 2 .zext [f.d]
/-- R104. -/
def execLdS16 (f : FmtC) (x : Option XM) (s : State) : Out := loadOp s f x 2 .sext [f.d]
/-- R104. -/
def execLdB32 (f : FmtC) (x : Option XM) (s : State) : Out := loadOp s f x 4 .zext [f.d]
/-- R104: the pair g0d is discarded in full (R10). -/
def execLdB64 (f : FmtC) (x : Option XM) (s : State) : Out :=
  loadOp s f x 8 .zext (if f.d.val = 0 then [] else regRun f.d 2)
/-- R33, R104, R106: four single registers. -/
def execLdB128 (f : FmtC) (x : Option XM) (s : State) : Out := loadOp s f x 16 .zext (regRun f.d 4)

/-- A store of the bytes that the sources hold at issue (R106). -/
def storeOp (s : State) (f : FmtC) (x : Option XM) (bs : Ctx → List Byte) : Out :=
  guarded s f.p fun s =>
    let b := bs s.th.ctx
    issueAcc s (.store b) .wr b.length (eaXM s.th.ctx f.a x) f.dc f.look.val (hintOf x)

/-- R104. -/
def execStB8 (f : FmtC) (x : Option XM) (s : State) : Out := storeOp s f x fun c => bytesOfNat 1 (c.reg f.d).toNat
/-- R104. -/
def execStB16 (f : FmtC) (x : Option XM) (s : State) : Out := storeOp s f x fun c => bytesOfNat 2 (c.reg f.d).toNat
/-- R104. -/
def execStB32 (f : FmtC) (x : Option XM) (s : State) : Out := storeOp s f x fun c => bytesOfNat 4 (c.reg f.d).toNat
/-- R104. -/
def execStB64 (f : FmtC) (x : Option XM) (s : State) : Out := storeOp s f x fun c => bytesOfNat 8 (c.pair f.d).toNat
/-- R33, R104. -/
def execStB128 (f : FmtC) (x : Option XM) (s : State) : Out := storeOp s f x fun c => bytesOf (c.regs f.d 4)

/-! ## Events -/

def isMirror (l : Option Loc) : Bool :=
  match l with
  | some (.hbm _ m) => m
  | some (.spad _ _ _) => false
  | some (.peer _ _ _) => false
  | none => false

/-- The oldest access, if it is a load, takes place. -/
def loadHead (s : State) : State :=
  match headAcc s with
  | none => s
  | some a => performLoad s a

/-- R166. -/
def execLoadComplete (t : Tid) (s : State) : Out := .next (onThread s t loadHead)

/-- The write of a store-like access. -/
def storeBytes (s : State) (a : Access) : State :=
  match a.kind with
  | .store bs => performWrite s a false fun _ => (bs, id)
  | .barExp v => performWrite s a true fun old => ((BarObj.expect (barOf old) v s.th.place.slot).bytes, id)
  | .barArr n => performWrite s a true fun old => ((BarObj.arrive (barOf old) n s.th.place.slot).bytes, id)
  | .load _ _ _ => s
  | .atom _ _ _ _ _ => s
  | .red _ _ _ => s
  | .tq _ _ _ => s
  | .mcst _ _ => s
  | .mcldRed _ _ _ _ _ => s
  | .copy _ => s

/-- The oldest access, if it is a store to no mirror page, takes place. -/
def storeHead (s : State) : State :=
  match headAcc s with
  | none => s
  | some a => if isMirror a.loc then s else storeBytes s a

/-- R166, R205, R243. -/
def execStorePerform (t : Tid) (s : State) : Out := .next (onThread s t storeHead)

/-- R204, R208: a parked spill or fill goes on once its sectors are present and its page is pinned. -/
def resumeWindow (s : State) (w : Bool × Loc × DWord) : State :=
  match gate s s.th.place.die (if w.1 then .wr else .rd) w.2.1 w.2.2 16 with
  | .park => s
  | _ => modTh s fun t => { t with wpark := none }

/-- R204, R208: a parked access whose sectors are now present. A speculative load reads early; the oldest one performs. -/
def resumeAccess (s : State) : State :=
  match s.th.accs.find? fun a => a.parked with
  | none => s
  | some a =>
    match a.loc with
    | none => s
    | some loc =>
      let clear (b : Access) : Access := if b.seq = a.seq then { b with parked := false } else b
      match a.kind with
      | .load n ext ds =>
        (match gate s s.th.place.die .rd loc a.ea n with
         | .park => s
         | _ =>
           let s1 := modTh s fun t => { t with accs := t.accs.map clear }
           if a.spec then
             let older := s.th.accs.takeWhile fun b => b.seq != a.seq
             let lvl := (levelFor s.th a.iaddr).1
             if mustWait s older loc n || !watchRoom s loc || lvl == 2 then s1
             else
               match gate s s.th.place.die .rd loc a.ea n with
               | .bad e => modTh s1 fun t => { t with accs := t.accs.map fun b =>
                   if b.seq = a.seq then { b with fault := some e } else b }
               | .go =>
                 let r0 := readLoc s1 s.th.place.die (thGen s s.th) loc n
                 let r := (shareLoc r0.1 s.th.place.die loc, r0.2)
                 let bs := overlay older loc r.2
                 let s2 := deliver r.1 a.seq fun c => loadWrite c n ext ds bs
                 modTh s2 fun t => { t with accs := t.accs.map fun b =>
                   if b.seq = a.seq then { b with early := some bs, intent := lvl == 1 } else b }
               | _ => s1
           else loadHead s1)
      | _ =>
        match gate s s.th.place.die .wr loc a.ea a.kind.size with
        | .park => s
        | _ => modTh s fun t => { t with accs := t.accs.map clear }

def resumeParked (s : State) : State :=
  match s.th.wpark with
  | some w => resumeWindow s w
  | none => resumeAccess s

/-- R204, R208. -/
def execParkedLoadResume (t : Tid) (s : State) : Out := .next (onThread s t resumeParked)

/-- R244. -/
def execConflictNotice (t : Tid) (s : State) : Out :=
  .next (onThread s t fun s => if s.th.notice then rollback s true else s)

/-- R246: the oldest access's held fault is taken. -/
def trapHead (s : State) : State :=
  match s.th.accs with
  | [] => s
  | a :: _ =>
    match a.fault with
    | none => s
    | some e => takeFault s e

/-- R246. -/
def execDeferredTrapTaken (t : Tid) (s : State) : Out := .next (onThread s t trapHead)

end Sys2Proof.Machine
end

