-- ==== Sys2Proof/Machine/Atomic.lean ====
section
/-! DEFINITION. Atomics, reduce-stores and task queues (R156 to R160, R186 to R191), and mirror writes (R361). -/

namespace Sys2Proof.Machine

/-! ## Values (R186, R187, R189) -/

/-- R187: one .f32 or two .bf16 added by RNE. -/
def faddWord (bf : Bool) (r c : Nat) : Nat :=
  let h (i : Nat) : Nat := (faddBits .bf16 .rne (r / 2 ^ (16 * i) % 0x10000) (c / 2 ^ (16 * i) % 0x10000)).1
  if bf then h 0 + 0x10000 * h 1 else (faddBits .f32 .rne r c).1

/-- The new value of a location of `8 × size` bits. -/
def atomNew (op : AtomOp) (size r c e : Nat) : Nat :=
  let m := 2 ^ (8 * size)
  let sx (v : Nat) : Int := sextN (8 * size) v
  match op with
  | .addS => (r + c) % m
  | .addN => (r + c) % m
  | .minS => if sx c < sx r then c else r
  | .minN => if c < r then c else r
  | .maxS => if sx r < sx c then c else r
  | .maxN => if r < c then c else r
  | .and => r &&& c
  | .or => r ||| c
  | .xor => r ^^^ c
  | .exch => c
  | .cas => if r = c then e else r
  | .fadd32 => faddWord false r c
  | .faddBf => faddWord true r c

/-- R182, R189: one element combined. -/
def redElem (op : RedOp) (f : NumFmt) (r c : Nat) : Nat :=
  match op with
  | .add => (faddBits f .rne r c).1
  | .min => (fminmax f false r c).1
  | .max => (fminmax f true r c).1

def redWord (op : RedOp) (bf : Bool) (r c : Word) : Word :=
  if bf then
    wOf (redElem op .bf16 (r.toNat % 0x10000) (c.toNat % 0x10000)
      + 0x10000 * redElem op .bf16 (r.toNat / 0x10000) (c.toNat / 0x10000))
  else wOf (redElem op .f32 r.toNat c.toNat)

def redBytes (op : RedOp) (bf : Bool) (v : List Word) (old : List Byte) : List Byte :=
  bytesOf ((wordsOf v.length old).zipWith (redWord op bf) v)

/-! ## Issue -/

/-- Operand of an atomic: a word or a pair. -/
def atomArg (c : Ctx) (wide : Bool) (r : Reg) : DWord := if wide then c.pair r else (c.reg r).zeroExtend 64

/-- R186, R188. -/
def atomOp (s : State) (f : AtomF) (op : AtomOp) (wide : Bool) (e : Reg) : Out :=
  guarded s f.f.p fun s =>
    let c := s.th.ctx
    let n := if wide then 8 else 4
    issueIrrev s (.atom op n (atomArg c wide f.c) (atomArg c wide e) f.f.d) n (eaOff c f.f.a f.off) f.f

def intSigned (t : IntTy) : Bool :=
  match t with
  | .s32 => true
  | .s64 => true
  | .n32 => false
  | .n64 => false

/-- R186. -/
def execAtomAdd (f : AtomF) (t : IntTy) (s : State) : Out := atomOp s f (if intSigned t then .addS else .addN) t.wide 0
/-- R186. -/
def execAtomMin (f : AtomF) (t : IntTy) (s : State) : Out := atomOp s f (if intSigned t then .minS else .minN) t.wide 0
/-- R186. -/
def execAtomMax (f : AtomF) (t : IntTy) (s : State) : Out := atomOp s f (if intSigned t then .maxS else .maxN) t.wide 0
/-- R186. -/
def execAtomAnd (f : AtomF) (t : RawTy) (s : State) : Out := atomOp s f .and t.wide 0
/-- R186. -/
def execAtomOr (f : AtomF) (t : RawTy) (s : State) : Out := atomOp s f .or t.wide 0
/-- R186. -/
def execAtomXor (f : AtomF) (t : RawTy) (s : State) : Out := atomOp s f .xor t.wide 0
/-- R186. -/
def execAtomExch (f : AtomF) (t : RawTy) (s : State) : Out := atomOp s f .exch t.wide 0
/-- R186. -/
def execAtomCas (f : AtomF) (e : Reg) (t : RawTy) (s : State) : Out := atomOp s f .cas t.wide e
/-- R187. -/
def execAtomFadd (f : AtomF) (t : FloatTy) (s : State) : Out :=
  atomOp s f (match t with | .f32 => .fadd32 | .bf16x2 => .faddBf) false 0

/-- R189. -/
def execRed (p : Pred) (op : RedOp) (len : Fin 3) (a : Reg) (look : Fin 16) (dc : Fin 7) (c : Reg) (t : FloatTy)
    (off : BitVec 16) (s : State) : Out :=
  guarded s p fun s =>
    let n := redWords len
    issueIrrev s (.red op (match t with | .f32 => false | .bf16x2 => true) (s.th.ctx.regs c n)) (4 * n)
      (eaOff s.th.ctx a off) ⟨p, 0, a, look, dc⟩

/-- A word of a slot register: field 0 names none. -/
def slotArg (c : Ctx) (r : Reg) : Option Nat := if r.val = 0 then none else some (c.reg r).toNat

/-- The core of slot `n` of the focus thread's cluster. -/
def slotCore (s : State) (n : Nat) : Option Nat := (findSlot s s.th.cid n).map (·.core)

/-- The core whose deque an operation names; none where it names no slot of the cluster. -/
def tqCore (s : State) (slot : Option Nat) : Option Nat :=
  match slot with
  | none => some s.th.place.core
  | some n => if n < s.th.place.nslot then slotCore s n else none

/-- R158: the deques of an automatic steal, in order. -/
def stealOrder (core : Nat) : List Nat :=
  let die := core / 336
  let bay := core % 336 / 12
  let own := core % 12
  let at' (b k : Nat) : Nat := 336 * die + 12 * b + k
  ((List.range 11).map fun i => at' bay ((own + 1 + i) % 12))
    ++ ((List.range 27).map fun j => (List.range 12).map fun k => at' ((bay + 1 + j) % 28) k).flatten

def ownedBy (s : State) (core lid : Nat) : Bool := (getCore s core).owner == some lid

/-- R158: the deque of an automatic steal: the first of its launch's that holds an entry. -/
def stealFrom (s : State) : Option Nat :=
  (stealOrder s.th.place.core).find? fun k => ownedBy s k s.th.id.lid && !(getCore s k).deque.isEmpty

/-- R191, R344: would the operation take an entry that is uncorrectable? A push replaces the entry that it writes, and with task queues
disabled, or at a deque of another launch, none is read. -/
def tqFails (s : State) (op : TqOp) : Bool :=
  s.th.place.tq && (match op with
    | .push _ _ => false
    | .pop => bad (some s.th.place.core) fun c => c.deque.length - 1
    | .steal (some n) => bad (tqCore s (some n)) fun _ => 0
    | .steal none => bad (stealFrom s) fun _ => 0)
where
  bad (k : Option Nat) (place : Core → Nat) : Bool := match k with
    | none => false
    | some k => ownedBy s k s.th.id.lid && !(getCore s k).deque.isEmpty && (getCore s k).dqBad.contains (place (getCore s k))

/-- The trap of an uncorrectable entry. DESIGN CHOICE (log 61): c.taddr is 0; R322 names an address, or 0 for a register or a
tile, and no value for a deque. -/
def tqExc : Exc := excOf cEccFatal 0

/-- R190, R191: the operation joins the thread's accesses; an uncorrectable entry raises ECC_FATAL. -/
def tqIssue (s : State) (op : TqOp) (st d : Reg) (look : Fin 16) (dc : Fin 7) : Out :=
  oldest s fun s =>
    if tqFails s op then raise s tqExc
    else
      let lv := levelFor s.th s.th.ctx.pc
      pushAcc s (newAcc s (.tq op st d) 0 none dc look.val 0 false) lv.1 lv.2

/-- R190: the entry in four registers. -/
def entryOf (c : Ctx) (r : Reg) : Vector Word 4 :=
  Vector.ofFn fun i => c.reg (plusReg r i.val)

/-- R191. -/
def execTqPush (f : FmtC) (c : Reg) (s : State) : Out :=
  guarded s f.p fun s =>
    let sl := slotArg s.th.ctx c
    -- R336: a push that names another slot
    let far := match sl with | none => false | some n => n != s.th.place.slot
    tqIssue (if far && s.th.accs.isEmpty then setExt s else s) (.push sl (entryOf s.th.ctx f.a)) f.d 0 f.look f.dc

/-- R191. -/
def execTqPop (p : Pred) (d : Reg) (look : Fin 16) (dc : Fin 7) (c : Reg) (s : State) : Out :=
  guarded s p fun s => tqIssue s .pop c d look dc

/-- R191. -/
def execTqSteal (f : FmtC) (c : Reg) (s : State) : Out :=
  guarded s f.p fun s =>
    let sl := slotArg s.th.ctx f.a
    tqIssue s (.steal sl) c f.d f.look f.dc

/-! ## Deques (R157 to R159) -/

/-- The result of a task-queue operation: the state, the status and the entry taken. -/
def tqApply (s : State) (op : TqOp) : State × Word × Option (Vector Word 4) :=
  let lid := s.th.id.lid
  if !s.th.place.tq then
    -- R157: with task queues disabled nothing else is judged
    (s, 2, none)
  else
    match op with
    | .push sl e =>
      (match tqCore s sl with
       | none => (s, 4, none)
       | some k =>
         if !ownedBy s k lid then (s, 2, none)
         else
           let c := getCore s k
           if Config.dequeEntries ≤ c.deque.length then (s, 0, none)
           else (setCore s k (c.pushTask e), 1, none))
    | .pop =>
      let k := s.th.place.core
      if !ownedBy s k lid then (s, 2, none)
      else
        let c := getCore s k
        (match c.deque.getLast? with
         | none => (s, 0, none)
         | some e => (setCore s k c.popTask, 1, some e))
    | .steal (some n) =>
      (match tqCore s (some n) with
       | none => (s, 4, none)
       | some k =>
         if !ownedBy s k lid then (s, 2, none)
         else
           let c := getCore s k
           match c.deque with
           | [] => (s, 0, none)
           | e :: _ => (setCore s k c.stealTask, 1, some e))
    | .steal none =>
      match stealFrom s with
      | none => (s, 0, none)
      | some k =>
        let c := getCore s k
        match c.deque with
        | [] => (s, 0, none)
        | e :: _ => (setCore s k c.stealTask, 1, some e)

/-- The read-modify-write of the oldest access. -/
def atomBytes (s : State) (a : Access) : State :=
  match a.kind with
  | .atom op n c e d =>
    performWrite s a true fun old =>
      let r := natOfBytes old
      (bytesOfNat n (atomNew op n r c.toNat e.toNat),
       fun x => if n = 8 then x.setPair d (dwOf r) else x.setReg d (wOf r))
  | .red op bf v => performWrite s a true fun old => (redBytes op bf v old, id)
  | .tq op st d =>
    if tqFails s op then takeFault s tqExc
    else
    let r := tqApply s op
    let r := (r.1.cores.foldl (fun s k => settleDeque s k.1) r.1, r.2)
    finishHead (deliver r.1 a.seq fun x =>
      match r.2.2 with
      | none => x.setReg st r.2.1
      | some e => (x.setRegs d e.toList).setReg st r.2.1)
  | .load _ _ _ => s
  | .store _ => s
  | .barExp _ => s
  | .barArr _ => s
  | .mcst _ _ => s
  | .mcldRed _ _ _ _ _ => s
  | .copy _ => s

/-- The oldest access, if it is an atomic, a reduce-store or a task-queue operation off mirror pages. -/
def atomHead (s : State) : State :=
  match headAcc s with
  | none => s
  | some a => if isMirror a.loc then s else atomBytes s a

/-- R188. -/
def execAtomicPerform (t : Tid) (s : State) : Out := .next (onThread s t atomHead)

/-- R361: the sequencer applies the oldest access's write to both replicas. -/
def mirrorHead (s : State) : State :=
  match headAcc s with
  | none => s
  | some a => if isMirror a.loc then atomBytes (storeBytesOr s a) a else s
where
  /-- A plain store, else nothing. -/
  storeBytesOr (s : State) (a : Access) : State :=
    match a.kind with
    | .store _ => storeBytes s a
    | _ => s

/-- R361. -/
def execMirrorWriteApply (t : Tid) (s : State) : Out := .next (onThread s t mirrorHead)

end Sys2Proof.Machine
end

