-- ==== Sys2Proof/Machine/Engine.lean ====
section
/-! DEFINITION. Engine instructions: barrier objects, `rlq`, and the hand-over of copy requests (R304 to R316). -/

namespace Sys2Proof.Machine

/-- R305: alignment, tag and allocation of `n` bytes at `ea` for an engine instruction. -/
def resolveSpad (s : State) (ea : DWord) (align n : Nat) : Except Exc Loc :=
  if ea.toNat % align != 0 then .error (excOf cMisaligned ea)
  else if !spadTag ea then .error (excOf cProt ea)
  else if !spadOk s s.th.cid s.th.place.slot ea.toNat n then .error (.kill ea)
  else .ok (.spad s.th.cid (spadSlot s.th.place.slot ea.toNat) (spadOff ea.toNat))

/-! ## Barrier objects (R311 to R313) -/

def barAccess (s : State) (f : FmtC) (off : Option (BitVec 16)) (k : Ctx → AccKind) : Out :=
  guarded s f.p fun s =>
    let ea := eaXO s.th.ctx f.a off
    issueAt s (k s.th.ctx) 16 ea f.dc f.look.val 0 (resolveSpad s ea 16 16)

/-- R311. -/
def execBarInit (f : FmtC) (off : Option (BitVec 16)) (s : State) : Out :=
  barAccess s f off fun c => .store (BarObj.init (c.reg f.d).toNat).bytes

/-- R312. -/
def execBarExp (f : FmtC) (off : Option (BitVec 16)) (s : State) : Out :=
  barAccess s f off fun c => .barExp (c.reg f.d).toNat

/-- R312. -/
def execBarArr (f : FmtC) (off : Option (BitVec 16)) (s : State) : Out :=
  barAccess s f off fun c => .barArr (if f.d.val = 0 then 1 else (c.reg f.d).toNat)

/-- R313: the target phase count. -/
def barTarget (c : Ctx) (x : Option BarXO) : BitVec 8 :=
  match x with
  | none => 1
  | some b => (c.reg b.c).truncate 8

def barEa (c : Ctx) (a : Reg) (x : Option BarXO) : DWord := eaXO c a (x.map (·.off))

/-- The word at +12 of the object. -/
def barWord (r : Except Exc Loc) : Except Exc Loc :=
  match r with
  | .ok (.spad c i off) => .ok (.spad c i (off + 12))
  | x => x

/-- R313: `bar.test` performs at its read; it may read early. -/
def execBarTest (f : FmtC) (x : Option BarXO) (s : State) : Out :=
  guarded s f.p fun s =>
    let ea := barEa s.th.ctx f.a x
    let res := barWord (resolveSpad s ea 16 16)
    let t := barTarget s.th.ctx x
    let late := issueAt s (.load 4 (.barStatus t) [f.d]) 4 (ea + 12) f.dc f.look.val 0 res
    match res with
    | .error _ => late
    | .ok loc =>
      if s.th.accs.isEmpty && gate s s.th.place.die .rd loc (ea + 12) 4 == .go then
        let w := wOf (natOfBytes (peekLoc s s.th.place.die 0 loc 4))
        issueOp (madeWhole s 1) f [(f.d, barStatusWord w t)] 0
      else late

/-- Does a status word say DONE? -/
def barDone (w : Word) : Bool := w.getLsbD 24

/-- R313: `bar.wait` waits, parked, until the phase count has reached its target. -/
def execBarWait (f : FmtC) (x : Option BarXO) (s : State) : Out :=
  guarded s f.p fun s =>
    let ea := barEa s.th.ctx f.a x
    let t := barTarget s.th.ctx x
    let lv := levelFor s.th s.th.ctx.pc
    match barWord (resolveSpad s ea 16 16) with
    | .error e =>
      if s.th.accs.isEmpty then raise s e
      else if lv.1 = 2 then .next s
      else pushAcc s { newAcc s (.load 4 (.barStatus t) [f.d]) ea none f.dc f.look.val 0 true with fault := some e } lv.1 lv.2
    | .ok loc =>
      if s.th.accs.isEmpty then
        match gate s s.th.place.die .rd loc (ea + 12) 4 with
        | .bad e => raise s e
        | .park => .next s
        | .wait => .next s
        | .go =>
          let w := barStatusWord (wOf (natOfBytes (peekLoc s s.th.place.die 0 loc 4))) t
          if barDone w then retire (modCtx (madeWhole s 1) fun c => c.setReg f.d w) else .next s
      else
        match earlyRead s lv.1 loc (ea + 12) 4 with
        | none => .next s
        | some bs =>
          let w := barStatusWord (wOf (natOfBytes bs)) t
          if barDone w then
            pushAcc (modCtx (shareLoc s s.th.place.die loc) fun c => c.setReg f.d w)
              { newAcc s (.load 4 (.barStatus t) [f.d]) (ea + 12) (some loc) f.dc f.look.val 0 true with
                early := some bs, intent := lv.1 == 1 } lv.1 lv.2
          else .next s

/-! ## rlq (R316) -/

def bitIf (b : Bool) (n : Nat) : Nat := if b then n else 0

/-- R316: the state that applies to `ea`. -/
def rlqWord (s : State) (ea : DWord) : Nat :=
  let a := ea.toNat
  if spadTag ea then
    if !spadOk s s.th.cid s.th.place.slot a 1 then 0x20
    else
      let i := spadSlot s.th.place.slot a
      let o := spadOff a / 32 * 32
      bitIf (spadHeld s s.th.cid i o 32) 1
        + bitIf (match findSlot s s.th.cid i with
            | none => false
            | some v => v.isAbsent o 32 || v.isUnpinned o 32) 8
  else
    match xlate s s.th.place.core s.th.place.xctx a .rd with
    | .error _ => 0x10
    | .ok (pa, mir) =>
      let p := sectorOf (replica pa mir s.th.place.die)
      let cov (d : Bool) : Bool := s.mem.locks.any fun l => l.dest == d && decide (l.lo < p + 64) && decide (p < l.hi)
      bitIf (cov false) 1 + bitIf (cov true) 2 + bitIf (migHit s.mem pa 1).isSome 4

/-- R316. -/
def execRlq (f : FmtC) (off : Option (BitVec 16)) (s : State) : Out :=
  guarded s f.p fun s =>
    let ea := eaXO s.th.ctx f.a off
    if !spadTag ea && ea.toNat / 2 ^ 56 != 0 then raiseCode s cProt ea
    else issueOp s f [(f.d, wOf (rlqWord s ea))] 0

/-! ## xcp and xcpq (R306, R307, R309) -/

/-- The requests enter the pending-launch queue; the counter is stepped once. -/
def pushCopies (s : State) (ea : DWord) (n : Nat) (ph : BitVec 6) (dth : Bool) (dc : Fin 7) : Out :=
  let spec := !s.th.accs.isEmpty
  let lv := levelFor s.th s.th.ctx.pc
  if spec && lv.1 == 2 then .next s
  else
    let mk (i : Nat) : Access :=
      { newAcc s (.copy ⟨ea + dwOf (64 * i), ph, dth, dc, s.th.seq, n⟩) (ea + dwOf (64 * i)) none (if i = 0 then dc else 6) 0 0 spec
        with seq := s.th.seq + i }
    let s1 := goOn (issued s) (instrLen s)
    .next (modTh s1 fun t =>
      dcStep { t with accs := t.accs ++ (List.range n).map mk, seq := t.seq + n, gov := lv.2,
                      ctx := if dth then { t.ctx with dphase := ph + 1 } else t.ctx,
                      spec := { t.spec with lvl := BitVec.ofNat 2 lv.1 } } dc)

def copyOp (s : State) (p : Pred) (dth : Bool) (n : Nat) (a : Reg) (look : Fin 16) (dc : Fin 7) (off : Option (BitVec 16)) : Out :=
  guarded s p fun s =>
    let ea := eaXO s.th.ctx a off
    match resolveSpad s ea 64 (64 * n) with
    | .error e =>
      let lv := levelFor s.th s.th.ctx.pc
      if s.th.accs.isEmpty then raise s e
      else if lv.1 = 2 then .next s
      else
        pushAcc s { newAcc s (.copy ⟨ea, 0, dth, dc, s.th.seq, n⟩) ea none dc look.val 0 true with fault := some e } lv.1 lv.2
    | .ok _ => pushCopies s ea n s.th.ctx.dphase dth dc

/-- R306. -/
def execXcp (p : Pred) (dth : Bool) (a : Reg) (look : Fin 16) (dc : Fin 7) (off : Option (BitVec 16)) (s : State) : Out :=
  copyOp s p dth 1 a look dc off

/-- R307. -/
def execXcpq (p : Pred) (dth : Bool) (n : Fin 32) (a : Reg) (look : Fin 16) (dc : Fin 7) (off : Option (BitVec 16))
    (s : State) : Out :=
  copyOp s p dth (n.val + 1) a look dc off

/-! ## Bytes of an operation that fails -/

/-- R170: each byte is the new one, or the old one where the free choice keeps it. -/
def mixBytes (n : Nat) : List Byte → List Byte → List Byte
  | o :: os, b :: bs => (if Config.keepsOld n then o else b) :: mixBytes (n + 1) os bs
  | _, _ => []

end Sys2Proof.Machine
end

