-- ==== Sys2Proof/Machine/Group.lean ====
section
/-! DEFINITION. The group-collective rendezvous (R151 to R153), shuffles, votes, reductions and scans (R177 to R183), block
quantisation across a group (R125 to R127), and team and cluster barriers (R184, R185). -/

namespace Sys2Proof.Machine

/-! ## The rendezvous (R151) -/

/-- The member set of a waiting lane. -/
def rvMask (t : Thread) : Option (BitVec 64) :=
  match t.status with
  | .rv m _ _ => some m
  | _ => none

def rvCount (t : Thread) : Nat :=
  match t.status with
  | .rv _ n _ => n
  | _ => 0

/-- Two lanes wait at one issue of one instruction. -/
def sameRv (a b : Thread) : Bool := (rvMask a).isSome && (rvMask b).isSome && a.ctx.pc == b.ctx.pc && a.ctx.ri == b.ctx.ri

def groupOf (s : State) (t : Thread) : List Thread := (threads s).filter fun x => sameGroup x t

/-- What R151 decides of one waiting lane. -/
inductive Verdict | disagree | elsewhere | complete | limit | wait
  deriving DecidableEq, Repr

def verdict (g : List Thread) (l : Thread) : Verdict :=
  match rvMask l with
  | none => .wait
  | some m =>
    let mem := g.filter fun k => m.getLsbD k.place.lane
    if mem.any fun k => sameRv k l && rvMask k != some m then .disagree
    else if mem.any fun k => (rvMask k).isSome && !sameRv k l then .elsewhere
    else if mem.all fun k => !k.live || sameRv k l then .complete
    else if 2 ^ l.place.dlimLog ≤ rvCount l then .limit
    else .wait

/-- Lanes of the group that CONV_DEADLOCK traps when lane `t` has arrived (R151, R153): at each address every lane waiting there where
masks disagree, else those that name a lane waiting elsewhere. DEDUCED (log 25): all of them are judged as the group stands. -/
def deadlocked (g : List Thread) (t : Thread) : List Thread :=
  g.filter fun l => sameGroup l t && (rvMask l).isSome &&
    ((g.any fun k => sameRv k l && verdict g k == .disagree) || verdict g l == .elsewhere)

/-- A waiting lane traps, or is killed, at its instruction. -/
def trapLane (s : State) (t : Tid) (e : Exc) : State :=
  onThread s t fun s => takeExc (modTh s fun t => { t with status := .run }) e

/-- R151, applied to every lane of the group that waits. -/
def judgeGroup (s : State) (t : Thread) : State :=
  (deadlocked (groupOf s t) t).foldl (fun s l => trapLane s l.id (excOf cConvDeadlock 0)) s

/-- Another lane of the group is still to arrive in the same bundle; the lanes of a bundle have one instruction. -/
def moreArrive (s : State) : Bool :=
  s.bundle.any fun t => (threads s).any fun x => x.id == t && sameGroup x s.th && x.status == .run

/-- The arrival of the focus lane, held until its region has committed (R151, R178). The lanes of one bundle arrive at one moment:
the last of them has the arrival judged. -/
def arriveGroup (s : State) (p : Pred) (mask : Reg) (i : Instr) : Out :=
  guarded s p fun s =>
    if s.th.accs.isEmpty && s.th.ops.isEmpty then
      let m := memberSet s.th.ctx s.th.place.width s.th.place.lane mask
      let s1 := modTh s fun t => { t with status := .rv m 0 i }
      .next (if moreArrive s1 then s1 else judgeGroup s1 s1.th)
    else .next s

/-- R177, R179. -/
def execShfl (f : FmtA) (m : ShflMode) (t : RawTy) (mask : Reg) (s : State) : Out := arriveGroup s f.p mask (.shfl f m t mask)
/-- R180. -/
def execVote (f : FmtU) (m : VoteMode) (mask : Reg) (s : State) : Out := arriveGroup s f.p mask (.vote f m mask)
/-- R181. -/
def execGred (f : FmtU) (op : GOp) (mask : Reg) (s : State) : Out := arriveGroup s f.p mask (.gred f op mask)
/-- R181. -/
def execGscan (f : FmtU) (op : GOp) (excl : Bool) (mask : Reg) (s : State) : Out :=
  arriveGroup s f.p mask (.gscan f op excl mask)
/-- R183. -/
def execGsync (p : Pred) (mask : Reg) (s : State) : Out := arriveGroup s p mask (.gsync p mask)

/-- R126: an odd pair at W = 16, judged before the guard. -/
def oddAt16 (s : State) (r : Reg) : Bool := s.th.place.width == 16 && r.val % 2 == 1

/-- R126. -/
def execQblk (f : FmtU) (fmt : MxFmt) (bsel : Fin 4) (dth : Bool) (e mask : Reg) (s : State) : Out :=
  if oddAt16 s f.a then illegal s else arriveGroup s f.p mask (.qblk f fmt bsel dth e mask)
/-- R127. -/
def execDqblk (f : FmtU) (fmt : MxFmt) (bsel : Fin 4) (e mask : Reg) (s : State) : Out :=
  if oddAt16 s f.d then illegal s else arriveGroup s f.p mask (.dqblk f fmt bsel e mask)

/-! ## What a complete rendezvous writes (R152) -/

/-- The arrived member in a lane. -/
def atLane (mem : List Thread) (k : Nat) : Option Thread := mem.find? fun t => t.place.lane == k

/-- R179: the lane that a lane reads. -/
def shflLane (m : ShflMode) (w lane : Nat) (b : Word) : Nat :=
  let k := Nat.min (b.toNat % 8) (Nat.log2 w)
  match m with
  | .sel => b.toNat
  | .rot => (lane + b.toNat % 64) % w
  | .rev => lane ^^^ (2 ^ k - 1)
  | .seg => lane - lane % 2 ^ k + b.toNat / 256 % 64 % 2 ^ k

/-- R179. -/
def shflOut (f : FmtA) (m : ShflMode) (t : RawTy) (mem : List Thread) (l : Thread) : Ctx :=
  let n := shflLane m l.place.width l.place.lane (l.ctx.reg f.b)
  let src := (atLane mem n).getD l
  match t with
  | .b32 => l.ctx.setReg f.d (src.ctx.reg f.a)
  | .b64 => l.ctx.setPair f.d (src.ctx.pair f.a)

/-- R180: yes lanes, rising. -/
def yesLanes (f : FmtU) (mem : List Thread) : List Nat :=
  (List.range 64).filter fun k => match atLane mem k with
    | none => false
    | some t => t.ctx.reg f.a != 0

/-- R180. -/
def voteOut (f : FmtU) (m : VoteMode) (mem : List Thread) (l : Thread) : Ctx :=
  let y := yesLanes f mem
  match m with
  | .count => l.ctx.setReg f.d (wOf y.length)
  | .mask => l.ctx.setPair f.d (dwOf (y.foldl (fun n k => n + 2 ^ k) 0))
  | .first => l.ctx.setReg f.d (match y.head? with | none => 0xFFFFFFFF | some k => wOf k)
  | .last => l.ctx.setReg f.d (match y.getLast? with | none => 0xFFFFFFFF | some k => wOf k)

def IntTyBits (t : IntTy) : Nat := if t.wide then 64 else 32
def RawTyBits (t : RawTy) : Nat := if t.wide then 64 else 32

/-- Bits of an operation's values. -/
def gopBits (op : GOp) : Nat :=
  match op with
  | .addI t => IntTyBits t
  | .minI t => IntTyBits t
  | .maxI t => IntTyBits t
  | .and t => RawTyBits t
  | .or t => RawTyBits t
  | .xor t => RawTyBits t
  | .addF => 32
  | .minF => 32
  | .maxF => 32

/-- R181: the identity. -/
def gopId (op : GOp) : Nat :=
  let top (n : Nat) : Nat := 2 ^ n - 1
  match op with
  | .addI _ => 0
  | .addF => 0x80000000
  | .minI t => if intSigned t then 2 ^ (IntTyBits t - 1) - 1 else top (IntTyBits t)
  | .minF => 0x7F800000
  | .maxI t => if intSigned t then 2 ^ (IntTyBits t - 1) else 0
  | .maxF => 0xFF800000
  | .and t => top (RawTyBits t)
  | .or _ => 0
  | .xor _ => 0

/-- R181, R182: two values combined, with the flags of the rounding. -/
def gopCombine (op : GOp) (x y : Nat) : Nat × Word :=
  let less (t : IntTy) (a b : Nat) : Bool :=
    if intSigned t then decide (sextN (IntTyBits t) a < sextN (IntTyBits t) b) else decide (a < b)
  match op with
  | .addI t => ((x + y) % 2 ^ IntTyBits t, 0)
  | .addF => faddBits .f32 .rne x y
  | .minI t => (if less t y x then y else x, 0)
  | .minF => fminmax .f32 false x y
  | .maxI t => (if less t x y then y else x, 0)
  | .maxF => fminmax .f32 true x y
  | .and _ => (x &&& y, 0)
  | .or _ => (x ||| y, 0)
  | .xor _ => (x ^^^ y, 0)

/-- R181: positions 0 to W − 1. -/
def gopVals (op : GOp) (a : Reg) (w : Nat) (mem : List Thread) : List Nat :=
  (List.range w).map fun j => match atLane mem j with
    | none => gopId op
    | some t => if gopBits op = 64 then (t.ctx.pair a).toNat else (t.ctx.reg a).toNat

/-- One level of the pairwise tree of R58. -/
def treeLevel (op : GOp) : List (Nat × Word) → List (Nat × Word)
  | x :: y :: r =>
    let z := gopCombine op x.1 y.1
    (z.1, x.2 ||| y.2 ||| z.2) :: treeLevel op r
  | l => l

def treeAll (op : GOp) : Nat → List (Nat × Word) → Nat × Word
  | 0, l => l.headD (gopId op, 0)
  | n + 1, l => if l.length ≤ 1 then l.headD (gopId op, 0) else treeAll op n (treeLevel op l)

/-- Positions combined in ascending order: a sum starts from its first position, a NaN there being canonical as everywhere (R40,
R49), and every other operation from the identity. -/
def scanAll (op : GOp) (vs : List Nat) : Nat × Word :=
  let step (x : Nat × Word) (v : Nat) : Nat × Word :=
    let z := gopCombine op x.1 v
    (z.1, x.2 ||| z.2)
  match op, vs with
  | .addF, v :: r => r.foldl step (canonNan .f32 v)
  | _, l => l.foldl step (gopId op, 0)

/-- A combined value written to d. -/
def gopPut (op : GOp) (d : Reg) (c : Ctx) (r : Nat × Word) : Ctx :=
  (if gopBits op = 64 then c.setPair d (dwOf r.1) else c.setReg d (wOf r.1)).orFlags r.2

/-- R181, R182: `gred`. -/
def gredOut (f : FmtU) (op : GOp) (mem : List Thread) (l : Thread) : Ctx :=
  gopPut op f.d l.ctx (treeAll op 7 ((gopVals op f.a l.place.width mem).map fun v => (v, 0)))

/-- R181, R182: `gscan`. -/
def gscanOut (f : FmtU) (op : GOp) (excl : Bool) (mem : List Thread) (l : Thread) : Ctx :=
  let n := if excl then l.place.lane else l.place.lane + 1
  gopPut op f.d l.ctx (scanAll op ((gopVals op f.a l.place.width mem).take n))

/-! ## Block quantisation across a group (R125 to R127) -/

def mxWords (m : MxFmt) : Nat :=
  match m with
  | .mx8 => 8
  | .mx6 => 6
  | .mx4 => 4

/-- Block of a lane, and its position in the block. -/
def laneBlock (w lane : Nat) : Nat := if w = 64 then lane / 32 else 0
def lanePos (w lane : Nat) : Nat := if w = 64 then lane % 32 else lane

/-- Lane of position `k` in block `b`. -/
def posLane (w b k : Nat) : Nat := if w = 64 then 32 * b + k else k

/-- The lane that holds element `j` of block `b`, and which of its two registers at W = 16. -/
def elemLane (w b j : Nat) : Nat × Nat := if w = 16 then (j / 2, j % 2) else (posLane w b j, 0)

/-- R54, R126: scale, element codes and flags of block `b`. -/
def qblkBlock (f : FmtU) (fmt : MxFmt) (dth : Bool) (w b : Nat) (mem : List Thread) : Nat × List Nat × Word :=
  let at' (j : Nat) : Option Thread := atLane mem (elemLane w b j).1
  let xs := (List.range 32).map fun j => match at' j with
    | none => Num.fin false 0 0
    | some t =>
      -- R10, R126: at W = 16 the source is a pair, and g0d reads zero
      if w = 16 && f.a.val = 0 then Num.fin false 0 0 else numOf .f32 (t.ctx.reg (plusReg f.a (elemLane w b j).2)).toNat
  let ph := (List.range 32).map fun j => match at' j with
    | none => j
    | some t => j + t.ctx.dphase.toNat
  quantBlock fmt xs (if dth then some ph else none)

/-- Byte `k` of a word replaced. -/
def setByte (v : Word) (k b : Nat) : Word :=
  wOf (v.toNat - v.toNat / 2 ^ (8 * k) % 256 * 2 ^ (8 * k) + b % 256 * 2 ^ (8 * k))

/-- R126. -/
def qblkOut (f : FmtU) (fmt : MxFmt) (bsel : Fin 4) (dth : Bool) (e : Reg) (mem : List Thread) (l : Thread) : Ctx :=
  let w := l.place.width
  let q := qblkBlock f fmt dth w (laneBlock w l.place.lane) mem
  let ws := wordsOfNat (mxWords fmt) (packN (mxElem fmt).bits q.2.1)
  let c := l.ctx.setReg f.d (ws.getD (lanePos w l.place.lane) 0)
  let c := (c.setReg e (setByte (c.reg e) bsel.val q.1)).orFlags q.2.2
  if dth then { c with dphase := c.dphase + 1 } else c

/-- R127. DEDUCED (log 57): the scale is read from the lowest-numbered arrived member of the block; an exited lane is no longer a
member that could give one. -/
def dqblkOut (f : FmtU) (fmt : MxFmt) (bsel : Fin 4) (e : Reg) (mem : List Thread) (l : Thread) : Ctx :=
  let w := l.place.width
  let b := laneBlock w l.place.lane
  let first := ((List.range 64).filter fun k => laneBlock w k == b).findSome? (atLane mem)
  let scale := match first with
    | none => 0
    | some t => (t.ctx.reg e).toNat / 2 ^ (8 * bsel.val) % 256
  let str := natOfWords ((List.range (mxWords fmt)).map fun k => match atLane mem (posLane w b k) with
    | none => 0
    | some t => t.ctx.reg f.a)
  let bits := (mxElem fmt).bits
  let el (j : Nat) : Nat × Word := dequant fmt scale (str / 2 ^ (bits * j) % 2 ^ bits)
  if w = 16 then
    let x := el (2 * l.place.lane)
    let y := el (2 * l.place.lane + 1)
    (l.ctx.setPair f.d (pairD (wOf x.1) (wOf y.1))).orFlags (x.2 ||| y.2)
  else
    let x := el (lanePos w l.place.lane)
    (l.ctx.setReg f.d (wOf x.1)).orFlags x.2

/-! ## The bundle of a complete rendezvous -/

/-- Registers of an arrived member after a value-exchanging instruction. -/
def groupOut (i : Instr) (mem : List Thread) (l : Thread) : Ctx :=
  match i with
  | .shfl f m t _ => shflOut f m t mem l
  | .vote f m _ => voteOut f m mem l
  | .gred f op _ => gredOut f op mem l
  | .gscan f op excl _ => gscanOut f op excl mem l
  | .qblk f fmt bsel dth e _ => qblkOut f fmt bsel dth e mem l
  | .dqblk f fmt bsel e _ => dqblkOut f fmt bsel e mem l
  | _ => l.ctx

/-- One member goes on: its registers, EXITED (R152), the end of its instruction. -/
def releaseMember (i : Instr) (mem : List Thread) (gone : Bool) (s : State) (l : Thread) : State :=
  onThread s l.id fun s =>
    goOn (issued (modTh s fun t => { t with status := .run, exitedF := t.exitedF || gone, age := 0, ctx := groupOut i mem l }))
      (encode i).length

/-- Members of a lane's complete rendezvous, and whether a lane named has ended. -/
def rvMembers (s : State) (l : Thread) (m : BitVec 64) : List Thread × Bool :=
  let g := (groupOf s l).filter fun k => m.getLsbD k.place.lane
  (g.filter fun k => sameRv k l, g.any fun k => !k.live)

/-- R152: execute `i` once for its arrived members; every source is read before any destination is written. -/
def runExchange (s : State) (i : Instr) (mem : List Thread) (gone : Bool) : State :=
  mem.foldl (releaseMember i mem gone) s

/-! ## Barriers (R184, R185) -/

/-- An arrival in a barrier's phase. -/
def Barrier.arrive (b : Barrier) (t : Tid) (v : Word) : Barrier :=
  let b := if b.opened then b else { Barrier.empty with opened := true, expect := v }
  { b with arrived := b.arrived + 1, seen := if b.seen.contains t then b.seen else t :: b.seen }

/-- R185: the expected count that an arrival offers; field g0 reads zero. -/
def barCount (s : State) (a : Reg) : Word := s.th.ctx.reg a

/-- After the arrival: the instruction ends, a `.sync` thread waits and stands at no merge point (R149), complete phases release. -/
def arrived (s : State) (arrive : Bool) (w : Status) : Out :=
  let s1 := goOn (issued (if arrive then s else modTh s fun t => { t with status := w })) (instrLen s)
  .next (settleBarriers (if arrive then s1 else modTh s1 fun t => { t with held := none }) s.th)

/-- R184, R185. -/
def execTbar (p : Pred) (a : Reg) (n : Fin 16) (arrive : Bool) (s : State) : Out :=
  guarded s p fun s =>
    if !(s.th.accs.isEmpty && s.th.ops.isEmpty) then .next s
    else
      match findTeam s s.th.cid s.th.id.team with
      | none => .next s
      | some tm =>
        let b := ((tm.bars[n.val]?).getD Barrier.empty).arrive s.th.id (barCount s a)
        arrived (setTeam s s.th.cid s.th.id.team { tm with bars := tm.bars.set n.val b }) arrive (.tbar n.val)

/-- R184, R185. -/
def execCbar (p : Pred) (a : Reg) (n : Fin 4) (arrive : Bool) (s : State) : Out :=
  guarded s p fun s =>
    if !(s.th.accs.isEmpty && s.th.ops.isEmpty) then .next s
    else
      match findCluster s s.th.cid with
      | none => .next s
      | some k =>
        let b := ((k.cbars[n.val]?).getD Barrier.empty).arrive s.th.id (barCount s a)
        arrived (setCluster s { k with cbars := k.cbars.set n.val b }) arrive (.cbar n.val)

end Sys2Proof.Machine
end

