-- ==== Sys2Proof/Machine/Multicast.lean ====
section
/-! DEFINITION. Address groups (R380, R412), `mcst` and `mcld.red` (R381 to R383), and the reduction order (R382). -/

namespace Sys2Proof.Machine

/-! ## Address groups -/

def groupBytes (s : State) (g lo n : Nat) : List Byte := Mem.load s.fab.groups (128 * g + lo) n

/-- R380: a launch of context `ctx` may name group `g`. -/
def groupOk (s : State) (g ctx : Nat) : Bool :=
  natOfBytes (groupBytes s g 0 1) % 2 == 1 && natOfBytes (groupBytes s g 2 2) == ctx

/-- Device indices of a group's members, by position. -/
def groupMembers (s : State) (g : Nat) : List Nat := bitsOf (natOfBytes (groupBytes s g 32 96)) 768

/-! ## Reduction (R382) -/

def redGop (op : RedOp) : GOp :=
  match op with
  | .add => .addF
  | .min => .minF
  | .max => .maxF

/-- The least power of two that is at least `n`. -/
def pow2Over (n : Nat) : Nat := if n ≤ 1 then 1 else 2 ^ (Nat.log2 (n - 1) + 1)

/-- One element over the members, by position; a NaN propagates as the canonical one, also from a single member. -/
def reduceElem (op : RedOp) (vs : List Nat) : Nat :=
  let g := redGop op
  (canonNan .f32 (treeAll g 11 ((vs ++ List.replicate (pow2Over vs.length - vs.length) (gopId g)).map fun v => (v, 0))).1).1

/-- Element `i` of a member's bytes as a .f32 code; a .bf16 one is converted, which is exact but for a NaN (R50). -/
def memberElem (bf : Bool) (bs : List Byte) (i : Nat) : Nat :=
  if bf then (encNum .f32 .rne false (numOf .bf16 (fieldOf bs (2 * i) 2))).1 else fieldOf bs (4 * i) 4

/-- R382: the .f32 results of `count` elements over the members' bytes. -/
def reduceAll (op : RedOp) (bf : Bool) (members : List (List Byte)) (count : Nat) : List Byte :=
  (List.range count).flatMap fun i => bytesOfNat 4 (reduceElem op (members.map fun bs => memberElem bf bs i))

/-! ## Issue (R381) -/

/-- A request to every member: the flit, its entry among the outstanding requests, and the access that waits for it. -/
def issueGroup (s : State) (kind : AccKind) (members : List Nat) (ea : DWord) (g ty aux : Nat) (payload : List Byte)
    (dc : Fin 7) (look : Nat) : Out :=
  let n := s.fab.nextSerial
  let lv := levelFor s.th s.th.ctx.pc
  let s1 := { s with
    out := s.out ++ [{ mkFlit s ty 6 (g + 0x8000) with
      serial := n, ctx := s.th.place.ctx, keyid := s.th.place.keyId, addr := ea.toNat, aux := aux, payload := payload }],
    fab := { s.fab with nextSerial := (n + 1) % 0x100000000,
                        reqs := s.fab.reqs ++ [⟨n, s.th.id, s.th.seq, members.headD 0, 0⟩] } }
  pushAcc s1 { newAcc s1 kind ea none dc look 0 false with serial := some n, awaited := members } lv.1 lv.2

/-- R381: `mcst`. -/
def execMcst (f : FmtC) (c : Reg) (t : RawTy) (off : BitVec 16) (s : State) : Out :=
  guarded s f.p fun s => oldest s fun s0 =>
    let s := setExt s0
    let x := s.th.ctx
    let n := if t = .b64 then 8 else 4
    let ea := eaOff x f.a off
    let g := (x.reg c).toNat % 4096
    if ea.toNat % n != 0 then raiseCode s cMisaligned ea
    else if 2 ^ 46 ≤ (x.pair f.a).toNat || 2 ^ 46 ≤ ea.toNat || !groupOk s g s.th.place.ctx then raiseCode s cProt ea
    else
      let bs := if t = .b64 then bytesOfD (x.pair f.d) else bytesOfW (x.reg f.d)
      let ms := groupMembers s g
      if ms.isEmpty then retire s else issueGroup s (.mcst ms bs) ms ea g 0x10 n bs f.dc f.look.val

/-- R381: limits of a count. -/
def mcldCount (bf : Bool) (n : Nat) : Bool :=
  if bf then 2 ≤ n && n ≤ 8192 && n % 2 == 0 else 1 ≤ n && n ≤ 4096

/-- Clear, or set, the presence of the destination of `mcld.red`. -/
def mcldPresence (s : State) (c : Cid) (slot off n : Nat) (present : Bool) : State :=
  match findSlot s c slot with
  | none => s
  | some v => setSlot s c slot (if present then v.setPresent off n else v.setAbsent off n)

/-- R381: `mcld.red`. -/
def execMcldRed (f : FmtC) (c : Reg) (e : Reg) (t : FloatTy) (op : RedOp) (s : State) : Out :=
  guarded s f.p fun s => oldest s fun s0 =>
    let s := setExt s0
    let x := s.th.ctx
    let bf := t == .bf16x2
    let count := (x.reg f.d).toNat
    let n := if bf then 2 * count else 4 * count
    let ea := x.pair f.a
    let dst := x.pair e
    let g := (x.reg c).toNat % 4096
    if !mcldCount bf count then illegal s
    else if ea.toNat % 4 != 0 then raiseCode s cMisaligned ea
    else if dst.toNat % 16 != 0 then raiseCode s cMisaligned dst
    else if 2 ^ 46 < ea.toNat + n || !groupOk s g s.th.place.ctx then raiseCode s cProt ea
    else if !spadTag dst then raiseCode s cProt dst
    else
      match resolveSpad s dst 16 (4 * count) with
      | .error e => raise s e
      | .ok (.spad cid slot off) =>
        (match gate s s.th.place.die .wr (.spad cid slot off) dst (4 * count) with
         | .bad e => raise s e
         | .park => .next s0
         | .wait => .next s0
         | .go =>
           let ms := groupMembers s g
           if ms.isEmpty then retire s
           else
             issueGroup (mcldPresence s cid slot off (4 * count) false) (.mcldRed ms op bf count dst) ms ea g 0x11 n []
               f.dc f.look.val)
      | .ok _ => .next s0

/-! ## Answers (R378, R381 to R383) -/

/-- DEV of a fault (R324). -/
def excDev : Exc → Nat
  | .trap _ info _ => info.toNat % 1024
  | .kill _ => 0

/-- The fault that names the lowest member. -/
def lowerFault (a : Option Exc) (b : Exc) : Exc :=
  match a with
  | none => b
  | some x => if excDev b < excDev x then b else x

/-- The `n` bytes of member `dev` of request `serial`; one that has not come is free (log 6). -/
def gathered (s : State) (serial dev n : Nat) : List Byte :=
  (List.range n).map fun i =>
    match s.fab.gather.find? fun g => g.serial == serial && g.dev == dev && decide (g.off ≤ i) && decide (i < g.off + g.data.length) with
    | none => (Config.freeWord (s.fresh + dev * n + i)).truncate 8
    | some g => g.data.getD (i - g.off) 0

/-- Every byte of `n` from member `dev` is in. -/
def gatheredAll (s : State) (serial dev n : Nat) : Bool :=
  (List.range n).all fun i =>
    s.fab.gather.any fun g => g.serial == serial && g.dev == dev && decide (g.off ≤ i) && decide (i < g.off + g.data.length)

def dropGather (s : State) (serial : Nat) : State :=
  { s with fab := { s.fab with gather := s.fab.gather.filter fun g => g.serial != serial } }

/-- Source bytes of an `mcld.red`. -/
def mcldBytes (bf : Bool) (count : Nat) : Nat := if bf then 2 * count else 4 * count

/-- The destination of a finished `mcld.red` of the focus thread: reduced values, or, after a member's failure, each byte its old or
its reduced value (R378). -/
def mcldLand (s : State) (a : Access) (serial : Nat) (members : List Nat) (op : RedOp) (bf : Bool) (count : Nat)
    (dst : DWord) : State :=
  let slot := spadSlot s.th.place.slot dst.toNat
  let off := spadOff dst.toNat
  let loc : Loc := .spad s.th.cid slot off
  let new := reduceAll op bf (members.map fun d => gathered s serial d (mcldBytes bf count)) count
  let s1 := match a.failed with
    | none => writeLoc s (some s.th.id) s.th.place.die 0 loc new
    | some _ => writeLoc { s with fresh := s.fresh + 768 * mcldBytes bf count + 4 * count } (some s.th.id) s.th.place.die 0 loc
        (mixBytes s.fresh (peekLoc s s.th.place.die 0 loc (4 * count)) new)
  dropGather (mcldPresence s1 s.th.cid slot off (4 * count) true) serial

/-- R248: the result of an `mcld.red` waits at its destination, for a watch with intent or behind a write that waits there. -/
def mcldWaits (s : State) (a : Access) : Bool :=
  match a.kind with
  | .mcldRed _ _ _ count dst =>
    let loc : Loc := .spad s.th.cid (spadSlot s.th.place.slot dst.toNat) (spadOff dst.toNat)
    intentHolds s (some s.th.id) loc (4 * count) || queuedBefore s s.fresh loc (4 * count)
  | _ => false

/-- Every member has answered, or failed, for the oldest access of the focus thread: it completes or traps. -/
def finishGroup (s : State) : State :=
  match s.th.accs with
  | [] => s
  | a :: _ =>
    match if mcldWaits s a then none else a.serial with
    | none => s
    | some n =>
      let s1 := match a.kind with
        | .mcldRed ms op bf count dst => mcldLand s a n ms op bf count dst
        | _ => s
      match a.failed with
      | none => finishHead s1
      | some e => takeFault s1 e

/-- R383: a member is absent: the destination of `mcld.red` is present again with its old values. -/
def absentGroup (s : State) (e : Exc) : State :=
  match s.th.accs with
  | [] => s
  | a :: _ =>
    match a.kind, a.serial with
    | .mcldRed _ _ _ count dst, some n =>
      takeFault (dropGather (mcldPresence s s.th.cid (spadSlot s.th.place.slot dst.toNat) (spadOff dst.toNat) (4 * count) true) n) e
    | _, _ => takeFault s e

/-- R383: an `mcst` past its fan-out point, as some member's answer shows, completes although the members it still awaits are lost. -/
def fanOutDone (s : State) (a : Access) : Bool :=
  match a.kind with
  | .mcst ms _ => decide (a.awaited.length < ms.length) && a.awaited.all s.fab.absent.contains
  | _ => false

/-- The answer of member `dev` to the oldest access of the focus thread; `e` where it failed. -/
def memberDone (s : State) (dev : Nat) (e : Option Exc) : State :=
  let s1 := modHead s fun a => { a with
    awaited := a.awaited.filter fun d => d != dev,
    failed := match e with | none => a.failed | some x => some (lowerFault a.failed x) }
  match s1.th.accs with
  | [] => s1
  | a :: _ => if a.awaited.isEmpty || fanOutDone s1 a then finishGroup s1 else s1

/-- R383: a member has left the domain. -/
def memberLost (s : State) : State :=
  match s.th.accs with
  | [] => s
  | a :: _ => if fanOutDone s a then finishGroup s else s

/-- The members still awaited count as failed with `e`, of which only DEV varies (R378). -/
def membersLost (s : State) (e : Nat → Exc) : State :=
  match s.th.accs with
  | [] => s
  | _ :: _ =>
    finishGroup (modHead s fun a => { a with
      awaited := [], failed := a.awaited.foldl (fun f d => some (lowerFault f (e d))) a.failed })

/-- An `mcld.red` all of whose members have answered, and that has waited at its destination (R248). -/
def landGroup (s : State) : State :=
  match s.th.accs with
  | [] => s
  | a :: _ =>
    match a.kind with
    | .mcldRed _ _ _ _ _ => if a.awaited.isEmpty then finishGroup s else s
    | _ => s

end Sys2Proof.Machine
end

