-- ==== Sys2Proof/Machine/Float.lean ====
section
/-! DEFINITION. Scalar and packed floating point, compares, conversions and packing (R112 to R124). -/

namespace Sys2Proof.Machine

/-! ## Scalars (R115 to R119) -/

/-- R115. -/
def execFadd (f : FmtA) (m : RmSel) (s : State) : Out :=
  regOp s f.p fun c => c.setF f.d (faddBits .f32 (rmSel c m) (c.reg f.a).toNat (c.reg f.b).toNat)

/-- R115: a + (−b); the sign of a NaN changes nothing. -/
def execFsub (f : FmtA) (m : RmSel) (s : State) : Out :=
  regOp s f.p fun c => c.setF f.d (faddBits .f32 (rmSel c m) (c.reg f.a).toNat (negBits .f32 (c.reg f.b).toNat))

/-- R115. -/
def execFmul (f : FmtA) (m : RmSel) (s : State) : Out :=
  regOp s f.p fun c => c.setF f.d (fmulBits .f32 (rmSel c m) (c.reg f.a).toNat (c.reg f.b).toNat)

/-- R58, R115. -/
def execFfma (f : FmtA) (c3 : Reg) (m : RmSel) (s : State) : Out :=
  regOp s f.p fun c =>
    c.setF f.d (ffmaBits .f32 (rmSel c m) (c.reg f.a).toNat (c.reg f.b).toNat (c.reg c3).toNat)

/-- R116. -/
def execFmin (f : FmtA) (s : State) : Out :=
  regOp s f.p fun c => c.setF f.d (fminmax .f32 false (c.reg f.a).toNat (c.reg f.b).toNat)

/-- R116. -/
def execFmax (f : FmtA) (s : State) : Out :=
  regOp s f.p fun c => c.setF f.d (fminmax .f32 true (c.reg f.a).toNat (c.reg f.b).toNat)

/-- Sign bits of a word or of both halves (R117). -/
def signMask (x2 : Bool) : Word := if x2 then 0x80008000 else 0x80000000

/-- R117. -/
def execFabs (f : FmtU) (x2 : Bool) (s : State) : Out :=
  regOp s f.p fun c => c.setReg f.d (c.reg f.a &&& ~~~signMask x2)

/-- R117. -/
def execFneg (f : FmtU) (x2 : Bool) (s : State) : Out :=
  regOp s f.p fun c => c.setReg f.d (c.reg f.a ^^^ signMask x2)

/-- R118. -/
def execFcls (f : FmtU) (m : ClsFmt) (s : State) : Out :=
  regOp s f.p fun c => c.setReg f.d (wOf (2 ^ classBit (clsFmt m) (c.reg f.a).toNat))

/-- R119. -/
def execFrnd (f : FmtU) (m : FrndSel) (s : State) : Out :=
  regOp s f.p fun c => c.setF f.d (frndBits (frndSel c m) (c.reg f.a).toNat)

/-- R120. -/
def execFcmp (f : FmtP) (cc : FCond) (s : State) : Out :=
  regOp s f.p fun c =>
    let r := fcmpOf cc (c.reg f.a) (c.reg f.b)
    (c.setPred f.pd r.1).orFlags r.2

/-! ## Packed halves (R121) -/

def halfFmt (half : Bool) : NumFmt := if half then .f16 else .bf16

def lo16 (w : Word) : Nat := w.toNat % 0x10000
def hi16 (w : Word) : Nat := w.toNat / 0x10000

/-- Both halves under one operation; flags are OR-ed. -/
def packed2 (r0 r1 : Nat × Word) : Nat × Word := (r0.1 + 0x10000 * r1.1, r0.2 ||| r1.2)

/-- R121. -/
def execHadd2 (f : FmtA) (half : Bool) (s : State) : Out :=
  regOp s f.p fun c =>
    let a := c.reg f.a
    let b := c.reg f.b
    let op := faddBits (halfFmt half) (rmOf c.fpst)
    c.setF f.d (packed2 (op (lo16 a) (lo16 b)) (op (hi16 a) (hi16 b)))

/-- R121. -/
def execHmul2 (f : FmtA) (half : Bool) (s : State) : Out :=
  regOp s f.p fun c =>
    let a := c.reg f.a
    let b := c.reg f.b
    let op := fmulBits (halfFmt half) (rmOf c.fpst)
    c.setF f.d (packed2 (op (lo16 a) (lo16 b)) (op (hi16 a) (hi16 b)))

/-- R58, R121. -/
def execHfma2 (f : FmtA) (c3 : Reg) (half : Bool) (s : State) : Out :=
  regOp s f.p fun c =>
    let a := c.reg f.a
    let b := c.reg f.b
    let e := c.reg c3
    let op := ffmaBits (halfFmt half) (rmOf c.fpst)
    c.setF f.d (packed2 (op (lo16 a) (lo16 b) (lo16 e)) (op (hi16 a) (hi16 b) (hi16 e)))

/-! ## Conversion (R112, R122) -/

def fpFmt : Fp → NumFmt
  | .f32 => .f32 | .bf16 => .bf16 | .f16 => .f16 | .e4m3 => .e4m3 | .e5m2 => .e5m2 | .t8 => .t8 | .t6 => .t6

/-- The source value of a conversion. -/
def cvtSrc (c : Ctx) (sf : ConvTy) (a : Reg) : Num :=
  match sf with
  | .fp f => numOf (fpFmt f) (c.reg a).toNat
  | .s32 => numOfInt (c.reg a).toInt
  | .n32 => numOfInt (c.reg a).toNat
  | .s64 => numOfInt (c.pair a).toInt
  | .n64 => numOfInt (c.pair a).toNat

/-- R122: the destination written with its flags. -/
def cvtTo (c : Ctx) (d : Reg) (df : ConvTy) (sat : Bool) (v : Num) : Ctx :=
  let md := rmOf c.fpst
  match df with
  | .fp f =>
    let r := encNum (fpFmt f) md sat v
    c.setF d (r.1, r.2 ||| v.sig)
  | .s32 => c.setF d (intOf md true 32 v)
  | .n32 => c.setF d (intOf md false 32 v)
  | .s64 =>
    let r := intOf md true 64 v
    (c.setPair d (dwOf r.1)).orFlags r.2
  | .n64 =>
    let r := intOf md false 64 v
    (c.setPair d (dwOf r.1)).orFlags r.2

/-- R122. -/
def execFcvt (f : FmtU) (sf df : ConvTy) (s : State) : Out :=
  regOp s f.p fun c => cvtTo c f.d df false (cvtSrc c sf f.a)

/-- R48, R122. -/
def execFcvtSat (f : FmtU) (sf df : ConvTy) (s : State) : Out :=
  regOp s f.p fun c => cvtTo c f.d df true (cvtSrc c sf f.a)

/-! ## Packing (R123, R124) -/

def packFmt : PackFmt → NumFmt
  | .bf16 => .bf16 | .f16 => .f16 | .e4m3 => .e4m3 | .e5m2 => .e5m2 | .t8 => .t8 | .t6 => .t6

/-- R123: one element of `pkq`; every finite overflow that saturates sets SA beside OF and NX. -/
def packNum (f : PackFmt) (md : Rm) (sat : Bool) (v : Num) : Nat × Word :=
  let r := encNum (packFmt f) md sat v
  (r.1, r.2 ||| v.sig ||| (if sat && r.2 &&& fOF != 0 then fSA else 0))

/-- Elements of one result, rounded by RNE or under dither from phase `ph` (R53, R123). -/
def packElems (f : PackFmt) (sat : Bool) (dith : Option Nat) : Nat → List Word → List (Nat × Word)
  | _, [] => []
  | j, w :: ws =>
    let v := numOf .f32 w.toNat
    let md := match dith with | none => Rm.rne | some ph => .dith (j + ph)
    packNum f md sat v :: packElems f sat dith (j + 1) ws

def orAll (l : List (Nat × Word)) : Word := l.foldl (fun f e => f ||| e.2) 0

/-- R123. -/
def execPkq (f : FmtU) (fmt : PackFmt) (sat dth : Bool) (s : State) : Out :=
  regOp s f.p fun c =>
    let els := packElems fmt sat (if dth then some c.dphase.toNat else none) 0 (c.regs f.a fmt.count)
    let v := packN (packFmt fmt).bits (els.map (·.1))
    let c1 := (c.setRegs f.d (wordsOfNat (packWords fmt) v)).orFlags (orAll els)
    if dth then { c1 with dphase := c.dphase + 1 } else c1

/-- R124: one element as .f32, with its flags. -/
def unpackElem (f : NumFmt) (code : Nat) : Nat × Word :=
  let v := numOf f code
  ((encNum .f32 .rne false v).1, v.sig)

/-- R124. -/
def execUpk (f : FmtU) (fmt : PackFmt) (s : State) : Out :=
  regOp s f.p fun c =>
    let v := natOfWords (c.regs f.a (packWords fmt))
    let els := (unpackN (packFmt fmt).bits fmt.count v).map (unpackElem (packFmt fmt))
    (c.setRegs f.d (els.map fun e => wOf e.1)).orFlags (orAll els)

end Sys2Proof.Machine
end

