-- ==== Sys2Proof/Machine/CopyPlan.lean ====
section
/-! DEFINITION. Copy requests and tensor layouts (R278 to R291, R299): their fields, their limits, the box, the transforms and the
compressed buffer, as functions of the two records and of the source bytes. -/

namespace Sys2Proof.Machine

/-! ## The records (R278 to R281) -/

/-- The fields of a request and of its layout record. -/
structure CopyPlan where
  dir : Nat
  xop : Nat
  qf : Nat
  sat : Bool
  dth : Bool
  qaxis : Bool
  sbsel : Nat
  dmask : Nat
  lrec : Nat
  spad : Nat
  bar : Nat
  scale : Nat
  org : List Int
  box : List Nat
  base : Nat
  rank : Nat
  etype : Nat
  comp : Bool
  dim : List Nat
  stride : List Nat
  deriving DecidableEq, Repr

def fields (bs : List Byte) (lo n count : Nat) : List Nat := (List.range count).map fun i => fieldOf bs (lo + n * i) n

def planOf (req lay : List Byte) : CopyPlan :=
  let ctl := fieldOf req 0 4
  { dir := ctl % 4, xop := ctl / 4 % 16, qf := ctl / 0x40 % 16, sat := bitN ctl 10, dth := bitN ctl 11, qaxis := bitN ctl 12,
    sbsel := ctl / 0x2000 % 4, dmask := fieldOf req 4 4, lrec := fieldOf req 8 4, spad := fieldOf req 12 4,
    bar := fieldOf req 16 4, scale := fieldOf req 20 4, org := (fields req 24 4 5).map (sextN 32), box := fields req 44 2 5,
    base := fieldOf lay 0 8, rank := fieldOf lay 8 1, etype := fieldOf lay 9 1, comp := bitN (fieldOf lay 10 1) 0,
    dim := fields lay 16 4 5, stride := 0 :: fields lay 36 6 4 }

/-- R281: bits of an element; 0 for a reserved code. -/
def etBits (e : Nat) : Nat :=
  if e = 0 || e = 10 then 32
  else if e = 1 || e = 2 || e = 9 then 16
  else if e = 3 || e = 4 || e = 5 || e = 8 || e = 14 then 8
  else if e = 6 || e = 13 then 6
  else if e = 11 then 64
  else if e = 12 then 4
  else 0

/-- The number format of an element type that has one. -/
def etFmt (e : Nat) : NumFmt :=
  if e = 1 then .bf16 else if e = 2 then .f16 else if e = 3 then .e4m3 else if e = 4 then .e5m2 else if e = 5 then .t8
  else if e = 6 then .t6 else if e = 12 then .e2m1 else if e = 13 then .e2m3 else if e = 14 then .e4m3 else .f32

def etMx (e : Nat) : MxFmt := if e = 12 then .mx4 else if e = 13 then .mx6 else .mx8

/-- The transform makes or reads MX blocks (R287). -/
def CopyPlan.mx (p : CopyPlan) : Bool := (p.xop == 4 && decide (12 ≤ p.qf)) || p.xop == 5

/-- Elements that must come in whole multiples so that every row starts on a byte (R280). -/
def etMul (e : Nat) : Nat := if e = 6 || e = 13 || e = 14 then 32 else if e = 12 then 4 else 1

/-! ## Limits: code FIELD (R278 to R289) -/

/-- R286: direction, transform, source type and options go together. Of the options, SAT is used by transform 3 and by transform 4
outside MX (DEDUCED, log 16). -/
def CopyPlan.xopOk (p : CopyPlan) : Bool :=
  let d02 := p.dir == 0 || p.dir == 2
  let okX :=
    if p.xop = 0 then true
    else if p.xop = 1 then d02 && (etBits p.etype == 8 || etBits p.etype == 16 || etBits p.etype == 32) && decide (2 ≤ p.rank)
    else if p.xop = 2 then d02 && decide (1 ≤ p.etype) && decide (p.etype ≤ 6)
    else if p.xop = 3 then (d02 && p.etype == 0) || (p.dir == 1 && p.etype == 1)
    else if p.xop = 4 then d02 && decide (p.etype ≤ 2)
      && ((decide (3 ≤ p.qf) && decide (p.qf ≤ 6)) || (decide (12 ≤ p.qf) && decide (p.qf ≤ 14)))
    else if p.xop = 5 then d02 && decide (12 ≤ p.etype) && decide (p.etype ≤ 14) && decide (p.qf ≤ 1)
    else p.xop == 6 && p.dir == 1
  okX && (p.sat == false || p.xop == 3 || (p.xop == 4 && !p.mx))
    && (p.dth == false || p.xop == 3 || p.xop == 4)
    && (p.mx || (p.qaxis == false && p.sbsel == 0))
    && (p.qf == 0 || p.xop == 4 || p.xop == 5)
    && !(p.dir == 1 && (p.comp != (p.xop == 6)))

/-- The request's own limits (R278, R279, R284). -/
def reqOk (req : List Byte) (p : CopyPlan) (dth : Bool) : Bool :=
  let pool (w align : Nat) : Bool := decide (w < 0x1000000) && w % align == 0
  decide (fieldOf req 0 4 < 0x8000) && p.dir != 3 && decide (p.xop ≤ 6)
    && decide (p.dmask < 0x1000) && pool p.lrec 64 && pool p.spad 16 && pool (p.bar % 0x80000000) 16 && pool p.scale 128
    && (p.dmask == 0 || (p.spad / 0x100000 == 0 && p.bar % 0x80000000 / 0x100000 == 0 && p.dir != 1))
    && (p.scale == 0 || p.xop == 4 || p.xop == 5)
    && p.box.all (fun b => b != 0) && fieldOf req 54 10 == 0
    && (!p.dth || dth)

/-- R288: the strides of a dense tensor. -/
def CopyPlan.dense (p : CopyPlan) : Bool :=
  (List.range 5).all fun i => i == 0 || decide (p.rank ≤ i)
    || p.stride.getD i 0 == (p.dim.take i).foldl (· * ·) 1 * etBits p.etype / 8

/-- The layout record's limits, and those that join the two records (R280, R281, R286 to R288). -/
def layOk (lay : List Byte) (p : CopyPlan) : Bool :=
  let tag := p.base / 2 ^ 56
  let m := etMul p.etype
  (if p.dir = 2 then tag == 0xF0 || tag == 0xF1 else tag == 0) && p.base % 16 == 0
    && decide (1 ≤ p.rank) && decide (p.rank ≤ 5) && etBits p.etype != 0 && decide (fieldOf lay 10 1 < 8)
    && fieldOf lay 11 5 == 0 && fieldOf lay 60 4 == 0
    && (List.range 5).all (fun i =>
      let d := p.dim.getD i 0
      let t := p.stride.getD i 0
      decide (1 ≤ d) && decide (d < 2 ^ 31) && t % 16 == 0 && (decide (i < p.rank) || (d == 1 && t == 0)))
    && p.dim.getD 0 0 % m == 0 && p.org.getD 0 0 % (m : Int) == 0 && p.box.getD 0 0 % m == 0
    && p.xopOk
    && (!p.mx || (if p.qaxis then p.box.getD 1 0 else p.box.getD 0 0) % 32 == 0)
    && (!p.comp || (p.base % 2048 == 0 && p.dense))

/-! ## The box (R282, R283) -/

/-- Elements of the box. -/
def CopyPlan.count (p : CopyPlan) : Nat := p.box.foldl (· * ·) 1

/-- Bits of a scratchpad-side element. -/
def CopyPlan.spadBits (p : CopyPlan) : Nat :=
  if p.xop = 2 then 32
  else if p.xop = 3 then (if p.dir = 1 then 32 else 16)
  else if p.xop = 4 || p.xop = 5 then etBits p.qf
  else etBits p.etype

/-- Bytes of the scratchpad side. -/
def CopyPlan.spadBytes (p : CopyPlan) : Nat := (p.count * p.spadBits + 7) / 8

/-- Elements of a scratchpad-side row, and of a step (R302). -/
def CopyPlan.row (p : CopyPlan) : Nat := if p.xop = 1 then p.box.getD 1 1 else p.box.getD 0 1
def CopyPlan.unit (p : CopyPlan) : Nat := if p.xop = 4 && p.qaxis then 32 * p.row else p.row

/-- Indices of a linear index, first one fastest. -/
def unlin : List Nat → Nat → List Nat
  | [], _ => []
  | n :: ns, k => k % n :: unlin ns (k / n)

/-- Box coordinates of scratchpad-side element `k`. -/
def CopyPlan.boxOf (p : CopyPlan) (k : Nat) : List Nat :=
  if p.xop = 1 then
    match p.box with
    | b0 :: b1 :: r =>
      match unlin (b1 :: b0 :: r) k with
      | i1 :: i0 :: q => i0 :: i1 :: q
      | l => l
    | l => unlin l k
  else unlin p.box k

/-- Tensor coordinates of scratchpad-side element `k`; none out of bounds. -/
def CopyPlan.coord (p : CopyPlan) (k : Nat) : Option (List Nat) :=
  let c := List.zipWith (fun (o : Int) (b : Nat) => o + b) p.org (p.boxOf k)
  if (List.zipWith (fun (x : Int) (d : Nat) => decide (0 ≤ x) && decide (x < d)) c p.dim).all id then some (c.map Int.toNat) else none

/-- Byte offset from BASE of the element at `c`, and the bit of that byte where it starts. -/
def CopyPlan.place (p : CopyPlan) (c : List Nat) : Nat × Nat :=
  let w := etBits p.etype
  (c.getD 0 0 * w / 8 + (List.zipWith (· * ·) c p.stride).foldl (· + ·) 0, c.getD 0 0 * w % 8)

/-- Bytes of the run from BASE that the element at `c` lies in. -/
def CopyPlan.span (p : CopyPlan) (c : List Nat) : Nat × Nat :=
  let x := p.place c
  (x.1, (x.2 + etBits p.etype + 7) / 8)

/-- Lowest and highest coordinate of the box in each dimension, inside the bounds; none where no element is. -/
def CopyPlan.clip (p : CopyPlan) : Option (List (Nat × Nat)) :=
  let l := (List.range 5).map fun i =>
    let o := p.org.getD i 0
    let lo := max o 0
    let hi := min (o + p.box.getD i 0) (p.dim.getD i 0)
    (lo, hi)
  if l.all fun x => decide (x.1 < x.2) then some (l.map fun x => (x.1.toNat, x.2.toNat - 1)) else none

/-- The interval of an uncompressed tensor that the box covers, as offsets from BASE: first byte and length (R296). -/
def CopyPlan.interval (p : CopyPlan) : Option (Nat × Nat) :=
  match p.clip with
  | none => none
  | some l =>
    let lo := p.span (l.map (·.1))
    let hi := p.span (l.map (·.2))
    some (lo.1, hi.1 + hi.2 - lo.1)

/-! ## Compressed buffers (R288, R289) -/

/-- S: bytes of the logical content. -/
def CopyPlan.logical (p : CopyPlan) : Nat := p.dim.foldl (· * ·) 1 * etBits p.etype / 8

def CopyPlan.nb (p : CopyPlan) : Nat := (p.logical + 2047) / 2048

/-- Payload slot of block `k`, as an offset from BASE. -/
def CopyPlan.payload (p : CopyPlan) (k : Nat) : Nat := 2048 * ((p.nb + 2047) / 2048) + 2048 * k

/-- Bytes of the payload that an index byte names; none for a DECODE error. -/
def payloadLen (ix : Nat) : Option Nat :=
  if ix = 0x80 then some 0 else if ix = 0x5F then some 2048 else if ix < 31 then some (64 * (ix + 1)) else none

/-- Words named by a sparse block's map. -/
def mapBits (m : Nat) : Nat := (bitsOf m 512).length

/-- Units of a sparse block of `nz` words. -/
def sparseUnits (nz : Nat) : Nat := 1 + (4 * nz + 63) / 64

/-- The 2,048 bytes of a block from its index byte and payload; none for a DECODE error. -/
def decodeBlock (ix : Nat) (pl : List Byte) : Option (List Byte) :=
  if ix = 0x80 then some (List.replicate 2048 0)
  else if ix = 0x5F then some pl
  else if ix < 31 then
    let m := natOfBytes (pl.take 64)
    if sparseUnits (mapBits m) = ix + 1 then some (fill (List.range 512) m (pl.drop 64)) else none
  else none
where
  fill : List Nat → Nat → List Byte → List Byte
    | [], _, _ => []
    | i :: is, m, bs =>
      if bitN m i then bs.take 4 ++ fill is m (bs.drop 4) else [0, 0, 0, 0] ++ fill is m bs

/-- Index byte and payload of a block of 2,048 bytes. -/
def encodeBlock (bs : List Byte) : Nat × List Byte :=
  let ws := wordsOf 512 bs
  let nz := ws.filter fun w => w != 0
  let u := sparseUnits nz.length
  if nz = [] then (0x80, [])
  else if u ≤ 31 then
    let m := ((List.range 512).filter fun i => ws.getD i 0 != 0).foldl (fun x i => x + 2 ^ i) 0
    let body := bytesOfNat 64 m ++ bytesOf nz
    (u - 1, body ++ List.replicate (64 * u - body.length) 0)
  else (0x5F, bs)

/-- Every way to choose one number of each range. -/
def choices : List (Nat × Nat) → List (List Nat)
  | [] => [[]]
  | r :: rs => (rangeFrom r.1 (r.2 + 1 - r.1)).flatMap fun i => (choices rs).map fun l => i :: l

/-- Blocks that the box touches, rising: those of each in-bounds row along dimension 0. -/
def CopyPlan.blocks (p : CopyPlan) : List Nat :=
  match p.clip with
  | some (x :: rest) =>
    (choices rest).foldl (fun bs c =>
      let lo := p.span (x.1 :: c)
      let hi := p.span (x.2 :: c)
      (unitsOf 2048 lo.1 (hi.1 + hi.2 - lo.1)).foldl setAdd bs) []
  | _ => []

/-- Runs of consecutive numbers: first and last of each. -/
def runsOf : List Nat → List (Nat × Nat)
  | [] => []
  | a :: r => match runsOf r with
    | [] => [(a, a)]
    | b :: l => if a + 1 = b.1 then (a, b.2) :: l else (a, a) :: b :: l

/-- R289: the in-bounds box is one run of L, from a block's start to a block's end or to S: first byte and length. -/
def CopyPlan.compRun (p : CopyPlan) : Option (Nat × Nat) :=
  match p.clip, p.interval with
  | some l, some i =>
    let n := (l.map fun x => x.2 - x.1 + 1).foldl (· * ·) 1
    if n * etBits p.etype == 8 * i.2 && i.1 % 2048 == 0 && ((i.1 + i.2) % 2048 == 0 || i.1 + i.2 == p.logical) then some i else none
  | _, _ => none

/-! ## Ranges -/

/-- Ranges of the layout's side, as address and length (R296). -/
def CopyPlan.ranges (p : CopyPlan) : List (Nat × Nat) :=
  if p.comp then
    (runsOf p.blocks).flatMap fun b => [(p.base + b.1, b.2 - b.1 + 1), (p.base + p.payload b.1, 2048 * (b.2 - b.1 + 1))]
  else
    match p.interval with
    | none => []
    | some i => [(p.base + i.1, i.2)]

/-- Rows and row length of the scratchpad-side box, and scale words of its blocks (R287). -/
def CopyPlan.rows (p : CopyPlan) : Nat := p.count / p.row
def CopyPlan.scaleWords (p : CopyPlan) : Nat := if p.mx then p.count / 32 else 0

/-- Index of the scale word of scratchpad-side element `k`. -/
def CopyPlan.scaleIx (p : CopyPlan) (k : Nat) : Nat :=
  let r := k / p.row
  let n := k % p.row
  if p.qaxis then r / 32 * p.row + n else n / 32 * p.rows + r

/-- Destination slots; `own` is none where DMASK is 0. -/
def CopyPlan.slots (p : CopyPlan) : List Nat := if p.dmask = 0 then [p.spad / 0x100000 % 16] else bitsOf p.dmask 12
def CopyPlan.barSlots (p : CopyPlan) : List Nat := if p.dmask = 0 then [p.bar / 0x100000 % 16] else bitsOf p.dmask 12
def CopyPlan.hasBar (p : CopyPlan) : Bool := decide (0x80000000 ≤ p.bar)

def rangesMeet (s1 o1 n1 s2 o2 n2 : Nat) : Bool := s1 == s2 && decide (o1 < o2 + n2) && decide (o2 < o1 + n1)

/-- R299: a barrier object, a written scale range, or a DIR 2 source that overlaps the operation's own scratchpad destination. -/
def CopyPlan.overlaps (p : CopyPlan) (own : Nat) : Bool :=
  p.dir != 1 && p.slots.any fun i =>
    let o := p.spad % 0x100000
    let n := p.spadBytes
    (p.hasBar && p.barSlots.any fun j => rangesMeet i o n j (p.bar % 0x100000) 16)
      || (p.scaleWords != 0 && rangesMeet i o n (p.scale / 0x100000) (p.scale % 0x100000) (4 * p.scaleWords))
      || (p.dir == 2 && p.ranges.any fun r =>
        rangesMeet i o n (if r.1 / 2 ^ 56 = 0xF0 then own else r.1 / 2 ^ 20 % 16) (r.1 % 2 ^ 20) r.2)

/-! ## Elements -/

/-- The code of the in-bounds element at `c` from `rd`, which reads the tensor's logical bytes from BASE. -/
def CopyPlan.elemAt (p : CopyPlan) (rd : Nat → Nat → List Byte) (c : List Nat) : Nat :=
  let x := p.place c
  natOfBytes (rd x.1 ((p.span c).2)) / 2 ^ x.2 % 2 ^ etBits p.etype

/-- R282: the source code of scratchpad-side element `k`; +0 out of bounds. -/
def CopyPlan.srcElem (p : CopyPlan) (rd : Nat → Nat → List Byte) (k : Nat) : Nat :=
  match p.coord k with
  | none => 0
  | some c => p.elemAt rd c

/-- First element and step of the MX block of element `k`. -/
def CopyPlan.blockOf (p : CopyPlan) (k : Nat) : Nat × Nat :=
  if p.qaxis then (k / (32 * p.row) * (32 * p.row) + k % p.row, p.row) else (k / 32 * 32, 1)

/-- The quantised block of element `k`: scale and element codes. -/
def CopyPlan.quant (p : CopyPlan) (src : Nat → Nat) (ph k : Nat) : Nat × List Nat :=
  let b := p.blockOf k
  let xs := (List.range 32).map fun j => numOf (etFmt p.etype) (src (b.1 + j * b.2))
  let q := quantBlock (etMx p.qf) xs (if p.dth then some ((List.range 32).map fun j => j + ph) else none)
  (q.1, q.2.1)

/-- Index of element `k` in its MX block. -/
def CopyPlan.inBlock (p : CopyPlan) (k : Nat) : Nat := if p.qaxis then k / p.row % 32 else k % 32

/-- R286: the scratchpad-side code of element `k`, from source codes and scale words. -/
def CopyPlan.result (p : CopyPlan) (src : Nat → Nat) (scale : Nat → Nat) (ph k : Nat) : Nat :=
  let v := numOf (etFmt p.etype) (src k)
  let md (i : Nat) : Rm := if p.dth then .dith (i + ph) else .rne
  if p.xop = 2 then (encNum .f32 .rne false v).1
  else if p.xop = 3 then (encNum .bf16 (md k) p.sat (numOf .f32 (src k))).1
  else if p.xop = 4 then
    if p.mx then (p.quant src ph k).2.getD (p.inBlock k) 0
    else (encNum (etFmt p.qf) (md (k % 32)) p.sat v).1
  else if p.xop = 5 then
    let x := (dequant (etMx p.etype) (scale (p.scaleIx k)) (src k)).1
    if p.qf = 0 then x else (encNum .bf16 .rne false (numOf .f32 x)).1
  else src k

/-- Bytes of a packed run of elements `k0` to `k1 − 1` that start in byte `b0` and end before byte `b1`. -/
def packRun (w : Nat) (f : Nat → Nat) (k0 k1 b0 b1 : Nat) : List Byte :=
  bytesOfNat (b1 - b0) (packN w ((rangeFrom k0 (k1 - k0)).map f) / 2 ^ (8 * b0 - w * k0))

end Sys2Proof.Machine
end

