-- ==== Sys2Proof/Machine/CopyEngine.lean ====
section
/-! DEFINITION. The copy engine at work (R169, R170, R282 to R302, R308, R310): launch points, rows landing, counts, completion
and failure. -/

namespace Sys2Proof.Machine

/-! ## Operations in an engine -/

def findOp (s : State) (core pos : Nat) : Option CopyOp := (getCore s core).eng.find? fun o => o.pos == pos

def setOp (s : State) (core : Nat) (o : CopyOp) : State :=
  let c := getCore s core
  setCore s core { c with eng := c.eng.map fun x => if x.pos = o.pos then o else x }

def delOp (s : State) (core pos : Nat) : State :=
  let c := getCore s core
  setCore s core { c with eng := c.eng.filter fun x => x.pos != pos }

def CopyOp.plan (o : CopyOp) : CopyPlan := planOf o.req o.lay
def CopyOp.thread (o : CopyOp) : Tid := ⟨o.cid.lid, o.cid.clus, o.team, o.tid⟩
def CopyOp.gen (s : State) (o : CopyOp) : Nat := (genOf s o.keyId).getD 0

/-- R307: the counter falls when no request of the instruction is pending or in flight. -/
def copyDone (s : State) (t : Tid) (group : Nat) (dc : Fin 7) : State :=
  let inFlight := s.cores.any fun k => k.2.eng.any fun o => o.thread == t && o.group == group
  mapThreads s fun th =>
    if th.id = t && !inFlight && !(th.accs.any fun a => match a.kind with
        | .copy r => r.group == group
        | _ => false) then dcDrop th dc
    else th

/-! ## Barriers and fault records (R293, R295, R342) -/

/-- R361: the physical addresses that a write at `pa` reaches: both replicas where a mirror page holds it. -/
def twins (s : State) (pa : Nat) : List Nat :=
  match mirrorPage s pa with
  | none => [pa]
  | some l =>
    let p := if decide (l.page ≤ pa) && decide (pa < l.page + 2 ^ l.size) then pa else pa - Config.dieOneBase
    [p, mirrorOf p]

/-- R35: the runs of bytes that lie outside the code ranges of open launches. -/
def freeRuns (s : State) (pa : Nat) : List Byte → List (Nat × List Byte)
  | [] => []
  | b :: bs =>
    let r := freeRuns s (pa + 1) bs
    if codeHit s pa 1 then r
    else match r with
      | [] => [(pa, [b])]
      | x :: l => if x.1 = pa + 1 then (pa, b :: x.2) :: l else (pa, [b]) :: x :: l

/-- Runs cut at pages of 64 KiB. -/
def pageCuts : Nat → Nat → List Byte → List (Nat × List Byte)
  | 0, _, _ => []
  | fuel + 1, pa, bs =>
    if bs.isEmpty then [] else (pa, bs.take (65536 - pa % 65536)) :: pageCuts fuel (pa + (65536 - pa % 65536)) (bs.drop (65536 - pa % 65536))

/-- Some replica of the range is held in a lock table, migrates, or is watched with intent (R169, R232, R248). -/
def fwBlocked (s : State) (w : FwWrite) : Bool :=
  let n := w.bytes.length
  (twins s w.pa).any fun p => lockHit s.mem p n || (migHit s.mem p n).isSome || intentHolds s none (.hbm p false) n
    || queuedBefore s w.num (.hbm p false) n

/-- What a waiting write leaves of the bytes `bs` at `pa`. -/
def FwWrite.over (w : FwWrite) (pa : Nat) (bs : List Byte) : List Byte :=
  let new := if w.add then bytesOfNat 4 (fieldOf bs (w.pa - pa) 4 + natOfBytes w.bytes) else w.bytes
  bs.zipIdx.map fun b => if decide (w.pa ≤ pa + b.2) && decide (pa + b.2 < w.pa + new.length) then new.getD (pa + b.2 - w.pa) b.1 else b.1

/-- Bytes at `pa`, cut to what may be written there now (R35). -/
def writable (s : State) (pa : Nat) (bs : List Byte) : List (Nat × List Byte) :=
  if codeHit s pa bs.length then freeRuns s pa bs else [(pa, bs)]

/-- A write of a launch processor or of firmware performs at its home, with its probes (R243, R357, R361); a byte of a code range of a
launch that is open by then is discarded (R35, R175). -/
def fwPerform (s : State) (w : FwWrite) : State :=
  let bs := if w.add then w.over w.pa (physRead s.mem w.gen w.pa w.bytes.length) else w.bytes
  ((twins s w.pa).flatMap fun p => writable s p bs).foldl (fun s r =>
    probe { s with mem := homeStore s.mem w.gen r.1 r.2 } none (.hbm r.1 false) r.2.length) s

/-- One write: it performs, or waits behind the writes that wait already (log 64). -/
def fwSend (s : State) (w : FwWrite) : State :=
  if s.mem.fwq.isEmpty && !fwBlocked s w then fwPerform s w
  else { s with fresh := s.fresh + 1, mem := { s.mem with fwq := s.mem.fwq ++ [w] } }

/-- A write of a launch processor or of firmware: outside HBM, and in the code range of an open launch (R35), nothing is written. -/
def fwStore (s : State) (gen pa : Nat) (bs : List Byte) : State :=
  if inHbm pa bs.length then
    ((writable s pa bs).flatMap fun r => pageCuts (r.2.length / 65536 + 2) r.1 r.2).foldl (fun s r =>
      fwSend s ⟨s.fresh, gen, s.mem.live r.1, false, r.2⟩) s
  else s

/-- The first waiting write performs. -/
def fwStep (s : State) : State :=
  match s.mem.fwq with
  | [] => s
  | w :: r => if fwBlocked s w then s else fwPerform { s with mem := { s.mem with fwq := r } } w

/-- An atomic addition of a launch processor to a word. -/
def fwAdd (s : State) (gen pa n : Nat) : State :=
  if inHbm pa 4 && !codeHit s pa 4 then fwSend s ⟨s.fresh, gen, s.mem.live pa, true, bytesOfNat 4 n⟩ else s

/-- What a launch processor reads: memory, under its own waiting writes. -/
def fwRead (s : State) (gen pa n : Nat) : List Byte :=
  s.mem.fwq.foldl (fun bs w => w.over (s.mem.live pa) bs) (physRead s.mem gen (s.mem.live pa) n)

/-- R169: a read of a launch processor waits while a range-lock entry covers a part of it. -/
def fwMayRead (s : State) (pa n : Nat) : Bool := !lockHit s.mem (s.mem.live pa) n

/-- R219, R357: the slice of `die` takes copies of the sectors that a launch processor there reads. -/
def fwTouch (s : State) (die gen pa n : Nat) : State :=
  { s with mem := (unitsOf 64 (s.mem.live pa) n).foldl (fun m u => llcRead m die (64 * u) gen) s.mem }

/-- R342: the launch's fault record, as state and in the fault area. -/
def writeLaunchFault (s : State) (l : Launch) : State :=
  fwStore (setLaunch s l) ((genOf s l.keyId).getD 0) l.faults
    (bytesOfNat 4 l.asyncN ++ bytesOfNat 1 l.asyncErr ++ bytesOfNat 1 l.asyncSlot ++ bytesOfNat 1 l.asyncPos ++ bytesOfNat 1 0
      ++ bytesOfD l.asyncReq ++ bytesOfNat 4 l.asyncClus ++ bytesOfNat 4 l.asyncTeam ++ List.replicate 40 0)

/-- R342: a failure in the team's fault record, or in the launch's. -/
def recordFail (s : State) (c : Cid) (team code slot pos : Nat) (req : DWord) : State :=
  let s := if code = 6 then countUe s else s
  match findTeam s c team with
  | some t =>
    if t.retired then launchFail s
    else setTeam s c team (if t.asyncN = 0 then { t with asyncN := 1, asyncErr := code, asyncSlot := slot, asyncPos := pos, asyncReq := req }
                           else { t with asyncN := t.asyncN + 1 })
  | none => launchFail s
where
  launchFail (s : State) : State :=
    match findLaunch s c.lid with
    | none => s
    | some l =>
      let first : Launch :=
        { l with asyncN := 1, asyncErr := code, asyncSlot := slot, asyncPos := pos, asyncReq := req, asyncClus := c.clus,
                 asyncTeam := team }
      writeLaunchFault s (if l.asyncN = 0 then first else { l with asyncN := l.asyncN + 1 })

/-- One read-modify-write of a barrier object by an engine; an uncorrectable object answers none. -/
def barUpdate (s : State) (c : Cid) (slot off : Nat) (f : BarObj → BarObj) : Option State :=
  match findSlot s c slot with
  | none => some s
  | some v =>
    if v.badHit off 16 false then none
    else
      let bs := (f (barOf (Mem.load v.bytes off 16))).bytes
      some (probe (setSlot s c slot (v.write off bs)) none (.spad c slot off) 16)

/-- A barrier update waits for a refill of its page (R208), for a watch with intent on the object, and behind the writes held there
(R248). -/
def barWaits (s : State) (o : CopyOp) : Bool :=
  let off := o.plan.bar % 0x100000
  o.plan.hasBar && o.plan.barSlots.any fun i => (match findSlot s o.cid i with
    | none => false
    | some v => v.isUnpinned off 16 || intentHolds s none (.spad o.cid i off) 16 || queuedBefore s s.fresh (.spad o.cid i off) 16)

/-- The update in each barrier slot of a plan; a failing update is only recorded (R295). -/
def barUpdates (s : State) (o : CopyOp) (f : BarObj → BarObj) : State :=
  if o.plan.hasBar then
    o.plan.barSlots.foldl (fun s i => (barUpdate s o.cid i (o.plan.bar % 0x100000) f).getD
      (recordFail s o.cid o.team 6 o.slot o.pos o.reqAddr)) s
  else s

/-! ## Sources -/

/-- Physical address and mirror mark of a global byte of an operation. -/
def segFind (segs : List CopySeg) (va : Nat) : Option (Nat × Bool) :=
  (segs.find? fun g => decide (g.va ≤ va) && decide (va < g.va + g.len)).map fun g => (g.pa + (va - g.va), g.mir)

/-- Slot and offset of a scratchpad address as the engine of slot `own` reads it. -/
def srcSlot (o : CopyOp) (a : Nat) : Nat × Nat := (spadSlot o.slot a, spadOff a)

def rawByte (s : State) (core : Nat) (o : CopyOp) (a : Nat) : Byte :=
  if o.plan.dir = 2 then
    match findSlot s o.cid (srcSlot o a).1 with
    | none => 0
    | some v => Mem.get v.bytes (srcSlot o a).2
  else
    match segFind o.segs a with
    | none => 0
    | some (pa, mir) => physByte s.mem (o.gen s) (replica pa mir (core / 336))

def rawBytes (s : State) (core : Nat) (o : CopyOp) (a n : Nat) : List Byte :=
  (List.range n).map fun i => rawByte s core o (a + i)

/-- Block `k` of a compressed source; none for a DECODE error. -/
def compBlock (s : State) (core : Nat) (o : CopyOp) (k : Nat) : Option (List Byte) :=
  let p := o.plan
  let ix := (rawByte s core o (p.base + k)).toNat
  match payloadLen ix with
  | none => none
  | some n => decodeBlock ix (rawBytes s core o (p.base + p.payload k) n)

/-- Bytes of the tensor's content from BASE + `a`. -/
def tensorRead (s : State) (core : Nat) (o : CopyOp) (a n : Nat) : List Byte :=
  let p := o.plan
  if p.comp then
    (List.range n).map fun i =>
      match compBlock s core o ((a + i) / 2048) with
      | none => (Config.freeWord (a + i)).truncate 8
      | some bs => bs.getD ((a + i) % 2048) 0
  else rawBytes s core o (p.base + a) n

/-- Word `i` of the scale array, its byte SBSEL. -/
def scaleByte (s : State) (o : CopyOp) (i : Nat) : Nat :=
  let p := o.plan
  match findSlot s o.cid (p.scale / 0x100000) with
  | none => 0
  | some v => (Mem.get v.bytes (p.scale % 0x100000 + 4 * i + p.sbsel)).toNat

/-- Ranges of the tensor's side that elements `k0` to `k1 − 1` read (R345). -/
def readRanges (s : State) (core : Nat) (o : CopyOp) (k0 k1 : Nat) : List (Nat × Nat) :=
  let p := o.plan
  let sp := ((rangeFrom k0 (k1 - k0)).filterMap p.coord).map p.span
  if p.comp then
    ((sp.map fun r => unitsOf 2048 r.1 r.2).flatten.map fun k =>
      [(p.base + k, 1), (p.base + p.payload k, (payloadLen (rawByte s core o (p.base + k)).toNat).getD 0)]).flatten
  else sp.map fun r => (p.base + r.1, r.2)

/-- An uncorrectable word lies in a source of elements `k0` to `k1 − 1`. -/
def stepBad (s : State) (core : Nat) (o : CopyOp) (k0 k1 : Nat) : Bool :=
  let p := o.plan
  let spadBad (slot off n : Nat) : Bool := match findSlot s o.cid slot with
    | none => false
    | some v => v.badHit off n false
  if p.dir = 1 then spadBad (p.spad / 0x100000) (p.spad % 0x100000 + k0 * p.spadBits / 8) ((k1 - k0) * p.spadBits / 8)
  else
    ((readRanges s core o k0 k1).any fun r =>
      if p.dir = 2 then spadBad (srcSlot o r.1).1 (srcSlot o r.1).2 r.2
      else (unitsOf 32 r.1 r.2).any fun u =>
        match segFind o.segs (Nat.max r.1 (32 * u)) with
        | none => false
        | some (pa, mir) => badHit s.mem (replica pa mir (core / 336)) 1 false)
    || (p.xop == 5 && (rangeFrom k0 (k1 - k0)).any fun k =>
        spadBad (p.scale / 0x100000) (p.scale % 0x100000 + 4 * p.scaleIx k) 4)

/-- A compressed block that elements `k0` to `k1 − 1` touch breaks R289. -/
def stepUndecodable (s : State) (core : Nat) (o : CopyOp) (k0 k1 : Nat) : Bool :=
  let p := o.plan
  p.comp && p.dir != 1 && (((rangeFrom k0 (k1 - k0)).filterMap p.coord).map p.span).any fun r =>
    (unitsOf 2048 r.1 r.2).any fun k => (compBlock s core o k).isNone

/-! ## What the elements write -/

/-- Bytes that elements below `k` fill on the scratchpad side. -/
def CopyPlan.filled (p : CopyPlan) (k : Nat) : Nat := if k = p.count then p.spadBytes else k * p.spadBits / 8

/-- Codes of the scratchpad source of DIR 1. -/
def spadElem (s : State) (o : CopyOp) (k : Nat) : Nat :=
  let p := o.plan
  match findSlot s o.cid (p.spad / 0x100000) with
  | none => 0
  | some v =>
    let bit := k * p.spadBits
    natOfBytes (Mem.load v.bytes (p.spad % 0x100000 + bit / 8) ((bit % 8 + p.spadBits + 7) / 8)) / 2 ^ (bit % 8) % 2 ^ p.spadBits

/-- Scratchpad bytes of DIR 0 and 2: slot, offset and bytes; scales before elements (R287). -/
def spadOut (s : State) (core : Nat) (o : CopyOp) (k0 k1 : Nat) : List (Nat × Nat × List Byte) :=
  let p := o.plan
  let src := p.srcElem (tensorRead s core o)
  let b0 := p.filled k0
  let b1 := p.filled k1
  let first := 8 * b0 / p.spadBits
  let last := Nat.min p.count ((8 * b1 + p.spadBits - 1) / p.spadBits)
  let bs := packRun p.spadBits (p.result src (scaleByte s o) o.ph.toNat) first last b0 b1
  let scales := if p.xop = 4 && p.mx then
      ((rangeFrom k0 (k1 - k0)).filter fun k => p.inBlock k == 0).map fun k =>
        (p.scale / 0x100000, p.scale % 0x100000 + 4 * p.scaleIx k + p.sbsel, bytesOfNat 1 (p.quant src o.ph.toNat k).1)
    else []
  scales ++ p.slots.map fun i => (i, p.spad % 0x100000 + b0, bs)

/-- The bytes of the run of L from `a` that transform 6 compresses. -/
def compSource (s : State) (o : CopyOp) (a n : Nat) : List Byte :=
  let p := o.plan
  let els := ((List.range p.count).filter fun k => (p.coord k).isSome).map (spadElem s o)
  (bytesOfNat n (packN p.spadBits els)) ++ List.replicate (2048 - (a + n) % 2048) 0

/-- Compressed blocks as writes: index byte, then payload. -/
def compOut (p : CopyPlan) : Nat → Nat → List Byte → List (Nat × List Byte)
  | 0, _, _ => []
  | fuel + 1, k, bs =>
    let e := encodeBlock (bs.take 2048)
    (p.base + k, bytesOfNat 1 e.1) :: (p.base + p.payload k, e.2) :: compOut p fuel (k + 1) (bs.drop 2048)

/-- Global bytes of DIR 1: address and bytes. Transform 6 writes with the last row. -/
def globalOut (s : State) (o : CopyOp) (k0 k1 : Nat) : List (Nat × List Byte) :=
  let p := o.plan
  if p.xop = 6 then
    if k1 = p.count then
      match p.compRun with
      | none => []
      | some r => compOut p ((r.2 + 2047) / 2048) (r.1 / 2048) (compSource s o r.1 r.2)
    else []
  else
    let ins := (rangeFrom k0 (k1 - k0)).filterMap fun k => (p.coord k).map fun c => (k, c)
    match ins with
    | [] => []
    | x :: _ =>
      let w := etBits p.etype
      let f (k : Nat) : Nat := if p.xop = 3 then p.result (spadElem s o) (fun _ => 0) o.ph.toNat k else spadElem s o k
      [(p.base + (p.place x.2).1, bytesOfNat (ins.length * w / 8) (packN w (ins.map fun y => f y.1)))]

/-- A global write of an engine operation, at the home die's slice (R357); a mirror page has both replicas written (R361). -/
def engStore (s : State) (gen : Nat) (segs : List CopySeg) (w : Nat × List Byte) : State :=
  segs.foldl (fun s g =>
    let lo := Nat.max w.1 g.va
    let hi := Nat.min (w.1 + w.2.length) (g.va + g.len)
    if lo < hi then
      let bs := (w.2.drop (lo - w.1)).take (hi - lo)
      let pa := g.pa + (lo - g.va)
      let m := homeStore s.mem gen pa bs
      { s with mem := if g.mir then homeStore m gen (mirrorOf pa) bs else m }
    else s) s

def spadStore (s : State) (c : Cid) (w : Nat × Nat × List Byte) : State :=
  match findSlot s c w.1 with
  | none => s
  | some v => setSlot s c w.1 (v.write w.2.1 w.2.2)

/-- Scale word `i` has been written once every element below `k` has landed. -/
def CopyPlan.scaleLanded (p : CopyPlan) (k i : Nat) : Bool :=
  if p.qaxis then decide ((i / p.row + 1) * (32 * p.row) ≤ k) else decide ((i % p.rows + 1) * p.row ≤ k)

/-- Absent sectors of one slot after every element below `k` has landed (R203). -/
def stillAbsent (p : CopyPlan) (slot k : Nat) (v : Slot) : Slot :=
  let off := p.spad % 0x100000
  let so := p.scale % 0x100000
  let done := if p.slots.contains slot then
      (unitsOf 32 off (p.filled k)).filter fun u => decide (Nat.min (32 * u + 32) (off + p.spadBytes) ≤ off + p.filled k)
    else []
  let doneS := if p.xop = 4 && p.mx && p.scale / 0x100000 = slot then
      (unitsOf 32 so (4 * p.scaleWords)).filter fun u =>
        (unitsOf 4 (32 * u) 32).all fun w =>
          decide (4 * w < so) || decide (so + 4 * p.scaleWords ≤ 4 * w) || p.scaleLanded k ((4 * w - so) / 4)
    else []
  { v with absent := v.absent.filter fun u => !done.contains u && !doneS.contains u }

/-- Presence of the operation's destinations after every element below `k` has landed. -/
def presence (s : State) (o : CopyOp) (k : Nat) : State :=
  let p := o.plan
  if p.dir = 1 then s
  else
    match findCluster s o.cid with
    | none => s
    | some c => setCluster s { c with slots := (List.range c.slots.length).zipWith (fun i v => stillAbsent p i k v) c.slots }

/-! ## The launch point -/

/-- What the launch point of a request answers. -/
inductive Launching
  /-- it waits, for a page or not; at the lock tables of these dies -/
  | wait (fault : Bool) (dies : List Nat)
  | fail (code : Nat)
  | go (o : CopyOp) (locks : List RLock)
  deriving DecidableEq, Repr

/-- A scratchpad record of 64 bytes: none to wait, error on an uncorrectable word. -/
def readRec (s : State) (c : Cid) (slot off : Nat) : Except Nat (Option (List Byte)) :=
  match findSlot s c slot with
  | none => .error 2
  | some v =>
    if v.isUnpinned off 64 || v.isAbsent off 64 then .ok none
    else if v.badHit off 64 false then .error 6
    else .ok (some (Mem.load v.bytes off 64))

/-- R295: `n` bytes lie in a slot of the cluster. -/
def inSlot (s : State) (c : Cid) (slot off n : Nat) : Bool :=
  match findSlot s c slot with
  | none => false
  | some v => decide (off + n ≤ v.size)

def barsOk (s : State) (o : CopyOp) : Bool :=
  let p := o.plan
  !p.hasBar || p.barSlots.all fun i => inSlot s o.cid i (p.bar % 0x100000) 16

/-- Code SPAD (R295). -/
def spadRangesOk (s : State) (o : CopyOp) : Bool :=
  let p := o.plan
  (p.slots.all fun i => inSlot s o.cid i (p.spad % 0x100000) p.spadBytes) && barsOk s o
    && (p.scaleWords == 0 || inSlot s o.cid (p.scale / 0x100000) (p.scale % 0x100000) (4 * p.scaleWords))
    && (p.dir != 2 || p.ranges.all fun r => spadOk s o.cid o.slot r.1 r.2)

/-- Translation of a range in pieces of 64 KiB: codes of the traps met, and the pieces joined (R296). -/
def copySegs (s : State) (core : Nat) (x : Xctx) (t : AccT) : Nat → Nat → Nat → List Nat × List CopySeg
  | 0, _, _ => ([], [])
  | fuel + 1, va, len =>
    if len = 0 then ([], [])
    else
      let k := Nat.min len (65536 - va % 65536)
      let r := copySegs s core x t fuel (va + k) (len - k)
      if 2 ^ 56 ≤ va then (cProt :: r.1, r.2)
      else
        match xlateEng s core x va t with
        | .error c => (c :: r.1, r.2)
        | .ok (pa, mir) => (r.1, joinSeg ⟨va, pa, k, mir⟩ r.2)
where
  joinSeg (a : CopySeg) : List CopySeg → List CopySeg
    | [] => [a]
    | b :: l => if a.va + a.len = b.va && a.pa + a.len == b.pa && a.mir == b.mir && homeDie a.pa == homeDie b.pa
        then { a with len := a.len + b.len } :: l else a :: b :: l

/-- R219, R228: the LLC after the walks of an engine's ranges. -/
def rangesWalked (s : State) (core : Nat) (x : Xctx) (rs : List (Nat × Nat)) : State :=
  (rs.flatMap fun r => (unitsOf 65536 r.1 r.2).map fun u => Nat.max r.1 (65536 * u)).foldl (fun s va => walked s 1 core x va) s

/-- R296: the entries of a piece; a mirror page's source is the core's own replica, its destination both. -/
def segLocks (core pos : Nat) (dest : Bool) (g : CopySeg) : List RLock :=
  let e (pa : Nat) : RLock := ⟨.copy core pos, homeDie pa, pa / 64 * 64, (pa + g.len + 63) / 64 * 64, dest⟩
  if !g.mir then [e g.pa] else if dest then [e g.pa, e (mirrorOf g.pa)] else [e (replica g.pa true (core / 336))]

/-- Number of entries on a die. -/
def onDie (l : List RLock) (d : Nat) : Nat := (l.filter fun k => k.die == d).length

/-- Scratchpad destinations of an operation: slot, offset and length (R299). -/
def CopyPlan.spadDests (p : CopyPlan) : List (Nat × Nat × Nat) :=
  (if p.dir = 1 then [] else p.slots.map fun i => (i, p.spad % 0x100000, p.spadBytes))
    ++ (if p.xop = 4 && p.mx then [(p.scale / 0x100000, p.scale % 0x100000, 4 * p.scaleWords)] else [])

/-- R310: the range meets a scratchpad destination of an operation of the cluster in flight on any engine. -/
def destInFlight (s : State) (c : Cid) (slot off n : Nat) : Bool :=
  s.cores.any fun k => k.2.eng.any fun x => x.cid == c && x.plan.spadDests.any fun d => rangesMeet slot off n d.1 d.2.1 d.2.2

/-- R248: a watch with intent holds the write of a locked range. -/
def lockIntent (s : State) (l : RLock) : Bool := l.dest && intentHolds s none (.hbm l.lo false) (l.hi - l.lo)

/-- R298, R310: something of the engine operations in flight makes this one wait. -/
def launchBlocked (s : State) (core : Nat) (o : CopyOp) (locks : List RLock) : Bool :=
  let p := o.plan
  let busy (slot off n : Nat) (dest : Bool) : Bool := match findSlot s o.cid slot with
    | none => false
    | some v => v.isUnpinned off n || v.isAbsent off n
        || (dest && (spadHeld s o.cid slot off n || destInFlight s o.cid slot off n || intentHolds s none (.spad o.cid slot off) n))
  decide (16 ≤ (getCore s core).eng.length)
    || locks.any (fun l => lockConflict s.mem l.lo l.hi l.dest || (migHit s.mem l.lo (l.hi - l.lo)).isSome || lockIntent s l)
    || decide (Config.lockEntries < onDie s.mem.locks 0 + onDie locks 0)
    || decide (Config.lockEntries < onDie s.mem.locks 1 + onDie locks 1)
    || p.slots.any (fun i => busy i (p.spad % 0x100000) p.spadBytes (p.dir != 1))
    || (p.scaleWords != 0 && busy (p.scale / 0x100000) (p.scale % 0x100000) (4 * p.scaleWords) (p.xop == 4))
    || (p.dir == 2 && p.ranges.any fun r => busy (srcSlot o r.1).1 (srcSlot o r.1).2 r.2 false)
    || (p.hasBar && p.barSlots.any fun i => match findSlot s o.cid i with
        | none => false
        | some v => v.isUnpinned (p.bar % 0x100000) 16)

/-- R298, R387: a copy operation, or a collective, that began to wait before number `n` still waits at a table of one of these dies. The
number and the dies stand in `Access.awaited` and in `CollOp.arrived`. -/
def waitsEarlier (s : State) (n : Nat) (dies : List Nat) : Bool :=
  let before (l : List Nat) : Bool := match l with
    | [] => false
    | m :: ds => decide (m < n) && dies.any ds.contains
  (threads s).any (fun t => match t.accs with
    | [] => false
    | b :: _ => (match b.kind with
      | .copy _ => before b.awaited
      | _ => false))
    || (s.coll0.ops ++ s.coll1.ops).any fun o => o.st == 0 && o.err == 0 && before o.arrived

/-- R298: the operation is behind another at the lock tables. R248: or behind a write held on its destination. -/
def behindOther (s : State) (arrived : List Nat) (locks : List RLock) : Bool :=
  let n := match arrived with
    | [] => s.fresh
    | m :: _ => m
  locks.any (fun l => l.dest && queuedBefore s n (.hbm l.lo false) (l.hi - l.lo)) || waitsEarlier s n (locks.map (·.die))

/-- Scratchpad ranges held against writes (R299). -/
def holdsOf (o : CopyOp) : List (Nat × Nat × Nat) :=
  let p := o.plan
  (if p.dir = 1 then [(p.spad / 0x100000, p.spad % 0x100000, p.spadBytes)] else [])
    ++ (if p.dir = 2 then p.ranges.map fun r => ((srcSlot o r.1).1, (srcSlot o r.1).2, r.2) else [])
    ++ (if p.xop = 5 then [(p.scale / 0x100000, p.scale % 0x100000, 4 * p.scaleWords)] else [])

/-- The lowest free position of an engine. -/
def freePos (c : Core) : Nat := ((List.range 16).find? fun i => !(c.eng.any fun o => o.pos == i)).getD 0

/-- The operation of a request of the focus thread, before its checks. -/
def mkOp (s : State) (r : CopyReq) (req lay : List Byte) : CopyOp :=
  let t := s.th
  { pos := freePos (getCore s t.place.core), state := 1, fail := false, err := 0, slot := t.place.slot, cid := t.cid,
    team := t.id.team, tid := t.id.tid, dc := r.dc, ctx := t.place.ctx, keyId := t.place.keyId, req := req, lay := lay,
    ph := r.ph, dth := r.dth, group := r.group, size := r.size, born := s.fresh, next := 0, cnt := 0, reqAddr := r.ea, uncounted := 0, holds := [], segs := [] }

/-- The checks of an operation whose records are read, in the order of R295, and its launch. -/
def judgeOp (s : State) (a : Access) (o : CopyOp) : Launching :=
  let p := o.plan
  let core := s.th.place.core
  if !reqOk o.req p o.dth || !layOk o.lay p || p.overlaps o.slot || (p.xop == 6 && p.compRun.isNone) then .fail 1
  else if !spadRangesOk s o then .fail 2
  else
    let t : AccT := if p.dir = 1 then .wr else .rd
    let parts := if p.dir = 2 then [] else p.ranges.map fun r => copySegs s core s.th.place.xctx t (r.2 / 65536 + 2) r.1 r.2
    let codes := (parts.map (·.1)).flatten
    let segs := (parts.map (·.2)).flatten
    let locks := (segs.map (segLocks core o.pos (p.dir == 1))).flatten
    let lost := codes.any (fun c => c == cPageFault || c == cTableFault)
    if codes.contains cTableFar || (lost && a.failed.isSome) then .fail 3
    else if codes.contains cProt || (p.dir == 1 && segs.any fun g => (replicas g.pa g.mir).any fun q => codeHit s q g.len) then .fail 4
    else if !segs.isEmpty && (genOf s o.keyId).isNone then .fail 5
    else if codes.contains cEccFatal then .fail 6
    else if lost then .wait true []
    else if 256 < onDie locks 0 || 256 < onDie locks 1 then .fail 9
    else if launchBlocked s core { o with segs := segs } locks || behindOther s a.awaited locks then .wait false (locks.map (·.die))
    else .go { o with segs := segs, holds := holdsOf o } locks

/-- The layout record that a request names, where its name keeps its limits: none to wait, error for one that cannot be read. -/
def readLayout (s : State) (c : Cid) (p : CopyPlan) : Except Nat (Option (List Byte)) :=
  if decide (0x1000000 ≤ p.lrec) || p.lrec % 64 != 0 then .error 1
  else if !inSlot s c (p.lrec / 0x100000) (p.lrec % 0x100000) 64 then .error 2
  else readRec s c (p.lrec / 0x100000) (p.lrec % 0x100000)

/-- The records of a request are read; then it is judged (R278, R306). A record that cannot be read stands as no bytes. -/
def launching (s : State) (a : Access) (r : CopyReq) : Launching × CopyOp :=
  match resolveSpad s r.ea 64 64 with
  | .ok (.spad c i off) =>
    (match readRec s c i off with
     | .error e => (.fail e, mkOp s r [] [])
     | .ok none => (.wait false [], mkOp s r [] [])
     | .ok (some req) =>
       let p := planOf req []
       match readLayout s c p with
       | .ok none => (.wait false [], mkOp s r req [])
       | .error e => (.fail (if reqOk req p r.dth then e else 1), mkOp s r req [])
       | .ok (some lay) => (if reqOk req p r.dth then judgeOp s a (mkOp s r req lay) else .fail 1, mkOp s r req lay))
  | _ => (.fail 2, mkOp s r [] [])

/-- R283, R308: bits of the scratchpad-side element, if the fields that give it are in their limits. -/
def CopyPlan.spadWidth (p : CopyPlan) (lay : List Byte) : Option Nat :=
  if p.dir = 3 || 6 < p.xop then none
  else if p.xop = 2 || p.xop = 3 then some p.spadBits
  else if p.xop = 4 then (if (3 ≤ p.qf && p.qf ≤ 6) || (12 ≤ p.qf && p.qf ≤ 14) then some p.spadBits else none)
  else if p.xop = 5 then (if p.qf ≤ 1 then some p.spadBits else none)
  else if lay.length = 64 && fieldOf lay 9 1 < 16 && etBits p.etype != 0 then some p.spadBits
  else none

/-- R278, R280, R287: the box itself is in its limits. -/
def CopyPlan.boxOk (p : CopyPlan) : Bool :=
  p.box.all (fun b => b != 0) && p.box.getD 0 0 % etMul p.etype == 0
    && (!p.mx || (if p.qaxis then p.box.getD 1 0 else p.box.getD 0 0) % 32 == 0)

/-- R308: the bytes that a failed operation would have counted, if the fields that the product needs are in their limits. -/
def CopyPlan.wouldCount (p : CopyPlan) (req lay : List Byte) : Option Nat :=
  if req.length = 64 && p.boxOk then (p.spadWidth lay).map fun w => (p.count * w + 7) / 8 else none

/-- R295: the operation names a barrier object in its limits and its allocation. -/
def barNamed (s : State) (o : CopyOp) : Bool :=
  let p := o.plan
  p.bar % 0x80000000 < 0x1000000 && p.bar % 16 == 0 && barsOk s o && (p.dmask == 0 || p.bar % 0x80000000 / 0x100000 == 0)

/-- The walks of an operation's translation (R219, R296). -/
def opWalked (s : State) (core : Nat) (o : CopyOp) : State :=
  if o.plan.dir = 2 || o.lay.isEmpty then s else rangesWalked s core s.th.place.xctx o.plan.ranges

/-- R295, R308: a failure before the launch point. A barrier whose name breaks its limits or its allocation is not touched. -/
def failEarly (s : State) (o : CopyOp) (code : Nat) : State :=
  let s0 := if code = 1 || code = 2 then s else opWalked s s.th.place.core o
  let s1 := if barNamed s0 o then barUpdates s0 o fun b => b.failCount code o.slot (o.plan.wouldCount o.req o.lay) else s0
  let s2 := recordFail { s1 with fresh := s1.fresh + 1 } o.cid o.team code o.slot ((Config.freeWord s1.fresh).toNat % 256) o.reqAddr
  copyDone (finishHead (modHead s2 fun a => { a with dc := 6 })) o.thread o.group o.dc

/-- R243: every watch on a destination of the operation has its notice. -/
def probeDest (s : State) (o : CopyOp) : State :=
  let p := o.plan
  if p.dir = 1 then
    let runs := if p.comp then p.ranges
      else (List.range p.rows).filterMap fun r =>
        (((rangeFrom (r * p.row) p.row).filterMap p.coord).map p.span).foldl (fun x y => match x with
          | none => some (p.base + y.1, y.2)
          | some z => some (z.1, p.base + y.1 + y.2 - z.1)) (none : Option (Nat × Nat))
    runs.foldl (fun s r => o.segs.foldl (fun s g =>
      let lo := Nat.max r.1 g.va
      let hi := Nat.min (r.1 + r.2) (g.va + g.len)
      if lo < hi then
        let pa := g.pa + (lo - g.va)
        let s1 := probe s none (.hbm pa g.mir) (hi - lo)
        if g.mir then probe s1 none (.hbm (mirrorOf pa) true) (hi - lo) else s1
      else s) s) s
  else
    let s1 := p.slots.foldl (fun s i => probe s none (.spad o.cid i (p.spad % 0x100000)) p.spadBytes) s
    if p.xop = 4 && p.mx then
      probe s1 none (.spad o.cid (p.scale / 0x100000) (p.scale % 0x100000)) (4 * p.scaleWords)
    else s1

/-- R299: the destinations' presence bits are cleared. -/
def clearDest (s : State) (o : CopyOp) : State :=
  let p := o.plan
  let clr (s : State) (slot off n : Nat) : State := match findSlot s o.cid slot with
    | none => s
    | some v => setSlot s o.cid slot (v.setAbsent off n)
  if p.dir = 1 then s
  else
    let s1 := p.slots.foldl (fun s i => clr s i (p.spad % 0x100000) p.spadBytes) s
    if p.xop = 4 && p.mx then clr s1 (p.scale / 0x100000) (p.scale % 0x100000) (4 * p.scaleWords) else s1

/-- The launch point itself (R169). -/
def launchOp (s : State) (core : Nat) (o : CopyOp) (locks : List RLock) : State :=
  let s1 := probeDest (clearDest (opWalked s core o) o) o
  let c := getCore s1 core
  let s2 := setCore { s1 with mem := { s1.mem with locks := s1.mem.locks ++ locks } } core { c with eng := c.eng ++ [o] }
  finishHead (modHead { s2 with fresh := s2.fresh + 1 } fun a => { a with dc := 6 })

/-- The oldest access of the focus thread, if it is a request at the head of the pending-launch queue. -/
def launchHead (s : State) : State :=
  match headAcc s with
  | none => s
  | some a =>
    match a.kind with
    | .copy r =>
      (match launching s a r with
       | (.wait fault dies, _) =>
         -- an operation takes its arrival number as it first waits at the tables (R298); a page fault asks for service
         if a.awaited.isEmpty && !dies.isEmpty then
           modHead { s with fresh := s.fresh + 1 } fun b => { b with awaited := s.fresh :: dies, parked := fault }
         else if a.parked == fault then s else modHead s fun b => { b with parked := fault }
       | (.fail code, o) => if barNamed s o && barWaits s o then s else failEarly s o code
       | (.go o locks, _) => launchOp s s.th.place.core o locks)
    | _ => s

/-- R169, R308. -/
def execCopyLaunchPoint (t : Tid) (s : State) : Out := .next (onThread s t launchHead)

/-! ## Transfer, count, completion, failure -/

/-- R300: an operation may move elements: it is one of four, in launch-point order. -/
def mayMove (c : Core) (o : CopyOp) : Bool :=
  o.state == 2 || (o.state == 1 && decide ((c.eng.filter fun x => x.state == 2).length < 4)
    && ((c.eng.takeWhile fun x => x.pos != o.pos).all fun x => x.state != 1))

/-- R357: the slice of the engine's die takes copies of the sectors that a step reads. -/
def readSectors (s : State) (core : Nat) (o : CopyOp) (k0 k1 : Nat) : State :=
  if o.plan.dir = 0 then
    ((readRanges s core o k0 k1).flatMap fun r => (unitsOf 64 r.1 r.2).map fun u => Nat.max r.1 (64 * u)).foldl (fun s a =>
      match segFind o.segs a with
      | none => s
      | some (pa, mir) => { s with mem := llcRead s.mem (core / 336) (sectorOf (replica pa mir (core / 336))) (o.gen s) }) s
  else s

/-- R345: a global write of an operation merges with an uncorrectable word. -/
def globalBad (s : State) (o : CopyOp) (w : Nat × List Byte) : Bool :=
  o.segs.any fun g =>
    let lo := Nat.max w.1 g.va
    let hi := Nat.min (w.1 + w.2.length) (g.va + g.len)
    decide (lo < hi) && (replicas (g.pa + (lo - g.va)) g.mir).any fun pa => badHit s.mem pa (hi - lo) true

/-- R345: so does a scratchpad write. -/
def spadWriteBad (s : State) (o : CopyOp) (w : Nat × Nat × List Byte) : Bool :=
  match findSlot s o.cid w.1 with
  | none => false
  | some v => v.badHit w.2.1 w.2.2.length true

/-- R293: bytes that may be counted once every element below `k` has landed: for a scratchpad destination those whose sectors' presence
bits are set. -/
def CopyPlan.countable (p : CopyPlan) (k : Nat) : Nat :=
  let n := p.filled k
  let off := p.spad % 0x100000
  if !p.hasBar then 0 else if p.dir = 1 || n == p.spadBytes then n else (off + n) / 32 * 32 - off

/-- R208: every page of the operation's scratchpad ranges is pinned; after a restore it waits for their refills. -/
def pagesIn (s : State) (o : CopyOp) : Bool :=
  let p := o.plan
  let pinned (slot off n : Nat) : Bool := match findSlot s o.cid slot with
    | none => true
    | some v => n == 0 || !v.isUnpinned off n
  p.slots.all (fun i => pinned i (p.spad % 0x100000) p.spadBytes)
    && pinned (p.scale / 0x100000) (p.scale % 0x100000) (4 * p.scaleWords)
    && (p.dir != 2 || p.ranges.all fun r => pinned (srcSlot o r.1).1 (srcSlot o r.1).2 r.2)
    && (!p.hasBar || p.barSlots.all fun i => pinned i (p.bar % 0x100000) 16)

/-- R302: one step of an operation. -/
def transferStep (s : State) (core : Nat) (o : CopyOp) : State :=
  let p := o.plan
  let k1 := Nat.min p.count (o.next + p.unit)
  let stop (code : Nat) : State := setOp s core { o with state := 2, fail := true, err := code }
  if stepBad s core o o.next k1 then stop 6
  else if stepUndecodable s core o o.next k1 then stop 7
  else
    let s0 := readSectors s core o o.next k1
    let go (s1 : State) : State :=
      setOp (presence s1 o k1) core { o with state := 2, next := k1, uncounted := p.countable k1 - o.cnt }
    if p.dir = 1 then
      let ws := globalOut s o o.next k1
      if ws.any (globalBad s o) then stop 6 else go (ws.foldl (fun s w => engStore s (o.gen s) o.segs w) s0)
    else
      let ws := spadOut s core o o.next k1
      if ws.any (spadWriteBad s o) then stop 6 else go (ws.foldl (fun s w => spadStore s o.cid w) s0)

/-- R282 to R290, R300, R302. -/
def execCopyTransferStep (core pos : Nat) (s : State) : Out :=
  match findOp s core pos with
  | none => .next s
  | some o => .next (if !o.fail && o.uncounted = 0 && o.next < o.plan.count && mayMove (getCore s core) o && pagesIn s o then transferStep s core o else s)

/-- NEXT as its register and a saved context show it: every element below it has landed and been counted (R302). -/
def CopyOp.nextSeen (o : CopyOp) : Nat :=
  let p := o.plan
  if !p.hasBar || o.cnt == p.spadBytes then o.next else Nat.min o.next (8 * o.cnt / p.spadBits / p.unit * p.unit)

/-- R292: a count to `n` bytes more completes the object's phase with bytes beyond those expected, and is the first error. -/
def BarObj.overrun (b : BarObj) (n : Nat) : Bool := b.arra == b.expa && decide (b.expb < landed (b.arrb + n)) && b.err == 0

/-- R295: code OVERRUN: the operation's count overruns a phase. DESIGN CHOICE (log 16). -/
def countOverruns (s : State) (o : CopyOp) : Bool :=
  let off := o.plan.bar % 0x100000
  o.plan.hasBar && o.plan.barSlots.any fun i => (match findSlot s o.cid i with
    | none => false
    | some v => !v.badHit off 16 false && (barOf (Mem.load v.bytes off 16)).overrun o.uncounted)

/-- R293. A count that overruns its phase fails the operation after its launch point (R292, R295). -/
def execEngineCountUpdate (core pos : Nat) (s : State) : Out :=
  match findOp s core pos with
  | none => .next s
  | some o =>
    let counted := { o with uncounted := 0, cnt := o.cnt + o.uncounted }
    .next (if o.uncounted = 0 || o.state = 3 || !pagesIn s o || barWaits s o then s
           else setOp (barUpdates s o fun b => b.count o.uncounted) core
             (if countOverruns s o && !o.fail then { counted with fail := true, err := 8 } else counted))

/-- The operation leaves its engine, with its locks and holds. -/
def removeOp (s : State) (core : Nat) (o : CopyOp) : State :=
  let s1 := { s with mem := { s.mem with locks := s.mem.locks.filter fun l => l.owner != .copy core o.pos } }
  copyDone (delOp s1 core o.pos) o.thread o.group o.dc

/-- R294, R296, R308. -/
def execCopyComplete (core pos : Nat) (s : State) : Out :=
  match findOp s core pos with
  | none => .next s
  | some o => .next (if !o.fail && o.next = o.plan.count && o.uncounted = 0 && o.state != 3 then removeOp s core o else s)

/-- The elements not yet landed, each byte old or new. -/
def landMixed (s : State) (core : Nat) (o : CopyOp) : State :=
  let p := o.plan
  if p.dir = 1 then
    (globalOut s o o.next p.count).foldl (fun s w =>
      engStore { s with fresh := s.fresh + w.2.length } (o.gen s) o.segs
        (w.1, mixBytes s.fresh (rawBytes s core o w.1 w.2.length) w.2)) s
  else
    (spadOut s core o o.next p.count).foldl (fun s w =>
      match findSlot s o.cid w.1 with
      | none => s
      | some v => spadStore { s with fresh := s.fresh + w.2.2.length } o.cid
          (w.1, w.2.1, mixBytes s.fresh (Mem.load v.bytes w.2.1 w.2.2.length) w.2.2)) s

/-- R170, R295, R308, R342: the failure found is reported. -/
def lateFail (s : State) (core : Nat) (o : CopyOp) : State :=
  let p := o.plan
  let s1 := presence (landMixed s core o) o p.count
  let s2 := barUpdates s1 o fun b => b.failCount o.err o.slot (some (p.spadBytes - o.cnt))
  removeOp (recordFail s2 o.cid o.team o.err o.slot o.pos o.reqAddr) core o

/-- R170. -/
def execCopyLateFail (core pos : Nat) (code : Byte) (s : State) : Out :=
  match findOp s core pos with
  | none => .next s
  | some o => .next (if o.fail && o.err = code.toNat && o.state != 3 && pagesIn s o && !barWaits s o then lateFail s core o else s)

end Sys2Proof.Machine
end

