-- ==== Sys2Proof/Machine/Hash.lean ====
section
/-! DEFINITION. SHA-512 and Ed25519 signatures, which R221 and R419 take from FIPS 180-4 and RFC 8032. -/

namespace Sys2Proof.Machine

/-! ## SHA-512 (FIPS 180-4) -/

/-- The greatest r' with r'^k ≤ n that differs from r below bit i. -/
def rootFrom (k n r : Nat) : Nat → Nat
  | 0 => r
  | i + 1 => if (r + 2 ^ i) ^ k ≤ n then rootFrom k n (r + 2 ^ i) i else rootFrom k n r i

def isPrime (n : Nat) : Bool := decide (2 ≤ n) && (List.range n).all fun d => decide (d < 2) || n % d != 0

/-- The first 80 primes. -/
def shaPrimes : List Nat := (List.range 410).filter isPrime

/-- First 64 bits of the fraction of the k-th root of p. -/
def rootFraction (k p : Nat) : Nat := rootFrom k (p * 2 ^ (64 * k)) 0 70 % 2 ^ 64

def shaConstants : List Nat := shaPrimes.map (rootFraction 3)
def shaStart : List Nat := (shaPrimes.take 8).map (rootFraction 2)

/-- Rotation of a 64-bit word to the right. -/
def rotr64 (k x : Nat) : Nat := x / 2 ^ k + x % 2 ^ k * 2 ^ (64 - k)

def xor3 (a b c : Nat) : Nat := Nat.xor a (Nat.xor b c)

/-- The 80 words of a block's schedule. -/
def shaSchedule (block : List Nat) : List Nat :=
  (List.range 64).foldl (fun w t =>
    let x := w.getD (t + 1) 0
    let y := w.getD (t + 14) 0
    w ++ [(xor3 (rotr64 19 y) (rotr64 61 y) (y / 2 ^ 6) + w.getD (t + 9) 0
      + xor3 (rotr64 1 x) (rotr64 8 x) (x / 2 ^ 7) + w.getD t 0) % 2 ^ 64]) block

/-- One round: the eight working variables a to h, with constant and word `kw` as their sum. -/
def shaRound (v : List Nat) (kw : Nat) : List Nat :=
  match v with
  | [a, b, c, d, e, f, g, h] =>
    let ch := Nat.xor (Nat.land e f) (Nat.land (2 ^ 64 - 1 - e) g)
    let maj := xor3 (Nat.land a b) (Nat.land a c) (Nat.land b c)
    let t1 := h + xor3 (rotr64 14 e) (rotr64 18 e) (rotr64 41 e) + ch + kw
    let t2 := xor3 (rotr64 28 a) (rotr64 34 a) (rotr64 39 a) + maj
    [(t1 + t2) % 2 ^ 64, a, b, c, (d + t1) % 2 ^ 64, e, f, g]
  | _ => v

def shaBlock (hs block : List Nat) : List Nat :=
  let v := (shaConstants.zipWith (· + ·) (shaSchedule block)).foldl shaRound hs
  hs.zipWith (fun x y => (x + y) % 2 ^ 64) v

/-- `n` bytes of `x`, the highest first. -/
def bytesBig (n x : Nat) : List Byte := (bytesOfNat n x).reverse

/-- The padded message. -/
def shaPad (bs : List Byte) : List Byte :=
  bs ++ 0x80 :: (List.replicate ((239 - bs.length % 128) % 128) 0 ++ bytesBig 16 (8 * bs.length))

/-- The words of block `i`. -/
def shaWords (bs : List Byte) (i : Nat) : List Nat :=
  (List.range 16).map fun k => natOfBytes ((bs.drop (128 * i + 8 * k)).take 8).reverse

def sha512 (bs : List Byte) : List Byte :=
  let p := shaPad bs
  ((List.range (p.length / 128)).foldl (fun h i => shaBlock h (shaWords p i)) shaStart).flatMap (bytesBig 8)

/-! ## Ed25519 (RFC 8032) -/

def edP : Nat := 2 ^ 255 - 19
/-- Order of the base point. -/
def edL : Nat := 2 ^ 252 + 27742317777372353535851937790883648493

/-- b^e modulo p, for e of at most `n` bits. -/
def powModP : Nat → Nat → Nat → Nat
  | 0, _, _ => 1
  | n + 1, b, e => (if e % 2 = 1 then b else 1) * powModP n (b * b % edP) (e / 2) % edP

def invP (a : Nat) : Nat := powModP 255 a (edP - 2)

/-- The curve's constant −121665 / 121666. -/
def edD : Nat := (edP - 121665) * invP 121666 % edP

/-- A point in extended coordinates. -/
structure EdPoint where
  x : Nat
  y : Nat
  z : Nat
  t : Nat
  deriving DecidableEq, Repr

def edZero : EdPoint := ⟨0, 1, 1, 0⟩

def edBase : EdPoint :=
  let x := 15112221349535400772501151409588531511454012693041857206046113283949847762202
  let y := 46316835694926478169428394003475163141307993866256225615783033603165251855960
  ⟨x, y, 1, x * y % edP⟩

def edAdd (p q : EdPoint) : EdPoint :=
  let sub (a b : Nat) : Nat := (a + edP - b) % edP
  let a := sub p.y p.x * sub q.y q.x % edP
  let b := (p.y + p.x) * (q.y + q.x) % edP
  let c := p.t * 2 * edD * q.t % edP
  let d := p.z * 2 * q.z % edP
  let e := sub b a
  let f := sub d c
  let g := (d + c) % edP
  let h := (b + a) % edP
  ⟨e * f % edP, g * h % edP, f * g % edP, e * h % edP⟩

/-- k times a point, for k of at most `n` bits. -/
def edMul : Nat → Nat → EdPoint → EdPoint
  | 0, _, _ => edZero
  | n + 1, k, p => let r := edMul n (k / 2) (edAdd p p); if k % 2 = 1 then edAdd r p else r

/-- y, and the parity of x in the top bit. -/
def edEncode (p : EdPoint) : List Byte :=
  let i := invP p.z
  bytesOfNat 32 (p.y * i % edP + p.x * i % edP % 2 * 2 ^ 255)

/-- The signature of a message under a private key of 32 bytes. -/
def edSign (key msg : List Byte) : List Byte :=
  let h := sha512 key
  let a := natOfBytes (h.take 32) % 2 ^ 254 / 8 * 8 + 2 ^ 254
  let pub := edEncode (edMul 256 a edBase)
  let r := natOfBytes (sha512 (h.drop 32 ++ msg)) % edL
  let rr := edEncode (edMul 256 r edBase)
  let k := natOfBytes (sha512 (rr ++ pub ++ msg)) % edL
  rr ++ bytesOfNat 32 ((r + k * a) % edL)

/-- The point that 32 bytes encode. -/
def edDecode (bs : List Byte) : Option EdPoint :=
  let n := natOfBytes (bs.take 32)
  let y := n % 2 ^ 255
  let u := (y * y + edP - 1) % edP
  let v := (edD * (y * y % edP) + 1) % edP
  let v3 := v * v % edP * v % edP
  let w := u * (v3 * v3 % edP * v % edP) % edP
  let r := u * v3 % edP * powModP 255 w ((edP - 5) / 8) % edP
  let q := v * (r * r % edP) % edP
  let x := if q = u then some r else if (q + u) % edP = 0 then some (r * powModP 255 2 ((edP - 1) / 4) % edP) else none
  match x with
  | none => none
  | some x =>
    let odd := n / 2 ^ 255 % 2
    if edP ≤ y || (x = 0 && odd = 1) then none
    else
      let z := if x % 2 = odd then x else edP - x
      some ⟨z, y, 1, z * y % edP⟩

/-- RFC 8032: the signature of a message is that of the key pair of a public key. -/
def edVerify (pub msg sig : List Byte) : Bool :=
  match edDecode pub with
  | none => false
  | some a =>
    let k := natOfBytes (sha512 (sig.take 32 ++ pub ++ msg)) % edL
    let n := natOfBytes (sig.drop 32)
    let neg : EdPoint := ⟨(edP - a.x) % edP, a.y, a.z, (edP - a.t) % edP⟩
    pub.length == 32 && sig.length == 64 && decide (n < edL)
      && edEncode (edAdd (edMul 256 n edBase) (edMul 256 k neg)) == sig.take 32

end Sys2Proof.Machine
end

