-- ==== Sys2Proof/Machine/Storage.lean ====
section
/-! DEFINITION. Events of memory and translation: page walks and invalidations (R228 to R231), LLC evictions (R357), key slots
(R217 to R221, R413), soft errors (R344 to R347) and scratchpad refills (R208). -/

namespace Sys2Proof.Machine

/-! ## TLBs (R230, R231) -/

/-- Entries that one TLB holds, by level. -/
def tlbSize (level : Nat) : Nat := if level = 0 then 32 else if level = 1 then 512 else 16384

/-- A leaf enters a TLB; beyond its size the oldest entry leaves. -/
def tlbPut (l : List TlbEntry) (e : TlbEntry) : List TlbEntry :=
  let mine (x : TlbEntry) : Bool := x.level == e.level && x.unit == e.unit
  let others := l.filter fun x => !(mine x && x.ctx == e.ctx && x.va / 2 ^ e.leaf.size == e.va / 2 ^ e.leaf.size
    && x.leaf.size == e.leaf.size)
  e :: (others.filter fun x => !mine x) ++ (others.filter mine).take (tlbSize e.level - 1)

/-- R228, R230: an entry that names a node is held by the walk unit of the stack that it lies in. -/
def nodePut (l : List NodeEntry) (e : NodeEntry) : List NodeEntry :=
  e :: l.filter fun x => !(x.unit == e.unit && x.ctx == e.ctx && x.shift == e.shift && x.va / 2 ^ e.shift == e.va / 2 ^ e.shift)

/-- The walk's reads: copies of its entries under other keys are retired (R219), and the units hold the nodes that they name. -/
def walkReads (s : State) (ctx root va : Nat) : State :=
  (walkPath s.xl s.mem (gen0 s) ctx va walkLevels root).foldl (fun s r =>
    let s1 := { s with mem := llcRetire s.mem (sectorOf r.2.2.1) (gen0 s) }
    if r.2.2.2 = 0 then s1
    else { s1 with xl := { s1.xl with nodes := nodePut s1.xl.nodes ⟨stackOf r.2.1, ctx, r.1, va, r.2.2.2⟩ } }) s

/-- R228, R230: a walk; its leaf enters the die's, the bay's and the core's TLB. -/
def execPageWalk (core lid va : Nat) (s : State) : Out :=
  match findLaunch s lid with
  | none => .next s
  | some l =>
    if l.hbase.toNat ≤ va && va < l.hlim.toNat then .next s
    else
      let s1 := walkReads s l.ctx l.root va
      match walk s l.ctx l.root va with
      | .error _ => .next s1
      | .ok leaf =>
        let e (level unit : Nat) : TlbEntry := { level := level, unit := unit, ctx := l.ctx, va := va, leaf := leaf }
        let l2 := tlbPut s1.xl.tlb (e 2 (core / 336))
        let l1 := tlbPut l2 (e 1 (core / 12))
        .next { s1 with xl := { s1.xl with tlb := tlbPut l1 (e 0 core) } }

/-- Fields of the invalidation control register that a write sets (R231). -/
def invMask : Word := 0x3F0FFFF7

/-- SCOPE, CTX and LOG2N of the control register. -/
def Xlat.scope (x : Xlat) : Nat := x.invCtl.toNat / 2 % 4
def Xlat.ctx (x : Xlat) : Nat := x.invCtl.toNat / 16 % 65536
def Xlat.log2n (x : Xlat) : Nat :=
  let n := x.invCtl.toNat / 0x1000000 % 64
  if 16 ≤ n && n ≤ 56 then n else 56

/-- The range that an invalidation covers: first byte and length; pages of `2 ^ size` bytes match when they overlap it. -/
def Xlat.range (x : Xlat) : Nat × Nat :=
  let va := x.invVa.toNat % 2 ^ 56
  if x.scope = 0 then (va, 1) else (va / 2 ^ x.log2n * 2 ^ x.log2n, 2 ^ x.log2n)

/-- Does the invalidation cover the page of `2 ^ size` bytes that holds `va` in context `ctx`? -/
def Xlat.covers (x : Xlat) (ctx va size : Nat) : Bool :=
  x.scope == 3 || (x.ctx == ctx && (x.scope == 2 ||
    (decide (va / 2 ^ size * 2 ^ size < x.range.1 + x.range.2) && decide (x.range.1 < va / 2 ^ size * 2 ^ size + 2 ^ size))))

/-- Every matching entry of the TLBs and of the walk units goes. -/
def dropTlb (x : Xlat) : Xlat :=
  { x with tlb := x.tlb.filter (fun e => !x.covers e.ctx e.va e.leaf.size),
           nodes := x.nodes.filter fun e => !x.covers e.ctx e.va e.shift }

/-- R231: a write of the control register; GO drops the matching entries. -/
def writeInv (s : State) (v : Word) : State :=
  if s.xl.invCtl.getLsbD 0 then s
  else
    let x := { s.xl with invCtl := v &&& invMask }
    { s with xl := if v.getLsbD 0 then dropTlb x else x }

/-- R231. -/
def execTlbInvalidate (v : Word) (s : State) : Out := .next (writeInv s v)

/-- R231: what `va` reaches now differs from `pa` and its mirror mark, for a read, or also for a write. Under a migration a read at the
new place is served from the old copy; a write held there keeps its old translation (R232). -/
def staleXlate (s : State) (core : Nat) (x : Xctx) (va pa : Nat) (mir wr : Bool) : Bool :=
  let off (t : AccT) : Bool := match xlateFrom s 0 core x va t with
    | .error _ => true
    | .ok (p, m) => m != mir || (if wr then p else s.mem.live p) != pa
  off .rd || (wr && off .wr)

/-- Pieces of an engine operation of context `x`, translated as they are not now; `wr` says which are written. -/
def staleSegs (s : State) (core : Nat) (x : Xctx) (segs : List CopySeg) (wr : CopySeg → Bool) : Bool :=
  segs.any fun g => (unitsOf 65536 g.va g.len).any fun u =>
    let va := Nat.max g.va (65536 * u)
    s.xl.covers x.ctx va 31 && staleXlate s core x va (g.pa + (va - g.va)) g.mir (wr g)

def AccKind.writes : AccKind → Bool
  | .load _ _ _ => false
  | _ => true

/-- R231: an access that was translated under a dropped entry, as its place or the fault that it holds shows. -/
def staleAcc (s : State) (t : Thread) (a : Access) : Bool :=
  let stale (pa va : Nat) (mir : Bool) : Bool :=
    s.xl.covers t.place.ctx va 31 && staleXlate s t.place.core t.place.xctx va pa mir a.kind.writes
  match a.loc with
  | some (.hbm pa mir) => stale pa a.ea.toNat mir
  | some (.peer _ off (some pa)) => stale pa off false && stale pa off true
  | some (.peer _ _ none) => false
  | some (.spad _ _ _) => false
  | none => a.fault.isSome && s.xl.covers t.place.ctx a.ea.toNat 31

/-- R224: what a collective or a shuffle translates under: its launch's context. -/
def launchXctx (s : State) (lid ctx : Nat) : Xctx := match findLaunch s lid with
  | none => ⟨ctx, 0, 0, 0, 0⟩
  | some l => l.xctx
def CollOp.xctx (s : State) (o : CollOp) : Xctx := launchXctx s o.lid o.ctx

/-- R384: the lock that an ended part of die `die` keeps on its source while other members still read it. -/
def pastLock (die : Nat) (o : CollOp) : LockOwner := .past die o.slot o.gen
def keepsSource (s : State) (die : Nat) (o : CollOp) : Bool := s.mem.locks.any fun l => l.owner == pastLock die o

/-- R231: some access, engine operation, collective or side copy under a dropped translation is still to perform, or is still read. -/
def staleWork (s : State) : Bool :=
  let copies (core : Nat) (ops : List CopyOp) : Bool := ops.any fun o => match findLaunch s o.cid.lid with
    | none => false
    | some l => staleSegs s core l.xctx o.segs fun _ => o.plan.dir == 1
  let colls (die : Nat) (e : CollEngine) : Bool :=
    let written (o : CollOp) (g : CopySeg) : Bool :=
      s.mem.locks.any fun l => l.owner == .coll die o.slot && l.dest && decide (l.lo < g.pa + g.len) && decide (g.pa < l.hi)
    ((e.ops ++ e.past).any fun o => (o.st != 2 || keepsSource s die o) && staleSegs s (336 * die) (o.xctx s) o.segs (written o))
      || e.side.any fun y => staleSegs s (336 * die) (launchXctx s y.lid y.ctx) y.segs fun _ => false
  (threads s).any (fun t => t.accs.any (staleAcc s t)) || (s.cores.any fun k => copies k.1 k.2.eng)
    || (s.clusters.any fun k => copies (((k.slots[0]?).map (·.core)).getD 0) k.ops) || colls 0 s.coll0 || colls 1 s.coll1

/-- R231: GO returns to 0. -/
def execInvalidateComplete (s : State) : Out :=
  let x := dropTlb s.xl
  let s1 := { s with xl := x }
  if !s.xl.invCtl.getLsbD 0 || staleWork s1 then .next s
  else .next { s1 with xl := { x with invCtl := x.invCtl &&& 0xFFFFFFFE } }

/-- R210, R357: an eviction. -/
def execLlcEviction (die pa : Nat) (s : State) : Out := .next { s with mem := evict s.mem die pa }

/-! ## Key slots (R217 to R221, R413) -/

/-- KCMD's KEYID. -/
def Control.kcmdKey (c : Control) : Nat := c.kcmd.toNat / 16 % 4096
def Control.kcmdOp (c : Control) : Nat := c.kcmd.toNat / 2 % 4

/-- The end of a command: GO falls, STATUS is set, KDATA is zero (R413). -/
def endKcmd (s : State) (status : Nat) : State :=
  { s with ctl := { s.ctl with
    kcmd := (s.ctl.kcmd &&& 0x0000FFFE) ||| wOf (status * 0x10000), kdata := List.replicate 64 0, destroying := false } }

/-- R413: an install. -/
def execKeyInstall (id : Nat) (s : State) : Out :=
  let c := s.ctl
  if !(c.kcmd.getLsbD 0 && c.kcmdOp == 1 && c.kcmdKey == id) then .next s
  else if id = 0 && c.key0Done then .next (endKcmd s 3)
  else if (genOf s id).isSome then .next (endKcmd s 2)
  else
    .next (endKcmd { s with
      ctl := { c with keys := ⟨id, c.kdata, c.nextGen⟩ :: c.keys, nextGen := c.nextGen + 1, key0Done := c.key0Done || id == 0 },
      mem := { s.mem with pairs := keyPut s.mem.pairs c.nextGen c.kdata } } 0)

/-- Bytes of a launch queue's memory, under key id 0 (R362). -/
def readZero (s : State) (pa n : Nat) : List Byte := fwRead s (gen0 s) pa n

/-- A launch queue's header (R362). -/
structure QHeader where
  ring : Nat
  log2n : Nat
  prod : Nat
  cons : Nat
  deriving DecidableEq, Repr

def qHeader (s : State) (q : Nat) : QHeader :=
  let bs := readZero s (s.ctl.queues.getD q 0).toNat 64
  ⟨fieldOf bs 0 8, fieldOf bs 8 4, fieldOf bs 12 4, fieldOf bs 16 4⟩

/-- R362: records from CONS up to PROD. -/
def QHeader.fill (h : QHeader) : Nat := (h.prod + 0x100000000 - h.cons) % 0x100000000

def queueValid (s : State) (q : Nat) : Bool :=
  let a := (s.ctl.queues.getD q 0).toNat
  let h := qHeader s q
  inHbm a 64 && !badHit s.mem a 64 false && decide (h.log2n ≤ 16) && h.ring % 256 == 0 && inHbm h.ring (256 * 2 ^ h.log2n)
    && fieldOf (readZero s a 64) 20 44 == 0 && decide (h.fill ≤ 2 ^ h.log2n)

/-- Address of record `i` of a queue. -/
def QHeader.recAt (h : QHeader) (i : Nat) : Nat := h.ring + 256 * (i % 2 ^ Nat.min h.log2n 40)

/-- R220: a record of the key lies in a queue, valid or not, from CONS up to PROD. -/
def keyQueued (s : State) (k : Nat) : Bool :=
  (List.range 16).any fun q =>
    let h := qHeader s q
    -- a ring has no more places than these
    let n := if h.log2n ≤ 32 then Nat.min h.fill (2 ^ h.log2n) else h.fill
    (rangeFrom h.cons n).any fun i => fieldOf (readZero s (h.recAt i + 30) 2) 0 2 % 4096 == k

/-- R169: the queues can be read now. -/
def queuesReadable (s : State) : Bool :=
  (List.range 16).all fun q =>
    let h := qHeader s q
    let n := if h.log2n ≤ 32 then Nat.min h.fill (2 ^ h.log2n) else h.fill
    fwMayRead s (s.ctl.queues.getD q 0).toNat 64 && (rangeFrom h.cons n).all fun i => fwMayRead s (h.recAt i) 256

/-- R220, step 1. -/
def keyInUse (s : State) (k : Nat) : Bool :=
  s.launches.any (fun l => !l.complete && l.keyId == k) || keyQueued s k || s.ctl.harts.any fun h => h.keyReg.toNat % 4096 == k

/-- R220, step 2: a line of the key is discarded, and HBM keeps what it held. -/
def discardLine (m : MemSys) (l : LlcLine) : MemSys :=
  let m1 := llcDrop m l.pa false
  if l.dirty then
    { m1 with hbm := Mem.store m1.hbm l.pa (padTo 64 l.old),
              tags := match l.oldGen with | none => keyDel m1.tags l.pa | some g => keyPut m1.tags l.pa g }
  else m1

/-- 128-byte lines of `ls` that a die holds. -/
def linesOn (ls : List LlcLine) (die : Nat) : Nat :=
  ((ls.filter fun l => l.at' die != .i).foldl (fun a l => setAdd a (l.pa / 128)) []).length

/-- R220, R413: a destruction is refused, or clears its slot and its lines; it waits while the queues may not be read (R169). -/
def execKeyDestroy (id : Nat) (s : State) : Out :=
  let c := s.ctl
  if !(c.kcmd.getLsbD 0 && c.kcmdOp == 2 && c.kcmdKey == id) || c.destroying then .next s
  else if id = 0 then .next (endKcmd s 3)
  else if !queuesReadable s then .next s
  else if keyInUse s id then .next (endKcmd s 1)
  else
    let ls := match genOf s id with
      | none => []
      | some g => s.mem.llc.filter fun l => l.gen == g
    .next { s with
      mem := ls.foldl discardLine s.mem,
      ctl := { c with keys := c.keys.filter fun k => k.id != id, destroying := true,
                      lines0 := linesOn ls 0, lines1 := linesOn ls 1 } }

/-- DEVID (R221). -/
def deviceId : List Byte := (sha512 Config.certificate).take 32

/-- R221: a receipt. -/
def receipt (k serial lines0 lines1 : Nat) : List Byte :=
  let body := bytesOfNat 4 1 ++ bytesOfNat 2 k ++ bytesOfNat 2 0 ++ bytesOfNat 8 serial ++ bytesOfNat 8 lines0
    ++ bytesOfNat 8 lines1 ++ deviceId
  body ++ edSign Config.attestKey body

/-- R220, step 3. -/
def execKeyDestroyReceipt (s : State) : Out :=
  let c := s.ctl
  if !c.destroying then .next s
  else
    .next (endKcmd { s with ctl := { c with
      serial := c.serial + 1, krcpt := receipt c.kcmdKey (c.serial + 1).toNat c.lines0 c.lines1 } } 0)

/-! ## Soft errors (R344 to R347) -/

def countSram (s : State) : State := { s with ctl := { s.ctl with ceSram := satAdd s.ctl.ceSram 1 } }

/-- The slot and offset at byte `a` of a core's scratchpad, its allocations laid end to end (log 17). -/
def slotAt (l : List (Cid × Nat × Slot)) (a : Nat) : Option (Cid × Nat × Nat) :=
  match l with
  | [] => none
  | x :: r => if a < x.2.2.size then some (x.1, x.2.1, a) else slotAt r (a - x.2.2.size)

def slotsOn (s : State) (core : Nat) : List (Cid × Nat × Slot) :=
  s.clusters.flatMap fun k => ((List.range k.slots.length).zip k.slots).filterMap fun x =>
    if x.2.core = core then some (k.id, x.1, x.2) else none

/-- An uncorrectable error in the word at `a` of a core's scratchpad. -/
def spadError (s : State) (core a : Nat) : State :=
  match slotAt (slotsOn s core) a with
  | none => s
  | some (c, i, off) =>
    match findSlot s c i with
    | none => s
    | some v => if v.isUnpinned off 1 then s else setSlot s c i { v with bad := setAdd v.bad (off / 8) }

/-- An uncorrectable error in a tile word of a core: word `addr` of its tiles, laid end to end. -/
def spoilTile (s : State) (core addr : Nat) : State :=
  let c := getCore s core
  let t := addr / 16384
  setCore s core { c with tiles := c.tiles.set t (((c.tiles[t]?).getD none).map fun x => { x with bad := setAdd x.bad (addr % 16384) }) }

/-- R345: an uncorrectable error in the registers, a tile or the checkpoint buffer of a team ends its cluster, c.taddr 0. -/
def teamEcc (s : State) (c : Cid) (team : Nat) : State :=
  let own := (threads s).filter fun t => t.cid == c && t.id.team == team && t.live
  match own.foldl (fun b t => match b with
      | none => some t
      | some x => if t.id.tid < x.id.tid then some t else some x) (none : Option Thread) with
  | none => s
  | some t =>
    match findCluster s c with
    | none => s
    | some k =>
      if k.status == .resident || k.status == .stopping then
        onThread s t.id fun s => fatal (modTh s fun t => writeTrapRegs t cEccFatal 0 0) cEccFatal false
      else s

/-- The live thread at place `i` among those of a core (log 17). -/
def threadAt (s : State) (core i : Nat) : Option Thread := ((threads s).filter fun t => t.live && t.place.core == core)[i]?

def getEng (s : State) (die : Nat) : CollEngine := if die = 0 then s.coll0 else s.coll1
def setEng (s : State) (die : Nat) (e : CollEngine) : State := if die = 0 then { s with coll0 := e } else { s with coll1 := e }

/-- R345: an uncorrectable error in what an engine operation reads: it fails with code 0x06. -/
def failLockOwner (s : State) (w : LockOwner) : State :=
  let coll (die slot : Nat) : State :=
    let e := getEng s die
    setEng s die { e with ops := e.ops.map fun o => if o.slot = slot && o.st == 1 && o.err == 0 then { o with err := 6 } else o }
  match w with
  | .copy core pos => (match findOp s core pos with
    | none => s
    | some o => if o.fail then s else setOp s core { o with fail := true, err := 6 })
  | .coll die slot => coll die slot
  | .past _ _ _ => s
  | .side _ _ => s
  | .saved _ _ => s

/-- R346: a watch-table entry that fails is a conflict notice to its holder. -/
def failWatch (s : State) (i : Nat) : State :=
  match ((threads s).filter fun t => t.accs.any fun a => a.early.isSome && a.spec)[i]? with
  | none => s
  | some t => mapThreads s fun x => if x.id = t.id then { x with notice := true } else x

/-- R344 to R346: a double-bit error in an array of the device other than HBM and the LLC. -/
def doubleError (s : State) (arr : EccArray) (addr : Nat) : State :=
  match arr with
  | .hbm => s
  | .llc => s
  | .scratchpad core => spadError s core addr
  | .deque core =>
    let c := getCore s core
    if addr < c.deque.length then setCore s core { c with dqBad := setAdd c.dqBad addr } else s
  | .tile core => spoilTile s core addr
  | .regs core => (match threadAt s core addr with
    | none => s
    | some t => teamEcc s t.cid t.id.team)
  | .checkpoint core => (match threadAt s core addr with
    | none => s
    | some t => teamEcc s t.cid t.id.team)
  | .watchTable => failWatch s addr
  | .directory => s
  | .lockTable => (match s.mem.locks[addr]? with
    | none => s
    | some l => failLockOwner s l.owner)
  | .staging die => failLockOwner s (.coll die addr)
  | .decodeBuffer die => failLockOwner s (.coll die addr)
  | .derived =>
    let n := s.xl.tlb.length
    { s with xl := { s.xl with tlb := s.xl.tlb.eraseIdx addr, nodes := if n ≤ addr then s.xl.nodes.eraseIdx (addr - n) else s.xl.nodes } }

/-- R344: `bits` bits of the protected word at `addr` flip. On-die errors of one bit are corrected as they are found. -/
def execSoftError (arr : EccArray) (addr : Nat) (bits : Nat) (s : State) : Out :=
  let w := addr / 32
  let m := s.mem
  let held := (llcFind m (sectorOf addr)).isSome
  .next (match arr with
  | .hbm =>
    if bits = 0 || !inHbm addr 1 then s
    else if bits = 1 && !m.soft.contains w && !(if held then m.hidden else m.bad).contains w then { s with mem := { m with soft := setAdd m.soft w } }
    else if held then { s with mem := { m with soft := setDel m.soft w, hidden := setAdd m.hidden w } }
    else { s with mem := { m with soft := setDel m.soft w, bad := setAdd m.bad w } }
  | .llc => if bits = 0 || !held then s else if bits = 1 then countSram s else { s with mem := { m with bad := setAdd m.bad w } }
  | .scratchpad core => other (.scratchpad core)
  | .deque core => other (.deque core)
  | .tile core => other (.tile core)
  | .regs core => other (.regs core)
  | .checkpoint core => other (.checkpoint core)
  | .watchTable => other .watchTable
  | .directory => other .directory
  | .lockTable => other .lockTable
  | .staging die => other (.staging die)
  | .decodeBuffer die => other (.decodeBuffer die)
  | .derived => other .derived)
where
  other (a : EccArray) : State := if bits = 0 then s else if bits = 1 then countSram s else doubleError s a addr

/-- R347: the word at `pa` is read, and a single-bit error corrected and counted. -/
def execScrub (pa : Nat) (s : State) : Out :=
  let m := s.mem
  .next (if m.soft.contains (pa / 32) then
    { s with mem := { m with soft := setDel m.soft (pa / 32), ceHbm := satAdd m.ceHbm 1 } } else s)

/-- R345: an uncorrectable error in a register file, a tile or a checkpoint buffer of a team. -/
def execEccFatalState (c : Cid) (team : Nat) (s : State) : Out := .next (teamEcc s c team)

/-! ## Scratchpad pages (R208) -/

/-- DESIGN CHOICE (log 18), unsafe: the launch processor's area of backing pages: 24 MiB for a saved cluster, 2 MiB for each of its slots;
in them the pages of the slot, and from 1 MiB on 16 bytes of presence bits for each page, a bit set where the sector is absent. -/
def backBase : Nat := 0x008000000000
def slotRoom : Nat := 0x200000
def backRoom : Nat := 12 * slotRoom

def Cluster.pageAt (k : Cluster) (slot page : Nat) : Nat := k.back + slotRoom * slot + 4096 * page
def Cluster.bitsAt (k : Cluster) (slot page : Nat) : Nat := k.back + slotRoom * slot + 0x100000 + 16 * page

/-- The generation of the key of a cluster's launch (R208, R216). -/
def clusterGen (s : State) (c : Cid) : Nat := match findLaunch s c.lid with
  | none => 0
  | some l => (genOf s l.keyId).getD 0

/-- Presence bits of a page: bit `i` is set where its sector `i` is absent. -/
def Slot.absentBits (v : Slot) (page : Nat) : Nat := (v.absent.filter fun u => u / 128 == page).foldl (fun m u => m + 2 ^ (u % 128)) 0

/-- R208, R332: a slot's pinned pages go to their backing pages, under the key of its launch. -/
def backSlot (s : State) (k : Cluster) (slot : Nat) (v : Slot) : State :=
  ((List.range (v.size / 4096)).filter fun p => !v.unpinned.contains p).foldl (fun s p =>
    fwStore (fwStore s (clusterGen s k.id) (k.pageAt slot p) (Mem.load v.bytes (4096 * p) 4096))
      (clusterGen s k.id) (k.bitsAt slot p) (bytesOfNat 16 (v.absentBits p))) s

/-- Every page is unpinned. -/
def Slot.unpinAll (v : Slot) : Slot := { v with unpinned := List.range (v.size / 4096), bytes := [], absent := [] }

/-- R208: a page with the bytes and presence bits of its backing page. What is uncorrectable there is so here (R345). -/
def refillPage (s : State) (k : Cluster) (slot : Nat) (v : Slot) (page : Nat) : Slot :=
  let gen := clusterGen s k.id
  let pa := k.pageAt slot page
  let lost := badHit s.mem (k.bitsAt slot page) 16 false
  { v with
    unpinned := setDel v.unpinned page,
    bytes := Mem.store v.bytes (4096 * page) (fwRead s gen pa 4096),
    absent := ((bitsOf (natOfBytes (fwRead s gen (k.bitsAt slot page) 16)) 128).map fun i => 128 * page + i).foldl setAdd
      (v.absent.filter fun u => u / 128 != page),
    bad := ((rangeFrom (512 * page) 512).filter fun w => lost || badHit s.mem (pa + 8 * (w - 512 * page)) 8 false).foldl setAdd v.bad }

/-- Every page comes back. -/
def refillAll (s : State) (k : Cluster) (slot : Nat) (v : Slot) : Slot := v.unpinned.foldl (refillPage s k slot) v

/-- R208, R357: an unpinned page of a resident cluster is refilled with its presence bits, read by its core's die. -/
def execScratchpadPageRefill (c : Cid) (slot page : Nat) (s : State) : Out :=
  match findCluster s c, findSlot s c slot with
  | some k, some v =>
    .next (if (k.status == .resident || k.status == .placing || k.status == .stopping || k.status == .retired) && v.unpinned.contains page
           then
             let die := v.core / 336
             let s1 := fwTouch (fwTouch s die (clusterGen s c) (k.pageAt slot page) 4096) die (clusterGen s c) (k.bitsAt slot page) 16
             setSlot s1 c slot (refillPage s k slot v page)
           else s)
  | _, _ => .next s

end Sys2Proof.Machine
end

