-- ==== Sys2Proof/Machine/Collective.lean ====
section
/-! DEFINITION. The collective engines (R384 to R392): slots, trigger counters, descriptors, arming, launch points, data and
results. -/

namespace Sys2Proof.Machine

/-! ## Engines and slots -/

def findColl (s : State) (die slot : Nat) : Option CollOp := (getEng s die).ops.find? fun o => o.slot == slot

def setColl (s : State) (die : Nat) (o : CollOp) : State :=
  let e := getEng s die
  setEng s die { e with ops := e.ops.map fun x => if x.slot = o.slot then o else x }

/-- The lowest slot that holds no running operation. -/
def freeSlot (e : CollEngine) : Option Nat := (List.range 64).find? fun n => !(e.ops.any fun o => o.slot == n && o.st != 2)

/-- A new operation in slot `n` of a die, with the slot's next generation. A part that ended there, and whose source other members still
read, is kept apart (R384, R400). -/
def takeSlot (s : State) (die n : Nat) (o : CollOp) : State :=
  let e := getEng s die
  let g := ((e.gens.getD n 0) + 1) % 256
  setEng s die { e with
    ops := (e.ops.filter fun x => x.slot != n) ++ [{ o with slot := n, gen := g }], gens := e.gens.set n g,
    past := e.past ++ e.ops.filter fun x => x.slot == n && keepsSource s die x }

/-- R389: a handle. -/
def handleOf (slot die gen : Nat) (shf : Bool) : Word := wOf (slot + 64 * die + (if shf then 128 else 0) + 256 * gen)

def errHandle (code : Nat) : Word := wOf (0x80000000 + code)

/-! ## Descriptors (R385) -/

def dKind (d : List Byte) : Nat := fieldOf d 0 1
def dBf (d : List Byte) : Bool := fieldOf d 1 1 % 16 == 1
def dOp (d : List Byte) : RedOp :=
  match fieldOf d 1 1 / 16 % 4 with
  | 1 => .min
  | 2 => .max
  | _ => .add
def dGroup (d : List Byte) : Nat := fieldOf d 2 2
def dCtr (d : List Byte) : Nat := fieldOf d 4 1
def dRoot (d : List Byte) : Nat := fieldOf d 6 2
def dThresh (d : List Byte) : Nat := fieldOf d 8 4
def dValue (d : List Byte) : Nat := fieldOf d 12 4
def dSrc (d : List Byte) : Nat := fieldOf d 16 8
def dDst (d : List Byte) : Nat := fieldOf d 24 8
def dLen (d : List Byte) : Nat := fieldOf d 32 4
def dStatus (d : List Byte) : Nat := fieldOf d 40 8

/-- A tag-0x00 address that is a multiple of `n`. -/
def userAddr (a n : Nat) : Bool := decide (a < 2 ^ 56) && a % n == 0

/-- R385: every field in its limits, for a group of `n` members. -/
def collDescOk (d : List Byte) (n : Nat) : Bool :=
  let k := dKind d
  let b := fieldOf d 1 1
  decide (k ≤ 5)
    && (if k == 2 || k == 3 then b == 0 else decide (b % 16 ≤ 1) && decide (b / 16 % 4 ≤ 2) && b / 64 == 0)
    && decide (dGroup d < 4096) && (k < 4 || dGroup d == 0)
    && (decide (dCtr d < 64) || dCtr d == 255) && fieldOf d 5 1 == 0
    && (k ≥ 4 || (decide (dRoot d < n) && userAddr (dSrc d) 256 && userAddr (dDst d) 256
          && dLen d % 256 == 0 && decide (256 ≤ dLen d) && decide (dLen d ≤ 2 ^ 30)))
    && fieldOf d 36 4 == 0 && userAddr (dStatus d) 32 && fieldOf d 48 16 == 0

/-- Elements of a block. -/
def dElems (d : List Byte) : Nat := if dBf d then dLen d / 2 else dLen d / 4

def CollOp.n (o : CollOp) : Nat := o.members.length
/-- Position of this device among the members; `n` where it is none. -/
def ownPos (s : State) (members : List Nat) : Nat := members.findIdx fun d => d == s.fab.selfIdx.toNat
def CollOp.own (s : State) (o : CollOp) : Nat := ownPos s o.members
def CollOp.gen' (s : State) (o : CollOp) : Nat := (genOf s o.keyId).getD 0

/-- R384: the other positions, which read this member's source and are not yet known to have what they need of it (log 42). -/
def CollOp.unheard (s : State) (o : CollOp) : List Nat :=
  (List.range o.n).filter fun j => j != o.own s && !o.doneBy.contains j

/-- BSIZE, SRC and DST of a shuffle (R394). -/
def shBsize (d : List Byte) : Nat := fieldOf d 8 4

/-- R386, R395: the source and destination of an operation at position `i`: address and length. -/
def CollOp.source (o : CollOp) (i : Nat) : Nat × Nat :=
  let d := o.desc
  if o.shf then (dSrc d, o.n * shBsize d)
  else
    match dKind d with
    | 1 => (dSrc d, o.n * dLen d)
    | 3 => (dSrc d, if dRoot d = i then dLen d else 0)
    | 0 => (dSrc d, dLen d)
    | 2 => (dSrc d, dLen d)
    | _ => (0, 0)

def CollOp.target (o : CollOp) : Nat × Nat :=
  let d := o.desc
  if o.shf then (dDst d, o.n * shBsize d)
  else
    match dKind d with
    | 0 => (dDst d, 4 * dElems d)
    | 1 => (dDst d, 4 * dElems d)
    | 2 => (dDst d, o.n * dLen d)
    | 3 => (dDst d, dLen d)
    | _ => (0, 0)

/-! ## Trigger counters (R387, R388) -/

def getCtr (s : State) (die c : Nat) : Counter := (getEng s die).ctrs.getD c ⟨0, none⟩

/-- R388: another launch holds the counter. -/
def ctrElse (s : State) (die c lid : Nat) : Bool :=
  match (getCtr s die c).holder with
  | none => false
  | some l => l != lid

def holdCtr (s : State) (die c lid : Nat) : State :=
  let e := getEng s die
  setEng s die { e with ctrs := e.ctrs.set c { getCtr s die c with holder := some lid } }

/-- A change of a counter, and the test of every armed collective of its holder that names it (R387, R388). -/
def setCtr (s : State) (die c : Nat) (v : Word) : State :=
  let e := getEng s die
  let mine (o : CollOp) : Bool := (getCtr s die c).holder == some o.lid
  setEng s die { e with
    ctrs := e.ctrs.set c { getCtr s die c with val := v },
    ops := e.ops.map fun o => if !o.shf && o.st == 0 && o.ctr == c && mine o && decide (o.thresh ≤ v.toNat) then { o with fired := true } else o }

/-- R388: a launch that completes frees its counters. -/
def freeCtrs (s : State) (lid : Nat) : State :=
  let f (e : CollEngine) : CollEngine := { e with ctrs := e.ctrs.map fun c => if c.holder = some lid then ⟨0, none⟩ else c }
  { s with coll0 := f s.coll0, coll1 := f s.coll1 }

/-! ## Arming (R389, R392) -/

/-- An operation as its arm or its post makes it. -/
def mkColl (s : State) (l : Launch) (tid : Option Tid) (dc : Fin 7) (shf : Bool) (desc : List Byte) (ctr thresh grp : Nat)
    (chunk : Option Nat) : CollOp :=
  { slot := 0, gen := 0, shf := shf, st := 0, fired := false, err := 0, lost := false, nostat := false, lid := l.lid, tid := tid, dc := dc,
    desc := desc, ctx := l.ctx, keyId := l.keyId, segs := [], arrived := [], doneBy := [], ctr := ctr, thresh := thresh, members := groupMembers s grp, grp := grp, order := 0,
    chunk := chunk, data := [], units := [], sides := [], uncoded := 0, coded := 0, decoded := 0, dfault := 0, fallback := 0,
    evict := 0, sideRej := 0 }

/-- R386: the next arm order of a group on this device. -/
def armOrder (s : State) (grp : Nat) : Nat := (keyGet s.coll0.orders grp).getD 0

def bumpOrder (s : State) (grp : Nat) : State :=
  { s with coll0 := { s.coll0 with orders := keyPut s.coll0.orders grp (armOrder s grp + 1) } }

/-- The arm of `o` in slot `n` of a die: kinds 0 to 3 wait for their trigger; kinds 4 and 5 act on their counter (R386, R387). DESIGN
CHOICE (log 42): a descriptor of kind 4 or 5 with CTR 0xFF names no counter, and its operation completes without an effect. -/
def armColl (s : State) (die n : Nat) (o : CollOp) : State :=
  let k := dKind o.desc
  if 4 ≤ k then
    let s1 := takeSlot s die n { o with st := 1, fired := true, members := [] }
    if o.ctr = 255 then s1
    else
      let v := (getCtr s1 die o.ctr).val
      setCtr s1 die o.ctr (if k = 4 then satAdd v (dValue o.desc) else wOf (dValue o.desc))
  else
    let fired := o.ctr == 255 || decide (o.thresh ≤ (getCtr s die o.ctr).val.toNat)
    bumpOrder (takeSlot s die n { o with fired := fired, order := armOrder s o.grp }) o.grp

/-- A 64-byte descriptor in scratchpad (R305, R389): none to wait. -/
def readDesc (s : State) (ea : DWord) : Except Exc (Option (List Byte)) :=
  match resolveSpad s ea 64 64 with
  | .error e => .error e
  | .ok loc =>
    match gate s s.th.place.die .rd loc ea 64 with
    | .bad e => .error e
    | .go => .ok (some (peekLoc s s.th.place.die 0 loc 64))
    | .park => .ok none
    | .wait => .ok none

/-- The handle in `d`, and one counter step unless it is an error handle. -/
def endArm (s : State) (f : FmtC) (h : Word) (step : Bool) : Out :=
  let s1 := goOn (issued (modCtx s fun c => c.setReg f.d h)) (instrLen s)
  .next (if step then modTh s1 fun t => dcStep t f.dc else s1)

/-- R389. DESIGN CHOICE (log 42): a valid group of the launch's context that does not include the arming device is armed like any
other; the device then has position n, which no data names. -/
def execCollArm (f : FmtC) (off : Option (BitVec 16)) (s : State) : Out :=
  guarded s f.p fun s => oldest s fun s0 =>
    let ea := eaXO s0.th.ctx f.a off
    match readDesc s0 ea, findLaunch s0 s0.th.id.lid with
    | .error e, _ => raise s0 e
    | .ok none, _ => .next s0
    | .ok (some _), none => .next s0
    | .ok (some d), some l =>
      let k := dKind d
      let s := if k < 4 then setExt s0 else s0
      let die := s.th.place.die
      let grp := dGroup d % 4096
      if k < 4 && dGroup d < 4096 && !groupOk s grp s.th.place.ctx then raiseCode s cProt ea
      else if !collDescOk d (groupMembers s grp).length then endArm s f (errHandle 1) false
      else if dCtr d != 255 && ctrElse s die (dCtr d) l.lid then endArm s f (errHandle 0x14) false
      else
        match freeSlot (getEng s die) with
        | none => .next s0
        | some n =>
          let s1 := if dCtr d = 255 then s else holdCtr s die (dCtr d) l.lid
          let s2 := armColl s1 die n (mkColl s1 l (some s.th.id) f.dc false d (dCtr d) (dThresh d) grp none)
          endArm s2 f (handleOf n die ((getEng s2 die).gens.getD n 0) false) true

/-! ## Launch points (R384, R386) -/

/-- What translating the ranges of an operation answers: wait for a page, fail with a code, or the pieces and locks. -/
inductive CollPlan
  | lost
  | fail (code : Nat)
  | go (segs : List CopySeg) (locks : List RLock)
  deriving DecidableEq, Repr

/-- Locks of the pieces of one range, for owner `w`. -/
def rangeLocks (w : LockOwner) (die : Nat) (dest : Bool) (segs : List CopySeg) : List RLock :=
  (segs.flatMap (segLocks (336 * die) 0 dest)).map fun l => { l with owner := w }

/-- R35: a piece that is to be written lies in the code range of an open launch. -/
def segsInCode (s : State) (segs : List CopySeg) : Bool := segs.any fun g => (replicas g.pa g.mir).any fun p => codeHit s p g.len

/-- R384, R391: an operation's ranges under its launch's context. DESIGN CHOICE (log 42): the TLB of bay 28 × die serves the collective
engine of a die (R233 names none). -/
def planColl (s : State) (die : Nat) (o : CollOp) : CollPlan :=
  let x := o.xctx s
  let seg (t : AccT) (r : Nat × Nat) := copySegs s (336 * die) x t (r.2 / 65536 + 2) r.1 r.2
  let a := seg .rd (o.source (o.own s))
  let b := seg .wr o.target
  let c := seg .wr (dStatus o.desc, if dStatus o.desc = 0 then 0 else 32)
  let codes := a.1 ++ b.1 ++ c.1
  let locks := rangeLocks (.coll die o.slot) die false a.2 ++ rangeLocks (.coll die o.slot) die true b.2
  if codes.contains cTableFar then .fail 3
  else if codes.contains cProt || segsInCode s (b.2 ++ c.2) then .fail 4
  else if (genOf s o.keyId).isNone then .fail 5
  else if codes.contains cEccFatal then .fail 6
  else if !codes.isEmpty then .lost
  else if 256 < onDie locks 0 || 256 < onDie locks 1 then .fail 9
  else .go (a.2 ++ b.2 ++ c.2) locks

/-- R232, R248, R298: the tables, a migration, or a watch with intent on a destination makes the operation wait. -/
def collBlocked (s : State) (locks : List RLock) : Bool :=
  locks.any (fun l => lockConflict s.mem l.lo l.hi l.dest || (migHit s.mem l.lo (l.hi - l.lo)).isSome || lockIntent s l)
    || decide (Config.lockEntries < onDie s.mem.locks 0 + onDie locks 0)
    || decide (Config.lockEntries < onDie s.mem.locks 1 + onDie locks 1)

/-- Bytes of an operation's memory, as it reads them. -/
def collRead (s : State) (die : Nat) (o : CollOp) (a n : Nat) : List Byte :=
  (List.range n).map fun i => match segFind o.segs (a + i) with
    | none => 0
    | some (pa, mir) => physByte s.mem (o.gen' s) (replica pa mir die)

/-- R357: the slice of the engine's die takes copies of the sectors that the engine reads. -/
def readTouch (s : State) (die : Nat) (o : CollOp) (a n : Nat) : State :=
  (unitsOf 64 a n).foldl (fun s u => match segFind o.segs (Nat.max a (64 * u)) with
    | none => s
    | some (pa, mir) => { s with mem := llcRead s.mem die (sectorOf (replica pa mir die)) (o.gen' s) }) s

/-- R357: those of the operation's source. -/
def collTouch (s : State) (die : Nat) (o : CollOp) : State := readTouch s die o (o.source (o.own s)).1 (o.source (o.own s)).2

/-- The walks of the translation of an operation's ranges (R219, R228). -/
def collWalked (s : State) (die : Nat) (o : CollOp) : State :=
  rangesWalked s (336 * die) (o.xctx s)
    [o.source (o.own s), o.target, (dStatus o.desc, if dStatus o.desc = 0 then 0 else 32)]

/-- An uncorrectable word lies in the operation's source. -/
def collBad (s : State) (die : Nat) (o : CollOp) : Bool :=
  let r := o.source (o.own s)
  o.segs.any fun g => decide (g.va < r.1 + r.2) && decide (r.1 < g.va + g.len) && badHit s.mem (replica g.pa g.mir die) g.len false

/-- Write bytes of an operation at the home slices, with their probe (R243, R357). -/
def collWrite (s : State) (o : CollOp) (a : Nat) (bs : List Byte) : State :=
  let s1 := engStore s (o.gen' s) o.segs (a, bs)
  o.segs.foldl (fun s g =>
    let lo := Nat.max a g.va
    let hi := Nat.min (a + bs.length) (g.va + g.len)
    if lo < hi then
      let pa := g.pa + (lo - g.va)
      let s2 := probe s none (.hbm pa g.mir) (hi - lo)
      if g.mir then probe s2 none (.hbm (mirrorOf pa) true) (hi - lo) else s2
    else s) s1

/-- A flit of collective data, 0x12, to the device at position `j` (log 15). -/
def collFlit (s : State) (o : CollOp) (j : Nat) (bs : List Byte) : Flit :=
  { mkFlit s 0x12 6 (o.members.getD j 0) with ctx := o.ctx, keyid := o.keyId, addr := o.order, aux := o.grp, payload := bs }

/-- What a member sends at its launch point (R386). -/
def collSends (s : State) (die : Nat) (o : CollOp) : List Flit :=
  let d := o.desc
  let own := o.own s
  let others := (List.range o.n).filter fun j => j != own
  match dKind d with
  | 1 => others.map fun j => collFlit s o j (collRead s die o (dSrc d + j * dLen d) (dLen d))
  | 3 => if dRoot d = own then others.map fun j => collFlit s o j (collRead s die o (dSrc d) (dLen d)) else []
  | _ => others.map fun j => collFlit s o j (collRead s die o (dSrc d) (dLen d))

/-- R386: collectives of one group reach their launch points in arm order. -/
def firstOfGroup (s : State) (o : CollOp) : Bool :=
  !((s.coll0.ops ++ s.coll1.ops).any fun x => !x.shf && x.st == 0 && dKind x.desc < 4 && x.grp == o.grp && decide (x.order < o.order))

def memberAbsent (s : State) (o : CollOp) : Bool := o.members.any fun d => s.fab.absent.contains d

/-- The launch point: locks entered, destinations' watches noticed. -/
def enterColl (s : State) (die : Nat) (o : CollOp) (segs : List CopySeg) (locks : List RLock) : State :=
  let o1 := { o with segs := segs, st := 1, lost := false }
  let s0 := collWalked s die o
  let s1 := { s0 with mem := { s0.mem with locks := s0.mem.locks ++ locks } }
  let s2 := setColl s1 die { o1 with err := if collBad s1 die o1 then 6 else 0 }
  segs.foldl (fun s g => if locks.any (fun l => l.dest && decide (l.lo < g.pa + g.len) && decide (g.pa < l.hi))
    then probe s none (.hbm g.pa g.mir) g.len else s) s2

/-- R298, R387: an operation that waits at the lock tables takes its arrival number as it first does. -/
def waitAtTables (s : State) (die : Nat) (o : CollOp) (locks : List RLock) : State :=
  if o.arrived.isEmpty && !locks.isEmpty then
    setColl { s with fresh := s.fresh + 1 } die { o with arrived := s.fresh :: locks.map (·.die) }
  else s

/-- The launch point of an operation that is still armed or posted: it waits, fails, or enters its locks. -/
def launchColl (s : State) (die : Nat) (o : CollOp) : State :=
  match planColl s die o with
  | .lost => if o.lost then s else setColl s die { o with lost := true }
  | .fail code => setColl s die { o with err := code, lost := false }
  | .go segs locks =>
    if memberAbsent s o then setColl s die { o with err := 0x10, lost := false }
    else if collBlocked s locks || behindOther s o.arrived locks then waitAtTables s die o locks
    else enterColl s die o segs locks

/-- R384, R387: a collective that has fired reaches its launch point. -/
def execCollectiveFire (die slot : Nat) (s : State) : Out :=
  match findColl s die slot with
  | none => .next s
  | some o =>
    if o.shf || o.st != 0 || !o.fired || o.err != 0 || !firstOfGroup s o then .next s
    else
      let s1 := launchColl s die o
      .next (match findColl s1 die slot with
        | none => s1
        | some p => if p.st = 1 then collTouch { s1 with out := s1.out ++ collSends s1 die p } die p else s1)

/-! ## Data and results -/

/-- Positions whose data this device needs. -/
def collNeeds (s : State) (o : CollOp) : List Nat :=
  let own := o.own s
  match dKind o.desc with
  | 3 => if dRoot o.desc = own then [] else [dRoot o.desc]
  | 4 => []
  | 5 => []
  | _ => (List.range o.n).filter fun j => j != own

def collReady (s : State) (o : CollOp) : Bool := (collNeeds s o).all fun j => o.data.any fun x => x.1 == j

/-- R386: the data that position `member` sends next on the group belongs to the first of the group's collectives, in arm order, that
still needs some of it. -/
def nextFrom (s : State) (grp member : Nat) : Option CollOp :=
  let wants (o : CollOp) : Bool := !o.shf && o.st != 2 && dKind o.desc < 4 && o.grp == grp && (collNeeds s o).contains member
    && !(o.data.any fun x => x.1 == member)
  ((s.coll0.ops ++ s.coll1.ops).filter wants).foldl (fun b o => match b with
    | none => some o
    | some x => if o.order < x.order then some o else some x) none

/-- R386: data of the member at position `member`, for the collective that matches by arm order. -/
def execCollectiveData (die slot member : Nat) (data : List Byte) (s : State) : Out :=
  match findColl s die slot with
  | none => .next s
  | some o =>
    .next (if nextFrom s o.grp member == some o && data.length == dLen o.desc then setColl s die { o with data := o.data ++ [(member, data)] } else s)

/-- The block of position `j` as this device has it. -/
def collBlock (s : State) (die : Nat) (o : CollOp) (j : Nat) : List Byte :=
  if j = o.own s then
    collRead s die o (dSrc o.desc + (if dKind o.desc = 1 then j * dLen o.desc else 0)) (dLen o.desc)
  else ((o.data.find? fun x => x.1 == j).map (·.2)).getD
    ((List.range (dLen o.desc)).map fun i => (Config.freeWord (s.fresh + j * dLen o.desc + i)).truncate 8)

/-- R386: the bytes of DST; what has not come from a member is free. -/
def collResult (s : State) (die : Nat) (o : CollOp) : List Byte :=
  let d := o.desc
  let blocks := (List.range o.n).map (collBlock s die o)
  match dKind d with
  | 0 => reduceAll (dOp d) (dBf d) blocks (dElems d)
  | 1 => reduceAll (dOp d) (dBf d) blocks (dElems d)
  | 2 => blocks.flatten
  | 3 => collBlock s die o (dRoot d)
  | _ => []

/-- R391: the status record. -/
def statusRecord (o : CollOp) (err : Nat) : List Byte :=
  bytesOfNat 1 (if err = 0 then 1 else 2) ++ bytesOfNat 1 err ++ bytesOfNat 2 0 ++ bytesOfNat 4 o.uncoded
    ++ bytesOfNat 4 o.coded ++ bytesOfNat 4 o.decoded ++ bytesOfNat 4 o.dfault ++ bytesOfNat 4 o.fallback
    ++ bytesOfNat 4 o.evict ++ bytesOfNat 2 o.sideRej ++ bytesOfNat 2 0

/-- The part of some pieces that lies in the `n` bytes from `a`. -/
def cutSegs (segs : List CopySeg) (a n : Nat) : List CopySeg :=
  segs.filterMap fun g =>
    let lo := Nat.max a g.va
    let hi := Nat.min (a + n) (g.va + g.len)
    if lo < hi then some ⟨lo, g.pa + (lo - g.va), hi - lo, g.mir⟩ else none

/-- The pieces of STATUS (R384, R391): none while its page is lost, and the code that fails the part. -/
def statusPieces (s : State) (die : Nat) (o : CollOp) : Except Nat (Option (List CopySeg)) :=
  if dStatus o.desc = 0 || o.nostat then .ok (some [])
  else if (genOf s o.keyId).isNone then .error 5
  else if !o.segs.isEmpty then
    -- a launch may have been opened since (R35)
    if segsInCode s (cutSegs o.segs (dStatus o.desc) 32) then .error 4 else .ok (some o.segs)
  else
    let r := copySegs s (336 * die) (o.xctx s) .wr 2 (dStatus o.desc) 32
    if r.1.contains cTableFar then .error 3
    else if r.1.contains cProt || segsInCode s r.2 then .error 4
    else if r.1.contains cEccFatal then .error 6
    else if r.1.isEmpty then .ok (some r.2)
    else .ok none

/-- R169, R232, R248: the write of the status record waits for a lock, a migration or a watch with intent. -/
def statusWaits (s : State) (o : CollOp) (segs : List CopySeg) : Bool :=
  segs.any fun g =>
    let lo := Nat.max (dStatus o.desc) g.va
    let hi := Nat.min (dStatus o.desc + 32) (g.va + g.len)
    decide (lo < hi) && (replicas (g.pa + (lo - g.va)) g.mir).any fun p =>
      lockHit s.mem p (hi - lo) || (migHit s.mem p (hi - lo)).isSome || intentHolds s none (.hbm p false) (hi - lo)
        || queuedBefore s s.fresh (.hbm p false) (hi - lo)

/-- Write the status record (R391), where STATUS can be reached. -/
def writeStatus (s : State) (die : Nat) (o : CollOp) (err : Nat) : State :=
  match statusPieces s die o with
  | .ok (some segs) => if dStatus o.desc = 0 || o.nostat then s else collWrite s { o with segs := segs } (dStatus o.desc) (statusRecord o err)
  | .ok none => s
  | .error _ => s

/-- What a shuffle's DST would have held: the own block, the units that have landed, and free bytes for the others. -/
def shfResult (s : State) (die : Nat) (o : CollOp) : List Byte :=
  let b := shBsize o.desc
  (List.range o.n).flatMap fun j =>
    if j = o.own s then collRead s die o (dSrc o.desc + j * b) b
    else (List.range (b / 256)).flatMap fun k =>
      if o.units.any fun u => u.snd == j && u.k == k then collRead s die o (dDst o.desc + j * b + 256 * k) 256
      else (List.range 256).map fun i => (Config.freeWord (s.fresh + j * b + 256 * k + i)).truncate 8

/-- R170: the destination of a part that fails after its launch point: each byte its old value or the one that it would have had
(log 6). -/
def doubtTarget (s : State) (die : Nat) (o : CollOp) : State :=
  let t := o.target
  let new := if o.shf then shfResult s die o else collResult s die o
  collWrite { s with fresh := s.fresh + t.2 + o.n * dLen o.desc } o t.1 (mixBytes s.fresh (collRead s die o t.1 t.2) new)

/-- R384: a part that ends gives up its destination locks; its source stays locked while other members still read it. -/
def endLocks (s : State) (die : Nat) (o : CollOp) : State :=
  let w : LockOwner := .coll die o.slot
  let keep := s.mem.locks.filter fun l => l.owner != w || (!l.dest && !(o.unheard s).isEmpty)
  { s with mem := { s.mem with locks := keep.map fun l => if l.owner = w then { l with owner := pastLock die o } else l } }

/-- R384, log 42: the member at position `j` has all that it reads of the source that `w` locks: of a part that runs, or of one that has
ended here, whose lock ends with the last of them. -/
def heardFrom (s : State) (w : LockOwner) (j : Nat) : State :=
  let hear (o : CollOp) : CollOp := { o with doneBy := setAdd o.doneBy j }
  match w with
  | .coll die slot =>
    (match findColl s die slot with
     | none => s
     | some o => if o.st = 1 && o.fired && (o.unheard s).contains j then setColl s die (hear o) else s)
  | .past die slot gen =>
    let e := getEng s die
    let mine (o : CollOp) : Bool := o.slot == slot && o.gen == gen && o.st == 2
    let s1 := setEng s die { e with ops := e.ops.map (fun o => if mine o then hear o else o),
                                    past := e.past.map fun o => if mine o then hear o else o }
    let e1 := getEng s1 die
    if (e1.ops ++ e1.past).any fun o => mine o && !(o.unheard s).isEmpty then s1
    else
      { setEng s1 die { e1 with past := e1.past.filter fun o => !mine o } with
        mem := { s1.mem with locks := s1.mem.locks.filter fun l => l.owner != w } }
  | .copy _ _ => s
  | .side _ _ => s
  | .saved _ _ => s

def dropLocks (s : State) (w : LockOwner) : State :=
  { s with mem := { s.mem with locks := s.mem.locks.filter fun l => l.owner != w } }

/-! ## Waiting (R390) -/

/-- R390: what a wait answers; none while the operation runs. -/
def waitAnswer (s : State) (h : Word) (shf : Bool) : Option Word :=
  let v := h.toNat
  if h.getLsbD 31 then some (wOf (1 + 256 * (v % 256)))
  else if h.getLsbD 7 != shf then some (wOf (1 + 256))
  else
    match findColl s (v / 64 % 2) (v % 64) with
    | none => some 3
    | some o => if o.gen != v / 256 % 256 then some 3 else if o.st = 2 then some (wOf (1 + 256 * o.err)) else none

def collWaitOp (f : FmtC) (shf : Bool) (s : State) : Out :=
  guarded s f.p fun s => oldest s fun s =>
    match waitAnswer s (s.th.ctx.reg f.a) shf with
    | none => .next s
    | some w => issueOp s f [(f.d, w)] 0

/-- R390. -/
def execCollWait (f : FmtC) (s : State) : Out := collWaitOp f false s
/-- R390. -/
def execShfWait (f : FmtC) (s : State) : Out := collWaitOp f true s

end Sys2Proof.Machine
end

