-- ==== Sys2Proof/Machine/Shuffle.lean ====
section
/-! DEFINITION. Coded shuffles (R394 to R400): posts, side information, units, decoding and the Prism's reservations. -/

namespace Sys2Proof.Machine

/-! ## CRC-32C -/

/-- One bit of the reflected CRC-32C (polynomial 0x1EDC6F41). -/
def crcBit (c : Nat) : Nat := if c % 2 = 1 then Nat.xor (c / 2) 0x82F63B78 else c / 2

def crcBits : Nat → Nat → Nat
  | 0, c => c
  | n + 1, c => crcBits n (crcBit c)

/-- CRC-32C of a byte string. -/
def crc32c (bs : List Byte) : Word :=
  wOf (Nat.xor (bs.foldl (fun c b => crcBits 8 (Nat.xor c b.toNat)) 0xFFFFFFFF) 0xFFFFFFFF)

/-! ## Descriptors (R394) -/

def shSid (d : List Byte) : Nat := fieldOf d 0 2
def shNside (d : List Byte) : Nat := fieldOf d 12 4
def shSide (d : List Byte) : Nat := fieldOf d 32 8
def shNocode (d : List Byte) : Bool := fieldOf d 4 1 % 2 == 1

/-- A shuffle's number in a unit's tag. -/
def sidOf (ctx sid : Nat) : Nat := 65536 * ctx + sid
def CollOp.sid (o : CollOp) : Nat := sidOf o.ctx (shSid o.desc)

/-- The running shuffle of a number: its die and operation. -/
def findShf (s : State) (sid : Nat) : Option (Nat × CollOp) :=
  let on (die : Nat) : Option (Nat × CollOp) :=
    ((getEng s die).ops.find? fun o => o.shf && o.st != 2 && o.sid == sid).map fun o => (die, o)
  (on 0).orElse fun _ => on 1

/-- R394: the fields in their limits, the side list's place apart. -/
def shfDescOk (d : List Byte) : Bool :=
  shSid d != 0 && decide (fieldOf d 2 2 < 4096) && decide (fieldOf d 4 1 < 2) && fieldOf d 5 3 == 0
    && shBsize d % 256 == 0 && decide (256 ≤ shBsize d) && decide (shBsize d ≤ 65536) && decide (shNside d ≤ 256)
    && userAddr (dSrc d) 256 && userAddr (dDst d) 256 && shSide d % 16 == 0 && userAddr (dStatus d) 32
    && fieldOf d 48 16 == 0

/-- The side list's bytes: an error where it does not lie in one slot's allocation, none to wait. -/
def readSides (s : State) (d : List Byte) : Except Nat (Option (List Byte)) :=
  let ea := dwOf (shSide d)
  let n := 16 * shNside d
  match resolveSpad s ea 16 n with
  | .error _ => .error 1
  | .ok loc =>
    match gate s s.th.place.die .rd loc ea n with
    | .go => .ok (some (peekLoc s s.th.place.die 0 loc n))
    | .park => .ok none
    | .wait => .ok none
    | .bad _ => .error 1

/-- The declarations of a side list, and how many of its entries are refused outright. -/
def sideList (bs : List Byte) : Nat → List (Nat × Nat × Nat) × Nat
  | 0 => ([], 0)
  | n + 1 =>
    let r := sideList (bs.drop 16) n
    if fieldOf bs 12 4 = 0 then ((fieldOf bs 8 2, fieldOf bs 10 2, fieldOf bs 0 8) :: r.1, r.2) else (r.1, r.2 + 1)

/-! ## Side information (R396, R397) -/

/-- A flit that names a block or a unit: ADDR holds SID, sender, receiver and unit (log 15). -/
def unitFlit (s : State) (ty vl dst : Nat) (u : UnitTag) : Flit :=
  { mkFlit s ty vl dst with
    ctx := u.sid / 65536, addr := u.sid % 65536 + 0x10000 * u.snd + 0x100000000 * u.rcv + 0x1000000000000 * u.k }

/-- An entry leaves the table: its lock goes, and the switch is told. -/
def evictSide (s : State) (die : Nat) (u : UnitTag) (count : Bool) : State :=
  let e := getEng s die
  if e.side.any fun x => x.u == u then
    let s1 := dropLocks (setEng s die { e with
      side := e.side.filter fun x => x.u != u,
      ops := e.ops.map fun o => if count && o.shf && o.st != 2 && o.sid == u.sid then { o with evict := o.evict + 1 } else o })
      (.side die u)
    { s1 with out := s1.out ++ [unitFlit s1 0x23 5 0 u] }
  else s

/-- What a declaration meets (R396). -/
inductive SideCheck
  | lost
  | refuse
  | enter (segs : List CopySeg)
  deriving DecidableEq, Repr

def checkSide (s : State) (die : Nat) (o : CollOp) (snd rcv addr : Nat) : SideCheck :=
  let own := o.own s
  let r := copySegs s (336 * die) (o.xctx s) .rd 3 addr (shBsize o.desc)
  if o.n ≤ snd || o.n ≤ rcv || snd = own || rcv = own || snd = rcv || !userAddr addr 256 then .refuse
  else if r.1.any (fun c => c != cPageFault && c != cTableFault) || (genOf s o.keyId).isNone then .refuse
  else if !r.1.isEmpty then .lost
  else if (rangeLocks (.coll die o.slot) die false r.2).any (fun l =>
      s.mem.locks.any fun k => k.dest && k.owner != .coll die o.slot && decide (k.lo < l.hi) && decide (l.lo < k.hi)) then .refuse
  else .enter r.2

/-- R396: enter a declaration; a full table loses the least recently declared entry of the die. -/
def enterSide (s : State) (die : Nat) (o : CollOp) (u : UnitTag) (segs : List CopySeg) : State :=
  let s0 := evictSide s die u false
  let s1 := if 1024 ≤ (getEng s0 die).side.length then
      match (getEng s0 die).side with
      | [] => s0
      | x :: _ => evictSide s0 die x.u true
    else s0
  let e := getEng s1 die
  let s2 := setEng s1 die { e with side := e.side ++ [{ u := u, lid := o.lid, ctx := o.ctx, keyId := o.keyId, segs := segs }] }
  { s2 with mem := { s2.mem with locks := s2.mem.locks ++ rangeLocks (.side die u) die false segs },
            out := s2.out ++ [unitFlit s2 0x22 7 0 u] }

/-- Judge the declarations that a shuffle still owes, up to one that waits for a page. -/
def judgeSides : Nat → State → Nat → Nat → State
  | 0, s, _, _ => s
  | fuel + 1, s, die, slot =>
    match findColl s die slot with
    | none => s
    | some o =>
      match o.sides with
      | [] => s
      | (snd, rcv, addr) :: rest =>
        match checkSide s die o snd rcv addr with
        | .lost => if o.lost then s else setColl s die { o with lost := true }
        | .refuse => judgeSides fuel (setColl s die { o with sides := rest, lost := false, sideRej := o.sideRej + 1 }) die slot
        | .enter segs =>
          judgeSides fuel (enterSide (setColl s die { o with sides := rest, lost := false }) die { o with sides := rest }
            ⟨o.sid, snd, rcv, 0⟩ segs) die slot

def runSides (s : State) (die slot : Nat) : State :=
  match findColl s die slot with
  | none => s
  | some o => judgeSides (o.sides.length + 1) s die slot

/-- R397. -/
def execShfSide (f : FmtC) (c : Reg) (off : BitVec 16) (s : State) : Out :=
  guarded s f.p fun s => oldest s fun s =>
    let x := s.th.ctx
    let v := (x.reg f.d).toNat
    let ea := eaOff x f.a off
    let sid := sidOf s.th.place.ctx ((x.reg c).toNat % 65536)
    let snd := v % 1024
    let rcv := v / 65536 % 1024
    let plain := v / 1024 % 64 == 0 && v / 0x4000000 % 32 == 0
    match findShf s sid with
    | none => retire s
    | some (die, o) =>
      if die != s.th.place.die then retire s
      else if !plain then retire (setColl s die { o with sideRej := o.sideRej + 1 })
      else if v / 0x80000000 = 1 then
        let s1 := setColl s die { o with sides := o.sides.filter fun y => !(y.1 == snd && y.2.1 == rcv) }
        retire (evictSide s1 die ⟨sid, snd, rcv, 0⟩ true)
      else retire (runSides (setColl s die { o with sides := o.sides ++ [(snd, rcv, ea.toNat)] }) die o.slot)

/-! ## Posting (R395) -/

/-- R395. The cluster has made its external effect whatever the descriptor is found to be (R336). DESIGN CHOICE (log 42): a group that
R380 refuses raises PROT before any other field of the descriptor is judged. -/
def execShfPost (f : FmtC) (off : Option (BitVec 16)) (s : State) : Out :=
  guarded s f.p fun s => oldest s fun s0 =>
    let ea := eaXO s0.th.ctx f.a off
    let s := setExt s0
    match readDesc s0 ea, findLaunch s0 s0.th.id.lid with
    | .error e, _ => raise s e
    | .ok none, _ => .next s0
    | .ok (some _), none => .next s0
    | .ok (some d), some l =>
      let die := s.th.place.die
      let grp := dGroup d % 4096
      let ms := groupMembers s grp
      if dGroup d < 4096 && !groupOk s grp s.th.place.ctx then raiseCode s cProt ea
      else if !shfDescOk d || !ms.contains s.fab.selfIdx.toNat || (findShf s (sidOf l.ctx (shSid d))).isSome then
        endArm s f (errHandle 1) false
      else
        match readSides s d with
        | .error _ => endArm s f (errHandle 1) false
        | .ok none => .next s0
        | .ok (some bs) =>
          match freeSlot (getEng s die) with
          | none => .next s0
          | some n =>
            let sl := sideList bs (shNside d)
            let o := { mkColl s l (some s.th.id) f.dc true d 255 0 grp none with sides := sl.1, sideRej := sl.2 }
            let s1 := takeSlot s die n o
            let s2 := match findColl s1 die n with
              | none => s1
              | some p => launchColl s1 die p
            endArm (runSides s2 die n) f (handleOf n die ((getEng s2 die).gens.getD n 0) true) true

/-! ## Units (R395, R400) -/

/-- Unit `k` of the block at `a` of an operation's memory. -/
def unitAt (s : State) (die : Nat) (o : CollOp) (a k : Nat) : List Byte := collRead s die o (a + 256 * k) 256

/-- Units of the blocks that this device sends to position `j` (R395), on lane 3. -/
def sendUnits (s : State) (die : Nat) (o : CollOp) (j : Nat) : List Flit :=
  let a := dSrc o.desc + j * shBsize o.desc
  (List.range (shBsize o.desc / 256)).map fun k =>
    { unitFlit s 0x20 7 (o.members.getD j 0) ⟨o.sid, o.own s, j, k⟩ with
      keyid := o.keyId, nocode := shNocode o.desc, payload := unitAt s die o a k }

/-- The start: the own block is copied, every other block is sent (R395). -/
def startShuffle (s : State) (die : Nat) (o : CollOp) : State :=
  let own := o.own s
  let b := shBsize o.desc
  let s1 := collWrite s o (dDst o.desc + own * b) (collRead s die o (dSrc o.desc + own * b) b)
  let flits := ((List.range o.n).filter fun j => j != own).flatMap (sendUnits s die o)
  let s1 := collTouch s1 die o
  setColl { s1 with out := s1.out ++ flits } die { o with fired := true }

/-- What a posted part still owes by itself: its declarations are judged (R396), and it comes to its launch point (R384, R395). -/
def postedOn (s : State) (die slot : Nat) : State :=
  let s1 := runSides s die slot
  match findColl s1 die slot with
  | none => s1
  | some o => if o.st = 0 && o.err = 0 then launchColl s1 die o else s1

/-- A launched part starts to send, once its side list is judged; not while a member is absent (R391), or its key gone (R220). -/
def startPart (s : State) (die slot : Nat) : State :=
  match findColl s die slot with
  | none => s
  | some o =>
    if o.st = 1 && !o.fired && o.sides.isEmpty && o.err = 0 && (genOf s o.keyId).isSome then
      (if memberAbsent s o then setColl s die { o with err := 0x10 } else startShuffle s die o)
    else s

/-- R395: every member has posted the shuffle. It starts sending. DESIGN CHOICE (log 69): when the posts of the other members are known
here is an event. -/
def execShuffleStart (die slot : Nat) (s : State) : Out :=
  match findColl s die slot with
  | none => .next s
  | some o =>
    if !o.shf || o.st = 2 || o.fired || o.err != 0 then .next s
    else .next (startPart (postedOn s die slot) die slot)

/-- A posted or running shuffle goes on by itself; the one of a group of one starts with its own post. -/
def postMove (s : State) (die slot : Nat) : State :=
  match findColl s die slot with
  | none => s
  | some o =>
    if !o.shf || o.st = 2 || o.err != 0 then s
    else if o.n ≤ 1 then startPart (postedOn s die slot) die slot
    else postedOn s die slot

/-- A flit dropped and counted (R371, R395). -/
def countDrop (s : State) : State := { s with fab := { s.fab with dropped := s.fab.dropped + 1 } }

/-- The unit is one that this device's part still awaits; the part runs from its post on, and its key is still there (R220). -/
def awaitsUnit (s : State) (o : CollOp) (u : UnitTag) : Bool :=
  o.st == 1 && (genOf s o.keyId).isSome && u.rcv == o.own s && decide (u.snd < o.n) && u.snd != o.own s && decide (u.k < shBsize o.desc / 256)
    && !o.units.contains u

/-- A unit lands in DST. -/
def landUnit (s : State) (o : CollOp) (u : UnitTag) (bs : List Byte) : State :=
  collWrite s o (dDst o.desc + u.snd * shBsize o.desc + 256 * u.k) bs

/-- R395, R400: an uncoded unit, `fallback` where it was sent again on request. -/
def execShuffleUnitUncoded (u : UnitTag) (_fallback : Bool) (data : List Byte) (s : State) : Out :=
  match findShf s u.sid with
  | none => .next (countDrop s)
  | some (die, o) =>
    if awaitsUnit s o u && data.length = 256 then
      .next (setColl (landUnit s o u data) die { o with units := o.units ++ [u], uncoded := o.uncoded + 1 })
    else .next (countDrop s)

/-- The side entry of a block, with a key that is still there (R220). -/
def sideOf (s : State) (die : Nat) (v : UnitTag) : Option Side :=
  (getEng s die).side.find? fun e => e.u == { v with k := 0 } && (genOf s e.keyId).isSome

/-- Where unit `v` is held here: its own source, or a side entry's copy, as an operation whose memory holds it at the address. -/
def heldIn (s : State) (die : Nat) (o : CollOp) (v : UnitTag) : Option (CollOp × Nat) :=
  if v.snd = o.own s then some (o, dSrc o.desc + v.rcv * shBsize o.desc)
  else (sideOf s die v).map fun e => ({ o with segs := e.segs, keyId := e.keyId }, (e.segs.map (·.va)).headD 0)

/-- R400: what this device holds of unit `v`. -/
def heldUnit (s : State) (die : Nat) (o : CollOp) (v : UnitTag) : Option (List Byte) :=
  (heldIn s die o v).map fun h => unitAt s die h.1 h.2 v.k

/-- R357: the copies that the reading of unit `v` leaves. -/
def heldTouch (s : State) (die : Nat) (o : CollOp) (v : UnitTag) : State :=
  match heldIn s die o v with
  | none => s
  | some h => readTouch s die h.1 (h.2 + 256 * v.k) 256

/-- R400: the unit `u` out of a coded one, if both check codes match. -/
def decodeUnit (h : Option (List Byte)) (cu cv : Word) (data : List Byte) : Option (List Byte) :=
  match h with
  | none => none
  | some b =>
    let x := data.zipWith (fun p q => p ^^^ q) b
    if b.length = 256 && crc32c b == cv && crc32c x == cu then some x else none

def freeResv (s : State) (die : Nat) (u v : UnitTag) : State :=
  let e := getEng s die
  setEng s die { e with resv := e.resv.filter fun r => !(r.u == u && r.v == v) }

/-- R400: coded unit of `u` for this device and `v` for the other receiver. -/
def codedFor (s : State) (die : Nat) (o : CollOp) (u v : UnitTag) (cu cv : Word) (data : List Byte) : State :=
  if awaitsUnit s o u && data.length = 256 && (getEng s die).resv.any (fun r => r.u == u && r.v == v) then
    let s1 := freeResv (heldTouch s die o v) die u v
    match decodeUnit (heldUnit s die o v) cu cv data with
    | some x => setColl (landUnit s1 o u x) die { o with units := o.units ++ [u], coded := o.coded + 1, decoded := o.decoded + 1 }
    | none =>
      let s2 := setColl s1 die { o with coded := o.coded + 1, dfault := o.dfault + 1 }
      { s2 with out := s2.out ++ [unitFlit s2 0x26 4 (o.members.getD u.snd 0) u] }
  else countDrop s

/-- R400: a coded unit, whichever of its two units is this device's; `cu` and `cv` are the check codes of `u` and `v`. -/
def execShuffleUnitCoded (u v : UnitTag) (cu cv : Word) (data : List Byte) (s : State) : Out :=
  match findShf s u.sid with
  | none => .next (countDrop s)
  | some (die, o) =>
    .next (if u.rcv = o.own s then codedFor s die o u v cu cv data else codedFor s die o v u cv cu data)

/-- R384, R400: the shuffle of a number whose SRC is still locked here: it runs, or has ended before its receivers. -/
def findSent (s : State) (sid : Nat) : Option (Nat × CollOp) :=
  let on (die : Nat) : Option (Nat × CollOp) :=
    (((getEng s die).ops ++ (getEng s die).past).find? fun o => o.shf && o.sid == sid && o.st == 2 && keepsSource s die o).map
      fun o => (die, o)
  (findShf s sid).orElse fun _ => (on 0).orElse fun _ => on 1

/-- One more unit sent again by a part, which runs or has ended. -/
def sentAgain (s : State) (die : Nat) (o : CollOp) : State :=
  let e := getEng s die
  let f (x : CollOp) : CollOp := if x.slot = o.slot && x.gen = o.gen then { x with fallback := x.fallback + 1 } else x
  setEng s die { e with ops := e.ops.map f, past := e.past.map f }

/-- R400: the sender sends a unit again, uncoded and flagged NOCODE. -/
def execFallbackRequest (u : UnitTag) (s : State) : Out :=
  match findSent s u.sid with
  | none => .next (countDrop s)
  | some (die, o) =>
    let a := dSrc o.desc + u.rcv * shBsize o.desc
    if o.st != 0 && (genOf s o.keyId).isSome && u.snd = o.own s && u.rcv < o.n && u.rcv != u.snd && u.k < shBsize o.desc / 256 then
      let s1 := sentAgain (readTouch s die o (a + 256 * u.k) 256) die o
      .next { s1 with out := s1.out ++ [{ unitFlit s1 0x20 7 (o.members.getD u.rcv 0) u with
        keyid := o.keyId, nocode := true, payload := unitAt s die o a u.k }] }
    else .next (countDrop s)

/-! ## Pairing and reservations (R398, R399) -/

/-- Decode-buffer slots of an engine. -/
def CollEngine.slots (e : CollEngine) : Nat := 128 * e.buf

/-- R398: the receiver of `v` at position `q` of the members holds the unit `h`: as its sender, or by a current entry of the shadow. -/
def receiverHolds (s : State) (members : List Nat) (q : Nat) (h : UnitTag) : Bool :=
  q == h.snd || s.fab.shadow.any fun x => x.1 == members.getD q 1024 && x.2.2 == { h with k := 0 }

/-- R398: conditions 1 to 3 of a pairing. DEDUCED (log 69): of a shuffle that does not run here the members are not known, and its
conditions 2 and 3 are the switch's own. -/
def mayPair (s : State) (u v : UnitTag) : Bool :=
  u.sid == v.sid && u.rcv != v.rcv && u.snd != u.rcv && v.snd != v.rcv && (match findShf s u.sid with
    | none => true
    | some (_, o) => receiverHolds s o.members u.rcv v && receiverHolds s o.members v.rcv u)

/-- The Prism has already asked for the pair (R399): what its shadow loses after that does not undo it. -/
def pairStands (s : State) (u v : UnitTag) : Bool := s.fab.pairs.any fun p => p.u == u && p.v == v

/-- The pair, with the answers so far. -/
def pairOf (s : State) (u v : UnitTag) : Pairing := (s.fab.pairs.find? fun p => p.u == u && p.v == v).getD ⟨u, v, none, none⟩

def setPair (s : State) (p : Pairing) : State :=
  { s with fab := { s.fab with pairs := (s.fab.pairs.filter fun q => !(q.u == p.u && q.v == p.v)) ++ [p] } }

/-- The answer to a reservation, 0x25: AUX 1 grants, 0 refuses. -/
def answerResv (s : State) (u : UnitTag) (ok : Bool) : State :=
  { s with out := s.out ++ [{ unitFlit s 0x25 5 0 u with aux := if ok then 1 else 0 }] }

/-- R395, R398, R399: a Prism that may pair `u` with `v` asks; a receiver grants a slot or refuses. -/
def execDecodeReserve (u v : UnitTag) (s : State) : Out :=
  match findShf s u.sid with
  | none => .next (answerResv s u false)
  | some (die, o) =>
    let e := getEng s die
    let mine := if u.rcv = o.own s then u else v
    let other := if u.rcv = o.own s then v else u
    if o.st = 1 && mine.rcv = o.own s && e.resv.length < e.slots && !shNocode o.desc && (pairStands s u v || mayPair s u v) then
      let dev := o.members.getD mine.snd 0
      let inc := (keyGet s.fab.incs dev).getD 0
      .next (answerResv (setPair (setEng s die { e with resv := e.resv ++ [⟨dev, inc, mine, other⟩] }) (pairOf s u v)) mine true)
    else .next (answerResv s mine false)

/-- R398, R399: a grant or refusal reaches the Prism, for a pair that it may code. Once both are in, a refusal releases any grant. -/
def execReserveGrant (u v : UnitTag) (atU granted : Bool) (s : State) : Out :=
  let p := pairOf s u v
  let q := if atU then { p with atU := some granted } else { p with atV := some granted }
  let rest := s.fab.pairs.filter fun p => !(p.u == u && p.v == v)
  let release (s : State) : State := match findShf s u.sid with
    | none => s
    | some (die, _) => freeResv (freeResv s die u v) die v u
  if !(pairStands s u v || mayPair s u v) then .next s
  else .next (match q.atU, q.atV with
  | some true, some true => { s with fab := { s.fab with pairs := rest } }
  | some _, some _ => release { s with fab := { s.fab with pairs := rest } }
  | _, _ => setPair s q)

/-- R399: what an ended part held of the decode buffer, and the pairs of its shuffle that a Prism still asked for. -/
def freePart (s : State) (die sid : Nat) : State :=
  let e := getEng s die
  let s1 := setEng s die { e with resv := e.resv.filter fun r => r.u.sid != sid }
  { s1 with fab := { s1.fab with pairs := s1.fab.pairs.filter fun p => p.u.sid != sid } }

/-! ## The switch's shadow (R396) -/

/-- R375, R396: a declaration of the device's current incarnation is entered in the shadow. -/
def execSideDeclare (dev inc : Nat) (u : UnitTag) (s : State) : Out :=
  let stale := match keyGet s.fab.incs dev with
    | none => false
    | some i => i != inc
  .next (if stale then s else
    { s with fab := { s.fab with shadow := (s.fab.shadow.filter fun x => !(x.1 == dev && x.2.2 == u)) ++ [(dev, inc, u)] } })

/-- R396. -/
def execSideEvict (dev : Nat) (u : UnitTag) (s : State) : Out :=
  .next { s with fab := { s.fab with shadow := s.fab.shadow.filter fun x => !(x.1 == dev && x.2.2 == u) } }

end Sys2Proof.Machine
end

