-- ==== Sys2Proof/Machine/Record.lean ====
section
/-! DEFINITION. Launch records (R223, R362 to R365, R392), the taking of a record from its queue, fault and completion records
(R341 to R343, R367), and the end of a launch (R366, R367, R423). -/

namespace Sys2Proof.Machine

/-! ## The record (R363) -/

/-- R324: a word that reads as a valid header. -/
def headerOk (w : Nat) : Bool := decide (1 ≤ w / 0x10000000) && w % 0x20000 == 0

/-- R223. -/
def heapOk (code clen hb hl ho : Nat) : Bool :=
  hb % 65536 == 0 && hl % 65536 == 0 && ho % 65536 == 0 && decide (hb ≤ hl) && decide (hl ≤ 2 ^ 56)
    && (hb == hl || (inHbm ((hb + ho) % 2 ^ 64) (hl - hb) && (decide (code + clen ≤ hb) || decide (hl ≤ code))))

/-- R250, R363: SPEC. -/
def specOk (v : Nat) : Bool :=
  v % 4 != 3 && v / 8 % 32 == 0 && v / 0x100 % 16 != 0 && v / 0x1000 % 16 != 0 && decide (4 ≤ v / 0x10000 % 16)
    && decide (v / 0x10000 % 16 ≤ 12) && v / 0x100000 == 0

/-- Threads of slot `i` of a cluster (R139): of the team, or of the half of a paired team on that core. -/
def slotThreads (groups width : Nat) (paired : Bool) (i : Nat) : Nat :=
  (if !paired then groups else if i % 2 = 0 then (groups + 1) / 2 else groups / 2) * width

/-- R198: the allocation of slot `i`. -/
def slotSize (spad : Nat) (paired : Bool) (i : Nat) : Nat :=
  if !paired then spad else if i % 2 = 0 then (spad + 8191) / 8192 * 4096 else spad - (spad + 8191) / 8192 * 4096

/-- R363: every limit but those of HANDLER's word and of BIND. -/
def recordOk (b : List Byte) : Bool :=
  let f := fieldOf b
  let code := f 0 8
  let clen := f 8 4
  let paired := f 43 1 == 1
  let alloc := f 44 2
  let hand := f 104 8
  decide (code < 2 ^ 56) && code % 4096 == 0 && clen % 4 == 0 && decide (8 ≤ clen) && decide (clen ≤ 2 ^ 31)
    && f 12 4 % 4 == 0 && decide (f 12 4 < clen) && f 16 8 % 16 == 0 && f 24 4 % 4 == 0 && decide (f 24 4 ≤ 65536)
    && f 28 2 != 0 && decide (f 30 2 < 4096)
    && f 32 2 != 0 && f 34 2 != 0 && f 36 2 != 0 && decide (f 32 2 * f 34 2 * f 36 2 ≤ 2 ^ 31)
    && f 38 1 != 0 && decide (f 38 1 < 4) && decide (f 39 1 < 8)
    && f 40 1 != 0 && decide (f 40 1 ≤ if paired then 6 else 12) && f 41 1 != 0 && decide (f 41 1 ≤ 32)
    && [16, 32, 64].contains (f 42 1) && decide (f 43 1 < 2) && [64, 96, 128, 192, 256].contains alloc
    && decide (f 46 1 ≤ 12) && f 47 1 == 0 && f 48 4 % 4096 == 0 && decide (f 48 4 ≤ if paired then 0x200000 else 0x100000)
    && f 52 4 == 0 && f 56 8 % 16 == 0 && f 64 4 % 16 == 0 && f 68 4 == 0
    && heapOk code clen (f 72 8) (f 80 8) (f 88 8) && f 96 8 % 4096 == 0 && inHbm (f 96 8) 4096
    && (hand == 0 || (hand % 4 == 0 && decide (code ≤ hand) && decide (hand < code + clen)))
    && f 112 8 % 64 == 0 && f 120 8 % 64 == 0 && decide (f 128 1 < 16) && decide (11 ≤ f 129 1) && decide (f 129 1 ≤ 16)
    && decide (12 ≤ f 130 1) && decide (f 130 1 ≤ 20) && f 131 1 == 0 && specOk (f 132 4) && f 136 24 == 0
    && f 192 56 == 0 && f 248 8 == 0
    -- R364: a team fits one core, or two
    && decide (slotThreads (f 41 1) (f 42 1) paired 0 * alloc ≤ 98304) && decide (slotThreads (f 41 1) (f 42 1) paired 0 ≤ 1536)

/-- The launch of a record, as its opening leaves it. -/
def launchOf (lid pa queue : Nat) (b : List Byte) : Launch :=
  let f := fieldOf b
  let pol := f 128 1
  { lid := lid, recAddr := pa, queue := queue, code := dwOf (f 0 8), clen := f 8 4, entry := f 12 4, args := dwOf (f 16 8),
    arglen := f 24 4, ctx := f 28 2, keyId := f 30 2, n := f 32 2 * f 34 2 * f 36 2, dieMask := f 38 1, teams := f 40 1,
    groups := f 41 1, width := f 42 1, paired := f 43 1 == 1, alloc := f 44 2, accRes := f 46 1, spad := f 48 4,
    rsArea := dwOf (f 56 8), rsPer := f 64 4, hbase := dwOf (f 72 8), hlim := dwOf (f 80 8), hoff := dwOf (f 88 8), root := f 96 8,
    handler := dwOf (f 104 8), faults := f 112 8, compl := f 120 8, noProm := bitN pol 0, replay := bitN pol 1,
    fatalAll := bitN pol 2, tq := bitN pol 3, flog := f 129 1, dwLog := f 130 1, spec := wOf (f 132 4),
    bind := (b.drop 160).take 32, codePhys := [], placed := 0, status := 0, firstC := 0xFFFFFFFF, discard := 0, saves := 0,
    replays := 0, asyncN := 0, asyncErr := 0, asyncSlot := 0, asyncPos := 0, asyncReq := 0, asyncClus := 0, asyncTeam := 0,
    ended := false, closed := false, stopped := 0, complete := false, passed := false }

/-- Bytes under a launch's context and key, read by its launch processor on `die`; none where a read fails. -/
def launchRead (s : State) (die : Nat) (l : Launch) (va n : Nat) : Option (List Byte) :=
  if 2 ^ 56 < va + n then none
  else
    match xlate s (336 * die) l.xctx va .rd, genOf s l.keyId with
    | .ok (pa, mir), some g =>
      let p := replica pa mir die
      if lockHit s.mem p n || badHit s.mem p n false then none else some (physRead s.mem g p n)
    | _, _ => none

/-- R169: the read would meet a held range, and waits. -/
def launchBusy (s : State) (die : Nat) (l : Launch) (va n : Nat) : Bool :=
  match xlate s (336 * die) l.xctx va .rd with
  | .ok (pa, mir) => !fwMayRead s (replica pa mir die) n
  | .error _ => false

/-- The copies that such a read leaves in the slice of its die (R219, R357). -/
def launchTouch (s : State) (die : Nat) (l : Launch) (va n : Nat) : State :=
  match xlate s (336 * die) l.xctx va .rd, genOf s l.keyId with
  | .ok (pa, mir), some g => fwTouch (walked s 0 (336 * die) l.xctx va) die g (replica pa mir die) n
  | _, _ => s

/-- R324: HANDLER's word. -/
def handlerOk (s : State) (die : Nat) (l : Launch) : Bool :=
  l.handler == 0 || (match launchRead s die l l.handler.toNat 4 with
    | none => false
    | some bs => headerOk (natOfBytes bs))

/-! ## Bindings (R392) -/

def Launch.bDesc (l : Launch) : Nat := fieldOf l.bind 0 8
def Launch.nChunk (l : Launch) : Nat := fieldOf l.bind 8 2
def Launch.cpc (l : Launch) : Nat := fieldOf l.bind 10 2
def Launch.ctrBase (l : Launch) : Nat := fieldOf l.bind 12 1
def Launch.bDie (l : Launch) : Nat := fieldOf l.bind 13 1

/-- The clusters of chunk `c`. -/
def Launch.inChunk (l : Launch) (c : Nat) : Nat := Nat.min l.cpc (l.n - l.cpc * c)

/-- Descriptor of chunk `c`, its CTR and THRESH replaced. -/
def chunkDesc (s : State) (die : Nat) (l : Launch) (c : Nat) : Option (List Byte) :=
  (launchRead s die l (l.bDesc + 64 * c) 64).map fun d =>
    d.take 4 ++ bytesOfNat 1 (l.ctrBase + c) ++ (d.drop 5).take 3 ++ bytesOfNat 4 (l.teams * l.inChunk c) ++ d.drop 12

/-- R392: what refuses a record; an unreadable descriptor does too. -/
def bindOk (s : State) (die : Nat) (l : Launch) : Bool :=
  decide (l.bDesc < 2 ^ 56) && l.bDesc % 64 == 0 && decide (l.nChunk ≤ 64) && decide (l.ctrBase + l.nChunk ≤ 64)
    && decide (l.bDie < 2) && (l.bind.drop 14).all (fun b => b == 0)
    && (l.nChunk == 0 || (l.cpc != 0 && l.nChunk == (l.n + l.cpc - 1) / l.cpc
      && (List.range l.nChunk).all fun c => !ctrElse s l.bDie (l.ctrBase + c) l.lid && (match chunkDesc s die l c with
          | none => false
          | some d => decide (dKind d ≤ 3))))

/-- R342: a failure of a collective of a launch goes to its fault record; the fields that name an engine position hold free values. -/
def chunkFail (s : State) (lid code : Nat) (req : DWord) : State :=
  match findLaunch s lid with
  | none => s
  | some l =>
    let w (k : Nat) : Nat := (Config.freeWord (s.fresh + k)).toNat
    let first : Launch :=
      { l with asyncN := 1, asyncErr := code, asyncSlot := w 0 % 256, asyncPos := w 1 % 256, asyncReq := req, asyncClus := w 2,
               asyncTeam := w 3 }
    writeLaunchFault { s with fresh := s.fresh + 4 } (if l.asyncN = 0 then first else { l with asyncN := l.asyncN + 1 })

/-- Arm chunk `c` in the lowest free slot of BDIE; a descriptor that breaks R385 or names no group of the launch fails at once. -/
def armChunk (die : Nat) (l : Launch) (s : State) (c : Nat) : State :=
  match chunkDesc s die l c, freeSlot (getEng s l.bDie) with
  | some d, some n =>
    let grp := dGroup d % 4096
    if groupOk s grp l.ctx && collDescOk d (groupMembers s grp).length then
      armColl s l.bDie n (mkColl s l none 6 false d (l.ctrBase + c) (dThresh d) grp (some c))
    else chunkFail s l.lid 1 (dwOf (l.bDesc + 64 * c))
  | _, _ => s

/-- R392: at the launch's start its counters are held and zero, and its chunks armed. -/
def startBind (s : State) (die : Nat) (l : Launch) : State :=
  let s1 := (List.range l.nChunk).foldl (fun s c => setCtr (holdCtr s l.bDie (l.ctrBase + c) l.lid) l.bDie (l.ctrBase + c) 0) s
  (List.range l.nChunk).foldl (armChunk die l) s1

/-- What a launch processor reads under the launch's context: HANDLER's word and the bound descriptors (R324, R392). -/
def recordReads (l : Launch) : List (Nat × Nat) :=
  (if l.handler == 0 then [] else [(l.handler.toNat, 4)]) ++ (List.range l.nChunk).map fun c => (l.bDesc + 64 * c, 64)

/-- R35: the pieces of the code range as the launch starts. -/
def codeSegs (s : State) (die : Nat) (l : Launch) : List (Nat × Nat) :=
  (copySegs s (336 * die) l.xctx .rd (l.clen / 65536 + 2) l.code.toNat l.clen).2.flatMap fun g =>
    (replicas g.pa g.mir).map fun p => (p, g.len)

/-- R169: one of those reads would meet a held range. DESIGN CHOICE (log 71): nor does a launch start while an operation is still to
write a part of its code range, so that a fetch sees the words that the operation left (R35). -/
def recordBusy (s : State) (die : Nat) (l : Launch) : Bool :=
  ((recordReads l).any fun r => launchBusy s die l r.1 r.2)
    || (codeSegs s die l).any fun r => s.mem.locks.any fun k => k.dest && decide (k.lo < r.1 + r.2) && decide (r.1 < k.hi)

def freeSlots (e : CollEngine) : Nat := ((List.range 64).filter fun n => !(e.ops.any fun o => o.slot == n && o.st != 2)).length

/-! ## Queues (R362) -/

/-- A word of a launch record, under key id 0. -/
def zeroWord (s : State) (pa : Nat) : Nat := natOfBytes (readZero s pa 4)

def ticketOf (s : State) (l : Launch) : Nat := zeroWord s (l.recAddr + 248)
def doneOf (s : State) (l : Launch) : Nat := zeroWord s (l.recAddr + 252)

/-- An atomic add of the launch processor to a word under key id 0. -/
def addZero (s : State) (pa n : Nat) : State := fwAdd s (gen0 s) pa n

/-- Launches of a queue that CONS has not passed, oldest first. -/
def pendingOf (s : State) (q : Nat) : List Launch := s.launches.filter fun l => l.queue == q && !l.passed

/-- CONS passes every complete record at the head of its queue. -/
def settleCons : Nat → State → Nat → State
  | 0, s, _ => s
  | fuel + 1, s, q =>
    match pendingOf s q with
    | [] => s
    | l :: _ =>
      if l.complete then
        let s1 := setLaunch s { l with passed := true }
        settleCons fuel (addZero s1 ((s.ctl.queues.getD q 0).toNat + 16) 1) q
      else s

def passQueue (s : State) (q : Nat) : State := settleCons (s.launches.length + 1) s q

/-- R367: the completion record; DONEF is its last store. -/
def writeCompletion (s : State) (l : Launch) (status : Nat) : State :=
  let s1 := fwStore s (gen0 s) l.compl
    (bytesOfNat 1 status ++ bytesOfNat 1 0 ++ bytesOfNat 2 l.ctx ++ bytesOfNat 4 l.placed ++ bytesOfNat 4 l.discard
      ++ bytesOfNat 4 l.saves ++ bytesOfNat 4 l.replays ++ bytesOfNat 4 l.firstC ++ List.replicate 40 0)
  fwStore s1 (gen0 s1) (l.compl + 1) [1]

/-- R364: a refused launch. -/
def refuseLaunch (s : State) (l : Launch) : State :=
  let l1 := { l with complete := true, closed := true, stopped := 3, status := 0x81 }
  passQueue (writeCompletion { s with launches := s.launches ++ [l1] } l1 0x81) l.queue

/-- The opening of an accepted record: its code range's places are fixed (R35), and its binding is armed. -/
def openLaunch (s : State) (die : Nat) (l : Launch) : State :=
  let l1 := { l with codePhys := codeSegs s die l }
  let s1 := (recordReads l).foldl (fun s r => launchTouch s die l r.1 r.2) s
  startBind { s1 with launches := s1.launches ++ [l1] } die l1

/-- R362: the record before has all its clusters claimed; while a lock holds its TICKET that cannot be read (R169). -/
def turnReached (s : State) (l : Launch) : Bool :=
  l.complete || (fwMayRead s (l.recAddr + 248) 4 && decide (l.n ≤ ticketOf s l))

/-- R219, R357: the slice of the reading die takes copies of a queue's header and of a record. -/
def takeTouch (s : State) (die hdr pa : Nat) : State := fwTouch (fwTouch s die (gen0 s) hdr 64) die (gen0 s) pa 256

/-- R362, R364: a launch processor opens the next record of a queue. -/
def execLaunchRecordTake (die queue : Nat) (s : State) : Out :=
  if !s.ctl.up || 2 ≤ die || 16 ≤ queue || !queueValid s queue then .next s
  else
    let h := qHeader s queue
    let mine := pendingOf s queue
    let pa := h.recAt (h.cons + mine.length)
    let hdr := (s.ctl.queues.getD queue 0).toNat
    if !fwMayRead s hdr 64 || !fwMayRead s pa 256 then .next s
    else if h.fill ≤ mine.length || !(mine.all (turnReached s)) || badHit s.mem pa 256 false then .next s
    else
      let b := readZero s pa 256
      let l := launchOf (1 + s.launches.foldl (fun m l => Nat.max m l.lid) 0) pa queue b
      let busy := recordBusy s die l
      let s := takeTouch s die hdr pa
      if recordOk b && busy then .next s
      else if !recordOk b || !handlerOk s die l || !bindOk s die l then .next (refuseLaunch s l)
      else if !bitN l.dieMask die || freeSlots (getEng s l.bDie) < l.nChunk then .next s
      else .next (openLaunch s die l)

/-! ## Completion (R343, R367) -/

/-- The bound chunks of a launch, with their dies. -/
def chunksOf (s : State) (lid : Nat) : List (Nat × CollOp) :=
  let f (die : Nat) : List (Nat × CollOp) := ((getEng s die).ops.filter fun o => o.lid == lid && o.chunk.isSome && o.st != 2).map fun o => (die, o)
  f 0 ++ f 1

/-- Address of a bound chunk's descriptor. -/
def chunkAddr (s : State) (o : CollOp) : DWord :=
  match findLaunch s o.lid, o.chunk with
  | some l, some c => dwOf (l.bDesc + 64 * c)
  | _, _ => 0

/-- R392: a chunk that never fired is cancelled, at once or when its status record can be written. -/
def cancelChunk (s : State) (x : Nat × CollOp) : State :=
  let gone := chunkFail (setColl (writeStatus s x.1 x.2 0x12) x.1 { x.2 with st := 2, err := 0x12 }) x.2.lid 0x12 (chunkAddr s x.2)
  match statusPieces s x.1 x.2 with
  | .ok none => setColl s x.1 { x.2 with err := 0x12, lost := true }
  | .ok (some segs) => if statusWaits s x.2 segs then setColl s x.1 { x.2 with err := 0x12 } else gone
  | .error _ => gone

/-- R160: entries of the launch's deques, discarded. -/
def dropDeques (s : State) (lid : Nat) : State × Nat :=
  let mine := s.cores.filter fun k => k.2.owner == some lid
  let s1 := mine.foldl (fun s k => setCore s k.1 { k.2 with deque := [], owner := none, dqBad := [] }) s
  (s1, mine.foldl (fun n k => n + k.2.deque.length) 0)

/-- The completion itself. -/
def completeLaunch (s : State) (l : Launch) : State :=
  let d := dropDeques s l.lid
  let status := if l.ended then 0x80 else if l.status != 0 then l.status else if l.asyncN != 0 then 0x11 else 0
  let l1 := { l with discard := d.2, complete := true, closed := true, stopped := 3, status := status,
                      firstC := if l.ended then 0xFFFFFFFF else l.firstC }
  let s1 := freeCtrs (setLaunch d.1 l1) l.lid
  let s2 := passQueue (writeCompletion s1 l1 status) l.queue
  (s.cores.map (·.1)).foldl settleDeque s2

/-- R367: the clusters of a launch that claims no more and has not claimed count as done, once its TICKET can be read (R169). -/
def settleTicket (s : State) (l : Launch) : State :=
  if l.stopped != 3 || !fwMayRead s (l.recAddr + 248) 4 || l.n ≤ ticketOf s l then s
  else addZero (fwStore s (gen0 s) (l.recAddr + 248) (bytesOfNat 4 l.n)) (l.recAddr + 252) (l.n - ticketOf s l)

/-- R367, R392: every cluster of the launch is done: bound chunks end, and the launch completes. A lock on its TICKET or DONE is
waited for (R169). -/
def tryComplete (s0 : State) (lid : Nat) : State :=
  match findLaunch s0 lid with
  | none => s0
  | some l =>
    let s := if l.complete then s0 else settleTicket s0 l
    if l.complete || !fwMayRead s (l.recAddr + 252) 4 || doneOf s l < l.n || s.clusters.any (fun k => k.id.lid == lid) then s
    else
      let s1 := ((chunksOf s lid).filter fun x => !x.2.fired).foldl cancelChunk s
      if (chunksOf s1 lid).isEmpty then
        match findLaunch s1 lid with
        | none => s1
        | some l1 => completeLaunch s1 l1
      else s1

/-! ## Fault records (R341) -/

def teamRecAddr (l : Launch) (c team : Nat) : Nat := l.faults + 64 + (c * l.teams + team) * (128 + 32 * l.groups)

/-- What a team's record says of the trap that ended it. -/
structure Blame where
  cause : Nat
  nested : Bool
  tid : Nat
  pc : DWord
  addr : DWord
  info : Word
  deriving DecidableEq, Repr

def Blame.none : Blame := ⟨0, false, 0, 0, 0, 0⟩

def teamRecord (tm : Team) (status : Nat) (b : Blame) : List Byte :=
  let bit (p : Bool) (k : Nat) : Nat := if p then k else 0
  bytesOfNat 1 status ++ bytesOfNat 1 b.cause
    ++ bytesOfNat 1 (bit b.nested 1 + bit (tm.asyncN != 0) 2 + bit (tm.groups.any fun g => g.kill != 0) 4 + bit (tm.replays != 0) 8)
    ++ bytesOfNat 1 0 ++ bytesOfNat 4 b.tid ++ bytesOfD b.pc ++ bytesOfD b.addr ++ bytesOfW b.info ++ bytesOfNat 4 tm.asyncN
    ++ bytesOfNat 1 tm.asyncErr ++ bytesOfNat 1 tm.asyncSlot ++ bytesOfNat 1 tm.asyncPos ++ List.replicate 5 0 ++ bytesOfD tm.asyncReq
    ++ bytesOfNat 4 tm.saves ++ bytesOfNat 4 tm.replays ++ List.replicate 72 0
    ++ tm.groups.flatMap fun g => bytesOfD g.kill ++ bytesOfD g.killPc ++ bytesOfD g.killAddr ++ List.replicate 8 0

def writeTeamRecord (s : State) (l : Launch) (c team : Nat) (tm : Team) (status : Nat) (b : Blame) : State :=
  fwStore s ((genOf s l.keyId).getD 0) (teamRecAddr l c team) (teamRecord tm status b)

/-! ## Ending a launch (R228, R367, R423) -/

/-- R367: unclaimed clusters count as done, and every other cluster is to be terminated; `ended` where software ends it. -/
def closeLaunch (s : State) (lid : Nat) (ended : Bool) : State :=
  match findLaunch s lid with
  | none => s
  | some l0 =>
    let l := { l0 with ended := l0.ended || ended, closed := true, stopped := 3 }
    let s1 := settleTicket (setLaunch s l) l
    let s2 := { s1 with clusters := s1.clusters.map fun k => if k.id.lid = lid then { k with status := .dying, argFault := if k.status = .dying then k.argFault else none } else k }
    tryComplete s2 lid

/-- R423: a write of the launch end register. -/
def writeLaunchEnd (s : State) (v : Word) : State :=
  if s.ctl.launchEnd.getLsbD 0 then s
  else
    let ctx := v.toNat / 16 % 65536
    let hits := (s.launches.filter fun l => !l.complete && l.ctx == ctx).map (·.lid)
    let go := v.getLsbD 0
    let status : Nat := if !go then s.ctl.launchEnd.toNat / 0x1000000 else if hits.isEmpty then 1 else 0
    let s1 := { s with ctl := { s.ctl with launchEnd := wOf (16 * ctx + 0x1000000 * status) } }
    if go then hits.foldl (fun s lid => closeLaunch s lid true) s1 else s1

/-- R423. -/
def execLaunchEnd (v : Word) (s : State) : Out := .next (writeLaunchEnd s v)

/-! ## The end of a part of a collective (R384, R391) -/

/-- The part has all it needs to complete. A shuffle's part also counts what it sends again (R391, R404), so it ends after every other
member has its units (log 42). -/
def partDone (s : State) (o : CollOp) : Bool :=
  o.st == 1 && o.err == 0 && o.fired && (dKind o.desc ≥ 4 || (genOf s o.keyId).isSome)
    && (if o.shf then o.units.length == (o.n - 1) * (shBsize o.desc / 256) && (o.unheard s).isEmpty else 4 ≤ dKind o.desc || collReady s o)

/-- R391: may the part end with code `err` now? -/
def partMay (s : State) (o : CollOp) (err : Nat) : Bool :=
  o.st != 2 && (if err = 0 then partDone s o
    else if o.err != 0 then o.err == err
    else if err = 5 then o.st == 1 && (genOf s o.keyId).isNone
    else if err = 0x10 then memberAbsent s o
    else (err == 0x11 || err == 0x13) && o.fired && decide (1 < o.n))

/-- The part ends: destinations, status record, locks, side entries, reservations (R399), its issuer's counter, its launch's fault
record; an uncorrectable error counts (R414). -/
def endPart (s0 : State) (die : Nat) (o : CollOp) (err : Nat) : State :=
  let s := if err = 6 then countUe s0 else s0
  let s1 := if o.st = 1 && (o.shf || dKind o.desc < 4) then
      (if (genOf s o.keyId).isNone then s else if err != 0 then doubtTarget s die o else if o.shf then s else collWrite s o o.target.1 (collResult s die o))
    else s
  let s2 := endLocks (writeStatus s1 die o err) die o
  let s3 := if o.shf then ((getEng s2 die).side.filter fun e => e.u.sid == o.sid).foldl (fun s e => evictSide s die e.u false)
      (freePart s2 die o.sid) else s2
  let s4 := setColl s3 die { o with st := 2, err := err }
  let s5 := match o.tid with
    | none => s4
    | some t => mapThreads s4 fun th => if th.id = t then dcDrop th o.dc else th
  let s6 := if err != 0 && o.chunk.isSome then chunkFail s5 o.lid err (chunkAddr s5 o) else s5
  tryComplete s6 o.lid

end Sys2Proof.Machine
end

