-- ==== Sys2Proof/Machine/ControlSpace.lean ====
section
/-! DEFINITION. The control space (R411 to R417, R422, R423): its registers word by word, their modes, reads and writes. -/

namespace Sys2Proof.Machine

/-! ## Regions (R411) -/

def ctlTop : Nat := Config.ctlBase + 0x10000000

def inCtl (pa : Nat) : Bool := decide (Config.ctlBase ≤ pa) && decide (pa < ctlTop)

/-- Regions of the control space, with the offset inside each. -/
inductive Region
  | caps (o : Nat)
  | inval (o : Nat)
  | queue (o : Nat)
  | fabric (o : Nat)
  | hartKey (h : Nat)
  | keyPort (o : Nat)
  | telemetry (o : Nat)
  | hartFault (h o : Nat)
  | launchEnd
  | ceop (core pos o : Nat)
  | loupe (u o : Nat)
  deriving DecidableEq, Repr

/-- R412: listed words of the fabric region. -/
def fabricWord (o : Nat) : Bool :=
  [0, 4, 8, 0x10, 0x14, 0x18, 0x1C].contains o || (0x100 ≤ o && o < 0x160) || (0x1000 ≤ o && o < 0x81000)

def telemetryWord (o : Nat) : Bool := [0, 4, 8, 0xC, 0x10, 0x14, 0x18, 0x20, 0x24, 0x28].contains o

/-- The listed word at offset `off`, a multiple of 4; none where no register stands. -/
def regionOf (off : Nat) : Option Region :=
  let at' (b n : Nat) : Bool := decide (b ≤ off) && decide (off < b + n)
  if off % 4 != 0 then none
  else if at' 0 80 then some (.caps off)
  else if at' 0x100000 16 then some (.inval (off - 0x100000))
  else if at' 0x200000 128 then some (.queue (off - 0x200000))
  else if at' 0x300000 0x81000 then (if fabricWord (off - 0x300000) then some (.fabric (off - 0x300000)) else none)
  else if at' 0x400000 64 then some (.hartKey ((off - 0x400000) / 4))
  else if off = 0x500000 || at' 0x500040 0xC0 then some (.keyPort (off - 0x500000))
  else if at' 0x600000 0x2C then (if telemetryWord (off - 0x600000) then some (.telemetry (off - 0x600000)) else none)
  else if at' 0x700000 256 then some (.hartFault ((off - 0x700000) / 16) ((off - 0x700000) % 16))
  else if off = 0x800000 then some .launchEnd
  else if at' 0x1000000 (672 * 0x10000) then
    let o := off - 0x1000000
    if o % 0x10000 < 0x200 && [0, 8, 12, 16].contains (o % 32) then some (.ceop (o / 0x10000) (o % 0x10000 / 32) (o % 32)) else none
  else if at' 0x4000000 0x2000 then
    (if (off - 0x4000000) % 0x100 < 0x50 then some (.loupe ((off - 0x4000000) / 0x100) ((off - 0x4000000) % 0x100)) else none)
  else none

/-- R411: the region is reached from the mode. -/
def Region.reached (m : HartMode) (r : Region) : Bool :=
  match m with
  | .user => false
  | .launch => true
  | .machine => (match r with
    | .keyPort _ => false
    | _ => true)
  | .supervisor => (match r with
    | .caps _ => true
    | .inval _ => true
    | .queue _ => true
    | .launchEnd => true
    | .loupe _ _ => true
    | _ => false)

/-! ## The capability list (R415, R416) -/

def Grade.layers : Grade → Nat
  | .sa4 => 4
  | .sa2 => 2

/-- Header of an entry: ID, version 1, length in 8-byte units, NEXT. -/
def capHeader (id len next : Nat) : List Byte := bytesOfNat 2 id ++ bytesOfNat 1 1 ++ bytesOfNat 1 len ++ bytesOfNat 4 next

/-- DESIGN CHOICE (log 19), unsafe: the four entries, in the order of their IDs. -/
def capList : List Byte :=
  let k := Grade.layers Config.grade
  capHeader 1 4 32 ++ bytesOfNat 2 2 ++ bytesOfNat 2 336 ++ bytesOfNat 2 k ++ bytesOfNat 2 256 ++ bytesOfNat 4 (4096 * k)
    ++ bytesOfNat 4 (2048 * k) ++ bytesOfNat 4 576 ++ bytesOfNat 2 1500 ++ bytesOfNat 2 16
    ++ capHeader 2 2 48 ++ bytesOfNat 2 18 ++ bytesOfNat 2 768 ++ bytesOfNat 2 4096 ++ bytesOfNat 2 0
    ++ capHeader 3 2 64 ++ bytesOfNat 2 32 ++ bytesOfNat 2 16 ++ bytesOfNat 2 6 ++ bytesOfNat 2 0
    ++ capHeader 4 2 0 ++ bytesOfW Config.svn ++ bytesOfNat 2 Config.mregs ++ bytesOfNat 2 0

/-! ## Reads -/

def wordAt (bs : List Byte) (o : Nat) : Word := wOf (fieldOf bs o 4)

/-- R301. -/
def ceopWord (s : State) (core pos o : Nat) : Word :=
  match findOp s core pos with
  | none => 0
  | some x =>
    if o = 0 then wOf (x.state + (if x.fail then 4 else 0) + 0x10 * x.err + 0x1000 * x.slot + 0x10000 * x.ctx)
    else if o = 8 then wOf x.nextSeen
    else if o = 12 then wOf (x.nextSeen / 0x100000000 % 256)
    else wOf x.cnt

/-- R422. -/
def HartFault.bytes (r : HartFault) : List Byte :=
  bytesOfD r.addr ++ [r.cause] ++ bytesOfNat 1 ((if r.v then 1 else 0) + (if r.st then 2 else 0) + (if r.ovf then 4 else 0))
    ++ List.replicate 6 0

/-- R412: SELF. -/
def selfWord (s : State) : Word := wOf (s.fab.selfIdx.toNat + 0x10000 * s.fab.selfInc.toNat)

def fabricRead (s : State) (o : Nat) : Word :=
  if o = 0 then wOf s.fab.tlog
  else if o = 4 then wOf s.fab.prism
  else if o = 8 then selfWord s
  else if o = 0x10 then loW s.fab.iflBase
  else if o = 0x14 then hiW s.fab.iflBase
  else if o = 0x18 then s.fab.iflHead
  else if o = 0x1C then s.fab.iflDrop
  else if o < 0x1000 then wOf (natOfBytes (Mem.load s.fab.member (o - 0x100) 4))
  else wOf (natOfBytes (Mem.load s.fab.groups (o - 0x1000) 4))

/-- R414. -/
def telemetryRead (s : State) (o : Nat) : Word :=
  let c := s.ctl
  if o = 0 then c.pwr
  else if o = 4 then c.temp0.zeroExtend 32
  else if o = 8 then c.temp1.zeroExtend 32
  else if o = 0xC then c.clk.zeroExtend 32
  else if o = 0x10 then c.pcap.zeroExtend 32
  else if o = 0x14 then wOf ((if c.capOn then 1 else 0) + (if c.tripOn then 2 else 0))
  else if o = 0x18 then 0x0690
  else if o = 0x20 then s.mem.ceHbm
  else if o = 0x24 then c.ceSram
  else c.ueCnt

/-- R417. -/
def loupeRead (l : Loupe) (o : Nat) : Word :=
  if o = 0 then l.ctl
  else if o = 4 then l.min
  else if o = 8 then l.max
  else if o = 12 then l.cnt
  else l.bins.getD ((o - 0x10) / 4) 0

def getHart (s : State) (h : Nat) : Hart := s.ctl.harts.getD h Hart.zero
def setHart (s : State) (h : Nat) (x : Hart) : State := { s with ctl := { s.ctl with harts := s.ctl.harts.set h x } }

/-- The value of a listed word. -/
def regionRead (s : State) (r : Region) : Word :=
  match r with
  | .caps o => wordAt capList o
  | .inval o => if o = 0 then s.xl.invCtl else if o = 8 then loW s.xl.invVa else if o = 12 then hiW s.xl.invVa else 0
  | .queue o => let v := s.ctl.queues.getD (o / 8) 0; if o % 8 = 0 then loW v else hiW v
  | .fabric o => fabricRead s o
  | .hartKey h => (getHart s h).keyReg
  | .keyPort o => if o = 0 then s.ctl.kcmd else if o < 0x80 then 0 else wordAt s.ctl.krcpt (o - 0x80)
  | .telemetry o => telemetryRead s o
  | .hartFault h o => wordAt (getHart s h).fault.bytes o
  | .launchEnd => s.ctl.launchEnd
  | .ceop c p o => ceopWord s c p o
  | .loupe u o => loupeRead (s.ctl.loupe.getD u Loupe.zero) o

/-! ## Writes -/

/-- R379: TLOG. -/
def writeTlog (s : State) (v : Word) : State :=
  let n := v.toNat % 32
  if 16 ≤ n ∧ n ≤ 28 then { s with fab := { s.fab with tlog := n } } else s

/-- R379: SIZE. -/
def writePrism (s : State) (v : Word) : State :=
  let n := v.toNat % 128
  if n ≤ 64 then { s with fab := { s.fab with prism := n } } else s

/-- R414: PCAP, held within its limits. -/
def writePcap (s : State) (v : Word) : State :=
  { s with ctl := { s.ctl with pcap := BitVec.ofNat 16 (Nat.max 600 (Nat.min 3600 (v.toNat % 65536))) } }

/-- One half of a 64-bit register. -/
def halfSet (d : DWord) (hi : Bool) (v : Word) : DWord := if hi then pairD (loW d) v else pairD v (hiW d)

/-- R413: KCMD. A reserved OP ends its command at once. -/
def writeKcmd (s : State) (v : Word) : State :=
  if s.ctl.kcmd.getLsbD 0 then s
  else
    let s1 := { s with ctl := { s.ctl with kcmd := (v &&& 0xFFF7) ||| (s.ctl.kcmd &&& 0x00FF0000) } }
    if v.getLsbD 0 && (s1.ctl.kcmdOp == 0 || s1.ctl.kcmdOp == 3) then endKcmd s1 3 else s1

/-- R412: the bits of a GROUP entry's word that hold a value; the others read zero. -/
def groupMask (o : Nat) : Word := if o = 0 then 0xFFFF0001 else if o < 32 then 0 else 0xFFFFFFFF

def fabricWrite (s : State) (o : Nat) (v : Word) : State :=
  if o = 0 then writeTlog s v
  else if o = 4 then writePrism s v
  else if o = 0x10 then { s with fab := { s.fab with iflBase := halfSet s.fab.iflBase false (v &&& 0xFFFFE000) } }
  else if o = 0x14 then { s with fab := { s.fab with iflBase := halfSet s.fab.iflBase true v } }
  else if o < 0x100 then s
  else if o < 0x1000 then { s with fab := { s.fab with member := Mem.store s.fab.member (o - 0x100) (bytesOfW v) } }
  else { s with fab := { s.fab with groups := Mem.store s.fab.groups (o - 0x1000) (bytesOfW (v &&& groupMask (o % 128))) } }

def telemetryWrite (s : State) (o : Nat) (v : Word) : State :=
  if o = 0x10 then writePcap s v
  else if o = 0x20 then { s with mem := { s.mem with ceHbm := v } }
  else if o = 0x24 then { s with ctl := { s.ctl with ceSram := v } }
  else if o = 0x28 then { s with ctl := { s.ctl with ueCnt := v } }
  else s

/-- R417: CLR. -/
def Loupe.cleared (l : Loupe) : Loupe := { l with min := 0xFFFFFFFF, max := 0, cnt := 0, bins := List.replicate 16 0 }

def loupeWrite (s : State) (u o : Nat) (v : Word) : State :=
  if o != 0 then s
  else
    let l := s.ctl.loupe.getD u Loupe.zero
    let l1 := { l with ctl := v &&& 0x00FFFF03 }
    { s with ctl := { s.ctl with loupe := s.ctl.loupe.set u (if v.getLsbD 2 then l1.cleared else l1) } }

/-- R422: V and OVF are cleared by writing 1. -/
def hartFaultWrite (s : State) (h o : Nat) (v : Word) : State :=
  if o != 8 then s
  else
    let x := getHart s h
    setHart s h { x with fault := { x.fault with v := x.fault.v && !v.getLsbD 8, ovf := x.fault.ovf && !v.getLsbD 10 } }

/-- A write of a listed word; fields that software cannot write keep their values (R6). DESIGN CHOICE (log 47): R231 discards a write of
the control register while GO is 1 and says nothing of the address register, so its value changes, and the invalidation that runs is
then of the range that it names. -/
def regionWrite (s : State) (r : Region) (v : Word) : State :=
  match r with
  | .caps _ => s
  | .inval o =>
    if o = 0 then writeInv s v
    else if o = 8 then { s with xl := { s.xl with invVa := halfSet s.xl.invVa false (v &&& 0xFFFF0000) } }
    else if o = 12 then { s with xl := { s.xl with invVa := halfSet s.xl.invVa true (v &&& 0x00FFFFFF) } }
    else s
  | .queue o => { s with ctl := { s.ctl with queues := s.ctl.queues.set (o / 8) (halfSet (s.ctl.queues.getD (o / 8) 0) (o % 8 != 0) v) } }
  | .fabric o => fabricWrite s o v
  | .hartKey h => setHart s h { getHart s h with keyReg := v &&& 0xFFF }
  | .keyPort o =>
    if o = 0 then writeKcmd s v
    else if o < 0x80 then
      { s with ctl := { s.ctl with kdata := s.ctl.kdata.take (o - 0x40) ++ bytesOfW v ++ s.ctl.kdata.drop (o - 0x3C) } }
    else s
  | .telemetry o => telemetryWrite s o v
  | .hartFault h o => hartFaultWrite s h o v
  | .launchEnd => writeLaunchEnd s v
  | .ceop _ _ _ => s
  | .loupe u o => loupeWrite s u o v

/-! ## Accesses (R411) -/

/-- The listed words that an access of `size` bytes at `off` covers; none where it faults. -/
def ctlWords (m : HartMode) (off size : Nat) : Option (List Region) :=
  let word (o : Nat) : Option Region := (regionOf o).bind fun r => if r.reached m then some r else none
  if size = 4 && off % 4 = 0 then (word off).map fun r => [r]
  else if size = 8 && off % 8 = 0 then (word off).bind fun a => (word (off + 4)).map fun b => [a, b]
  else none

/-- The value of the covered words, the lower address first. -/
def ctlRead (s : State) (rs : List Region) : DWord := dwOf (natOfBytes (bytesOf (rs.map (regionRead s))))

/-- One indivisible write of the covered words, the lower address first. -/
def ctlWrite (s : State) (v : DWord) : List Region → State
  | [] => s
  | r :: rest => ctlWrite (regionWrite s r (loW v)) (v >>> 32) rest

end Sys2Proof.Machine
end

