-- ==== Sys2Proof/Machine/Complex.lean ====
section
/-! DEFINITION. The host complex, firmware and the module (R359, R379, R411, R414, R417 to R422, R29): hart accesses, register
writes, monitors, telemetry, attestation, cycles and bring-up. -/

namespace Sys2Proof.Machine

/-! ## Hart faults (R422) -/

/-- A device-caused access fault of hart `h`; the access has no effect. The exception is the access fault of its kind, and the trap value
register holds the address. -/
def hartFault (s : State) (h code pa : Nat) (st : Bool) : State :=
  let x := getHart s h
  let f := if x.fault.v then { x.fault with ovf := true }
    else { x.fault with addr := dwOf pa, cause := BitVec.ofNat 8 code, st := st, v := true }
  setHart (if code = cEccFatal then countUe s else s) h
    { x with fault := f, faulted := true, excep := some (if st then .storeFault else .loadFault), tval := dwOf pa }

/-- A hart's access ends; a load or AMO has its value. -/
def hartDone (s : State) (h : Nat) (v : Option DWord) : State :=
  let x := getHart s h
  setHart s h { x with faulted := false, excep := none, value := v.getD x.value }

/-! ## Accesses -/

/-- Where a hart's access at `pa` goes: the address, of the die-0 replica for a mirror page (R361), and the mirror mark; until the switch,
what the new place of a page under migration names is its old copy (R232). -/
def hartPlace (s : State) (pa : Nat) : Nat × Bool :=
  match twins s (s.mem.live pa) with
  | [] => (s.mem.live pa, false)
  | [p] => (p, false)
  | p :: _ => (p, true)

/-- The checks of a hart's access of `n` bytes at `pa` in HBM: its key generation, or the cause of its fault. A read is judged where
the hart's die reads it; what a write meets in memory is judged as it performs. -/
def hartCheck (s : State) (h pa n : Nat) (mir st : Bool) : Except Nat Nat :=
  let at' := if st then replicas pa mir else [replica pa mir (h / 8)]
  if st && at'.any fun p => codeHit s p n then .error cProt
  else
    match genOf s ((getHart s h).keyReg.toNat % 4096) with
    | none => .error cKeyFault
    | some g =>
      if at'.any fun p => lockHit s.mem p n then .error cRangeBusy
      else if !st && at'.any fun p => badHit s.mem p n false then .error cEccFatal
      else .ok g

/-- R164: aligned accesses of 1, 2, 4 or 8 bytes. -/
def hartSize (n : Nat) : Bool := [1, 2, 4, 8].contains n

def hartDie (h : Nat) : Nat := h / 8

/-- An exception of the hart's own that no fault record names: the misaligned-address exception (R164), or the access fault of an address
outside HBM (log 11). -/
def hartTrap (s : State) (h pa size : Nat) (st : Bool) : State :=
  let e : HartExc := if pa % size != 0 then (if st then .storeAlign else .loadAlign) else if st then .storeFault else .loadFault
  setHart s h { getHart s h with faulted := true, excep := some e, tval := dwOf pa }

/-! ## Launch processors (R411) -/

def setProc (s : State) (die : Nat) (p : Proc) : State := { s with ctl := { s.ctl with procs := s.ctl.procs.set die p } }
def getProc (s : State) (die : Nat) : Proc := s.ctl.procs.getD die ⟨0, false⟩

/-- An access of a launch processor raises PROT and has no effect. -/
def procFault (s : State) (die : Nat) : State := setProc s die { getProc s die with prot := true }

/-- An access of a launch processor ends; a load has its value. -/
def procDone (s : State) (die : Nat) (v : Option DWord) : State := setProc s die ⟨v.getD (getProc s die).value, false⟩

/-- An access of die `die`'s launch processor to the control space; `k` is what it does to the words that it covers, none where only
loads and stores may reach them. -/
def procAccess (s : State) (die pa size : Nat) (k : Option (List Region → State)) : State :=
  if 2 ≤ die || !inCtl pa then s
  else
    match ctlWords .launch (pa - Config.ctlBase) size, k with
    | some rs, some f => f rs
    | _, _ => procFault s die

/-- The hart of an access. -/
def evHart : Instr → Option Nat
  | .hartLoad h _ _ _ => some h
  | .hartStore h _ _ _ _ => some h
  | .hartAmo h _ _ _ _ _ => some h
  | _ => none

/-- Hart `h` waits for a write, other than `ev`, that is held at its home (R232, R248). -/
def hartWaits (s : State) (h : Nat) (ev : Instr) : Bool := s.mem.waits.any fun w => w.ev != ev && evHart w.ev == some h

/-- R164, R359, R411. -/
def execHartLoad (h : Nat) (m : HartMode) (pa size : Nat) (s : State) : Out :=
  if m = .launch then .next (procAccess s h pa size (some fun rs => procDone s h (some (ctlRead s rs))))
  else if 16 ≤ h || hartWaits s h (.hartLoad h m pa size) then .next s
  else if inCtl pa then
    match ctlWords m (pa - Config.ctlBase) size with
    | none => .next (hartFault s h cProt pa false)
    | some rs => .next (hartDone s h (some (ctlRead s rs)))
  else if !hartSize size then .next s
  else if pa % size != 0 || !inHbm pa size then .next (hartTrap s h pa size false)
  else
    let w := hartPlace s pa
    match hartCheck s h w.1 size w.2 false with
    | .error c => .next (hartFault s h c pa false)
    | .ok g =>
      let p := replica w.1 w.2 (hartDie h)
      .next (hartDone { s with mem := llcHart (llcRead s.mem (hartDie h) (sectorOf p) g) h (sectorOf p) false } h
        (some (dwOf (natOfBytes (physRead s.mem g p size)))))

/-- A hart's write of `n` bytes at its die's slice, for a mirror page at both replicas, with its probes (R243, R357, R361): `f` gives
the new bytes and the value that the hart receives. It may be held at its home (R232, R248). -/
def hartWrite (s : State) (h g pa n : Nat) (w : Nat × Bool) (rmw : Bool) (ev : Instr) (f : Nat → List Byte × Option DWord) : State :=
  match holdForeign s none w.1 n w.2 ev with
  | some s1 => s1
  | none =>
    let s0 := endForeign s ev
    let p := replica w.1 w.2 (hartDie h)
    if (replicas w.1 w.2).any (fun q => badHit s0.mem q n true) || (rmw && badHit s0.mem p n false) then hartFault s0 h cEccFatal pa true
    else
      let r := f (natOfBytes (physRead s0.mem g p n))
      let s1 := (replicas w.1 w.2).foldl (fun s q =>
        let die := if w.2 then homeDie q else hartDie h
        probe { s with mem := physStore s.mem die g q r.1 } none (.hbm q false) n) s0
      hartDone { s1 with mem := llcHart s1.mem h (sectorOf p) true } h r.2

/-- R164, R359, R411. -/
def execHartStore (h : Nat) (m : HartMode) (pa size : Nat) (v : DWord) (s : State) : Out :=
  if m = .launch then .next (procAccess s h pa size (some fun rs => procDone (ctlWrite s v rs) h none))
  else if 16 ≤ h || hartWaits s h (.hartStore h m pa size v) then .next s
  else if inCtl pa then
    match ctlWords m (pa - Config.ctlBase) size with
    | none => .next (hartFault s h cProt pa true)
    | some rs => .next (hartDone (ctlWrite s v rs) h none)
  else if !hartSize size then .next s
  else if pa % size != 0 || !inHbm pa size then .next (hartTrap s h pa size true)
  else
    let w := hartPlace s pa
    match hartCheck s h w.1 size w.2 true with
    | .error c => .next (hartFault (endForeign s (.hartStore h m pa size v)) h c pa true)
    | .ok g => .next (hartWrite s h g pa size w false (.hartStore h m pa size v) fun _ => (bytesOfNat size v.toNat, none))

/-- The new value of an AMO of `8 * n` bits. -/
def amoNew (op : AmoOp) (n old v : Nat) : Nat :=
  let m := 2 ^ (8 * n)
  let le (a b : Nat) : Bool := decide (sextN (8 * n) a ≤ sextN (8 * n) b)
  match op with
  | .swap => v
  | .add => (old + v) % m
  | .xor => Nat.xor old v
  | .and => Nat.land old v
  | .or => Nat.lor old v
  | .min => if le old v then old else v
  | .max => if le old v then v else old
  | .minu => Nat.min old v
  | .maxu => Nat.max old v
  | .lrsc => v

/-- R164. -/
def execHartAmo (h : Nat) (m : HartMode) (op : AmoOp) (pa size : Nat) (v : DWord) (s : State) : Out :=
  if m = .launch then .next (procAccess s h pa size none)
  else if 16 ≤ h || hartWaits s h (.hartAmo h m op pa size v) then .next s
  else if inCtl pa then .next (hartFault s h cProt pa true)
  else if !hartSize size then .next s
  else if pa % size != 0 || !inHbm pa size then .next (hartTrap s h pa size true)
  else
    let w := hartPlace s pa
    match hartCheck s h w.1 size w.2 true with
    | .error c => .next (hartFault (endForeign s (.hartAmo h m op pa size v)) h c pa true)
    | .ok g => .next (hartWrite s h g pa size w true (.hartAmo h m op pa size v) fun old =>
        (bytesOfNat size (amoNew op size old (v.toNat % 2 ^ (8 * size))), some (dwOf old)))

/-- R411: a write to the control space at an offset, by hart `h` in mode `m`, or by the launch processor of die `h`. -/
def execControlRegisterWrite (h : Nat) (m : HartMode) (off size : Nat) (v : DWord) (s : State) : Out :=
  if m = .launch then
    .next (procAccess s h (Config.ctlBase + off) size (some fun rs => procDone (ctlWrite s v rs) h none))
  else if 16 ≤ h then .next s
  else
    match ctlWords m off size with
    | some rs => .next (ctlWrite s v rs)
    | none => .next (hartFault s h cProt (Config.ctlBase + off) true)

/-! ## Single registers -/

/-- R379. -/
def execRtoctlWrite (v : Word) (s : State) : Out := .next (writeTlog s v)
/-- R379. -/
def execPrismbufWrite (v : Word) (s : State) : Out := .next (writePrism s v)

/-- R379: a new buffer size takes effect on an engine that holds no reservation. -/
def execPrismbufApply (s : State) : Out :=
  let f (e : CollEngine) : CollEngine := if e.resv.isEmpty then { e with buf := s.fab.prism } else e
  .next { s with coll0 := f s.coll0, coll1 := f s.coll1 }

/-- R414. -/
def execPcapWrite (v : Word) (s : State) : Out := .next (writePcap s v)

/-! ## Loupe (R417) -/

/-- Bin of a sample. -/
def loupeBin (v : Nat) : Nat := Nat.min 15 (if v < 2 then 0 else Nat.log2 v)

def Loupe.sample (l : Loupe) (v : Nat) : Loupe :=
  let w := wOf (Nat.min v 0xFFFFFFFF)
  let b := loupeBin v
  { l with min := if w < l.min then w else l.min, max := if l.max < w then w else l.max, cnt := satAdd l.cnt 1,
           bins := l.bins.set b (satAdd (l.bins.getD b 0) 1) }

def Loupe.event (l : Loupe) : Nat := l.ctl.toNat / 256 % 16
def Loupe.scope (l : Loupe) : Nat := l.ctl.toNat / 0x1000 % 4
def Loupe.core (l : Loupe) : Nat := l.ctl.toNat / 0x4000 % 16
def Loupe.bay (l : Loupe) : Nat := l.ctl.toNat / 0x40000 % 32
def Loupe.die (l : Loupe) : Nat := l.ctl.toNat / 0x800000 % 2

/-- The cores that SCOPE and TARGET name; none where they name no core, bay or die of the device. -/
def Loupe.cores (l : Loupe) : List Nat :=
  match l.scope with
  | 0 => if l.core < 12 && l.bay < 28 then [336 * l.die + 12 * l.bay + l.core] else []
  | 1 => if l.bay < 28 then rangeFrom (336 * l.die + 12 * l.bay) 12 else []
  | 2 => rangeFrom (336 * l.die) 336
  | _ => []

/-- A unit samples: enabled, not frozen, an assigned event, a block of the device. -/
def Loupe.samples (l : Loupe) : Bool := l.ctl.getLsbD 0 && !l.ctl.getLsbD 1 && decide (l.event < 6) && !l.cores.isEmpty

/-- The value that the state gives an event: positions occupied, and decode-buffer slots held. DESIGN CHOICE (log 72): the decode buffer
of a core's or a bay's die stands for theirs, and the values of the other events, which are times and rates, come with the event. -/
def Loupe.counted (s : State) (l : Loupe) : Option Nat :=
  if l.event = 4 then some ((s.cores.filter fun k => l.cores.contains k.1).foldl (fun n k => n + k.2.eng.length) 0)
  else if l.event = 5 then some (getEng s l.die).resv.length
  else none

/-- The unit takes `v` as a sample of its event. -/
def Loupe.takes (s : State) (l : Loupe) (v : Nat) : Bool := l.samples && (match l.counted s with
  | some n => v == n
  | none => true)

def mapLoupe (s : State) (u : Nat) (f : Loupe → Loupe) : State :=
  { s with ctl := { s.ctl with loupe := s.ctl.loupe.set u (f (s.ctl.loupe.getD u Loupe.zero)) } }

/-- R417: CLR is written. -/
def execLoupeClear (u : Nat) (s : State) : Out := .next (mapLoupe s u Loupe.cleared)
/-- R417: a value of the unit's event. -/
def execLoupeSample (u v : Nat) (s : State) : Out := .next (mapLoupe s u fun l => if l.takes s v then l.sample v else l)

/-! ## Telemetry (R414, R418) -/

/-- R414: 105 degrees, in units of 0.0625. -/
def tripTemp : BitVec 16 := 0x0690

/-- The trip limits are reached, whatever PCAP holds. -/
def overLimit (c : Control) : Bool :=
  decide (3600000 ≤ c.pwr.toNat) || decide (tripTemp.toInt ≤ c.temp0.toInt) || decide (tripTemp.toInt ≤ c.temp1.toInt)

/-- CLK: 1,500 MHz, or an open value while something throttles the clock (log 3). -/
def settleClock (s : State) : State :=
  { s with fresh := s.fresh + 1,
           ctl := { s.ctl with clk := if s.ctl.capOn || s.ctl.tripOn then (Config.freeWord s.fresh).truncate 16 else 1500 } }

/-- R414, R420: power over the last millisecond and the hottest sensor of each die. -/
def execTelemetrySample (mw : Word) (t0 t1 : BitVec 16) (s : State) : Out :=
  let c := { s.ctl with pwr := mw, temp0 := t0, temp1 := t1, capOn := decide (1000 * s.ctl.pcap.toNat < mw.toNat) }
  .next (settleClock { s with ctl := { c with tripOn := c.tripOn && overLimit c } })

/-- R418, R420: the hardware trip throttles the clock. -/
def execThermalTrip (s : State) : Out :=
  .next (if overLimit s.ctl && !s.ctl.tripOn then settleClock { s with ctl := { s.ctl with tripOn := true } } else s)

/-! ## Attestation (R419) -/

/-- Bytes 0 to 143 of a report. -/
def reportBody (c : Control) (nonce : List Byte) : List Byte :=
  bytesOfNat 4 2 ++ bytesOfW Config.svn ++ padTo 32 nonce ++ padTo 64 c.meas ++ deviceId ++ bytesOfD (c.reports + 1)

/-- R419. -/
def execAttestationRequest (nonce : List Byte) (s : State) : Out :=
  let b := reportBody s.ctl nonce
  .next { s with ctl := { s.ctl with reports := s.ctl.reports + 1, report := b ++ edSign Config.attestKey b } }

/-! ## Cycles and bring-up -/

/-- R29, R378: a cycle of a core; its outstanding peer requests grow older. -/
def execCoreClockCycle (core : Nat) (s : State) : Out :=
  if Config.cores ≤ core then .next s
  else
    let c := getCore s core
    let on (t : Tid) : Bool := (threads s).any fun x => x.id == t && x.place.core == core
    .next { setCore s core { c with cyc := c.cyc + 1 } with
      fab := { s.fab with reqs := s.fab.reqs.map fun r => if on r.tid then { r with age := r.age + 1 } else r } }

/-- R419: a measurement. -/
def extend (m image : List Byte) : List Byte := sha512 (m ++ sha512 image)

/-- R419: the boot ROM accepts an image: it carries a signature of the key that the fuses name, and is no older than they allow. -/
def accepted (i : FwImage) : Bool :=
  sha512 i.key == Config.fusedDigest && edVerify i.key i.body i.sig && decide (Config.fusedVersion ≤ i.version)

/-- Every port in one state of R374. -/
def allPorts (s : State) (st : PortState) : Fabric := { s.fab with ports := s.fab.ports.map fun _ => ⟨st, 0, []⟩ }

/-- R420: the next step of bring-up. Step 0: the images are verified and measured one by one, and bring-up goes no further at one that is
refused; 1 trains the stacks and the seam, 2 loads the launch processors, 3 installs key slot 0, 4 to 6 take the ports through TRAIN and
JOIN, and the last one opens the queues. -/
def bringUp (s : State) : State :=
  let c := s.ctl
  let on : Control := { c with stage := c.stage + 1 }
  match c.stage with
  | 0 =>
    (match Config.images[c.measured]? with
     | none => { s with ctl := on }
     | some i => if accepted i then { s with ctl := { c with meas := extend c.meas i.body, measured := c.measured + 1 } } else s)
  | 1 => { s with ctl := on }
  | 2 => { s with ctl := on }
  | 3 =>
    { s with
      ctl := { on with key0Done := true, nextGen := c.nextGen + 1, keys := ⟨0, padTo 64 Config.keyZero, c.nextGen⟩ :: c.keys },
      mem := { s.mem with pairs := keyPut s.mem.pairs c.nextGen (padTo 64 Config.keyZero) } }
  | 4 => { s with fab := allPorts s .train, ctl := on }
  | 5 => { s with fab := allPorts s .join, ctl := on }
  | 6 => { s with fab := { allPorts s .up with joined := true }, ctl := on }
  | _ => { s with ctl := { on with up := true } }

/-- R420: bring-up, from power-good to the opening of the launch queues, one step at a time. -/
def execPowerGood (s : State) : Out := .next (if s.ctl.up then s else bringUp s)

end Sys2Proof.Machine
end

