-- ==== Sys2Proof/Machine/Control.lean ====
section
/-! DEFINITION. Control transfers, loops, the repeat prefix, waits and yields (R16, R69, R72 to R78, R97 to R103, R148). -/

namespace Sys2Proof.Machine

/-- A taken `bra`, `brm` or `jmp` (R77, R97, R99). -/
def branchTo (s : State) (t : DWord) (brm : Bool) : Out :=
  match checkTarget s t with
  | some e => raise s e
  | none => .next (transfer (modCtx s fun c => closeLoops c t) t brm)

/-- R69. -/
def targetJ (s : State) (f : FmtJ) : DWord := s.th.ctx.pc + 4 * f.disp.signExtend 64

/-- R97. -/
def execBra (f : FmtJ) (s : State) : Out := guarded s f.p fun s => branchTo s (targetJ s f) false
/-- R97, R149. -/
def execBrm (f : FmtJ) (s : State) : Out := guarded s f.p fun s => branchTo s (targetJ s f) true
/-- R98. -/
def execJmp (p : Pred) (a : Reg) (s : State) : Out := guarded s p fun s => branchTo s (s.th.ctx.pair a) false

/-- A taken call to `t` (R14, R17, R18, R98, R99). -/
def callTo (s : State) (t : DWord) : Out :=
  match checkTarget s t with
  | some e => raise s e
  | none =>
    if s.th.owes || (callSpills s.th && !s.th.accs.isEmpty) then .next s
    else
      match callWindow s s.th.ctx.cend with
      | (s', .go) => .next (awaitFrame s (transfer (if callSpills s.th then frameMade s' else s') t false))
      | (s', .bad e) => .next (takeExc s' e)
      | (s', .park) => .next s'
      | (s', .wait) => .next s'

/-- R98. -/
def execCall (f : FmtJ) (s : State) : Out := guarded s f.p fun s => callTo s (targetJ s f)
/-- R98: the pair is read before the window moves. -/
def execCallr (p : Pred) (a : Reg) (s : State) : Out := guarded s p fun s => callTo s (s.th.ctx.pair a)

/-- w38. -/
def linkReg : Reg := 54

/-- The end of the thread by `exit` or by `ret` at depth 0 (R16, R100): an ordering point. -/
def leave (s : State) : Out := oldest s fun s => .next (exitThread (issued s))

/-- R16, R19, R77, R98. -/
def execRet (p : Pred) (s : State) : Out :=
  guarded s p fun s =>
    let c := s.th.ctx
    let t := c.pair linkReg
    if c.depth = 0 then leave s
    else
      match checkTarget s t with
      | some e => raise s e
      | none =>
        if s.th.owes || (c.res.isEmpty && !s.th.accs.isEmpty) then .next s
        else
          match retWindow s false with
          | (s1, .go) =>
            let s' := if c.res.isEmpty then frameMade s1 else s1
            let e := endCheck 4 (closeDepth s'.th.ctx c.depth) t
            .next (awaitFrame s (transfer (modCtx s' fun _ => e.1) e.2 false))
          | (s', .bad e) => .next (takeExc s' e)
          | (s', .park) => .next s'
          | (s', .wait) => .next s'

/-- R100. -/
def execExit (p : Pred) (s : State) : Out := guarded s p leave

/-- A transfer past the end of a loop's body, to `e` (R75, R78), with the checks of its target (R99). -/
def skipTo (s : State) (e : DWord) (f : Ctx → Ctx) : Out :=
  match checkTarget s e with
  | some x => raise s x
  | none => .next (transfer (modCtx s f) e false)

/-- R75, R99. -/
def execLoop (p : Pred) (lv : Fin 3) (cnt : LoopCount) (len : Fin 256) (s : State) : Out :=
  let c := s.th.ctx
  let b := c.cend
  let e := b + dwOf (4 * (len.val + 1))
  let k := lv.val
  if !guard s p then skipTo s e id
  else if k ≠ c.ld then illegal s
  else if k > 0 && (c.lvl (k - 1)).dep == c.depth
      && !(decide ((c.lvl (k - 1)).beg ≤ b) && decide (e ≤ (c.lvl (k - 1)).fin)) then illegal s
  else
    let n := match cnt with | .reg a => c.reg a | .lit v => v
    if n = 0 then skipTo s e fun c => c.setLvl k { c.lvl k with cnt := 0 }
    else
      .next (arrive (issued (yieldAtEnd (modCtx s fun c =>
        { c.setLvl k { cnt := n, len := BitVec.ofNat 8 len.val, beg := b, dep := c.depth } with ld := k + 1 }) b)) b false)

/-- R78, R99. -/
def execLexit (p : Pred) (lv : Fin 3) (s : State) : Out :=
  guarded s p fun s =>
    let c := s.th.ctx
    if lv.val ≥ c.ld || (c.lvl lv.val).dep != c.depth then illegal s
    else skipTo s (c.lvl lv.val).fin fun c => { c with ld := lv.val }

/-- R72, R73: the prefix takes hold of the next instruction. -/
def execRpt (p : Pred) (n : Fin 64) (sd sa sb : Fin 8) (s : State) : Out :=
  let c := s.th.ctx
  match fetchWord s s.th (c.pc + 4) with
  | .error e => raise s e
  | .ok w =>
    if !rptLegal w.toNat sb.val then illegal s
    else if !guard s p then .next (modCtx s fun c => { c with pc := c.pc + 4, rep := some ⟨c.pc, 1, 0, 0, 0⟩ })
    else if c.ri.toNat ≤ n.val then
      .next (modCtx s fun c => { c with pc := c.pc + 4, rep := some ⟨c.pc, n.val + 1, sd.val, sa.val, sb.val⟩ })
    else
      -- a handler has moved c.tpc to a shorter prefix: no issue is left
      .next (goOn (modCtx s fun c => { c with pc := c.pc + 4, ri := 0 }) (if hasExt w.toNat then 2 else 1))

/-- Where a thread stands, for the `wait` at pc. -/
def Ctx.waitAt (c : Ctx) : WaitAt :=
  { pc := c.pc, clh := c.clh, cend := c.cend, yieldHdr := c.yieldHdr, lv0 := c.lv0, lv1 := c.lv1, lv2 := c.lv2, ld := c.ld }

/-- R102. -/
def execWait (p : Pred) (mask : BitVec 6) (s : State) : Out :=
  guarded s p fun s =>
    .next (modCtx (goOn (issued s) (instrLen s)) fun c => { c with wmask := c.wmask ||| mask, wfrom := some s.th.ctx.waitAt })

/-- R103, R148. -/
def execYld (p : Pred) (s : State) : Out :=
  guarded s p fun s => .next (modTh (goOn (issued s) (instrLen s)) fun t => { t with yielded := some 0 })

end Sys2Proof.Machine
end

