-- ==== Sys2Proof/Machine/Fabric.lean ====
section
/-! DEFINITION. The fabric interface (R369 to R383, R421): inbound requests, answers to this device's requests, remote watches,
and the ports. -/

namespace Sys2Proof.Machine

/-! ## Which flits reach the device (R371, R374, R375) -/

/-- R374: the device is present. -/
def portUp (s : State) : Bool := s.fab.ports.any fun p => p.st == .up

/-- R375: SRC and INC name an older incarnation. -/
def staleFlit (s : State) (f : Flit) : Bool :=
  match keyGet s.fab.incs f.src with
  | none => false
  | some i => let d := (i + 0x10000 - f.inc % 0x10000) % 0x10000; decide (1 ≤ d) && decide (d < 0x8000)

/-- DST names this device, or a group that it belongs to. -/
def flitForUs (s : State) (f : Flit) : Bool :=
  if f.dst < 0x8000 then isSelf s (f.dst % 1024)
  else (groupMembers s (f.dst % 4096)).contains s.fab.selfIdx.toNat

/-- A flit of TYPE `ty` reaches this device; the device's own go through its own fabric interface (R369). -/
def reaches (s : State) (f : Flit) (ty : Nat) : Bool :=
  f.ty == ty && (isSelf s f.src || (portUp s && !staleFlit s f)) && flitForUs s f

/-! ## AUX of a request (R421) -/

def auxLen (a : Nat) : Nat := a % 32
def auxOp (a : Nat) : Nat := a / 256 % 16
def auxT (a : Nat) : Nat := a / 4096 % 16

/-- What a request of TYPE 0x03 does. -/
inductive FlitOp
  | atom (op : AtomOp)
  | red (op : RedOp) (bf : Bool)
  deriving DecidableEq, Repr

/-- OP and T of TYPE 0x03. -/
def flitOp (op t : Nat) : Option FlitOp :=
  let signed := t == 0 || t == 4
  let int := signed || t == 1 || t == 5
  let raw := t == 2 || t == 6
  let flt := t == 3 || t == 7
  match op with
  | 1 => if int then some (.atom (if signed then .addS else .addN)) else none
  | 2 => if int then some (.atom (if signed then .minS else .minN)) else none
  | 3 => if int then some (.atom (if signed then .maxS else .maxN)) else none
  | 4 => if raw then some (.atom .and) else none
  | 5 => if raw then some (.atom .or) else none
  | 6 => if raw then some (.atom .xor) else none
  | 7 => if raw then some (.atom .exch) else none
  | 8 => if raw then some (.atom .cas) else none
  | 9 => if flt then some (.atom (if t = 3 then .fadd32 else .faddBf)) else none
  | 10 => if flt then some (.red .add (t == 7)) else none
  | 11 => if flt then some (.red .min (t == 7)) else none
  | 12 => if flt then some (.red .max (t == 7)) else none
  | _ => none

/-- The request of TYPE 0x03 that AUX names; none where it breaks the layout. -/
def auxAtom (a : Nat) : Option FlitOp :=
  match flitOp (auxOp a) (auxT a) with
  | some (.red op bf) => if [4, 8, 16].contains (auxLen a) then some (.red op bf) else none
  | some (.atom op) => if auxLen a = (if [4, 5, 6].contains (auxT a) then 8 else 4) then some (.atom op) else none
  | none => none

/-- R421: AUX keeps the layout of TYPE `ty`. -/
def auxOk (ty a : Nat) : Bool :=
  [1, 2, 4, 8, 16].contains (auxLen a) && a / 32 % 8 == 0 && a / 0x10000 == 0
    && (if ty = 0x03 then (auxAtom a).isSome else a / 256 % 256 == 0)

/-! ## Inbound accesses (R369, R370, R377) -/

def findReq (s : State) (serial : Nat) : Option PeerReq := s.fab.reqs.find? fun r => r.serial == serial

/-- R369: the request of a thread of this device that reaches the device itself, outstanding or given up since. -/
def ownReq (s : State) (f : Flit) : Option PeerReq :=
  if isSelf s f.src then (findReq s f.serial).orElse fun _ => s.fab.ghosts.find? fun r => r.serial == f.serial else none

/-- R369: the launch whose context a request names; that of the issuing thread for a request of the device itself. DESIGN CHOICE
(log 20): of several launches of a context the first open one serves peers, and the latest where all of them have completed. -/
def contextOf (s : State) (f : Flit) : Option Launch :=
  match ownReq s f with
  | some r => (findLaunch s r.tid.lid).filter fun l => l.ctx == f.ctx
  | none =>
    (s.launches.find? fun l => !l.complete && l.ctx == f.ctx).orElse fun _ => s.launches.reverse.find? fun l => l.ctx == f.ctx

/-- What the checks of an inbound access answer. -/
inductive Inbound
  | bad (code : Nat)
  | wait
  | go (pa : Nat) (mir : Bool) (gen : Nat)
  deriving DecidableEq, Repr

/-- The die where an inbound access performs: the home, or a mirror page's sequencer (R360). -/
def inboundDie (s : State) (pa : Nat) (mir : Bool) : Nat := if mir then seqDie s pa else homeDie pa

/-- The code of a gate's trap. -/
def excCode : Exc → Nat
  | .trap code _ _ => code
  | .kill _ => cProt

/-- Checks of an access of `n` bytes at offset `a`, in the order of R323. -/
def inbound (s : State) (f : Flit) (a n : Nat) (t : AccT) : Inbound :=
  if a % n != 0 then .bad cMisaligned
  else if 2 ^ 46 ≤ a then .bad cProt
  else
    match contextOf s f with
    | none => .bad cProt
    | some l =>
      match xlate s Config.cores l.xctx a t with
      | .error c => .bad c
      | .ok (pa, mir) =>
        if t == .wr && codeHit s pa n then .bad cProt
        else
          match genOf s (f.keyid % 4096) with
          | none => .bad cKeyFault
          | some g =>
            match gate s (inboundDie s pa mir) t (.hbm pa mir) (dwOf a) n with
            | .bad e => .bad (excCode e)
            | .park => .wait
            | .wait => .go pa mir g
            | .go => .go pa mir g

/-- An answer on lane 1 to the sender of `f`. -/
def answer (s : State) (f : Flit) (ty aux : Nat) (payload : List Byte) : State :=
  { s with out := s.out ++ [{ mkFlit s ty 5 f.src with
      serial := f.serial, ctx := f.ctx, keyid := f.keyid, addr := f.addr, aux := aux, payload := payload }] }

/-- An entry of the inbound fault log (R379). -/
def logEntry (f : Flit) (code : Nat) : List Byte :=
  bytesOfNat 2 f.src ++ bytesOfNat 2 f.inc ++ bytesOfNat 2 f.ctx ++ bytesOfNat 1 code ++ bytesOfNat 1 f.ty
    ++ bytesOfNat 8 f.addr ++ bytesOfNat 4 f.serial ++ List.replicate 12 0

/-- R412: the entry is written whole; the head is then owed an advance. -/
def logInbound (s : State) (f : Flit) (code : Nat) : State :=
  let base := s.fab.iflBase.toNat / 8192 * 8192
  if base = 0 then { s with fab := { s.fab with iflDrop := satAdd s.fab.iflDrop 1 } }
  else
    let pa := base + 32 * (s.fab.iflHead.toNat % 256)
    let s1 := fwStore s (gen0 s) pa (logEntry f code)
    { s1 with fab := { s1.fab with iflOwed := true } }

/-- R412: the head advances behind the entry. -/
def headMove (s : State) : State :=
  if s.fab.iflOwed then { s with fab := { s.fab with iflHead := s.fab.iflHead + 1, iflOwed := false } } else s

/-- R412: the next entry of the log can be written now, so that the head advances behind it. -/
def logFree (s : State) : Bool :=
  let base := s.fab.iflBase.toNat / 8192 * 8192
  base == 0 || (!s.fab.iflOwed && s.mem.fwq.isEmpty
    && !fwBlocked s ⟨s.fresh, gen0 s, base + 32 * (s.fab.iflHead.toNat % 256), false, List.replicate 32 0⟩)

/-- R377: the access is logged, and its initiator has a remote fault. -/
def refuseInbound (s : State) (f : Flit) (code : Nat) : State :=
  if !logFree s then s
  else answer (logInbound (if code = cEccFatal then countUe s else s) f code) f 0x05 code []

/-- R370: an inbound write of `n` bytes, with a read of them where `rmw`; `g` gives the new bytes, `reply` the answer's. It may be
held at its home as `ev` (R232, R248); a write through the device's own window is its thread's (R243, R369). -/
def writeInbound (s : State) (f : Flit) (ev : Instr) (n : Nat) (rmw : Bool) (g reply : List Byte → List Byte) : State :=
  let writer := (ownReq s f).map (·.tid)
  match inbound s f f.addr n .wr with
  | .bad c => refuseInbound (endForeign s ev) f c
  | .wait => s
  | .go pa mir gen =>
    if rmw && badHit s.mem pa n false then refuseInbound (endForeign s ev) f cEccFatal
    else
      match holdForeign s writer pa n mir ev with
      | some s1 => s1
      | none =>
        let s0 := endForeign s ev
        let old := peekLoc s0 (inboundDie s pa mir) gen (.hbm pa mir) n
        answer (writeLoc s0 writer (inboundDie s pa mir) gen (.hbm pa mir) (g old)) f 0x04 0 (reply old)

/-- One read of an inbound request: the bytes, or why not. -/
def readInbound (s : State) (f : Flit) (a n : Nat) : State × Except (Option Nat) (List Byte) :=
  match inbound s f a n .rd with
  | .bad c => (s, .error (some c))
  | .wait => (s, .error none)
  | .go pa mir gen =>
    let r := readLoc s (inboundDie s pa mir) gen (.hbm pa mir) n
    (r.1, .ok r.2)

/-- R421: a load. -/
def execRead (f : Flit) (s : State) : Out :=
  .next (if !reaches s f 0x01 then s
  else if !auxOk 0x01 f.aux then countDrop s
  else
    match readInbound s f f.addr (auxLen f.aux) with
    | (s1, .ok bs) => answer s1 f 0x04 0 bs
    | (_, .error (some c)) => refuseInbound s f c
    | (_, .error none) => s)

/-- R421: a store. -/
def execWrite (f : Flit) (s : State) : Out :=
  .next (if !reaches s f 0x02 then s
  else if !auxOk 0x02 f.aux then countDrop s
  else writeInbound s f (.write f) (auxLen f.aux) false (fun _ => padTo (auxLen f.aux) f.payload) fun _ => [])

/-- The new bytes of an inbound atomic or reduce-store of `n` bytes, and the bytes of its answer. -/
def flitAtom (o : FlitOp) (n : Nat) (p old : List Byte) : List Byte × List Byte :=
  match o with
  | .atom op => (bytesOfNat n (atomNew op n (natOfBytes old) (fieldOf p 0 n) (fieldOf p n n)), old)
  | .red op bf => (redBytes op bf (wordsOf (n / 4) (padTo n p)) old, [])

/-- R216, R421: an atomic or a reduce-store. -/
def execAtomic (f : Flit) (s : State) : Out :=
  .next (if !reaches s f 0x03 then s
  else if !auxOk 0x03 f.aux then countDrop s
  else
    match auxAtom f.aux with
    | none => countDrop s
    | some o =>
      let n := auxLen f.aux
      writeInbound s f (.atomic f) n true (fun old => (flitAtom o n f.payload old).1) fun old => (flitAtom o n f.payload old).2)

/-- R381: a member's write of 4 or 8 bytes. -/
def execMulticastWrite (f : Flit) (s : State) : Out :=
  .next (if !reaches s f 0x10 then s
  else if !(f.aux = 4 || f.aux = 8) then countDrop s
  else writeInbound s f (.multicastWrite f) f.aux false (fun _ => padTo f.aux f.payload) fun _ => [])

/-- R381: indivisible aligned reads of 16 bytes or fewer over `k` further words at `a`. -/
def readPieces (s : State) (f : Flit) (a : Nat) : Nat → State × Except (Option Nat) (List Byte)
  | 0 => (s, .ok [])
  | k + 1 =>
    match readInbound s f a 4 with
    | (s1, .ok bs) =>
      (match readPieces s1 f (a + 4) k with
       | (s2, .ok rest) => (s2, .ok (bs ++ rest))
       | r => r)
    | r => r

/-- An answer in flits of 224 bytes, the last of them marked; ADDR tells them apart (R371, log 15). -/
def answerPieces (s : State) (f : Flit) : Nat → Nat → List Byte → State
  | 0, _, _ => s
  | k + 1, a, bs =>
    if bs.length ≤ 224 then answer s { f with addr := a } 0x04 0 bs
    else
      let x : Flit := { mkFlit s 0x04 1 f.src with serial := f.serial, ctx := f.ctx, keyid := f.keyid, addr := a, payload := bs.take 224 }
      answerPieces { s with out := s.out ++ [x] } f k (a + 224) (bs.drop 224)

/-- R381: a member's read of AUX bytes of the source, or of the part of it that this flit names (log 15). -/
def execLoadAndReduce (f : Flit) (s : State) : Out :=
  .next (if !reaches s f 0x11 then s
  else if f.aux = 0 || f.aux % 4 != 0 || 16384 < f.aux then countDrop s
  else
    match readPieces s f f.addr (f.aux / 4) with
    | (s1, .ok bs) => answerPieces s1 f (bs.length / 224 + 1) f.addr bs
    | (_, .error (some c)) => refuseInbound s f c
    | (_, .error none) => s)

/-! ## Answers (R377, R378) -/

/-- The access of the focus thread that awaits request `n`. -/
def awaiting (s : State) (n : Nat) : Option Access := s.th.accs.find? fun a => a.serial == some n

/-- The access is its thread's oldest. -/
def isHead (s : State) (a : Access) : Bool :=
  match s.th.accs with
  | [] => false
  | b :: _ => b.seq == a.seq

/-- Change access `n` of the focus thread. -/
def modAcc (s : State) (seq : Nat) (f : Access → Access) : State :=
  modTh s fun t => { t with accs := t.accs.map fun b => if b.seq = seq then f b else b }

/-- A load's bytes arrive: final for the oldest access, else an early read under watch (R241, R376). -/
def landLoad (s : State) (a : Access) (n : Nat) (ext : LoadExt) (ds : List Reg) (bs : List Byte) : State :=
  let s1 := giveLoad s a n ext ds bs
  if isHead s a && !a.spec then finishHead s1
  else settle (modAcc (dropRequest s1 a) a.seq fun b => { b with serial := none, early := some bs })

/-- R376, log 15: the target's watch table had no room, and the load waits until it is the oldest (R242). -/
def noRoom (s : State) (a : Access) : State :=
  modAcc (dropRequest s a) a.seq fun b => { b with serial := none }

/-- R236, R376, log 66: the word's home answers the release of a commit: the load is final, or AUX 1 says that its watch is gone, a
write having come first, and the region rolls back. -/
def landRelease (s : State) (a : Access) (gone : Bool) : State :=
  let s1 := modAcc (dropRequest s a) a.seq fun b => { b with serial := none, closed := true }
  if gone then rollback s1 true else settle s1

/-- The answer `f` to access `a` of the focus thread. -/
def landAnswer (s : State) (a : Access) (f : Flit) : State :=
  match a.kind with
  | .load n ext ds =>
    if a.spec && a.early.isSome then landRelease s a (f.aux == 1)
    else if f.aux = 1 then noRoom s a else landLoad s a n ext ds (padTo n f.payload)
  | .store _ => if isHead s a then finishHead s else s
  | .red _ _ _ => if isHead s a then finishHead s else s
  | .atom _ n _ _ d =>
    if isHead s a then
      let r := fieldOf f.payload 0 n
      finishHead (deliver s a.seq fun x => if n = 8 then x.setPair d (dwOf r) else x.setReg d (wOf r))
    else s
  | .mcst _ _ => if a.awaited.contains f.src then memberDone s f.src none else s
  | .mcldRed _ _ bf count _ =>
    if a.awaited.contains f.src then
      let g : Gather := { serial := f.serial, dev := f.src, off := f.addr - a.ea.toNat, data := f.payload }
      let s1 := { s with fab := { s.fab with gather := s.fab.gather ++ [g] } }
      if gatheredAll s1 f.serial f.src (mcldBytes bf count) then memberDone s1 f.src none else s1
    else s
  | .barExp _ => s
  | .barArr _ => s
  | .tq _ _ _ => s
  | .copy _ => s

/-- The thread that awaits request `n` answers with `k`; a serial not outstanding is dropped and counted (R378). -/
def onRequest (s : State) (n : Nat) (k : State → Access → State) : State :=
  match findReq s n with
  | none => countDrop s
  | some r => onThread s r.tid fun s =>
    match awaiting s n with
    | none => countDrop s
    | some a => k s a

/-- R378. -/
def execResponse (f : Flit) (s : State) : Out :=
  .next (if !reaches s f 0x04 then s else onRequest s f.serial fun s a => landAnswer s a f)

/-- REMOTE_FAULT or REMOTE_TIMEOUT of access `a`: DEV and RCAUSE of c.tinfo, the peer address in c.taddr (R324, R377). -/
def remoteExc (code : Nat) (a : Access) (dev rcause : Nat) : Exc := .trap code (wOf (dev + 1024 * rcause)) a.ea

/-- A fault `e` of a peer access: taken at once by the oldest, held by a speculative one (R246). -/
def faultAccess (s : State) (a : Access) (e : Exc) : State :=
  if isHead s a && !a.spec then takeFault s e
  else modAcc (dropRequest s a) a.seq fun b => { b with fault := some e }

/-- The device that an access names. -/
def accDev (a : Access) : Nat :=
  match a.loc with
  | some (.peer d _ _) => d
  | _ => 0

def isGroup (a : Access) : Bool :=
  match a.kind with
  | .mcst _ _ => true
  | .mcldRed _ _ _ _ _ => true
  | _ => false

/-- R377, R383: AUX holds the code; 0x00 says that the member SRC of the group was absent. -/
def execRemoteFaultResponse (f : Flit) (s : State) : Out :=
  let code := f.aux % 256
  .next (if !reaches s f 0x05 then s
  else onRequest s f.serial fun s a =>
    if !isGroup a then faultAccess s a (remoteExc cRemoteFault a (accDev a) code)
    else if code = 0 then absentGroup s (remoteExc cRemoteFault a f.src 0)
    else if a.awaited.contains f.src then memberDone s f.src (some (remoteExc cRemoteFault a f.src code))
    else s)

/-- R378: the request has had no answer for 2^TLOG cycles of its core. -/
def execRemoteTimeout (serial : Nat) (s : State) : Out :=
  match findReq s serial with
  | none => .next s
  | some r =>
    if r.age < 2 ^ s.fab.tlog then .next s
    else .next (onRequest s serial fun s a =>
      if isGroup a then membersLost s fun d => remoteExc cRemoteTimeout a d 0
      else faultAccess s a (remoteExc cRemoteTimeout a (accDev a) 0))

/-! ## Remote watches (R376) -/

/-- R241: entries of one slice's remote-watch table. -/
def rwatchRoom (s : State) (pa : Nat) : Bool :=
  decide ((s.fab.rwatch.filter fun r => sliceOf (128 * r.line) == sliceOf pa).length < 256) && dirRoom s pa

/-- R376: the watch is entered, or the initiator hears that there is no room. -/
def execWatchRegister (f : Flit) (s : State) : Out :=
  .next (if !reaches s f 0x06 then s
  else
    match (contextOf s f).map fun l => xlate s Config.cores l.xctx f.addr .rd with
    | some (.ok (pa, mir)) =>
      if rwatchRoom s pa then
        let w : RWatch := { dev := f.src, inc := f.inc, line := pa / 128, off := f.addr, mask := f.aux, intent := f.payload.headD 0 != 0 }
        let s1 := shareLoc s (homeDie pa) (.hbm pa mir)
        { s1 with fab := { s1.fab with rwatch := s1.fab.rwatch ++ [w] } }
      else answer s f 0x04 1 []
    | _ => s)

/-- An entry of the remote-watch table that a release names. -/
def RWatch.named (r : RWatch) (f : Flit) : Bool := r.dev == f.src && r.off == f.addr && r.mask == f.aux

/-- R376: one entry of the initiator for these words is released. A release of a commit is answered: AUX 1 where there is no such entry
(R236; log 15, log 66). -/
def execWatchRelease (f : Flit) (s : State) : Out :=
  .next (if !reaches s f 0x07 then s
  else
    let found := s.fab.rwatch.any fun r => r.named f
    let s1 := { s with fab := { s.fab with rwatch := s.fab.rwatch.eraseP fun r => r.dev == f.src && r.off == f.addr && r.mask == f.aux } }
    if f.payload.getD 1 0 = 1 then answer s1 f 0x04 (if found then 0 else 1) [] else s1)

/-- Notices to the threads whose remote watches are hit. -/
def noticePeers (s : State) (dev : Nat) (hit : Nat → Nat → Bool) : State :=
  mapThreads s fun t => if t.watchesPeer dev hit then { t with notice := true } else t

/-- R376: a notice goes to every core that watches those words. -/
def execRemoteConflictNotice (f : Flit) (s : State) : Out :=
  .next (if !reaches s f 0x08 then s
  else noticePeers s f.src (watchWords f.addr f.aux))

/-! ## Reserved flits (R371, R421) -/

/-- The TYPE values of R371. -/
def knownType (ty : Nat) : Bool := [1, 2, 3, 4, 5, 6, 7, 8, 0x10, 0x11, 0x12, 0x20, 0x21, 0x22, 0x23, 0x24, 0x25, 0x26].contains ty

/-- A flit of reserved TYPE, or a request whose AUX breaks its layout, is dropped and counted. -/
def execReservedFlitDrop (f : Flit) (s : State) : Out :=
  let bad := !knownType f.ty || ([1, 2, 3].contains f.ty && !auxOk f.ty f.aux)
  .next (if bad && (isSelf s f.src || portUp s) then countDrop s else s)

/-! ## Ports (R371, R373 to R375) -/

def getPort (s : State) (n : Nat) : Port := s.fab.ports.getD n ⟨.down, 0, []⟩
def setPort (s : State) (n : Nat) (p : Port) : State := { s with fab := { s.fab with ports := s.fab.ports.set n p } }

/-- R373. -/
def execLaneStop (port lane : Nat) (s : State) : Out :=
  let p := getPort s port
  .next (if p.st = .up && lane < 4 then setPort s port { p with stopped := setAdd p.stopped lane } else s)

/-- R373. -/
def execLaneGo (port lane : Nat) (s : State) : Out :=
  let p := getPort s port
  .next (if p.st = .up then setPort s port { p with stopped := setDel p.stopped lane } else s)

/-- R376: the device has left the domain: every peer is lost to it. -/
def allLost (s : State) : State :=
  mapThreads s fun t =>
    if (t.accs.any fun a => a.spec && (a.early.isSome || a.serial.isSome) && (match a.loc with
        | some (.peer d _ _) => !isSelf s d
        | _ => false)) then { t with notice := true } else t

/-- R374: the port goes to DOWN. -/
def portDown (s : State) (n : Nat) : State :=
  let s1 := setPort s n ⟨.down, 0, []⟩
  if portUp s && !portUp s1 then allLost s1 else s1

/-- R374. -/
def execLinkDown (port : Nat) (s : State) : Out := .next (if (getPort s port).st = .down then s else portDown s port)

/-- R371: the 16th retry in a row of one flit that fails takes the port to DOWN. -/
def execFlitRetry (port : Nat) (s : State) : Out :=
  let p := getPort s port
  .next (match p.st with
  | .down => s
  | .train => s
  | .join => if p.retries + 1 < 16 then setPort s port { p with retries := p.retries + 1 } else portDown s port
  | .up => if p.retries + 1 < 16 then setPort s port { p with retries := p.retries + 1 } else portDown s port)

/-- R374. -/
def execPortTrain (port : Nat) (s : State) : Out :=
  .next (if (getPort s port).st = .down && port < s.fab.ports.length then setPort s port ⟨.train, 0, []⟩ else s)

/-- The event of a flit that the device sent to itself (R369). -/
def flitEvent (f : Flit) : Option Instr :=
  match f.ty with
  | 0x01 => some (.read f)
  | 0x02 => some (.write f)
  | 0x03 => some (.atomic f)
  | 0x04 => some (.response f)
  | 0x05 => some (.remoteFaultResponse f)
  | 0x06 => some (.watchRegister f)
  | 0x07 => some (.watchRelease f)
  | 0x08 => some (.remoteConflictNotice f)
  | _ => none

/-- A flit that goes through the device's own fabric interface (R369). -/
def ownFlit (s : State) (f : Flit) : Bool := f.dst < 0x8000 && isSelf s (f.dst % 1024) && (flitEvent f).isSome

/-- R376, log 15: a read leaves after the register of its watch, which its home therefore handles first. -/
def watchFirst (s : State) (f : Flit) : Bool :=
  f.ty == 0x01 && s.out.any fun g => g.ty == 0x06 && g.serial == f.serial && g.dst == f.dst

/-- R371, R373: port `port` sends the oldest flit of a lane that its receiver has not stopped; the flit got through, and its retries
are over. -/
def sendFlit (s : State) (port lane : Nat) : State :=
  let p := getPort s port
  if p.st != .up || p.stopped.contains lane then s
  else
    match s.out.find? fun f => f.vl % 4 == lane && !ownFlit s f with
    | none => s
    | some f => if watchFirst s f then s else setPort { s with out := s.out.erase f } port { p with retries := 0 }

/-- R374, R375: a device that comes back after an absence. The one that has failed and recovered announces the next incarnation, one
whose links alone were lost keeps its own (R410); which it was is free (log 70). -/
def execLinkTrained (port : Nat) (s : State) : Out :=
  .next (if (getPort s port).st = .train then
    let s1 := setPort s port ⟨.join, 0, []⟩
    if s.fab.joined && !portUp s then
      let step : BitVec 16 := if Config.choice s.fresh % 2 = 0 then 0 else 1
      { s1 with fresh := s.fresh + 1, fab := { s1.fab with selfInc := s1.fab.selfInc + step, joined := false } }
    else s1
  else s)

/-- R375: what firmware reports before a recovered device's port leaves JOIN. The model's LLCs hold no peer data. -/
def cleanDevice (s : State) : Bool :=
  s.coll0.side.isEmpty && s.coll1.side.isEmpty && s.coll0.resv.isEmpty && s.coll1.resv.isEmpty
    && s.fab.rwatch.isEmpty && s.fab.reqs.isEmpty

/-- R375. -/
def execJoinCleanReport (port : Nat) (s : State) : Out :=
  .next (if (getPort s port).st = .join && (portUp s || cleanDevice s) then
    let s1 := setPort s port ⟨.up, 0, []⟩
    { s1 with fab := { s1.fab with joined := true } }
  else s)

/-- R376: a peer leaves the domain, and the regions that watch it roll back. -/
def execPeerAbsent (dev : Nat) (s : State) : Out :=
  .next (if isSelf s dev || s.fab.absent.contains dev then s
  else
    let s1 := noticePeers { s with fab := { s.fab with absent := setAdd s.fab.absent dev } } dev fun _ _ => true
    (threads s1).foldl (fun s t => onThread s t.id memberLost) s1)

/-- R375: entries of device `dev` under another incarnation are freed. -/
def freeOthers (e : CollEngine) (dev inc : Nat) : CollEngine :=
  { e with resv := e.resv.filter fun r => r.dev != dev || r.inc == inc }

/-- R375: a peer rejoins with the next incarnation, or, where it had not failed, comes back under its own (R410). -/
def execPeerRejoin (dev inc : Nat) (s : State) : Out :=
  let next := match keyGet s.fab.incs dev with
    | none => true
    | some i => inc == (i + 1) % 0x10000 || (inc == i && s.fab.absent.contains dev)
  .next (if isSelf s dev || !next || 0x10000 ≤ inc then s
  else
    { s with
      fab := { s.fab with
        incs := keyPut s.fab.incs dev inc, absent := setDel s.fab.absent dev,
        rwatch := s.fab.rwatch.filter (fun r => r.dev != dev || r.inc == inc),
        shadow := s.fab.shadow.filter fun x => x.1 != dev || x.2.1 == inc },
      coll0 := freeOthers s.coll0 dev inc, coll1 := freeOthers s.coll1 dev inc })

end Sys2Proof.Machine
end

