-- ==== Sys2Proof/Machine/Launch.lean ====
section
/-! DEFINITION. Claiming and placing clusters (R28, R135 to R140, R365, R366, R424), their retirement (R367) and their
termination (R329). -/

namespace Sys2Proof.Machine

/-! ## Room (R136, R140, R261, R355) -/

/-- Threads, registers, scratchpad bytes and tiles. -/
structure Load where
  threads : Nat
  regs : Nat
  spad : Nat
  tiles : Nat
  deriving DecidableEq, Repr

def Load.plus (a b : Load) : Load := ⟨a.threads + b.threads, a.regs + b.regs, a.spad + b.spad, a.tiles + b.tiles⟩

/-- What slot `i` of a cluster of the launch takes of its core. -/
def slotLoad (l : Launch) (i : Nat) : Load :=
  let n := slotThreads l.groups l.width l.paired i
  ⟨n, n * l.alloc, slotSize l.spad l.paired i, l.accRes⟩

def Launch.slotCount (l : Launch) : Nat := if l.paired then 2 * l.teams else l.teams

/-- The clusters that hold a core, with the slot on it and their launch. -/
def holders (s : State) (core : Nat) : List (Launch × Nat) :=
  s.clusters.flatMap fun k =>
    if k.status.onCore then
      match findLaunch s k.id.lid with
      | none => []
      | some l => ((List.range k.slots.length).zip k.slots).filterMap fun x => if x.2.core = core then some (l, x.1) else none
    else []

def bothDies (cores : List Nat) : Bool := cores.any (fun c => c < 336) && cores.any fun c => decide (336 ≤ c)

/-- Slot `i` of the launch fits beside what the core holds. -/
def coreFits (s : State) (l : Launch) (core i : Nat) : Bool :=
  let hs := holders s core
  let t := hs.foldl (fun a h => a.plus (slotLoad h.1 h.2)) (slotLoad l i)
  decide (core < Config.cores) && hs.all (fun h => h.1.width == l.width) && decide (t.threads ≤ 1536) && decide (t.regs ≤ 98304)
    && decide (t.spad ≤ 0x100000) && decide (t.tiles ≤ 12)

/-- R137: the cores of slots, each with its slot, keep paired teams on cores 2j and 2j + 1. -/
def pairsOk (l : Launch) : List Nat → Bool
  | [] => true
  | [_] => !l.paired
  | a :: b :: r => if l.paired then a % 2 == 0 && b == a + 1 && pairsOk l r else pairsOk l (b :: r)

def distinct : List Nat → Bool
  | [] => true
  | a :: r => !r.contains a && distinct r

/-- R353, R355: one bay, or both bays of a seam-bonded pair, die 0's first. -/
def oneBay (cores : List Nat) : Bool :=
  match cores with
  | [] => false
  | a :: r => r.all fun b => b / 12 == a / 12

def seamPair (cores : List Nat) : Bool :=
  match cores with
  | [] => false
  | a :: _ =>
    let k := a / 12
    21 ≤ k && k < 28 && cores.all (fun c => c / 12 == k || c / 12 == k + 28)
      && cores.all (fun c => c / 12 != k + 28 || !((cores.dropWhile fun d => d != c).any fun d => d / 12 == k))

/-- Cores of a bay on which some slot could stand, counted in slots. -/
def bayRoom (s : State) (l : Launch) (bay : Nat) : Nat :=
  if l.paired then
    2 * ((List.range 6).filter fun j => coreFits s l (12 * bay + 2 * j) 0 && coreFits s l (12 * bay + 2 * j + 1) 1).length
  else ((List.range 12).filter fun j => coreFits s l (12 * bay + j) 0).length

/-- Some single bay of the die has room for a cluster. -/
def dieRoom (s : State) (l : Launch) (die : Nat) : Bool := (List.range 28).any fun b => decide (l.slotCount ≤ bayRoom s l (28 * die + b))

/-- The cores can take a cluster of the launch. -/
def coresOk (s : State) (l : Launch) (cores : List Nat) : Bool :=
  cores.length == l.slotCount && distinct cores && pairsOk l cores
    && ((List.range cores.length).zip cores).all fun x => coreFits s l x.2 x.1

/-- R355, R366: the claiming die may place a cluster on the cores. DEDUCED (log 40): the bays of a pair may hold other clusters beside
it (R136); one claim at a time finds room there, so no room is given twice. -/
def placeOk (s : State) (l : Launch) (die : Nat) (cores : List Nat) : Bool :=
  coresOk s l cores
    && ((oneBay cores && cores.all fun c => c / 336 == die)
      || (l.dieMask == 3 && seamPair cores && !dieRoom s l die))

/-! ## Building a cluster (R28, R138, R139, R198, R365) -/

def newSlot (l : Launch) (core i : Nat) : Slot :=
  { core := core, size := slotSize l.spad l.paired i, bytes := [], absent := [], unpinned := [], bad := [] }

def newTeam (l : Launch) (k : Nat) : Team :=
  { slot := if l.paired then 2 * k else k, paired := l.paired, bars := List.replicate 16 Barrier.empty,
    groups := List.replicate l.groups ⟨Vector.replicate 4 none, 0, 0, 0⟩, retired := false, asyncN := 0, asyncErr := 0,
    asyncSlot := 0, asyncPos := 0, asyncReq := 0, saves := 0, replays := 0 }

/-- R139: slot and port of group `g` of team `k`. -/
def groupSlot (l : Launch) (k g : Nat) : Nat := if l.paired then 2 * k + g % 2 else k
def groupPort (l : Launch) (g : Nat) : Nat := if l.paired then g / 2 % 2 else g % 2

/-- R250: the c.spec that SPEC gives. -/
def specOf (w : Word) : SpecReg :=
  { slvl := w.truncate 2, fix := w.getLsbD 2, lvl := 0, t1 := (w >>> 8).truncate 4, t2 := (w >>> 12).truncate 4,
    dlog := (w >>> 16).truncate 4 }

def newPlace (l : Launch) (c k g lane : Nat) (cores : List Nat) : Place :=
  let slot := groupSlot l k g
  let ix := (c * l.teams + k) * l.groups * l.width + (g * l.width + lane)
  let base := l.rsArea + dwOf (l.rsPer * ix)
  { core := cores.getD slot 0, port := groupPort l g, lane := lane, grp := g, slot := slot, nslot := l.slotCount,
    spsz := slotSize l.spad l.paired slot, width := l.width, regs := l.alloc, ctx := l.ctx, keyId := l.keyId, root := l.root,
    hbase := l.hbase, hlim := l.hlim, hoff := l.hoff, code := l.code, clen := l.clen, thand := l.handler, rsbase := base,
    rslim := base + dwOf l.rsPer, prom := !l.noProm, flog := l.flog, dlimLog := l.dwLog, tq := l.tq }

/-- R28: a thread at its start, its argument words apart. -/
def newThread (l : Launch) (c k g lane : Nat) (cores : List Nat) : Thread :=
  let p := newPlace l c k g lane cores
  let pc := l.code + dwOf l.entry
  { Thread.zero with
    id := ⟨l.lid, c, k, g * l.width + lane⟩, place := p, status := .run, spec := specOf l.spec,
    ctx := { (Ctx.zero.setPair 14 l.args).land pc with spill := p.rsbase } }

def newThreads (l : Launch) (c : Nat) (cores : List Nat) : List Thread :=
  (List.range l.teams).flatMap fun k => (List.range l.groups).flatMap fun g =>
    (List.range l.width).map fun lane => newThread l c k g lane cores

/-- A cluster placed afresh, its arguments still to be read. -/
def newCluster (l : Launch) (c : Nat) (cores : List Nat) (arrival : Nat) : Cluster :=
  { id := ⟨l.lid, c⟩, status := .placing, teams := (List.range l.teams).map (newTeam l),
    slots := ((List.range cores.length).zip cores).map fun x => newSlot l x.2 x.1,
    cbars := List.replicate 4 Barrier.empty, ext := false, reasons := [], ops := [], mats := [], tiles := [], frame := 0,
    back := 0, argFault := none, arrival := arrival }

/-! ## Argument words (R28, R424) -/

/-- What the initial argument reads answer. -/
inductive ArgRead
  | ok (ws : List Word)
  | busy
  | bad (code : Nat) (addr : DWord)
  deriving DecidableEq, Repr

def argWord (s : State) (core : Nat) (l : Launch) (i : Nat) : ArgRead :=
  let ea := l.args + dwOf (4 * i)
  if 2 ^ 56 ≤ ea.toNat then .bad cProt ea
  else
    match xlate s core l.xctx ea.toNat .rd with
    | .error c => .bad c ea
    | .ok (pa, mir) =>
      match genOf s l.keyId with
      | none => .bad cKeyFault ea
      | some g =>
        let p := replica pa mir (core / 336)
        if lockHit s.mem p 4 then .busy
        else if badHit s.mem p 4 false then .bad cEccFatal ea
        else .ok (wordsOf 1 (physRead s.mem g p 4))

def argWords (s : State) (core : Nat) (l : Launch) : Nat → Nat → ArgRead
  | 0, _ => .ok []
  | n + 1, i =>
    match argWord s core l i with
    | .ok ws =>
      (match argWords s core l n (i + 1) with
       | .ok rest => .ok (ws ++ rest)
       | r => r)
    | r => r

/-- R219, R228, R357: the walks of the argument reads, and the copies of the sectors read in the slice of the reading die. -/
def argTouch (s : State) (core : Nat) (l : Launch) (n : Nat) : State :=
  (List.range n).foldl (fun s i =>
    let s := walked s 0 core l.xctx (l.args + dwOf (4 * i)).toNat
    match xlate s core l.xctx (l.args + dwOf (4 * i)).toNat .rd with
    | .error _ => s
    | .ok (pa, mir) => { s with mem := llcRead s.mem (core / 336) (sectorOf (replica pa mir (core / 336))) ((genOf s l.keyId).getD 0) }) s

/-- The argument reads of a cluster that stands placed: it becomes resident, waits, or is to be terminated (R424). -/
def readArgs (s : State) (c : Cid) : State :=
  match findCluster s c, findLaunch s c.lid with
  | some k, some l =>
    let core := match k.slots with
      | [] => 0
      | v :: _ => v.core
    let n := Nat.min 8 (l.arglen / 4)
    (match argWords s core l n 0 with
     | .ok ws =>
       let s1 := mapThreads (argTouch s core l n) fun t => if t.cid = c then { t with ctx := t.ctx.setRegs 16 ws } else t
       setCluster s1 { k with status := .resident, argFault := none }
     | .busy => s
     | .bad code addr =>
       if code = cPageFault || code = cTableFault then setCluster s { k with argFault := some (code, addr) }
       else
         let s1 := if code = cEccFatal then countUe s else s
         setCluster s1 { k with argFault := some (code, addr), status := .dying })
  | _, _ => s

/-- Place cluster `c` of the launch afresh on `cores`: the teams' counts of saves and replays and failures stay. -/
def placeCluster (s : State) (l : Launch) (c : Nat) (cores : List Nat) : State :=
  let new := newCluster l c cores s.fresh
  let k := match findCluster s ⟨l.lid, c⟩ with
    | none => new
    | some o => { new with teams := o.teams.map fun t =>
        { newTeam l 0 with slot := t.slot, saves := t.saves, replays := t.replays, asyncN := t.asyncN, asyncErr := t.asyncErr,
                           asyncSlot := t.asyncSlot, asyncPos := t.asyncPos, asyncReq := t.asyncReq } }
  let s1 := { s with
    fresh := s.fresh + 1, clusters := (s.clusters.filter fun x => x.id != k.id) ++ [k],
    pool := (s.pool.filter fun t => t.cid != k.id) ++ newThreads l c cores,
    th := if s.th.cid = k.id then Thread.zero else s.th }
  readArgs (cores.foldl settleDeque s1) k.id

/-! ## Claims (R366) -/

/-- R366: the launch processor of `die` claims a cluster of the launch, or stops claiming. -/
def execClusterClaim (die lid : Nat) (cores : List Nat) (s : State) : Out :=
  match findLaunch s lid with
  | none => .next s
  | some l =>
    if l.complete || 2 ≤ die || !bitN l.dieMask die || bitN l.stopped die || !s.ctl.up || !fwMayRead s (l.recAddr + 248) 4 then .next s
    else if !((pendingOf s l.queue).takeWhile (fun x => x.lid != lid)).all (turnReached s) then .next s
    else
      let t := ticketOf s l
      if l.n ≤ t then
        .next (addZero (setLaunch s { l with stopped := l.stopped + 2 ^ die, closed := true }) (l.recAddr + 248) 1)
      else if !placeOk s l die cores then .next s
      else
        let l1 := { l with placed := l.placed + 1, closed := t + 1 == l.n }
        .next (placeCluster (addZero (setLaunch s l1) (l.recAddr + 248) 1) l1 t cores)

/-! ## Retirement (R341, R367) -/

def teamThreads (s : State) (c : Cid) (team : Nat) : List Thread := (threads s).filter fun t => t.cid == c && t.id.team == team

/-- R341, R392: a team whose threads have all ended retires. -/
def retireTeam (s : State) (c : Cid) (team : Nat) : State :=
  match findTeam s c team, findLaunch s c.lid with
  | some tm, some l =>
    if tm.retired || (teamThreads s c team).any Thread.live then s
    else
      let s1 := writeTeamRecord (setTeam s c team { tm with retired := true }) l c.clus team tm 0 Blame.none
      if l.nChunk = 0 then s1
      else
        let ctr := l.ctrBase + c.clus / l.cpc
        setCtr s1 l.bDie ctr (satAdd (getCtr s1 l.bDie ctr).val 1)
  | _, _ => s

/-- Engine or matrix operations of the cluster that still run. -/
def worksOn (s : State) (c : Cid) : Bool := s.cores.any fun k => (k.2.eng.any fun o => o.cid == c) || k.2.mats.any fun o => o.cid == c

/-- The cluster, its threads and what they hold leave the device, and DONE counts it. -/
def dropCluster (s : State) (k : Cluster) : State :=
  let s1 := { s with
    clusters := s.clusters.filter fun x => x.id != k.id,
    pool := s.pool.filter fun t => t.cid != k.id,
    th := if s.th.cid = k.id then Thread.zero else s.th,
    bundle := s.bundle.filter fun t => !(t.lid == k.id.lid && t.clus == k.id.clus),
    fab := { s.fab with reqs := s.fab.reqs.filter fun r => !(r.tid.lid == k.id.lid && r.tid.clus == k.id.clus) },
    cores := s.cores.map fun c => (c.1, { c.2 with
      tiles := c.2.tiles.map fun x => match x with
        | some t => if t.cid = k.id then none else some t
        | none => none }) }
  let s2 := (k.slots.map (·.core)).foldl settleDeque s1
  match findLaunch s2 k.id.lid with
  | none => s2
  | some l => tryComplete (addZero s2 (l.recAddr + 252) 1) l.lid

/-- R367: teams that have ended retire; then the cluster does, once none of its operations runs. -/
def execClusterRetire (c : Cid) (s : State) : Out :=
  match findCluster s c with
  | none => .next s
  | some k =>
    if k.status != .resident && k.status != .retired then .next s
    else
      let s1 := (List.range k.teams.length).foldl (fun s i => retireTeam s c i) s
      .next (match findCluster s1 c with
        | none => s1
        | some k1 =>
          if !k1.teams.all (·.retired) then s1
          else if worksOn s1 c then setCluster s1 { k1 with status := .retired }
          else dropCluster s1 k1)

/-! ## Termination (R329) -/

/-- What still performs: released stores and issued irrevocable operations outside scratchpad. -/
def Access.persists (a : Access) : Bool :=
  !a.spec && a.fault.isNone && (match a.kind, a.loc with
    | .tq _ _ _, _ => true
    | .mcst _ _, _ => true
    | .mcldRed _ _ _ _ _, _ => true
    | .store _, some (.spad _ _ _) => false
    | .store _, some _ => true
    | .atom _ _ _ _ _, some (.spad _ _ _) => false
    | .atom _ _ _ _ _, some _ => true
    | .red _ _ _, some (.spad _ _ _) => false
    | .red _ _ _, some _ => true
    | _, _ => false)

/-- R329: held stores, pending launches and held arrivals are discarded. -/
def discardWork (s : State) (c : Cid) : State :=
  let gone := (threads s).flatMap fun t => if t.cid = c then t.accs.filter fun a => !a.persists else []
  let s1 := gone.foldl (fun s a => dropRequest (releaseWatch s a) a) s
  mapThreads s1 fun t => if t.cid = c then
    { t with accs := t.accs.filter Access.persists, ops := [], held := none, yielded := none, notice := false, entryPend := false,
             wpark := none, pend := none }
  else t

def hasDiscard (s : State) (c : Cid) : Bool := (threads s).any fun t => t.cid == c && t.accs.any fun a => !a.persists
def hasWork (s : State) (c : Cid) : Bool := (threads s).any fun t => t.cid == c && !t.accs.isEmpty

/-- Why team `i` of a dying cluster ends. -/
def blameOf (s : State) (l : Launch) (k : Cluster) (i : Nat) : Blame :=
  match k.argFault with
  | some (code, addr) => ⟨code, false, 0, l.code + dwOf l.entry, addr, 0⟩
  | none =>
    match (teamThreads s k.id i).find? fun t => match t.status with
        | .fatal _ _ => true
        | _ => false with
    | none => Blame.none
    | some t => (match t.status with
      | .fatal code nested => ⟨code, nested, t.id.tid, t.trap.tpc, t.trap.taddr, t.trap.info⟩
      | _ => Blame.none)

/-- R170, R329: an engine operation of the cluster fails: a global destination is left in doubt, and its locks go. -/
def failOp (s : State) (w : LockOwner) (core : Nat) (o : CopyOp) : State :=
  dropLocks (if o.plan.dir = 1 then landMixed s core o else s) w

def failOps (s : State) (k : Cluster) : State :=
  let run := s.cores.flatMap fun c => (c.2.eng.filter fun o => o.cid == k.id).map fun o => (c.1, o)
  let s1 := run.foldl (fun s x => failOp s (.copy x.1 x.2.pos) x.1 x.2) s
  -- what a saved operation would have written comes from the backing pages
  let s1 := setCluster s1 { k with slots := ((List.range k.slots.length).zip k.slots).map fun v => refillAll s1 k v.1 v.2 }
  let s2 := ((List.range k.ops.length).zip k.ops).foldl (fun s x => failOp s (.saved k.id x.1) 0 x.2) s1
  { s2 with cores := s2.cores.map fun c => (c.1, { c.2 with eng := c.2.eng.filter (fun o => o.cid != k.id),
                                                            mats := c.2.mats.filter fun o => o.cid != k.id }) }

/-- R329, R341, R343, R367: the termination, once nothing of the cluster is left to perform. -/
def endCluster (s : State) (l : Launch) (k : Cluster) : State :=
  let teams := (List.range k.teams.length).zip k.teams
  let causes := teams.map fun x => (blameOf s l k x.1).cause
  let cause := if causes.contains cTableFar then cTableFar else causes.foldl (fun a b => if a = 0 then b else a) 0
  let s1 := failOps s k
  let s2 := teams.foldl (fun st x =>
    if x.2.retired && !l.ended then st
    else writeTeamRecord st l k.id.clus x.1 x.2 (if l.ended then 2 else 1) (blameOf s l k x.1)) s1
  -- R228: TABLE_FAR is the status of the whole launch, whatever ended a cluster before
  let s3 := if cause = cTableFar || (cause != 0 && l.status = 0) then setLaunch s2 { l with status := cause, firstC := k.id.clus } else s2
  let s4 := dropCluster s3 k
  if cause = cTableFar || (cause != 0 && l.fatalAll) then closeLaunch s4 l.lid false else s4

/-- One move of the termination of a dying cluster. -/
def terminate (s : State) (c : Cid) : State :=
  if hasDiscard s c then discardWork s c
  else
    match findCluster s c, findLaunch s c.lid with
    | some k, some l => if hasWork s c then s else endCluster s l k
    | _, _ => s

end Sys2Proof.Machine
end

