-- ==== Sys2Proof/Machine/Migration.lean ====
section
/-! DEFINITION. Page migration (R232, R347, R361), and the writes that wait at their homes (R232, R248). -/

namespace Sys2Proof.Machine

/-! ## Writes that wait -/

/-- The write of a hart or of a peer that reached its home as event `e` is tried again. -/
def foreignEvent (e : Instr) (s : State) : State :=
  let after (o : Out) : State := match o with
    | .next t => t
    | _ => s
  match e with
  | .hartStore h m pa size v => after (execHartStore h m pa size v s)
  | .hartAmo h m op pa size v => after (execHartAmo h m op pa size v s)
  | .write f => after (execWrite f s)
  | .atomic f => after (execAtomic f s)
  | .multicastWrite f => after (execMulticastWrite f s)
  | _ => s

/-- The write that thread `t` holds performs. -/
def performHeld (s : State) (t : Tid) : State :=
  onThread s t fun s => match headAcc s with
    | none => s
    | some a => if isMirror a.loc then mirrorHead s else match a.kind with
      | .store _ => storeHead s
      | .barExp _ => storeHead s
      | .barArr _ => storeHead s
      | _ => atomHead s

/-! ## Migration -/

def Migration.covers (g : Migration) (pa : Nat) : Bool := decide (g.pa ≤ pa) && decide (pa < g.pa + g.len)

/-- The address lies in the old copy, in either replica of a mirror page. -/
def Migration.reaches (g : Migration) (pa : Nat) : Bool :=
  g.covers pa || (g.mir && decide (Config.dieOneBase ≤ pa) && g.covers (pa - Config.dieOneBase))

/-- R224: the range meets the heap of an open launch, whose pages are never migrated. -/
def heapPage (s : State) (pa len : Nat) : Bool :=
  s.launches.any fun l => !l.complete && l.hbase != l.hlim &&
    decide (pa < (l.hbase.toNat + l.hoff.toNat) % 2 ^ 64 + (l.hlim.toNat - l.hbase.toNat))
      && decide ((l.hbase.toNat + l.hoff.toNat) % 2 ^ 64 < pa + len)

/-- A range to which a page may move: of its size and alignment, apart from it, and free of what the device holds there: range locks,
pages under migration, heaps and code (R35). -/
def Migration.fits (s : State) (g : Migration) : Bool :=
  g.newPa % g.len == 0 && (if g.mir then decide (g.newPa + g.len ≤ Config.dieOneBase) else inHbm g.newPa g.len)
    && (decide (g.newPa + g.len ≤ g.pa) || decide (g.pa + g.len ≤ g.newPa))
    && (replicas g.newPa g.mir).all fun p =>
      !lockHit s.mem p g.len && !heapPage s p g.len && !codeHit s p g.len
        && !(s.mem.migs.any fun h => h != g && ((replicas h.pa h.mir ++ replicas h.newPa h.mir).any fun q =>
          decide (q < p + g.len) && decide (p < q + h.len)))

/-- R232, step 1: firmware sets the lock bit of a leaf page, which no range lock overlaps. DESIGN CHOICE (log 34): it names the page's
new place with it. -/
def execMigrationLock (page : PageMove) (len : Nat) (mir : Bool) (s : State) : Out :=
  let pa := page.pa
  let g : Migration := ⟨pa, page.newPa, len, mir⟩
  let legal := (len == 2 ^ 16 || len == 2 ^ 25 || len == 2 ^ 31) && pa % len == 0
    && (if mir then decide (pa + len ≤ Config.dieOneBase) else inHbm pa len)
  let busy := (replicas pa mir).any fun p => lockHit s.mem p len || (migHit s.mem p len).isSome || heapPage s p len
  .next (if legal && !busy && g.fits s then { s with mem := { s.mem with migs := s.mem.migs ++ [g] } } else s)

/-- An address of the old copy at its new place. -/
def Migration.move (g : Migration) (pa : Nat) : Nat :=
  if g.covers pa then g.newPa + (pa - g.pa)
  else if g.reaches pa then mirrorOf g.newPa + (pa - mirrorOf g.pa)
  else pa

def moveLoc (g : Migration) : Loc → Loc
  | .hbm pa mir => .hbm (g.move pa) mir
  | .spad c i o => .spad c i o
  | .peer d o own => .peer d o (own.map g.move)

/-- A write that waits, at the page's new place; a peer's flit names a virtual address, and stays. -/
def moveEvent (g : Migration) (e : Instr) : Instr :=
  match e with
  | .hartStore h m pa size v => .hartStore h m (g.move pa) size v
  | .hartAmo h m op pa size v => .hartAmo h m op (g.move pa) size v
  | _ => e

/-- Steps 2 and 4: the old copy at `old` as the new copy at `new`, an uncorrectable word as zero. -/
def copyPage (m : MemSys) (old new len : Nat) : MemSys :=
  let inNew (pa : Nat) : Bool := decide (new ≤ pa) && decide (pa < new + len)
  let inOld (pa : Nat) : Bool := decide (old ≤ pa) && decide (pa < old + len)
  let cells := (m.hbm.filter fun c => inOld c.1 && !m.bad.contains (c.1 / 32)).map fun c => (c.1 - old + new, c.2)
  let lower := m.hbm.filter fun c => decide (c.1 < new)
  let upper := m.hbm.filter fun c => decide (new + len ≤ c.1)
  let tags := (m.tags.filter fun t => inOld t.1).map fun t => (t.1 - old + new, t.2)
  { m with
    hbm := lower ++ cells ++ upper,
    tags := tags.foldl (fun l t => keyPut l t.1 t.2) (m.tags.filter fun t => !inNew t.1),
    llc := m.llc.filter fun l => !inNew l.pa,
    bad := m.bad.filter fun w => !inNew (32 * w),
    hidden := m.hidden.filter fun w => !inNew (32 * w),
    soft := m.soft.filter fun w => !inNew (32 * w) }

/-- `n` bytes at `pa`, cut at `c`. -/
def cutAt (c : Nat) (r : Nat × Nat) : List (Nat × Nat) :=
  if r.1 < c && c < r.1 + r.2 then [(r.1, c - r.1), (c, r.1 + r.2 - c)] else [r]

/-- The pieces of a range at the bounds of the page under migration. -/
def Migration.cut (g : Migration) (r : Nat × Nat) : List (Nat × Nat) :=
  ((replicas g.pa g.mir).flatMap fun p => [p, p + g.len]).foldl (fun l c => l.flatMap (cutAt c)) [r]

/-- A range at the places where its parts now lie. -/
def Migration.moveRange (g : Migration) (r : Nat × Nat) : List (Nat × Nat) := (g.cut r).map fun x => (g.move x.1, x.2)

def Migration.moveSeg (g : Migration) (x : CopySeg) : List CopySeg :=
  (g.cut (x.pa, x.len)).map fun r => ⟨x.va + (r.1 - x.pa), g.move r.1, r.2, x.mir⟩

/-- Every address of the old copy that the device holds, at its new place. -/
def retarget (s : State) (g : Migration) : State :=
  let op (o : CollOp) : CollOp := { o with segs := o.segs.flatMap g.moveSeg }
  let eng (e : CollEngine) : CollEngine :=
    { e with ops := e.ops.map op, past := e.past.map op, side := e.side.map fun d => { d with segs := d.segs.flatMap g.moveSeg } }
  let s1 := mapThreads s fun t => { t with
    accs := t.accs.map fun a => { a with loc := a.loc.map (moveLoc g) },
    wpark := t.wpark.map fun w => (w.1, moveLoc g w.2.1, w.2.2) }
  { s1 with
    mem := { s1.mem with
      waits := s1.mem.waits.map fun w => { w with pa := g.move w.pa, ev := moveEvent g w.ev },
      fwq := s1.mem.fwq.map fun w => { w with pa := g.move w.pa } },
    coll0 := eng s1.coll0, coll1 := eng s1.coll1,
    launches := s1.launches.map fun l => { l with codePhys := l.codePhys.flatMap g.moveRange },
    fab := { s1.fab with rwatch := s1.fab.rwatch.map fun r => { r with line := g.move (128 * r.line) / 128 } } }

/-- A write held at the old copy, with its place in the order of arrival. -/
inductive Held
  | thread (t : Tid)
  | foreign (e : Instr)
  | firm
  deriving DecidableEq, Repr

/-- The writes held at the old copy, in the order in which they reached the home; of a launch processor's, the first. -/
def heldAt (s : State) (g : Migration) : List (Nat × Held) :=
  let ths := (threads s).filterMap fun t => match t.heldNow with
    | some (n, .hbm pa _, _) => if g.reaches pa then some (n, Held.thread t.id) else none
    | _ => none
  let ext := (s.mem.waits.filter fun w => g.reaches w.pa).map fun w => (w.num, Held.foreign (moveEvent g w.ev))
  let fw := match s.mem.fwq with
    | [] => []
    | w :: _ => if g.reaches w.pa then [(w.num, Held.firm)] else []
  (ths ++ ext ++ fw).foldl (fun (acc : List (Nat × Held)) x =>
    (acc.takeWhile fun y => decide (y.1 < x.1)) ++ x :: acc.dropWhile fun y => decide (y.1 < x.1)) []

def performOne (s : State) (h : Held) : State :=
  match h with
  | .thread t => performHeld s t
  | .foreign e => foreignEvent e s
  | .firm => fwStep s

/-- R232, step 4, for the page locked at `g`: the copy, the zeros of words that it could not read (R347), the held writes. -/
def switchPage (s : State) (g : Migration) : State :=
  let held := heldAt s g
  let zeros := (replicas g.pa g.mir).flatMap fun p => s.mem.bad.filter fun w => decide (p ≤ 32 * w) && decide (32 * w < p + g.len)
  let mem := (replicas g.pa g.mir).zip (replicas g.newPa g.mir) |>.foldl (fun m p => copyPage m p.1 p.2 g.len) s.mem
  let s1 := retarget { s with mem := { mem with migs := mem.migs.filter fun h => h != g } } g
  let s2 := zeros.foldl (fun s w => probe s none (.hbm (g.move (32 * w)) g.mir) 32) s1
  held.foldl (fun s h => performOne s h.2) s2

/-- R232: the switch to the place that was named with the lock, once no TLB and no walk unit holds the old page (step 3), and neither
place has come to hold anything else. -/
def execMigrationSwitch (pa newPa : Nat) (s : State) : Out :=
  match s.mem.migs.find? fun g => g.pa == pa with
  | none => .next s
  | some g =>
    let legal := newPa == g.newPa && g.fits s
      && !(s.xl.tlb.any fun e => decide (e.leaf.page < g.pa + g.len) && decide (g.pa < e.leaf.page + 2 ^ e.leaf.size))
      && !(s.xl.nodes.any fun e => g.reaches e.next)
      && !((replicas g.pa g.mir).any fun p => heapPage s p g.len)
    .next (if legal then switchPage s g else s)

end Sys2Proof.Machine
end

