-- ==== Sys2Proof/Machine/Matrix.lean ====
section
/-! DEFINITION. The matrix engine (R255 to R276): arrival, operands and their checks, tiles and names, launch points, the array, the
Lens, accumulator transfers and conversion. -/

namespace Sys2Proof.Machine

/-! ## Arrival (R255): no matrix instruction has a member mask -/

/-- R270. -/
def execMmaBf16 (f : FmtM) (va z : Bool) (s : State) : Out := arriveGroup s f.p 0 (.mmaBf16 f va z)
/-- R270. -/
def execMmaF16 (f : FmtM) (va z : Bool) (s : State) : Out := arriveGroup s f.p 0 (.mmaF16 f va z)
/-- R270. -/
def execMmaE4m3 (f : FmtM) (va z : Bool) (s : State) : Out := arriveGroup s f.p 0 (.mmaE4m3 f va z)
/-- R270. -/
def execMmaE5m2 (f : FmtM) (va z : Bool) (s : State) : Out := arriveGroup s f.p 0 (.mmaE5m2 f va z)
/-- R270. -/
def execMmaT8 (f : FmtM) (va z : Bool) (s : State) : Out := arriveGroup s f.p 0 (.mmaT8 f va z)
/-- R270. -/
def execMmaT6 (f : FmtM) (z : Bool) (s : State) : Out := arriveGroup s f.p 0 (.mmaT6 f z)
/-- R270. -/
def execMmaMx8 (f : FmtM) (bsel : Fin 4) (z : Bool) (s : State) : Out := arriveGroup s f.p 0 (.mmaMx8 f bsel z)
/-- R270. -/
def execMmaMx6 (f : FmtM) (bsel : Fin 4) (z : Bool) (s : State) : Out := arriveGroup s f.p 0 (.mmaMx6 f bsel z)
/-- R270. -/
def execMmaMx4 (f : FmtM) (bsel : Fin 4) (z : Bool) (s : State) : Out := arriveGroup s f.p 0 (.mmaMx4 f bsel z)
/-- R270. -/
def execMmaI8 (f : FmtM) (va z : Bool) (s : State) : Out := arriveGroup s f.p 0 (.mmaI8 f va z)
/-- R273. -/
def execAccZero (p : Pred) (acc : Fin 4) (s : State) : Out := arriveGroup s p 0 (.accZero p acc)
/-- R274. -/
def execAccLd (p : Pred) (acc : Fin 4) (a : Reg) (look : Fin 16) (dc : Fin 7) (off : Option (BitVec 30)) (s : State) : Out :=
  arriveGroup s p 0 (.accLd p acc a look dc off)
/-- R274. -/
def execAccSt (p : Pred) (acc : Fin 4) (rls : Bool) (a : Reg) (look : Fin 16) (dc : Fin 7) (off : Option (BitVec 30))
    (s : State) : Out :=
  arriveGroup s p 0 (.accSt p acc rls a look dc off)
/-- R275. -/
def execAccRd (p : Pred) (d : Reg) (acc : Fin 4) (b : Reg) (s : State) : Out := arriveGroup s p 0 (.accRd p d acc b)
/-- R275. -/
def execAccWr (p : Pred) (acc : Fin 4) (a b : Reg) (s : State) : Out := arriveGroup s p 0 (.accWr p acc a b)
/-- R276. -/
def execAccCvt (p : Pred) (acc : Fin 4) (rls : Bool) (a : Reg) (fmt : PackFmt) (s32 sat dth : Bool) (s : State) : Out :=
  arriveGroup s p 0 (.accCvt p acc rls a fmt s32 sat dth)

/-! ## Fields of the matrix instructions -/

/-- Element type of an `mma`: K, slice width s (R56), element bits, MX type, integer, number format. -/
structure MmaTy where
  k : Nat
  s : Nat
  w : Nat
  mx : Option MxFmt
  int : Bool
  fmt : NumFmt
  deriving DecidableEq, Repr

/-- Fields of an `mma`. -/
structure MmaOp where
  ty : MmaTy
  f : FmtM
  va : Bool
  z : Bool
  bsel : Nat
  deriving DecidableEq, Repr

/-- R258. -/
def mmaOf (i : Instr) : Option MmaOp :=
  match i with
  | .mmaBf16 f va z => some ⟨⟨64, 1, 16, none, false, .bf16⟩, f, va, z, 0⟩
  | .mmaF16 f va z => some ⟨⟨64, 1, 16, none, false, .f16⟩, f, va, z, 0⟩
  | .mmaE4m3 f va z => some ⟨⟨128, 2, 8, none, false, .e4m3⟩, f, va, z, 0⟩
  | .mmaE5m2 f va z => some ⟨⟨128, 2, 8, none, false, .e5m2⟩, f, va, z, 0⟩
  | .mmaT8 f va z => some ⟨⟨128, 2, 8, none, false, .t8⟩, f, va, z, 0⟩
  | .mmaT6 f z => some ⟨⟨256, 4, 6, none, false, .t6⟩, f, false, z, 0⟩
  | .mmaMx8 f b z => some ⟨⟨128, 2, 8, some .mx8, false, .e4m3⟩, f, false, z, b.val⟩
  | .mmaMx6 f b z => some ⟨⟨256, 4, 6, some .mx6, false, .e2m3⟩, f, false, z, b.val⟩
  | .mmaMx4 f b z => some ⟨⟨256, 4, 4, some .mx4, false, .e2m1⟩, f, false, z, b.val⟩
  | .mmaI8 f va z => some ⟨⟨128, 2, 8, none, true, .e4m3⟩, f, va, z, 0⟩
  | _ => none

/-- R262: a chain start. -/
def chainStart (i : Instr) : Bool :=
  match mmaOf i, i with
  | some m, _ => m.z
  | none, .accZero _ _ => true
  | none, .accLd _ _ _ _ _ _ => true
  | none, _ => false

/-- The accumulator name of a matrix instruction. -/
def accName (i : Instr) : Option (Fin 4) :=
  match mmaOf i, i with
  | some m, _ => some m.f.acc
  | none, .accZero _ n => some n
  | none, .accLd _ n _ _ _ _ => some n
  | none, .accSt _ n _ _ _ _ _ => some n
  | none, .accRd _ _ n _ => some n
  | none, .accWr _ n _ _ => some n
  | none, .accCvt _ n _ _ _ _ _ _ => some n
  | none, _ => none

def isMatrix (i : Instr) : Bool := (accName i).isSome

/-- The instruction needs a tile behind its name (R262). -/
def needsTile (i : Instr) : Bool :=
  match i with
  | .accSt _ _ _ _ _ _ _ => false
  | .accRd _ _ _ _ => false
  | .accCvt _ _ _ _ _ _ _ _ => false
  | _ => isMatrix i

/-- The instruction reads its tile as a pending reader. -/
def isDrain (i : Instr) : Bool :=
  match i with
  | .accSt _ _ _ _ _ _ _ => true
  | .accCvt _ _ _ _ _ _ _ _ => true
  | _ => false

/-- Counter of an accumulator transfer (R274). -/
def matDc (i : Instr) : Fin 7 :=
  match i with
  | .accLd _ _ _ _ dc _ => dc
  | .accSt _ _ _ _ _ dc _ => dc
  | _ => 6

/-- Bytes that a conversion writes (R276). -/
def cvtBytes (f : PackFmt) : Nat := 16384 * (packFmt f).bits / 8

/-- Address operands of one member: address, alignment and length of each range (R258 to R260, R271, R274, R276). -/
def matAddrs (i : Instr) (c : Ctx) : List (DWord × Nat × Nat) :=
  match mmaOf i, i with
  | some m, _ =>
    let tile := 128 * m.ty.k * m.ty.w / 8
    let sc := 16 * m.ty.k
    match m.ty.mx with
    | some _ => [(c.pair m.f.a, 128, tile), (c.pair (plusReg m.f.a 2), 128, sc), (c.pair m.f.b, 128, tile),
                 (c.pair (plusReg m.f.b 2), 128, sc)]
    | none => [(c.pair m.f.a, if m.va then 32 else 128, if m.va then 32 else tile), (c.pair m.f.b, 128, tile)]
  | none, .accLd _ _ a _ _ off => [(eaXM0 c a off, 128, 65536)]
  | none, .accSt _ _ _ a _ _ off => [(eaXM0 c a off, 128, 65536)]
  | none, .accCvt _ _ _ a f _ _ _ => [(c.pair a, 128, cvtBytes f)]
  | none, _ => []

/-- Operands that every member must supply alike (R256). -/
def matUniform (i : Instr) (c : Ctx) : List DWord :=
  (matAddrs i c).map (·.1) ++
    (match mmaOf i, i with
     | some m, _ => if m.va then [c.pair (plusReg m.f.a 2)] else []
     | none, .accCvt _ _ _ _ _ _ _ dth => if dth then [c.dphase.zeroExtend 64] else []
     | none, _ => [])

/-! ## The Lens (R271, R272) -/

/-- A Lens descriptor. -/
structure Lens where
  base : Nat
  iw : Nat
  ih : Nat
  id : Nat
  c : Nat
  ow : Nat
  oh : Nat
  padv : Nat
  kw : Nat
  kh : Nat
  kd : Nat
  sx : Nat
  sy : Nat
  sz : Nat
  dx : Nat
  dy : Nat
  dz : Nat
  px : Nat
  py : Nat
  pz : Nat
  deriving DecidableEq, Repr

def lensOf (bs : List Byte) : Lens :=
  let lo (k : Nat) : Nat := fieldOf bs k 1 % 16
  let hi (k : Nat) : Nat := fieldOf bs k 1 / 16
  { base := fieldOf bs 0 8, iw := fieldOf bs 8 2, ih := fieldOf bs 10 2, id := fieldOf bs 12 2, c := fieldOf bs 14 2,
    ow := fieldOf bs 16 2, oh := fieldOf bs 18 2, padv := fieldOf bs 20 2, kw := lo 22, kh := hi 22, kd := lo 23, sx := hi 23,
    sy := lo 24, sz := hi 24, dx := lo 25, dy := hi 25, dz := lo 26, px := hi 26, py := lo 27, pz := hi 27 }

/-- Bytes of one element and of the activation tensor. -/
def Lens.bytes (l : Lens) (w : Nat) : Nat := l.id * l.ih * l.iw * l.c * (w / 8)

/-- R271: limits of the field table. -/
def lensOk (bs : List Byte) (w : Nat) : Bool :=
  let l := lensOf bs
  l.base % (w / 8) == 0 && (l.base / 2 ^ 56 == 0xF0 || l.base / 2 ^ 56 == 0xF1)
    && [l.iw, l.ih, l.id, l.c, l.ow, l.oh, l.kw, l.kh, l.kd, l.sx, l.sy, l.sz, l.dx, l.dy, l.dz].all (fun x => x != 0)
    && (w != 8 || decide (l.padv < 256)) && fieldOf bs 28 4 == 0

/-- R272: offset in the activation tensor of A[m][k], or the padding element, or zero beyond the kernel. -/
def Lens.at' (l : Lens) (w m0 k0 m k : Nat) : Nat ⊕ Nat :=
  let p := m0 + m
  let kk := k0 + k
  let ox := p % l.ow
  let oy := p / l.ow % l.oh
  let oz := p / (l.ow * l.oh)
  let q := kk / l.c
  let tx := q % l.kw
  let ty := q / l.kw % l.kh
  let tz := q / (l.kw * l.kh)
  if l.kd ≤ tz then .inr 0
  else
    let ix : Int := (ox * l.sx + tx * l.dx : Nat) - (l.px : Int)
    let iy : Int := (oy * l.sy + ty * l.dy : Nat) - (l.py : Int)
    let iz : Int := (oz * l.sz + tz * l.dz : Nat) - (l.pz : Int)
    if 0 ≤ ix && ix < l.iw && 0 ≤ iy && iy < l.ih && 0 ≤ iz && iz < l.id then
      .inl ((((iz.toNat * l.ih + iy.toNat) * l.iw + ix.toNat) * l.c + kk % l.c) * (w / 8))
    else .inr l.padv

/-! ## Scratchpad as the array reads it -/

/-- `w` bits from bit `bit` on of the bytes at scratchpad address `a`, seen from slot `own`. -/
def spadBitsAt (s : State) (c : Cid) (own a bit w : Nat) : Nat :=
  match findSlot s c (spadSlot own a) with
  | none => 0
  | some v => natOfBytes (Mem.load v.bytes (spadOff a + bit / 8) ((bit % 8 + w + 7) / 8)) / 2 ^ (bit % 8) % 2 ^ w

def lensBytes (s : State) (c : Cid) (own a : Nat) : List Byte :=
  match findSlot s c (spadSlot own a) with
  | none => List.replicate 32 0
  | some v => Mem.load v.bytes (spadOff a) 32

/-- Ranges as slot, offset and length. -/
def spadRange (own : Nat) (r : Nat × Nat) : Nat × Nat × Nat := (spadSlot own r.1, spadOff r.1, r.2)

/-- All ranges that an `mma` or `acc.ld` reads, the Lens activation range among them. -/
def srcRanges (s : State) (c : Cid) (own : Nat) (i : Instr) (ad : List (DWord × Nat × Nat)) : List (Nat × Nat × Nat) :=
  let base := if isDrain i then [] else ad.map fun x => spadRange own (x.1.toNat, x.2.2)
  match mmaOf i, ad with
  | some m, x :: _ =>
    if m.va then
      let l := lensOf (lensBytes s c own x.1.toNat)
      base ++ [spadRange own (l.base, l.bytes m.ty.w)]
    else base
  | _, _ => base

/-- Some byte of the ranges is absent or unpinned. -/
def rangesAway (s : State) (c : Cid) (rs : List (Nat × Nat × Nat)) : Bool :=
  rs.any fun r => match findSlot s c r.1 with
    | none => false
    | some v => v.isAbsent r.2.1 r.2.2 || v.isUnpinned r.2.1 r.2.2

/-- The first uncorrectable word of the ranges, as a pool address (R345). -/
def rangesBad (s : State) (c : Cid) (rs : List (Nat × Nat × Nat)) : Option Nat :=
  rs.findSome? fun r => match findSlot s c r.1 with
    | none => none
    | some v => ((unitsOf 8 r.2.1 r.2.2).find? v.bad.contains).map fun w => 0xF1 * 2 ^ 56 + r.1 * 2 ^ 20 + 8 * w

/-! ## Checks at the rendezvous (R255, R256, R269) -/

/-- What the checks answer: a trap of every member, or go on; `wait` for an absent descriptor (R265). -/
inductive MatCheck
  | trap (e : Exc)
  | wait
  | ok
  deriving DecidableEq, Repr

def matCheck (s : State) (i : Instr) (mem : List Thread) (gone : Bool) (l : Thread) : MatCheck :=
  let ad := matAddrs i l.ctx
  let own := l.place.slot
  let c := l.cid
  if gone || mem.any (fun t => matUniform i t.ctx != matUniform i l.ctx) then .trap (excOf cIllconv 0)
  else
    match ad.find? (fun x => x.1.toNat % x.2.1 != 0) with
    | some x => .trap (excOf cMisaligned x.1)
    | none =>
      match ad.find? (fun x => !spadTag x.1) with
      | some x => .trap (excOf cProt x.1)
      | none =>
        let range (a : DWord) (n : Nat) : Bool := spadOk s c own a.toNat n
        let lens : MatCheck := match mmaOf i, ad with
          | some m, d :: _ =>
            if m.va && range d.1 32 then
              if rangesAway s c [spadRange own (d.1.toNat, 32)] then .wait
              else
                let bs := lensBytes s c own d.1.toNat
                let x := lensOf bs
                if !lensOk bs m.ty.w then .trap (excOf cProt d.1)
                else if !range (dwOf x.base) (x.bytes m.ty.w) then .trap (.kill (dwOf x.base))
                else .ok
            else .ok
          | _, _ => .ok
        match lens, ad.find? (fun x => !range x.1 x.2.2) with
        | .trap (.trap k n a), _ => .trap (.trap k n a)
        | .wait, _ => .wait
        | _, some x => .trap (.kill x.1)
        | r, none => r

/-! ## Tiles and names (R261 to R263) -/

def tileOf (c : Core) (t : Nat) : Option Tile := (c.tiles[t]?).getD none
def setTile (c : Core) (t : Nat) (x : Tile) : Core := { c with tiles := c.tiles.set t (some x) }
def tileWord (x : Tile) (k : Nat) : Word := (keyGet x.words k).getD 0

/-- Words at their canonical form: zero words are not listed. -/
def setWord (ws : List (Nat × Word)) (k : Nat) (v : Word) : List (Nat × Word) := if v = 0 then keyDel ws k else keyPut ws k v

/-- An operation that will write tile `t` has not completed. -/
def hasWriter (c : Core) (t : Nat) : Bool := c.mats.any fun o => o.tile == t && !isDrain o.ins

def boundTile (s : State) (l : Thread) (n : Fin 4) : Option Nat :=
  match findGroup s l.cid l.id.team l.place.grp with
  | none => none
  | some g => g.names[n.val]

def setName (s : State) (l : Thread) (n : Fin 4) (t : Option Nat) : State :=
  match findGroup s l.cid l.id.team l.place.grp with
  | none => s
  | some g => setGroup s l.cid l.id.team l.place.grp { g with names := g.names.set n.val t }

/-- Tiles of the team's reservation on a core (R261). -/
def reservation (s : State) (l : Thread) : Nat :=
  match findLaunch s l.id.lid with
  | none => 0
  | some x => x.accRes

/-- A free tile of the team's reservation. -/
def freeTile (s : State) (l : Thread) : Option Nat :=
  let c := getCore s l.place.core
  let used := (c.tiles.filter fun x => match x with
    | none => false
    | some t => t.cid == l.cid && t.team == l.id.team).length
  if reservation s l ≤ used then none else (List.range Config.tilesPerCore).find? fun t => (tileOf c t).isNone

/-- Bind name `n` of the lane's group to a tile of zeros. -/
def allocTile (s : State) (l : Thread) (n : Fin 4) : Option (State × Nat) :=
  match freeTile s l with
  | none => none
  | some t =>
    let c := getCore s l.place.core
    let c := setTile c t { cid := l.cid, team := l.id.team, grp := l.place.grp, draining := false, words := [], bad := [] }
    some (setName (setCore s l.place.core c) l n (some t), t)

/-- R262: the tile of a name that `i` writes, renamed or bound where needed; none waits for a free tile. -/
def takeTile (s : State) (l : Thread) (i : Instr) (n : Fin 4) : Option (State × Nat) :=
  let c := getCore s l.place.core
  match boundTile s l n with
  | none => allocTile s l n
  | some t =>
    if chainStart i && hasReader c t then
      match allocTile s l n with
      | none => none
      | some (s', u) => some (setCore s' l.place.core (dropTile (getCore s' l.place.core) t), u)
    else some (s, t)

/-- R263: the release bit. -/
def releaseName (s : State) (l : Thread) (n : Fin 4) : State :=
  match boundTile s l n with
  | none => s
  | some t => setCore (setName s l n none) l.place.core (dropTile (getCore s l.place.core) t)

/-! ## Launch points (R264) -/

def nextIdent (c : Core) : Nat := 1 + c.mats.foldl (fun m o => Nat.max m o.ident) 0

/-- A recorded operation of the lane's group. -/
def newMat (s : State) (l : Thread) (i : Instr) (tile : Nat) : MatOp :=
  let ad := matAddrs i l.ctx
  let a (k : Nat) : DWord := (ad.getD k (0, 0, 0)).1
  let mx := match mmaOf i with | none => false | some m => m.ty.mx.isSome
  let lens := match mmaOf i with | none => (0 : DWord) | some m => if m.va then l.ctx.pair (plusReg m.f.a 2) else 0
  { ident := nextIdent (getCore s l.place.core), born := s.fresh, cid := l.cid, team := l.id.team, grp := l.place.grp, slot := l.place.slot,
    ins := i, iaddr := l.ctx.pc, addrA := a 0, scaleA := if mx then a 1 else lens, addrB := if mx then a 2 else a 1,
    scaleB := if mx then a 3 else 0, ph := l.ctx.dphase, tile := tile, stage := 0, left := [], result := [],
    holds := srcRanges s l.cid l.place.slot i ad }

def pushMat (s : State) (core : Nat) (o : MatOp) : State :=
  let c := getCore s core
  setCore { s with fresh := s.fresh + 1 } core { c with mats := c.mats ++ [o] }

/-- Destination range of a drain. -/
def drainRange (o : MatOp) : Nat × Nat × Nat :=
  spadRange o.slot (o.addrA.toNat, match o.ins with | .accCvt _ _ _ _ f _ _ _ => cvtBytes f | _ => 65536)

/-- R264, R298: the destination of a drain overlaps a held range, or the destination of an operation in flight. -/
def drainBlocked (s : State) (c : Cid) (r : Nat × Nat × Nat) : Bool :=
  spadHeld s c r.1 r.2.1 r.2.2 || rangesAway s c [r]

/-- R248: a watch with intent holds the drain at its destination, or it stands behind a write that waits there. -/
def drainWaits (s : State) (c : Cid) (r : Nat × Nat × Nat) : Bool :=
  intentHolds s none (.spad c r.1 r.2.1) r.2.2 || queuedBefore s s.fresh (.spad c r.1 r.2.1) r.2.2

/-- The presence bits of a drain's destination fall, and its watches are probed (R169, R243). -/
def openDrain (s : State) (c : Cid) (r : Nat × Nat × Nat) : State :=
  match findSlot s c r.1 with
  | none => s
  | some v => probe (setSlot s c r.1 (v.setAbsent r.2.1 r.2.2)) none (.spad c r.1 r.2.1) r.2.2

/-- Every member ends the instruction: `f` gives its new thread state. -/
def matRetire (s : State) (i : Instr) (mem : List Thread) (f : Thread → Thread) : State :=
  mem.foldl (fun s l => onThread s l.id fun s =>
    modTh (goOn (issued (modTh s fun t => { f t with status := .run, age := 0 })) (encode i).length) fun t => dcStep t (matDc i)) s

/-- R275: index of the element that a lane names. -/
def accIx (c : Ctx) (b : Reg) : Nat := (c.reg b).toNat % 16384

/-- The launch of a matrix instruction whose checks have passed; none while it waits (R248, R262, R264, R266). -/
def matLaunch (s : State) (i : Instr) (mem : List Thread) (l : Thread) : Option State :=
  let core := l.place.core
  match accName i with
  | none => none
  | some n =>
    let bound := boundTile s l n
    match i with
    | .accRd _ d _ b =>
      (match bound with
       | none => some (matRetire s i mem fun t => { t with ctx := t.ctx.setReg d 0 })
       | some t =>
         if hasWriter (getCore s core) t then none
         else
           match tileOf (getCore s core) t with
           | none => none
           | some x =>
             if mem.any (fun t => x.bad.contains (accIx t.ctx b)) then some (mem.foldl (fun s l => trapLane s l.id (excOf cEccFatal 0)) s)
             else some (matRetire s i mem fun th => { th with ctx := th.ctx.setReg d (tileWord x (accIx th.ctx b)) }))
    | .accWr _ _ a b =>
      let busy := match bound with
        | none => false
        | some t => hasReader (getCore s core) t || hasWriter (getCore s core) t
      if busy then none
      else
        (match takeTile s l i n with
         | none => none
         | some (s', t) =>
           let c := getCore s' core
           match tileOf c t with
           | none => none
           | some x =>
             let ws := ((List.range 64).filterMap (atLane mem)).foldl
               (fun ws m => setWord ws (accIx m.ctx b) (m.ctx.reg a)) x.words
             let bad := x.bad.filter fun w => !(mem.any fun t => accIx t.ctx b == w)
             some (matRetire (setCore s' core (setTile c t { x with words := ws, bad := bad })) i mem id))
    | .accZero _ _ =>
      (match takeTile s l i n with
       | none => none
       | some (s', t) =>
         let c := getCore s' core
         match tileOf c t with
         | none => none
         | some x =>
           -- what still runs into the tile has no reader left
           let c1 := { c with mats := c.mats.map fun o => if o.tile = t && !isDrain o.ins then { o with tile := 12 } else o }
           some (matRetire (setCore s' core (setTile c1 t { x with words := [], bad := [] })) i mem id))
    | .accSt _ _ rls _ _ _ _ => drain s i mem l core n bound rls false
    | .accCvt _ _ rls _ _ _ _ dth => drain s i mem l core n bound rls dth
    | _ =>
      match takeTile s l i n with
      | none => none
      | some (s', t) => some (matRetire (pushMat s' core (newMat s' l i t)) i mem id)
where
  /-- R263, R274, R276. -/
  drain (s : State) (i : Instr) (mem : List Thread) (l : Thread) (core : Nat) (n : Fin 4) (bound : Option Nat)
      (rls dth : Bool) : Option State :=
    let o := newMat s l i (bound.getD 12)
    let r := drainRange o
    if drainBlocked s l.cid r || drainWaits s l.cid r then none
    else
      let s1 := pushMat (openDrain s l.cid r) core o
      let s2 := if rls then releaseName s1 l n else s1
      some (matRetire s2 i mem fun t => if dth then { t with ctx := { t.ctx with dphase := t.ctx.dphase + 1 } } else t)

/-- Every arrived member traps or is killed. -/
def trapMembers (s : State) (mem : List Thread) (e : Exc) : State := mem.foldl (fun s l => trapLane s l.id e) s

/-- A complete rendezvous of a matrix instruction (R152, R255, R269). -/
def runMatrix (s : State) (i : Instr) (mem : List Thread) (gone : Bool) (l : Thread) : State :=
  match matCheck s i mem gone l with
  | .trap e => trapMembers s mem e
  | .wait => s
  | .ok =>
    let bound := match accName i with | none => none | some n => boundTile s l n
    if needsTile i && bound.isNone && reservation s l == 0 then trapMembers s mem (excOf cConvDeadlock 0)
    else (matLaunch s i mem l).getD s

/-! ## Events of the rendezvous -/

/-- The waiting instruction of a lane. -/
def rvInstr (t : Thread) : Option Instr :=
  match t.status with
  | .rv _ _ i => some i
  | _ => none

/-- Run the complete rendezvous of lane `l`. -/
def runRendezvous (s : State) (l : Thread) : State :=
  match rvMask l, rvInstr l with
  | some m, some i =>
    let x := rvMembers s l m
    if isMatrix i then runMatrix s i x.1 x.2 l else runExchange s i x.1 x.2
  | _, _ => s

/-- R145, R152: a complete rendezvous issues as one bundle. -/
def execRendezvousIssue (t : Tid) (s : State) : Out :=
  match findThread s t with
  | none => .next s
  | some l => .next (if verdict (groupOf s l) l = .complete then runRendezvous s l else s)

/-- R262: a chain start that has waited for a tile finds one. -/
def execChainStartTileWait (t : Tid) (s : State) : Out :=
  match findThread s t with
  | none => .next s
  | some l =>
    match rvInstr l with
    | none => .next s
    | some i =>
      .next (if needsTile i && verdict (groupOf s l) l = .complete && (freeTile s l).isSome then runRendezvous s l else s)

/-- A chain start or another first use of a name has no free tile (R262). -/
def tileStarved (s : State) (l : Thread) : Bool :=
  match rvInstr l with
  | none => false
  | some i =>
    match accName i with
    | none => false
    | some n => needsTile i && (freeTile s l).isNone && (match boundTile s l n with
      | none => true
      | some t => chainStart i && hasReader (getCore s l.place.core) t)

/-- R151, R262: a waiting lane whose count has reached the limit. R269, R323: want of a tile traps only once every check has passed, so
not while a descriptor is still absent. DESIGN CHOICE (log 37): R262 does not say from when its wait is measured, nor by which member's
count; any member's will do, from its own arrival on, the time spent waiting for the other members included. -/
def execDivergenceWaitLimit (t : Tid) (s : State) : Out :=
  match findThread s t with
  | none => .next s
  | some l =>
    let g := groupOf s l
    let v := verdict g l
    match rvMask l with
    | none => .next s
    | some m =>
      .next (if v = .limit then trapLane s l.id (excOf cConvDeadlock 0)
             else if v = .complete && 2 ^ l.place.dlimLog ≤ rvCount l && tileStarved s l then
               let x := rvMembers s l m
               -- R323: the cause for want of a tile comes after every address check
               match rvInstr l with
               | none => s
               | some i =>
                 match matCheck s i x.1 x.2 l with
                 | .trap e => trapMembers s x.1 e
                 | .wait => s
                 | .ok => trapMembers s x.1 (excOf cConvDeadlock 0)
             else s)

/-! ## The array (R56, R57, R265, R268, R270) -/

def findMat (s : State) (core ident : Nat) : Option MatOp := (getCore s core).mats.find? fun o => o.ident == ident

def setMat (s : State) (core : Nat) (o : MatOp) : State :=
  let c := getCore s core
  setCore s core { c with mats := c.mats.map fun x => if x.ident = o.ident then o else x }

/-- An operation ends: it leaves its queue, and its counter falls in every lane of its group (R274). -/
def endMat (s : State) (core : Nat) (o : MatOp) : State :=
  let c := getCore s core
  mapThreads (setCore s core { c with mats := c.mats.filter fun x => x.ident != o.ident }) fun t =>
    if t.cid == o.cid && t.id.team == o.team && t.place.grp == o.grp then dcDrop t (matDc o.ins) else t

/-- Operations launched before `o`. -/
def earlier (c : Core) (o : MatOp) : List MatOp := c.mats.takeWhile fun x => x.ident != o.ident

/-- R269: an uncorrectable source or tile ends the cluster with ECC_FATAL. -/
def eccMatrix (s : State) (o : MatOp) (addr : DWord) : State :=
  let lanes := (threads s).filter fun t => t.cid == o.cid && t.id.team == o.team && t.place.grp == o.grp
  match lanes.foldl (fun b t => match b with
      | none => some t
      | some x => if t.id.tid < x.id.tid then some t else some x) (none : Option Thread) with
  | none => dieCluster s o.cid
  | some t => onThread s t.id fun s =>
      fatal (modTh s fun t => { t with trap := { t.trap with
        cause := wOf cEccFatal, info := 0, tpc := o.iaddr, taddr := addr, tclh := t.ctx.clh } }) cEccFatal false

/-- Code of A[m][k] or of B[k][n]. -/
def codeA (s : State) (o : MatOp) (p : MmaOp) (lens : Lens) (m k : Nat) : Nat :=
  if p.va then
    match lens.at' p.ty.w (loW o.scaleA).toNat (hiW o.scaleA).toNat m k with
    | .inr v => v % 2 ^ p.ty.w
    | .inl off => spadBitsAt s o.cid o.slot lens.base (8 * off) p.ty.w
  else spadBitsAt s o.cid o.slot o.addrA.toNat ((m * p.ty.k + k) * p.ty.w) p.ty.w

def codeB (s : State) (o : MatOp) (p : MmaOp) (k n : Nat) : Nat :=
  spadBitsAt s o.cid o.slot o.addrB.toNat ((k * 128 + n) * p.ty.w) p.ty.w

/-- R260: a scale byte; `i` is the row of A or the column of B. -/
def scaleAt (s : State) (o : MatOp) (p : MmaOp) (base : DWord) (j i : Nat) : Nat :=
  spadBitsAt s o.cid o.slot base.toNat (8 * (4 * (128 * j + i) + p.bsel)) 8

/-- R45: an exact value times 2^(scale − 127); 0xFF makes it NaN. -/
def scaleNum (v : Num) (sc : Nat) : Num :=
  if sc = 0xFF then .nan false
  else
    match v with
    | .fin s m e => .fin s m (e + sc - 127)
    | x => x

/-- R56: one slice of float products added to an accumulator word. -/
def sliceF (p : MmaOp) (a b : Nat → Nat) (sa sb : Nat → Nat) (acc : Word) (t : Nat) : Word :=
  let ks := rangeFrom (p.ty.s * t) p.ty.s
  let prod (k : Nat) : Num := (mulNum (numOf p.ty.fmt (a k)) (numOf p.ty.fmt (b k))).1
  let sum := match ks with
    | [] => Num.fin false 0 0
    | k :: r => r.foldl (fun x k => (addNum false x (prod k)).1) (prod k)
  let j := p.ty.s * t / 32
  let x := match p.ty.mx with
    | none => sum
    | some _ => scaleNum (scaleNum sum (sa j)) (sb j)
  wOf (encNum .f32 .rne false (addNum false (numOf .f32 acc.toNat) x).1).1

/-- R57: one slice of integer products. -/
def sliceI (p : MmaOp) (a b : Nat → Nat) (acc : Word) (t : Nat) : Word :=
  BitVec.ofInt 32 ((rangeFrom (p.ty.s * t) p.ty.s).foldl (fun x k => x + sextN 8 (a k) * sextN 8 (b k)) acc.toInt)

/-- R270: element (m, n) of the result. -/
def mmaElem (s : State) (o : MatOp) (p : MmaOp) (lens : Lens) (old : Word) (m n : Nat) : Word :=
  let a := codeA s o p lens m
  let b (k : Nat) : Nat := codeB s o p k n
  let t0 : Word := if p.z then 0 else old
  (List.range (p.ty.k / p.ty.s)).foldl (fun acc t =>
    if p.ty.int then sliceI p a b acc t
    else sliceF p a b (fun j => scaleAt s o p o.scaleA j m) (fun j => scaleAt s o p o.scaleB j n) acc t) t0

/-- The tile's value as left by the operations before `o` (R266). -/
def tileBefore (c : Core) (o : MatOp) : List (Nat × Word) :=
  match ((earlier c o).filter fun x => x.tile == o.tile && !isDrain x.ins).getLast? with
  | some x => x.result
  | none => match tileOf c o.tile with
    | none => []
    | some t => t.words

def mmaResult (s : State) (o : MatOp) (p : MmaOp) (old : List (Nat × Word)) : List (Nat × Word) :=
  let lens := lensOf (lensBytes s o.cid o.slot o.addrA.toNat)
  (List.range 16384).filterMap fun k =>
    let w := mmaElem s o p lens ((keyGet old k).getD 0) (k / 128) (k % 128)
    if w = 0 then none else some (k, w)

def isMma (o : MatOp) : Bool := (mmaOf o.ins).isSome

/-- R265, R266: the array begins the next operation: none is being read, and no earlier reader or load holds its tile. -/
def execMmaStart (core : Nat) (s : State) : Out :=
  let c := getCore s core
  if c.mats.any fun o => isMma o && o.stage == 1 then .next s
  else
    match c.mats.find? fun o => isMma o && o.stage == 0 with
    | none => .next s
    | some o =>
      let blocked := (earlier c o).any fun x => x.tile == o.tile && decide (x.tile < 12)
        && ((isDrain x.ins && decide (x.stage < 2)) || (!isDrain x.ins && !isMma x))
      .next (if blocked then s else setMat s core { o with stage := 1 })

/-- R264: the array reads its operation's last slice, once every source is present. -/
def execMmaLastSliceRead (core : Nat) (s : State) : Out :=
  let c := getCore s core
  match c.mats.find? fun o => isMma o && o.stage == 1 with
  | none => .next s
  | some o =>
    match mmaOf o.ins with
    | none => .next s
    | some p =>
      if rangesAway s o.cid o.holds then .next s
      else
        match rangesBad s o.cid o.holds with
        | some a => .next (eccMatrix s o (dwOf a))
        | none =>
          let bad := match tileOf c o.tile with
            | none => false
            | some t => !t.bad.isEmpty && !p.z
          .next (if bad then eccMatrix s o 0
                 else setMat s core { o with stage := 2, holds := [], result := mmaResult s o p (tileBefore c o) })

/-- R268: the accumulated tile replaces the named tile in one step. -/
def execMmaComplete (core : Nat) (s : State) : Out :=
  let c := getCore s core
  match c.mats.find? fun o => isMma o && o.stage == 2 with
  | none => .next s
  | some o =>
    match tileOf c o.tile with
    | none => .next (endMat s core o)
    | some t => .next (endMat (setCore s core (setTile c o.tile { t with words := o.result, bad := [] })) core o)

/-- R274: the 64 KiB of an `acc.ld`. -/
def loadTile (s : State) (o : MatOp) : List (Nat × Word) :=
  (List.range 16384).filterMap fun k =>
    let w := wOf (spadBitsAt s o.cid o.slot o.addrA.toNat (32 * k) 32)
    if w = 0 then none else some (k, w)

/-- R264, R274: the tile is loaded, the hold ends, the counter falls. -/
def execAccLdComplete (core op : Nat) (s : State) : Out :=
  let c := getCore s core
  match findMat s core op with
  | none => .next s
  | some o =>
    match o.ins with
    | .accLd _ _ _ _ _ _ =>
      let ready := !((earlier c o).any fun x => x.tile == o.tile && decide (x.tile < 12)) && !rangesAway s o.cid o.holds
      if !ready then .next s
      else
        (match rangesBad s o.cid o.holds, tileOf c o.tile with
         | some a, _ => .next (eccMatrix s o (dwOf a))
         | none, none => .next (endMat s core o)
         | none, some t => .next (endMat (setCore s core (setTile c o.tile { t with words := loadTile s o, bad := [] })) core o))
    | _ => .next s

/-! ## Drains (R263, R266, R274, R276) -/

/-- Sectors of a drain's destination. -/
def drainSectors (o : MatOp) : List Nat := List.range ((drainRange o).2.2 / 32)

/-- R266: an `acc.st` or `acc.cvt` finishes reading its tile; a draining tile with no other reader is freed. -/
def execAccTileReadEnd (core op : Nat) (s : State) : Out :=
  let c := getCore s core
  match findMat s core op with
  | none => .next s
  | some o =>
    if !isDrain o.ins || 2 ≤ o.stage then .next s
    else if (earlier c o).any fun x => x.tile == o.tile && decide (x.tile < 12) && !isDrain x.ins then .next s
    else
      match tileOf c o.tile with
      | none => .next (setMat s core { o with stage := 2, left := drainSectors o })
      | some t =>
        if !t.bad.isEmpty then .next (eccMatrix s o 0)
        else
          let s1 := setMat s core { o with stage := 2, left := drainSectors o, result := t.words }
          let c1 := getCore s1 core
          .next (if t.draining && !hasReader c1 o.tile then setCore s1 core (dropTile c1 o.tile) else s1)

/-- R276: the code of element `k` of a conversion. -/
def cvtElem (o : MatOp) (f : PackFmt) (s32 sat dth : Bool) (k : Nat) : Nat :=
  let w := (keyGet o.result k).getD 0
  let v := if s32 then numOfInt w.toInt else numOf .f32 w.toNat
  (encNum (packFmt f) (if dth then .dith (k + o.ph.toNat) else .rne) sat v).1

/-- The 32 bytes of sector `u` of a drain's destination. -/
def drainBytes (o : MatOp) (u : Nat) : List Byte :=
  match o.ins with
  | .accCvt _ _ _ _ f s32 sat dth =>
    let w := (packFmt f).bits
    packRun w (cvtElem o f s32 sat dth) (256 * u / w) ((256 * u + 256 + w - 1) / w) (32 * u) (32 * u + 32)
  | _ => bytesOf ((rangeFrom (8 * u) 8).map fun k => (keyGet o.result k).getD 0)

/-- R203, R274: the next sector lands, and its presence bit is set. -/
def execAccSectorLanded (core op : Nat) (s : State) : Out :=
  match findMat s core op with
  | none => .next s
  | some o =>
    match o.left with
    | [] => .next s
    | u :: rest =>
      let r := drainRange o
      match findSlot s o.cid r.1 with
      | none => .next s
      | some v =>
        let off := r.2.1 + 32 * u
        if v.isUnpinned off 32 then .next s else
        let s1 := setSlot s o.cid r.1 ((v.write off (drainBytes o u)).setPresent off 32)
        .next (setMat s1 core { o with left := rest })

/-- R274: the last sector has landed. -/
def execAccDrainComplete (core op : Nat) (s : State) : Out :=
  match findMat s core op with
  | none => .next s
  | some o => .next (if isDrain o.ins && o.stage = 2 && o.left = [] then endMat s core o else s)

end Sys2Proof.Machine
end

