-- ==== Sys2Proof/Machine/System.lean ====
section
/-! DEFINITION. Breakpoints, traps, control registers, commit, speculation mode and the return from a handler (R26, R46, R74,
R108 to R110, R150, R201, R222, R250 to R253, R324, R327), and the word of an unassigned opcode (R67). -/

namespace Sys2Proof.Machine

/-- R108. -/
def execBrk (p : Pred) (code : BitVec 8) (s : State) : Out :=
  guarded s p fun s => raiseCode s cBrk (code.zeroExtend 64)

/-- R109. -/
def execTrap (p : Pred) (code : BitVec 8) (s : State) : Out :=
  guarded s p fun s => raiseCode s cTrap (code.zeroExtend 64)

/-- R61, R67: an unassigned opcode traps when it is reached. -/
def execUnassignedOpcode (_w : Word) (s : State) : Out := illegal s

/-! ## Control registers -/

/-- p15 to p0 (R10, R26). -/
def Ctx.pset (c : Ctx) : Word := c.preds.zeroExtend 32 ||| 0x8000

/-- R26: dc0 to dc4. -/
def Thread.dclo (t : Thread) : Word :=
  wOf ((t.dc[0]).toNat + 0x40 * (t.dc[1]).toNat + 0x1000 * (t.dc[2]).toNat + 0x40000 * (t.dc[3]).toNat
    + 0x1000000 * (t.dc[4]).toNat)

/-- R150. -/
def Thread.gstat (t : Thread) : Word :=
  let b (v : Bool) (k : Nat) : Nat := if v then k else 0
  wOf (b t.exitedF 1 + b t.mhold 2 + b t.aged 4 + b t.place.prom 8 + 0x100 * t.place.flog)

/-- R250. -/
def Thread.specWord (t : Thread) : Word :=
  let r := t.spec
  let b (v : Bool) (k : Nat) : Nat := if v then k else 0
  wOf (r.slvl.toNat + b r.fix 4 + 0x10 * r.lvl.toNat + b (t.accs.any (·.spec)) 0x40 + 0x100 * r.t1.toNat
    + 0x1000 * r.t2.toNat + 0x10000 * r.dlog.toNat)

/-- R324. -/
def Thread.tstat (t : Thread) : Word :=
  wOf (t.trap.ri.toNat + (if t.ctx.inH then 0x40 else 0) + 0x100 * t.trap.pset.toNat)

/-- R74. -/
def Ctx.lstat (c : Ctx) : Word :=
  wOf (c.ld + 4 * c.lv0.len.toNat + 0x400 * c.lv1.len.toNat + 0x40000 * c.lv2.len.toNat)

/-- The 64-bit control registers, by the number of the low word. -/
def creg64 (s : State) (n : Nat) : Option DWord :=
  let t := s.th
  match n with
  | 0x08 => some (getCore s t.place.core).cyc
  | 0x14 => some t.ctx.spill
  | 0x16 => some t.place.rsbase
  | 0x18 => some t.place.rslim
  | 0x22 => some t.trap.tpc
  | 0x24 => some t.trap.taddr
  | 0x26 => some t.place.thand
  | 0x28 => some t.trap.tclh
  | 0x42 => some t.ctx.lv0.beg
  | 0x44 => some t.ctx.lv1.beg
  | 0x46 => some t.ctx.lv2.beg
  | 0x4E => some (match findGroup s t.cid t.id.team t.place.grp with
      | none => 0
      | some g => g.kill)
  | 0x50 => some t.place.hbase
  | 0x52 => some t.place.hlim
  | 0x54 => some t.place.hoff
  | _ => none

/-- The 32-bit control registers. -/
def creg32 (s : State) (n : Nat) : Word :=
  let t := s.th
  match n with
  | 0x00 => wOf t.id.tid
  | 0x01 => wOf t.place.lane
  | 0x02 => wOf t.place.grp
  | 0x03 => wOf t.id.team
  | 0x04 => wOf t.id.clus
  | 0x05 => wOf t.place.die
  | 0x06 => wOf t.place.width
  | 0x07 => wOf t.place.regs
  | 0x0A => t.ctx.pset
  | 0x0B => t.ctx.lv0.cnt
  | 0x0C => t.ctx.lv1.cnt
  | 0x0D => t.ctx.lv2.cnt
  | 0x0E => t.dclo
  | 0x0F => (t.dc[5]).zeroExtend 32
  | 0x10 => t.ctx.ri.zeroExtend 32
  | 0x11 => t.ctx.depth
  | 0x12 => wOf (1 + t.ctx.res.length)
  | 0x1A => t.ctx.fpst
  | 0x1B => t.ctx.dphase.zeroExtend 32
  | 0x1C => t.gstat
  | 0x1D => t.specWord
  | 0x20 => t.trap.cause
  | 0x21 => t.trap.info
  | 0x2A => t.tstat
  | 0x40 => t.ctx.lstat
  | 0x41 => t.ctx.lv0.dep
  | 0x48 => t.ctx.lv1.dep
  | 0x49 => t.ctx.lv2.dep
  | 0x4A => wOf t.place.slot
  | 0x4B => wOf t.place.nslot
  | 0x4C => wOf t.place.spsz
  | 0x58 => t.rbk
  | 0x59 => t.ncmt
  | 0x5A => t.nesc
  | _ => 0

/-- R26: the word that a `crd` of `n` returns, and the latch after it. -/
def cregRead (s : State) (n : Nat) : Word × Option (Nat × Word) :=
  match creg64 s n with
  | some v => (loW v, some (n, hiW v))
  | none =>
    match (if n = 0 then none else creg64 s (n - 1)) with
    | some v =>
      (match s.th.ctx.latch with
       | some (k, h) => if k + 1 = n then h else hiW v
       | none => hiW v, none)
    | none => (creg32 s n, none)

/-- R110. -/
def execCrd (p : Pred) (d : Reg) (n : BitVec 8) (s : State) : Out :=
  guarded s p fun s =>
    let r := cregRead s n.toNat
    retire (modCtx s fun c => { c.setReg d r.1 with latch := r.2 })

/-- R46: the fields of c.fpst that hold a value. -/
def fpstMask : Word := 0x00007F03

/-- R110: a write to control register `n`; a write to a read-only one is discarded (R6). -/
def cregWrite (t : Thread) (n : Nat) (v : Word) : Thread :=
  match n with
  | 0x0A => { t with ctx := { t.ctx with preds := v.truncate 15 } }
  | 0x1A => { t with ctx := { t.ctx with fpst := v &&& fpstMask } }
  | 0x1B => { t with ctx := { t.ctx with dphase := v.truncate 6 } }
  | 0x1C => { t with exitedF := t.exitedF && !v.getLsbD 0, mhold := t.mhold && !v.getLsbD 1, aged := t.aged && !v.getLsbD 2 }
  | 0x1D => { t with spec := { t.spec with
      slvl := if v.truncate 2 = 3#2 then t.spec.slvl else v.truncate 2, fix := v.getLsbD 2 } }
  | 0x22 => { t with trap := { t.trap with tpc := pairD v (hiW t.trap.tpc) } }
  | 0x23 => { t with trap := { t.trap with tpc := pairD (loW t.trap.tpc) v } }
  | 0x58 => { t with rbk := v }
  | 0x59 => { t with ncmt := v }
  | 0x5A => { t with nesc := v }
  | _ => t

/-- R27, R110. -/
def execCwr (p : Pred) (a : Reg) (n : BitVec 8) (s : State) : Out :=
  guarded s p fun s => oldest s fun s => retire (modTh s fun t => cregWrite t n.toNat (t.ctx.reg a))

/-- R252. -/
def execCmt (p : Pred) (s : State) : Out :=
  guarded s p fun s => .next (modCtx (goOn (issued s) (instrLen s)) fun c => { c with drain := true })

/-- R253. -/
def execSpec (p : Pred) (lvl : Fin 3) (fix clr : Bool) (s : State) : Out :=
  guarded s p fun s => oldest s fun s => retire (modTh s fun t =>
    { t with spec := { t.spec with slvl := BitVec.ofNat 2 lvl.val, fix := fix }, esc := if clr then [] else t.esc })

/-! ## The return from a handler (R327) -/

/-- Where a `tret` goes: out of the saved clause, or to a word of it. -/
inductive TretTo
  | out
  | inside (hdr : Nat) (ws : List Nat)
  | fault (e : Exc)

/-- R327: is `t` a word of the clause at `h`? A header that cannot be fetched because it lies beyond the code range holds none. -/
def tretTo (s : State) (h t : DWord) : TretTo :=
  if !inCode s.th.place h 4 then .out
  else
    match fetchWord s s.th h with
    | .error e => .fault e
    | .ok w =>
      let n := hdrCount w.toNat
      if h.toNat + 4 ≤ t.toNat && t.toNat < h.toNat + 4 + 4 * n then
        if t.toNat % 4 != 0 then .out
        else
          match fetchWords s s.th (h + 4) n with
          | .error (_, e) => .fault e
          | .ok ws => .inside w.toNat ws
      else .out

/-- The window action of a `tret` at depth above 0, then p0 to p14 and c.tstat.IN (R327). DEDUCED (log 58): R327 has a `tret` close
the levels opened at the handler's depth, as a `ret` does, where R77 says that `tret` closes nothing; R327 governs, and R77 is
read of the levels of the frame that it returns to. -/
def tretWindow (s : State) : State × Gate :=
  let d := s.th.ctx.depth
  match retWindow s true with
  | (s', .go) =>
    (modTh s' fun t => { t with
      ctx := { closeDepth t.ctx d with preds := t.trap.pset, inH := false } }, .go)
  | r => r

/-- Resume at word `t` of the clause at `h` (R327): ILLEGAL_CLAUSE where no instruction starts. -/
def resumeAt (s : State) (h t : DWord) (hdr : Nat) (ws : List Nat) : State :=
  let k := (t.toNat - h.toNat - 4) / 4
  let w := ws.getD k 0
  let s1 := modTh (issued (yieldAtEnd s s.th.ctx.cend)) lookEnd
  let s2 := modCtx s1 fun c => { c with
    pc := t, clh := h, cend := h + 4 + dwOf (4 * ws.length), yieldHdr := hdrYield hdr, rep := none,
    ri := if isRpt w && (roles ws).getD k .ins == .ins then s.th.trap.ri else 0 }
  if (roles ws).getD k .ins = .ins then modCtx s2 fun c => { c with wmask := hdrWait hdr }
  else if s2.th.accs.isEmpty then takeExc s2 (excOf cIllegalClause 0)
  else modTh s2 fun t => { t with pend := some (excOf cIllegalClause 0) }

/-- R327. -/
def execTret (p : Pred) (s : State) : Out :=
  guarded s p fun s =>
    let h := s.th.trap.tclh
    let t := s.th.trap.tpc
    if !s.th.ctx.inH then illegal s
    else if s.th.ctx.depth = 0 then leave s
    else
      match tretTo s h t with
      | .fault e => raise s e
      | .out =>
        match checkTarget s t with
        | some e => raise s e
        | none => go s false fun s => transfer (modCtx s fun c => { c with ri := 0 }) t false
      | .inside hdr ws =>
        go s ((roles ws).getD ((t.toNat - h.toNat - 4) / 4) .ins != .ins) fun s => resumeAt s h t hdr ws
where
  /-- `traps` says that the resumption raises a trap. -/
  go (s : State) (traps : Bool) (k : State → State) : Out :=
    if s.th.owes || ((s.th.ctx.res.isEmpty || traps) && !s.th.accs.isEmpty) then .next s
    else
      match tretWindow s with
      | (s', .go) => .next (awaitFrame s (k (if s.th.ctx.res.isEmpty then frameMade s' else s')))
      | (s', .bad e) => .next (windowFault s' e)
      | (s', .park) => .next s'
      | (s', .wait) => .next s'

end Sys2Proof.Machine
end

