-- ==== Sys2Proof/Machine/Picker.lean ====
section
/-! DEFINITION. Readiness, paths and the pickers of the issue ports (R141 to R150, R154, R155). -/

namespace Sys2Proof.Machine

/-! ## Readiness (R141) -/

/-- The clause at the header where the thread stands has been entered. -/
def hasEntered (s s' : State) : Bool :=
  s'.th.status == .run && s'.th.ctx.clh == s.th.ctx.clh && s'.th.ctx.pc == s.th.ctx.clh + 4

/-- Past the header where the focus thread stands, where its clause can be entered: entry takes no issue of its own (R62, R147). -/
def pastHeader (s : State) : State :=
  if s.th.ctx.pc = s.th.ctx.clh then
    match enterClause s with
    | .next s' => if hasEntered s s' then s' else s
    | _ => s
  else s

/-- Past the repeat prefix at pc: it takes no issue cycle (R111). -/
def pastPrefix (s : State) : State :=
  match s.th.ctx.rep, fetchWord s s.th s.th.ctx.pc with
  | none, .ok w =>
    if isRpt w.toNat && !interlock s w.toNat 0 then
      match decodeWord w.toNat 0 with
      | some (.rpt p n sd sa sb) =>
        (match execRpt p n sd sa sb s with
         | .next s' => if s'.th.ctx.rep.isSome then s' else s
         | _ => s)
      | _ => s
    else s
  | _, _ => s

/-- The focus thread at its next instruction. -/
def ahead (s : State) : State := pastPrefix (pastHeader s)

/-- The word at pc, stepped by its prefix, and its extension; none where a fetch or a step traps. -/
def wordsAt (s : State) : Option (Nat × Nat) :=
  match fetchWord s s.th s.th.ctx.pc with
  | .error _ => none
  | .ok w0 =>
    let stepped := match s.th.ctx.rep with
      | none => some w0.toNat
      | some r => stepWord r s.th.ctx.ri.toNat w0.toNat
    match stepped with
    | none => none
    | some w =>
      if hasExt w then
        match fetchWord s s.th (s.th.ctx.pc + 4) with
        | .ok v => some (w, v.toNat)
        | .error _ => none
      else some (w, 0)

/-- What the instructions do that may have to wait, for older operations of the thread or for something outside it; every other one
issues whenever the interlock lets it. -/
def tryIssue (i : Instr) (s : State) : Option Out :=
  match i with
  | .bra f => some (execBra f s)
  | .brm f => some (execBrm f s)
  | .jmp p a => some (execJmp p a s)
  | .call f => some (execCall f s)
  | .callr p a => some (execCallr p a s)
  | .ret p => some (execRet p s)
  | .exit p => some (execExit p s)
  | .loop p lv cnt len => some (execLoop p lv cnt len s)
  | .lexit p lv => some (execLexit p lv s)
  | .rpt p n sd sa sb => some (execRpt p n sd sa sb s)
  | .brk p code => some (execBrk p code s)
  | .trap p code => some (execTrap p code s)
  | .crd p d n => some (execCrd p d n s)
  | .cwr p a n => some (execCwr p a n s)
  | .cmt p => some (execCmt p s)
  | .tret p => some (execTret p s)
  | .spec p lvl fix clr => some (execSpec p lvl fix clr s)
  | .qblk f fmt bsel dth e mask => some (execQblk f fmt bsel dth e mask s)
  | .dqblk f fmt bsel e mask => some (execDqblk f fmt bsel e mask s)
  | .ldN8 f x => some (execLdN8 f x s)
  | .ldS8 f x => some (execLdS8 f x s)
  | .ldN16 f x => some (execLdN16 f x s)
  | .ldS16 f x => some (execLdS16 f x s)
  | .ldB32 f x => some (execLdB32 f x s)
  | .ldB64 f x => some (execLdB64 f x s)
  | .ldB128 f x => some (execLdB128 f x s)
  | .stB8 f x => some (execStB8 f x s)
  | .stB16 f x => some (execStB16 f x s)
  | .stB32 f x => some (execStB32 f x s)
  | .stB64 f x => some (execStB64 f x s)
  | .stB128 f x => some (execStB128 f x s)
  | .atomAdd f t => some (execAtomAdd f t s)
  | .atomMin f t => some (execAtomMin f t s)
  | .atomMax f t => some (execAtomMax f t s)
  | .atomAnd f t => some (execAtomAnd f t s)
  | .atomOr f t => some (execAtomOr f t s)
  | .atomXor f t => some (execAtomXor f t s)
  | .atomExch f t => some (execAtomExch f t s)
  | .atomCas f e t => some (execAtomCas f e t s)
  | .atomFadd f t => some (execAtomFadd f t s)
  | .red p op len a look dc c t off => some (execRed p op len a look dc c t off s)
  | .shfl f m t mask => some (execShfl f m t mask s)
  | .vote f m mask => some (execVote f m mask s)
  | .gred f op mask => some (execGred f op mask s)
  | .gscan f op excl mask => some (execGscan f op excl mask s)
  | .gsync p mask => some (execGsync p mask s)
  | .tbar p a n arrive => some (execTbar p a n arrive s)
  | .cbar p a n arrive => some (execCbar p a n arrive s)
  | .tqPush f c => some (execTqPush f c s)
  | .tqPop p d look dc c => some (execTqPop p d look dc c s)
  | .tqSteal f c => some (execTqSteal f c s)
  | .mmaBf16 f va z => some (execMmaBf16 f va z s)
  | .mmaF16 f va z => some (execMmaF16 f va z s)
  | .mmaE4m3 f va z => some (execMmaE4m3 f va z s)
  | .mmaE5m2 f va z => some (execMmaE5m2 f va z s)
  | .mmaT8 f va z => some (execMmaT8 f va z s)
  | .mmaT6 f z => some (execMmaT6 f z s)
  | .mmaMx8 f bsel z => some (execMmaMx8 f bsel z s)
  | .mmaMx6 f bsel z => some (execMmaMx6 f bsel z s)
  | .mmaMx4 f bsel z => some (execMmaMx4 f bsel z s)
  | .mmaI8 f va z => some (execMmaI8 f va z s)
  | .accZero p acc => some (execAccZero p acc s)
  | .accLd p acc a look dc off => some (execAccLd p acc a look dc off s)
  | .accSt p acc rls a look dc off => some (execAccSt p acc rls a look dc off s)
  | .accRd p d acc b => some (execAccRd p d acc b s)
  | .accWr p acc a b => some (execAccWr p acc a b s)
  | .accCvt p acc rls a fmt s32 sat dth => some (execAccCvt p acc rls a fmt s32 sat dth s)
  | .xcp p dth a look dc off => some (execXcp p dth a look dc off s)
  | .xcpq p dth n a look dc off => some (execXcpq p dth n a look dc off s)
  | .barInit f off => some (execBarInit f off s)
  | .barExp f off => some (execBarExp f off s)
  | .barArr f off => some (execBarArr f off s)
  | .barWait f x => some (execBarWait f x s)
  | .barTest f x => some (execBarTest f x s)
  | .rlq f off => some (execRlq f off s)
  | .mcst f c t off => some (execMcst f c t off s)
  | .mcldRed f c e t op => some (execMcldRed f c e t op s)
  | .collArm f off => some (execCollArm f off s)
  | .collWait f => some (execCollWait f s)
  | .shfSide f c off => some (execShfSide f c off s)
  | .shfPost f off => some (execShfPost f off s)
  | .shfWait f => some (execShfWait f s)
  | .unassignedOpcode w => some (execUnassignedOpcode w s)
  | _ => none

/-- A meaning that leaves its thread as it is waits: the state after an issue. -/
def moved (s : State) (o : Out) : Option State :=
  match o with
  | .next s' => if s'.th = s.th then none else some s'
  | .fault _ => some s
  | .refused _ => some s

/-- The state after an issue of `i` under its guard, with the pre-images that it takes (R238); none where it must wait. -/
def issueOf (s : State) (guard : Bool) (i : Instr) : Option State :=
  let s1 := if guard then modTh s fun t => t.mark (overwritten t.ctx i) else s
  match tryIssue i s with
  | none => some s1
  | some o => (moved s o).map fun s2 => modTh s2 fun t => { t with marks := s1.th.marks }

/-- The state after the focus thread's next issue; none where it could not issue now. A trap of a fetch, of a clause or of an encoding
is taken with nothing outstanding. -/
def issueAhead (s : State) : Option State :=
  let a := ahead s
  let trapped := if a.th.accs.isEmpty && a.th.ops.isEmpty then some a else none
  if a.th.ctx.pc = a.th.ctx.clh then moved a (enterClause a)
  else
    match wordsAt a with
    | none => trapped
    | some (w, x) =>
      if interlock a w x then none
      else
        match decodeWord w x with
        | none => trapped
        | some i => issueOf a (a.th.ctx.pred (fP w)) i

/-- R313: a `bar.wait` whose phase is not complete, where the thread looks at the barrier, or whose barrier's page is not pinned. -/
def barParks (s : State) (f : FmtC) (x : Option BarXO) : Bool :=
  (moved s (execBarWait f x s)).isNone && (match barWord (resolveSpad s (barEa s.th.ctx f.a x) 16 16) with
    | .error _ => false
    | .ok loc =>
      let ea := barEa s.th.ctx f.a x + 12
      if s.th.accs.isEmpty then (match gate s s.th.place.die .rd loc ea 4 with
        | .bad _ => false
        | _ => true)
      else (earlyRead s (levelFor s.th s.th.ctx.pc).1 loc ea 4).isSome)

def noDesc (r : Except Exc (Option (List Byte))) : Bool :=
  match r with
  | .ok none => true
  | _ => false

/-- R208: the page of the descriptor, of the side list or of the destination of an arm, a post or an `mcld.red` is not pinned. -/
def pageParks (s : State) (i : Instr) : Bool :=
  s.th.accs.isEmpty && s.th.ops.isEmpty && (match i with
    | .collArm f o => s.th.ctx.pred f.p && noDesc (readDesc s (eaXO s.th.ctx f.a o))
    | .shfPost f o => s.th.ctx.pred f.p && (match readDesc s (eaXO s.th.ctx f.a o) with
      | .ok (some d) => (match readSides s d with
        | .ok none => (moved s (execShfPost f o s)).isNone
        | _ => false)
      | r => noDesc r)
    | .mcldRed f c e t op => (moved s (execMcldRed f c e t op s)).isNone
    | _ => false)

/-- R144, R208, R313, R390: the instruction waits and the thread counts as parked: at a barrier, at a wait for a collective or a shuffle
that runs, or on a page. -/
def parksAt (s : State) (i : Instr) : Bool :=
  match i with
  | .barWait f b => barParks s f b
  | .collWait f => s.th.accs.isEmpty && (moved s (execCollWait f s)).isNone
  | .shfWait f => s.th.accs.isEmpty && (moved s (execShfWait f s)).isNone
  | i => pageParks s i

/-- The next instruction of thread `t`, in the state where it would issue; none where the interlock holds it. -/
def nextAt (s : State) (t : Thread) : Option (State × Instr) :=
  match focus s t.id with
  | none => none
  | some s' =>
    let a := ahead s'
    if a.th.ctx.pc = a.th.ctx.clh then none
    else
      match wordsAt a with
      | none => none
      | some (w, x) => if interlock a w x then none else (decodeWord w x).map fun i => (a, i)

/-- A thread that counts as parked at its next instruction. -/
def waitsIn (s : State) (t : Thread) : Bool :=
  t.status == .run && (match nextAt s t with
    | none => false
    | some (a, i) => parksAt a i)

/-- The thread waits in `bar.wait` (R313, R339): its state there. -/
def inBarWait (s : State) (t : Thread) : Option Ctx :=
  if t.status == .run then
    match nextAt s t with
    | some (a, .barWait f b) => if barParks a f b then some a.th.ctx else none
    | _ => none
  else none

def clusterRuns (s : State) (c : Cid) : Bool :=
  match findCluster s c with
  | none => false
  | some k => k.status == .resident

/-- Free to issue, as far as the thread's own standing goes: neither held, parked, waiting nor stopped. -/
def standsFree (s : State) (t : Thread) : Bool :=
  t.status == .run && t.held.isNone && !t.notice && !t.parkedNow && clusterRuns s t.cid

/-- Thread `x` at `t`'s address still waits for what its own older operations owe, on nothing that is absent. -/
def lags (s : State) (t x : Thread) : Bool :=
  x.id != t.id && sameTeam x t && x.place.core == t.place.core && x.place.port == t.place.port && x.ctx.pc == t.ctx.pc
    && standsFree s x && !(x.accs.isEmpty && x.ops.isEmpty) && !x.accs.any (·.parked) && !waitsIn s x
    && (match focus s x.id with
        | none => false
        | some s' => (issueAhead s').isNone)

/-- R141. DEDUCED (log 76): of the threads of a team that stand at one address on one port none is ready while another still waits for
the results of its older operations: R193 to R195 say of every run what holds only where the lanes of one bundle go on together. -/
def ready (s : State) (t : Thread) : Bool :=
  standsFree s t && !((threads s).any (lags s t))
    && (match focus s t.id with
        | none => false
        | some s' =>
          if t.entryPend then (moved s' (.next (enterHandler s'))).isSome
          else if t.pend.isSome then t.accs.isEmpty
          else (issueAhead s').isSome)

/-! ## Paths (R142, R144) -/

def onPort (s : State) (core port : Nat) : List Thread :=
  (threads s).filter fun t => t.place.core == core && t.place.port == port && t.live

/-- The lowest-numbered thread of a list. -/
def lowest (l : List Thread) : Option Thread :=
  l.foldl (fun b t => match b with
    | none => some t
    | some x => if t.id.tid < x.id.tid then some t else some x) none

/-- The path of a ready thread among the port's ready threads. -/
def pathOf (rdy : List Thread) (t : Thread) : List Thread := rdy.filter fun x => sameTeam x t && x.ctx.pc == t.ctx.pc

/-- Threads by rising c.tid. -/
def insertTid (t : Thread) : List Thread → List Thread
  | [] => [t]
  | x :: r => if t.id.tid ≤ x.id.tid then t :: x :: r else x :: insertTid t r

def sortTid (l : List Thread) : List Thread := l.foldr insertTid []

/-- What a thread's next instruction asks of a rendezvous: none where it is no group-collective one, else its member set where its
guard is true (R151, R153). -/
def rvAhead (s : State) (t : Thread) : Option (Option (BitVec 64)) :=
  match focus s t.id with
  | none => none
  | some s' =>
    let a := ahead s'
    match wordsAt a with
    | none => none
    | some (w, x) =>
      let set (m : Reg) : Option (BitVec 64) :=
        if a.th.ctx.pred (fP w) then some (memberSet a.th.ctx t.place.width t.place.lane m) else none
      match decodeWord w x with
      | some (.shfl _ _ _ m) => some (set m)
      | some (.vote _ _ m) => some (set m)
      | some (.gred _ _ m) => some (set m)
      | some (.gscan _ _ _ m) => some (set m)
      | some (.gsync _ m) => some (set m)
      | some (.qblk _ _ _ _ _ m) => some (set m)
      | some (.dqblk _ _ _ _ m) => some (set m)
      | some i => if isMatrix i then some (set 0) else none
      | none => none

/-- The threads of `l` that issue when they go one after another: of what they share (slots of an engine, the checkpoint buffer, the
watch tables), each takes its part. -/
def fitting (s : State) : List Thread → List Thread
  | [] => []
  | t :: rest =>
    match focus s t.id with
    | none => fitting s rest
    | some s1 =>
      if t.entryPend || t.pend.isSome then t :: fitting s rest
      else
        match issueAhead s1 with
        | none => fitting s rest
        | some s2 => t :: fitting s2 rest

/-- R145: the threads of `leader`'s path that one bundle may hold with it: for a group-collective instruction the members of one
rendezvous, or the lanes whose guards are false. -/
def rvMates (s : State) (leader : Thread) (path : List Thread) : List Thread :=
  match rvAhead s leader with
  | none => path
  | some none => path.filter fun x => rvAhead s x == some none
  | some (some m) => path.filter fun x => sameGroup x leader && m.getLsbD x.place.lane && (match rvAhead s x with
      | some (some _) => true
      | _ => false)

/-- The threads that issue in one bundle with `leader`. -/
def bundleMates (s : State) (leader : Thread) (path : List Thread) : List Thread :=
  fitting s (leader :: sortTid ((rvMates s leader path).filter fun x => x.id != leader.id))

/-- R145: at most 64 threads, the leader first. DEDUCED (log 60): the 63 others of a larger path are its lowest ones, whatever the
leader's own number. -/
def bundleOf (leader : Thread) (path : List Thread) : List Tid :=
  leader.id :: ((sortTid (path.filter fun x => x.id != leader.id)).take 63).map (·.id)

def getPicker (s : State) (core port : Nat) : Picker :=
  let c := getCore s core
  if port = 0 then c.port0 else c.port1

def setPicker (s : State) (core port : Nat) (p : Picker) : State :=
  let c := getCore s core
  setCore s core (if port = 0 then { c with port0 := p } else { c with port1 := p })

def leaderOf (p : Picker) (c : Cid) (team : Nat) : Option Nat := (p.leaders.find? fun l => l.1 == (c, team)).map (·.2)

def setLeader (p : Picker) (c : Cid) (team tid : Nat) : Picker :=
  { p with leaders := ((c, team), tid) :: p.leaders.filter fun l => l.1 != (c, team) }

/-- R144, R313, R390: a leader that makes its path blocked. -/
def blocksPath (s : State) (t : Thread) : Bool :=
  !t.live || t.parkedNow || t.held.isSome || t.yielded.isSome || t.status != .run || waitsIn s t

/-! ## The choice (R145) -/

/-- What a picker chooses. -/
inductive Pick
  | ageing (t : Thread)
  | rendezvous (t : Thread)
  | path (t : Thread)
  | none

/-- Rule 1. DEDUCED (log 60): of threads of different teams with equal ages and equal c.tid the first in the list of threads goes. -/
def pickAged (rdy : List Thread) : Option Thread :=
  (rdy.filter fun t => t.place.prom && decide (2 ^ t.place.flog ≤ t.age)).foldl (fun b t => match b with
    | none => some t
    | some x => if x.age < t.age || (x.age == t.age && decide (t.id.tid < x.id.tid)) then some t else some x) none

/-- A complete rendezvous can run now: a matrix instruction may still wait (R262, R264, R265, R266). -/
def rvRuns (s : State) (l : Thread) : Bool :=
  match rvMask l, rvInstr l with
  | some m, some i =>
    if isMatrix i then
      let x := rvMembers s l m
      match matCheck s i x.1 x.2 l with
      | .trap _ => true
      | .wait => false
      | .ok => (needsTile i && reservation s l == 0) || (matLaunch s i x.1 l).isSome
    else true
  | _, _ => false

/-- Rule 2: the lowest member of the complete rendezvous whose lowest member is lowest, if its instruction can run; of two whose
lowest members have equal c.tid the first in the list of threads goes (log 60). -/
def pickRv (s : State) (ths : List Thread) : Option Thread :=
  lowest (ths.filter fun t => (rvMask t).isSome && verdict (groupOf s t) t == .complete && rvRuns s t)

/-- The teams resident on a core in the order in which they became resident, a team with no live thread among them (R145). -/
def teamsOf (s : State) (core : Nat) : List (Cid × Nat) :=
  let on (k : Cluster) (i : Nat) : Bool := match k.teams[i]? with
    | none => false
    | some t => ((k.slots.drop t.slot).take (if t.paired then 2 else 1)).any fun v => v.core == core
  let ids := ((s.clusters.filter fun k => k.status.onCore).map fun k =>
    ((List.range k.teams.length).filter (on k)).map fun i => (k.arrival, (k.id, i))).flatten
  (ids.foldr (fun x l => ins x l) []).map (·.2)
where
  ins (x : Nat × Cid × Nat) : List (Nat × Cid × Nat) → List (Nat × Cid × Nat)
    | [] => [x]
    | y :: r => if x.1 ≤ y.1 then x :: y :: r else y :: ins x r

/-- Round robin: the teams after the one served last. DEDUCED (log 60): where that team has left the core, the order starts again
from its earliest team. -/
def rotateAfter (l : List (Cid × Nat)) (last : Option (Cid × Nat)) : List (Cid × Nat) :=
  match last with
  | none => l
  | some x => (l.dropWhile fun y => y != x).drop 1 ++ l.takeWhile (fun y => y != x) ++ l.filter fun y => y == x

/-- Leader of each path among ready threads: its lowest thread, yielded or not (R142). -/
def leadersOf (rdy : List Thread) : List Thread :=
  (sortTid rdy).filter fun t => (pathOf rdy t).all fun x => decide (t.id.tid ≤ x.id.tid)

/-- Rule 3 for a blocked path: by `size`, the largest path, then the one with the lowest leader; its leader. -/
def largestPath (rdy : List Thread) (size : Thread → Nat) : Option Thread :=
  (leadersOf rdy).foldl (fun b t => match b with
    | none => some t
    | some x => if size x < size t then some t else some x) none

/-- The path with the most ready unyielded threads; where none is unyielded, the one with the most ready threads. -/
def freshPath (rdy : List Thread) : Option Thread :=
  if rdy.any fun t => t.yielded.isNone then largestPath rdy fun t => ((pathOf rdy t).filter fun x => x.yielded.isNone).length
  else largestPath rdy fun t => (pathOf rdy t).length

/-- Rule 3 for one team: the leader of the path that it offers. -/
def offer (s : State) (ths rdy : List Thread) (p : Picker) (tm : Cid × Nat) : Option Thread :=
  let mine (t : Thread) : Bool := t.cid == tm.1 && t.id.team == tm.2
  let rd := rdy.filter mine
  let leader := match leaderOf p tm.1 tm.2 with
    | none => none
    | some k => ths.find? fun t => mine t && t.id.tid == k
  match leader with
  | none => freshPath rd
  | some l => if blocksPath s l then freshPath rd else rd.find? fun t => t.id == l.id

def choose (s : State) (core port : Nat) : Pick :=
  let ths := onPort s core port
  let rdy := ths.filter (ready s)
  match pickAged rdy with
  | some t => .ageing t
  | none =>
    match pickRv s ths with
    | some t => .rendezvous t
    | none =>
      match (rotateAfter (teamsOf s core) (getPicker s core port).last).findSome? (offer s ths rdy (getPicker s core port)) with
      | some t => .path t
      | none => .none

/-! ## One opportunity of a port -/

/-- The counts of one issue opportunity (R143, R148, R149, R151). -/
def countOpp (core port : Nat) (rdy took : List Tid) (t : Thread) : Thread :=
  if t.place.core = core && t.place.port = port && t.live then
    { t with
      age := if took.contains t.id then 0 else if rdy.contains t.id then t.age + 1 else t.age,
      yielded := if took.contains t.id then none else t.yielded.map (· + 1),
      held := t.held.map (· + 1),
      status := match t.status with
        | .rv m n i => .rv m (n + 1) i
        | x => x }
  else t

/-- R148: the issue of `b` ends the other yields of the team on the port. -/
def endYields (s : State) (core port : Nat) (t : Thread) (b : List Tid) : State :=
  mapThreads s fun x =>
    if !b.contains x.id && sameTeam x t && x.place.core == core && x.place.port == port then { x with yielded := none } else x

/-- R238: the pre-images that a thread's next issue takes. -/
def markNext (s : State) (t : Thread) : Thread :=
  match focus s t.id with
  | none => t
  | some s1 =>
    match issueAhead s1 with
    | none => t
    | some s2 => { t with marks := s2.th.marks }

/-- The path led by `t` becomes the bundle, and its team's current path. -/
def takePath (s : State) (core port : Nat) (t : Thread) (aged : Bool) : State :=
  let rdy := (onPort s core port).filter (ready s)
  let b := bundleOf t (bundleMates s t (pathOf rdy t))
  let s1 := mapThreads (mapThreads s fun x => if b.contains x.id then markNext s x else x) (countOpp core port (rdy.map (·.id)) b)
  let s2 := endYields (mapThreads s1 fun x => if b.contains x.id then { x with aged := x.aged || aged } else x) core port t b
  let p := setLeader (getPicker s2 core port) t.cid t.id.team t.id.tid
  let s3 := setPicker s2 core port { p with last := some (t.cid, t.id.team) }
  { s3 with bundle := s3.bundle ++ b }

/-- R145 rule 1. -/
def execAgeingIssue (core port : Nat) (s : State) : Out :=
  match pickAged ((onPort s core port).filter (ready s)) with
  | none => .next s
  | some t => .next (takePath s core port t true)

/-- R148: a yield ends after 64 opportunities. -/
def execYieldExpiry (t : Tid) (s : State) : Out :=
  .next (onThread s t fun s => modTh s fun t => match t.yielded with
    | some n => if 64 ≤ n then { t with yielded := none } else t
    | none => t)

/-- R149: the held threads of a group at one address are released together after 64 opportunities, with MHOLD. -/
def execMergeHoldTimeout (t : Tid) (s : State) : Out :=
  match findThread s t with
  | none => .next s
  | some x =>
    .next (match x.held with
      | some n =>
        if 64 ≤ n then mapThreads s fun y =>
          if sameGroup y x && y.held.isSome && y.ctx.pc == x.ctx.pc then { y with held := none, mhold := true } else y
        else s
      | none => s)

/-- The limits of 64 opportunities, and of divergence, that the threads of a port have reached (R148, R149, R151). -/
def limits (s : State) (core port : Nat) : State :=
  let go (s : State) (o : Out) : State := match o with
    | .next s' => s'
    | .fault _ => s
    | .refused _ => s
  ((onPort s core port).map (·.id)).foldl (fun s t =>
    let s1 := go s (execYieldExpiry t s)
    let s2 := go s1 (execMergeHoldTimeout t s1)
    go s2 (execDivergenceWaitLimit t s2)) s

/-- R149, R151: the holds and the waiting lanes of every group on a port are judged as the group stands: a lane may have been resumed, have
ended or have left its address since. -/
def settlePort (s : State) (core port : Nat) : State :=
  (onPort s core port).foldl (fun s t => judgeGroup (recheckHolds s t) t) s

/-- R219, R228, R357: the walk and the copies in the die's slice of the words of code from `a` on. -/
def codeTouch (s : State) (a : DWord) : Nat → State
  | 0 => s
  | n + 1 =>
    let p := s.th.place
    if !inCode p a 4 then s else
    let s1 := walked s 0 p.core p.xctx a.toNat
    match xlate s p.core p.xctx a.toNat .fetch, genOf s p.keyId with
    | .ok (pa, mir), some g => codeTouch { s1 with mem := llcRead s1.mem p.die (sectorOf (replica pa mir p.die)) g } (a + 4) n
    | _, _ => s1

/-- What the next issue of thread `t` fetches, and the walks of the accesses that it makes. -/
def issueTouch (s : State) (t : Tid) : State :=
  onThread s t fun s =>
    let c := s.th.ctx
    let n := match fetchWord s s.th c.pc with
      | .error _ => 1
      | .ok w => if c.pc = c.clh then 1 + hdrCount w.toNat else if isRpt w.toNat then 3 else if hasExt w.toNat then 2 else 1
    let s1 := codeTouch s c.pc n
    match issueAhead s with
    | none => s1
    | some s2 =>
      ((s2.th.accs.drop s.th.accs.length).filter fun a => a.ea.toNat / 2 ^ 56 == 0).foldl
        (fun s a => walked s 0 s.th.place.core s.th.place.xctx a.ea.toNat) s1

/-- The bundle that the picker has added to those that wait. -/
def touchBundle (s : State) (n : Nat) : State := (s.bundle.drop n).foldl issueTouch s

/-- One cycle of an issue port (R145). Only a cycle in which a bundle is chosen is an issue opportunity (R141). DEDUCED (log 60): a
rendezvous bundle does not make its team the one served last. -/
def pickPort (s0 : State) (core port : Nat) : State :=
  let s := settlePort s0 core port
  match choose s core port with
  | .ageing t => limits (touchBundle (takePath s core port t true) s.bundle.length) core port
  | .path t => limits (touchBundle (takePath s core port t false) s.bundle.length) core port
  | .rendezvous t =>
    let rdy := ((onPort s core port).filter (ready s)).map (·.id)
    let mem := match rvMask t with
      | none => []
      | some m => (rvMembers s t m).1.map (·.id)
    let s1 := endYields (mapThreads s (countOpp core port rdy mem)) core port t mem
    limits (runRendezvous s1 ((findThread s1 t.id).getD t)) core port
  | .none => s

end Sys2Proof.Machine
end

