-- ==== Sys2Proof/Machine/Expiry.lean ====
section
/-! DEFINITION. The limit of a write's wait behind a watch with intent (R248). -/

namespace Sys2Proof.Machine

/-- The notices of a held write of `n` bytes at `loc`: every watch with intent that it meets stops holding it. -/
def expireAt (s : State) (writer : Option Tid) (loc : Loc) (n : Nat) : State :=
  let s1 := mapThreads s fun x => if some x.id != writer && x.intends loc n then { x with notice := true } else x
  match loc with
  | .hbm pa _ =>
    let hits := s1.fab.rwatch.filter fun r => r.intent && r.hit pa n
    let own (t : Thread) : Bool := hits.any fun r => isSelf s1 r.dev && ownHolders writer pa n r.dev r t
    let s2 := mapThreads s1 fun t => if own t then { t with notice := true } else t
    { s2 with
      out := s2.out ++ (hits.filter fun r => !isSelf s1 r.dev).map (rnotice s1 pa n),
      fab := { s2.fab with rwatch := s2.fab.rwatch.map fun r => if r.hit pa n then { r with intent := false } else r } }
  | _ => s1

/-- Places of an engine operation's destinations. -/
def copyDests (s : State) (a : Access) (r : CopyReq) : List (Loc × Nat) :=
  match launching s a r with
  | (.wait _ _, o) =>
    let p := o.plan
    if p.dir = 1 then
      (p.ranges.flatMap fun r => (copySegs s s.th.place.core s.th.place.xctx .wr (r.2 / 65536 + 2) r.1 r.2).2).map fun g => (.hbm g.pa g.mir, g.len)
    else p.spadDests.map fun d => (.spad o.cid d.1 d.2.1, d.2.2)
  | _ => []

/-- The barrier objects of an operation that wait for its update. -/
def barDests (s : State) (o : CopyOp) : List (Loc × Nat) :=
  if barWaits s o then o.plan.barSlots.map fun i => (.spad o.cid i (o.plan.bar % 0x100000), 16) else []

/-- The piece of its frame that a thread waits to spill: its next instruction is a call, or it owes a handler's entry (R14, R326). -/
def spillDests (s : State) : List (Loc × Nat) :=
  let a := ahead s
  let calls := match wordsAt a with
    | none => false
    | some (w, x) => (match decodeWord w x with
      | some (.call _) => true
      | some (.callr p _) => a.th.ctx.pred p
      | _ => false)
  if a.th.status == .run && callSpills a.th && (a.th.entryPend || calls) then
    match runGate a .wr a.th.ctx.spill 10 with
    | (.wait, ea) => (match resolve a a.th .wr ea 16 with
      | .ok l => [(l, 16)]
      | .error _ => [])
    | _ => []
  else []

/-- The destination of a drain that a complete rendezvous of the focus thread waits to launch (R274, R276). -/
def drainDests (s : State) : List (Loc × Nat) :=
  match rvInstr s.th with
  | some i =>
    if isDrain i && verdict (groupOf s s.th) s.th == .complete then
      let r := drainRange (newMat s s.th i 12)
      if drainWaits s s.th.cid r then [(.spad s.th.cid r.1 r.2.1, r.2.2)] else []
    else []
  | none => []

/-- What the focus thread waits to write: a held store's range, the destinations or the barrier of a copy, the destination of an
`mcld.red`, a frame, a tile. -/
def headDests (s : State) : List (Loc × Nat) :=
  match s.th.accs with
  | [] => spillDests s ++ drainDests s
  | a :: _ =>
    match a.held, a.loc with
    | true, some l => [(l, a.kind.size)]
    | _, _ =>
      match a.kind with
      | .copy r => if a.spec then [] else copyDests s a r ++ barDests s (launching s a r).2
      | .mcldRed _ _ _ count dst =>
        if a.awaited.isEmpty && mcldWaits s a then [(.spad s.th.cid (spadSlot s.th.place.slot dst.toNat) (spadOff dst.toNat), 4 * count)] else []
      | _ => []

/-- What a collective that has fired waits to write. -/
def collDests (s : State) (die : Nat) (o : CollOp) : List (Loc × Nat) :=
  if o.st = 0 && o.err == 0 then
    match planColl s die o with
    | .go _ locks => (locks.filter fun l => l.dest).map fun l => (.hbm l.lo false, l.hi - l.lo)
    | _ => []
  else
    match statusPieces s die o with
    | .ok (some segs) => segs.map fun g => (.hbm g.pa g.mir, g.len)
    | _ => []

/-- R248: the home stops holding the write of thread `t`; where `t` has none there, the other writes that wait. -/
def execOwnedWaitExpiry (t : Tid) (s : State) : Out :=
  let own := match focus s t with
    | none => []
    | some s1 => headDests s1
  let colls (die : Nat) : List (Loc × Nat) := ((getEng s die).ops.filter fun o => o.st != 2).flatMap (collDests s die)
  let engs := s.cores.flatMap fun k => k.2.eng.flatMap (barDests s)
  let others := engs ++ (s.mem.waits.map fun w => (Loc.hbm w.pa false, w.len))
    ++ (s.mem.fwq.take 1).flatMap (fun w => (twins s w.pa).map fun p => (Loc.hbm p false, w.bytes.length)) ++ colls 0 ++ colls 1
  match own with
  | [] => .next (others.foldl (fun s d => expireAt s none d.1 d.2) s)
  | _ => .next (own.foldl (fun s d => expireAt s (some t) d.1 d.2) s)

end Sys2Proof.Machine
end

