-- ==== Sys2Proof/Machine/Integer.lean ====
section
/-! DEFINITION. Integer arithmetic, logic, shifts, bit fields, moves and addresses (R89 to R94), `nop` and hints (R103, R67). -/

namespace Sys2Proof.Machine

/-! ## Arithmetic on words -/

/-- sat(x, .s32) (R89). -/
def satS32 (x : Int) : Word :=
  if x > 0x7FFFFFFF then 0x7FFFFFFF else if x < -0x80000000 then 0x80000000 else BitVec.ofInt 32 x

/-- sat(x, .n32). -/
def satN32 (x : Int) : Word :=
  if x > 0xFFFFFFFF then 0xFFFFFFFF else if x < 0 then 0 else BitVec.ofInt 32 x

def addW (m : SatMode) (a b : Word) : Word :=
  match m with
  | .wrap => a + b
  | .satS => satS32 (a.toInt + b.toInt)
  | .satN => satN32 (a.toNat + b.toNat)

def subW (m : SatMode) (a b : Word) : Word :=
  match m with
  | .wrap => a - b
  | .satS => satS32 (a.toInt - b.toInt)
  | .satN => satN32 ((a.toNat : Int) - b.toNat)

def mulhW (m : Sgn) (a b : Word) : Word :=
  match m with
  | .s => BitVec.ofInt 32 (a.toInt * b.toInt / 0x100000000)
  | .n => BitVec.ofNat 32 (a.toNat * b.toNat / 0x100000000)

/-- R90: quotient rounded toward zero; −1 for a zero divisor. -/
def divW (m : Sgn) (a b : Word) : Word :=
  match m with
  | .s => if b = 0 then 0xFFFFFFFF else BitVec.ofInt 32 (Int.tdiv a.toInt b.toInt)
  | .n => if b = 0 then 0xFFFFFFFF else BitVec.ofNat 32 (a.toNat / b.toNat)

/-- R90: remainder with the dividend's sign; the dividend for a zero divisor. -/
def remW (m : Sgn) (a b : Word) : Word :=
  match m with
  | .s => if b = 0 then a else BitVec.ofInt 32 (Int.tmod a.toInt b.toInt)
  | .n => if b = 0 then a else BitVec.ofNat 32 (a.toNat % b.toNat)

/-- a < b, read signed or unsigned. -/
def ltW (m : Sgn) (a b : Word) : Bool :=
  match m with
  | .s => decide (a.toInt < b.toInt)
  | .n => decide (a.toNat < b.toNat)

def minW (m : Sgn) (a b : Word) : Word := if ltW m b a then b else a
def maxW (m : Sgn) (a b : Word) : Word := if ltW m a b then b else a

def negW (sat : Bool) (a : Word) : Word := if sat && a == 0x80000000 then 0x7FFFFFFF else -a
def absW (sat : Bool) (a : Word) : Word := if a.toInt < 0 then negW sat a else a

/-! ## Shifts and bit fields (R91, R92) -/

def shlW (a : Word) (s : Nat) : Word := if s ≥ 32 then 0 else a <<< s
def shrW (a : Word) (s : Nat) : Word := if s ≥ 32 then 0 else a >>> s
def sarW (a : Word) (s : Nat) : Word := a.sshiftRight (if s ≥ 32 then 31 else s)
def rotW (right : Bool) (a : Word) (s : Nat) : Word := if right then a.rotateRight (s % 32) else a.rotateLeft (s % 32)

def fieldPos (b : Word) : Nat := Nat.min (b.toNat % 256) 32
def fieldLen (b : Word) : Nat := Nat.min (b.toNat / 256 % 256) 32

/-- R92: the field of `a`, extended beyond bit 31 with zeros or with the sign. -/
def bfxW (m : Sgn) (a b : Word) : Word :=
  let pos := fieldPos b
  let len := fieldLen b
  if len = 0 then 0
  else
    let ext : BitVec 64 := match m with | .s => a.signExtend 64 | .n => a.zeroExtend 64
    let f := (ext >>> pos).toNat % 2 ^ len
    match m with
    | .s => BitVec.ofInt 32 (sextN len f)
    | .n => BitVec.ofNat 32 f

/-- R92: the low `len` bits of `a` at `pos` of `d`, dropped beyond bit 31. -/
def bfiW (d a b : Word) : Word :=
  let pos := fieldPos b
  let mask : BitVec 64 := BitVec.ofNat 64 (2 ^ fieldLen b - 1)
  let m32 : Word := (mask <<< pos).truncate 32
  let v32 : Word := ((a.zeroExtend 64 &&& mask) <<< pos).truncate 32
  (d &&& ~~~m32) ||| v32

def clzFrom : Nat → Word → Nat
  | 0, _ => 0
  | n + 1, a => if a.getLsbD n then 0 else 1 + clzFrom n a

def clzW (a : Word) : Word := wOf (clzFrom 32 a)

def popcFrom : Nat → Word → Nat
  | 0, _ => 0
  | n + 1, a => (if a.getLsbD n then 1 else 0) + popcFrom n a

def popcW (a : Word) : Word := wOf (popcFrom 32 a)

def brevW (a : Word) : Word := a.reverse

/-! ## Forms -/

/-- d := g(a, b). -/
def binOp (s : State) (f : FmtA) (g : Word → Word → Word) : Out :=
  regOp s f.p fun c => c.setReg f.d (g (c.reg f.a) (c.reg f.b))

/-- d := g(a). -/
def unOp (s : State) (f : FmtU) (g : Word → Word) : Out :=
  regOp s f.p fun c => c.setReg f.d (g (c.reg f.a))

/-- d := g(a, imm8). -/
def immOp (s : State) (f : FmtB) (g : Word → BitVec 8 → Word) : Out :=
  regOp s f.p fun c => c.setReg f.d (g (c.reg f.a) f.i)

/-- pair d := g(pair a, pair b). -/
def pairOp (s : State) (f : FmtA) (g : DWord → DWord → DWord) : Out :=
  regOp s f.p fun c => c.setPair f.d (g (c.pair f.a) (c.pair f.b))

/-! ## Meanings -/

/-- R103. -/
def execNop (_p : Pred) (s : State) : Out := retire s
/-- R67: a hint issues as `nop`, its fields ignored. -/
def execHint (_o : Fin 8) (_z : BitVec 24) (s : State) : Out := retire s
/-- R89. -/
def execAdd (f : FmtA) (m : SatMode) (s : State) : Out := binOp s f (addW m)
/-- R89. -/
def execSub (f : FmtA) (m : SatMode) (s : State) : Out := binOp s f (subW m)
/-- R89. -/
def execMul (f : FmtA) (s : State) : Out := binOp s f fun a b => a * b
/-- R89. -/
def execMulh (f : FmtA) (m : Sgn) (s : State) : Out := binOp s f (mulhW m)
/-- R89: (a × b + c)[31:0]. -/
def execMad (f : FmtA) (c : Reg) (s : State) : Out :=
  regOp s f.p fun x => x.setReg f.d (x.reg f.a * x.reg f.b + x.reg c)
/-- R90. -/
def execDiv (f : FmtA) (m : Sgn) (s : State) : Out := binOp s f (divW m)
/-- R90. -/
def execRem (f : FmtA) (m : Sgn) (s : State) : Out := binOp s f (remW m)
/-- R89. -/
def execMin (f : FmtA) (m : Sgn) (s : State) : Out := binOp s f (minW m)
/-- R89. -/
def execMax (f : FmtA) (m : Sgn) (s : State) : Out := binOp s f (maxW m)
/-- R89. -/
def execAbs (f : FmtU) (sat : Bool) (s : State) : Out := unOp s f (absW sat)
/-- R89. -/
def execNeg (f : FmtU) (sat : Bool) (s : State) : Out := unOp s f (negW sat)
/-- R91. -/
def execAnd (f : FmtA) (s : State) : Out := binOp s f fun a b => a &&& b
/-- R91. -/
def execOr (f : FmtA) (s : State) : Out := binOp s f fun a b => a ||| b
/-- R91. -/
def execXor (f : FmtA) (s : State) : Out := binOp s f fun a b => a ^^^ b
/-- R91. -/
def execAndn (f : FmtA) (s : State) : Out := binOp s f fun a b => a &&& ~~~b
/-- R91. -/
def execNot (f : FmtU) (s : State) : Out := unOp s f fun a => ~~~a
/-- R91. -/
def execShl (f : FmtA) (s : State) : Out := binOp s f fun a b => shlW a b.toNat
/-- R91. -/
def execShr (f : FmtA) (s : State) : Out := binOp s f fun a b => shrW a b.toNat
/-- R91. -/
def execSar (f : FmtA) (s : State) : Out := binOp s f fun a b => sarW a b.toNat
/-- R91. -/
def execRot (f : FmtA) (right : Bool) (s : State) : Out := binOp s f fun a b => rotW right a b.toNat
/-- R92. -/
def execBfx (f : FmtA) (m : Sgn) (s : State) : Out := binOp s f (bfxW m)
/-- R92: reads d as well as writing it. -/
def execBfi (f : FmtA) (s : State) : Out :=
  regOp s f.p fun c => c.setReg f.d (bfiW (c.reg f.d) (c.reg f.a) (c.reg f.b))
/-- R91. -/
def execClz (f : FmtU) (s : State) : Out := unOp s f clzW
/-- R91. -/
def execPopc (f : FmtU) (s : State) : Out := unOp s f popcW
/-- R91. -/
def execBrev (f : FmtU) (s : State) : Out := unOp s f brevW
/-- R93: the selector is separate from the guard. -/
def execSel (f : FmtA) (wide : Bool) (sp : Pred) (s : State) : Out :=
  regOp s f.p fun c =>
    let r := if c.pred sp then f.a else f.b
    if wide then c.setPair f.d (c.pair r) else c.setReg f.d (c.reg r)
/-- R93. -/
def execMov (f : FmtU) (s : State) : Out := unOp s f fun a => a
/-- R93. -/
def execLea (f : FmtA) (k : Fin 4) (s : State) : Out := binOp s f fun a b => a + b <<< k.val
/-- R93. -/
def execAdd64 (f : FmtA) (s : State) : Out := pairOp s f fun a b => a + b
/-- R93. -/
def execSub64 (f : FmtA) (s : State) : Out := pairOp s f fun a b => a - b
/-- R93: the index is a word, sign-extended. -/
def execLea64 (f : FmtA) (k : Fin 4) (s : State) : Out :=
  regOp s f.p fun c => c.setPair f.d (c.pair f.a + (c.reg f.b).signExtend 64 <<< k.val)
/-- R93. -/
def execMov64 (f : FmtU) (s : State) : Out := regOp s f.p fun c => c.setPair f.d (c.pair f.a)
/-- R93. -/
def execMovi (p : Pred) (d : Reg) (k : MoviKind) (lit : Word) (s : State) : Out :=
  regOp s p fun c =>
    match k with
    | .b32 => c.setReg d lit
    | .s64 => c.setPair d (lit.signExtend 64)
    | .n64 => c.setPair d (lit.zeroExtend 64)
/-- R94. -/
def execAddImm (f : FmtB) (s : State) : Out := immOp s f fun a i => a + sext8 i
/-- R94. -/
def execAndImm (f : FmtB) (s : State) : Out := immOp s f fun a i => a &&& zext8 i
/-- R94. -/
def execOrImm (f : FmtB) (s : State) : Out := immOp s f fun a i => a ||| zext8 i
/-- R94. -/
def execXorImm (f : FmtB) (s : State) : Out := immOp s f fun a i => a ^^^ zext8 i
/-- R94. -/
def execShlImm (f : FmtB) (s : State) : Out := immOp s f fun a i => shlW a i.toNat
/-- R94. -/
def execShrImm (f : FmtB) (s : State) : Out := immOp s f fun a i => shrW a i.toNat
/-- R94. -/
def execSarImm (f : FmtB) (s : State) : Out := immOp s f fun a i => sarW a i.toNat

end Sys2Proof.Machine
end

