-- ==== Sys2Proof/Machine/Predicate.lean ====
section
/-! DEFINITION. Integer compares and predicate logic (R95, R96). -/

namespace Sys2Proof.Machine

/-- R95 on `w`-bit values. -/
def condOf (cc : Cond) (a b : BitVec w) : Bool :=
  match cc with
  | .eq => a == b
  | .ne => a != b
  | .ltS => decide (a.toInt < b.toInt)
  | .leS => decide (a.toInt ≤ b.toInt)
  | .gtS => decide (b.toInt < a.toInt)
  | .geS => decide (b.toInt ≤ a.toInt)
  | .ltN => decide (a.toNat < b.toNat)
  | .leN => decide (a.toNat ≤ b.toNat)
  | .gtN => decide (b.toNat < a.toNat)
  | .geN => decide (b.toNat ≤ a.toNat)
  | .tst => a &&& b != 0
  | .ntst => a &&& b == 0

/-- R95. -/
def execIcmp (f : FmtP) (cc : Cond) (s : State) : Out :=
  regOp s f.p fun c => c.setPred f.pd (condOf cc (c.reg f.a) (c.reg f.b))
/-- R95: pairs compared as 64-bit values. -/
def execIcmp64 (f : FmtP) (cc : Cond) (s : State) : Out :=
  regOp s f.p fun c => c.setPred f.pd (condOf cc (c.pair f.a) (c.pair f.b))
/-- R95: sext(b, 6), then read as cc demands. -/
def execIcmpImm (p : Pred) (pd : Pred) (a : Reg) (i : BitVec 6) (cc : Cond) (s : State) : Out :=
  regOp s p fun c => c.setPred pd (condOf cc (c.reg a) (i.signExtend 32))

/-- The sources of format Q with their inversions (R96). -/
def predOp (s : State) (f : FmtQ) (g : Bool → Bool → Bool) : Out :=
  regOp s f.p fun c => c.setPred f.pd (g (c.pred f.pa ^^ f.na) (c.pred f.pb ^^ f.nb))

/-- R96. -/
def execPand (f : FmtQ) (s : State) : Out := predOp s f and
/-- R96. -/
def execPor (f : FmtQ) (s : State) : Out := predOp s f or
/-- R96. -/
def execPxor (f : FmtQ) (s : State) : Out := predOp s f xor
/-- R96. -/
def execPnot (p : Pred) (pd : Pred) (pa : Pred) (na : Bool) (s : State) : Out :=
  regOp s p fun c => c.setPred pd (!(c.pred pa ^^ na))
/-- R96. -/
def execPmov (p : Pred) (pd : Pred) (pa : Pred) (na : Bool) (s : State) : Out :=
  regOp s p fun c => c.setPred pd (c.pred pa ^^ na)

end Sys2Proof.Machine
end

