-- ==== Sys2Proof/Machine/Frame.lean ====
section
/-! DEFINITION. The bytes of a context frame (R338 to R340): what a save writes, and what a restore reads of them. -/

namespace Sys2Proof.Machine

/-! ## Tables of bytes -/

/-- `n` numbers of `w` bytes at `lo`. -/
def fieldsOf (bs : List Byte) (lo w n : Nat) : List Nat := (List.range n).map fun i => fieldOf bs (lo + w * i) w

def numBytes (w : Nat) (l : List Nat) : List Byte := l.flatMap (bytesOfNat w)

/-! ## Thread records (R339) -/

/-- Bit `n` of each barrier in whose open phase thread `t` has arrived. -/
def seenBits (bs : List Barrier) (t : Tid) : Nat :=
  ((List.range bs.length).zip bs).foldl (fun m x => if x.2.seen.contains t then m + 2 ^ x.1 else m) 0

/-- What the thread waits in: 0 none, 1 to 16 a team barrier, 17 to 20 a cluster barrier, 21 `bar.wait`. -/
def waitCode (s : State) (t : Thread) : Nat :=
  match t.status with
  | .tbar n => n + 1
  | .cbar n => n + 17
  | .run => if (inBarWait s t).isSome then 21 else 0
  | _ => 0

def barv (s : State) (k : Cluster) (tm : Team) (t : Thread) : Nat :=
  let svc := match t.status with | .svc _ _ => 1 | _ => 0
  seenBits tm.bars t.id + 0x10000 * seenBits k.cbars t.id + 0x100000 * waitCode s t + 0x2000000 * svc
    + 0x4000000 * (if t.pend.isSome then 1 else 0)

/-- The window store: the oldest resident frame first; words that hold no frame are free (R12, log 3). -/
def storeWords (fresh : Nat) (t : Thread) : List Word :=
  let ws := (t.ctx.res.reverse.map fun f => f.toList).flatten ++ t.ctx.win.toList
  let n := t.place.regs - 16 - ws.length
  ws ++ (List.range n).map fun i => Config.freeWord (fresh + i)

def threadRecord (s : State) (k : Cluster) (tm : Team) (t : Thread) : List Byte :=
  let c := t.ctx
  let svcAddr : DWord := match t.status with | .svc _ a => a | _ => 0
  let pcause := match t.pend with | some (.trap code _ _) => code | _ => 0
  let ctl := bytesOfD c.pc ++ bytesOfD c.clh ++ bytesOfD t.trap.tpc ++ bytesOfD t.trap.taddr
    ++ bytesOf [t.trap.cause, t.trap.info, t.tstat, c.pset, c.fpst, c.dphase.zeroExtend 32, t.gstat, t.specWord, t.dclo,
                (t.dc[5]).zeroExtend 32, c.ri.zeroExtend 32, c.depth, wOf (1 + c.res.length), c.lstat, c.lv0.dep, c.lv1.dep, c.lv2.dep]
    ++ bytesOfD c.lv0.beg ++ bytesOfD c.lv1.beg ++ bytesOfD c.lv2.beg
    ++ bytesOf [c.lv0.cnt, c.lv1.cnt, c.lv2.cnt] ++ bytesOfD c.spill ++ bytesOf [t.rbk, t.ncmt, t.nesc]
    ++ bytesOfNat 4 (barv s k tm t) ++ bytesOfD svcAddr ++ bytesOfNat 8 pcause ++ bytesOfD t.place.rslim
  padTo 256 ctl ++ bytesOf (c.g.toList ++ storeWords s.fresh t)

/-- The window and the older frames out of a record's store words. -/
def readStore (c : Ctx) (wres : Nat) (ws : List Nat) : Ctx :=
  let word (i : Nat) : Word := wOf (ws.getD i 0)
  let m := Nat.max wres 1
  { c with
    win := Vector.ofFn fun i => word (40 * (m - 1) + i.val),
    res := ((List.range (m - 1)).map fun f => Vector.ofFn fun i => word (40 * f + i.val)).reverse }

/-- A loop level of a record: dependence depth, begin, count, length. -/
def readLvl (bs : List Byte) (k : Nat) (lstat : Nat) : LoopLvl :=
  { cnt := wOf (fieldOf bs (124 + 4 * k) 4), len := BitVec.ofNat 8 (lstat / 2 ^ (2 + 8 * k)), beg := dwOf (fieldOf bs (100 + 8 * k) 8),
    dep := wOf (fieldOf bs (88 + 4 * k) 4) }

/-- Registers and control fields of a thread as its record holds them; a thread that has ended stays as it is. -/
def readThread (bs : List Byte) (t : Thread) : Thread :=
  if !t.live then t
  else
    let f := fieldOf bs
    let gst := f 56 4
    let lst := f 84 4
    let dcl := f 64 4
    let spec := f 60 4
    let tst := f 40 4
    let bar := f 156 4
    let wc := bar / 0x100000 % 32
    let g := fieldsOf bs 256 4 16
    let c0 := readStore t.ctx (f 80 4) (fieldsOf bs 320 4 (t.place.regs - 16))
    let c := { c0 with
      g := Vector.ofFn fun i => wOf (g.getD i.val 0), preds := BitVec.ofNat 15 (f 44 4), lv0 := readLvl bs 0 lst, lv1 := readLvl bs 1 lst,
      lv2 := readLvl bs 2 lst, ld := lst % 4, ri := BitVec.ofNat 6 (f 72 4), depth := wOf (f 76 4), spill := dwOf (f 136 8),
      pc := dwOf (f 0 8), clh := dwOf (f 8 8), fpst := wOf (f 48 4), dphase := BitVec.ofNat 6 (f 52 4), inH := bitN tst 6, rep := none }
    { t with
      ctx := c,
      dc := Vector.ofFn fun i => if i.val < 5 then BitVec.ofNat 6 (dcl / 2 ^ (6 * i.val)) else BitVec.ofNat 6 (f 68 4),
      trap := { cause := wOf (f 32 4), info := wOf (f 36 4), tpc := dwOf (f 16 8), taddr := dwOf (f 24 8), tclh := t.trap.tclh,
                ri := BitVec.ofNat 6 tst, pset := BitVec.ofNat 15 (tst / 256) },
      exitedF := bitN gst 0, mhold := bitN gst 1, aged := bitN gst 2,
      spec := { slvl := BitVec.ofNat 2 spec, fix := bitN spec 2, lvl := BitVec.ofNat 2 (spec / 16), t1 := BitVec.ofNat 4 (spec / 256),
                t2 := BitVec.ofNat 4 (spec / 4096), dlog := BitVec.ofNat 4 (spec / 65536) },
      rbk := wOf (f 144 4), ncmt := wOf (f 148 4), nesc := wOf (f 152 4),
      place := { t.place with rslim := dwOf (f 176 8) },
      status := if 1 ≤ wc ∧ wc ≤ 16 then .tbar (wc - 1) else if 17 ≤ wc ∧ wc ≤ 20 then .cbar (wc - 17) else .run,
      pend := if bitN bar 26 then (match t.pend with
          | some (.trap _ info addr) => some (.trap (f 168 1) info addr)
          | _ => some (.trap (f 168 1) 0 0)) else none }

/-! ## Barriers, groups, tiles and operations (R338, R340) -/

def barRecord (b : Barrier) : List Byte :=
  bytesOfW b.expect ++ bytesOfNat 4 b.arrived ++ bytesOfNat 8 (if b.opened then 1 else 0)

/-- A barrier of a frame; `seen` are the threads whose records show an arrival. -/
def readBar (bs : List Byte) (lo : Nat) (seen : List Tid) : Barrier :=
  if fieldOf bs (lo + 8) 1 = 0 then Barrier.empty
  else { opened := true, expect := wOf (fieldOf bs lo 4), arrived := fieldOf bs (lo + 4) 4, seen := seen }

/-- A saved group's names are already the indices of its tiles. -/
def groupRecord (g : Group) : List Byte :=
  bytesOfD g.kill ++ bytesOfD g.killPc ++ bytesOfD g.killAddr ++ numBytes 1 (g.names.toList.map fun n => n.getD 0xFF)
    ++ List.replicate 36 0

def readGroup (bs : List Byte) (lo : Nat) (_g : Group) : Group :=
  let name (i : Nat) : Option Nat := let v := fieldOf bs (lo + 24 + i) 1; if v = 0xFF then none else some v
  { names := Vector.ofFn fun i => name i.val, kill := BitVec.ofNat 64 (fieldOf bs lo 8), killPc := dwOf (fieldOf bs (lo + 8) 8),
    killAddr := dwOf (fieldOf bs (lo + 16) 8) }

def tileRecord (x : Tile) : List Byte := bytesOf ((List.range 16384).map (tileWord x))

def readTile (bs : List Byte) (lo : Nat) (x : Tile) : Tile :=
  { x with words := (List.range 16384).foldr (fun i ws =>
      let v := fieldOf bs (lo + 4 * i) 4
      if v = 0 then ws else (i, wOf v) :: ws) [] }

/-- A matrix operation's record; its tile is already an index among the saved ones. -/
def matRecord (o : MatOp) : List Byte :=
  let w := encodeWord o.ins
  let bit (b : Bool) (k : Nat) : Nat := if b then k else 0
  let rel := match o.ins with | .accSt _ _ r _ _ _ _ => r | .accCvt _ _ r _ _ _ _ _ => r | _ => false
  let m := mmaOf o.ins
  let z := match m with | none => false | some x => x.z
  let va := match m with | none => false | some x => x.va
  let bsel := match m with | none => 0 | some x => x.bsel
  let name := match accName o.ins with | none => 0 | some a => a.val
  let cvt := match o.ins with | .accCvt _ _ _ _ _ _ _ _ => w / 4 % 64 | _ => 0
  numBytes 1 [w / 0x1000000, name + bit z 4 + bit va 8 + 16 * bsel + bit rel 64, o.grp, o.tile % 256, o.ph.toNat, cvt, (matDc o.ins).val, 0]
    ++ bytesOfD o.addrA ++ bytesOfD o.scaleA ++ bytesOfD o.addrB ++ bytesOfD o.scaleB ++ List.replicate 24 0

def readMat (bs : List Byte) (lo : Nat) (o : MatOp) : MatOp :=
  { o with grp := fieldOf bs (lo + 2) 1, tile := fieldOf bs (lo + 3) 1, ph := BitVec.ofNat 6 (fieldOf bs (lo + 4) 1),
           addrA := dwOf (fieldOf bs (lo + 8) 8), scaleA := dwOf (fieldOf bs (lo + 16) 8), addrB := dwOf (fieldOf bs (lo + 24) 8),
           scaleB := dwOf (fieldOf bs (lo + 32) 8), stage := 0, left := [], result := [] }

/-- R302: every element below the NEXT of a record has been counted. -/
def engRecord (o : CopyOp) : List Byte :=
  padTo 64 o.req ++ padTo 64 o.lay ++ numBytes 1 [o.ph.toNat, o.dc.val, o.slot, o.size - 1] ++ bytesOfNat 5 o.nextSeen
    ++ List.replicate 3 0 ++ bytesOfNat 4 o.cnt ++ bytesOfD o.reqAddr ++ List.replicate 8 0

def readEng (bs : List Byte) (lo : Nat) (o : CopyOp) : CopyOp :=
  { o with req := (bs.drop lo).take 64, lay := (bs.drop (lo + 64)).take 64, ph := BitVec.ofNat 6 (fieldOf bs (lo + 128) 1),
           dc := Fin.ofNat 7 (fieldOf bs (lo + 129) 1), slot := fieldOf bs (lo + 130) 1, next := fieldOf bs (lo + 132) 5,
           cnt := fieldOf bs (lo + 140) 4, reqAddr := dwOf (fieldOf bs (lo + 144) 8), state := 1 }

/-! ## A team's frame -/

/-- DESIGN CHOICE (log 18), unsafe: the launch processor's context area, with room of 4 MiB for each team's frame. -/
def frameBase : Nat := 0x008800000000
def frameRoom : Nat := 0x400000
def clusterRoom : Nat := 12 * frameRoom
def frameCount : Nat := 682

def frameAddr (k : Cluster) (team : Nat) : Nat := k.frame + team * frameRoom

/-- The lowest place of the context area that no saved cluster holds. -/
def freeFrame (s : State) : Option Nat :=
  ((List.range frameCount).map fun i => frameBase + i * clusterRoom).find? fun a => !s.clusters.any fun k => k.status == .saved && k.frame == a

def teamOps (k : Cluster) (team : Nat) : List CopyOp := k.ops.filter fun o => o.team == team
def teamMats (k : Cluster) (team : Nat) : List MatOp := k.mats.filter fun o => o.team == team
def teamTiles (k : Cluster) (team : Nat) : List Tile := (k.tiles.filter fun x => x.1 == team).map (·.2)

/-- Threads of a team by rising c.tid. -/
def orderedThreads (s : State) (c : Cid) (team : Nat) : List Thread := sortTid (teamThreads s c team)

/-- Offsets of a frame's sections after the header: threads, groups, tiles, matrix and engine operations, end. -/
structure FrameLay where
  thr : Nat
  grp : Nat
  tile : Nat
  mat : Nat
  eng : Nat
  size : Nat
  deriving DecidableEq, Repr

def frameLay (threads alloc groups tiles mops eops : Nat) : FrameLay :=
  let g := 512 + threads * (256 + 4 * alloc)
  let t := g + groups * 64
  let m := t + tiles * 65536
  let e := m + mops * 64
  ⟨512, g, t, m, e, e + eops * 160⟩

def layOf (l : Launch) (k : Cluster) (team : Nat) : FrameLay :=
  frameLay (l.groups * l.width) l.alloc l.groups (teamTiles k team).length (teamMats k team).length (teamOps k team).length

def lowestReason (k : Cluster) : Nat := k.reasons.headD 0

def frameHeader (l : Launch) (k : Cluster) (team : Nat) (tm : Team) : List Byte :=
  let lay := layOf l k team
  let clb := tm.slot == 0
  let h := bytesOfNat 4 1 ++ bytesOfNat 2 l.ctx ++ bytesOfNat 2 l.keyId
    ++ numBytes 1 [tm.slot, if tm.paired then 1 else 0, l.width, lowestReason k] ++ bytesOfNat 2 (l.groups * l.width)
    ++ bytesOfNat 2 l.alloc ++ numBytes 1 [l.groups, (teamTiles k team).length, (teamMats k team).length, (teamOps k team).length,
        (if k.ext then 1 else 0) + (if clb then 2 else 0)] ++ List.replicate 3 0 ++ bytesOfNat 8 lay.size
  padTo 192 h ++ (if clb then k.cbars.flatMap barRecord else List.replicate 64 0) ++ tm.bars.flatMap barRecord

def frameBytes (s : State) (l : Launch) (k : Cluster) (team : Nat) (tm : Team) : List Byte :=
  frameHeader l k team tm ++ (orderedThreads s k.id team).flatMap (threadRecord s k tm) ++ tm.groups.flatMap groupRecord
    ++ (teamTiles k team).flatMap tileRecord ++ (teamMats k team).flatMap matRecord ++ (teamOps k team).flatMap engRecord

/-- The bytes of a saved team's frame, as the launch processor now reads them. -/
def loadFrame (s : State) (l : Launch) (k : Cluster) (team : Nat) : List Byte :=
  fwRead s ((genOf s l.keyId).getD 0) (frameAddr k team) (layOf l k team).size

/-- R219, R357: the copies that the launch processor of `die` leaves by reading a cluster's frames. -/
def framesTouch (s : State) (die : Nat) (l : Launch) (k : Cluster) : State :=
  (List.range k.teams.length).foldl (fun s i =>
    fwTouch s die ((genOf s l.keyId).getD 0) (frameAddr k i) (layOf l k i).size) s

/-! ## Reading a frame back (R333) -/

/-- The threads of a team, each from its record. -/
def readThreads (bs : List Byte) (l : Launch) (c : Cid) (team : Nat) (s : State) : State :=
  mapThreads s fun t =>
    if t.cid = c && t.id.team = team then readThread ((bs.drop (512 + t.id.tid * (256 + 4 * l.alloc))).take (256 + 4 * l.alloc)) t else t

/-- Threads of a list whose record shows an arrival at bit `n` of BARV. -/
def arrivedAt (frames : List (Nat × List Byte)) (l : Launch) (ths : List Thread) (n : Nat) : List Tid :=
  (ths.filter fun t =>
    match frames.find? fun f => f.1 == t.id.team with
    | none => false
    | some f => bitN (fieldOf f.2 (512 + t.id.tid * (256 + 4 * l.alloc) + 156) 4) n).map (·.id)

def readTeam (bs : List Byte) (frames : List (Nat × List Byte)) (l : Launch) (k : Cluster) (ths : List Thread) (team : Nat) (tm : Team) : Team :=
  let mine := ths.filter fun t => t.id.team == team
  let lay := layOf l k team
  { tm with
    bars := (List.range tm.bars.length).map fun n => readBar bs (256 + 16 * n) (arrivedAt frames l mine n),
    groups := (List.range tm.groups.length).zipWith (fun i g => readGroup bs (lay.grp + 64 * i) g) tm.groups }

def withIx (l : List α) : List (Nat × α) := (List.range l.length).zip l

/-- The saved cluster with every field that its frames hold, as they hold it. -/
def readFrames (s : State) (l : Launch) (k : Cluster) : State × Cluster :=
  let teams := List.range k.teams.length
  let frames := teams.map fun i => (i, loadFrame s l k i)
  let bytes (i : Nat) : List Byte := ((frames.find? fun f => f.1 == i).map (·.2)).getD []
  let ths := (threads s).filter fun t => t.cid == k.id
  let first := ((k.teams.zip teams).find? fun x => x.1.slot == 0).map (·.2)
  let k1 := { k with
    teams := k.teams.zipWith (fun tm i => readTeam (bytes i) frames l k ths i tm) teams,
    cbars := match first with
      | none => k.cbars
      | some i => (List.range k.cbars.length).map fun n => readBar (bytes i) (192 + 16 * n) (arrivedAt frames l ths (16 + n)),
    tiles := teams.flatMap fun i => (withIx (teamTiles k i)).map fun x => (i, readTile (bytes i) ((layOf l k i).tile + 65536 * x.1) x.2),
    mats := teams.flatMap fun i => (withIx (teamMats k i)).map fun x => readMat (bytes i) ((layOf l k i).mat + 64 * x.1) x.2,
    ops := teams.flatMap fun i => (withIx (teamOps k i)).map fun x => readEng (bytes i) ((layOf l k i).eng + 160 * x.1) x.2 }
  (teams.foldl (fun s i => readThreads (bytes i) l k.id i s) s, k1)

end Sys2Proof.Machine
end

