-- ==== Sys2Proof/Machine/Preempt.lean ====
section
/-! DEFINITION. Pre-emption and service (R330 to R337): requests, the stop and save of a cluster, its restore, replay, and what
firmware reports of pages, spill limits and debug stops. -/

namespace Sys2Proof.Machine

/-! ## The stop (R332, steps 1 and 2) -/

/-- R335, R336: the stop may end in a discard. -/
def replayable (l : Launch) (k : Cluster) : Bool := l.replay && k.reasons == [1] && !k.ext

/-- R332: pre-empt a cluster; one that is saved, or being saved, gains the reason. -/
def execPreemptRequest (c : Cid) (s : State) : Out :=
  match findCluster s c with
  | none => .next s
  | some k => .next (if k.status == .resident || k.status == .stopping || k.status == .saved then stopCluster s c 1 else s)

def mapCluster (s : State) (c : Cid) (f : State → State) : State :=
  ((threads s).filter fun t => t.cid == c).foldl (fun s t => onThread s t.id f) s

/-- A copy request that a replay discards (R335). -/
def Access.isCopy (a : Access) : Bool := match a.kind with | .copy _ => true | _ => false

/-- A load, the oldest access, parked on an absent sector or an unpinned page. -/
def parkedLoad (t : Thread) : Option Access :=
  match t.accs with
  | [] => none
  | a :: _ => if a.parked then (match a.kind with | .load _ _ _ => some a | _ => none) else none

/-- A call or return that is parked on its spill or fill issues again after the restore; a handler's entry is completed instead. -/
def Thread.windowParked (t : Thread) : Bool := t.wpark.isSome && !t.entryPend

/-- What the focus thread gives up: its region, then a parked load or window action, whose instruction issues again. -/
def quiesce (s : State) : State :=
  if s.th.openRegion || s.th.notice then rollback s false
  else if s.th.windowParked then modTh s fun t => { t with wpark := none }
  else
    match parkedLoad s.th with
    | none => s
    | some a => cancelFrom s [] s.th.accs a

def Thread.toQuiesce (t : Thread) : Bool := t.openRegion || t.notice || t.windowParked || (parkedLoad t).isSome

/-- R332, step 1: a trap raised before the stop has its entry completed. -/
def Thread.owesEntry (t : Thread) : Bool := t.live && t.entryPend && t.status == .run

def finishEntry (s : State) : State := if s.th.owesEntry && s.th.wpark.isNone then enterHandler s else s

def dropCopies (s : State) : State := modTh s fun t => { t with accs := t.accs.filter fun a => !a.isCopy }

/-- Every thread of the cluster has nothing outstanding. -/
def drained (s : State) (c : Cid) : Bool := (threads s).all fun t => t.cid != c || (t.accs.isEmpty && t.ops.isEmpty)

/-- The engine operations of a cluster, with their cores. -/
def engOf (s : State) (c : Cid) : List (Nat × CopyOp) := s.cores.flatMap fun k => (k.2.eng.filter fun o => o.cid == c).map fun o => (k.1, o)

/-- Operations by rising place of launch. -/
def insertOp (o : CopyOp) : List CopyOp → List CopyOp
  | [] => [o]
  | x :: r => if o.born ≤ x.born then o :: x :: r else x :: insertOp o r

def insertMat (o : MatOp) : List MatOp → List MatOp
  | [] => [o]
  | x :: r => if o.born ≤ x.born then o :: x :: r else x :: insertMat o r

/-! ## Replay (R335) -/

def replayCluster (s : State) (l : Launch) (k : Cluster) : State :=
  let s1 := (engOf s k.id).foldl (fun s x => dropLocks s (.copy x.1 x.2.pos)) s
  let s2 : State := { s1 with
    cores := s1.cores.map fun c => (c.1, { c.2 with
      eng := c.2.eng.filter (fun o => o.cid != k.id), mats := c.2.mats.filter (fun o => o.cid != k.id),
      tiles := c.2.tiles.map fun x => match x with
        | some t => if t.cid = k.id then none else some t
        | none => none }),
    pool := s1.pool.filter (fun t => t.cid != k.id), th := if s1.th.cid = k.id then Thread.zero else s1.th }
  let k1 := { k with status := .waiting, reasons := [], ops := [], mats := [], tiles := [],
                     teams := k.teams.map fun t => { t with replays := t.replays + 1 } }
  -- a part that the cluster armed runs on; its fresh threads have no handle for it, nor its counter (R334)
  let ofCluster (o : CollOp) : Bool := o.tid.any fun t => t.lid == k.id.lid && t.clus == k.id.clus
  let orphan (e : CollEngine) : CollEngine := { e with ops := e.ops.map fun o => if ofCluster o then { o with tid := none } else o }
  let s3 := setLaunch (setCluster { s2 with coll0 := orphan s2.coll0, coll1 := orphan s2.coll1 } k1) { l with replays := l.replays + 1 }
  (k.slots.map (·.core)).foldl settleDeque s3

/-! ## The save (R332, steps 3 to 5) -/

/-- Tiles of a team on its cores, in slot order: core, physical tile, contents. -/
def tilesOf (s : State) (k : Cluster) (team : Nat) : List (Nat × Nat × Tile) :=
  (k.slots.map (·.core)).flatMap fun core =>
    ((List.range Config.tilesPerCore).zip (getCore s core).tiles).filterMap fun x => match x.2 with
      | some t => if t.cid = k.id ∧ t.team = team then some (core, x.1, t) else none
      | none => none

/-- Index of a physical tile among a team's saved ones; 0xFF where there is none. -/
def tileIx (ts : List (Nat × Nat × Tile)) (core t : Nat) : Nat :=
  let i := ts.findIdx fun x => x.1 == core && x.2.1 == t
  if i < ts.length then i else 0xFF

/-- Core of group `g` of team `team`. -/
def groupCore (l : Launch) (k : Cluster) (team g : Nat) : Nat := ((k.slots[groupSlot l team g]?).map (·.core)).getD 0

/-- The matrix operations of a cluster, unfinished, by launch point, their tiles as saved indices. -/
def savedMats (s : State) (l : Launch) (k : Cluster) : List MatOp :=
  (s.cores.flatMap fun c => c.2.mats.filterMap fun o =>
    if o.cid = k.id then
      some { o with tile := tileIx (tilesOf s k o.team) (groupCore l k o.team o.grp) o.tile, stage := 0, left := [], result := [] }
    else none).foldr insertMat []

/-- The engine operations of a cluster, team by team, each team's by launch point. -/
def savedOps (s : State) (k : Cluster) : List CopyOp :=
  let all := (((engOf s k.id).map (·.2)).foldr insertOp []).map fun o => { o with state := 3 }
  (List.range k.teams.length).flatMap fun i => all.filter fun o => o.team == i

/-- R102, R332: a thread whose `wait` still holds back the next issue is saved at the `wait` (DEDUCED, log 77). -/
def Ctx.atWait (c : Ctx) : Ctx :=
  match c.wfrom with
  | none => c
  | some w => { c with pc := w.pc, clh := w.clh, cend := w.cend, yieldHdr := w.yieldHdr, lv0 := w.lv0, lv1 := w.lv1, lv2 := w.lv2,
                       ld := w.ld, wfrom := none }

/-- Where a thread is saved: one that waits in `bar.wait` has entered its clause (R332, R351). -/
def savedCtx (s : State) (t : Thread) : Ctx :=
  if t.live then ((inBarWait s t).getD t.ctx.atWait).rewind else t.ctx

/-- A thread as it is saved (R332): not arrived, its ages, holds and yields gone. DESIGN CHOICE (log 43): its escalation entries are
emptied, for which a frame has no field (R249, R339). -/
def savedThread (s : State) (t : Thread) : Thread :=
  { t with
    ctx := savedCtx s t, age := 0, held := none, yielded := none, wpark := none, notice := false, esc := [], marks := [], gov := none,
    status := match t.status with | .rv _ _ _ => .run | x => x }

/-- A cluster with a page in backing storage (R208). -/
def Cluster.backed (k : Cluster) : Bool := k.slots.any fun v => !v.unpinned.isEmpty

def backCount : Nat := 1365

/-- Where a cluster's pages are backed: where it has pages already, else the lowest place that no cluster's pages hold. -/
def freeBack (s : State) (k : Cluster) : Option Nat :=
  if k.backed then some k.back
  else ((List.range backCount).map fun i => backBase + i * backRoom).find? fun a => !s.clusters.any fun x => x.backed && x.back == a

/-- Locks of an engine operation, held from now on in the name of its place among the cluster's saved operations. -/
def renameLock (w w' : LockOwner) (r : RLock) : RLock := if r.owner = w then { r with owner := w' } else r

/-- R332: frames at `frame`, scratchpad pages at `back`. -/
def saveCluster (s : State) (l : Launch) (k : Cluster) (frame back : Nat) : State :=
  let ops := savedOps s k
  let owners := (engOf s k.id).map fun x => (x, ops.findIdx fun o => o.born == x.2.born)
  let locks := owners.foldl (fun ls y => ls.map (renameLock (.copy y.1.1 y.1.2.pos) (.saved k.id y.2))) s.mem.locks
  let n := k.teams.length
  let k1 := { k with
    status := .saved, frame := frame, back := back, ops := ops, mats := savedMats s l k,
    tiles := (List.range n).flatMap fun i => (tilesOf s k i).map fun x => (i, x.2.2),
    teams := k.teams.zipWith (fun t i => { t with
      saves := t.saves + 1,
      groups := (withIx t.groups).map fun g => { g.2 with
        names := g.2.names.map fun n => n.map fun p => tileIx (tilesOf s k i) (groupCore l k i g.1) p } }) (List.range n) }
  let s1 := mapThreads (setLaunch s { l with saves := l.saves + 1 }) fun t => if t.cid = k.id then savedThread s t else t
  let gen := (genOf s l.keyId).getD 0
  let s2 := (withIx k1.teams).foldl (fun st x => fwStore st gen (frameAddr k1 x.1) (frameBytes s1 l k1 x.1 x.2)) { s1 with fresh := s1.fresh + 256 }
  let s2 := (withIx k1.slots).foldl (fun st x => backSlot st k1 x.1 x.2) s2
  let s3 := { setCluster s2 { k1 with slots := k1.slots.map Slot.unpinAll } with
    mem := { s2.mem with locks := locks },
    cores := s2.cores.map fun c => (c.1, { c.2 with
      eng := c.2.eng.filter (fun o => o.cid != k.id), mats := c.2.mats.filter (fun o => o.cid != k.id),
      tiles := c.2.tiles.map fun x => match x with
        | some t => if t.cid = k.id then none else some t
        | none => none }) }
  (k.slots.map (·.core)).foldl settleDeque s3

/-- R348: an uncorrectable error in a tile being saved ends the cluster. -/
def badTile (s : State) (k : Cluster) : Option Thread :=
  (List.range k.teams.length).findSome? fun i =>
    if (tilesOf s k i).any fun x => !x.2.2.bad.isEmpty then lowest (teamThreads s k.id i) else none

/-- R268: a matrix operation that has given up its holds, or has read its tile, finishes before the save. -/
def pastHold (s : State) (c : Cid) : Bool := s.cores.any fun k => k.2.mats.any fun o => o.cid == c && decide (2 ≤ o.stage)

/-- R302: an operation at a step boundary, with its count made and no failure to report, stops. -/
def stopOps (s : State) (c : Cid) : State :=
  (engOf s c).foldl (fun s x => if x.2.state != 3 && x.2.uncounted == 0 && !x.2.fail then setOp s x.1 { x.2 with state := 3 } else s) s

/-- One move of a stop: regions and parked loads go first, and handler entries are completed; then, once nothing is outstanding
and every engine operation is stopped, the cluster is saved or discarded. -/
def stopMove (s : State) (c : Cid) : State :=
  match findCluster s c, findLaunch s c.lid with
  | some k, some l =>
    if (threads s).any fun t => t.cid == c && t.toQuiesce then mapCluster s c quiesce
    else if (threads s).any fun t => t.cid == c && t.owesEntry then mapCluster s c finishEntry
    else if replayable l k && (threads s).any fun t => t.cid == c && t.accs.any (·.isCopy) then mapCluster s c dropCopies
    else if !drained s c then s
    else if replayable l k then
      (if (engOf s c).any fun x => x.2.plan.dir == 1 then s else replayCluster s l k)
    else if (engOf s c).any fun x => x.2.state != 3 then stopOps s c
    else if pastHold s c then s
    else
      match badTile s k with
      | some t => onThread s t.id fun s => fatal (modTh s fun t => writeTrapRegs t cEccFatal 0 0) cEccFatal false
      | none =>
        match freeFrame s, freeBack s k with
        | some a, some b => saveCluster s l k a b
        | _, _ => s
  | _, _ => s

/-! ## The restore (R333, R334, R339) -/

/-- R334: entries of the launch in the old core's deque go to the bottom of the new core's, as many as fit. -/
def moveDeque (s : State) (lid old new : Nat) : State :=
  let o := getCore s old
  let n := getCore s new
  if old = new || o.owner != some lid || n.owner != some lid then s
  else
    let k := Nat.min o.deque.length (Config.dequeEntries - n.deque.length)
    let left := o.deque.length - k
    let s1 := setCore s old { o with deque := o.deque.take left, dqBad := o.dqBad.filter fun i => decide (i < left) }
    settleDeque (setCore s1 new { n with
      deque := n.deque ++ o.deque.drop left,
      dqBad := n.dqBad ++ (o.dqBad.filter fun i => decide (left ≤ i)).map fun i => n.deque.length + (i - left) }) old

/-- R334: a deque that a restored cluster of a launch with task queues may meet. -/
def dequeOk (s : State) (l : Launch) (core : Nat) : Bool :=
  !l.tq || (match (getCore s core).owner with
    | none => true
    | some o => o == l.lid)

/-- R339: the thread at its resume point: inside the clause at CLH, or at a header; a trap it must take first. -/
def resumePoint (s : State) (t : Thread) : Thread :=
  let c := t.ctx
  let h := c.clh
  let pc := c.pc
  let first (e : Exc) : Option Exc := match t.pend with
    | none => some e
    | some x => some x
  let header : Thread := { t with ctx := { c.land pc with ri := 0, wmask := 0, wfrom := none, drain := false } }
  let out : Thread :=
    if pc.toNat % 4 != 0 then { header with pend := first (excOf cMisaligned pc) }
    else if !inCode t.place pc 4 then { header with pend := first (excOf cProt pc) }
    else header
  if !t.live || t.entryPend then t
  else if !inCode t.place h 4 then out
  else
    match fetchWord s t h with
    | .error e => { t with ctx := { c with clh := h, wmask := 0, wfrom := none, drain := false }, pend := first e }
    | .ok w =>
      let n := hdrCount w.toNat
      if h.toNat + 4 ≤ pc.toNat && pc.toNat < h.toNat + 4 + 4 * n && pc.toNat % 4 == 0 then
        match fetchWords s t (h + 4) n with
        | .error (_, e) => { t with ctx := { c with wmask := 0, wfrom := none, drain := false }, pend := first e }
        | .ok ws =>
          let k := (pc.toNat - h.toNat - 4) / 4
          let role := (roles ws).getD k .ins
          let c1 := { c with clh := h, cend := h + 4 + dwOf (4 * n), yieldHdr := hdrYield w.toNat, rep := none, wfrom := none,
                             drain := false }
          if role = .ins then
            { t with ctx := { c1 with wmask := hdrWait w.toNat, ri := if isRpt (ws.getD k 0) then c.ri else 0 } }
          else { t with ctx := { c1 with wmask := 0, ri := 0 }, pend := first (excOf cIllegalClause 0) }
      else out

/-- A saved tile takes a free physical tile of its group's core; answers with what it is called there. -/
def placeTile (s : State) (l : Launch) (k : Cluster) (x : Nat × Tile) : State × Nat :=
  let core := groupCore l k x.1 x.2.grp
  let c := getCore s core
  let t := ((List.range Config.tilesPerCore).find? fun t => (tileOf c t).isNone).getD 0
  (setCore s core (setTile c t x.2), t)

/-- The saved tiles placed one after another, with their physical numbers in order. -/
def placeTiles (l : Launch) (k : Cluster) : State → List (Nat × Tile) → State × List (Nat × Nat)
  | s, [] => (s, [])
  | s, x :: r =>
    let p := placeTile s l k x
    let q := placeTiles l k p.1 r
    (q.1, (x.1, p.2) :: q.2)

/-- Physical tile of saved tile `i` of a team. -/
def physTile (m : List (Nat × Nat)) (team i : Nat) : Option Nat := (((m.filter fun x => x.1 == team).map (·.2))[i]?)

/-- A stopped engine operation goes on in the engine of its slot's core. -/
def resumeOp (k : Cluster) (s : State) (x : Nat × CopyOp) : State :=
  let core := ((k.slots[x.2.slot]?).map (·.core)).getD 0
  let c := getCore s core
  let pos := freePos c
  let s1 := setCore s core { c with eng := c.eng ++ [{ x.2 with pos := pos, state := 1 }] }
  { s1 with mem := { s1.mem with locks := s1.mem.locks.map (renameLock (.saved k.id x.1) (.copy core pos)) } }

/-- A recorded matrix operation is launched again. -/
def relaunch (l : Launch) (k : Cluster) (m : List (Nat × Nat)) (s : State) (o : MatOp) : State :=
  let core := groupCore l k o.team o.grp
  pushMat s core { o with ident := nextIdent (getCore s core), born := s.fresh, tile := (physTile m o.team o.tile).getD 12 }

/-- The restore of a saved cluster on `cores`, by the launch processor of their die. DESIGN CHOICE (log 75): of slots that change cores
among themselves R334 gives no order; their deques move slot by slot in rising order, so that an entry may move twice. -/
def restoreCluster (s : State) (l : Launch) (k : Cluster) (cores : List Nat) : State :=
  let r := readFrames (framesTouch s (cores.headD 0 / 336) l k) l k
  let k0 := r.2
  let k1 := { k0 with
    status := .resident, reasons := [], ops := [], mats := [], tiles := [], frame := 0, arrival := r.1.fresh,
    slots := k0.slots.zipWith (fun v c => { v with core := c }) cores }
  -- the new placement, under the launch's heap triple as it now is (R223)
  let s1 := mapThreads (setCluster { r.1 with fresh := r.1.fresh + 1 } k1) fun t =>
    if t.cid = k.id then { t with place := { t.place with
      core := cores.getD t.place.slot 0, hbase := l.hbase, hlim := l.hlim, hoff := l.hoff } } else t
  let p := placeTiles l k1 s1 k0.tiles
  let k2 := { k1 with teams := k1.teams.zipWith (fun tm i => { tm with
    groups := tm.groups.map fun g => { g with names := g.names.map fun n => n.bind (physTile p.2 i) } }) (List.range k1.teams.length) }
  let s2 := (withIx k0.ops).foldl (resumeOp k2) (k0.mats.foldl (relaunch l k2 p.2) (setCluster p.1 k2))
  let s3 := (k.slots.zip cores).foldl (fun s x => moveDeque s l.lid x.1.core x.2) (cores.foldl settleDeque s2)
  mapThreads s3 fun t => if t.cid = k.id then resumePoint s3 t else t

/-- R333: cores of the same shape: one bay, or a seam-bonded pair where the cluster stood on both dies. -/
def restoreOk (s : State) (l : Launch) (k : Cluster) (cores : List Nat) : Bool :=
  let old := k.slots.map (·.core)
  let both := old.any (fun c => c < 336) && old.any fun c => decide (336 ≤ c)
  coresOk s l cores && cores.all (dequeOk s l) && cores.all (fun c => bitN l.dieMask (c / 336))
    && (if both then seamPair cores else oneBay cores)
    && ((List.range cores.length).zip cores).all fun x =>
        decide ((getCore s x.2).eng.length + (k.ops.filter fun o => o.slot == x.1).length ≤ 16)

/-- R331, R333: a cluster all of whose reasons but pre-emption have ended is restored. -/
def execClusterRestore (c : Cid) (cores : List Nat) (s : State) : Out :=
  match findCluster s c, findLaunch s c.lid with
  | some k, some l =>
    .next (if k.status == .saved && k.reasons.all (· == 1) && restoreOk s l k cores then restoreCluster s l k cores else s)
  | _, _ => .next s

/-- R335: a cluster that replay discarded is placed afresh. -/
def execClusterPlaceAfresh (c : Cid) (cores : List Nat) (s : State) : Out :=
  match findCluster s c, findLaunch s c.lid with
  | some k, some l =>
    let die := (cores.headD 0) / 336
    .next (if k.status == .waiting && bitN l.dieMask die && placeOk s l die cores then placeCluster s l c.clus cores else s)
  | _, _ => .next s

/-! ## Service (R330, R331, R384, R424) -/

def endReason (k : Cluster) (r : Nat) : Cluster := { k with reasons := setDel k.reasons r }

/-- R330: the host complex releases a debug stop. -/
def execDebugRelease (c : Cid) (s : State) : Out :=
  match findCluster s c with
  | none => .next s
  | some k => .next (if k.status == .saved && k.reasons.contains 4 then setCluster s (endReason k 4) else s)

/-- The addresses of the page traps that await service in a cluster. -/
def lostPages (s : State) (c : Cid) : List Nat :=
  (threads s).filterMap fun t => match t.status with
    | .svc code addr => if t.cid = c && code != cSpillLimit then some (addr.toNat / 65536) else none
    | _ => none

/-- R331: the traps on the page of 64 KiB that cannot be made present become fatal with their own codes. DESIGN CHOICE (log 74): NESTED,
which R331 does not give, is set where the trap came inside a handler, as R328 sets it. -/
def failService (page : Nat) (t : Thread) : Thread :=
  match t.status with
  | .svc code addr =>
    if code = cSpillLimit || addr.toNat / 65536 != page then t else { writeTrapRegs t code 0 addr with status := .fatal code t.ctx.inH }
  | _ => t

/-- R384, R396: a page of a collective is served, or is lost for good: then a side declaration on it is refused, and an operation whose
own ranges need it fails. -/
def serveColl (s : State) (die : Nat) (ok : Bool) (o : CollOp) : CollOp :=
  if ok then { o with lost := false }
  else if o.shf && o.err == 0 && !o.sides.isEmpty && (o.st == 1 || planColl s die o != .lost) then
    { o with lost := false, sides := o.sides.drop 1, sideRej := o.sideRej + 1 }
  else if o.st = 0 && o.err == 0 then { o with lost := false, err := 3 }
  else { o with lost := false, nostat := true, err := if o.err = 0 then 3 else o.err }

/-- The service of copies and collectives that wait for a page of the launch (R296, R384). -/
def servePages (s : State) (c : Cid) (ok : Bool) : State :=
  let fix (a : Access) : Access := if a.isCopy && a.parked then
    { a with parked := false, failed := if ok then a.failed else some (excOf cPageFault 0) } else a
  let s1 := mapThreads s fun t => if t.cid = c then { t with accs := t.accs.map fix } else t
  let op (die : Nat) (o : CollOp) : CollOp := if o.lid = c.lid && o.lost && o.st != 2 then serveColl s1 die ok o else o
  { s1 with coll0 := { s1.coll0 with ops := s1.coll0.ops.map (op 0) }, coll1 := { s1.coll1 with ops := s1.coll1.ops.map (op 1) } }

/-- R331: firmware reports that the pages a cluster waits for are present, or that one cannot be made so. -/
def execPagesPresentReport (c : Cid) (ok : Bool) (s : State) : Out :=
  match findCluster s c with
  | none => .next (servePages s c ok)
  | some k =>
    let s1 := servePages s c ok
    .next (match k.status with
    | .saved =>
      if !k.reasons.contains 2 then s1
      else if ok then setCluster s1 (endReason k 2)
      else
        -- the report names no page: which of them it concerns is free (log 1)
        let pages := lostPages s1 c
        let page := pages.getD (Config.choice s1.fresh % pages.length) 0
        setCluster { mapThreads s1 (fun t => if t.cid = c then failService page t else t) with fresh := s1.fresh + 1 }
          { k with status := .dying }
    | .placing =>
      if k.argFault.isNone then s1
      else if ok then readArgs s1 c
      else setCluster s1 { k with status := .dying }
    | _ => s1)

/-- R331: firmware raises a thread's RSLIM in its record, or the spill limit is fatal, with NESTED as in `failService` (DESIGN CHOICE,
log 74). -/
def execSpillLimitService (c : Cid) (team tid : Nat) (rslim : Option DWord) (s : State) : Out :=
  match findCluster s c, findLaunch s c.lid, findThread s ⟨c.lid, c.clus, team, tid⟩ with
  | some k, some l, some t =>
    (match t.status with
     | .svc code _ =>
       if code != cSpillLimit || k.status != .saved then .next s
       else
         match rslim with
         | none => .next (setCluster (mapThreads s fun x => if x.id = t.id then { x with status := .fatal code x.ctx.inH } else x)
             { k with status := .dying })
         | some v =>
           if v < t.place.rslim then .next s
           else
             let s1 := fwStore s ((genOf s l.keyId).getD 0) (frameAddr k team + 512 + tid * (256 + 4 * l.alloc) + 176) (bytesOfD v)
             let s2 := mapThreads s1 fun x => if x.id = t.id then { x with status := .run } else x
             let more := (threads s2).any fun x => x.cid == c && (match x.status with
               | .svc code _ => code == cSpillLimit
               | _ => false)
             .next (if more then s2 else setCluster s2 (endReason k 3))
     | _ => .next s)
  | _, _, _ => .next s

/-- R223: a launch all of whose clusters are saved may be given another heap triple, within the limits of a record. -/
def moveHeap (s : State) (lid : Nat) : State :=
  match findLaunch s lid with
  | none => s
  | some l =>
    let mine := s.clusters.filter fun k => k.id.lid == lid
    let h := Config.heapTriple s.fresh
    if l.complete || mine.isEmpty || !(mine.all fun k => k.status == .saved)
        || !heapOk l.code.toNat l.clen h.1.toNat h.2.1.toNat h.2.2.toNat then s
    else setLaunch { s with fresh := s.fresh + 1 } { l with hbase := h.1, hlim := h.2.1, hoff := h.2.2 }

/-! ## The end of a part whose issuer's cluster is saved (R334) -/

/-- A counter that falls while its thread is saved falls in the thread's record too. -/
def frameCounters (s : State) (t : Tid) : State :=
  match findCluster s ⟨t.lid, t.clus⟩, findLaunch s t.lid, findThread s t with
  | some k, some l, some x =>
    if k.status == .saved then
      fwStore s ((genOf s l.keyId).getD 0) (frameAddr k t.team + 512 + t.tid * (256 + 4 * l.alloc) + 64)
        (bytesOf [x.dclo, (x.dc[5]).zeroExtend 32])
    else s
  | _, _, _ => s

def endPartSaved (s : State) (die : Nat) (o : CollOp) (err : Nat) : State :=
  let s1 := endPart s die o err
  match o.tid with
  | none => s1
  | some t => frameCounters s1 t

/-- R386, R390, R391, R395. -/
def execCollectivePartComplete (die slot : Nat) (err : Byte) (s : State) : Out :=
  match findColl s die slot with
  | none => .next s
  | some o =>
    if !partMay s o err.toNat then .next s
    else
      .next (match statusPieces s die o with
      | .ok none => if o.lost then s else setColl s die { o with lost := true }
      | .ok (some segs) => if statusWaits s o segs then s else endPartSaved s die o err.toNat
      | .error c => endPartSaved s die o (if err = 0 then c else err.toNat))

end Sys2Proof.Machine
end

