-- ==== Sys2Proof/Machine/Special.lean ====
section
/-! DEFINITION. The special functions (R128 to R131). Where the spec fixes a result the model returns it. Elsewhere the result is
a fixed function of the argument with no body (log 4), held to the bounds of R130 and to the monotonicity and symmetry of R129;
flags follow from the value returned. -/

namespace Sys2Proof.Machine

/-- The functions of R128, by the low digit of their opcode. -/
inductive Sfu | rcp | rsq | sqrt | ex2 | lg2 | sinpi | cospi | tanh | sigm | gelu | silu | erf
  deriving DecidableEq, Repr

def Sfu.num : Sfu → Nat
  | .rcp => 0 | .rsq => 1 | .sqrt => 2 | .ex2 => 3 | .lg2 => 4 | .sinpi => 5 | .cospi => 6 | .tanh => 7
  | .sigm => 8 | .gelu => 9 | .silu => 10 | .erf => 11

def fNanW : Nat := 0x7FC00000
def fInfW (s : Bool) : Nat := if s then 0xFF800000 else 0x7F800000
def fZeroW (s : Bool) : Nat := if s then 0x80000000 else 0
def fOneW (s : Bool) : Nat := if s then 0xBF800000 else 0x3F800000

/-- UF and NX of a returned value that is not the exact one (R131). -/
def inexactFlags (v : Nat) : Word := if v % 0x80000000 < 0x00800000 then fNX ||| fUF else fNX

/-- A returned value that is not the exact one. -/
def approx (v : Nat) : Nat × Word := (v, inexactFlags v)

/-! ## Exact values to 2^-280 -/

/-- Fraction bits of the fixed-point numbers below. -/
def fxBits : Nat := 320
def fxOne : Nat := 2 ^ fxBits

/-- m × 2^e as an integer multiple of 2^b, b at most e. -/
def scaleTo (m : Nat) (e b : Int) : Nat := m <<< (e - b).toNat

/-- m × 2^e in fixed point; exact for every .f32 magnitude. -/
def fxOf (m : Nat) (e : Int) : Nat := scaleTo m (e + fxBits) 0

/-- floor of the square root, bit by bit from bit i − 1. -/
def isqrtFrom (n r : Nat) : Nat → Nat
  | 0 => r
  | i + 1 => if (r + 2 ^ i) * (r + 2 ^ i) ≤ n then isqrtFrom n (r + 2 ^ i) i else isqrtFrom n r i

def isqrt (n : Nat) : Nat := isqrtFrom n 0 (Nat.log2 n / 2 + 1)

/-- Sum of `fuel` terms, each the one before times `u` over `den k`, signs alternating where `alt`. -/
def series (u : Nat) (den : Nat → Nat) (alt : Bool) : Nat → Nat → Nat → Int
  | 0, _, _ => 0
  | fuel + 1, k, term =>
    let rest := series u den alt fuel (k + 1) (term * u / fxOne / den k)
    term + (if alt then -rest else rest)

/-- e^t for t in [0, 1]. -/
def fxExpLow (t : Nat) : Nat := (series t (fun k => k + 1) false 100 0 fxOne).toNat

/-- Σ z^(2 k + 1) / (2 k + 1), signs alternating where `alt`, from z^(2 k + 1) onward. -/
def fxArc (zz : Nat) (alt : Bool) : Nat → Nat → Nat → Int
  | 0, _, _ => 0
  | fuel + 1, k, pw =>
    let rest := fxArc zz alt fuel (k + 1) (pw * zz / fxOne)
    ((pw / (2 * k + 1) : Nat) : Int) + (if alt then -rest else rest)

/-- ln m for m in [1, 2], by the inverse hyperbolic tangent of (m − 1) / (m + 1). -/
def fxLn (m : Nat) : Nat :=
  let z := (m - fxOne) * fxOne / (m + fxOne)
  2 * (fxArc (z * z / fxOne) false 110 0 z).toNat

def fxLn2 : Nat := fxLn (2 * fxOne)

/-- π, by Machin's formula. -/
def fxPi : Nat :=
  let at' (q : Nat) : Int := fxArc (fxOne / (q * q)) true 80 0 (fxOne / q)
  (16 * at' 5 - 4 * at' 239).toNat

/-- 2^t: a significand in [1, 2], and an exponent. -/
def fxExp2 (neg : Bool) (t : Nat) : Nat × Int :=
  let z : Int := if neg then -(t : Int) else t
  let n := z / (fxOne : Int)
  (fxExpLow ((z - n * fxOne).toNat * fxLn2 / fxOne), n)

/-- e^t for t ≥ 0, in fixed point. -/
def fxExp (t : Nat) : Nat := fxExpLow (t % fxLn2) <<< (t / fxLn2)

/-- sin(π z) for z in [0, 1/2]. -/
def fxSinpi (z : Nat) : Nat :=
  let t := fxPi * z / fxOne
  (series (t * t / fxOne) (fun k => (2 * k + 2) * (2 * k + 3)) true 60 0 t).toNat

/-- sin(π z) for z ≥ 0, with its sign. -/
def fxSinAll (z : Nat) : Int :=
  let r := z % (2 * fxOne)
  let h := r % fxOne
  let v : Int := fxSinpi (if fxOne < 2 * h then fxOne - h else h)
  if fxOne ≤ r then -v else v

/-- Σ x u^k / (1 · 3 · … · (2 k + 1)). -/
def fxOddSum (x u : Nat) : Nat := (series u (fun k => 2 * k + 3) false 700 0 x).toNat

/-- Φ(x) − 1/2 for x ≥ 0. -/
def fxPhi (x : Nat) : Nat :=
  let xx := x * x / fxOne
  fxOddSum x xx * fxOne / fxExp (xx / 2) * fxOne / isqrt (2 * fxPi * fxOne)

/-- erf x for x ≥ 0. -/
def fxErf (x : Nat) : Nat :=
  let xx := x * x / fxOne
  2 * fxOddSum x (2 * xx) * fxOne / fxExp xx * fxOne / isqrt (fxPi * fxOne)

/-- 1 / (1 + e^t), or e^t / (1 + e^t), for t ≥ 0. -/
def fxSigm (neg : Bool) (t : Nat) : Nat :=
  let x := fxExp t
  (if neg then fxOne else x) * fxOne / (x + fxOne)

/-- A real y known to lie within err × 2^k of val × 2^k. -/
structure Near where
  val : Int
  k : Int
  err : Nat
  deriving DecidableEq, Repr

/-- A fixed-point value with errors of at most 2^40 units. -/
def Near.ofFx (v : Int) : Near := ⟨v, -fxBits, 2 ^ 40⟩

/-- x times a fixed-point value, for x = (−1)^s m 2^e. -/
def Near.timesX (s : Bool) (m : Nat) (e : Int) (v : Nat) : Near := ⟨sgnd s (m * v), e - fxBits, m * 2 ^ 40⟩

/-- The exact value of a transcendental function at x = (−1)^s m 2^e (R128); for rcp, rsq and sqrt see below. -/
def sfuReal (f : Sfu) (s : Bool) (m : Nat) (e : Int) : Near :=
  let x := fxOf m e
  let sg (v : Nat) : Int := sgnd s v
  match f with
  | .ex2 => let r := fxExp2 s x; ⟨r.1, r.2 - fxBits, 2 ^ 40⟩
  | .lg2 =>
    let l := Nat.log2 m
    .ofFx (((l : Int) + e) * fxOne + ((fxLn (scaleTo m fxBits l) * fxOne / fxLn2 : Nat) : Int))
  | .sinpi => .ofFx (if s then -(fxSinAll x) else fxSinAll x)
  | .cospi => .ofFx (fxSinAll (x + fxOne / 2))
  | .tanh => let y := fxExp (2 * x); .ofFx (sg ((y - fxOne) * fxOne / (y + fxOne)))
  | .sigm => .ofFx (fxSigm s x)
  | .gelu => .timesX s m e (if s then fxOne / 2 - fxPhi x else fxOne / 2 + fxPhi x)
  | .silu => .timesX s m e (fxSigm s x)
  | .erf => .ofFx (sg (fxErf x))
  | .rcp => .ofFx 0
  | .rsq => .ofFx 0
  | .sqrt => .ofFx 0

/-! ## The bounds (R130) -/

/-- 2^(max(l, −126) − 23) is ULP(y) for l = ⌊log2 |y|⌋ (R130). -/
def ulpExp (l : Int) : Int := max l (-126) - 23

/-- ULP(y) as an exponent. -/
def Near.ulp (y : Near) : Int := ulpExp ((Nat.log2 y.val.natAbs : Int) + y.k)

/-- Is |v − y| ≤ c × 2^u, for v = (−1)^t n 2^g? -/
def Near.within (y : Near) (c : Nat) (u : Int) (t : Bool) (n : Nat) (g : Int) : Bool :=
  let b := min y.k (min g u)
  let d := sgnd t (scaleTo n g b) - sgnd (decide (y.val < 0)) (scaleTo y.val.natAbs y.k b)
  decide (d.natAbs ≤ scaleTo c u b + scaleTo y.err y.k b)

/-- Is |v − 1/x| ≤ 2^u, for x = m × 2^e and v = n × 2^g? -/
def rcpNear (m : Nat) (e : Int) (n : Nat) (g u : Int) : Bool :=
  let b := min 0 (min (e + g) (e + u))
  let p := scaleTo (m * n) (e + g) b
  let one := scaleTo 1 0 b
  decide ((if p ≤ one then one - p else p - one) ≤ scaleTo m (e + u) b)

/-- Is |v − √x| ≤ 2^u (or |v − 1/√x| ≤ 2^u where `inv`)? -/
def sqrtNear (inv : Bool) (m : Nat) (e : Int) (n : Nat) (g u : Int) : Bool :=
  let b := min g u
  let v := scaleTo n g b
  let t := scaleTo 1 u b
  let lo := v - t
  let hi := v + t
  -- squares are multiples of 2^(2 b)
  if inv then
    leDy (lo * lo * m) (2 * b + e) 1 0 && leDy 1 0 (hi * hi * m) (2 * b + e)
  else
    leDy (lo * lo) (2 * b) m e && leDy m e (hi * hi) (2 * b)

def isPow2 (m : Nat) : Bool := m == 2 ^ Nat.log2 m

/-- Is m × 2^e ≥ n / 2^k? -/
def geQ (m : Nat) (e : Int) (n k : Nat) : Bool := leDy n (-(k : Int)) m e

/-- R130: does the code `v` lie within the bound at x = (−1)^s m 2^e? -/
def sfuNear (f : Sfu) (s : Bool) (m : Nat) (e : Int) (v : Nat) : Bool :=
  let l := (Nat.log2 m : Int) + e
  let ulps (c : Nat) (t : Bool) (n : Nat) (g : Int) : Bool := let y := sfuReal f s m e; y.within c y.ulp t n g
  match numOf .f32 v with
  | .nan _ => false
  | .inf _ => false
  | .fin t n g =>
    match f with
    | .rcp => t == s && rcpNear m e n g (ulpExp (if isPow2 m then -l else -l - 1))
    | .rsq => !t && sqrtNear true m e n g (ulpExp (if isPow2 m then -((l + 1) / 2) else -(l / 2 + 1)))
    | .sqrt => !t && sqrtNear false m e n g (ulpExp (l / 2))
    | .ex2 => ulps (if s && geQ m e 126 0 && !leDy m e 126 0 then 1 else 2) t n g
    | .lg2 => if l = -1 || l = 0 then (sfuReal f s m e).within 1 (-22) t n g else ulps 2 t n g
    | .sinpi => ulps 2 t n g || (sfuReal f s m e).within 1 (-24) t n g
    | .cospi => ulps 2 t n g || (sfuReal f s m e).within 1 (-24) t n g
    | .tanh => ulps 2 t n g
    | .sigm => ulps (if s && geQ m e 88 0 && !leDy m e 88 0 then 3 else 2) t n g
    | .gelu => ulps (if s && geQ m e 5 0 && !leDy m e 5 0 then 3 else 2) t n g
    | .silu => ulps (if s && geQ m e 88 0 && !leDy m e 88 0 then 3 else 2) t n g
    | .erf => ulps 2 t n g

/-! ## Results that the spec fixes (R129 to R131) -/

/-- Twice the magnitude m × 2^e, if it is an integer. -/
def twice (m : Nat) (e : Int) : Option Nat :=
  if -1 ≤ e then some (m <<< (e + 1).toNat)
  else if m % 2 ^ (-e - 1).toNat = 0 then some (m >>> (-e - 1).toNat) else none

/-- A finite value that .f32 holds. -/
def exactly (s : Bool) (m : Nat) (e : Int) : Option (Nat × Word) :=
  let r := encNum .f32 .rne false (.fin s m e)
  if r.2 = 0 then some r else none

/-- The result at a finite nonzero x = (−1)^s m 2^e whose magnitude has code `a`, where the spec fixes it. -/
def sfuFin (f : Sfu) (s : Bool) (a m : Nat) (e : Int) : Option (Nat × Word) :=
  let full := a + (if s then 0x80000000 else 0)
  let l := (Nat.log2 m : Int) + e
  match f with
  | .rcp =>
    if l < -128 then some (fInfW s, fOF ||| fNX)
    else if isPow2 m then exactly s 1 (-l) else none
  | .rsq =>
    if s then some (fNanW, fNV)
    else if isPow2 m && l % 2 = 0 then exactly false 1 (-(l / 2)) else none
  | .sqrt =>
    if s then some (fNanW, fNV)
    else
      let k : Nat := if e % 2 = 0 then 60 else 61
      let r := isqrt (m <<< k)
      if r * r = m <<< k then exactly false r ((e - k) / 2) else none
  | .ex2 =>
    if !s && geQ m e 128 0 then some (fInfW false, fOF ||| fNX)
    else if s && geQ m e 150 0 then some (0, fUF ||| fNX)
    else
      match twice m e with
      | some n => if n % 2 = 0 then exactly false 1 (sgnd s (n / 2)) else none
      | none => none
  | .lg2 =>
    if s then some (fNanW, fNV)
    else if isPow2 m then some ((encNum .f32 .rne false (numOfInt l)).1, 0) else none
  | .sinpi =>
    (twice m e).map fun n =>
      if n % 2 = 0 then (fZeroW s, 0) else (fOneW (s ^^ (n / 2 % 2 == 1)), 0)
  | .cospi => (twice m e).map fun n => (if n % 2 = 0 then fOneW (n / 2 % 2 == 1) else 0, 0)
  | .tanh => if geQ m e 19 1 then some (approx (fOneW s)) else if !geQ m e 1 12 then some (approx full) else none
  | .sigm =>
    if !s && geQ m e 18 0 then some (approx (fOneW false))
    else if s && !leDy m e 104 0 then some (approx 0) else none
  | .gelu =>
    if !s && geQ m e 6 0 then some (approx full)
    else if s && geQ m e 15 0 then some (approx 0x80000000) else none
  | .silu =>
    if !s && geQ m e 18 0 then some (approx full)
    else if s && !leDy m e 110 0 then some (approx 0x80000000) else none
  | .erf => if geQ m e 4 0 then some (approx (fOneW s)) else none

/-- The result at a zero (R131). -/
def sfuZero (f : Sfu) (s : Bool) : Nat × Word :=
  match f with
  | .rcp => (fInfW s, fDZ)
  | .rsq => (fInfW s, fDZ)
  | .sqrt => (fZeroW s, 0)
  | .ex2 => (fOneW false, 0)
  | .lg2 => (fInfW true, fDZ)
  | .sinpi => (fZeroW s, 0)
  | .cospi => (fOneW false, 0)
  | .tanh => (fZeroW s, 0)
  | .sigm => (0x3F000000, 0)
  | .gelu => (fZeroW s, 0)
  | .silu => (fZeroW s, 0)
  | .erf => (fZeroW s, 0)

/-- The result at an infinity (R131). -/
def sfuInf (f : Sfu) (s : Bool) : Nat × Word :=
  match f with
  | .rcp => (fZeroW s, 0)
  | .rsq => if s then (fNanW, fNV) else (0, 0)
  | .sqrt => if s then (fNanW, fNV) else (fInfW false, 0)
  | .ex2 => (if s then 0 else fInfW false, 0)
  | .lg2 => if s then (fNanW, fNV) else (fInfW false, 0)
  | .sinpi => (fNanW, fNV)
  | .cospi => (fNanW, fNV)
  | .tanh => (fOneW s, 0)
  | .sigm => (if s then 0 else fOneW false, 0)
  | .gelu => (if s then fZeroW true else fInfW false, 0)
  | .silu => (if s then fZeroW true else fInfW false, 0)
  | .erf => (fOneW s, 0)

/-- The result that the spec fixes at `x`. -/
def sfuFixed (f : Sfu) (x : Nat) : Option (Nat × Word) :=
  match numOf .f32 x with
  | .nan q => some (fNanW, if q then fNV else 0)
  | .inf s => some (sfuInf f s)
  | .fin s m e => if m = 0 then some (sfuZero f s) else sfuFin f s (x % 0x80000000) m e

/-! ## The fixed function of an implementation (R129) -/

/-- R129: tanh, erf and sinpi are odd, cospi is even: such a function is given by its values at magnitudes. -/
def sfuArg (f : Sfu) (x : Nat) : Nat :=
  match f with
  | .tanh => x % 0x80000000
  | .erf => x % 0x80000000
  | .sinpi => x % 0x80000000
  | .cospi => x % 0x80000000
  | .rcp => x | .rsq => x | .sqrt => x | .ex2 => x | .lg2 => x | .sigm => x | .gelu => x | .silu => x

def sfuSign (f : Sfu) (x v : Nat) : Nat :=
  match f with
  | .tanh => Nat.xor v (x / 0x80000000 * 0x80000000)
  | .erf => Nat.xor v (x / 0x80000000 * 0x80000000)
  | .sinpi => Nat.xor v (x / 0x80000000 * 0x80000000)
  | .rcp => v | .rsq => v | .sqrt => v | .ex2 => v | .lg2 => v | .cospi => v | .sigm => v | .gelu => v | .silu => v

/-- Result and flags at `x`, where `F` gives the bits that the spec leaves open. -/
def sfuBy (F : Nat → Nat) (f : Sfu) (x : Nat) : Nat × Word :=
  match sfuFixed f x with
  | some r => r
  | none => approx (sfuSign f x (F (sfuArg f x)))

/-- The next code upward in value, −0 before +0. -/
def nextCode (x : Nat) : Nat := if x = 0x80000000 then 0 else if 0x80000000 < x then x - 1 else x + 1

/-- Order of two codes that are no NaN, −0 equal to +0. -/
def leCode (a b : Nat) : Bool :=
  let k (c : Nat) : Int := if 0x80000000 ≤ c then -((c - 0x80000000 : Nat) : Int) else c
  decide (k a ≤ k b)

/-- R129: rcp and rsq fall, sqrt, ex2, lg2, sigm and erf rise; here from `x` to the next code. -/
def sfuMono (F : Nat → Nat) (f : Sfu) (x : Nat) : Bool :=
  let a := (sfuBy F f x).1
  let b := (sfuBy F f (nextCode x)).1
  let any := (numOf .f32 a).isNan || (numOf .f32 b).isNan || (numOf .f32 x).isNan
  let down := any || x == 0x80000000 || leCode b a
  let up := any || leCode a b
  match f with
  | .rcp => down
  | .rsq => down
  | .sqrt => up
  | .ex2 => up
  | .lg2 => up
  | .sigm => up
  | .erf => up
  | .sinpi => true | .cospi => true | .tanh => true | .gelu => true | .silu => true

/-- R130 at `x`. -/
def sfuBounded (F : Nat → Nat) (f : Sfu) (x : Nat) : Bool :=
  match sfuFixed f x, numOf .f32 x with
  | none, .fin s m e => sfuNear f s m e (sfuBy F f x).1
  | _, _ => true

def allBelow (p : Nat → Bool) : Nat → Bool
  | 0 => true
  | n + 1 => p n && allBelow p n

/-- Does `F` obey R129 and R130 at every argument? The arguments are taken from 3.14 downward, cyclically. -/
def sfuSound (F : Nat → Nat) (f : Sfu) : Bool :=
  allBelow (fun n => let x := (n + 0x40490001) % 0x100000000; sfuBounded F f x && sfuMono F f x) 0x100000000

/-- The exact result with its bits beyond .f32 dropped: a function that obeys R129 and R130. -/
def sfuTrunc (f : Sfu) (x : Nat) : Nat :=
  match numOf .f32 x with
  | .nan _ => fNanW
  | .inf _ => fNanW
  | .fin s m e =>
    let q : Nat := 60
    let rz (s : Bool) (m : Nat) (e : Int) : Nat := (encNum .f32 .rz false (.fin s m e)).1
    let m2 := if e % 2 = 0 then m else 2 * m
    let h := (if e % 2 = 0 then e else e - 1) / 2
    match f with
    | .rcp => rz s (2 ^ (Nat.log2 m + q) / m) (-(Nat.log2 m : Int) - q - e)
    | .rsq => rz false (isqrt (2 ^ (2 * q) / m2)) (-(q : Int) - h)
    | .sqrt => rz false (isqrt (m2 * 2 ^ (2 * q))) (h - q)
    | _ =>
      let y := sfuReal f s m e
      rz (decide (y.val < 0)) y.val.natAbs y.k

/-- Log 4: the bits of this device's function, a constant with no body, as far as that constant obeys R129 and R130. -/
def sfuFree (f : Sfu) (x : Nat) : Nat :=
  let F (x : Nat) : Nat := (Config.sfu f.num (wOf x)).toNat
  if sfuSound F f then F x else sfuTrunc f x

/-- Result and flags of a special function (R129 to R131). -/
def sfuOf (f : Sfu) (x : Word) : Nat × Word := sfuBy (sfuFree f) f x.toNat

/-- R128: the result is computed at issue and written at completion. -/
def sfuOp (s : State) (f : FmtC) (fn : Sfu) : Out :=
  guarded s f.p fun s =>
    let r := sfuOf fn (s.th.ctx.reg f.a)
    issueOp s f [(f.d, wOf r.1)] r.2

/-- R128. -/
def execRcp (f : FmtC) (s : State) : Out := sfuOp s f .rcp
/-- R128. -/
def execRsq (f : FmtC) (s : State) : Out := sfuOp s f .rsq
/-- R128. -/
def execSqrt (f : FmtC) (s : State) : Out := sfuOp s f .sqrt
/-- R128. -/
def execEx2 (f : FmtC) (s : State) : Out := sfuOp s f .ex2
/-- R128. -/
def execLg2 (f : FmtC) (s : State) : Out := sfuOp s f .lg2
/-- R128. -/
def execSinpi (f : FmtC) (s : State) : Out := sfuOp s f .sinpi
/-- R128. -/
def execCospi (f : FmtC) (s : State) : Out := sfuOp s f .cospi
/-- R128. -/
def execTanh (f : FmtC) (s : State) : Out := sfuOp s f .tanh
/-- R128. -/
def execSigm (f : FmtC) (s : State) : Out := sfuOp s f .sigm
/-- R128. -/
def execGelu (f : FmtC) (s : State) : Out := sfuOp s f .gelu
/-- R128. -/
def execSilu (f : FmtC) (s : State) : Out := sfuOp s f .silu
/-- R128. -/
def execErf (f : FmtC) (s : State) : Out := sfuOp s f .erf

end Sys2Proof.Machine
end

