-- ==== Sys2Proof/Machine/Dispatch.lean ====
section
/-! DEFINITION. Dispatch: one arm per constructor of Instr, each one direct call of its meaning. -/

namespace Sys2Proof.Machine

def exec (i : Instr) (s : State) : Host.Outcome State Fault Refusal :=
  match i with
  | .nop p => Sys2Proof.Machine.execNop p s
  | .hint o z => Sys2Proof.Machine.execHint o z s
  | .add f m => Sys2Proof.Machine.execAdd f m s
  | .sub f m => Sys2Proof.Machine.execSub f m s
  | .mul f => Sys2Proof.Machine.execMul f s
  | .mulh f m => Sys2Proof.Machine.execMulh f m s
  | .mad f c => Sys2Proof.Machine.execMad f c s
  | .div f m => Sys2Proof.Machine.execDiv f m s
  | .rem f m => Sys2Proof.Machine.execRem f m s
  | .min f m => Sys2Proof.Machine.execMin f m s
  | .max f m => Sys2Proof.Machine.execMax f m s
  | .abs f sat => Sys2Proof.Machine.execAbs f sat s
  | .neg f sat => Sys2Proof.Machine.execNeg f sat s
  | .and f => Sys2Proof.Machine.execAnd f s
  | .or f => Sys2Proof.Machine.execOr f s
  | .xor f => Sys2Proof.Machine.execXor f s
  | .andn f => Sys2Proof.Machine.execAndn f s
  | .not f => Sys2Proof.Machine.execNot f s
  | .shl f => Sys2Proof.Machine.execShl f s
  | .shr f => Sys2Proof.Machine.execShr f s
  | .sar f => Sys2Proof.Machine.execSar f s
  | .rot f right => Sys2Proof.Machine.execRot f right s
  | .bfx f m => Sys2Proof.Machine.execBfx f m s
  | .bfi f => Sys2Proof.Machine.execBfi f s
  | .clz f => Sys2Proof.Machine.execClz f s
  | .popc f => Sys2Proof.Machine.execPopc f s
  | .brev f => Sys2Proof.Machine.execBrev f s
  | .sel f wide sp => Sys2Proof.Machine.execSel f wide sp s
  | .mov f => Sys2Proof.Machine.execMov f s
  | .lea f k => Sys2Proof.Machine.execLea f k s
  | .add64 f => Sys2Proof.Machine.execAdd64 f s
  | .sub64 f => Sys2Proof.Machine.execSub64 f s
  | .lea64 f k => Sys2Proof.Machine.execLea64 f k s
  | .mov64 f => Sys2Proof.Machine.execMov64 f s
  | .movi p d k lit => Sys2Proof.Machine.execMovi p d k lit s
  | .addImm f => Sys2Proof.Machine.execAddImm f s
  | .andImm f => Sys2Proof.Machine.execAndImm f s
  | .orImm f => Sys2Proof.Machine.execOrImm f s
  | .xorImm f => Sys2Proof.Machine.execXorImm f s
  | .shlImm f => Sys2Proof.Machine.execShlImm f s
  | .shrImm f => Sys2Proof.Machine.execShrImm f s
  | .sarImm f => Sys2Proof.Machine.execSarImm f s
  | .icmp f cc => Sys2Proof.Machine.execIcmp f cc s
  | .icmp64 f cc => Sys2Proof.Machine.execIcmp64 f cc s
  | .icmpImm p pd a imm cc => Sys2Proof.Machine.execIcmpImm p pd a imm cc s
  | .pand f => Sys2Proof.Machine.execPand f s
  | .por f => Sys2Proof.Machine.execPor f s
  | .pxor f => Sys2Proof.Machine.execPxor f s
  | .pnot p pd pa na => Sys2Proof.Machine.execPnot p pd pa na s
  | .pmov p pd pa na => Sys2Proof.Machine.execPmov p pd pa na s
  | .bra f => Sys2Proof.Machine.execBra f s
  | .brm f => Sys2Proof.Machine.execBrm f s
  | .jmp p a => Sys2Proof.Machine.execJmp p a s
  | .call f => Sys2Proof.Machine.execCall f s
  | .callr p a => Sys2Proof.Machine.execCallr p a s
  | .ret p => Sys2Proof.Machine.execRet p s
  | .exit p => Sys2Proof.Machine.execExit p s
  | .loop p lv cnt len => Sys2Proof.Machine.execLoop p lv cnt len s
  | .lexit p lv => Sys2Proof.Machine.execLexit p lv s
  | .rpt p n sd sa sb => Sys2Proof.Machine.execRpt p n sd sa sb s
  | .wait p mask => Sys2Proof.Machine.execWait p mask s
  | .yld p => Sys2Proof.Machine.execYld p s
  | .brk p code => Sys2Proof.Machine.execBrk p code s
  | .trap p code => Sys2Proof.Machine.execTrap p code s
  | .crd p d n => Sys2Proof.Machine.execCrd p d n s
  | .cwr p a n => Sys2Proof.Machine.execCwr p a n s
  | .cmt p => Sys2Proof.Machine.execCmt p s
  | .tret p => Sys2Proof.Machine.execTret p s
  | .spec p lvl fix clr => Sys2Proof.Machine.execSpec p lvl fix clr s
  | .fadd f m => Sys2Proof.Machine.execFadd f m s
  | .fsub f m => Sys2Proof.Machine.execFsub f m s
  | .fmul f m => Sys2Proof.Machine.execFmul f m s
  | .ffma f c m => Sys2Proof.Machine.execFfma f c m s
  | .fmin f => Sys2Proof.Machine.execFmin f s
  | .fmax f => Sys2Proof.Machine.execFmax f s
  | .fabs f x2 => Sys2Proof.Machine.execFabs f x2 s
  | .fneg f x2 => Sys2Proof.Machine.execFneg f x2 s
  | .fcls f m => Sys2Proof.Machine.execFcls f m s
  | .frnd f m => Sys2Proof.Machine.execFrnd f m s
  | .fcmp f cc => Sys2Proof.Machine.execFcmp f cc s
  | .fcvt f sf df => Sys2Proof.Machine.execFcvt f sf df s
  | .fcvtSat f sf df => Sys2Proof.Machine.execFcvtSat f sf df s
  | .hadd2 f half => Sys2Proof.Machine.execHadd2 f half s
  | .hmul2 f half => Sys2Proof.Machine.execHmul2 f half s
  | .hfma2 f c half => Sys2Proof.Machine.execHfma2 f c half s
  | .pkq f fmt sat dth => Sys2Proof.Machine.execPkq f fmt sat dth s
  | .upk f fmt => Sys2Proof.Machine.execUpk f fmt s
  | .qblk f fmt bsel dth e mask => Sys2Proof.Machine.execQblk f fmt bsel dth e mask s
  | .dqblk f fmt bsel e mask => Sys2Proof.Machine.execDqblk f fmt bsel e mask s
  | .rcp f => Sys2Proof.Machine.execRcp f s
  | .rsq f => Sys2Proof.Machine.execRsq f s
  | .sqrt f => Sys2Proof.Machine.execSqrt f s
  | .ex2 f => Sys2Proof.Machine.execEx2 f s
  | .lg2 f => Sys2Proof.Machine.execLg2 f s
  | .sinpi f => Sys2Proof.Machine.execSinpi f s
  | .cospi f => Sys2Proof.Machine.execCospi f s
  | .tanh f => Sys2Proof.Machine.execTanh f s
  | .sigm f => Sys2Proof.Machine.execSigm f s
  | .gelu f => Sys2Proof.Machine.execGelu f s
  | .silu f => Sys2Proof.Machine.execSilu f s
  | .erf f => Sys2Proof.Machine.execErf f s
  | .ldN8 f x => Sys2Proof.Machine.execLdN8 f x s
  | .ldS8 f x => Sys2Proof.Machine.execLdS8 f x s
  | .ldN16 f x => Sys2Proof.Machine.execLdN16 f x s
  | .ldS16 f x => Sys2Proof.Machine.execLdS16 f x s
  | .ldB32 f x => Sys2Proof.Machine.execLdB32 f x s
  | .ldB64 f x => Sys2Proof.Machine.execLdB64 f x s
  | .ldB128 f x => Sys2Proof.Machine.execLdB128 f x s
  | .stB8 f x => Sys2Proof.Machine.execStB8 f x s
  | .stB16 f x => Sys2Proof.Machine.execStB16 f x s
  | .stB32 f x => Sys2Proof.Machine.execStB32 f x s
  | .stB64 f x => Sys2Proof.Machine.execStB64 f x s
  | .stB128 f x => Sys2Proof.Machine.execStB128 f x s
  | .atomAdd f t => Sys2Proof.Machine.execAtomAdd f t s
  | .atomMin f t => Sys2Proof.Machine.execAtomMin f t s
  | .atomMax f t => Sys2Proof.Machine.execAtomMax f t s
  | .atomAnd f t => Sys2Proof.Machine.execAtomAnd f t s
  | .atomOr f t => Sys2Proof.Machine.execAtomOr f t s
  | .atomXor f t => Sys2Proof.Machine.execAtomXor f t s
  | .atomExch f t => Sys2Proof.Machine.execAtomExch f t s
  | .atomCas f e t => Sys2Proof.Machine.execAtomCas f e t s
  | .atomFadd f t => Sys2Proof.Machine.execAtomFadd f t s
  | .red p op len a look dc c t off => Sys2Proof.Machine.execRed p op len a look dc c t off s
  | .shfl f m t mask => Sys2Proof.Machine.execShfl f m t mask s
  | .vote f m mask => Sys2Proof.Machine.execVote f m mask s
  | .gred f op mask => Sys2Proof.Machine.execGred f op mask s
  | .gscan f op excl mask => Sys2Proof.Machine.execGscan f op excl mask s
  | .gsync p mask => Sys2Proof.Machine.execGsync p mask s
  | .tbar p a n arrive => Sys2Proof.Machine.execTbar p a n arrive s
  | .cbar p a n arrive => Sys2Proof.Machine.execCbar p a n arrive s
  | .tqPush f c => Sys2Proof.Machine.execTqPush f c s
  | .tqPop p d look dc c => Sys2Proof.Machine.execTqPop p d look dc c s
  | .tqSteal f c => Sys2Proof.Machine.execTqSteal f c s
  | .mmaBf16 f va z => Sys2Proof.Machine.execMmaBf16 f va z s
  | .mmaF16 f va z => Sys2Proof.Machine.execMmaF16 f va z s
  | .mmaE4m3 f va z => Sys2Proof.Machine.execMmaE4m3 f va z s
  | .mmaE5m2 f va z => Sys2Proof.Machine.execMmaE5m2 f va z s
  | .mmaT8 f va z => Sys2Proof.Machine.execMmaT8 f va z s
  | .mmaT6 f z => Sys2Proof.Machine.execMmaT6 f z s
  | .mmaMx8 f bsel z => Sys2Proof.Machine.execMmaMx8 f bsel z s
  | .mmaMx6 f bsel z => Sys2Proof.Machine.execMmaMx6 f bsel z s
  | .mmaMx4 f bsel z => Sys2Proof.Machine.execMmaMx4 f bsel z s
  | .mmaI8 f va z => Sys2Proof.Machine.execMmaI8 f va z s
  | .accZero p acc => Sys2Proof.Machine.execAccZero p acc s
  | .accLd p acc a look dc off => Sys2Proof.Machine.execAccLd p acc a look dc off s
  | .accSt p acc rls a look dc off => Sys2Proof.Machine.execAccSt p acc rls a look dc off s
  | .accRd p d acc b => Sys2Proof.Machine.execAccRd p d acc b s
  | .accWr p acc a b => Sys2Proof.Machine.execAccWr p acc a b s
  | .accCvt p acc rls a fmt s32 sat dth => Sys2Proof.Machine.execAccCvt p acc rls a fmt s32 sat dth s
  | .xcp p dth a look dc off => Sys2Proof.Machine.execXcp p dth a look dc off s
  | .xcpq p dth n a look dc off => Sys2Proof.Machine.execXcpq p dth n a look dc off s
  | .barInit f off => Sys2Proof.Machine.execBarInit f off s
  | .barExp f off => Sys2Proof.Machine.execBarExp f off s
  | .barArr f off => Sys2Proof.Machine.execBarArr f off s
  | .barWait f x => Sys2Proof.Machine.execBarWait f x s
  | .barTest f x => Sys2Proof.Machine.execBarTest f x s
  | .rlq f off => Sys2Proof.Machine.execRlq f off s
  | .mcst f c t off => Sys2Proof.Machine.execMcst f c t off s
  | .mcldRed f c e t op => Sys2Proof.Machine.execMcldRed f c e t op s
  | .collArm f off => Sys2Proof.Machine.execCollArm f off s
  | .collWait f => Sys2Proof.Machine.execCollWait f s
  | .shfSide f c off => Sys2Proof.Machine.execShfSide f c off s
  | .shfPost f off => Sys2Proof.Machine.execShfPost f off s
  | .shfWait f => Sys2Proof.Machine.execShfWait f s
  | .unassignedOpcode w => Sys2Proof.Machine.execUnassignedOpcode w s
  | .ageingIssue core port => Sys2Proof.Machine.execAgeingIssue core port s
  | .mergeHoldTimeout t => Sys2Proof.Machine.execMergeHoldTimeout t s
  | .yieldExpiry t => Sys2Proof.Machine.execYieldExpiry t s
  | .rendezvousIssue t => Sys2Proof.Machine.execRendezvousIssue t s
  | .divergenceWaitLimit t => Sys2Proof.Machine.execDivergenceWaitLimit t s
  | .loadComplete t => Sys2Proof.Machine.execLoadComplete t s
  | .storePerform t => Sys2Proof.Machine.execStorePerform t s
  | .atomicPerform t => Sys2Proof.Machine.execAtomicPerform t s
  | .instructionCompletion t => Sys2Proof.Machine.execInstructionCompletion t s
  | .parkedLoadResume t => Sys2Proof.Machine.execParkedLoadResume t s
  | .conflictNotice t => Sys2Proof.Machine.execConflictNotice t s
  | .ownedWaitExpiry t => Sys2Proof.Machine.execOwnedWaitExpiry t s
  | .deferredTrapTaken t => Sys2Proof.Machine.execDeferredTrapTaken t s
  | .debugRelease c => Sys2Proof.Machine.execDebugRelease c s
  | .pagesPresentReport c ok => Sys2Proof.Machine.execPagesPresentReport c ok s
  | .spillLimitService c team tid rslim => Sys2Proof.Machine.execSpillLimitService c team tid rslim s
  | .preemptRequest c => Sys2Proof.Machine.execPreemptRequest c s
  | .clusterRestore c cores => Sys2Proof.Machine.execClusterRestore c cores s
  | .clusterPlaceAfresh c cores => Sys2Proof.Machine.execClusterPlaceAfresh c cores s
  | .launchRecordTake die queue => Sys2Proof.Machine.execLaunchRecordTake die queue s
  | .clusterClaim die lid cores => Sys2Proof.Machine.execClusterClaim die lid cores s
  | .clusterRetire c => Sys2Proof.Machine.execClusterRetire c s
  | .launchEnd v => Sys2Proof.Machine.execLaunchEnd v s
  | .scratchpadPageRefill c slot page => Sys2Proof.Machine.execScratchpadPageRefill c slot page s
  | .eccFatalState c team => Sys2Proof.Machine.execEccFatalState c team s
  | .pageWalk core lid va => Sys2Proof.Machine.execPageWalk core lid va s
  | .tlbInvalidate v => Sys2Proof.Machine.execTlbInvalidate v s
  | .invalidateComplete => Sys2Proof.Machine.execInvalidateComplete s
  | .llcEviction die pa => Sys2Proof.Machine.execLlcEviction die pa s
  | .mirrorWriteApply t => Sys2Proof.Machine.execMirrorWriteApply t s
  | .migrationLock pa len mir => Sys2Proof.Machine.execMigrationLock pa len mir s
  | .migrationSwitch pa newPa => Sys2Proof.Machine.execMigrationSwitch pa newPa s
  | .copyLaunchPoint t => Sys2Proof.Machine.execCopyLaunchPoint t s
  | .copyTransferStep core pos => Sys2Proof.Machine.execCopyTransferStep core pos s
  | .engineCountUpdate core pos => Sys2Proof.Machine.execEngineCountUpdate core pos s
  | .copyComplete core pos => Sys2Proof.Machine.execCopyComplete core pos s
  | .copyLateFail core pos code => Sys2Proof.Machine.execCopyLateFail core pos code s
  | .mmaStart core => Sys2Proof.Machine.execMmaStart core s
  | .mmaLastSliceRead core => Sys2Proof.Machine.execMmaLastSliceRead core s
  | .mmaComplete core => Sys2Proof.Machine.execMmaComplete core s
  | .accLdComplete core op => Sys2Proof.Machine.execAccLdComplete core op s
  | .accTileReadEnd core op => Sys2Proof.Machine.execAccTileReadEnd core op s
  | .accSectorLanded core op => Sys2Proof.Machine.execAccSectorLanded core op s
  | .accDrainComplete core op => Sys2Proof.Machine.execAccDrainComplete core op s
  | .chainStartTileWait t => Sys2Proof.Machine.execChainStartTileWait t s
  | .keyInstall id => Sys2Proof.Machine.execKeyInstall id s
  | .keyDestroy id => Sys2Proof.Machine.execKeyDestroy id s
  | .keyDestroyReceipt => Sys2Proof.Machine.execKeyDestroyReceipt s
  | .rtoctlWrite v => Sys2Proof.Machine.execRtoctlWrite v s
  | .prismbufWrite v => Sys2Proof.Machine.execPrismbufWrite v s
  | .prismbufApply => Sys2Proof.Machine.execPrismbufApply s
  | .pcapWrite v => Sys2Proof.Machine.execPcapWrite v s
  | .loupeClear u => Sys2Proof.Machine.execLoupeClear u s
  | .loupeSample u v => Sys2Proof.Machine.execLoupeSample u v s
  | .controlRegisterWrite h m off size v => Sys2Proof.Machine.execControlRegisterWrite h m off size v s
  | .hartLoad h m pa size => Sys2Proof.Machine.execHartLoad h m pa size s
  | .hartStore h m pa size v => Sys2Proof.Machine.execHartStore h m pa size v s
  | .hartAmo h m op pa size v => Sys2Proof.Machine.execHartAmo h m op pa size v s
  | .coreClockCycle core => Sys2Proof.Machine.execCoreClockCycle core s
  | .softError arr addr bits => Sys2Proof.Machine.execSoftError arr addr bits s
  | .scrub pa => Sys2Proof.Machine.execScrub pa s
  | .telemetrySample mw t0 t1 => Sys2Proof.Machine.execTelemetrySample mw t0 t1 s
  | .thermalTrip => Sys2Proof.Machine.execThermalTrip s
  | .attestationRequest nonce => Sys2Proof.Machine.execAttestationRequest nonce s
  | .powerGood => Sys2Proof.Machine.execPowerGood s
  | .collectiveFire die slot => Sys2Proof.Machine.execCollectiveFire die slot s
  | .collectivePartComplete die slot err => Sys2Proof.Machine.execCollectivePartComplete die slot err s
  | .shuffleStart die slot => Sys2Proof.Machine.execShuffleStart die slot s
  | .read f => Sys2Proof.Machine.execRead f s
  | .write f => Sys2Proof.Machine.execWrite f s
  | .atomic f => Sys2Proof.Machine.execAtomic f s
  | .response f => Sys2Proof.Machine.execResponse f s
  | .remoteFaultResponse f => Sys2Proof.Machine.execRemoteFaultResponse f s
  | .remoteTimeout serial => Sys2Proof.Machine.execRemoteTimeout serial s
  | .watchRegister f => Sys2Proof.Machine.execWatchRegister f s
  | .watchRelease f => Sys2Proof.Machine.execWatchRelease f s
  | .remoteConflictNotice f => Sys2Proof.Machine.execRemoteConflictNotice f s
  | .multicastWrite f => Sys2Proof.Machine.execMulticastWrite f s
  | .loadAndReduce f => Sys2Proof.Machine.execLoadAndReduce f s
  | .collectiveData die slot member data => Sys2Proof.Machine.execCollectiveData die slot member data s
  | .shuffleUnitUncoded u fallback data => Sys2Proof.Machine.execShuffleUnitUncoded u fallback data s
  | .shuffleUnitCoded u v cu cv data => Sys2Proof.Machine.execShuffleUnitCoded u v cu cv data s
  | .sideDeclare dev inc u => Sys2Proof.Machine.execSideDeclare dev inc u s
  | .sideEvict dev u => Sys2Proof.Machine.execSideEvict dev u s
  | .decodeReserve u v => Sys2Proof.Machine.execDecodeReserve u v s
  | .reserveGrant u v atU granted => Sys2Proof.Machine.execReserveGrant u v atU granted s
  | .fallbackRequest u => Sys2Proof.Machine.execFallbackRequest u s
  | .reservedFlitDrop f => Sys2Proof.Machine.execReservedFlitDrop f s
  | .laneStop port lane => Sys2Proof.Machine.execLaneStop port lane s
  | .laneGo port lane => Sys2Proof.Machine.execLaneGo port lane s
  | .flitRetry port => Sys2Proof.Machine.execFlitRetry port s
  | .portTrain port => Sys2Proof.Machine.execPortTrain port s
  | .linkTrained port => Sys2Proof.Machine.execLinkTrained port s
  | .joinCleanReport port => Sys2Proof.Machine.execJoinCleanReport port s
  | .linkDown port => Sys2Proof.Machine.execLinkDown port s
  | .peerAbsent dev => Sys2Proof.Machine.execPeerAbsent dev s
  | .peerRejoin dev inc => Sys2Proof.Machine.execPeerRejoin dev inc s

end Sys2Proof.Machine
end

