-- ==== Sys2Proof/Machine/Issue.lean ====
section
/-! DEFINITION. One issue of the focus thread (R11, R59 to R64, R72): the word at pc, stepped by its prefix, the interlock, and
the instruction's meaning. -/

namespace Sys2Proof.Machine

/-- The extension word after `a`, 0 where the instruction takes none. -/
def fetchExt (s : State) (a : DWord) (w : Nat) : Except Exc Nat :=
  if hasExt w then
    match fetchWord s s.th (a + 4) with
    | .error e => .error e
    | .ok x => .ok x.toNat
  else .ok 0

/-- R72: the word that issues, after the steps of the prefix in force. -/
def stepped (c : Ctx) (w : Nat) : Option Nat :=
  match c.rep with
  | none => some w
  | some r => stepWord r c.ri.toNat w

/-- The instruction at pc, inside its clause. -/
def issueInstr (s : State) : Out :=
  match fetchWord s s.th s.th.ctx.pc with
  | .error e => fetchTrap s s.th.ctx.pc e
  | .ok w =>
    match stepped s.th.ctx w.toNat with
    | none => illegal s
    | some w' =>
      match fetchExt s s.th.ctx.pc w' with
      | .error e => fetchTrap s (s.th.ctx.pc + 4) e
      | .ok x =>
        if interlock s w' x then .next s
        else
          match decodeWord w' x with
          | none => illegal s
          | some i => exec i s

/-- May the focus thread issue (R141, R204, R332, R345)? -/
def mayIssue (s : State) : Bool :=
  s.th.status == .run && s.th.held.isNone && !s.th.notice && !s.th.parkedNow
    && (match findCluster s s.th.cid with
        | none => false
        | some k => k.status == .resident)

/-- The instruction at pc; a repeat prefix takes no issue of its own (R111, R147). -/
def issuePrefixed (s : State) : Out :=
  match issueInstr s with
  | .next s' => if s.th.ctx.rep.isNone && s'.th.ctx.rep.isSome then issueInstr s' else .next s'
  | o => o

/-- What the focus thread does when its port serves it: a header is entered and the clause's first instruction issues with it. -/
def issueThread (s : State) : Out :=
  if !mayIssue s then .next s
  else if s.th.entryPend then .next (enterHandler s)
  else
    match s.th.pend with
    | some e => .next (if s.th.accs.isEmpty then takeExc (modTh s fun t => { t with pend := none }) e else s)
    | none =>
      if s.th.ctx.pc = s.th.ctx.clh then
        match enterClause s with
        | .next s' => if hasEntered s s' then issuePrefixed s' else .next s'
        | o => o
      else issuePrefixed s

end Sys2Proof.Machine
end

