-- ==== Sys2Proof/Machine/Auto.lean ====
section
/-! DEFINITION. One step of the device: the threads that a port has chosen, conflict notices, the events that the environment has
listed, and else one of the moves that the device can make, chosen freely (R145, R163, R244; log 1, log 14). -/

namespace Sys2Proof.Machine

def focusIssue (s : State) (t : Tid) : Out :=
  match focus s t with
  | none => .next s
  | some s' => issueThread s'

/-! ## What the device can do next by itself -/

/-- Events of one thread's accesses, operations and waits. -/
def threadMoves (t : Tid) : List Instr :=
  [.deferredTrapTaken t, .loadComplete t, .storePerform t, .atomicPerform t, .mirrorWriteApply t, .instructionCompletion t,
   .parkedLoadResume t, .copyLaunchPoint t, .divergenceWaitLimit t, .mergeHoldTimeout t, .yieldExpiry t,
   .ownedWaitExpiry t]

/-- Events of one core's engine and matrix array. -/
def coreMoves (k : Nat × Core) : List Instr :=
  (k.2.eng.flatMap fun o => [.copyTransferStep k.1 o.pos, .engineCountUpdate k.1 o.pos, .copyComplete k.1 o.pos,
      .copyLateFail k.1 o.pos (BitVec.ofNat 8 o.err)])
    ++ (if k.2.mats.isEmpty then [] else [.mmaStart k.1, .mmaLastSliceRead k.1, .mmaComplete k.1])
    ++ k.2.mats.flatMap fun o => [.accLdComplete k.1 o.ident, .accTileReadEnd k.1 o.ident, .accSectorLanded k.1 o.ident,
        .accDrainComplete k.1 o.ident]

/-- Events of one die's collective engine; a part whose key is gone ends with code 5 (R391). -/
def collMoves (s : State) (die : Nat) : List Instr :=
  (getEng s die).ops.flatMap fun o => [.collectiveFire die o.slot, .collectivePartComplete die o.slot (BitVec.ofNat 8 (if o.err = 0 && o.st = 1 && (genOf s o.keyId).isNone then 5 else o.err))]

/-- Events of the launch processors, of the key ports and of the control space. -/
def controlMoves (s : State) : List Instr :=
  let takes := (List.range 16).flatMap fun q => if queueValid s q then [.launchRecordTake 0 q, .launchRecordTake 1 q] else []
  [.powerGood, .keyInstall s.ctl.kcmdKey, .keyDestroy s.ctl.kcmdKey, .keyDestroyReceipt, .invalidateComplete, .prismbufApply, .thermalTrip]
    ++ takes
    ++ (s.clusters.map fun k => .clusterRetire k.id)
    ++ s.clusters.flatMap fun k => ((List.range k.slots.length).zip k.slots).flatMap fun v =>
        v.2.unpinned.map fun p => .scratchpadPageRefill k.id v.1 p

/-- Work on a cluster that no event of the table names: argument reads, saves, terminations. -/
def clusterMoves (k : Cluster) : List Move :=
  match k.status with
  | .placing => [.args k.id]
  | .stopping => [.save k.id]
  | .dying => [.fin k.id]
  | .resident => []
  | .waiting => []
  | .saved => []
  | .retired => []

/-- Cores with a thread that may still issue. -/
def busyCores (s : State) : List Nat := (threads s).foldl (fun l t => if t.live then setAdd l t.place.core else l) []

/-- R384, R395: what the parts of a die's collective engine do by themselves: a shuffle goes on, and a member has all that it reads of a
source that is locked here, of a part that runs or of one that has ended (log 69). -/
def partMoves (s : State) (die : Nat) : List Move :=
  let e := getEng s die
  let running (o : CollOp) : Bool := o.st == 1 && o.fired && (o.shf || decide (dKind o.desc < 4))
  ((e.ops.filter fun o => o.shf && o.st != 2).map fun o => .post die o.slot)
    ++ ((e.ops.filter running).flatMap fun o => (o.unheard s).map (.lift (.coll die o.slot)))
    ++ ((e.ops ++ e.past).filter fun o => o.st == 2 && keepsSource s die o).flatMap fun o => (o.unheard s).map (.lift (pastLock die o))

/-- Threads whose oldest access is an `mcld.red`. -/
def landMoves (s : State) : List Move :=
  ((threads s).filter fun t => match t.accs with
    | [] => false
    | a :: _ => (match a.kind with
      | .mcldRed _ _ _ _ _ => true
      | _ => false)).map fun t => .land t.id

/-- What is answered or asked on lane 1 goes in the order in which it was sent; a read, a write or an atomic on lane 0 may pass others. -/
def onLane0 (f : Flit) : Bool := f.ty == 0x01 || f.ty == 0x02 || f.ty == 0x03

/-- The device's own flits that can arrive next (R369). -/
def ownMoves (s : State) : List Move :=
  let own := s.out.filter (ownFlit s)
  (own.filter onLane0 ++ (own.filter fun f => !onLane0 f).take 1).map .own

/-- What the ports can send. -/
def sendMoves (s : State) : List Move :=
  (List.range s.fab.ports.length).flatMap fun p => (List.range 4).map (.send p)

def moves (s : State) : List Move :=
  if !s.ctl.up then [.ev .powerGood]
  else
    ((((threads s).filter fun t => t.status != .free).flatMap fun t => threadMoves t.id) ++ s.cores.flatMap coreMoves
        ++ collMoves s 0 ++ collMoves s 1 ++ controlMoves s).map .ev
      ++ s.clusters.flatMap clusterMoves
      ++ partMoves s 0 ++ partMoves s 1 ++ landMoves s ++ ownMoves s ++ sendMoves s
      ++ (s.fab.reqs.map fun r => .late r.serial)
      ++ (if s.mem.fwq.isEmpty then [] else [.firm])
      ++ (if s.fab.iflOwed then [.head] else [])
      ++ (s.mem.waits.map fun w => .retry w.num)
      ++ (s.launches.map fun l => .heap l.lid)
      ++ (busyCores s).map .tick

def nextOr (s : State) (o : Out) : State :=
  match o with
  | .next s' => s'
  | .fault _ => s
  | .refused _ => s

/-- One cycle of a core: its clock, and an issue opportunity of each port (R145). -/
def tickCore (s : State) (core : Nat) : State :=
  pickPort (pickPort (nextOr s (exec (.coreClockCycle core) s)) core 0) core 1

/-- An own flit arrives. A request that is not taken stays on its way; a read waits for the register of its watch (R376). A request whose
thread has gone on needs its name no longer. -/
def runOwn (s : State) (f : Flit) : State :=
  match flitEvent f with
  | none => s
  | some e =>
    let s1 := { s with out := s.out.erase f }
    let s2 := nextOr s1 (exec e s1)
    if onLane0 f && (s2 = s1 || watchFirst s f) then s
    else { s2 with fab := { s2.fab with ghosts := s2.fab.ghosts.filter fun r => onItsWay s2 r.serial } }

/-- What a launch still waits to do: to complete (R367), or to be given another heap (R223). -/
def launchMove (s : State) (lid : Nat) : State :=
  let s1 := tryComplete s lid
  if s1 = s then moveHeap s lid else s1

/-- What a move leaves. -/
def runMove (s : State) (m : Move) : State :=
  match m with
  | .ev e => nextOr s (exec e s)
  | .tick c => tickCore s c
  | .own f => runOwn s f
  | .args c => readArgs s c
  | .save c => stopMove s c
  | .fin c => terminate s c
  | .late n => nextOr s (execRemoteTimeout n s)
  | .firm => fwStep s
  | .retry n => (match s.mem.waits.find? fun w => w.num == n with
      | none => s
      | some w => foreignEvent w.ev s)
  | .send p lane => sendFlit s p lane
  | .lift w j => heardFrom s w j
  | .heap l => launchMove s l
  | .post die slot => postMove s die slot
  | .head => headMove s
  | .land t => onThread s t landGroup

/-- The moves that change the state. -/
def enabledMoves (s : State) : List Move := (moves s).filter fun m => decide (runMove s m ≠ s)

/-- The open moves, the longest-standing first. -/
def openMoves (s : State) : List Move :=
  let en := enabledMoves s
  (s.queue.filter fun m => en.contains m) ++ en.filter fun m => !s.queue.contains m

/-- The move that comes next: a free choice, which passes over the longest-standing move only a finite number of times (R174). -/
def nextMove (s : State) (m : Move) (rest : List Move) : Move :=
  if s.grace = 0 then m else (m :: rest).getD (Config.choice s.fresh % (rest.length + 1)) m

/-- The device by itself: one of its open moves; none leaves the state as it is. -/
def autoStep (s : State) : Out :=
  match openMoves s with
  | [] => .next s
  | m :: rest =>
    let k := nextMove s m rest
    let s1 := { s with fresh := s.fresh + 1, queue := (m :: rest).erase k,
                       grace := if k = m then Config.patience s.fresh else s.grace - 1 }
    .next (runMove s1 k)

/-- A thread that a conflict notice has reached (R244). -/
def noticed (s : State) : Option Tid := ((threads s).find? fun t => t.notice && t.live).map (·.id)

/-- One step of the device. -/
def deviceStep (s : State) : Out :=
  match s.bundle with
  | t :: rest => focusIssue { s with bundle := rest } t
  | [] =>
    match noticed s with
    | some t => exec (.conflictNotice t) s
    | none =>
      match s.agenda with
      | e :: rest => exec e { s with agenda := rest }
      | [] => autoStep s

end Sys2Proof.Machine
end

