-- ==== Sys2Proof/Machine/Place.lean ====
section
/-! DEFINITION. A thread placed with one instruction to run (log 7): what a launch and a page walk would have left behind. -/

namespace Sys2Proof.Machine

/-- Where the instruction stands: a clause header at 0x10000 and the instruction at 0x10004. -/
def probeHdr : Nat := 0x10000
def probePc : Nat := 0x10004

/-- The next launch number. -/
def nextLid (s : State) : Nat := 1 + (s.launches.foldl (fun m l => Nat.max m l.lid) 0)

def probeLaunch (lid : Nat) : Launch :=
  { lid := lid, recAddr := 0, queue := 0, code := dwOf probeHdr, clen := 64, entry := 0, args := 0, arglen := 0,
    ctx := 0, keyId := 0, n := 1, dieMask := 1, teams := 1, groups := 1, width := 16, paired := false, alloc := 64,
    accRes := 0, spad := 0x1000, rsArea := 0, rsPer := 0, hbase := 0, hlim := 0, hoff := 0, root := 0, handler := 0,
    faults := 0, compl := 0, noProm := false, replay := false, fatalAll := false, tq := false, flog := 12, dwLog := 16,
    spec := 0x00083300, bind := [], codePhys := [(probeHdr, 64)], placed := 1, status := 0, firstC := 0,
    discard := 0, saves := 0, replays := 0, asyncN := 0, asyncErr := 0, asyncSlot := 0, asyncPos := 0, asyncReq := 0,
    asyncClus := 0, asyncTeam := 0, ended := false, closed := true, stopped := 3, complete := false,
    passed := false }

def probeTeam : Team :=
  { slot := 0, paired := false, bars := List.replicate 16 Barrier.empty,
    groups := [⟨Vector.replicate 4 none, 0, 0, 0⟩], retired := false, asyncN := 0, asyncErr := 0, asyncSlot := 0,
    asyncPos := 0, asyncReq := 0, saves := 0, replays := 0 }

def probeCluster (lid : Nat) : Cluster :=
  { id := ⟨lid, 0⟩, status := .resident, teams := [probeTeam],
    slots := [{ core := 0, size := 0x1000, bytes := [], absent := [], unpinned := [], bad := [] }],
    cbars := List.replicate 4 Barrier.empty, ext := false, reasons := [], ops := [], mats := [],
    tiles := [], frame := 0, back := 0, argFault := none, arrival := 0 }

/-- The thread, inside the clause whose only instruction has `len` words. -/
def probeThread (lid len : Nat) : Thread :=
  { Thread.zero with
    id := ⟨lid, 0, 0, 0⟩, status := .run,
    place := { Place.zero with spsz := 0x1000, code := dwOf probeHdr, clen := 64 },
    ctx := { Ctx.zero with pc := dwOf probePc, clh := dwOf probeHdr, cend := dwOf (probePc + 4 * len) } }

/-- The generation of key id 0, and a state that holds the key. -/
def withKeyZero (s : State) : State × Nat :=
  match genOf s 0 with
  | some g => (s, g)
  | none =>
    ({ s with ctl := { s.ctl with keys := ⟨0, Config.keyZero, s.ctl.nextGen⟩ :: s.ctl.keys, nextGen := s.ctl.nextGen + 1 },
              mem := { s.mem with pairs := keyPut s.mem.pairs s.ctl.nextGen (padTo 64 Config.keyZero) } },
     s.ctl.nextGen)

/-- R60: a header of class `cls` and `n` words. -/
def hdrWord (cls n : Nat) : Word := wOf (n * 0x10000000 + cls * 0x2000000)

/-- The code bytes at `probeHdr`, readable under key id 0 and mapped one to one. -/
def withCode (s : State) (cls : Nat) (ws : List Word) : State :=
  let k := withKeyZero s
  let s := k.1
  { s with
    mem := { s.mem with
      hbm := Mem.store s.mem.hbm probeHdr (bytesOf (hdrWord cls ws.length :: ws)),
      tags := keyPut s.mem.tags probeHdr k.2,
      bad := badCleared s.mem.bad probeHdr 64 },
    xl := { s.xl with tlb := { level := 2, unit := 0, ctx := 0, va := 0,
                               leaf := { page := 0, size := 31, w := true, x := true, mir := false } } :: s.xl.tlb } }

/-- Log 7: `s` with a thread in focus whose next instruction is `ws`. -/
def placeProbe (s : State) (cls : Nat) (ws : List Word) : State :=
  let lid := nextLid s
  let s := withCode s cls ws
  { s with
    th := probeThread lid ws.length,
    pool := if s.th.status = .free then s.pool else s.th :: s.pool,
    bundle := [⟨lid, 0, 0, 0⟩],
    clusters := probeCluster lid :: s.clusters,
    launches := probeLaunch lid :: s.launches,
    ctl := { s.ctl with up := true } }

end Sys2Proof.Machine
end

