-- ==== Sys2Proof/Machine/Step.lean ====
section
/-! DEFINITION. The step of the device, and the placing of one instruction for it (log 7). -/

namespace Sys2Proof.Machine

/-- One step of the device. -/
def step (s : State) : Host.Outcome State Fault Refusal := deviceStep s

/-- `s` with the instruction of bits `w` where the next step fetches. -/
def State.withFetchWord (s : State) (nbits w : Nat) : State :=
  placeProbe s (classOf (w / 0x1000000 % 0x100)) (probeWords nbits w)
where
  /-- The instruction's word, and its extension where it takes one. -/
  probeWords (nbits w : Nat) : List Word :=
    let l := tableWords nbits w
    l.take (if hasExt ((l.headD 0).toNat) then 2 else 1)

end Sys2Proof.Machine
end

