-- ==== Sys2Proof/Safety.lean ====
section
/-! DEFINITION. What the claims speak of: one byte of each memory, what an instruction leaves alone, and the canonical form of
every memory. A run is safe where each state keeps `State.Canonical`. -/

namespace Sys2Proof.Machine

/-! ## One byte -/

/-- The byte of HBM at a physical address. -/
def State.hbmByte (s : State) (a : Nat) : Byte := Mem.get s.mem.hbm a

/-- The byte of a cluster's scratchpad. -/
def State.spadByte (s : State) (c : Cid) (slot off : Nat) : Byte :=
  match findSlot s c slot with
  | none => 0
  | some v => Mem.get v.bytes off

/-- Every byte of every memory reads as before. -/
structure SameMemory (s t : State) : Prop where
  hbm : ∀ a, t.hbmByte a = s.hbmByte a
  spad : ∀ c slot off, t.spadByte c slot off = s.spadByte c slot off

/-! ## What an instruction leaves alone -/

/-- Every register but those of `ds` reads as before. -/
def SameRegsBut (ds : List Reg) (s t : State) : Prop := ∀ r, r ∉ ds → t.th.ctx.reg r = s.th.ctx.reg r

/-- Every predicate but those of `ps` reads as before. -/
def SamePredsBut (ps : List Pred) (s t : State) : Prop := ∀ p, p ∉ ps → t.th.ctx.pred p = s.th.ctx.pred p

/-- The special registers of the focus thread that no register operation, branch or access writes: its window stack, its trap
registers, its control registers apart from c.fpst, its counters and its place. -/
structure SameSpecials (s t : State) : Prop where
  frames : t.th.ctx.res = s.th.ctx.res
  depth : t.th.ctx.depth = s.th.ctx.depth
  spill : t.th.ctx.spill = s.th.ctx.spill
  dphase : t.th.ctx.dphase = s.th.ctx.dphase
  trap : t.th.trap = s.th.trap
  inHandler : t.th.ctx.inH = s.th.ctx.inH
  gstat : t.th.gstat = s.th.gstat
  specReg : t.th.spec.slvl = s.th.spec.slvl ∧ t.th.spec.fix = s.th.spec.fix
  counts : t.th.rbk = s.th.rbk ∧ t.th.ncmt = s.th.ncmt ∧ t.th.nesc = s.th.nesc
  place : t.th.place = s.th.place
  ident : t.th.id = s.th.id

/-- No register but those of `ds`, no predicate, flag, special register or byte of memory changes. -/
structure UnchangedBut (ds : List Reg) (s t : State) : Prop where
  regs : SameRegsBut ds s t
  preds : SamePredsBut [] s t
  fpst : t.th.ctx.fpst = s.th.ctx.fpst
  specials : SameSpecials s t
  memory : SameMemory s t

/-- Access `a` of the instruction at pc has joined the focus thread's accesses: its counter has stepped, and no predicate, flag,
special register or byte of memory has changed (R70, R71, R238). -/
structure Joins (s t : State) (a : Access) : Prop where
  accs : t.th.accs = s.th.accs ++ [a]
  ops : t.th.ops = s.th.ops
  snap : a.snap = s.th.ctx
  iaddr : a.iaddr = s.th.ctx.pc
  count : t.th.ctx.icount = s.th.ctx.icount + 1
  counter : dcGet t.th a.dc = dcGet s.th a.dc + (if a.dc.val < 6 then 1 else 0)
  others : ∀ d : Fin 7, d ≠ a.dc → dcGet t.th d = dcGet s.th d
  preds : SamePredsBut [] s t
  fpst : t.th.ctx.fpst = s.th.ctx.fpst
  specials : SameSpecials s t
  memory : SameMemory s t

/-- Everything outside the threads is as before. -/
structure SameDevice (s t : State) : Prop where
  clusters : t.clusters = s.clusters
  launches : t.launches = s.launches
  cores : t.cores = s.cores
  mem : t.mem = s.mem
  xl : t.xl = s.xl
  fab : t.fab = s.fab
  coll0 : t.coll0 = s.coll0
  coll1 : t.coll1 = s.coll1
  ctl : t.ctl = s.ctl
  out : t.out = s.out

/-- A thread without its merge hold. -/
def Thread.unheld (t : Thread) : Thread := { t with held := none }

/-- `t` differs from `s` at most in where the focus thread stands and what it awaits (its position, loops and repeat, waits,
hold and yield), and in the holds of other threads. -/
structure Moved (s t : State) : Prop where
  same : t = { s with
    th := { s.th with held := t.th.held, yielded := t.th.yielded,
                      ctx := { s.th.ctx with pc := t.th.ctx.pc, clh := t.th.ctx.clh, cend := t.th.ctx.cend,
                                             ri := t.th.ctx.ri, rep := t.th.ctx.rep, lv0 := t.th.ctx.lv0,
                                             lv1 := t.th.ctx.lv1, lv2 := t.th.ctx.lv2, ld := t.th.ctx.ld,
                                             wmask := t.th.ctx.wmask, wfrom := t.th.ctx.wfrom, drain := t.th.ctx.drain,
                                             icount := t.th.ctx.icount, wend := t.th.ctx.wend } },
    pool := t.pool }
  others : t.pool.map Thread.unheld = s.pool.map Thread.unheld

/-- The focus thread has issued the instruction at pc and stands at the next one (R59, R62, R72, R76). -/
def advance (s : State) : State := goOn (issued s) (instrLen s)

/-- The focus thread after a register operation: its registers changed by `g`, and standing at the next instruction. -/
def State.after (s : State) (g : Ctx → Ctx) : State := advance (modCtx s g)

/-- Register `d` holds `v`, and the thread stands at the next instruction. -/
def State.afterReg (s : State) (d : Reg) (v : Word) : State := s.after fun c => c.setReg d v

/-- Pair `d` holds `v`. -/
def State.afterPair (s : State) (d : Reg) (v : DWord) : State := s.after fun c => c.setPair d v

/-- Predicate `p` holds `v`. -/
def State.afterPred (s : State) (p : Pred) (v : Bool) : State := s.after fun c => c.setPred p v

/-- Register `d` holds the low word of `r.1`, and the flags `r.2` are OR-ed into c.fpst (R113). -/
def State.afterF (s : State) (d : Reg) (r : Nat × Word) : State :=
  s.after fun c => { c.setReg d (BitVec.ofNat 32 r.1) with fpst := c.fpst ||| r.2 }

/-- The focus thread could issue, its port serving it: it stands inside a clause, awaits nothing and holds no trap back. -/
structure State.Issuing (s : State) (rest : List Tid) : Prop where
  served : s.bundle = s.th.id :: rest
  may : mayIssue s = true
  entry : s.th.entryPend = false
  pend : s.th.pend = none
  inside : s.th.ctx.pc ≠ s.th.ctx.clh

/-- `x` kept within `lo` and `hi`: sat of R49 for an integer type. -/
def clampTo (lo hi x : Int) : Int := if hi < x then hi else if x < lo then lo else x

/-! ## Forms of instructions -/

/-- The guard of an instruction that does nothing under a false one (R11): every guarded instruction but `loop`, `rpt`, and, as an
odd pair at W = 16 comes before the guard, `qblk` and `dqblk`. -/
def guardOf (i : Instr) : Option Pred :=
  match i with
  | .add f _ | .sub f _ | .mul f | .mulh f _ | .mad f _ | .div f _ | .rem f _ | .min f _ | .max f _ | .and f | .or f | .xor f
  | .andn f | .shl f | .shr f | .sar f | .rot f _ | .bfx f _ | .bfi f | .sel f _ _ | .lea f _ | .add64 f | .sub64 f | .lea64 f _
  | .fadd f _ | .fsub f _ | .fmul f _ | .ffma f _ _ | .fmin f | .fmax f | .hadd2 f _ | .hmul2 f _ | .hfma2 f _ _ | .shfl f _ _ _ => some f.p
  | .abs f _ | .neg f _ | .not f | .clz f | .popc f | .brev f | .mov f | .mov64 f | .fabs f _ | .fneg f _ | .fcls f _ | .frnd f _
  | .fcvt f _ _ | .fcvtSat f _ _ | .pkq f _ _ _ | .upk f _ | .vote f _ _ | .gred f _ _ | .gscan f _ _ _ => some f.p
  | .addImm f | .andImm f | .orImm f | .xorImm f | .shlImm f | .shrImm f | .sarImm f => some f.p
  | .icmp f _ | .icmp64 f _ | .fcmp f _ => some f.p
  | .pand f | .por f | .pxor f => some f.p
  | .bra f | .brm f | .call f => some f.p
  | .rcp f | .rsq f | .sqrt f | .ex2 f | .lg2 f | .sinpi f | .cospi f | .tanh f | .sigm f | .gelu f | .silu f | .erf f
  | .ldN8 f _ | .ldS8 f _ | .ldN16 f _ | .ldS16 f _ | .ldB32 f _ | .ldB64 f _ | .ldB128 f _ | .stB8 f _ | .stB16 f _ | .stB32 f _
  | .stB64 f _ | .stB128 f _ | .tqPush f _ | .tqSteal f _ | .barInit f _ | .barExp f _ | .barArr f _ | .barWait f _ | .barTest f _
  | .rlq f _ | .mcst f _ _ _ | .mcldRed f _ _ _ _ | .collArm f _ | .collWait f | .shfSide f _ _ | .shfPost f _ | .shfWait f => some f.p
  | .atomAdd f _ | .atomMin f _ | .atomMax f _ | .atomAnd f _ | .atomOr f _ | .atomXor f _ | .atomExch f _ | .atomCas f _ _
  | .atomFadd f _ => some f.f.p
  | .mmaBf16 f _ _ | .mmaF16 f _ _ | .mmaE4m3 f _ _ | .mmaE5m2 f _ _ | .mmaT8 f _ _ | .mmaT6 f _ | .mmaMx8 f _ _ | .mmaMx6 f _ _
  | .mmaMx4 f _ _ | .mmaI8 f _ _ => some f.p
  | .movi p _ _ _ | .icmpImm p _ _ _ _ | .pnot p _ _ _ | .pmov p _ _ _ | .jmp p _ | .callr p _ | .ret p | .exit p | .lexit p _
  | .wait p _ | .yld p | .brk p _ | .trap p _ | .crd p _ _ | .cwr p _ _ | .cmt p | .tret p | .spec p _ _ _ | .gsync p _
  | .red p _ _ _ _ _ _ _ _ | .tbar p _ _ _ | .cbar p _ _ _ | .tqPop p _ _ _ _ | .accZero p _ | .accLd p _ _ _ _ _
  | .accSt p _ _ _ _ _ _ | .accRd p _ _ _ | .accWr p _ _ _ | .accCvt p _ _ _ _ _ _ _ | .xcp p _ _ _ _ _ | .xcpq p _ _ _ _ _ _ => some p
  | _ => none

/-- A register operation that ORs flags into c.fpst. -/
def setsFlags (i : Instr) : Bool :=
  match i with
  | .fadd _ _ | .fsub _ _ | .fmul _ _ | .ffma _ _ _ | .fmin _ | .fmax _ | .hadd2 _ _ | .hmul2 _ _ | .hfma2 _ _ _ | .frnd _ _
  | .fcmp _ _ | .fcvt _ _ _ | .fcvtSat _ _ _ | .pkq _ _ _ _ | .upk _ _ => true
  | _ => false

/-- The instruction of a special function (R128). -/
def sfuInstr (k : Sfu) (f : FmtC) : Instr :=
  match k with
  | .rcp => .rcp f | .rsq => .rsq f | .sqrt => .sqrt f | .ex2 => .ex2 f | .lg2 => .lg2 f | .sinpi => .sinpi f
  | .cospi => .cospi f | .tanh => .tanh f | .sigm => .sigm f | .gelu => .gelu f | .silu => .silu f | .erf => .erf f

/-- R104: a load's fields, its size, its extension and the registers it writes. -/
def loadForm (i : Instr) : Option (FmtC × Option XM × Nat × LoadExt × List Reg) :=
  match i with
  | .ldN8 f x => some (f, x, 1, .zext, [f.d])
  | .ldS8 f x => some (f, x, 1, .sext, [f.d])
  | .ldN16 f x => some (f, x, 2, .zext, [f.d])
  | .ldS16 f x => some (f, x, 2, .sext, [f.d])
  | .ldB32 f x => some (f, x, 4, .zext, [f.d])
  | .ldB64 f x => some (f, x, 8, .zext, if f.d = 0 then [] else [f.d, plusReg f.d 1])
  | .ldB128 f x => some (f, x, 16, .zext, [f.d, plusReg f.d 1, plusReg (plusReg f.d 1) 1, plusReg (plusReg (plusReg f.d 1) 1) 1])
  | _ => none

/-- R104: a store's fields and the bytes that it takes from the registers. -/
def storeForm (c : Ctx) (i : Instr) : Option (FmtC × Option XM × List Byte) :=
  match i with
  | .stB8 f x => some (f, x, bytesOfNat 1 (c.reg f.d).toNat)
  | .stB16 f x => some (f, x, bytesOfNat 2 (c.reg f.d).toNat)
  | .stB32 f x => some (f, x, bytesOfNat 4 (c.reg f.d).toNat)
  | .stB64 f x => some (f, x, bytesOfNat 8 (c.pair f.d).toNat)
  | .stB128 f x => some (f, x, bytesOf (c.regs f.d 4))
  | _ => none

/-- Operand of an atomic: its pair, or its register below zeros. -/
def atomWord (c : Ctx) (wide : Bool) (r : Reg) : DWord := if wide then c.pair r else (c.reg r).zeroExtend 64

/-- R186, R189: guard, counter, address, operation with its operands, and size of an atomic or a reduce-store. -/
def atomForm (c : Ctx) (i : Instr) : Option (Pred × Fin 7 × DWord × AccKind × Nat) :=
  let mk (f : AtomF) (op : AtomOp) (wide : Bool) (e : Reg) : Option (Pred × Fin 7 × DWord × AccKind × Nat) :=
    let n := if wide then 8 else 4
    some (f.f.p, f.f.dc, eaOff c f.f.a f.off, .atom op n (atomWord c wide f.c) (atomWord c wide e) f.f.d, n)
  let signed (t : IntTy) (a b : AtomOp) : AtomOp := if t = .s32 ∨ t = .s64 then a else b
  match i with
  | .atomAdd f t => mk f (signed t .addS .addN) t.wide 0
  | .atomMin f t => mk f (signed t .minS .minN) t.wide 0
  | .atomMax f t => mk f (signed t .maxS .maxN) t.wide 0
  | .atomAnd f t => mk f .and t.wide 0
  | .atomOr f t => mk f .or t.wide 0
  | .atomXor f t => mk f .xor t.wide 0
  | .atomExch f t => mk f .exch t.wide 0
  | .atomCas f e t => mk f .cas t.wide e
  | .atomFadd f t => mk f (if t = .f32 then .fadd32 else .faddBf) false 0
  | .red p op len a _ dc r t off =>
    let n := redWords len
    some (p, dc, eaOff c a off, .red op (decide (t = .bf16x2)) (c.regs r n), 4 * n)
  | _ => none

/-- R177, R255: guard and mask field of a group-collective or matrix instruction; field 0 is the whole group. -/
def groupForm (i : Instr) : Option (Pred × Reg) :=
  match i with
  | .shfl f _ _ k => some (f.p, k)
  | .vote f _ k | .gred f _ k | .gscan f _ _ k => some (f.p, k)
  | .gsync p k => some (p, k)
  | .qblk f _ _ _ _ k | .dqblk f _ _ _ k => some (f.p, k)
  | .mmaBf16 f _ _ | .mmaF16 f _ _ | .mmaE4m3 f _ _ | .mmaE5m2 f _ _ | .mmaT8 f _ _ | .mmaT6 f _ | .mmaMx8 f _ _ | .mmaMx6 f _ _
  | .mmaMx4 f _ _ | .mmaI8 f _ _ => some (f.p, 0)
  | .accZero p _ | .accLd p _ _ _ _ _ | .accSt p _ _ _ _ _ _ | .accRd p _ _ _ | .accWr p _ _ _
  | .accCvt p _ _ _ _ _ _ _ => some (p, 0)
  | _ => none

/-- R126, R127: at W = 16 the element registers of `qblk` and `dqblk` are a pair, here an odd one. -/
def oddPairAt (w : Nat) (i : Instr) : Bool :=
  match i with
  | .qblk f _ _ _ _ _ => w == 16 && f.a.val % 2 == 1
  | .dqblk f _ _ _ _ => w == 16 && f.d.val % 2 == 1
  | _ => false

/-! ## The canonical form of every memory -/

/-- Addresses strictly rise, and no listed byte is what an unlisted one reads as (log 2). -/
structure State.Canonical (s : State) : Prop where
  hbm : Mem.wf s.mem.hbm = true
  spads : ∀ k ∈ s.clusters, ∀ v ∈ k.slots, Mem.wf v.bytes = true
  member : Mem.wf s.fab.member = true
  groups : Mem.wf s.fab.groups = true

end Sys2Proof.Machine
end

