-- ==== Sys2Proof/Certificates/Slice0/Obligations.lean ====
section
/-! DEFINITION. The statements for the provers, each from the numbered rules of spec/ that its docstring names. -/

open Sys2Proof Sys2Proof.Machine

/-! ## Encoding and the step -/

/-- R60 to R68: decoding an encoded well-formed instruction gives it back. -/
def Obligations.DecodeEncodeRoundTrip : Prop :=
  ∀ i : Instr, i.isProgram = true → Instr.wf i = true →
    decodeWord (encodeWord i) ((encodeExt i).getD 0) = some i ∧ hasExt (encodeWord i) = (encodeExt i).isSome

/-- R63 to R68: a word is the encoding of the instruction that it decodes to, so no two words mean the same. -/
def Obligations.EncodeDecodeRoundTrip : Prop :=
  ∀ (w : BitVec 32) (x : BitVec 32) (i : Instr), (hasExt w.toNat = true ∨ x = 0) → decodeWord w.toNat x.toNat = some i →
    Instr.wf i = true ∧ encodeWord i = w.toNat ∧ (encodeExt i).getD 0 = x.toNat

/-- Words that the spec writes out, with the instruction it gives for each (R89, R90, R92, R96, R148, R252). -/
def Obligations.DecodeWords : Prop :=
  decodeWord 0x06F61968 0 = some (.div ⟨15, 24, 25, 26⟩ .s)
    ∧ decodeWord 0x07F61969 0 = some (.rem ⟨15, 24, 25, 26⟩ .n)
    ∧ decodeWord 0x15F6DC75 0 = some (.bfx ⟨15, 27, 28, 29⟩ .s)
    ∧ decodeWord 0x21F16192 0 = some (.icmp ⟨15, 1, 24, 25⟩ .ltS)
    ∧ decodeWord 0x23F31240 0 = some (.pand ⟨15, 3, 1, 2, false, true⟩)
    ∧ decodeWord 0x1AF69864 0x00002000 = some (.sel ⟨15, 26, 24, 25⟩ false 2)
    ∧ decodeWord 0x3CF00000 0 = some (.yld 15)
    ∧ decodeWord 0xE2F00000 0 = some (.cmt 15)
    ∧ decodeWord 0x3CF00001 0 = none
    ∧ decodeWord 0x01F00003 0 = none

/-- R11, R59 to R64, R72, R111, R147: the thread that its port serves runs the instruction that the word at its pc decodes to, after the
steps of its repeat prefix, once the interlock lets it, and waits till then; `bundle` is the threads still to be served. A repeat
prefix takes no issue of its own: the instruction that it governs issues with it. R61, R62, R326: at a header not yet entered the step
enters the clause, and its first instruction issues with the entry; a handler's entry and a trap held over come before it. -/
def Obligations.StepRunsDecoded : Prop :=
  (∀ (s : State) (rest : List Tid) (w : Word) (w' x : Nat), s.Issuing rest →
     fetchWord s s.th s.th.ctx.pc = .ok w → stepped s.th.ctx w.toNat = some w' →
     fetchExt s s.th.ctx.pc w' = .ok x →
     let s1 : State := { s with bundle := rest }
     (interlock s w' x = true → Sys2Proof.Machine.step s = .next s1)
       ∧ (interlock s w' x = false →
         (∀ i, decodeWord w' x = some i →
             Sys2Proof.Machine.step s = (match exec i s1 with
                 | .next u => if s.th.ctx.rep.isNone && u.th.ctx.rep.isSome then issueInstr u else .next u
                 | o => o)
               ∧ (s.th.ctx.rep ≠ none → Sys2Proof.Machine.step s = exec i s1)
               ∧ (∀ u, exec i s1 = .next u → u.th.ctx.rep = none → Sys2Proof.Machine.step s = .next u))
           ∧ (decodeWord w' x = none → Sys2Proof.Machine.step s = illegal s1)))
    ∧ (∀ (s : State) (rest : List Tid), s.bundle = s.th.id :: rest →
         let s1 : State := { s with bundle := rest }
         (mayIssue s = false → Sys2Proof.Machine.step s = .next s1)
           ∧ (mayIssue s = true → s.th.entryPend = true → Sys2Proof.Machine.step s = .next (enterHandler s1))
           ∧ (∀ e, mayIssue s = true → s.th.entryPend = false → s.th.pend = some e →
               Sys2Proof.Machine.step s
                 = .next (if s.th.accs.isEmpty then takeExc (modTh s1 fun t => { t with pend := none }) e else s1))
           ∧ (∀ u, mayIssue s = true → s.th.entryPend = false → s.th.pend = none → s.th.ctx.pc = s.th.ctx.clh →
               enterClause s1 = .next u →
                 (hasEntered s1 u = true → Sys2Proof.Machine.step s = issuePrefixed u)
                   ∧ (hasEntered s1 u = false → Sys2Proof.Machine.step s = .next u)))

/-- R29, R231, R250, R374, R379, R411, R412, R414, R417, R420: what reset leaves, of the values that the spec gives. -/
def Obligations.ResetValues : Prop :=
  let s := State.reset
  s.ctl.up = false ∧ s.ctl.queues.length = 16 ∧ s.ctl.keys = []
    ∧ s.ctl.kcmd = 0 ∧ s.ctl.clk = 1500 ∧ s.ctl.pcap = 3600 ∧ s.ctl.ceSram = 0 ∧ s.ctl.ueCnt = 0 ∧ s.mem.ceHbm = 0
    ∧ (∀ h ∈ s.ctl.harts, h.keyReg = 0 ∧ h.fault.v = false)
    ∧ (∀ u ∈ s.ctl.loupe, u.ctl = 0 ∧ u.min = 0xFFFFFFFF ∧ u.max = 0 ∧ u.cnt = 0)
    ∧ s.fab.tlog = 20 ∧ s.fab.prism = 0 ∧ s.fab.iflBase = 0 ∧ s.fab.iflHead = 0 ∧ s.fab.iflDrop = 0
    ∧ (∀ p ∈ s.fab.ports, p.st = .down) ∧ s.xl.invCtl = 0x10000000
    ∧ (getCore s 0).cyc = 0 ∧ s.th.specWord = 0x00083300

/-- The memories of the reset state are in canonical form.
What an unlisted byte reads as is the model's choice (log 2). -/
def Obligations.ResetCanonical : Prop := State.reset.Canonical

/-- Every step keeps every memory in canonical form: addresses rise, and no listed byte is what an unlisted one reads as.
The canonical form and what an unlisted byte reads as are the model's choice (log 2). -/
def Obligations.StepKeepsCanonical : Prop :=
  ∀ s t : State, s.Canonical → Sys2Proof.Machine.step s = .next t → t.Canonical

/-! ## Guards and registers -/

/-- R11: under a false guard an instruction only advances the thread to the next instruction: no register, predicate, special
register, counter or byte of memory changes. -/
def Obligations.FalseGuardAdvances : Prop :=
  ∀ (s : State) (i : Instr) (p : Pred), guardOf i = some p → s.th.ctx.pred p = false →
    exec i s = .next (advance s) ∧ Moved s (advance s)

/-- R10: g0 and the pair g0d read as zero and discard writes, also of g1 by the pair; p15 reads true and discards writes; a
16-byte load whose first register is g0 writes g1, g2 and g3. -/
def Obligations.HardwiredRegisters : Prop :=
  ∀ (c : Ctx) (v : Word) (d : DWord) (b : Bool) (w0 w1 w2 w3 : Word),
    c.reg 0 = 0 ∧ c.setReg 0 v = c ∧ c.pair 0 = 0 ∧ c.setPair 0 d = c ∧ c.pred 15 = true ∧ c.setPred 15 b = c
      ∧ (let t := c.setRegs 0 [w0, w1, w2, w3]
         t.reg 0 = 0 ∧ t.reg 1 = w1 ∧ t.reg 2 = w2 ∧ t.reg 3 = w3)

/-! ## Integer instructions -/

/-- R89: the result of each integer arithmetic instruction, at every operand; every form completes. R89: `abs` and `neg`, with and without saturation. -/
def Obligations.WordArithmetic : Prop :=
  (∀ (s : State) (f : FmtA) (c : Reg), s.th.ctx.pred f.p = true →
     let a := s.th.ctx.reg f.a
     let b := s.th.ctx.reg f.b
     exec (.add f .wrap) s = .next (s.afterReg f.d (a + b))
       ∧ exec (.add f .satS) s = .next (s.afterReg f.d (BitVec.ofInt 32 (clampTo (-2 ^ 31) (2 ^ 31 - 1) (a.toInt + b.toInt))))
       ∧ exec (.add f .satN) s = .next (s.afterReg f.d (BitVec.ofInt 32 (clampTo 0 (2 ^ 32 - 1) ((a.toNat : Int) + b.toNat))))
       ∧ exec (.sub f .wrap) s = .next (s.afterReg f.d (a - b))
       ∧ exec (.sub f .satS) s = .next (s.afterReg f.d (BitVec.ofInt 32 (clampTo (-2 ^ 31) (2 ^ 31 - 1) (a.toInt - b.toInt))))
       ∧ exec (.sub f .satN) s = .next (s.afterReg f.d (BitVec.ofInt 32 (clampTo 0 (2 ^ 32 - 1) ((a.toNat : Int) - b.toNat))))
       ∧ exec (.mul f) s = .next (s.afterReg f.d (a * b))
       ∧ exec (.mulh f .s) s = .next (s.afterReg f.d ((a.signExtend 64 * b.signExtend 64).extractLsb' 32 32))
       ∧ exec (.mulh f .n) s = .next (s.afterReg f.d ((a.zeroExtend 64 * b.zeroExtend 64).extractLsb' 32 32))
       ∧ exec (.mad f c) s = .next (s.afterReg f.d (a * b + s.th.ctx.reg c))
       ∧ exec (.min f .s) s = .next (s.afterReg f.d (BitVec.ofInt 32 (Min.min a.toInt b.toInt)))
       ∧ exec (.min f .n) s = .next (s.afterReg f.d (BitVec.ofNat 32 (Min.min a.toNat b.toNat)))
       ∧ exec (.max f .s) s = .next (s.afterReg f.d (BitVec.ofInt 32 (Max.max a.toInt b.toInt)))
       ∧ exec (.max f .n) s = .next (s.afterReg f.d (BitVec.ofNat 32 (Max.max a.toNat b.toNat))))
    ∧ (∀ (s : State) (f : FmtU), s.th.ctx.pred f.p = true →
         let a := (s.th.ctx.reg f.a).toInt
         exec (.abs f false) s = .next (s.afterReg f.d (BitVec.ofInt 32 a.natAbs))
           ∧ exec (.abs f true) s = .next (s.afterReg f.d (BitVec.ofInt 32 (clampTo (-2 ^ 31) (2 ^ 31 - 1) (a.natAbs : Int))))
           ∧ exec (.neg f false) s = .next (s.afterReg f.d (BitVec.ofInt 32 (-a)))
           ∧ exec (.neg f true) s = .next (s.afterReg f.d (BitVec.ofInt 32 (clampTo (-2 ^ 31) (2 ^ 31 - 1) (-a)))))

/-- R90: `div` and `rem` on every pair of operands. -/
def Obligations.DivisionRemainder : Prop :=
  ∀ (s : State) (f : FmtA) (m : Sgn), s.th.ctx.pred f.p = true →
    let v (r : Reg) : Int := if m = .s then (s.th.ctx.reg r).toInt else (s.th.ctx.reg r).toNat
    let x := v f.a
    let y := v f.b
    ∃ q r : Int,
      exec (.div f m) s = .next (s.afterReg f.d (BitVec.ofInt 32 q))
        ∧ exec (.rem f m) s = .next (s.afterReg f.d (BitVec.ofInt 32 r))
        ∧ (y = 0 → q = -1 ∧ r = x)
        ∧ (y ≠ 0 → m = .s ∧ x = -2 ^ 31 ∧ y = -1 → BitVec.ofInt 32 q = BitVec.ofInt 32 (-2 ^ 31) ∧ r = 0)
        ∧ (y ≠ 0 → ¬(m = .s ∧ x = -2 ^ 31 ∧ y = -1) →
            x = q * y + r ∧ r.natAbs < y.natAbs ∧ (0 ≤ x → 0 ≤ r) ∧ (x ≤ 0 → r ≤ 0))

/-- R91, R92: the result of each logic, shift and bit instruction. A field lies at `pos`, `len` bits long, both at most 32. -/
def Obligations.LogicShiftBits : Prop :=
  ∀ (s : State) (f : FmtA) (u : FmtU), s.th.ctx.pred f.p = true → s.th.ctx.pred u.p = true →
    let a := s.th.ctx.reg f.a
    let b := s.th.ctx.reg f.b
    let d := s.th.ctx.reg f.d
    let e := s.th.ctx.reg u.a
    let pos := Min.min (b.toNat % 256) 32
    let len := Min.min (b.toNat / 256 % 256) 32
    exec (.and f) s = .next (s.afterReg f.d (a &&& b))
      ∧ exec (.or f) s = .next (s.afterReg f.d (a ||| b))
      ∧ exec (.xor f) s = .next (s.afterReg f.d (a ^^^ b))
      ∧ exec (.andn f) s = .next (s.afterReg f.d (a &&& ~~~b))
      ∧ exec (.not u) s = .next (s.afterReg u.d (~~~e))
      ∧ exec (.shl f) s = .next (s.afterReg f.d (BitVec.ofNat 32 (a.toNat * 2 ^ b.toNat)))
      ∧ exec (.shr f) s = .next (s.afterReg f.d (BitVec.ofNat 32 (a.toNat / 2 ^ b.toNat)))
      ∧ exec (.sar f) s = .next (s.afterReg f.d (BitVec.ofInt 32 (a.toInt / 2 ^ b.toNat)))
      ∧ (∃ v : Word, exec (.rot f false) s = .next (s.afterReg f.d v)
          ∧ ∀ i, i < 32 → v.getLsbD ((i + b.toNat) % 32) = a.getLsbD i)
      ∧ (∃ v : Word, exec (.rot f true) s = .next (s.afterReg f.d v)
          ∧ ∀ i, i < 32 → v.getLsbD i = a.getLsbD ((i + b.toNat) % 32))
      ∧ (∃ v : Word, exec (.bfx f .n) s = .next (s.afterReg f.d v)
          ∧ ∀ i, i < 32 → v.getLsbD i = (decide (i < len) && a.getLsbD (pos + i)))
      ∧ (∃ v : Word, exec (.bfx f .s) s = .next (s.afterReg f.d v)
          ∧ ∀ i, i < 32 → v.getLsbD i = (decide (0 < len) && a.getLsbD (Min.min 31 (pos + Min.min i (len - 1)))))
      ∧ (∃ v : Word, exec (.bfi f) s = .next (s.afterReg f.d v)
          ∧ ∀ i, i < 32 → v.getLsbD i = if pos ≤ i ∧ i < pos + len then a.getLsbD (i - pos) else d.getLsbD i)
      ∧ (∃ n : Nat, exec (.clz u) s = .next (s.afterReg u.d (BitVec.ofNat 32 n)) ∧ n ≤ 32 ∧ e.toNat < 2 ^ (32 - n)
          ∧ (n < 32 → 2 ^ (31 - n) ≤ e.toNat))
      ∧ exec (.popc u) s = .next (s.afterReg u.d (BitVec.ofNat 32 ((List.range 32).countP fun i => e.getLsbD i)))
      ∧ (∃ v : Word, exec (.brev u) s = .next (s.afterReg u.d v) ∧ ∀ i, i < 32 → v.getLsbD i = e.getLsbD (31 - i))

/-- R93: moves, selection and addresses. R94: the immediate forms. -/
def Obligations.MovesAddressesImmediates : Prop :=
  (∀ (s : State) (f : FmtA) (u : FmtU) (p sp : Pred) (d : Reg) (k : Fin 4) (lit : Word),
     s.th.ctx.pred f.p = true → s.th.ctx.pred u.p = true → s.th.ctx.pred p = true →
     let c := s.th.ctx
     exec (.mov u) s = .next (s.afterReg u.d (c.reg u.a))
       ∧ exec (.mov64 u) s = .next (s.afterPair u.d (c.pair u.a))
       ∧ exec (.movi p d .b32 lit) s = .next (s.afterReg d lit)
       ∧ exec (.movi p d .s64 lit) s = .next (s.afterPair d (lit.signExtend 64))
       ∧ exec (.movi p d .n64 lit) s = .next (s.afterPair d (lit.zeroExtend 64))
       ∧ exec (.sel f false sp) s = .next (s.afterReg f.d (if c.pred sp then c.reg f.a else c.reg f.b))
       ∧ exec (.sel f true sp) s = .next (s.afterPair f.d (if c.pred sp then c.pair f.a else c.pair f.b))
       ∧ exec (.lea f k) s = .next (s.afterReg f.d (c.reg f.a + c.reg f.b * BitVec.ofNat 32 (2 ^ k.val)))
       ∧ exec (.add64 f) s = .next (s.afterPair f.d (c.pair f.a + c.pair f.b))
       ∧ exec (.sub64 f) s = .next (s.afterPair f.d (c.pair f.a - c.pair f.b))
       ∧ exec (.lea64 f k) s = .next (s.afterPair f.d (c.pair f.a + (c.reg f.b).signExtend 64 * BitVec.ofNat 64 (2 ^ k.val))))
    ∧ (∀ (s : State) (f : FmtB), s.th.ctx.pred f.p = true →
         let a := s.th.ctx.reg f.a
         exec (.addImm f) s = .next (s.afterReg f.d (BitVec.ofInt 32 (a.toInt + f.i.toInt)))
           ∧ exec (.andImm f) s = .next (s.afterReg f.d (BitVec.ofNat 32 (a.toNat &&& f.i.toNat)))
           ∧ exec (.orImm f) s = .next (s.afterReg f.d (BitVec.ofNat 32 (a.toNat ||| f.i.toNat)))
           ∧ exec (.xorImm f) s = .next (s.afterReg f.d (BitVec.ofNat 32 (a.toNat ^^^ f.i.toNat)))
           ∧ exec (.shlImm f) s = .next (s.afterReg f.d (BitVec.ofNat 32 (a.toNat * 2 ^ f.i.toNat)))
           ∧ exec (.shrImm f) s = .next (s.afterReg f.d (BitVec.ofNat 32 (a.toNat / 2 ^ f.i.toNat)))
           ∧ exec (.sarImm f) s = .next (s.afterReg f.d (BitVec.ofInt 32 (a.toInt / 2 ^ f.i.toNat))))

/-- R95: what a condition code says of two values. -/
def condHolds (cc : Cond) {w : Nat} (a b : BitVec w) : Prop :=
  match cc with
  | .eq => a = b
  | .ne => a ≠ b
  | .ltS => a.toInt < b.toInt
  | .leS => a.toInt ≤ b.toInt
  | .gtS => a.toInt > b.toInt
  | .geS => a.toInt ≥ b.toInt
  | .ltN => a.toNat < b.toNat
  | .leN => a.toNat ≤ b.toNat
  | .gtN => a.toNat > b.toNat
  | .geN => a.toNat ≥ b.toNat
  | .tst => a &&& b ≠ 0
  | .ntst => a &&& b = 0

/-- R95: the integer compares write pd; with pd = 15 the result is discarded. -/
def Obligations.IntegerCompares : Prop :=
  ∀ (s : State) (f : FmtP) (p pd : Pred) (a : Reg) (i : BitVec 6) (cc : Cond),
    s.th.ctx.pred f.p = true → s.th.ctx.pred p = true →
    let c := s.th.ctx
    (∃ v : Bool, exec (.icmp f cc) s = .next (s.afterPred f.pd v) ∧ (v = true ↔ condHolds cc (c.reg f.a) (c.reg f.b)))
      ∧ (∃ v : Bool, exec (.icmp64 f cc) s = .next (s.afterPred f.pd v) ∧ (v = true ↔ condHolds cc (c.pair f.a) (c.pair f.b)))
      ∧ (∃ v : Bool, exec (.icmpImm p pd a i cc) s = .next (s.afterPred pd v)
          ∧ (v = true ↔ condHolds cc (c.reg a) (BitVec.ofInt 32 i.toInt)))
      ∧ (f.pd = 15 → ∀ v, s.afterPred f.pd v = advance s)

/-- R96: predicate logic. -/
def Obligations.PredicateLogic : Prop :=
  ∀ (s : State) (f : FmtQ) (p pd pa : Pred) (na : Bool), s.th.ctx.pred f.p = true → s.th.ctx.pred p = true →
    let x := xor (s.th.ctx.pred f.pa) f.na
    let y := xor (s.th.ctx.pred f.pb) f.nb
    let z := xor (s.th.ctx.pred pa) na
    exec (.pand f) s = .next (s.afterPred f.pd (x && y))
      ∧ exec (.por f) s = .next (s.afterPred f.pd (x || y))
      ∧ exec (.pxor f) s = .next (s.afterPred f.pd (xor x y))
      ∧ exec (.pnot p pd pa na) s = .next (s.afterPred pd (!z))
      ∧ exec (.pmov p pd pa na) s = .next (s.afterPred pd z)

/-- R59, R62, R113: a register operation of classes 0 and 1 changes only the registers and predicates it names, c.fpst where it
sets flags, c.dphase where it dithers, and the thread's position; no byte of memory and nothing outside the threads. -/
def Obligations.RegisterOperationFrame : Prop :=
  ∀ (s t : State) (i : Instr) (ds : List Reg) (ps : List Pred), regEffect i = some (ds, ps) → exec i s = .next t →
    SameRegsBut ds s t ∧ SamePredsBut ps s t ∧ SameMemory s t ∧ SameDevice s t ∧ t.th.accs = s.th.accs ∧ t.th.ops = s.th.ops
      ∧ t.th.dc = s.th.dc ∧ t.th.trap = s.th.trap ∧ t.th.spec = s.th.spec ∧ t.th.ctx.res = s.th.ctx.res
      ∧ t.th.ctx.depth = s.th.ctx.depth ∧ t.th.ctx.spill = s.th.ctx.spill ∧ t.th.ctx.inH = s.th.ctx.inH
      ∧ t.th.ctx.latch = s.th.ctx.latch ∧ (setsFlags i = false → t.th.ctx.fpst = s.th.ctx.fpst) ∧ (dithers i = false → t.th.ctx.dphase = s.th.ctx.dphase)

/-! ## Floating point -/

/-- R117, R118: `fabs` and `fneg` act on bits, and `fcls` sets the one bit of the value's class, in each format: of its magnitude above
the infinity a NaN, quiet where the top fraction bit is set, else by sign an infinity, a zero, a subnormal or a normal number; none sets
a flag. R120: what each relation of `fcmp` says of two .f32 values, and NV. Of values that are no NaN the order is that of their signed
magnitudes, both zeros being equal, and no flag is set; with a NaN only NE and UN hold, and NV is set by LT, LE, GT and GE, and by every
relation where a NaN is signalling. -/
def Obligations.FloatBitsAndCompares : Prop :=
  (∀ (s : State) (f : FmtU) (m : ClsFmt), s.th.ctx.pred f.p = true →
     let a := s.th.ctx.reg f.a
     let n := match m with | .f32 => 32 | .bf16 => 16 | .f16 => 16
     let fb := match m with | .f32 => 23 | .bf16 => 7 | .f16 => 10
     let mag := a.toNat % 2 ^ (n - 1)
     let neg := a.getLsbD (n - 1)
     let inf := 2 ^ (n - 1) - 2 ^ fb
     let k := if inf < mag then (if inf + 2 ^ (fb - 1) ≤ mag then 9 else 8)
       else if mag = inf then (if neg then 0 else 7)
       else if mag = 0 then (if neg then 3 else 4)
       else if mag < 2 ^ fb then (if neg then 2 else 5)
       else (if neg then 1 else 6)
     exec (.fabs f false) s = .next (s.afterReg f.d (a &&& 0x7FFFFFFF))
       ∧ exec (.fabs f true) s = .next (s.afterReg f.d (a &&& 0x7FFF7FFF))
       ∧ exec (.fneg f false) s = .next (s.afterReg f.d (a ^^^ 0x80000000))
       ∧ exec (.fneg f true) s = .next (s.afterReg f.d (a ^^^ 0x80008000))
       ∧ exec (.fcls f m) s = .next (s.afterReg f.d (BitVec.ofNat 32 (2 ^ k))))
    ∧ (∀ (s : State) (f : FmtP) (cc : FCond), s.th.ctx.pred f.p = true →
         let a := s.th.ctx.reg f.a
         let b := s.th.ctx.reg f.b
         let mag (w : Word) : Nat := w.toNat % 2 ^ 31
         let val (w : Word) : Int := if w.getLsbD 31 then -(mag w : Int) else (mag w : Int)
         let nan := 0x7F800000 < mag a ∨ 0x7F800000 < mag b
         let sig := (0x7F800000 < mag a ∧ mag a < 0x7FC00000) ∨ (0x7F800000 < mag b ∧ mag b < 0x7FC00000)
         let loud := cc = .lt ∨ cc = .le ∨ cc = .gt ∨ cc = .ge
         ∃ (v : Bool) (fl : Word),
           exec (.fcmp f cc) s = .next (s.after fun c => { c.setPred f.pd v with fpst := c.fpst ||| fl })
             ∧ (nan → (v = true ↔ cc = .ne ∨ cc = .un) ∧ (loud ∨ sig → fl = 0x100) ∧ (¬loud → ¬sig → fl = 0))
             ∧ (¬nan → fl = 0 ∧ (v = true ↔ (match cc with
                 | .eq => val a = val b
                 | .ne => val a ≠ val b
                 | .lt | .qlt => val a < val b
                 | .le | .qle => val a ≤ val b
                 | .gt | .qgt => val a > val b
                 | .ge | .qge => val a ≥ val b
                 | .un => False
                 | .ord => True))))

/-- R46, R58, R115, R116, R119: a scalar float instruction writes the value rounded once and ORs its flags into c.fpst. The result
functions are the model's (Numeric.lean), each an exact operation and one rounding. -/
def Obligations.FloatScalar : Prop :=
  ∀ (s : State) (f : FmtA) (u : FmtU) (e : Reg) (m : RmSel) (n : FrndSel),
    s.th.ctx.pred f.p = true → s.th.ctx.pred u.p = true →
    let c := s.th.ctx
    let a := numOf .f32 (c.reg f.a).toNat
    let b := numOf .f32 (c.reg f.b).toNat
    let x := numOf .f32 (c.reg e).toNat
    let md := rmSel c m
    let sig := a.sig ||| b.sig
    let done (r : Machine.Num × Word) (g : Word) : Nat × Word :=
      let q := finish .f32 md r
      (q.1, q.2 ||| g)
    exec (.fadd f m) s = .next (s.afterF f.d (done (addNum md.isDn a b) sig))
      ∧ (exec (.fsub f m) s = .next (s.afterF f.d (done (addNum md.isDn a (negNum b)) sig)))
      ∧ exec (.fmul f m) s = .next (s.afterF f.d (done (mulNum a b) sig))
      ∧ exec (.ffma f e m) s = .next (s.afterF f.d (done (fmaNum md.isDn a b x) (sig ||| x.sig)))
      ∧ exec (.fmin f) s = .next (s.afterF f.d (fminmax .f32 false (c.reg f.a).toNat (c.reg f.b).toNat))
      ∧ exec (.fmax f) s = .next (s.afterF f.d (fminmax .f32 true (c.reg f.a).toNat (c.reg f.b).toNat))
      ∧ exec (.frnd u n) s = .next (s.afterF u.d (frndBits (frndSel c n) (c.reg u.a).toNat))
      ∧ (rmSel c .rne = .rne ∧ rmSel c .rz = .rz ∧ rmSel c .fpst = rmOf c.fpst)

/-- R41, R46, R120 to R124: compares, packed arithmetic, conversions, packing and unpacking write their results and OR their flags into
c.fpst; `pkq` under dither steps c.dphase. The result functions are the model's (Flags.lean, Float.lean), each an exact value and one
rounding. -/
def Obligations.FloatConversions : Prop :=
  ∀ (s : State) (f : FmtU) (g : FmtA) (h : FmtP) (e : Reg) (half : Bool) (cc : FCond) (x y : ConvTy) (fmt : PackFmt) (sat dth : Bool),
    s.th.ctx.pred f.p = true → s.th.ctx.pred g.p = true → s.th.ctx.pred h.p = true →
    let c := s.th.ctx
    let fm := halfFmt half
    let md := rmOf c.fpst
    let a := c.reg g.a
    let b := c.reg g.b
    let z := c.reg e
    let els := packElems fmt sat (if dth then some c.dphase.toNat else none) 0 (c.regs f.a fmt.count)
    exec (.fcmp h cc) s = .next (s.after fun c =>
        { c.setPred h.pd (fcmpOf cc (c.reg h.a) (c.reg h.b)).1 with fpst := c.fpst ||| (fcmpOf cc (c.reg h.a) (c.reg h.b)).2 })
      ∧ exec (.hadd2 g half) s = .next (s.afterF g.d
          (packed2 (faddBits fm md (a.toNat % 65536) (b.toNat % 65536)) (faddBits fm md (a.toNat / 65536) (b.toNat / 65536))))
      ∧ exec (.hmul2 g half) s = .next (s.afterF g.d
          (packed2 (fmulBits fm md (a.toNat % 65536) (b.toNat % 65536)) (fmulBits fm md (a.toNat / 65536) (b.toNat / 65536))))
      ∧ exec (.hfma2 g e half) s = .next (s.afterF g.d
          (packed2 (ffmaBits fm md (a.toNat % 65536) (b.toNat % 65536) (z.toNat % 65536))
            (ffmaBits fm md (a.toNat / 65536) (b.toNat / 65536) (z.toNat / 65536))))
      ∧ exec (.fcvt f x y) s = .next (s.after fun c => cvtTo c f.d y false (cvtSrc c x f.a))
      ∧ exec (.fcvtSat f x y) s = .next (s.after fun c => cvtTo c f.d y true (cvtSrc c x f.a))
      ∧ exec (.upk f fmt) s = .next (s.after fun c =>
          let els := (unpackN (packFmt fmt).bits fmt.count (natOfWords (c.regs f.a (packWords fmt)))).map (unpackElem (packFmt fmt))
          (c.setRegs f.d (els.map fun e => wOf e.1)).orFlags (orAll els))
      ∧ exec (.pkq f fmt sat dth) s = .next (s.after fun c =>
          { c.setRegs f.d (wordsOfNat (packWords fmt) (packN (packFmt fmt).bits (els.map (·.1)))) with
            fpst := c.fpst ||| orAll els, dphase := if dth then c.dphase + 1 else c.dphase })

/-- The exact value of a finite number; 0 of any other. -/
def numQ (v : Machine.Num) : ℚ :=
  match v with
  | .fin s m e => (if s then -1 else 1) * (m : ℚ) * (2 : ℚ) ^ e
  | .inf _ => 0
  | .nan _ => 0

/-- R46, R47: `y` is `x` rounded to a multiple of 2^t. -/
def roundsTo (md : Rm) (x : ℚ) (t : Int) (y : ℚ) : Prop :=
  ∃ n : Int, y = n * (2 : ℚ) ^ t ∧ match md with
    | .rne => 2 * |y - x| ≤ (2 : ℚ) ^ t ∧ (2 * |y - x| = (2 : ℚ) ^ t → n % 2 = 0)
    | .rz => |y| ≤ |x| ∧ |x - y| < (2 : ℚ) ^ t
    | .rup => x ≤ y ∧ y < x + (2 : ℚ) ^ t
    | .rdn => y ≤ x ∧ x < y + (2 : ℚ) ^ t
    | .dith _ => True

/-- R47, R50, R56, R58, R115, R116, R119, R122: the functions that O18, O19 and O46 name, by exact values. A sum, a product and a fused
sum are exact; a result within a format's range is the value rounded to the format's precision at its size; minimum and maximum go by
signed magnitude, −0 below +0; `frnd` rounds to an integral value of the same sign; a conversion to an integer rounds a value within the
type's range and clamps any other with NV; packed elements come out as they went in; a slice of a matrix product is the exact sum of its
products, scaled, with one rounding. Where saturation or overflow stands is R48's and the model's reading (log 57), not said here. -/
def Obligations.RoundedValues : Prop :=
  (∀ (rd s s' s'' : Bool) (m m' m'' : Nat) (e e' e'' : Int),
     let x : Machine.Num := .fin s m e
     let y : Machine.Num := .fin s' m' e'
     let z : Machine.Num := .fin s'' m'' e''
     numQ (addNum rd x y).1 = numQ x + numQ y ∧ numQ (mulNum x y).1 = numQ x * numQ y
       ∧ numQ (fmaNum rd x y z).1 = numQ x * numQ y + numQ z
       ∧ (addNum rd x y).2 = 0 ∧ (mulNum x y).2 = 0 ∧ (fmaNum rd x y z).2 = 0)
    ∧ (∀ (f : NumFmt) (md : Rm) (s : Bool) (m : Nat) (e : Int), f.tapered = false → m ≠ 0 → (∀ i, md ≠ .dith i) →
         let x := numQ (.fin s m e)
         let r := encNum f md false (.fin s m e)
         |x| ≤ numQ (numOf f f.maxCode) →
           roundsTo md x (max ((Nat.log2 m : Int) + e) (1 - (f.bias : Int)) - f.fbits) (numQ (numOf f r.1))
             ∧ (numOf f r.1).isFin = true ∧ (r.2 &&& 0x1000 ≠ 0 ↔ numQ (numOf f r.1) ≠ x) ∧ r.2 &&& 0x6700 = 0)
    ∧ (∀ (a b : Word) (md : Rm),
         let mag (w : Word) : Nat := w.toNat % 2 ^ 31
         let key (w : Word) : Int := if w.getLsbD 31 then -(mag w : Int) - 1 else (mag w : Int)
         let nv (w : Word) : Word := if 0x7F800000 < mag w ∧ mag w < 0x7FC00000 then 0x100 else 0
         let r := frndBits md a.toNat
         (0x7F800000 < mag a ∨ 0x7F800000 < mag b → ∀ mx, fminmax .f32 mx a.toNat b.toNat = (0x7FC00000, nv a ||| nv b))
           ∧ (mag a ≤ 0x7F800000 → mag b ≤ 0x7F800000 →
               fminmax .f32 false a.toNat b.toNat = ((if key a ≤ key b then a else b).toNat, 0)
                 ∧ fminmax .f32 true a.toNat b.toNat = ((if key a ≤ key b then b else a).toNat, 0))
           ∧ (0x7F800000 < mag a → r = (0x7FC00000, nv a))
           ∧ (mag a = 0x7F800000 → r = (a.toNat, 0))
           ∧ (mag a < 0x7F800000 → (∀ i, md ≠ .dith i) →
               roundsTo md (numQ (numOf .f32 a.toNat)) 0 (numQ (numOf .f32 r.1)) ∧ r.1 / 2 ^ 31 = a.toNat / 2 ^ 31
                 ∧ r.2 = if numQ (numOf .f32 r.1) = numQ (numOf .f32 a.toNat) then 0 else 0x1000))
    ∧ (∀ (md : Rm) (signed : Bool) (w m : Nat) (s : Bool) (e : Int), (w = 32 ∨ w = 64) → (∀ i, md ≠ .dith i) →
         let lo : Int := if signed then -2 ^ (w - 1) else 0
         let hi : Int := if signed then 2 ^ (w - 1) - 1 else 2 ^ w - 1
         let x := numQ (.fin s m e)
         let bits (n : Int) : Nat := (n % 2 ^ w).toNat
         ((lo : ℚ) ≤ x → x ≤ hi → ∃ n : Int, roundsTo md x 0 n
             ∧ intOf md signed w (.fin s m e) = (bits n, if (n : ℚ) = x then 0 else 0x1000))
           ∧ (x < lo → intOf md signed w (.fin s m e) = (bits lo, 0x100))
           ∧ ((hi : ℚ) < x → intOf md signed w (.fin s m e) = (bits hi, 0x100))
           ∧ intOf md signed w (.inf true) = (bits lo, 0x100) ∧ intOf md signed w (.inf false) = (bits hi, 0x100)
           ∧ (∀ q, intOf md signed w (.nan q) = (0, 0x100)))
    ∧ (∀ (w : Nat) (l : List Nat), unpackN w l.length (packN w l) = l.map (· % 2 ^ w) ∧ packN w l < 2 ^ (w * l.length))
    ∧ (∀ (p : MmaOp) (a b sa sb : Nat → Nat) (acc : Word) (t : Nat),
         let ks := (List.range p.ty.s).map (p.ty.s * t + ·)
         let j := p.ty.s * t / 32
         let k : ℚ := if p.ty.mx.isSome then (2 : ℚ) ^ ((sa j : Int) - 127) * (2 : ℚ) ^ ((sb j : Int) - 127) else 1
         (∀ i ∈ ks, (numOf p.ty.fmt (a i)).isFin = true ∧ (numOf p.ty.fmt (b i)).isFin = true) → (numOf .f32 acc.toNat).isFin = true →
         (p.ty.mx.isSome = true → sa j ≠ 0xFF ∧ sb j ≠ 0xFF) →
         ∃ (s : Bool) (m : Nat) (e : Int), sliceF p a b sa sb acc t = BitVec.ofNat 32 (encNum .f32 .rne false (.fin s m e)).1
           ∧ numQ (.fin s m e) = numQ (numOf .f32 acc.toNat)
               + k * (ks.map fun i => numQ (numOf p.ty.fmt (a i)) * numQ (numOf p.ty.fmt (b i))).sum)

/-- R46, R113: no float, conversion or packing instruction clears a flag of c.fpst or changes its rounding mode. -/
def Obligations.FlagsSticky : Prop :=
  ∀ (s t : State) (i : Instr) (e : List Reg × List Pred), regEffect i = some e → exec i s = .next t →
    s.th.ctx.fpst &&& t.th.ctx.fpst = s.th.ctx.fpst ∧ t.th.ctx.fpst &&& 0xFF = s.th.ctx.fpst &&& 0xFF

/-- R70, R71, R128: a special function issues: its counter steps, its result is owed, and the thread goes on. R71, R238: a pending operation completes: its registers hold its results, its flags are OR-ed, its counter falls. R131: special functions at NaNs, infinities and zeros.
The value of a result that R129 only bounds is free (log 4). -/
def Obligations.SfuIssuesAndCompletes : Prop :=
  (∀ (s : State) (f : FmtC) (k : Sfu), s.th.ctx.pred f.p = true →
     ∃ t : State, exec (sfuInstr k f) s = .next t
       ∧ t.th.ops = s.th.ops ++ [⟨[(f.d, BitVec.ofNat 32 (sfuOf k (s.th.ctx.reg f.a)).1)], f.dc, f.look.val,
           (sfuOf k (s.th.ctx.reg f.a)).2, s.th.seq, s.th.ctx.icount⟩]
       ∧ t.th.ctx.icount = s.th.ctx.icount + 1
       ∧ dcGet t.th f.dc = dcGet s.th f.dc + (if f.dc.val < 6 then 1 else 0)
       ∧ (∀ d : Fin 7, d ≠ f.dc → dcGet t.th d = dcGet s.th d)
       ∧ SameRegsBut [] s t ∧ SamePredsBut [] s t ∧ SameMemory s t)
    ∧ (∀ (s : State) (o : PendOp) (rest : List PendOp) (d : Reg) (v : Word), s.th.ops = o :: rest → o.writes = [(d, v)] → d ≠ 0 →
         ∃ t : State, exec (.instructionCompletion s.th.id) s = .next t
           ∧ t.th.ops = rest ∧ t.th.ctx.reg d = v ∧ t.th.ctx.fpst = s.th.ctx.fpst ||| o.flags
           ∧ (∀ k : Fin 7, k ≠ o.dc → dcGet t.th k = dcGet s.th k)
           ∧ (o.dc.val < 6 → dcGet t.th o.dc = dcGet s.th o.dc - 1)
           ∧ SameRegsBut [d] s t ∧ SamePredsBut [] s t ∧ SameMemory s t ∧ t.pool = s.pool)
    ∧ ((∀ (k : Sfu) (x : Word), 0x7F800000 < x.toNat % 2 ^ 31 →
           sfuOf k x = (0x7FC00000, if 0x7FC00000 ≤ x.toNat % 2 ^ 31 then 0 else 0x100))
         ∧ sfuOf .rcp 0 = (0x7F800000, 0x200) ∧ sfuOf .rcp 0x80000000 = (0xFF800000, 0x200)
         ∧ (sfuOf .sqrt 0x80000000).1 = 0x80000000 ∧ (sfuOf .sqrt 0xBF800000) = (0x7FC00000, 0x100)
         ∧ (sfuOf .ex2 0).1 = 0x3F800000 ∧ sfuOf .lg2 0 = (0xFF800000, 0x200)
         ∧ (sfuOf .tanh 0x7F800000).1 = 0x3F800000 ∧ (sfuOf .sinpi 0x7F800000) = (0x7FC00000, 0x100))

/-! ## Control -/

/-- R62, R69, R77, R97 to R99: a taken branch to a word of the code range goes to its target, at a header not yet entered; one to
another address traps there. It closes every open loop level of this depth whose body does not hold the target, and those inside it; no
level's count changes. -/
def Obligations.BranchesTaken : Prop :=
  ∀ (s : State) (i : Instr) (p : Pred) (g : DWord), s.th.ctx.pred p = true →
    ((∃ f : FmtJ, f.p = p ∧ (i = .bra f ∨ i = .brm f) ∧ g = s.th.ctx.pc + 4 * f.disp.signExtend 64)
      ∨ (∃ a, i = .jmp p a ∧ g = s.th.ctx.pair a)) →
    (g.toNat % 4 = 0 → inCode s.th.place g 4 = true →
        ∃ t : State, exec i s = .next t ∧ t.th.ctx.pc = g ∧ t.th.ctx.clh = g ∧ t.th.ctx.ld ≤ s.th.ctx.ld
          ∧ (let c := s.th.ctx
             let shut (k : Nat) : Prop := k < c.ld ∧ (c.lvl k).dep = c.depth ∧ ¬((c.lvl k).beg ≤ g ∧ g < (c.lvl k).fin)
             (∀ k, shut k → (∀ j, j < k → ¬shut j) → t.th.ctx.ld = k) ∧ ((∀ k, ¬shut k) → t.th.ctx.ld = c.ld)
               ∧ ∀ k, t.th.ctx.lvl k = c.lvl k)
          ∧ t.th.ctx.icount = s.th.ctx.icount + 1
          ∧ SameRegsBut [] s t ∧ SamePredsBut [] s t ∧ SameSpecials s t ∧ SameMemory s t ∧ SameDevice s t)
      ∧ (g.toNat % 4 ≠ 0 → exec i s = raiseCode s cMisaligned g)
      ∧ (g.toNat % 4 = 0 → inCode s.th.place g 4 = false → exec i s = raiseCode s cProt g)

/-- R14, R15, R98: a call whose new frame fits: w0 to w7 are the caller's w40 to w47, w38d holds the header after the call's clause,
d rises by 1, and the caller's frame is kept; no byte of memory changes. R14, R17: a call whose new frame does not fit stores the
oldest resident frame, 160 bytes, at c.spill in ascending order, and c.spill rises by 160; in the peer window the ten stores stand
before every later instruction and perform as their responses come. R17, R204: such a call waits while a piece may not be stored yet, and
traps SPILL_LIMIT where the frame would pass c.rslim. R99: a target that breaks its checks traps at the call.
The clause on the peer window is read as log 29 says, and the ten local stores follow one another in one step (log 59). -/
def Obligations.CallsMoveTheWindow : Prop :=
  (∀ (s : State) (i : Instr) (p : Pred) (g : DWord), s.th.ctx.pred p = true →
     ((∃ f : FmtJ, f.p = p ∧ i = .call f ∧ g = s.th.ctx.pc + 4 * f.disp.signExtend 64)
       ∨ (∃ a, i = .callr p a ∧ g = s.th.ctx.pair a)) →
     (∀ x, checkTarget s g = some x → exec i s = raise s x)
       ∧ (g.toNat % 4 = 0 → inCode s.th.place g 4 = true →
           (s.th.owes = true → exec i s = .next s)
             ∧ (s.th.owes = false → 1 + s.th.ctx.res.length < residentMax s.th.place.regs →
                 ∃ t : State, exec i s = .next t ∧ t.th.ctx.pc = g ∧ t.th.ctx.clh = g
                   ∧ t.th.ctx.depth = s.th.ctx.depth + 1 ∧ t.th.ctx.spill = s.th.ctx.spill
                   ∧ t.th.ctx.res = s.th.ctx.frame :: s.th.ctx.res
                   ∧ (∀ k : Nat, k < 8 → t.th.ctx.reg (Fin.ofNat 64 (16 + k)) = s.th.ctx.reg (Fin.ofNat 64 (56 + k)))
                   ∧ t.th.ctx.pair 54 = s.th.ctx.cend
                   ∧ (∀ r : Reg, r.val < 16 → t.th.ctx.reg r = s.th.ctx.reg r)
                   ∧ SamePredsBut [] s t ∧ SameMemory s t)))
    ∧ (∀ (s s' : State) (i : Instr) (p : Pred) (g : DWord), s.th.ctx.pred p = true →
         ((∃ f : FmtJ, f.p = p ∧ i = .call f ∧ g = s.th.ctx.pc + 4 * f.disp.signExtend 64)
           ∨ (∃ a, i = .callr p a ∧ g = s.th.ctx.pair a)) →
         checkTarget s g = none → s.th.owes = false → s.th.accs = [] →
         residentMax s.th.place.regs ≤ 1 + s.th.ctx.res.length →
         (s.th.place.rslim.toNat < s.th.ctx.spill.toNat + 160 →
             exec i s = .next (takeExc s (.trap cSpillLimit 0 s.th.ctx.spill)))
           ∧ (s.th.ctx.spill.toNat + 160 ≤ s.th.place.rslim.toNat → s.th.ctx.depth ≠ 0xFFFFFFFF →
             ((frameLocs s .wr s.th.ctx.spill).any inPeer = false →
               ((runGate s .wr s.th.ctx.spill 10).1 = .wait → exec i s = .next s)
                 ∧ ((runGate s .wr s.th.ctx.spill 10).1 = .go →
                     storeRun s s.th.ctx.spill (framePieces s.th.ctx.oldest) = (s', .go) → s'.th.ctx = s.th.ctx →
                     ∃ t : State, exec i s = .next t ∧ t.th.ctx.pc = g ∧ t.th.ctx.depth = s.th.ctx.depth + 1
                       ∧ t.th.ctx.spill = s.th.ctx.spill + 160 ∧ t.th.ctx.res.length = s.th.ctx.res.length
                       ∧ (∀ k : Nat, k < 8 → t.th.ctx.reg (Fin.ofNat 64 (16 + k)) = s.th.ctx.reg (Fin.ofNat 64 (56 + k)))
                       ∧ t.th.ctx.pair 54 = s.th.ctx.cend ∧ t.mem = s'.mem))
               ∧ ((frameLocs s .wr s.th.ctx.spill).all inPeer = true →
                 ∃ t : State, exec i s = .next t ∧ t.th.ctx.pc = g ∧ t.th.ctx.depth = s.th.ctx.depth + 1
                   ∧ t.th.ctx.spill = s.th.ctx.spill + 160 ∧ t.th.ctx.drain = true ∧ t.th.ctx.pair 54 = s.th.ctx.cend
                   ∧ t.th.accs.map (·.ea) = (List.range 10).map (fun j => s.th.ctx.spill + BitVec.ofNat 64 (16 * j))
                   ∧ t.th.accs.map (·.kind) = (List.range 10).map (fun j => .store ((framePieces s.th.ctx.oldest).getD j []))
                   ∧ t.mem = s.mem)))

/-- R16, R77, R98: a return at depth above 0: the caller's w0 to w39 are back, its w40 to w47 are the callee's w0 to w7, d falls by
1, every loop level opened at the returning depth closes, and execution goes on at the link, or where the end check of an open level
of the caller sends it. The frame comes from the resident ones, or from the 160 bytes below c.spill, which falls by 160; in the peer
window the ten loads stand before every later instruction. R99: a link that breaks its checks traps at the return.
The clause on the peer window is read as log 29 says, and the ten local loads follow one another in one step (log 59). -/
def Obligations.ReturnFromFrame : Prop :=
  (∀ (s : State) (p : Pred) (fr : Vector Word 40) (rest : List (Vector Word 40)), s.th.ctx.pred p = true →
    s.th.ctx.depth ≠ 0 → s.th.ctx.res = fr :: rest →
    let e := endCheck 4 (closeDepth (s.th.ctx.popFrame fr rest) s.th.ctx.depth) (s.th.ctx.pair 54)
    (∀ x, checkTarget s (s.th.ctx.pair 54) = some x → exec (.ret p) s = raise s x)
      ∧ (checkTarget s (s.th.ctx.pair 54) = none → s.th.owes = true → exec (.ret p) s = .next s)
      ∧ (checkTarget s (s.th.ctx.pair 54) = none → s.th.owes = false →
          ∃ t : State, exec (.ret p) s = .next t ∧ t.th.ctx.pc = e.2 ∧ t.th.ctx.ld = e.1.ld
            ∧ (s.th.ctx.ld = 0 → t.th.ctx.pc = s.th.ctx.pair 54) ∧ t.th.ctx.depth = s.th.ctx.depth - 1
            ∧ t.th.ctx.res = rest
            ∧ (∀ k : Fin 40, t.th.ctx.reg (Fin.ofNat 64 (16 + k.val)) = fr[k])
            ∧ (∀ k : Nat, k < 8 → t.th.ctx.reg (Fin.ofNat 64 (56 + k)) = s.th.ctx.reg (Fin.ofNat 64 (16 + k)))
            ∧ (∀ r : Reg, r.val < 16 → t.th.ctx.reg r = s.th.ctx.reg r)
            ∧ SamePredsBut [] s t ∧ SameMemory s t))
    ∧ (∀ (s s' : State) (p : Pred) (bs : List Byte), s.th.ctx.pred p = true → s.th.ctx.depth ≠ 0 → s.th.ctx.res = [] →
        s.th.owes = false → s.th.accs = [] → s.th.ctx.ld = 0 → checkTarget s (s.th.ctx.pair 54) = none →
        ((frameLocs s .rd (s.th.ctx.spill - 160)).any inPeer = false → (runGate s .rd (s.th.ctx.spill - 160) 10).1 = .go →
          loadRun s (s.th.ctx.spill - 160) 10 = (s', bs, .go) → s'.th.ctx = s.th.ctx →
          ∃ t : State, exec (.ret p) s = .next t ∧ t.th.ctx.pc = s.th.ctx.pair 54 ∧ t.th.ctx.depth = s.th.ctx.depth - 1
            ∧ t.th.ctx.res = [] ∧ t.th.ctx.spill = s.th.ctx.spill - 160
            ∧ (∀ k : Fin 40, t.th.ctx.reg (Fin.ofNat 64 (16 + k.val)) = (wordsOf 40 bs).getD k.val 0)
            ∧ (∀ k : Nat, k < 8 → t.th.ctx.reg (Fin.ofNat 64 (56 + k)) = s.th.ctx.reg (Fin.ofNat 64 (16 + k)))
            ∧ t.mem = s'.mem)
          ∧ ((frameLocs s .rd (s.th.ctx.spill - 160)).all inPeer = true →
          ∃ t : State, exec (.ret p) s = .next t ∧ t.th.ctx.pc = s.th.ctx.pair 54 ∧ t.th.ctx.depth = s.th.ctx.depth - 1
            ∧ t.th.ctx.spill = s.th.ctx.spill - 160 ∧ t.th.ctx.drain = true
            ∧ t.th.accs.map (·.ea) = (List.range 10).map (fun j => s.th.ctx.spill - 160 + BitVec.ofNat 64 (16 * j))
            ∧ t.mem = s.mem))

/-- R16, R100: `exit`, and `ret` at depth 0, end the thread once its accesses have performed, and wait till then. -/
def Obligations.ThreadEnds : Prop :=
  ∀ (s : State) (i : Instr) (p : Pred), s.th.ctx.pred p = true →
    (i = .exit p ∨ (i = .ret p ∧ s.th.ctx.depth = 0)) →
      (s.th.accs = [] →
        ∃ t : State, exec i s = .next t ∧ t.th.status = .exited ∧ t.th.ctx.ld = 0 ∧ t.th.ops = []
          ∧ SameRegsBut [] s t ∧ t.mem = s.mem)
        ∧ (s.th.accs ≠ [] → exec i s = .next s)

/-- R74 to R78, R99, R101: `loop` opens level K at the header after its clause with its trip count and the depth; a count of 0 or a
false guard goes to the body's end; another K, or a body that leaves that of the level outside it, is illegal. `lexit` goes to the end
of level K and closes it and those inside it. An end outside the code range traps at the instruction. R76: reaching the end of the
innermost open level at its depth counts it down, and goes back to its start while the count is not 0; at 0 the level closes, and the
check goes on with the level outside it that ends there too. An instruction that ends its clause goes on where the check says.
That the end of a skipped loop, or of a `lexit`, is checked as a transfer's target and takes no outer end check is read as log 31 says. -/
def Obligations.LoopsOpenAndClose : Prop :=
  (∀ (s : State) (p : Pred) (lv : Fin 3) (cnt : LoopCount) (len : Fin 256),
     let c := s.th.ctx
     let b := c.cend
     let e := b + BitVec.ofNat 64 (4 * (len.val + 1))
     let n := match cnt with | .reg a => c.reg a | .lit v => v
     let fits := lv.val = 0 ∨ (c.lvl (lv.val - 1)).dep ≠ c.depth
       ∨ ((c.lvl (lv.val - 1)).beg ≤ b ∧ e ≤ (c.lvl (lv.val - 1)).fin)
     (c.pred p = false →
         (checkTarget s e = none → ∃ t, exec (.loop p lv cnt len) s = .next t ∧ t.th.ctx.pc = e ∧ t.th.ctx.ld = c.ld)
           ∧ (∀ x, checkTarget s e = some x → exec (.loop p lv cnt len) s = raise s x))
       ∧ (c.pred p = true → (lv.val ≠ c.ld ∨ ¬fits) → exec (.loop p lv cnt len) s = illegal s)
       ∧ (c.pred p = true → lv.val = c.ld → fits →
           (n = 0 → checkTarget s e = none →
               ∃ t, exec (.loop p lv cnt len) s = .next t ∧ t.th.ctx.pc = e ∧ (t.th.ctx.lvl lv.val).cnt = 0 ∧ t.th.ctx.ld = c.ld
                 ∧ SameRegsBut [] s t ∧ SameMemory s t)
             ∧ (∀ x, n = 0 → checkTarget s e = some x → exec (.loop p lv cnt len) s = raise s x)
             ∧ (n ≠ 0 → ∃ t, exec (.loop p lv cnt len) s = .next t ∧ t.th.ctx.pc = b ∧ t.th.ctx.ld = c.ld + 1
                 ∧ t.th.ctx.lvl lv.val = ⟨n, BitVec.ofNat 8 len.val, b, c.depth⟩ ∧ SameRegsBut [] s t ∧ SameMemory s t))
       ∧ (c.pred p = true → lv.val < c.ld → (c.lvl lv.val).dep = c.depth →
           (checkTarget s (c.lvl lv.val).fin = none →
               ∃ t, exec (.lexit p lv) s = .next t ∧ t.th.ctx.pc = (c.lvl lv.val).fin ∧ t.th.ctx.ld = lv.val
                 ∧ SameRegsBut [] s t ∧ SameMemory s t)
             ∧ (∀ x, checkTarget s (c.lvl lv.val).fin = some x → exec (.lexit p lv) s = raise s x))
       ∧ (c.pred p = true → (c.ld ≤ lv.val ∨ (c.lvl lv.val).dep ≠ c.depth) → exec (.lexit p lv) s = illegal s))
    ∧ (∀ (c : Ctx) (l : LoopLvl), c.ld = 1 → c.lv0 = l → l.dep = c.depth → l.cnt ≠ 0 →
         (l.cnt ≠ 1 → (endCheck 4 c l.fin).2 = l.beg ∧ (endCheck 4 c l.fin).1.ld = 1 ∧ (endCheck 4 c l.fin).1.lv0.cnt = l.cnt - 1)
           ∧ (l.cnt = 1 → (endCheck 4 c l.fin).2 = l.fin ∧ (endCheck 4 c l.fin).1.ld = 0 ∧ (endCheck 4 c l.fin).1.lv0.cnt = 0)
           ∧ ∀ a, a ≠ l.fin → endCheck 4 c a = (c, a))
    ∧ (∀ (c : Ctx) (n : Nat) (a : DWord), n < 3 → c.ld = n + 1 → (c.lvl n).dep = c.depth → (c.lvl n).fin = a →
         let d := c.setLvl n { c.lvl n with cnt := (c.lvl n).cnt - 1 }
         ((c.lvl n).cnt ≠ 1 → endCheck 4 c a = (d, (c.lvl n).beg))
           ∧ ((c.lvl n).cnt = 1 → endCheck 4 c a = endCheck 3 { d with ld := n } a))
    ∧ (∀ (c : Ctx) (n fuel : Nat) (a : DWord), c.ld = n + 1 → ((c.lvl n).dep ≠ c.depth ∨ (c.lvl n).fin ≠ a) → endCheck fuel c a = (c, a))
    ∧ (∀ (s : State) (p : Pred), s.th.ctx.rep = none → s.th.ctx.pc + BitVec.ofNat 64 (4 * instrLen s) = s.th.ctx.cend →
         let e := endCheck 4 s.th.ctx s.th.ctx.cend
         ∃ t, exec (.nop p) s = .next t ∧ t.th.ctx.pc = e.2 ∧ t.th.ctx.clh = e.2 ∧ t.th.ctx.ld = e.1.ld
           ∧ (∀ k, t.th.ctx.lvl k = e.1.lvl k) ∧ SameRegsBut [] s t ∧ SameMemory s t)

/-- R72, R102, R103, R148, R252: the prefix takes hold of the next word, for n issues, under a false guard for one issue without steps,
and passes the next instruction where c.ri is past n; `wait` marks counters for the next
instruction; `cmt` drains before it; `yld` yields; `nop` and hints only advance. R72, R73: between two issues of a repeat the position stays and the index rises; the last issue ends the repeat. -/
def Obligations.PrefixWaitsAndHints : Prop :=
  (∀ (s : State) (p : Pred) (n : Fin 64) (sd sa sb : Fin 8) (w : Word) (mask : BitVec 6) (o : Fin 8) (z : BitVec 24),
     let c := s.th.ctx
     (fetchWord s s.th (c.pc + 4) = .ok w → rptLegal w.toNat sb.val = true → c.pred p = true → c.ri.toNat ≤ n.val →
         ∃ t, exec (.rpt p n sd sa sb) s = .next t ∧ t.th.ctx.pc = c.pc + 4
           ∧ t.th.ctx.rep = some ⟨c.pc, n.val + 1, sd.val, sa.val, sb.val⟩ ∧ t.th.ctx.ri = c.ri)
       ∧ (fetchWord s s.th (c.pc + 4) = .ok w → rptLegal w.toNat sb.val = true → c.pred p = false →
           ∃ t, exec (.rpt p n sd sa sb) s = .next t ∧ t.th.ctx.pc = c.pc + 4 ∧ t.th.ctx.rep = some ⟨c.pc, 1, 0, 0, 0⟩
             ∧ t.th.ctx.ri = c.ri)
       ∧ (fetchWord s s.th (c.pc + 4) = .ok w → rptLegal w.toNat sb.val = true → c.pred p = true → n.val < c.ri.toNat →
           ∃ t, exec (.rpt p n sd sa sb) s = .next t
             ∧ t = goOn (modCtx s fun c => { c with pc := c.pc + 4, ri := 0 }) (if hasExt w.toNat then 2 else 1))
       ∧ (fetchWord s s.th (c.pc + 4) = .ok w → rptLegal w.toNat sb.val = false → exec (.rpt p n sd sa sb) s = illegal s)
       ∧ (∀ e, fetchWord s s.th (c.pc + 4) = .error e → exec (.rpt p n sd sa sb) s = raise s e)
       ∧ exec (.nop p) s = .next (advance s)
       ∧ exec (.hint o z) s = .next (advance s)
       ∧ (c.pred p = true →
           (∃ t, exec (.wait p mask) s = .next t ∧ t.th.ctx.wmask = (advance s).th.ctx.wmask ||| mask ∧ t.th.ctx.pc = (advance s).th.ctx.pc
               ∧ SameRegsBut [] s t ∧ SameMemory s t)
             ∧ (∃ t, exec (.cmt p) s = .next t ∧ t.th.ctx.drain = true ∧ t.th.ctx.pc = (advance s).th.ctx.pc
               ∧ SameRegsBut [] s t ∧ SameMemory s t)
             ∧ ∃ t, exec (.yld p) s = .next t ∧ t.th.yielded = some 0 ∧ t.th.ctx = (advance s).th.ctx ∧ SameMemory s t))
    ∧ (∀ (s : State) (r : Rep), s.th.ctx.rep = some r →
         (s.th.ctx.ri.toNat + 1 < r.n →
             (advance s).th.ctx.ri = s.th.ctx.ri + 1 ∧ (advance s).th.ctx.pc = s.th.ctx.pc ∧ (advance s).th.ctx.rep = some r)
           ∧ (r.n ≤ s.th.ctx.ri.toNat + 1 → (advance s).th.ctx.ri = 0 ∧ (advance s).th.ctx.rep = none))

/-! ## Traps -/

/-- R108, R109, R64, R67, R324 to R326: a trap instruction, or an unassigned opcode, at a thread with a handler that is not
running it, enters the handler: the trap registers hold cause, address, the pc and its clause's header, c.tstat the predicates
and c.ri; the handler's frame is pushed with the pc as its link.
When such a trap is taken beside older accesses is read as log 27 says. -/
def Obligations.TrapEntersHandler : Prop :=
  ∀ (s : State) (i : Instr) (p : Pred) (b : BitVec 8) (w : Word) (code : Nat) (addr : DWord), s.th.ctx.pred p = true →
    ((i = .trap p b ∧ code = 0x14 ∧ addr = b.zeroExtend 64) ∨ (i = .brk p b ∧ code = 0x13 ∧ addr = b.zeroExtend 64)
      ∨ (i = .unassignedOpcode w ∧ code = 1 ∧ addr = 0)) →
    s.th.accs = [] → s.th.ops = [] → dyingNow s = false → s.th.ctx.inH = false → s.th.place.thand ≠ 0 →
    1 + s.th.ctx.res.length < residentMax s.th.place.regs →
      ∃ t : State, exec i s = .next t
        ∧ t.th.trap.cause = BitVec.ofNat 32 code ∧ t.th.trap.info = 0 ∧ t.th.trap.taddr = addr
        ∧ t.th.trap.tpc = s.th.ctx.trapPc ∧ t.th.trap.tclh = s.th.ctx.clh
        ∧ t.th.ctx.inH = true ∧ t.th.trap.pset = s.th.ctx.preds ∧ t.th.trap.ri = s.th.ctx.ri
        ∧ t.th.ctx.pc = s.th.place.thand ∧ t.th.ctx.clh = s.th.place.thand ∧ t.th.ctx.ri = 0 ∧ t.th.ctx.rep = none
        ∧ t.th.ctx.depth = s.th.ctx.depth + 1 ∧ t.th.ctx.pair 54 = s.th.ctx.trapPc
        ∧ (∀ r : Reg, r.val < 16 → t.th.ctx.reg r = s.th.ctx.reg r)
        ∧ SamePredsBut [] s t ∧ SameMemory s t

/-- R329: without a handler a trap is fatal to the cluster, and its registers are written; R330: a `brk` then stops it for a debugger. -/
def Obligations.TrapWithoutHandler : Prop :=
  ∀ (s : State) (p : Pred) (b : BitVec 8) (k : Cluster), s.th.ctx.pred p = true → s.th.accs = [] → s.th.ops = [] →
    s.th.place.thand = 0 → s.th.ctx.inH = false → findCluster s s.th.cid = some k → k.status = .resident →
      (∃ t, exec (.trap p b) s = .next t ∧ t.th.status = .fatal 0x14 false ∧ t.th.trap.cause = 0x14 ∧ t.th.trap.tpc = s.th.ctx.trapPc
          ∧ (∃ k', findCluster t s.th.cid = some k' ∧ k'.status = .dying))
        ∧ ∃ t, exec (.brk p b) s = .next t ∧ t.th.status = .debug ∧ t.th.trap.cause = 0x13 ∧ t.th.trap.tpc = s.th.ctx.trapPc
          ∧ ∃ k', findCluster t s.th.cid = some k' ∧ k'.status = .stopping

/-- R327: `tret` outside a handler is illegal; at depth 0 it ends the thread as `exit` does; in a handler, to the start of a clause, it
gives back the window and the predicates, clears c.tstat.IN and goes to c.tpc; inside the saved clause it resumes at that word.
R99: a c.tpc that breaks the checks of a transfer traps. -/
def Obligations.TretReturns : Prop :=
  ∀ (s : State) (p : Pred) (fr : Vector Word 40) (rest : List (Vector Word 40)), s.th.ctx.pred p = true →
    (s.th.ctx.inH = false → exec (.tret p) s = illegal s)
      ∧ (s.th.ctx.inH = true → s.th.ctx.depth = 0 → exec (.tret p) s = exec (.exit p) s)
      ∧ (s.th.ctx.inH = true → s.th.ctx.depth ≠ 0 →
          (∀ x, tretTo s s.th.trap.tclh s.th.trap.tpc = .fault x → exec (.tret p) s = raise s x)
            ∧ (∀ x, tretTo s s.th.trap.tclh s.th.trap.tpc = .out → checkTarget s s.th.trap.tpc = some x →
                exec (.tret p) s = raise s x))
      ∧ (s.th.ctx.inH = true → s.th.ctx.depth ≠ 0 → s.th.ctx.res = fr :: rest → s.th.owes = false →
          (tretTo s s.th.trap.tclh s.th.trap.tpc = .out → checkTarget s s.th.trap.tpc = none →
              ∃ t, exec (.tret p) s = .next t ∧ t.th.ctx.pc = s.th.trap.tpc ∧ t.th.ctx.clh = s.th.trap.tpc ∧ t.th.ctx.inH = false
                ∧ t.th.ctx.preds = s.th.trap.pset ∧ t.th.ctx.depth = s.th.ctx.depth - 1 ∧ t.th.ctx.res = rest ∧ t.th.ctx.ri = 0
                ∧ (∀ k : Fin 40, t.th.ctx.reg (Fin.ofNat 64 (16 + k.val)) = fr[k])
                ∧ (∀ k : Nat, k < 8 → t.th.ctx.reg (Fin.ofNat 64 (56 + k)) = s.th.ctx.reg (Fin.ofNat 64 (16 + k)))
                ∧ (∀ r : Reg, r.val < 16 → t.th.ctx.reg r = s.th.ctx.reg r)
                ∧ SameMemory s t)
            ∧ (∀ hdr ws, tretTo s s.th.trap.tclh s.th.trap.tpc = .inside hdr ws →
                (roles ws).getD ((s.th.trap.tpc.toNat - s.th.trap.tclh.toNat - 4) / 4) .ins = .ins →
                ∃ t, exec (.tret p) s = .next t ∧ t.th.ctx.pc = s.th.trap.tpc ∧ t.th.ctx.clh = s.th.trap.tclh ∧ t.th.ctx.inH = false
                  ∧ t.th.ctx.preds = s.th.trap.pset ∧ t.th.ctx.depth = s.th.ctx.depth - 1 ∧ t.th.ctx.res = rest
                  ∧ (∀ k : Fin 40, t.th.ctx.reg (Fin.ofNat 64 (16 + k.val)) = fr[k])
                  ∧ (∀ k : Nat, k < 8 → t.th.ctx.reg (Fin.ofNat 64 (56 + k)) = s.th.ctx.reg (Fin.ofNat 64 (16 + k)))
                  ∧ t.th.ctx.cend = s.th.trap.tclh + 4 + BitVec.ofNat 64 (4 * ws.length) ∧ SameMemory s t))

/-! ## Control registers -/

/-- R26, R110: `crd` writes the control register it names; the high word of a 64-bit one is that of the `crd` of its low word just
before. -/
def Obligations.ControlRegisterReads : Prop :=
  ∀ (s : State) (p : Pred) (d : Reg) (n : BitVec 8), s.th.ctx.pred p = true →
    (∃ t, exec (.crd p d n) s = .next t ∧ (d ≠ 0 → t.th.ctx.reg d = (cregRead s n.toNat).1) ∧ t.th.ctx.latch = (cregRead s n.toNat).2
        ∧ SameRegsBut [d] s t ∧ SamePredsBut [] s t ∧ SameSpecials s t ∧ SameMemory s t ∧ SameDevice s t)
      ∧ (cregRead s 0x00).1 = BitVec.ofNat 32 s.th.id.tid ∧ (cregRead s 0x0B).1 = s.th.ctx.lv0.cnt
      ∧ (cregRead s 0x11).1 = s.th.ctx.depth ∧ (cregRead s 0x12).1 = BitVec.ofNat 32 (1 + s.th.ctx.res.length)
      ∧ (cregRead s 0x1A).1 = s.th.ctx.fpst ∧ (cregRead s 0x20).1 = s.th.trap.cause ∧ (cregRead s 0x58).1 = s.th.rbk
      ∧ (∀ k : Pred, k.val < 15 → (cregRead s 0x0A).1.getLsbD k.val = s.th.ctx.pred k) ∧ (cregRead s 0x0A).1.getLsbD 15 = true
      ∧ (∀ (m : Nat) (v : DWord), creg64 s m = some v →
          cregRead s m = (BitVec.ofNat 32 v.toNat, some (m, BitVec.ofNat 32 (v.toNat / 2 ^ 32))))
      ∧ (∀ (m : Nat) (v : DWord) (h : Word), creg64 s m = some v → creg64 s (m + 1) = none → s.th.ctx.latch = some (m, h) →
          cregRead s (m + 1) = (h, none))

/-- R6, R26, R46, R110, R250, R253: `cwr` writes a writable control register once the thread has no unperformed access, waits till then,
and writes nothing to a read-only one; a write of 3 to c.spec's SLVL leaves it. `spec` sets the level and FIX, and `clr` empties the
escalation table. Nothing else of the thread changes but its position. -/
def Obligations.ControlRegisterWrites : Prop :=
  ∀ (s : State) (p : Pred) (a : Reg) (n : BitVec 8) (lvl : Fin 3) (fix clr : Bool), s.th.ctx.pred p = true →
    let v := s.th.ctx.reg a
    let sp := s.th.spec
    (s.th.accs ≠ [] → exec (.cwr p a n) s = .next s ∧ exec (.spec p lvl fix clr) s = .next s)
      ∧ (s.th.accs = [] →
        (∃ t, exec (.cwr p a n) s = .next t
            ∧ (n = 0x0A → ∀ k : Pred, k.val < 15 → t.th.ctx.pred k = v.getLsbD k.val)
            ∧ (n ≠ 0x0A → SamePredsBut [] s t)
            ∧ t.th.ctx.fpst = (if n = 0x1A then v &&& 0x7F03 else s.th.ctx.fpst)
            ∧ t.th.ctx.dphase = (if n = 0x1B then BitVec.ofNat 6 v.toNat else s.th.ctx.dphase)
            ∧ t.th.exitedF = (s.th.exitedF && !(decide (n = 0x1C) && v.getLsbD 0))
            ∧ t.th.mhold = (s.th.mhold && !(decide (n = 0x1C) && v.getLsbD 1))
            ∧ t.th.aged = (s.th.aged && !(decide (n = 0x1C) && v.getLsbD 2))
            ∧ t.th.spec = (if n = 0x1D then
                { sp with slvl := if v.toNat % 4 = 3 then sp.slvl else BitVec.ofNat 2 v.toNat, fix := v.getLsbD 2 } else sp)
            ∧ BitVec.ofNat 32 t.th.trap.tpc.toNat = (if n = 0x22 then v else BitVec.ofNat 32 s.th.trap.tpc.toNat)
            ∧ BitVec.ofNat 32 (t.th.trap.tpc.toNat / 2 ^ 32) = (if n = 0x23 then v else BitVec.ofNat 32 (s.th.trap.tpc.toNat / 2 ^ 32))
            ∧ t.th.rbk = (if n = 0x58 then v else s.th.rbk) ∧ t.th.ncmt = (if n = 0x59 then v else s.th.ncmt)
            ∧ t.th.nesc = (if n = 0x5A then v else s.th.nesc)
            ∧ { t.th.trap with tpc := s.th.trap.tpc } = s.th.trap
            ∧ t.th.ctx.res = s.th.ctx.res ∧ t.th.ctx.depth = s.th.ctx.depth ∧ t.th.ctx.spill = s.th.ctx.spill
            ∧ t.th.ctx.inH = s.th.ctx.inH ∧ t.th.ctx.latch = s.th.ctx.latch ∧ t.th.dc = s.th.dc ∧ t.th.ops = s.th.ops
            ∧ t.th.esc = s.th.esc ∧ t.th.place = s.th.place ∧ t.th.id = s.th.id
            ∧ SameRegsBut [] s t ∧ SameMemory s t ∧ SameDevice s t)
          ∧ ∃ t, exec (.spec p lvl fix clr) s = .next t ∧ t.th.spec = { sp with slvl := BitVec.ofNat 2 lvl.val, fix := fix }
              ∧ t.th.esc = (if clr then [] else s.th.esc) ∧ SameRegsBut [] s t ∧ SamePredsBut [] s t
              ∧ t.th.ctx.fpst = s.th.ctx.fpst ∧ t.th.ctx.dphase = s.th.ctx.dphase ∧ t.th.gstat = s.th.gstat
              ∧ t.th.trap = s.th.trap ∧ t.th.ctx.res = s.th.ctx.res ∧ t.th.ctx.depth = s.th.ctx.depth
              ∧ t.th.ctx.spill = s.th.ctx.spill ∧ t.th.dc = s.th.dc ∧ t.th.ops = s.th.ops
              ∧ t.th.rbk = s.th.rbk ∧ t.th.ncmt = s.th.ncmt ∧ t.th.nesc = s.th.nesc
              ∧ t.th.place = s.th.place ∧ t.th.id = s.th.id ∧ SameMemory s t ∧ SameDevice s t)

/-! ## Loads, stores and atomics -/

/-- R32, R104 to R106, R235, R323: a load whose address checks pass and that is its thread's oldest access issues: it joins the
thread's accesses, its counter steps, and no register, predicate or byte of memory changes; one whose sectors are absent joins parked
(R204); one to a peer sends its request (R376); one whose checks fail raises its trap. R235, R239, R241, R246, R248: with older accesses
it issues speculatively at a level below 2 and waits at level 2: where an early read can be had, its registers hold that read's
bytes at once and its words are watched; where an older operation of its own must come first, it joins to read later; R242: where its
watch finds no room, it waits to be the oldest access; a failing check is held with it; to a peer it sends the register of its watch and
then its request.
Which accesses issue speculatively is read as log 10 says, and the layout of flits as log 15 says. -/
def Obligations.LoadsIssue : Prop :=
  ∀ (s : State) (i : Instr) (f : FmtC) (x : Option XM) (n : Nat) (ext : LoadExt) (ds : List Reg) (loc : Loc) (e : Exc),
    loadForm i = some (f, x, n, ext, ds) → s.th.ctx.pred f.p = true →
    let ea := eaXM s.th.ctx f.a x
    let res := resolve s s.th .rd ea n
    let g := gate s s.th.place.die .rd loc ea n
    let lvl := (levelFor s.th s.th.ctx.pc).1
    let joined (t : State) (a : Access) : Prop :=
      exec i s = .next t ∧ Joins s t a ∧ a.kind = .load n ext ds ∧ a.ea = ea ∧ a.dc = f.dc
    (s.th.accs = [] →
        (res = .ok loc → g = .go → loc.isPeer = false →
            ∃ (t : State) (a : Access), joined t a ∧ SameRegsBut [] s t ∧ a.loc = some loc ∧ a.early = none ∧ a.fault = none
              ∧ a.spec = false ∧ a.parked = false ∧ t.out = s.out)
          ∧ (res = .ok loc → g = .park →
            ∃ (t : State) (a : Access), joined t a ∧ SameRegsBut [] s t ∧ a.loc = some loc ∧ a.early = none ∧ a.fault = none
              ∧ a.spec = false ∧ a.parked = true)
          ∧ (∀ d o own, res = .ok loc → loc = .peer d o own →
            ∃ (t : State) (a : Access) (q : Flit), joined t a ∧ SameRegsBut [] s t ∧ a.loc = some loc ∧ a.spec = false
              ∧ a.serial = some s.fab.nextSerial ∧ t.out = s.out ++ [q] ∧ q.ty = 0x01 ∧ q.dst = d ∧ q.addr = o ∧ q.aux = n
              ∧ q.serial = s.fab.nextSerial ∧ q.ctx = s.th.place.ctx)
          ∧ (res = .error e → exec i s = raise s e)
          ∧ (res = .ok loc → g = .bad e → exec i s = raise s e))
      ∧ (s.th.accs ≠ [] → lvl = 2 → exec i s = .next s)
      ∧ (s.th.accs ≠ [] → lvl ≠ 2 →
        (res = .error e ∨ (res = .ok loc ∧ g = .bad e) →
            ∃ (t : State) (a : Access), joined t a ∧ SameRegsBut [] s t ∧ a.fault = some e ∧ a.spec = true ∧ a.early = none)
          ∧ (res = .ok loc → g = .park →
            ∃ (t : State) (a : Access), joined t a ∧ SameRegsBut [] s t ∧ a.parked = true ∧ a.spec = true ∧ a.early = none)
          ∧ (∀ bs, res = .ok loc → g = .go → earlyRead s lvl loc ea n = some bs →
            ∃ (t : State) (a : Access), joined t a ∧ a.loc = some loc ∧ a.early = some bs ∧ a.spec = true ∧ a.intent = (lvl == 1)
              ∧ (∀ r, t.th.ctx.reg r = (loadWrite s.th.ctx n ext ds bs).reg r) ∧ SameRegsBut ds s t
              ∧ t.th.watches loc n = true)
          ∧ (res = .ok loc → g = .go → loc.isPeer = false → mustWait s s.th.accs loc n = true →
            ∃ (t : State) (a : Access), joined t a ∧ SameRegsBut [] s t ∧ a.loc = some loc ∧ a.early = none ∧ a.spec = true
              ∧ a.parked = false)
          ∧ (res = .ok loc → g = .go → mustWait s s.th.accs loc n = false → watchRoom s loc = false → exec i s = .next s)
          ∧ (res = .ok loc → g = .go → loc.isPeer = false → mustWait s s.th.accs loc n = false → watchRoom s loc = true →
              (earlyRead s lvl loc ea n).isSome = true)
          ∧ (∀ d o own, res = .ok loc → loc = .peer d o own → mustWait s s.th.accs loc n = false → watchRoom s loc = true →
            ∃ (t : State) (a : Access) (w q : Flit), joined t a ∧ SameRegsBut [] s t ∧ a.loc = some loc ∧ a.spec = true
              ∧ a.serial = some s.fab.nextSerial ∧ t.out = s.out ++ [w, q] ∧ w.ty = 0x06 ∧ w.dst = d ∧ q.ty = 0x01 ∧ q.dst = d
              ∧ q.addr = o ∧ q.aux = n)
          ∧ (∀ d o own, res = .ok loc → loc = .peer d o own → mustWait s s.th.accs loc n = true →
            ∃ (t : State) (a : Access), joined t a ∧ SameRegsBut [] s t ∧ a.loc = some loc ∧ a.spec = true ∧ a.serial = none
              ∧ t.out = s.out))

/-- R106, R205, R235, R240, R243, R323: a store issues with the bytes its sources hold then, and no byte changes before it performs: as its
thread's oldest access it joins the thread's accesses, parked where its page is not pinned, or raises the trap of a failing check; with
older accesses it joins speculatively at a level below 2, a fault of its address held with it, and waits at level 2.
Which accesses issue speculatively is read as log 10 says. -/
def Obligations.StoresIssue : Prop :=
  ∀ (s : State) (i : Instr) (f : FmtC) (x : Option XM) (bs : List Byte) (loc : Loc) (e : Exc),
    storeForm s.th.ctx i = some (f, x, bs) → s.th.ctx.pred f.p = true →
    let ea := eaXM s.th.ctx f.a x
    let res := resolve s s.th .wr ea bs.length
    let g := gate s s.th.place.die .wr loc ea bs.length
    let lvl := (levelFor s.th s.th.ctx.pc).1
    let joined (t : State) (a : Access) : Prop :=
      exec i s = .next t ∧ Joins s t a ∧ SameRegsBut [] s t ∧ a.kind = .store bs ∧ a.ea = ea ∧ a.dc = f.dc ∧ t.out = s.out
    (s.th.accs = [] →
        (res = .ok loc → (g = .go ∨ g = .wait) →
            ∃ (t : State) (a : Access), joined t a ∧ a.loc = some loc ∧ a.fault = none ∧ a.spec = false ∧ a.parked = false)
          ∧ (res = .ok loc → g = .park →
            ∃ (t : State) (a : Access), joined t a ∧ a.loc = some loc ∧ a.fault = none ∧ a.spec = false ∧ a.parked = true)
          ∧ (res = .ok loc → g = .bad e → exec i s = raise s e)
          ∧ (res = .error e → exec i s = raise s e))
      ∧ (s.th.accs ≠ [] → lvl = 2 → exec i s = .next s)
      ∧ (s.th.accs ≠ [] → lvl ≠ 2 →
        (res = .ok loc → ∃ (t : State) (a : Access), joined t a ∧ a.loc = some loc ∧ a.fault = none ∧ a.spec = true)
          ∧ (res = .error e → ∃ (t : State) (a : Access), joined t a ∧ a.fault = some e ∧ a.spec = true))

/-- R171, R186 to R189, R336: an atomic or a reduce-store issues only as its thread's oldest access: it waits while an older one is
unperformed, and else joins the thread's accesses with the operands its registers hold, parked where its page is not pinned, or raises
the trap of a failing check; on global memory or the fabric its cluster then counts as having made an external effect, whatever follows,
and elsewhere no cluster changes. R186, R187, R189: the value that each atomic leaves at its location, for operands of 32 and of 64 bits,
and what a reduce-store leaves of each word; `RoundedValues` says what the sums and the lesser or greater value are. -/
def Obligations.AtomicsIssue : Prop :=
  (∀ (s : State) (i : Instr) (p : Pred) (dc : Fin 7) (ea : DWord) (k : AccKind) (n : Nat) (loc : Loc) (e : Exc),
     atomForm s.th.ctx i = some (p, dc, ea, k, n) → s.th.ctx.pred p = true →
     let s1 := if extTag ea then setExt s else s
     let res := resolve s1 s.th .wr ea n
     let g := gate s1 s.th.place.die .wr loc ea n
     let joined (t : State) (a : Access) : Prop :=
       exec i s = .next t ∧ Joins s t a ∧ SameRegsBut [] s t ∧ a.kind = k ∧ a.ea = ea ∧ a.loc = some loc ∧ a.dc = dc
         ∧ a.fault = none ∧ a.spec = false
         ∧ (extTag ea = true → (findCluster s s.th.cid).isSome = true →
              ∃ k, findCluster t s.th.cid = some k ∧ k.ext = true)
         ∧ (extTag ea = false → t.clusters = s.clusters)
     (s.th.accs ≠ [] → exec i s = .next s)
       ∧ (s.th.accs = [] →
           (res = .ok loc → (g = .go ∨ g = .wait) → ∃ (t : State) (a : Access), joined t a ∧ a.parked = false)
             ∧ (res = .ok loc → g = .park → ∃ (t : State) (a : Access), joined t a ∧ a.parked = true)
             ∧ (res = .ok loc → g = .bad e → exec i s = raise s1 e)
             ∧ (res = .error e → exec i s = raise s1 e)))
    ∧ (∀ r c e : BitVec 32,
         let v (op : AtomOp) : BitVec 32 := BitVec.ofNat 32 (atomNew op 4 r.toNat c.toNat e.toNat)
         v .addS = r + c ∧ v .addN = r + c
           ∧ (v .minS).toInt = Min.min r.toInt c.toInt ∧ (v .maxS).toInt = Max.max r.toInt c.toInt
           ∧ (v .minN).toNat = Min.min r.toNat c.toNat ∧ (v .maxN).toNat = Max.max r.toNat c.toNat
           ∧ v .and = r &&& c ∧ v .or = r ||| c ∧ v .xor = r ^^^ c ∧ v .exch = c ∧ v .cas = (if r = c then e else r)
           ∧ atomNew .fadd32 4 r.toNat c.toNat 0 = (faddBits .f32 .rne r.toNat c.toNat).1
           ∧ atomNew .faddBf 4 r.toNat c.toNat 0 = (faddBits .bf16 .rne (r.toNat % 0x10000) (c.toNat % 0x10000)).1
               + 0x10000 * (faddBits .bf16 .rne (r.toNat / 0x10000) (c.toNat / 0x10000)).1)
    ∧ (∀ r c e : BitVec 64,
         let v (op : AtomOp) : BitVec 64 := BitVec.ofNat 64 (atomNew op 8 r.toNat c.toNat e.toNat)
         v .addS = r + c ∧ v .addN = r + c
           ∧ (v .minS).toInt = Min.min r.toInt c.toInt ∧ (v .maxS).toInt = Max.max r.toInt c.toInt
           ∧ (v .minN).toNat = Min.min r.toNat c.toNat ∧ (v .maxN).toNat = Max.max r.toNat c.toNat
           ∧ v .and = r &&& c ∧ v .or = r ||| c ∧ v .xor = r ^^^ c ∧ v .exch = c ∧ v .cas = if r = c then e else r)
    ∧ (∀ (op : RedOp) (bf : Bool) (v old : List Word), old.length = v.length →
         redBytes op bf v (bytesOf old) = bytesOf (List.zipWith (redWord op bf) old v))
    ∧ (∀ (f : NumFmt) (r c : Nat) (a b : Word), redElem .add f r c = (faddBits f .rne r c).1
         ∧ redElem .min f r c = (fminmax f false r c).1 ∧ redElem .max f r c = (fminmax f true r c).1
         ∧ ∀ op, redWord op false a b = BitVec.ofNat 32 (redElem op .f32 a.toNat b.toNat)
             ∧ redWord op true a b = BitVec.ofNat 32 (redElem op .bf16 (a.toNat % 0x10000) (b.toNat % 0x10000)
                 + 0x10000 * redElem op .bf16 (a.toNat / 0x10000) (b.toNat / 0x10000)))

/-- R171, R190, R191: a task-queue operation waits while an older access of its thread is unperformed, and else issues with its entry, its
status register and its deque; one that would take an uncorrectable entry traps ECC_FATAL. R156 to R159, R191: a pop by the owner's thread
takes the newest entry of its deque, a steal the oldest entry of the deque it names, a push to a deque with room adds one, and an
empty, a full or a foreign deque answers 0, 0 or 2; with task queues disabled every operation answers 2.
The c.taddr of that trap is the model's (log 61). -/
def Obligations.TaskQueues : Prop :=
  (∀ (s : State) (f : FmtC) (c : Reg), s.th.ctx.pred f.p = true →
     let sl := slotArg s.th.ctx c
     let push : TqOp := .push sl (entryOf s.th.ctx f.a)
     let steal : TqOp := .steal (slotArg s.th.ctx f.a)
     let joined (i : Instr) (k : AccKind) : Prop :=
       ∃ (t : State) (a : Access), exec i s = .next t ∧ Joins s t a ∧ SameRegsBut [] s t ∧ a.dc = f.dc ∧ a.kind = k ∧ a.spec = false
         ∧ a.fault = none
     (s.th.accs ≠ [] → exec (.tqPush f c) s = .next s ∧ exec (.tqPop f.p f.d f.look f.dc c) s = .next s
         ∧ exec (.tqSteal f c) s = .next s)
       ∧ (s.th.accs = [] →
         joined (.tqPush f c) (.tq push f.d 0)
           ∧ (tqFails s .pop = false → joined (.tqPop f.p f.d f.look f.dc c) (.tq .pop c f.d))
           ∧ (tqFails s .pop = true → exec (.tqPop f.p f.d f.look f.dc c) s = raise s (.trap cEccFatal 0 0))
           ∧ (tqFails s steal = false → joined (.tqSteal f c) (.tq steal c f.d))
           ∧ (tqFails s steal = true → exec (.tqSteal f c) s = raise s (.trap cEccFatal 0 0))))
    ∧ (∀ (s : State) (e : Vector Word 4) (n k2 : Nat),
         let k := s.th.place.core
         let c := getCore s k
         (s.th.place.tq = false → ∀ op, tqApply s op = (s, 2, none))
           ∧ (s.th.place.tq = true →
             (c.owner ≠ some s.th.id.lid → tqApply s .pop = (s, 2, none) ∧ tqApply s (.push none e) = (s, 2, none))
               ∧ (c.owner = some s.th.id.lid →
                   (c.deque = [] → tqApply s .pop = (s, 0, none))
                     ∧ (c.deque.length < 512 →
                         ∃ t, tqApply s (.push none e) = (t, 1, none) ∧ (getCore t k).deque = c.deque ++ [e]
                           ∧ ∃ u, tqApply t .pop = (u, 1, some e) ∧ (getCore u k).deque = c.deque)
                     ∧ (512 ≤ c.deque.length → tqApply s (.push none e) = (s, 0, none)))
               ∧ (tqCore s (some n) = none → tqApply s (.steal (some n)) = (s, 4, none))
               ∧ (tqCore s (some n) = some k2 →
                   ((getCore s k2).owner ≠ some s.th.id.lid → tqApply s (.steal (some n)) = (s, 2, none))
                     ∧ ((getCore s k2).owner = some s.th.id.lid → (getCore s k2).deque = [] →
                         tqApply s (.steal (some n)) = (s, 0, none))
                     ∧ (∀ r, (getCore s k2).owner = some s.th.id.lid → (getCore s k2).deque = e :: r →
                         ∃ u, tqApply s (.steal (some n)) = (u, 1, some e) ∧ (getCore u k2).deque = r))))

/-- R104, R106, R166, R204: LOAD_COMPLETE of a thread's only access, or PARKED_LOAD_RESUME of one that was parked, reads the bytes of
its range and writes them, low byte first, extended as the form says; the access is gone and its counter falls. A load to a peer that
has sent no request sends it, and one that has waits for its response. R204, R208: PARKED_LOAD_RESUME of a thread parked on a spill or a
fill lets it issue again once that piece may perform. -/
def Obligations.LoadCompletes : Prop :=
  (∀ (s : State) (a : Access) (n : Nat) (ds : List Reg) (ext : LoadExt) (loc : Loc) (bs : List Byte),
    s.th.accs = [a] → a.spec = false → a.fault = none → a.kind = .load n ext ds → a.loc = some loc →
    (a.parked = true → s.th.wpark = none) →
    let ev := if a.parked then Instr.parkedLoadResume s.th.id else .loadComplete s.th.id
    (loc.isPeer = false → gate s s.th.place.die .rd loc a.ea n = .go →
      peekLoc s s.th.place.die (thGen s s.th) loc n = bs →
        ∃ t : State, exec ev s = .next t ∧ t.th.accs = []
          ∧ (∀ r, t.th.ctx.reg r = (loadWrite s.th.ctx n ext ds bs).reg r)
          ∧ (∀ d, ds = [d] → d ≠ 0 → n ≤ 4 →
              (ext = .zext → t.th.ctx.reg d = BitVec.ofNat 32 (natOfBytes bs))
                ∧ (ext = .sext → n = 1 → t.th.ctx.reg d = (BitVec.ofNat 8 (natOfBytes bs)).signExtend 32)
                ∧ (ext = .sext → n = 2 → t.th.ctx.reg d = (BitVec.ofNat 16 (natOfBytes bs)).signExtend 32))
          ∧ (∀ d, ds = [d, plusReg d 1] → d.val % 2 = 0 → d ≠ 0 → n = 8 → ext = .zext →
              t.th.ctx.pair d = BitVec.ofNat 64 (natOfBytes bs))
          ∧ (a.dc.val < 6 → dcGet t.th a.dc = dcGet s.th a.dc - 1)
          ∧ (∀ k : Fin 7, k ≠ a.dc → dcGet t.th k = dcGet s.th k)
          ∧ SameRegsBut ds s t ∧ SamePredsBut [] s t ∧ t.th.ctx.fpst = s.th.ctx.fpst ∧ SameMemory s t)
      ∧ (∀ d o own, loc = .peer d o own → a.parked = false →
          (a.serial = none →
              ∃ (t : State) (q : Flit), exec ev s = .next t ∧ t.out = s.out ++ [q] ∧ q.ty = 0x01 ∧ q.dst = d ∧ q.addr = o ∧ q.aux = n
                ∧ t.th.accs = [{ a with serial := some s.fab.nextSerial }] ∧ t.th.ctx = s.th.ctx ∧ SameMemory s t)
            ∧ (a.serial ≠ none → exec ev s = .next s)))
    ∧ (∀ (s : State) (w : Bool × Loc × DWord), s.th.wpark = some w →
        gate s s.th.place.die (if w.1 then .wr else .rd) w.2.1 w.2.2 16 ≠ .park →
          exec (.parkedLoadResume s.th.id) s = .next { s with th := { s.th with wpark := none } })

/-- R166, R216, R243: STORE_PERFORM of a store to HBM in one sector of its own key, or to a scratchpad, writes its bytes at its
location, and no other byte of memory. R219, R361: in every sector, and as MIRROR_WRITE_APPLY on a mirror page, the write is the model's
`pokeLoc`, which writes both replicas of a mirror page. R376: a store to a peer sends its request. -/
def Obligations.StorePerforms : Prop :=
  ∀ (s : State) (a : Access) (bs : List Byte) (loc : Loc), s.Canonical →
    s.th.accs = [a] → a.spec = false → a.fault = none → a.kind = .store bs → a.loc = some loc →
    (writeGate s a loc false = .go →
        (∀ pa, loc = .hbm pa false → pa % 64 + bs.length ≤ 64 →
            (∀ g, keyGet s.mem.tags (sectorOf pa) = some g → g = thGen s s.th) →
            ∃ t : State, exec (.storePerform s.th.id) s = .next t ∧ t.th.accs = []
              ∧ (∀ k, k < bs.length → t.hbmByte (pa + k) = bs.getD k 0)
              ∧ (∀ b, b < pa ∨ pa + bs.length ≤ b → t.hbmByte b = s.hbmByte b)
              ∧ (∀ c k o, t.spadByte c k o = s.spadByte c k o)
              ∧ SameRegsBut [] s t ∧ SamePredsBut [] s t)
          ∧ (∀ c i o, loc = .spad c i o → (findSlot s c i).isSome = true →
            ∃ t : State, exec (.storePerform s.th.id) s = .next t ∧ t.th.accs = []
              ∧ (∀ k, k < bs.length → t.spadByte c i (o + k) = bs.getD k 0)
              ∧ (∀ b, b < o ∨ o + bs.length ≤ b → t.spadByte c i b = s.spadByte c i b)
              ∧ (∀ c' i' b, (c' ≠ c ∨ i' ≠ i) → t.spadByte c' i' b = s.spadByte c' i' b)
              ∧ (∀ b, t.hbmByte b = s.hbmByte b)
              ∧ SameRegsBut [] s t ∧ SamePredsBut [] s t)
          ∧ (loc.isPeer = false →
            ∃ t : State, exec (if isMirror a.loc then .mirrorWriteApply s.th.id else .storePerform s.th.id) s = .next t
              ∧ t.th.accs = []
              ∧ t.mem.hbm = (pokeLoc s (writeDie s a false loc) (thGen s s.th) loc bs).mem.hbm
              ∧ t.clusters = (pokeLoc s (writeDie s a false loc) (thGen s s.th) loc bs).clusters
              ∧ SameRegsBut [] s t ∧ SamePredsBut [] s t))
      ∧ (∀ d o own, loc = .peer d o own → a.serial = none →
        ∃ (t : State) (q : Flit), exec (.storePerform s.th.id) s = .next t ∧ t.out = s.out ++ [q] ∧ q.ty = 0x02 ∧ q.dst = d
          ∧ q.addr = o ∧ q.aux = bs.length ∧ q.payload = bs ∧ t.th.accs = [{ a with serial := some s.fab.nextSerial }]
          ∧ t.th.ctx = s.th.ctx ∧ SameMemory s t)

/-- R186, R188, R189, R216, R360, R361: ATOMIC_PERFORM, or MIRROR_WRITE_APPLY on a mirror page, of a thread's only access: an atomic's
register or pair receives the old value, and the location the new one; a reduce-store combines its values with those at its location.
The access is made at its home die's slice, or at the sequencer of a mirror page. R190, R191: a task-queue operation's status register
receives its status, and its entry registers the entry that it takes. R376: an atomic at a peer sends its request.
That the entry is written first and the status register last is the model's reading (log 36). -/
def Obligations.AtomicPerforms : Prop :=
  (∀ (s : State) (a : Access) (op : AtomOp) (n : Nat) (c e : DWord) (d : Reg) (loc : Loc),
    s.th.accs = [a] → a.spec = false → a.fault = none → a.kind = .atom op n c e d → a.loc = some loc →
    let ev := if isMirror a.loc then Instr.mirrorWriteApply s.th.id else .atomicPerform s.th.id
    let die := writeDie s a true loc
    let old := natOfBytes (peekLoc s die (thGen s s.th) loc n)
    let p := pokeLoc s die (thGen s s.th) loc (bytesOfNat n (atomNew op n old c.toNat e.toNat))
    (loc.isPeer = false → writeGate s a loc true = .go →
      ∃ t : State, exec ev s = .next t ∧ t.th.accs = [] ∧ t.mem.hbm = p.mem.hbm ∧ t.clusters = p.clusters
        ∧ (n = 4 → d ≠ 0 → t.th.ctx.reg d = BitVec.ofNat 32 old)
        ∧ (n = 4 → SameRegsBut [d] s t)
        ∧ (n = 8 → d.val % 2 = 0 → d ≠ 0 → t.th.ctx.pair d = BitVec.ofNat 64 old)
        ∧ (n = 8 → SameRegsBut (pairRegs d) s t)
        ∧ SamePredsBut [] s t ∧ t.th.ctx.fpst = s.th.ctx.fpst)
      ∧ (∀ dev o own, loc = .peer dev o own → a.serial = none →
        ∃ (t : State) (q : Flit), exec ev s = .next t ∧ t.out = s.out ++ [q] ∧ q.ty = 0x03 ∧ q.dst = dev ∧ q.addr = o
          ∧ t.th.accs = [{ a with serial := some s.fab.nextSerial }] ∧ t.th.ctx = s.th.ctx ∧ SameMemory s t))
    ∧ (∀ (s : State) (a : Access) (op : RedOp) (bf : Bool) (v : List Word) (loc : Loc),
      s.th.accs = [a] → a.spec = false → a.fault = none → a.kind = .red op bf v → a.loc = some loc →
      loc.isPeer = false → writeGate s a loc true = .go →
      let die := writeDie s a true loc
      let p := pokeLoc s die (thGen s s.th) loc (redBytes op bf v (peekLoc s die (thGen s s.th) loc (4 * v.length)))
        ∃ t : State, exec (if isMirror a.loc then .mirrorWriteApply s.th.id else .atomicPerform s.th.id) s = .next t
          ∧ t.th.accs = [] ∧ t.mem.hbm = p.mem.hbm ∧ t.clusters = p.clusters
          ∧ SameRegsBut [] s t ∧ SamePredsBut [] s t ∧ t.th.ctx.fpst = s.th.ctx.fpst)
    ∧ (∀ (s : State) (a : Access) (op : TqOp) (st d : Reg),
      s.th.accs = [a] → a.spec = false → a.fault = none → a.kind = .tq op st d → a.loc = none → tqFails s op = false →
      let r := tqApply s op
        ∃ t : State, exec (.atomicPerform s.th.id) s = .next t ∧ t.th.accs = []
          ∧ (st ≠ 0 → t.th.ctx.reg st = r.2.1)
          ∧ (r.2.2 = none → SameRegsBut [st] s t)
          ∧ (∀ e, r.2.2 = some e → ∀ k, t.th.ctx.reg k = ((s.th.ctx.setRegs d e.toList).setReg st r.2.1).reg k)
          ∧ SamePredsBut [] s t ∧ SameMemory s t)

/-- R238, R244, R245: a conflict notice cancels the thread's region: it stands at the checkpoint of its first uncommitted access,
c.rbk counts it, and no byte of memory changes. R246, R327: a held fault of the oldest access is taken at that access's instruction, with
the nested flag where that access is a piece of the fill of a `tret`; R339: a timeout of a thread whose cluster is being saved is kept.
R248: OWNED_WAIT_EXPIRY of a write held for a watch with intent gives that watch's thread its notice.
What a rollback restores is read as log 10 says. -/
def Obligations.RegionsRollBack : Prop :=
  (∀ (s : State) (a b : Access) (e : Exc),
     (s.th.accs = [a, b] → a.spec = false → b.spec = true → s.th.notice = true → s.th.ops = [] →
         ∃ t : State, exec (.conflictNotice s.th.id) s = .next t ∧ t.th.accs = [a] ∧ t.th.ctx = b.snap ∧ t.th.notice = false
           ∧ t.th.rbk = satInc s.th.rbk ∧ SameMemory s t)
       ∧ (s.th.accs = [a] → a.fault = some e → s.th.ops = [] →
           ∃ u : State, u.th.ctx = a.snap ∧ u.th.accs = [] ∧ u.mem = s.mem ∧ u.clusters = s.clusters
             ∧ u.th.rbk = (if a.spec then satInc s.th.rbk else s.th.rbk)
             ∧ (timeoutHeld s e = false → a.ofTret = false → exec (.deferredTrapTaken s.th.id) s = .next (takeExc u e))
             ∧ (timeoutHeld s e = false → a.ofTret = true → exec (.deferredTrapTaken s.th.id) s = .next (windowFault u e))
             ∧ (timeoutHeld s e = true →
                 exec (.deferredTrapTaken s.th.id) s = .next { u with th := { u.th with pend := some e } })))
    ∧ (∀ (s : State) (a : Access) (rest : List Access) (loc : Loc) (x : Thread), s.th.accs = a :: rest → a.held = true →
         a.loc = some loc → x ∈ s.pool → x.id ≠ s.th.id → x.intends loc a.kind.size = true →
           ∃ t : State, exec (.ownedWaitExpiry s.th.id) s = .next t ∧ t.mem = s.mem
             ∧ ∃ y ∈ t.pool, y.id = x.id ∧ y.notice = true ∧ y.ctx = x.ctx)

/-! ## Groups, barriers and pickers -/

/-- R151, R153, R177 to R183, R255: a lane whose guard is true arrives at a group-collective or matrix instruction once its accesses and
operations are complete, and waits there with its member set, its own lane always a member; with older ones it waits to arrive. The
lanes of one bundle arrive together: the last of them has the arrival judged, and lanes whose masks disagree, or that name a lane waiting
elsewhere, trap CONV_DEADLOCK. R126, R127: an odd pair at W = 16 is illegal before the guard is looked at; else a false guard only
advances.
When two lanes meet, and when a lane arrives, is read as log 25 says, and that the odd pair is judged before the guard as log 38 says. -/
def Obligations.GroupArrival : Prop :=
  ∀ (s : State) (i : Instr) (p : Pred) (mask : Reg), groupForm i = some (p, mask) →
    let all : BitVec 64 := BitVec.ofNat 64 (2 ^ s.th.place.width - 1)
    let m := (if mask = 0 then all else s.th.ctx.pair mask &&& all) ||| (1#64 <<< s.th.place.lane)
    let u := modTh s fun t => { t with status := .rv m 0 i }
    (oddPairAt s.th.place.width i = true → exec i s = illegal s)
      ∧ (oddPairAt s.th.place.width i = false → s.th.ctx.pred p = false → exec i s = .next (advance s))
      ∧ (oddPairAt s.th.place.width i = false → s.th.ctx.pred p = true →
        (s.th.accs = [] → s.th.ops = [] → (deadlocked (groupOf u u.th) u.th = [] ∨ moreArrive u = true) → exec i s = .next u)
          ∧ (s.th.accs = [] → s.th.ops = [] → moreArrive u = false →
              exec i s = .next ((deadlocked (groupOf u u.th) u.th).foldl (fun s l => trapLane s l.id (.trap cConvDeadlock 0 0)) u))
          ∧ ((s.th.accs ≠ [] ∨ s.th.ops ≠ []) → exec i s = .next s))

/-- R58: the pairwise tree of `op` over the 2^k positions from `b` on, with the flags of its roundings. -/
def pairTree (op : GOp) (v : Nat → Nat) : Nat → Nat → Nat × Word
  | 0, b => (v b, 0)
  | k + 1, b =>
    let x := pairTree op v k b
    let y := pairTree op v k (b + 2 ^ k)
    let z := gopCombine op x.1 y.1
    (z.1, x.2 ||| y.2 ||| z.2)

/-- R145, R151, R152, R177 to R182, R126, R127: RENDEZVOUS_ISSUE of a complete rendezvous runs its instruction once for its members: each
goes on with its new registers, EXITED where a lane named has ended, and no other lane changes. A shuffle in each mode gives a member its
source lane's word or pair, or its own beyond the members; a vote counts, lists or finds the yes lanes; a reduction combines all W positions,
which for the integer and bitwise operations is their sum, bound or bitwise combination; a scan combines the positions up to its lane in
rising order; `qblk` writes its lane's word of the packed block and one byte of the scale register, and `dqblk` its lane's elements.
A lane at its divergence limit traps CONV_DEADLOCK.
The block functions follow log 57, the scale of `dqblk` among them. -/
def Obligations.GroupExchange : Prop :=
  (∀ (s : State) (m : BitVec 64) (n : Nat) (i : Instr), s.th.status = .rv m n i →
      let mem := (rvMembers s s.th m).1
      let gone := (rvMembers s s.th m).2
      (verdict (groupOf s s.th) s.th = .complete → isMatrix i = false →
          exec (.rendezvousIssue s.th.id) s = .next (runExchange s i mem gone)
            ∧ ((threads s).Pairwise (fun x y => x.id ≠ y.id) →
              ∃ t, exec (.rendezvousIssue s.th.id) s = .next t ∧ SameMemory s t ∧ ∀ x ∈ threads s, ∃ y ∈ threads t, y.id = x.id
                ∧ (x ∈ mem → y.status = .run ∧ y.exitedF = (x.exitedF || gone) ∧ (∀ r, y.ctx.reg r = (groupOut i mem x).reg r)
                  ∧ (∀ p, y.ctx.pred p = x.ctx.pred p) ∧ y.ctx.fpst = (groupOut i mem x).fpst)
                ∧ (x ∉ mem → y.ctx = x.ctx ∧ y.status = x.status)))
        ∧ (verdict (groupOf s s.th) s.th = .complete → isMatrix i = true →
          exec (.rendezvousIssue s.th.id) s = .next (runMatrix s i mem gone s.th))
        ∧ (verdict (groupOf s s.th) s.th = .limit →
          exec (.divergenceWaitLimit s.th.id) s = .next (trapLane s s.th.id (.trap 4 0 0))))
    -- shuffles
    ∧ (∀ (f : FmtA) (md : ShflMode) (k : Reg) (mem : List Thread) (l : Thread), f.d ≠ 0 →
        let b := l.ctx.reg f.b
        let w := l.place.width
        let seg := 2 ^ Nat.min (b.toNat % 8) (Nat.log2 w)
        let from' : Nat := match md with
          | .sel => b.toNat
          | .rot => (l.place.lane + b.toNat % 64) % w
          | .rev => l.place.lane ^^^ (seg - 1)
          | .seg => l.place.lane - l.place.lane % seg + b.toNat / 256 % 64 % seg
        let u (ty : RawTy) : Ctx := groupOut (.shfl f md ty k) mem l
        (∀ src, (atLane mem from' = some src ∨ (atLane mem from' = none ∧ src = l)) →
            (u .b32).reg f.d = src.ctx.reg f.a ∧ (f.d.val % 2 = 0 → (u .b64).pair f.d = src.ctx.pair f.a))
          ∧ (∀ r, r ≠ f.d → (u .b32).reg r = l.ctx.reg r)
          ∧ (∀ r, r ∉ pairRegs f.d → (u .b64).reg r = l.ctx.reg r)
          ∧ (u .b32).fpst = l.ctx.fpst ∧ (u .b64).fpst = l.ctx.fpst)
    -- votes
    ∧ (∀ (f : FmtU) (k : Reg) (mem : List Thread) (l : Thread), f.d ≠ 0 →
        let yes (n : Nat) : Prop := n < 64 ∧ ∃ t, atLane mem n = some t ∧ t.ctx.reg f.a ≠ 0
        let v (md : VoteMode) : Word := (groupOut (.vote f md k) mem l).reg f.d
        v .count = BitVec.ofNat 32 ((List.range 64).countP fun n => match atLane mem n with
                | none => false
                | some t => t.ctx.reg f.a != 0)
          ∧ (f.d.val % 2 = 0 → ∀ n, n < 64 → (((groupOut (.vote f .mask k) mem l).pair f.d).getLsbD n = true ↔ yes n))
          ∧ ((∀ n, ¬yes n) → v .first = 0xFFFFFFFF ∧ v .last = 0xFFFFFFFF)
          ∧ (∀ n, yes n → (∀ j, j < n → ¬yes j) → v .first = BitVec.ofNat 32 n)
          ∧ (∀ n, yes n → (∀ j, n < j → ¬yes j) → v .last = BitVec.ofNat 32 n))
    -- reductions and scans
    ∧ (∀ (f : FmtU) (op : GOp) (k : Reg) (mem : List Thread) (l : Thread) (lg : Nat), f.d ≠ 0 → l.place.width = 2 ^ lg →
        (lg = 4 ∨ lg = 5 ∨ lg = 6) →
        let wide := gopBits op = 64
        let val (c : Ctx) (r : Reg) : Nat := if wide then (c.pair r).toNat else (c.reg r).toNat
        let pos (j : Nat) : Nat := match atLane mem j with
          | none => gopId op
          | some t => val t.ctx f.a
        let holds (c : Ctx) (r : Nat × Word) : Prop := c.fpst = l.ctx.fpst ||| r.2
          ∧ (¬wide → c.reg f.d = BitVec.ofNat 32 r.1) ∧ (wide → f.d.val % 2 = 0 → c.pair f.d = BitVec.ofNat 64 r.1)
          ∧ ∀ r, r ∉ (if gopBits op = 64 then pairRegs f.d else [f.d]) → c.reg r = l.ctx.reg r
        let next (x : Nat × Word) (v : Nat) : Nat × Word := ((gopCombine op x.1 v).1, x.2 ||| (gopCombine op x.1 v).2)
        let upTo (n : Nat) : Nat × Word := match op, n with
          | .addF, m + 1 => ((List.range m).map fun j => pos (j + 1)).foldl next (canonNan .f32 (pos 0))
          | _, n => ((List.range n).map pos).foldl next (gopId op, 0)
        holds (groupOut (.gred f op k) mem l) (pairTree op pos lg 0)
          ∧ (l.place.lane < l.place.width →
              holds (groupOut (.gscan f op false k) mem l) (upTo (l.place.lane + 1))
                ∧ holds (groupOut (.gscan f op true k) mem l) (upTo l.place.lane)))
    ∧ (∀ (f : FmtU) (k : Reg) (mem : List Thread) (l : Thread), f.d ≠ 0 →
        (l.place.width = 16 ∨ l.place.width = 32 ∨ l.place.width = 64) →
        let vs (z : Word) : List Word := (List.range l.place.width).map fun j => match atLane mem j with
          | none => z
          | some t => t.ctx.reg f.a
        let r (op : GOp) : Word := (groupOut (.gred f op k) mem l).reg f.d
        r (.addI .n32) = (vs 0).sum ∧ r (.addI .s32) = (vs 0).sum
          ∧ r (.and .b32) = (vs 0xFFFFFFFF).foldl (· &&& ·) 0xFFFFFFFF ∧ r (.or .b32) = (vs 0).foldl (· ||| ·) 0
          ∧ r (.xor .b32) = (vs 0).foldl (· ^^^ ·) 0
          ∧ (r (.minI .n32)).toNat = (vs 0xFFFFFFFF).foldl (fun x v => Min.min x v.toNat) 0xFFFFFFFF
          ∧ (r (.maxI .n32)).toNat = (vs 0).foldl (fun x v => Max.max x v.toNat) 0
          ∧ (r (.minI .s32)).toInt = (vs 0x7FFFFFFF).foldl (fun x v => Min.min x v.toInt) 0x7FFFFFFF
          ∧ (r (.maxI .s32)).toInt = (vs 0x80000000).foldl (fun x v => Max.max x v.toInt) (-0x80000000))
    ∧ (gopId .addF = 0x80000000 ∧ gopId .minF = 0x7F800000 ∧ gopId .maxF = 0xFF800000
        ∧ gopId (.minI .s64) = 2 ^ 63 - 1 ∧ gopId (.maxI .s64) = 2 ^ 63 ∧ gopId (.minI .n64) = 2 ^ 64 - 1 ∧ gopId (.maxI .n64) = 0
        ∧ gopId (.and .b64) = 2 ^ 64 - 1 ∧ ∀ x y : Nat, gopCombine .addF x y = faddBits .f32 .rne x y
          ∧ gopCombine .minF x y = fminmax .f32 false x y ∧ gopCombine .maxF x y = fminmax .f32 true x y)
    -- block quantisation
    ∧ (∀ (f : FmtU) (fmt : MxFmt) (bsel : Fin 4) (dth : Bool) (e k : Reg) (mem : List Thread) (l : Thread),
        f.d ≠ 0 → e ≠ 0 → e ≠ f.d → (l.place.width = 16 ∨ l.place.width = 32 ∨ l.place.width = 64) → l.place.lane < l.place.width →
        let w := l.place.width
        let base := if w = 64 then l.place.lane / 32 * 32 else 0
        let at32 (j : Nat) : Option Thread := atLane mem (if w = 16 then j / 2 else base + j)
        let src (j : Nat) : Reg := if w = 16 ∧ j % 2 = 1 then plusReg f.a 1 else f.a
        let xs := (List.range 32).map fun j => match at32 j with
          | none => Machine.Num.fin false 0 0
          | some t => if w = 16 ∧ f.a = 0 then Machine.Num.fin false 0 0 else numOf .f32 (t.ctx.reg (src j)).toNat
        let ph := (List.range 32).map fun j => match at32 j with
          | none => j
          | some t => j + t.ctx.dphase.toNat
        let q := quantBlock fmt xs (if dth then some ph else none)
        let u := groupOut (.qblk f fmt bsel dth e k) mem l
        let p := l.place.lane - base
        let nw := match fmt with | .mx8 => 8 | .mx6 => 6 | .mx4 => 4
        (p < nw → u.reg f.d = BitVec.ofNat 32 (packN (mxElem fmt).bits q.2.1 / 2 ^ (32 * p)))
          ∧ (nw ≤ p → u.reg f.d = 0)
          ∧ (∀ b : Fin 4, (u.reg e).toNat / 2 ^ (8 * b.val) % 256
              = if b = bsel then q.1 % 256 else (l.ctx.reg e).toNat / 2 ^ (8 * b.val) % 256)
          ∧ u.fpst = l.ctx.fpst ||| q.2.2 ∧ u.dphase = (if dth then l.ctx.dphase + 1 else l.ctx.dphase)
          ∧ ∀ r, r ≠ f.d → r ≠ e → u.reg r = l.ctx.reg r)
    ∧ (∀ (f : FmtU) (fmt : MxFmt) (bsel : Fin 4) (e k : Reg) (mem : List Thread) (l lead : Thread) (n : Nat),
        f.d ≠ 0 → (l.place.width = 16 ∨ l.place.width = 32 ∨ l.place.width = 64) → l.place.lane < l.place.width →
        let w := l.place.width
        let base := if w = 64 then l.place.lane / 32 * 32 else 0
        -- the lowest-numbered member of the block
        atLane mem n = some lead → base ≤ n → (w = 64 → n < base + 32) → n < 64 → (∀ j, base ≤ j → j < n → atLane mem j = none) →
        let scale := (lead.ctx.reg e).toNat / 2 ^ (8 * bsel.val) % 256
        let word (j : Nat) : Nat := match atLane mem (base + j) with
          | none => 0
          | some t => (t.ctx.reg f.a).toNat
        let nw := match fmt with | .mx8 => 8 | .mx6 => 6 | .mx4 => 4
        let str := ((List.range nw).map fun j => word j * 2 ^ (32 * j)).sum
        let bits := (mxElem fmt).bits
        let el (j : Nat) : Nat × Word := dequant fmt scale (str / 2 ^ (bits * j) % 2 ^ bits)
        let u := groupOut (.dqblk f fmt bsel e k) mem l
        (w = 16 → f.d.val % 2 = 0 → u.reg f.d = BitVec.ofNat 32 (el (2 * l.place.lane)).1
            ∧ u.reg (plusReg f.d 1) = BitVec.ofNat 32 (el (2 * l.place.lane + 1)).1
            ∧ u.fpst = l.ctx.fpst ||| ((el (2 * l.place.lane)).2 ||| (el (2 * l.place.lane + 1)).2))
          ∧ (w ≠ 16 → u.reg f.d = BitVec.ofNat 32 (el (l.place.lane - base)).1 ∧ u.fpst = l.ctx.fpst ||| (el (l.place.lane - base)).2
            ∧ ∀ r, r ≠ f.d → u.reg r = l.ctx.reg r))
    ∧ (∀ (fmt : MxFmt) (scale code : Nat), code < 2 ^ (mxElem fmt).bits → scale < 256 →
        (scale = 0xFF → dequant fmt scale code = (0x7FC00000, 0))
          ∧ ((numOf (mxElem fmt) code).isFin = false → dequant fmt scale code = (0x7FC00000, 0))
          ∧ ((numOf (mxElem fmt) code).isFin = true → scale ≠ 0xFF →
            let x := numQ (numOf (mxElem fmt) code) * (2 : ℚ) ^ ((scale : Int) - 127)
            let r := dequant fmt scale code
            (2 ^ 128 ≤ |x| → numOf .f32 r.1 = .inf (decide (x < 0)) ∧ r.2 = fOF ||| fNX)
              ∧ ((2 : ℚ) ^ (-126 : Int) ≤ |x| → |x| < 2 ^ 128 → numQ (numOf .f32 r.1) = x ∧ r.2 = 0)
              ∧ (|x| < (2 : ℚ) ^ (-126 : Int) → roundsTo .rne x (-149) (numQ (numOf .f32 r.1)) ∧ r.2 = if x = 0 then 0 else fUF ||| fNX)))
    ∧ ∀ (c : Ctx) (r : Reg) (mem : List Thread) (l : Thread), groupOut (.gsync 15 r) mem { l with ctx := c } = c

/-- R184, R185: an arrival at an empty barrier opens its phase with the count that its register holds; one at an open barrier is counted
in. A `.sync` thread waits there, an `.arrive` thread goes on. The phase is complete once its count has arrived, or, where the count is
0, once every live thread of the team or cluster has; the barrier is then empty again, and the thread and those that waited there go on.
With accesses or operations outstanding the thread waits to arrive (log 25). -/
def Obligations.BarrierArrival : Prop :=
  ∀ (s : State) (p : Pred) (a : Reg) (n : Fin 16) (m : Fin 4) (arr : Bool) (k : Cluster) (tm : Team) (b : Barrier),
    s.th.ctx.pred p = true → s.th.status = .run →
    findCluster s s.th.cid = some k → k.teams[s.th.id.team]? = some tm →
    let v := s.th.ctx.reg a
    let seen := if b.seen.contains s.th.id then b.seen else s.th.id :: b.seen
    let distinct : Prop := (threads s).Pairwise fun x y => x.id ≠ y.id
    (s.th.accs ≠ [] ∨ s.th.ops ≠ [] → exec (.tbar p a n arr) s = .next s ∧ exec (.cbar p a m arr) s = .next s)
      ∧ (s.th.accs = [] → s.th.ops = [] →
        (tm.bars[n.val]? = some Barrier.empty →
            ∃ t tm', exec (.tbar p a n arr) s = .next t ∧ findTeam t s.th.cid s.th.id.team = some tm'
              ∧ (2 ≤ v.toNat ∨ (v = 0 ∧ ∃ x ∈ s.pool, sameTeam x s.th = true ∧ x.live = true ∧ x.id ≠ s.th.id) →
                  tm'.bars[n.val]? = some ⟨true, v, 1, [s.th.id]⟩ ∧ t.th.status = (if arr then .run else .tbar n.val))
              ∧ (v = 1 ∨ (v = 0 ∧ ∀ x ∈ s.pool, sameTeam x s.th = true → x.live = true → x.id = s.th.id) →
                  tm'.bars[n.val]? = some Barrier.empty ∧ t.th.status = .run)
              ∧ SameRegsBut [] s t ∧ SamePredsBut [] s t ∧ t.mem = s.mem)
          ∧ (tm.bars[n.val]? = some b → b.opened = true →
            let fin := if b.expect = 0 then ∀ x ∈ s.pool, sameTeam x s.th = true → x.live = true → x.id ∈ seen
              else b.expect.toNat ≤ b.arrived + 1
            ∃ t tm', exec (.tbar p a n arr) s = .next t ∧ findTeam t s.th.cid s.th.id.team = some tm'
              ∧ (¬fin → tm'.bars[n.val]? = some ⟨true, b.expect, b.arrived + 1, seen⟩ ∧ t.th.status = (if arr then .run else .tbar n.val)
                ∧ (distinct → ∀ x ∈ s.pool, sameTeam x s.th = true → x.status = .tbar n.val →
                    ∃ y ∈ t.pool, y.id = x.id ∧ y.status = .tbar n.val ∧ y.ctx = x.ctx))
              ∧ (fin → tm'.bars[n.val]? = some Barrier.empty ∧ t.th.status = .run
                ∧ (distinct → ∀ x ∈ s.pool, sameTeam x s.th = true → x.status = .tbar n.val →
                    ∃ y ∈ t.pool, y.id = x.id ∧ y.status = .run ∧ ∀ r, y.ctx.reg r = x.ctx.reg r))
              ∧ SameRegsBut [] s t ∧ SamePredsBut [] s t ∧ t.mem = s.mem)
          ∧ (k.cbars[m.val]? = some Barrier.empty →
            ∃ t k', exec (.cbar p a m arr) s = .next t ∧ findCluster t s.th.cid = some k'
              ∧ (2 ≤ v.toNat ∨ (v = 0 ∧ ∃ x ∈ s.pool, sameCluster x s.th = true ∧ x.live = true ∧ x.id ≠ s.th.id) →
                  k'.cbars[m.val]? = some ⟨true, v, 1, [s.th.id]⟩ ∧ t.th.status = (if arr then .run else .cbar m.val))
              ∧ (v = 1 ∨ (v = 0 ∧ ∀ x ∈ s.pool, sameCluster x s.th = true → x.live = true → x.id = s.th.id) →
                  k'.cbars[m.val]? = some Barrier.empty ∧ t.th.status = .run)
              ∧ SameRegsBut [] s t ∧ SamePredsBut [] s t ∧ t.mem = s.mem)
          ∧ (k.cbars[m.val]? = some b → b.opened = true →
            let fin := if b.expect = 0 then ∀ x ∈ s.pool, sameCluster x s.th = true → x.live = true → x.id ∈ seen
              else b.expect.toNat ≤ b.arrived + 1
            ∃ t k', exec (.cbar p a m arr) s = .next t ∧ findCluster t s.th.cid = some k'
              ∧ (¬fin → k'.cbars[m.val]? = some ⟨true, b.expect, b.arrived + 1, seen⟩ ∧ t.th.status = (if arr then .run else .cbar m.val)
                ∧ (distinct → ∀ x ∈ s.pool, sameCluster x s.th = true → x.status = .cbar m.val →
                    ∃ y ∈ t.pool, y.id = x.id ∧ y.status = .cbar m.val ∧ y.ctx = x.ctx))
              ∧ (fin → k'.cbars[m.val]? = some Barrier.empty ∧ t.th.status = .run
                ∧ (distinct → ∀ x ∈ s.pool, sameCluster x s.th = true → x.status = .cbar m.val →
                    ∃ y ∈ t.pool, y.id = x.id ∧ y.status = .run ∧ ∀ r, y.ctx.reg r = x.ctx.reg r))
              ∧ SameRegsBut [] s t ∧ SamePredsBut [] s t ∧ t.mem = s.mem))

/-- R143, R145, R148, R149: a yield and a merge hold end after 64 opportunities, the hold with MHOLD set and with every hold of the group
at that address; AGEING_ISSUE makes the path of the aged thread the bundle, whose threads' ages fall to 0, whose yields end, and which
AGED marks. No register and no byte of memory changes.
What counts as an issue opportunity is read as log 26 says, and ties as log 60 says. -/
def Obligations.PickerEvents : Prop :=
  ∀ (s : State) (n core port : Nat) (x : Thread),
    (s.th.yielded = some n → 64 ≤ n →
        exec (.yieldExpiry s.th.id) s = .next { s with th := { s.th with yielded := none } })
      ∧ (s.th.yielded = some n → n < 64 → exec (.yieldExpiry s.th.id) s = .next s)
      ∧ (s.th.held = some n → 64 ≤ n →
        ∃ t, exec (.mergeHoldTimeout s.th.id) s = .next t ∧ t.th = { s.th with held := none, mhold := true }
          ∧ t.pool.length = s.pool.length ∧ SameDevice s t
          ∧ (∀ y ∈ s.pool, sameGroup y s.th = true → y.held.isSome = true → y.ctx.pc = s.th.ctx.pc →
              { y with held := none, mhold := true } ∈ t.pool))
      ∧ (s.th.held = some n → n < 64 → exec (.mergeHoldTimeout s.th.id) s = .next s)
      ∧ (let rdy := (onPort s core port).filter (ready s)
         pickAged rdy = some x →
        ∃ t, exec (.ageingIssue core port) s = .next t
          ∧ t.bundle = s.bundle ++ bundleOf x (bundleMates s x (pathOf rdy x))
          ∧ (s.th.id ∈ bundleOf x (bundleMates s x (pathOf rdy x)) → s.th ∈ onPort s core port →
              t.th.age = 0 ∧ t.th.aged = true ∧ t.th.yielded = none)
          ∧ t.th.ctx = s.th.ctx ∧ t.mem = s.mem ∧ t.clusters = s.clusters)

/-! ## Matrix engine -/

/-- R57, R270: an element of an integer product is the sum of the 128 products and the accumulator's word, modulo 2^32. -/
def Obligations.IntegerMatrixElement : Prop :=
  ∀ (s : State) (o : MatOp) (f : FmtM) (va z : Bool) (p : MmaOp) (lens : Lens) (old : Word) (m n : Nat),
    mmaOf (.mmaI8 f va z) = some p →
    mmaElem s o p lens old m n
      = BitVec.ofInt 32 ((if z then 0 else old.toInt)
          + ((List.range 128).map fun k => sextN 8 (codeA s o p lens m k) * sextN 8 (codeB s o p k n)).sum)

/-- R262 to R269, R274, R345: the events of a matrix operation. MMA_START begins the oldest waiting product, the slice read takes its
sources and frees them, MMA_COMPLETE puts the result into its tile; an accumulator load fills its tile; a drain reads its tile, which
goes where it was only draining, lands sector by sector, and ends; the counters of the group's lanes fall at the end of a transfer. An
uncorrectable source or tile ends the cluster. R261 to R264, R275: what the rendezvous of a matrix instruction launches. A first use
binds a name to a free tile of zeros; `acc.rd` reads the element of its tile, and 0 of an unbound name; a failing check traps every
member; a product waits for a tile, which CHAIN_START_TILE_WAIT gives it.
Corner cases are read as log 37 says. -/
def Obligations.MatrixEvents : Prop :=
  (∀ (s : State) (core : Nat) (o : MatOp) (p : MmaOp) (x : Tile) (u : Nat) (rest : List Nat) (v : Slot) (a : Nat),
     let c := getCore s core
     let falls (t : State) : Prop := s.th.cid = o.cid → s.th.id.team = o.team → s.th.place.grp = o.grp → (matDc o.ins).val < 6 →
       dcGet t.th (matDc o.ins) = dcGet s.th (matDc o.ins) - 1
     ((∀ y ∈ c.mats, isMma y = true → y.stage ≠ 1) → c.mats.find? (fun y => isMma y && y.stage == 0) = some o →
         (∀ y ∈ earlier c o, y.tile = o.tile → y.tile < 12 → (isDrain y.ins = true ∧ 2 ≤ y.stage) ∨ (isDrain y.ins = false ∧ isMma y = true)) →
         exec (.mmaStart core) s = .next (setMat s core { o with stage := 1 }))
       ∧ (c.mats.find? (fun y => isMma y && y.stage == 1) = some o → mmaOf o.ins = some p → rangesAway s o.cid o.holds = false →
           (rangesBad s o.cid o.holds = some a → exec (.mmaLastSliceRead core) s = .next (eccMatrix s o (BitVec.ofNat 64 a)))
             ∧ (rangesBad s o.cid o.holds = none → tileOf c o.tile = some x → x.bad ≠ [] → p.z = false →
                 exec (.mmaLastSliceRead core) s = .next (eccMatrix s o 0)))
       ∧ (c.mats = [o] →
         (mmaOf o.ins = some p → o.stage = 0 →
             ∃ t, exec (.mmaStart core) s = .next t ∧ (getCore t core).mats = [{ o with stage := 1 }] ∧ SameMemory s t)
           ∧ (mmaOf o.ins = some p → o.stage = 1 → rangesAway s o.cid o.holds = false → rangesBad s o.cid o.holds = none →
               tileOf c o.tile = some x → (x.bad = [] ∨ p.z = true) →
             ∃ t, exec (.mmaLastSliceRead core) s = .next t
               ∧ (getCore t core).mats = [{ o with stage := 2, holds := [], result := mmaResult s o p x.words }] ∧ SameMemory s t)
           ∧ (mmaOf o.ins = some p → o.stage = 2 → tileOf c o.tile = some x →
             ∃ t, exec (.mmaComplete core) s = .next t ∧ (getCore t core).mats = []
               ∧ tileOf (getCore t core) o.tile = some { x with words := o.result, bad := [] } ∧ SameMemory s t)
           ∧ (∀ q n a l dc off, o.ins = .accLd q n a l dc off → rangesAway s o.cid o.holds = false → rangesBad s o.cid o.holds = none →
               tileOf c o.tile = some x →
             ∃ t, exec (.accLdComplete core o.ident) s = .next t ∧ (getCore t core).mats = []
               ∧ tileOf (getCore t core) o.tile = some { x with words := loadTile s o, bad := [] } ∧ falls t ∧ SameMemory s t)
           ∧ (isDrain o.ins = true → o.stage < 2 → tileOf c o.tile = some x →
               (x.bad = [] → x.draining = false →
                 ∃ t, exec (.accTileReadEnd core o.ident) s = .next t
                   ∧ (getCore t core).mats = [{ o with stage := 2, left := List.range ((drainRange o).2.2 / 32), result := x.words }]
                   ∧ tileOf (getCore t core) o.tile = some x ∧ SameMemory s t)
                 ∧ (x.bad = [] → x.draining = true →
                 ∃ t, exec (.accTileReadEnd core o.ident) s = .next t ∧ tileOf (getCore t core) o.tile = none ∧ SameMemory s t)
                 ∧ (x.bad ≠ [] → exec (.accTileReadEnd core o.ident) s = .next (eccMatrix s o 0)))
           ∧ (o.left = u :: rest → findSlot s o.cid (drainRange o).1 = some v →
               v.isUnpinned ((drainRange o).2.1 + 32 * u) 32 = false →
             ∃ t, exec (.accSectorLanded core o.ident) s = .next t ∧ (getCore t core).mats = [{ o with left := rest }]
               ∧ findSlot t o.cid (drainRange o).1
                   = some ((v.write ((drainRange o).2.1 + 32 * u) (drainBytes o u)).setPresent ((drainRange o).2.1 + 32 * u) 32))
           ∧ (isDrain o.ins = true → o.stage = 2 → o.left = [] →
             ∃ t, exec (.accDrainComplete core o.ident) s = .next t ∧ (getCore t core).mats = [] ∧ falls t ∧ SameMemory s t)))
    ∧ (∀ (s : State) (m : BitVec 64) (n : Nat) (i : Instr), s.th.status = .rv m n i → isMatrix i = true →
         verdict (groupOf s s.th) s.th = .complete →
         let mem := (rvMembers s s.th m).1
         let chk := matCheck s i mem (rvMembers s s.th m).2 s.th
         let unbound := ∀ k, accName i = some k → boundTile s s.th k = none
         (∀ e, chk = .trap e → exec (.rendezvousIssue s.th.id) s = .next (trapMembers s mem e))
           ∧ (chk = .wait → exec (.rendezvousIssue s.th.id) s = .next s)
           ∧ (chk = .ok → needsTile i = true → unbound → reservation s s.th = 0 →
               exec (.rendezvousIssue s.th.id) s = .next (trapMembers s mem (.trap cConvDeadlock 0 0)))
           ∧ (chk = .ok → (reservation s s.th ≠ 0 ∨ needsTile i = false ∨ ¬unbound) →
             (matLaunch s i mem s.th = none → exec (.rendezvousIssue s.th.id) s = .next s)
               ∧ (∀ t, matLaunch s i mem s.th = some t → exec (.rendezvousIssue s.th.id) s = .next t)
               ∧ (∀ t, matLaunch s i mem s.th = some t → needsTile i = true → (freeTile s s.th).isSome = true →
                   exec (.chainStartTileWait s.th.id) s = .next t)
               ∧ (∀ q d c b, i = .accRd q d c b →
                   (boundTile s s.th c = none →
                       matLaunch s i mem s.th = some (matRetire s i mem fun t => { t with ctx := t.ctx.setReg d 0 }))
                     ∧ (∀ k x, boundTile s s.th c = some k → hasWriter (getCore s s.th.place.core) k = false →
                         tileOf (getCore s s.th.place.core) k = some x → x.bad = [] →
                         matLaunch s i mem s.th
                           = some (matRetire s i mem fun t => { t with ctx := t.ctx.setReg d (tileWord x ((t.ctx.reg b).toNat % 16384)) })))))
    ∧ (∀ (s : State) (l : Thread) (i : Instr) (n : Fin 4) (k : Nat), boundTile s l n = none → freeTile s l = some k →
         (findGroup s l.cid l.id.team l.place.grp).isSome = true → (getCore s l.place.core).tiles.length = 12 →
           ∃ t, takeTile s l i n = some (t, k) ∧ boundTile t l n = some k
             ∧ tileOf (getCore t l.place.core) k = some ⟨l.cid, l.id.team, l.place.grp, false, [], []⟩)

/-! ## Copy engine and barrier objects -/

/-- R305, R311 to R313, R316, R70: the engine instructions on barrier objects. `bar.init`, `bar.exp` and `bar.arr` join their thread's
accesses with the operands their registers hold, as stores do, speculatively where older accesses stand at a level below 2. `bar.test`
and `rlq` owe their status word; `bar.wait` writes it and goes on once the phase count has reached the target, and else stays; with older
accesses the two first read early under a watch. A failing check traps, or is held with the access.
Which accesses issue speculatively is read as log 10 says. -/
def Obligations.BarrierInstructions : Prop :=
  ∀ (s : State) (f : FmtC) (off : Option (BitVec 16)) (x : Option BarXO) (loc : Loc) (e : Exc), s.th.ctx.pred f.p = true →
    let c := s.th.ctx
    let ea := eaXO c f.a off
    let eb := barEa c f.a x
    let die := s.th.place.die
    let lvl := (levelFor s.th c.pc).1
    let word := barWord (resolveSpad s eb 16 16)
    let tg := barTarget c x
    let status (bs : List Byte) : Word := barStatusWord (BitVec.ofNat 32 (natOfBytes bs)) tg
    let w := status (peekLoc s die 0 loc 4)
    let g := gate s die .rd loc (eb + 12) 4
    let joined (i : Instr) (k : AccKind) (t : State) (a : Access) : Prop :=
      exec i s = .next t ∧ Joins s t a ∧ a.kind = k ∧ a.dc = f.dc
    (∀ (i : Instr) (k : AccKind),
        ((i = .barInit f off ∧ k = .store (BarObj.init (c.reg f.d).toNat).bytes)
          ∨ (i = .barExp f off ∧ k = .barExp (c.reg f.d).toNat)
          ∨ (i = .barArr f off ∧ k = .barArr (if f.d = 0 then 1 else (c.reg f.d).toNat))) →
        let res := resolveSpad s ea 16 16
        let gw := gate s die .wr loc ea 16
        (s.th.accs = [] →
            (res = .ok loc → (gw = .go ∨ gw = .wait) →
                ∃ t a, joined i k t a ∧ SameRegsBut [] s t ∧ a.loc = some loc ∧ a.spec = false ∧ a.fault = none ∧ a.parked = false)
              ∧ (res = .ok loc → gw = .park →
                ∃ t a, joined i k t a ∧ SameRegsBut [] s t ∧ a.loc = some loc ∧ a.spec = false ∧ a.fault = none ∧ a.parked = true)
              ∧ (res = .ok loc → gw = .bad e → exec i s = raise s e)
              ∧ (res = .error e → exec i s = raise s e))
          ∧ (s.th.accs ≠ [] → lvl = 2 → exec i s = .next s)
          ∧ (s.th.accs ≠ [] → lvl ≠ 2 →
            (res = .ok loc → ∃ t a, joined i k t a ∧ SameRegsBut [] s t ∧ a.loc = some loc ∧ a.spec = true ∧ a.fault = none)
              ∧ (res = .error e → ∃ t a, joined i k t a ∧ SameRegsBut [] s t ∧ a.spec = true ∧ a.fault = some e)))
      ∧ (s.th.accs = [] →
        (word = .ok loc → g = .go →
            (∃ t : State, exec (.barTest f x) s = .next t
                ∧ t.th.ops = s.th.ops ++ [⟨[(f.d, w)], f.dc, f.look.val, 0, s.th.seq, c.icount⟩] ∧ UnchangedBut [] s t)
              ∧ (w.getLsbD 24 = true → exec (.barWait f x) s = .next ((madeWhole s 1).afterReg f.d w))
              ∧ (w.getLsbD 24 = false → exec (.barWait f x) s = .next s))
          ∧ (word = .ok loc → g = .park →
            (∃ t a, joined (.barTest f x) (.load 4 (.barStatus tg) [f.d]) t a ∧ SameRegsBut [] s t ∧ a.parked = true)
              ∧ exec (.barWait f x) s = .next s)
          ∧ ((word = .error e ∨ (word = .ok loc ∧ g = .bad e)) →
              exec (.barTest f x) s = raise s e ∧ exec (.barWait f x) s = raise s e))
      ∧ (s.th.accs ≠ [] →
        (lvl = 2 → exec (.barTest f x) s = .next s ∧ exec (.barWait f x) s = .next s)
          ∧ (lvl ≠ 2 → word = .error e →
            (∃ t a, joined (.barTest f x) (.load 4 (.barStatus tg) [f.d]) t a ∧ SameRegsBut [] s t ∧ a.spec = true ∧ a.fault = some e)
              ∧ ∃ t a, joined (.barWait f x) (.load 4 (.barStatus tg) [f.d]) t a ∧ SameRegsBut [] s t ∧ a.spec = true
                ∧ a.fault = some e)
          ∧ (∀ bs, word = .ok loc → earlyRead s lvl loc (eb + 12) 4 = some bs →
            (∃ t a, joined (.barTest f x) (.load 4 (.barStatus tg) [f.d]) t a ∧ a.spec = true ∧ a.early = some bs
                ∧ SameRegsBut [f.d] s t ∧ (f.d ≠ 0 → t.th.ctx.reg f.d = status bs))
              ∧ ((status bs).getLsbD 24 = true →
                ∃ t a, joined (.barWait f x) (.load 4 (.barStatus tg) [f.d]) t a ∧ a.spec = true ∧ a.early = some bs
                  ∧ SameRegsBut [f.d] s t ∧ (f.d ≠ 0 → t.th.ctx.reg f.d = status bs))
              ∧ ((status bs).getLsbD 24 = false → exec (.barWait f x) s = .next s))
          ∧ (word = .ok loc → earlyRead s lvl loc (eb + 12) 4 = none → exec (.barWait f x) s = .next s)
          ∧ (lvl ≠ 2 → word = .ok loc →
            let test (t : State) (a : Access) : Prop :=
              joined (.barTest f x) (.load 4 (.barStatus tg) [f.d]) t a ∧ SameRegsBut [] s t ∧ a.spec = true ∧ a.early = none
            (g = .bad e → ∃ t a, test t a ∧ a.fault = some e) ∧ (g = .park → ∃ t a, test t a ∧ a.parked = true)
              ∧ (g = .go → mustWait s s.th.accs loc 4 = true → ∃ t a, test t a ∧ a.parked = false ∧ a.fault = none)
              ∧ (g = .go → mustWait s s.th.accs loc 4 = false → watchRoom s loc = false → exec (.barTest f x) s = .next s)))
      ∧ ((spadTag ea = true ∨ ea.toNat / 2 ^ 56 = 0) →
          ∃ t : State, exec (.rlq f off) s = .next t
            ∧ t.th.ops = s.th.ops ++ [⟨[(f.d, BitVec.ofNat 32 (rlqWord s ea))], f.dc, f.look.val, 0, s.th.seq, c.icount⟩]
            ∧ UnchangedBut [] s t)
      ∧ (spadTag ea = false → ea.toNat / 2 ^ 56 ≠ 0 → exec (.rlq f off) s = raiseCode s cProt ea)

/-- R291, R292, R312: a barrier object's phase ends when all its arrivals are in and its bytes have landed; PH then rises by one modulo
256 and the counts start again. An overrun records code 8 in ERR once, and a `bar.exp` beyond 32 bits records it too and expects the
most that the field holds. R293, R308: an engine's count adds its bytes, and that of an operation that failed leaves its code. STORE_PERFORM of a thread's `bar.exp` or `bar.arr` writes the
updated object in one step. -/
def Obligations.BarrierObjectPhases : Prop :=
  (∀ b : BarObj, b.arra < b.expa →
    (b.arra + 1 < b.expa → (b.arrive 1 0).ph = b.ph ∧ (b.arrive 1 0).arra = b.arra + 1 ∧ (b.arrive 1 0).err = b.err)
      ∧ (b.arra + 1 = b.expa → b.arrb = b.expb →
          b.arrive 1 0 = { b with ph := (b.ph + 1) % 256, arra := 0, arrb := 0, expb := 0 })
      ∧ (∀ n sl, b.expa < b.arra + n → b.expb ≤ b.arrb →
          (b.arrive n sl).ph = (b.ph + 1) % 256 ∧ (b.arrive n sl).err = (if b.err = 0 then 8 else b.err))
      ∧ (∀ n sl, b.expb + n ≤ 0xFFFFFFFF → b.expect n sl = { b with expb := b.expb + n })
      ∧ (∀ n sl, 0xFFFFFFFF < b.expb + n →
          b.expect n sl = { b with expb := 0xFFFFFFFF, err := if b.err = 0 then 8 else b.err, eslot := if b.err = 0 then sl else b.eslot }))
    -- an engine's count, and the count of an operation that fails
    ∧ (∀ (b : BarObj) (n : Nat), b.arrb + n < 0x100000000 →
      ((b.arra ≠ b.expa ∨ b.arrb + n < b.expb) → b.count n = { b with arrb := b.arrb + n })
        ∧ (b.arra = b.expa → b.expb ≤ b.arrb + n →
          b.count n = { b with ph := (b.ph + 1) % 256, arra := 0, arrb := 0, expb := 0,
                               err := if b.expb < b.arrb + n ∧ b.err = 0 then 8 else b.err })
        ∧ (∀ code sl, b.failCount code sl (some n) = (if b.err = 0 then { b with err := code, eslot := sl } else b).count n)
        ∧ (∀ code sl, b.arra ≠ b.expa → b.failCount code sl none
            = { (if b.err = 0 then { b with err := code, eslot := sl } else b) with arrb := Nat.max b.arrb b.expb }))
    ∧ (∀ (s : State) (a : Access) (c : Cid) (i o n : Nat) (v : Slot), s.th.accs = [a] → a.spec = false → a.fault = none →
        a.loc = some (.spad c i o) → findSlot s c i = some v → writeGate s a (.spad c i o) true = .go →
        let old := barOf (Mem.load v.bytes o 16)
        (a.kind = .barExp n →
            ∃ t, exec (.storePerform s.th.id) s = .next t ∧ t.th.accs = []
              ∧ findSlot t c i = some (v.write o (old.expect n s.th.place.slot).bytes) ∧ SameRegsBut [] s t ∧ SamePredsBut [] s t)
          ∧ (a.kind = .barArr n →
            ∃ t, exec (.storePerform s.th.id) s = .next t ∧ t.th.accs = []
              ∧ findSlot t c i = some (v.write o (old.arrive n s.th.place.slot).bytes) ∧ SameRegsBut [] s t ∧ SamePredsBut [] s t))

/-- R305 to R307, R323: `xcp` and `xcpq` hand over 1 and n requests at consecutive 64-byte records: each joins the pending-launch queue, the
counter steps once, and under dither the phase steps once. No byte of memory changes. With older accesses the requests join
uncommitted at a level below 2, and the instruction waits at level 2; a failing check of the records traps, or is held with the access.
Which accesses issue speculatively is read as log 10 says. -/
def Obligations.CopyRequestsIssue : Prop :=
  ∀ (s : State) (p : Pred) (dth : Bool) (n : Fin 32) (a : Reg) (look : Fin 16) (dc : Fin 7) (off : Option (BitVec 16)) (e : Exc)
    (i : Instr) (m : Nat),
    s.th.ctx.pred p = true →
    ((i = .xcp p dth a look dc off ∧ m = 1) ∨ (i = .xcpq p dth n a look dc off ∧ m = n.val + 1)) →
    let ea := eaXO s.th.ctx a off
    let res := resolveSpad s ea 64 (64 * m)
    let lvl := (levelFor s.th s.th.ctx.pc).1
    (s.th.accs ≠ [] → lvl = 2 → exec i s = .next s)
      ∧ (s.th.accs = [] → res = .error e → exec i s = raise s e)
      ∧ ((s.th.accs = [] ∨ lvl ≠ 2) → (∃ l, res = .ok l) →
        ∃ (t : State) (q : List Access), exec i s = .next t ∧ t.th.accs = s.th.accs ++ q
          ∧ q.map (·.ea) = (List.range m).map (fun k => ea + BitVec.ofNat 64 (64 * k))
          ∧ q.map (·.spec) = List.replicate m (!s.th.accs.isEmpty)
          ∧ (∀ b ∈ q, ∃ r : CopyReq, b.kind = .copy r ∧ r.ea = b.ea ∧ r.dc = dc ∧ r.dth = dth ∧ r.ph = s.th.ctx.dphase ∧ r.size = m)
          ∧ dcGet t.th dc = dcGet s.th dc + (if dc.val < 6 then 1 else 0)
          ∧ (∀ d : Fin 7, d ≠ dc → dcGet t.th d = dcGet s.th d)
          ∧ t.th.ctx.dphase = (if dth then s.th.ctx.dphase + 1 else s.th.ctx.dphase)
          ∧ SameRegsBut [] s t ∧ SamePredsBut [] s t ∧ t.th.ctx.fpst = s.th.ctx.fpst ∧ SameMemory s t)
      ∧ (s.th.accs ≠ [] → lvl ≠ 2 → res = .error e →
        ∃ (t : State) (b : Access), exec i s = .next t ∧ Joins s t b ∧ SameRegsBut [] s t ∧ b.fault = some e ∧ b.spec = true)

/-- R169, R170, R293 to R302, R308, R345: the events of a copy operation. At its launch point it takes a position with its locks, the
presence of its destinations falling; a request that may not launch yet waits, and takes its number as it first waits at the lock
tables; a request that may not launch at all fails, its barrier told where it names one; each step moves one unit of elements: its bytes
land at the places that the plan gives them, and no other byte changes; one that meets an uncorrectable word or a block that breaks its
coding fails; counts reach its barriers, and one that overruns its phase fails the operation; an update of a barrier waits for its page;
when all is counted the operation leaves its engine and its locks end; a failure found is reported and it leaves as well.
The cases that R278 to R308 leave to a reading follow log 16, an overrunning count among them. -/
def Obligations.CopyEvents : Prop :=
  ∀ (s : State) (core : Nat) (o : CopyOp) (a : Access) (rest : List Access) (r : CopyReq) (o' : CopyOp) (locks : List RLock)
    (b : CopyOp),
    (s.th.accs = a :: rest → a.spec = false → a.fault = none → a.kind = .copy r →
        (launching s a r = (.go o' locks, b) →
            exec (.copyLaunchPoint s.th.id) s = .next (launchOp s s.th.place.core o' locks)
              ∧ (rest = [] → ∃ t, exec (.copyLaunchPoint s.th.id) s = .next t ∧ t.th.accs = [] ∧ SameMemory s t
                ∧ (getCore t s.th.place.core).eng = (getCore s s.th.place.core).eng ++ [o'] ∧ t.mem.locks = s.mem.locks ++ locks))
          ∧ (∀ code, launching s a r = (.fail code, b) →
            ((barNamed s b && barWaits s b) = true → exec (.copyLaunchPoint s.th.id) s = .next s)
              ∧ ((barNamed s b && barWaits s b) = false → exec (.copyLaunchPoint s.th.id) s = .next (failEarly s b code)
                ∧ (rest = [] → (barNamed s b = false ∨ b.plan.hasBar = false) → ∀ tm, findTeam s s.th.cid s.th.id.team = some tm → tm.retired = false →
                  ∃ t tm', exec (.copyLaunchPoint s.th.id) s = .next t ∧ t.th.accs = [] ∧ SameMemory s t
                    ∧ findTeam t s.th.cid s.th.id.team = some tm' ∧ tm'.asyncN = tm.asyncN + 1 ∧ (tm.asyncN = 0 → tm'.asyncErr = code))))
          ∧ (∀ flt dies, launching s a r = (.wait flt dies, b) →
              (a.awaited = [] → dies ≠ [] →
                  exec (.copyLaunchPoint s.th.id) s
                    = .next (modHead { s with fresh := s.fresh + 1 } fun x => { x with awaited := s.fresh :: dies, parked := flt }))
                ∧ ((a.awaited ≠ [] ∨ dies = []) → a.parked = flt → exec (.copyLaunchPoint s.th.id) s = .next s)
                ∧ ((a.awaited ≠ [] ∨ dies = []) → a.parked ≠ flt →
                  exec (.copyLaunchPoint s.th.id) s = .next (modHead s fun x => { x with parked := flt }))))
      ∧ ((getCore s core).eng = [o] → pagesIn s o = true →
          let k1 := Nat.min o.plan.count (o.next + o.plan.unit)
          let writesBad := if o.plan.dir = 1 then (globalOut s o o.next k1).any (globalBad s o)
            else (spadOut s core o o.next k1).any (spadWriteBad s o)
          let failed (code : Nat) : Prop := ∃ t, exec (.copyTransferStep core o.pos) s = .next t
            ∧ (getCore t core).eng = [{ o with state := 2, fail := true, err := code }] ∧ SameMemory s t
          ((o.state = 1 ∨ o.state = 2) → o.fail = false → o.uncounted = 0 → o.next < o.plan.count →
              (stepBad s core o o.next k1 = true → failed 6)
                ∧ (stepBad s core o o.next k1 = false → stepUndecodable s core o o.next k1 = true → failed 7)
                ∧ (stepBad s core o o.next k1 = false → stepUndecodable s core o o.next k1 = false →
                  (writesBad = true → failed 6)
                    ∧ (writesBad = false →
                      ∃ t, exec (.copyTransferStep core o.pos) s = .next t
                        ∧ (getCore t core).eng = [{ o with state := 2, next := k1, uncounted := o.plan.countable k1 - o.cnt }]
                        -- into global memory
                        ∧ (o.plan.dir = 1 → t.clusters = s.clusters ∧
                          let ws := globalOut s o o.next k1
                          let met (pa n x : Nat) : Prop := pa / 64 * 64 ≤ x ∧ x < (pa + n + 63) / 64 * 64
                          t.mem.hbm = (ws.foldl (fun u w => engStore u (o.gen u) o.segs w) s).mem.hbm
                            ∧ (Mem.wf s.mem.hbm = true →
                              (∀ x, (∀ w ∈ ws, ∀ g ∈ o.segs, ∀ p ∈ replicas (g.pa + (Nat.max w.1 g.va - g.va)) g.mir,
                                  Nat.max w.1 g.va < Nat.min (w.1 + w.2.length) (g.va + g.len) →
                                  ¬met p (Nat.min (w.1 + w.2.length) (g.va + g.len) - Nat.max w.1 g.va) x) →
                                t.hbmByte x = s.hbmByte x)
                              ∧ ∀ w g, ws = [w] → o.segs = [g] → g.mir = false → g.va ≤ w.1 → w.1 + w.2.length ≤ g.va + g.len →
                                let pa := g.pa + (w.1 - g.va)
                                pa % 64 + w.2.length ≤ 64 → (∀ q, keyGet s.mem.tags (sectorOf pa) = some q → q = o.gen s) →
                                ∀ k, k < w.2.length → t.hbmByte (pa + k) = w.2.getD k 0))
                        -- into scratchpads
                        ∧ (o.plan.dir ≠ 1 → (∀ x, t.hbmByte x = s.hbmByte x) ∧ (∀ c i x, c ≠ o.cid → t.spadByte c i x = s.spadByte c i x) ∧
                          let ws := spadOut s core o o.next k1
                          let apart (v w : Nat × Nat × List Byte) : Prop :=
                            v.1 ≠ w.1 ∨ v.2.1 + v.2.2.length ≤ w.2.1 ∨ w.2.1 + w.2.2.length ≤ v.2.1
                          (∀ i x, t.spadByte o.cid i x = (ws.foldl (fun u w => spadStore u o.cid w) s).spadByte o.cid i x)
                            ∧ (s.Canonical →
                              (∀ i x, (∀ w ∈ ws, w.1 ≠ i ∨ x < w.2.1 ∨ w.2.1 + w.2.2.length ≤ x) → t.spadByte o.cid i x = s.spadByte o.cid i x)
                                ∧ (ws.Pairwise apart → ∀ w ∈ ws, (findSlot s o.cid w.1).isSome = true →
                                  ∀ k, k < w.2.2.length → t.spadByte o.cid w.1 (w.2.1 + k) = w.2.2.getD k 0))))))
            ∧ (barWaits s o = true → exec (.engineCountUpdate core o.pos) s = .next s
              ∧ ∀ code, exec (.copyLateFail core o.pos code) s = .next s)
            ∧ (o.uncounted ≠ 0 → o.state ≠ 3 → barWaits s o = false →
              ∃ t, exec (.engineCountUpdate core o.pos) s = .next t
                ∧ ((countOverruns s o = false ∨ o.fail = true) →
                  (getCore t core).eng = [{ o with uncounted := 0, cnt := o.cnt + o.uncounted }])
                ∧ (countOverruns s o = true → o.fail = false →
                  (getCore t core).eng = [{ o with uncounted := 0, cnt := o.cnt + o.uncounted, fail := true, err := 8 }])
                ∧ (∀ i v, o.plan.hasBar = true → o.plan.barSlots = [i] → findSlot s o.cid i = some v →
                    v.badHit (o.plan.bar % 0x100000) 16 false = false →
                    findSlot t o.cid i = some (v.write (o.plan.bar % 0x100000)
                      ((barOf (Mem.load v.bytes (o.plan.bar % 0x100000) 16)).count o.uncounted).bytes)))
            ∧ (o.fail = true → o.state ≠ 3 → o.err < 256 → barWaits s o = false →
              exec (.copyLateFail core o.pos (BitVec.ofNat 8 o.err)) s = .next (lateFail s core o)
                ∧ ∃ t, exec (.copyLateFail core o.pos (BitVec.ofNat 8 o.err)) s = .next t ∧ (getCore t core).eng = []
                  ∧ t.mem.locks = s.mem.locks.filter (fun l => l.owner != .copy core o.pos)))
      ∧ ((getCore s core).eng = [o] → o.fail = false → o.next = o.plan.count → o.uncounted = 0 → o.state ≠ 3 →
          ∃ t, exec (.copyComplete core o.pos) s = .next t ∧ (getCore t core).eng = []
            ∧ t.mem.locks = s.mem.locks.filter (fun l => l.owner != .copy core o.pos) ∧ SameMemory s t)

/-! ## Multicast, collectives and shuffles -/

/-- R171, R381: `mcst` and `mcld.red` wait while an older access of their thread is unperformed, and else check alignment, offset and
group, and join the thread's accesses with one request to every member of the group; the sectors that `mcld.red` will write become
absent as it issues. R171, R389, R395: an arm or a post takes the lowest free slot and returns its handle and steps its counter; a bad
descriptor, or a counter of another launch, gives an error handle and no slot; a group that is not the launch's traps; with no slot
free the thread stays. R390: a wait owes its status once the operation is over, and else stays. R396, R397: `shf.side` enters or drops a
declaration of the running shuffle that it names, and for no such shuffle only advances.
The layout of the flits sent is the model's (log 15), the readings of R384 to R392 and of R395 are those of log 42, and that `mcst` judges
bits [63:46] of the pair and of the sum is that of log 67. -/
def Obligations.FabricInstructions : Prop :=
  ∀ (s : State) (f : FmtC) (c e : Reg) (off : BitVec 16) (xo : Option (BitVec 16)), s.th.ctx.pred f.p = true →
    let x := s.th.ctx
    let s1 := setExt s
    let die := s.th.place.die
    let eng := getEng s die
    let g := (x.reg c).toNat % 4096
    let ms := groupMembers s g
    let okGroup (n : Nat) : Bool := groupOk s (n % 4096) s.th.place.ctx
    let joined (i : Instr) (t : State) (a : Access) (q : Flit) : Prop :=
      exec i s = .next t ∧ Joins s t a ∧ SameRegsBut [] s t ∧ a.dc = f.dc ∧ a.loc = none ∧ a.spec = false ∧ a.awaited = ms
        ∧ a.serial = some s.fab.nextSerial ∧ t.out = s.out ++ [q] ∧ q.dst = g + 0x8000 ∧ q.serial = s.fab.nextSerial ∧ q.ctx = s.th.place.ctx
    -- the instruction has gone on: `d` may have changed, and counter dc has stepped where `up`
    let went (i : Instr) (up : Bool) (ds : List Reg) (t : State) : Prop :=
      exec i s = .next t ∧ UnchangedBut ds s t ∧ t.th.accs = [] ∧ (∀ d : Fin 7, d ≠ f.dc → dcGet t.th d = dcGet s.th d)
        ∧ dcGet t.th f.dc = dcGet s.th f.dc + (if up ∧ f.dc.val < 6 then 1 else 0)
    (s.th.accs ≠ [] →
        ∀ i, i ∈ [.mcst f c .b32 off, .mcst f c .b64 off, .collArm f xo, .shfPost f xo, .collWait f, .shfWait f, .shfSide f c off]
            ∨ (∃ t op, i = .mcldRed f c e t op) →
          exec i s = .next s)
      ∧ (s.th.accs = [] →
        -- mcst
        (∀ t : RawTy,
            let n := if t = .b64 then 8 else 4
            let ea := eaOff x f.a off
            let bs := if t = .b64 then bytesOfD (x.pair f.d) else bytesOfW (x.reg f.d)
            let far := 2 ^ 46 ≤ (x.pair f.a).toNat ∨ 2 ^ 46 ≤ ea.toNat ∨ groupOk s g s.th.place.ctx = false
            (ea.toNat % n ≠ 0 → exec (.mcst f c t off) s = raiseCode s1 cMisaligned ea)
              ∧ (ea.toNat % n = 0 → far → exec (.mcst f c t off) s = raiseCode s1 cProt ea)
              ∧ (ea.toNat % n = 0 → ¬far →
                (ms = [] → ∃ u, went (.mcst f c t off) false [] u)
                  ∧ (ms ≠ [] → ∃ u a q, joined (.mcst f c t off) u a q ∧ a.kind = .mcst ms bs ∧ q.ty = 0x10 ∧ q.addr = ea.toNat
                    ∧ q.aux = n ∧ q.payload = bs)))
          -- mcld.red
          ∧ (∀ (t : FloatTy) (op : RedOp) (cid : Cid) (slot o : Nat) (er : Exc),
            let i := .mcldRed f c e t op
            let bf := t == .bf16x2
            let count := (x.reg f.d).toNat
            let ea := x.pair f.a
            let dst := x.pair e
            let aligned := ea.toNat % 4 = 0 ∧ dst.toNat % 16 = 0
            let far := 2 ^ 46 < ea.toNat + mcldBytes bf count ∨ groupOk s g s.th.place.ctx = false
            let at' := resolveSpad s1 dst 16 (4 * count)
            let gt := gate s1 die .wr (.spad cid slot o) dst (4 * count)
            (mcldCount bf count = false → exec i s = illegal s1)
              ∧ (mcldCount bf count = true →
                (ea.toNat % 4 ≠ 0 → exec i s = raiseCode s1 cMisaligned ea)
                  ∧ (ea.toNat % 4 = 0 → dst.toNat % 16 ≠ 0 → exec i s = raiseCode s1 cMisaligned dst)
                  ∧ (aligned → far → exec i s = raiseCode s1 cProt ea)
                  ∧ (aligned → ¬far → spadTag dst = false → exec i s = raiseCode s1 cProt dst)
                  ∧ (aligned → ¬far → spadTag dst = true →
                    (at' = .error er → exec i s = raise s1 er)
                      ∧ (at' = .ok (.spad cid slot o) →
                        (gt = .bad er → exec i s = raise s1 er)
                          ∧ (gt = .park ∨ gt = .wait → exec i s = .next s)
                          ∧ (gt = .go → ms = [] → ∃ u, went i false [] u)
                          ∧ (gt = .go → ms ≠ [] → ∃ u a q, joined i u a q ∧ a.kind = .mcldRed ms op bf count dst ∧ q.ty = 0x11
                            ∧ q.addr = ea.toNat ∧ q.aux = mcldBytes bf count
                            ∧ ∀ v, findSlot s cid slot = some v → ∃ w, findSlot u cid slot = some w
                              ∧ w.absent = (v.setAbsent o (4 * count)).absent)))))
          -- coll.arm
          ∧ (∀ (d : List Byte) (l : Launch) (n : Nat) (er : Exc),
            let ea := eaXO x f.a xo
            let k := dKind d
            let s2 := if k < 4 then s1 else s
            let bad := collDescOk d (groupMembers s (dGroup d % 4096)).length = false
            let taken := dCtr d ≠ 255 ∧ ctrElse s die (dCtr d) l.lid = true
            (readDesc s ea = .error er → exec (.collArm f xo) s = raise s er)
              ∧ (readDesc s ea = .ok none → exec (.collArm f xo) s = .next s)
              ∧ (readDesc s ea = .ok (some d) → findLaunch s s.th.id.lid = some l →
                (k < 4 → dGroup d < 4096 → okGroup (dGroup d) = false → exec (.collArm f xo) s = raiseCode s2 cProt ea)
                  ∧ ((k < 4 → dGroup d < 4096 → okGroup (dGroup d) = true) →
                    (bad → ∃ u, went (.collArm f xo) false [f.d] u ∧ (f.d ≠ 0 → u.th.ctx.reg f.d = 0x80000001)
                        ∧ u.coll0 = s.coll0 ∧ u.coll1 = s.coll1)
                      ∧ (¬bad → taken → ∃ u, went (.collArm f xo) false [f.d] u ∧ (f.d ≠ 0 → u.th.ctx.reg f.d = 0x80000014)
                        ∧ u.coll0 = s.coll0 ∧ u.coll1 = s.coll1)
                      ∧ (¬bad → ¬taken → freeSlot eng = none → exec (.collArm f xo) s = .next s)
                      ∧ (¬bad → ¬taken → freeSlot eng = some n →
                        ∃ u op, went (.collArm f xo) true [f.d] u ∧ findColl u die n = some op ∧ op.desc = d ∧ op.shf = false
                          ∧ op.gen = ((eng.gens.getD n 0) + 1) % 256 ∧ op.tid = some s.th.id ∧ op.dc = f.dc
                          ∧ op.st = (if k < 4 then 0 else 1)
                          ∧ op.fired = (decide (4 ≤ k) || dCtr d == 255 || decide (dThresh d ≤ (getCtr s die (dCtr d)).val.toNat))
                          ∧ (f.d ≠ 0 → u.th.ctx.reg f.d = handleOf n die ((getEng u die).gens.getD n 0) false)
                          ∧ (dCtr d ≠ 255 → dCtr d < eng.ctrs.length → (getCtr u die (dCtr d)).holder = some l.lid
                            ∧ (getCtr u die (dCtr d)).val = (if k = 4 then satAdd (getCtr s die (dCtr d)).val (dValue d)
                                else if k = 5 then BitVec.ofNat 32 (dValue d) else (getCtr s die (dCtr d)).val))))))
          -- shf.post
          ∧ (∀ (d bs : List Byte) (l : Launch) (n : Nat) (er : Exc),
            let ea := eaXO x f.a xo
            let bad := shfDescOk d = false ∨ s.fab.selfIdx.toNat ∉ groupMembers s (dGroup d % 4096)
              ∨ (findShf s (sidOf l.ctx (shSid d))).isSome = true ∨ (∃ m, readSides s1 d = .error m)
            let good := shfDescOk d = true ∧ s.fab.selfIdx.toNat ∈ groupMembers s (dGroup d % 4096)
              ∧ findShf s (sidOf l.ctx (shSid d)) = none
            (readDesc s ea = .error er → exec (.shfPost f xo) s = raise s1 er)
              ∧ (readDesc s ea = .ok none → exec (.shfPost f xo) s = .next s)
              ∧ (readDesc s ea = .ok (some d) → findLaunch s s.th.id.lid = some l →
                (dGroup d < 4096 → okGroup (dGroup d) = false → exec (.shfPost f xo) s = raiseCode s1 cProt ea)
                  ∧ ((dGroup d < 4096 → okGroup (dGroup d) = true) →
                    (bad → ∃ u, went (.shfPost f xo) false [f.d] u ∧ (f.d ≠ 0 → u.th.ctx.reg f.d = 0x80000001)
                        ∧ u.coll0 = s.coll0 ∧ u.coll1 = s.coll1)
                      ∧ (good → readSides s1 d = .ok none → exec (.shfPost f xo) s = .next s)
                      ∧ (good → readSides s1 d = .ok (some bs) → freeSlot eng = none → exec (.shfPost f xo) s = .next s)
                      ∧ (good → readSides s1 d = .ok (some bs) → freeSlot eng = some n →
                        ∃ u op, went (.shfPost f xo) true [f.d] u ∧ findColl u die n = some op ∧ op.desc = d ∧ op.shf = true
                          ∧ op.tid = some s.th.id ∧ op.dc = f.dc ∧ op.members = groupMembers s (dGroup d % 4096)
                          ∧ (f.d ≠ 0 → u.th.ctx.reg f.d = handleOf n die ((getEng u die).gens.getD n 0) true)))))
          -- coll.wait, shf.wait
          ∧ (∀ (i : Instr) (shf : Bool), (i = .collWait f ∧ shf = false) ∨ (i = .shfWait f ∧ shf = true) →
            (waitAnswer s (x.reg f.a) shf = none → exec i s = .next s)
              ∧ (∀ w, waitAnswer s (x.reg f.a) shf = some w →
                ∃ u, exec i s = .next u ∧ UnchangedBut [] s u
                  ∧ u.th.ops = s.th.ops ++ [⟨[(f.d, w)], f.dc, f.look.val, 0, s.th.seq, x.icount⟩]))
          -- shf.side
          ∧ (let v := (x.reg f.d).toNat
             let sid := sidOf s.th.place.ctx ((x.reg c).toNat % 65536)
             let snd := v % 1024
             let rcv := v / 65536 % 1024
             let plain := v / 1024 % 64 = 0 ∧ v / 0x4000000 % 32 = 0
             let addr := (eaOff x f.a off).toNat
             (∃ u, went (.shfSide f c off) false [] u)
               ∧ ((findShf s sid = none ∨ ∃ d2 o, findShf s sid = some (d2, o) ∧ d2 ≠ die) →
                 exec (.shfSide f c off) s = .next (advance s))
               ∧ (∀ o, findShf s sid = some (die, o) → findColl s die o.slot = some o →
                 (¬plain → ∃ u, exec (.shfSide f c off) s = .next u ∧ findColl u die o.slot = some { o with sideRej := o.sideRej + 1 }
                     ∧ (getEng u die).side = eng.side)
                   ∧ (plain → v / 0x80000000 = 1 → ∃ u, exec (.shfSide f c off) s = .next u
                     ∧ (∀ y ∈ (getEng u die).side, y.u ≠ ⟨sid, snd, rcv, 0⟩)
                     ∧ ((∃ y ∈ eng.side, y.u = ⟨sid, snd, rcv, 0⟩) → ∀ l ∈ u.mem.locks, l.owner ≠ .side die ⟨sid, snd, rcv, 0⟩))
                   ∧ (plain → v / 0x80000000 ≠ 1 → o.sides = [] →
                     (checkSide s die o snd rcv addr = .refuse → ∃ u, exec (.shfSide f c off) s = .next u
                         ∧ findColl u die o.slot = some { o with lost := false, sideRej := o.sideRej + 1 } ∧ (getEng u die).side = eng.side)
                       ∧ (checkSide s die o snd rcv addr = .lost → ∃ u, exec (.shfSide f c off) s = .next u
                         ∧ findColl u die o.slot = some { o with lost := true, sides := [(snd, rcv, addr)] })
                       ∧ (∀ segs, checkSide s die o snd rcv addr = .enter segs → ∃ u y, exec (.shfSide f c off) s = .next u
                         ∧ y ∈ (getEng u die).side ∧ y.u = ⟨o.sid, snd, rcv, 0⟩ ∧ y.segs = segs
                         ∧ ∀ l ∈ rangeLocks (.side die ⟨o.sid, snd, rcv, 0⟩) die false segs, l ∈ u.mem.locks)))))

/-- R384, R386, R387, R390, R391: the events of the collective engine. An armed collective that has fired, and is the first of its group,
reaches its launch point: it waits for a page, for a lock or behind others that wait for one, fails with a code, or enters its locks and
sends its data; a
member's data goes, once, to the first collective of the group that needs it; a part that is done, or that fails, ends with its status,
its destination locks and its issuer's counter, and a collective's results are in DST. R395, R396, R398 to R400: a posted shuffle
launches and starts; a unit that its part awaits lands and is counted, a coded one once decoded, and any other is dropped and counted; a
fallback sends its unit again; declarations, evictions, requests for a slot and their answers keep the switch's and the engine's records.
R398: a switch asks and hears only for two units that it may code. When a switch pairs units, and when every member has posted, come from
events (logs 13, 69); layouts follow log 15, and readings log 42 and log 6. -/
def Obligations.CollectiveEvents : Prop :=
  ∀ (s : State) (die slot : Nat) (o : CollOp) (u v : UnitTag) (data : List Byte) (cu cv : Word),
    let eng := getEng s die
    let dropped : State := { s with fab := { s.fab with dropped := s.fab.dropped + 1 } }
    let now (t : State) (p : CollOp) : Prop := findColl t die slot = some p
    -- the conditions of R398, or a pair that the Prism has asked for already
    let pairs : Prop := pairStands s u v = true ∨ (u.sid = v.sid ∧ u.rcv ≠ v.rcv ∧ u.snd ≠ u.rcv ∧ v.snd ≠ v.rcv
      ∧ ∀ d x, findShf s u.sid = some (d, x) → receiverHolds s x.members u.rcv v = true ∧ receiverHolds s x.members v.rcv u = true)
    let blocked (locks : List RLock) : Prop := collBlocked s locks = true ∨ behindOther s o.arrived locks = true
    (findColl s die slot = some o →
      -- the launch point of a collective or of a shuffle
      (∀ i, (i = .collectiveFire die slot ∧ o.shf = false ∧ o.fired = true ∧ firstOfGroup s o = true)
            ∨ (i = .shuffleStart die slot ∧ o.shf = true ∧ o.fired = false ∧ o.sides = []) → o.st = 0 → o.err = 0 →
          (planColl s die o = .lost → ∃ t, exec i s = .next t ∧ now t { o with lost := true } ∧ SameMemory s t ∧ t.out = s.out)
            ∧ (∀ code, planColl s die o = .fail code →
              ∃ t, exec i s = .next t ∧ now t { o with err := code, lost := false } ∧ SameMemory s t ∧ t.out = s.out)
            ∧ (∀ segs locks, planColl s die o = .go segs locks →
              (memberAbsent s o = true →
                  ∃ t, exec i s = .next t ∧ now t { o with err := 0x10, lost := false } ∧ SameMemory s t ∧ t.out = s.out)
                ∧ (memberAbsent s o = false → blocked locks → (o.arrived ≠ [] ∨ locks = []) → exec i s = .next s)
                ∧ (memberAbsent s o = false → blocked locks → o.arrived = [] → locks ≠ [] →
                  ∃ t, exec i s = .next t ∧ now t { o with arrived := s.fresh :: locks.map (·.die) } ∧ SameMemory s t ∧ t.out = s.out)
                ∧ (memberAbsent s o = false → ¬blocked locks →
                  ∃ t p, exec i s = .next t ∧ now t p ∧ p.st = 1 ∧ p.segs = segs ∧ p.desc = o.desc
                    ∧ p.err = (if collBad (collWalked s die o) die { o with segs := segs } then 6 else 0)
                    ∧ t.mem.locks = s.mem.locks ++ locks
                    ∧ (o.shf = false → SameMemory s t ∧ ∃ r, t.out = s.out ++ r ++ collSends s die p)
                    ∧ (o.shf = true → p.fired = (p.err == 0)))))
        ∧ (o.shf = true ∨ o.st ≠ 0 ∨ o.fired = false ∨ o.err ≠ 0 ∨ firstOfGroup s o = false → exec (.collectiveFire die slot) s = .next s)
        -- a launched shuffle starts
        ∧ ((o.shf = false ∨ o.st = 2 ∨ o.fired = true ∨ o.err ≠ 0) → exec (.shuffleStart die slot) s = .next s)
        ∧ (o.shf = true → o.st = 1 → o.fired = false → o.err = 0 → o.sides = [] → genOf s o.keyId = none →
          exec (.shuffleStart die slot) s = .next s)
        ∧ (o.shf = true → o.st = 1 → o.fired = false → o.err = 0 → o.sides = [] → genOf s o.keyId ≠ none →
          (memberAbsent s o = true → ∃ t, exec (.shuffleStart die slot) s = .next t ∧ now t { o with err := 0x10 } ∧ SameMemory s t)
            ∧ (memberAbsent s o = false →
              let b := shBsize o.desc
              ∃ t r, exec (.shuffleStart die slot) s = .next t ∧ now t { o with fired := true }
                ∧ t.out = s.out ++ r ++ ((List.range o.n).filter fun j => j != o.own s).flatMap (sendUnits s die o)
                ∧ ∀ a, t.hbmByte a
                    = (collWrite s o (dDst o.desc + o.own s * b) (collRead s die o (dSrc o.desc + o.own s * b) b)).hbmByte a))
        -- data
        ∧ (∀ member, let fits := nextFrom s o.grp member = some o ∧ data.length = dLen o.desc
            (fits → ∃ t, exec (.collectiveData die slot member data) s = .next t ∧ now t { o with data := o.data ++ [(member, data)] }
                ∧ SameMemory s t ∧ t.th = s.th)
              ∧ (¬fits → exec (.collectiveData die slot member data) s = .next s))
        -- the end of a part
        ∧ (∀ (err : Byte) (segs : List CopySeg) (code : Nat),
            let i := .collectivePartComplete die slot err
            let ended (c : Nat) : Prop :=
              ∃ t p, exec i s = .next t ∧ now t p ∧ p.st = 2 ∧ p.err = c ∧ p.desc = o.desc
                ∧ (∀ l ∈ t.mem.locks, l.owner ≠ .coll die o.slot)
                ∧ (o.tid = some s.th.id → dcGet t.th o.dc = dcGet (dcDrop s.th o.dc) o.dc)
                -- a part of a cluster that is not saved, and of a launch that goes on, writes its results and its status
                ∧ (c = 0 → o.shf = false → dKind o.desc < 4 → genOf s o.keyId ≠ none → (∃ k ∈ s.clusters, k.id.lid = o.lid) →
                    (∀ x, o.tid = some x → ∀ k, findCluster s ⟨x.lid, x.clus⟩ = some k → k.status ≠ .saved) →
                    ∀ a, t.hbmByte a = (writeStatus (collWrite s o o.target.1 (collResult s die o)) die o 0).hbmByte a)
            (partMay s o err.toNat = false → exec i s = .next s)
              ∧ (partMay s o err.toNat = true →
                (statusPieces s die o = .ok none → ∃ t, exec i s = .next t ∧ now t { o with lost := true } ∧ SameMemory s t)
                  ∧ (statusPieces s die o = .ok (some segs) → statusWaits s o segs = true → exec i s = .next s)
                  ∧ (statusPieces s die o = .ok (some segs) → statusWaits s o segs = false → ended err.toNat)
                  ∧ (statusPieces s die o = .error code → ended (if err = 0 then code else err.toNat)))))
      ∧ (findColl s die slot = none →
        exec (.collectiveFire die slot) s = .next s ∧ exec (.shuffleStart die slot) s = .next s
          ∧ (∀ m, exec (.collectiveData die slot m data) s = .next s) ∧ ∀ e, exec (.collectivePartComplete die slot e) s = .next s)
      -- units
      ∧ (findShf s u.sid = some (die, o) →
        let awaits (u : UnitTag) : Prop := awaitsUnit s o u = true ∧ data.length = 256
        let landed (s1 : State) (u : UnitTag) (bs : List Byte) (p : CollOp) : State :=
          setColl (landUnit s1 o u bs) die { p with units := o.units ++ [u] }
        (∀ fb, (awaits u → exec (.shuffleUnitUncoded u fb data) s = .next (landed s u data { o with uncoded := o.uncoded + 1 }))
              ∧ (¬awaits u → exec (.shuffleUnitUncoded u fb data) s = .next dropped))
          ∧ (∀ (x y : UnitTag) (cx cy : Word), (u.rcv = o.own s ∧ x = u ∧ y = v ∧ cx = cu ∧ cy = cv)
                ∨ (u.rcv ≠ o.own s ∧ x = v ∧ y = u ∧ cx = cv ∧ cy = cu) →
              let i := .shuffleUnitCoded u v cu cv data
              let granted := eng.resv.any fun r => r.u == x && r.v == y
              let s1 := freeResv (heldTouch s die o y) die x y
              (¬(awaits x ∧ granted = true) → exec i s = .next dropped)
                ∧ (awaits x → granted = true →
                  (∀ bs, decodeUnit (heldUnit s die o y) cx cy data = some bs →
                      exec i s = .next (landed s1 x bs { o with coded := o.coded + 1, decoded := o.decoded + 1 }))
                    ∧ (decodeUnit (heldUnit s die o y) cx cy data = none →
                      ∃ t q, exec i s = .next t ∧ t.out = s.out ++ [q] ∧ q.ty = 0x26 ∧ q.dst = o.members.getD x.snd 0 ∧ SameMemory s t
                        ∧ (findColl s die o.slot = some o →
                          findColl t die o.slot = some { o with coded := o.coded + 1, dfault := o.dfault + 1 })
                        ∧ ∀ r ∈ (getEng t die).resv, ¬(r.u = x ∧ r.v = y))))
          ∧ (let mine := if u.rcv = o.own s then u else v
             let grants := o.st = 1 ∧ mine.rcv = o.own s ∧ eng.resv.length < 128 * eng.buf ∧ shNocode o.desc = false ∧ pairs
             ∃ t q, exec (.decodeReserve u v) s = .next t ∧ t.out = s.out ++ [q] ∧ q.ty = 0x25 ∧ SameMemory s t
               ∧ (grants → q.aux = 1 ∧ ∃ r, (getEng t die).resv = eng.resv ++ [r] ∧ r.u = mine)
               ∧ (¬grants → q.aux = 0 ∧ getEng t die = eng)))
      ∧ (findSent s u.sid = some (die, o) →
        let asks := o.st ≠ 0 ∧ genOf s o.keyId ≠ none ∧ u.snd = o.own s ∧ u.rcv < o.n ∧ u.rcv ≠ u.snd ∧ u.k < shBsize o.desc / 256
        (asks → ∃ t q, exec (.fallbackRequest u) s = .next t ∧ t.out = s.out ++ [q] ∧ q.nocode = true ∧ q.ty = 0x20
              ∧ q.dst = o.members.getD u.rcv 0 ∧ q.payload = unitAt s die o (dSrc o.desc + u.rcv * shBsize o.desc) u.k ∧ SameMemory s t
              ∧ (findColl s die o.slot = some o → findColl t die o.slot = some { o with fallback := o.fallback + 1 }))
          ∧ (¬asks → exec (.fallbackRequest u) s = .next dropped))
      ∧ (findSent s u.sid = none → exec (.fallbackRequest u) s = .next dropped)
      ∧ (findShf s u.sid = none →
        (∀ fb, exec (.shuffleUnitUncoded u fb data) s = .next dropped) ∧ exec (.shuffleUnitCoded u v cu cv data) s = .next dropped
          ∧ ∃ q, exec (.decodeReserve u v) s = .next { s with out := s.out ++ [q] } ∧ q.ty = 0x25 ∧ q.aux = 0)
      -- the switch
      ∧ (∀ dev inc,
        ((∃ i, keyGet s.fab.incs dev = some i ∧ i ≠ inc) → exec (.sideDeclare dev inc u) s = .next s)
          ∧ ((∀ i, keyGet s.fab.incs dev = some i → i = inc) →
            ∃ t, exec (.sideDeclare dev inc u) s = .next t ∧ (∀ e, e ∈ t.fab.shadow ↔ e = (dev, inc, u) ∨ (e ∈ s.fab.shadow
              ∧ ¬(e.1 = dev ∧ e.2.2 = u))) ∧ t.mem = s.mem ∧ t.th = s.th)
          ∧ ∃ t, exec (.sideEvict dev u) s = .next t ∧ (∀ e, e ∈ t.fab.shadow ↔ e ∈ s.fab.shadow ∧ ¬(e.1 = dev ∧ e.2.2 = u))
            ∧ t.mem = s.mem ∧ t.th = s.th)
      ∧ (¬pairs → ∀ atU granted, exec (.reserveGrant u v atU granted) s = .next s)
      ∧ (pairs → ∀ atU granted,
        let p := (s.fab.pairs.find? fun p => p.u == u && p.v == v).getD ⟨u, v, none, none⟩
        let q := if atU then { p with atU := some granted } else { p with atV := some granted }
        ∃ t, exec (.reserveGrant u v atU granted) s = .next t ∧ t.mem = s.mem ∧ t.out = s.out
          ∧ ((q.atU = none ∨ q.atV = none) → q ∈ t.fab.pairs)
          ∧ (q.atU ≠ none → q.atV ≠ none → ∀ x ∈ t.fab.pairs, ¬(x.u = u ∧ x.v = v))
          ∧ ((q.atU = some false ∧ q.atV ≠ none) ∨ (q.atV = some false ∧ q.atU ≠ none) → ∀ d op, findShf s u.sid = some (d, op) →
              ∀ r ∈ (getEng t d).resv, ¬(r.u = u ∧ r.v = v) ∧ ¬(r.u = v ∧ r.v = u)))

/-! ## Launches, clusters and firmware -/

/-- R330, R331, R333, R335, R345, R208: what the host complex, firmware and errors do to a cluster. A pre-emption request stops a resident
cluster, and gives one that is stopping or saved its reason; a saved one whose reasons but pre-emption have ended is restored on cores
of its shape, a discarded one is placed afresh; a debug stop, a page wait and a spill limit each end with their service, or the trap is
fatal; a refill brings a page back with the bytes and presence bits that physical memory holds in its backing page; an uncorrectable
error in a team's state ends its cluster.
Which traps a report names is the model's reading (log 1), the place of a backing page its choice (log 18), and the nested flag of a trap
that cannot be serviced its choice too (log 74). -/
def Obligations.ClusterEvents : Prop :=
  ∀ (s : State) (k : Cluster) (l : Launch) (cores : List Nat) (v : Slot) (slot page : Nat),
    findCluster s k.id = some k → findLaunch s k.id.lid = some l →
    let nowIs (t : State) (k' : Cluster) : Prop := findCluster t k.id = some k'
    let stops := k.status = .resident ∨ k.status = .stopping ∨ k.status = .saved
    let restores := k.status = .saved ∧ (∀ r ∈ k.reasons, r = 1) ∧ restoreOk s l k cores = true
    let afresh := k.status = .waiting ∧ bitN l.dieMask (cores.headD 0 / 336) = true ∧ placeOk s l (cores.headD 0 / 336) cores = true
    let holds := (k.status = .resident ∨ k.status = .placing ∨ k.status = .stopping ∨ k.status = .retired)
      ∧ v.unpinned.contains page = true
    (stops → ∃ t, exec (.preemptRequest k.id) s = .next t ∧ t.mem = s.mem ∧ t.th = s.th
        ∧ nowIs t { k with reasons := setAdd k.reasons 1, status := if k.status = .resident then .stopping else k.status })
      ∧ (¬stops → exec (.preemptRequest k.id) s = .next s)
      ∧ (restores → ∃ t k', exec (.clusterRestore k.id cores) s = .next t ∧ nowIs t k' ∧ k'.status = .resident ∧ k'.reasons = []
        ∧ ∀ x ∈ threads t, x.cid = k.id → x.place.core = cores.getD x.place.slot 0)
      ∧ (¬restores → exec (.clusterRestore k.id cores) s = .next s)
      ∧ (afresh → ∃ t k', exec (.clusterPlaceAfresh k.id cores) s = .next t ∧ nowIs t k' ∧ k'.ext = false
        ∧ (∀ w ∈ k'.slots, w.bytes = [] ∧ w.absent = [])
        ∧ ∀ x ∈ t.pool, x.cid = k.id → x.ctx.pc = l.code + BitVec.ofNat 64 l.entry ∧ x.status = .run ∧ x.accs = [])
      ∧ (¬afresh → exec (.clusterPlaceAfresh k.id cores) s = .next s)
      ∧ (k.status = .saved → 4 ∈ k.reasons → ∃ t, exec (.debugRelease k.id) s = .next t
        ∧ nowIs t { k with reasons := setDel k.reasons 4 } ∧ t.mem = s.mem ∧ t.th = s.th)
      ∧ (¬(k.status = .saved ∧ 4 ∈ k.reasons) → exec (.debugRelease k.id) s = .next s)
      -- pages
      ∧ (k.status = .saved → 2 ∈ k.reasons →
        (∃ t, exec (.pagesPresentReport k.id true) s = .next t ∧ nowIs t { k with reasons := setDel k.reasons 2 } ∧ t.mem = s.mem)
          ∧ ∃ t, exec (.pagesPresentReport k.id false) s = .next t ∧ nowIs t { k with status := .dying } ∧ t.mem = s.mem
            ∧ ∀ code addr, s.th.cid = k.id → s.th.status = .svc code addr → code ≠ 0x0E → lostPages s k.id = [addr.toNat / 65536] →
              t.th.status = .fatal code s.th.ctx.inH ∧ t.th.trap.cause = BitVec.ofNat 32 code ∧ t.th.trap.taddr = addr)
      ∧ (k.status = .placing → k.argFault ≠ none → ∃ t, exec (.pagesPresentReport k.id false) s = .next t
        ∧ nowIs t { k with status := .dying } ∧ t.mem = s.mem)
      ∧ (∀ b, (k.status = .resident ∨ (k.status = .saved ∧ 2 ∉ k.reasons)) →
        exec (.pagesPresentReport k.id b) s = .next (servePages s k.id b))
      -- a spill limit
      ∧ (∀ addr, k.status = .saved → s.th.id = ⟨k.id.lid, k.id.clus, s.th.id.team, s.th.id.tid⟩ → s.th.status = .svc 0x0E addr →
        let i (r : Option DWord) : Instr := .spillLimitService k.id s.th.id.team s.th.id.tid r
        (∃ t, exec (i none) s = .next t ∧ t.th.status = .fatal 0x0E s.th.ctx.inH ∧ nowIs t { k with status := .dying } ∧ t.mem = s.mem)
          ∧ (∀ lim, lim < s.th.place.rslim → exec (i (some lim)) s = .next s)
          ∧ ∀ lim, ¬lim < s.th.place.rslim → s.pool = [] →
            ∃ t, exec (i (some lim)) s = .next t ∧ t.th.status = .run ∧ nowIs t { k with reasons := setDel k.reasons 3 })
      -- a refill
      ∧ (findSlot s k.id slot = some v →
        (holds → ∃ t w, exec (.scratchpadPageRefill k.id slot page) s = .next t ∧ findSlot t k.id slot = some w ∧ t.th = s.th
            ∧ (∀ a, t.hbmByte a = s.hbmByte a) ∧ w.unpinned = setDel v.unpinned page
            ∧ (Mem.wf v.bytes = true → ∀ a, t.spadByte k.id slot a = (if a / 4096 = page
              then (fwRead s (clusterGen s k.id) (k.pageAt slot page) 4096).getD (a - 4096 * page) 0 else s.spadByte k.id slot a))
            ∧ ∀ n, (n ∈ w.absent ↔ if 32 * n / 4096 = page
              then (natOfBytes (fwRead s (clusterGen s k.id) (k.bitsAt slot page) 16)).testBit (n % 128) = true else n ∈ v.absent))
          ∧ (¬holds → exec (.scratchpadPageRefill k.id slot page) s = .next s))
      -- an uncorrectable error
      ∧ (s.th.cid = k.id → s.th.live = true →
        (∀ x ∈ s.pool, x.cid = k.id → x.id.team = s.th.id.team → x.live = true → s.th.id.tid ≤ x.id.tid) →
        let i := .eccFatalState k.id s.th.id.team
        ((k.status = .resident ∨ k.status = .stopping) →
            ∃ t, exec i s = .next t ∧ t.th.status = .fatal 0x12 false ∧ t.th.trap.cause = 0x12 ∧ t.th.trap.taddr = 0
              ∧ t.ctl.ueCnt = satAdd s.ctl.ueCnt 1 ∧ nowIs t { k with status := .dying } ∧ t.mem = s.mem)
          ∧ (k.status ≠ .resident → k.status ≠ .stopping → exec i s = .next s))

/-- R362 to R367, R423: the launch processors. A record whose turn has come is opened, or refused with status 0x81 if it breaks a limit; a
cluster of an open launch is claimed under its ticket and placed where a die of the launch has room, until the tickets are at its
count; a cluster whose teams have all ended leaves its cores once none of its operations runs; LAUNCHEND ends every open launch of
its context, and answers status 1 where there is none.
Readings of the launch processor's rules are those of log 40. -/
def Obligations.LaunchEvents : Prop :=
  ∀ (s : State) (die queue : Nat) (l : Launch) (cores : List Nat) (k : Cluster) (v : Word),
    -- a record
    (let i := .launchRecordTake die queue
     let h := qHeader s queue
     let mine := pendingOf s queue
     let pa := h.recAt (h.cons + mine.length)
     let hdr := (s.ctl.queues.getD queue 0).toNat
     let b := readZero s pa 256
     let l1 := launchOf (1 + s.launches.foldl (fun m l => Nat.max m l.lid) 0) pa queue b
     let s1 := takeTouch s die hdr pa
     let due := s.ctl.up = true ∧ die < 2 ∧ queue < 16 ∧ queueValid s queue = true ∧ fwMayRead s hdr 64 = true
       ∧ fwMayRead s pa 256 = true ∧ mine.length < h.fill ∧ (∀ x ∈ mine, turnReached s x = true) ∧ badHit s.mem pa 256 false = false
     let busy := recordOk b = true ∧ recordBusy s die l1 = true
     let legal := recordOk b = true ∧ handlerOk s1 die l1 = true ∧ bindOk s1 die l1 = true
     let mayOpen := bitN l1.dieMask die = true ∧ l1.nChunk ≤ freeSlots (getEng s l1.bDie)
     (¬due → exec i s = .next s)
       ∧ (due → busy → exec i s = .next s1)
       ∧ (due → ¬busy → ¬legal → ∃ t x, exec i s = .next t ∧ x ∈ t.launches ∧ x.lid = l1.lid ∧ x.complete = true ∧ x.status = 0x81
         ∧ t.clusters = s.clusters ∧ t.cores = s.cores)
       ∧ (due → ¬busy → legal → ¬mayOpen → exec i s = .next s1)
       ∧ (due → ¬busy → legal → mayOpen → exec i s = .next (openLaunch s1 die l1)
         ∧ ∃ x ∈ (openLaunch s1 die l1).launches, x.lid = l1.lid ∧ x.complete = false ∧ x.recAddr = pa ∧ x.queue = queue ∧ x.placed = 0))
      -- a claim
      ∧ (findLaunch s l.lid = some l →
        let i := .clusterClaim die l.lid cores
        let t0 := ticketOf s l
        let may := l.complete = false ∧ die < 2 ∧ bitN l.dieMask die = true ∧ bitN l.stopped die = false ∧ s.ctl.up = true
          ∧ fwMayRead s (l.recAddr + 248) 4 = true
          ∧ ∀ x ∈ (pendingOf s l.queue).takeWhile fun x => x.lid != l.lid, turnReached s x = true
        let l2 : Launch := { l with placed := l.placed + 1, closed := t0 + 1 == l.n }
        (¬may → exec i s = .next s)
          ∧ (may → l.n ≤ t0 →
            exec i s = .next (addZero (setLaunch s { l with stopped := l.stopped + 2 ^ die, closed := true }) (l.recAddr + 248) 1))
          ∧ (may → t0 < l.n → placeOk s l die cores = false → exec i s = .next s)
          ∧ (may → t0 < l.n → placeOk s l die cores = true →
            ∃ t k2, exec i s = .next t ∧ t = placeCluster (addZero (setLaunch s l2) (l.recAddr + 248) 1) l2 t0 cores
              ∧ findCluster t ⟨l.lid, t0⟩ = some k2 ∧ k2.slots.map (·.core) = cores
              ∧ findLaunch t l.lid = some l2))
      -- a retirement
      ∧ (findCluster s k.id = some k →
        let i := .clusterRetire k.id
        let s1 := (List.range k.teams.length).foldl (fun s i => retireTeam s k.id i) s
        (k.status ≠ .resident → k.status ≠ .retired → exec i s = .next s)
          ∧ ((k.status = .resident ∨ k.status = .retired) →
            (∀ k1, findCluster s1 k.id = some k1 → k1.teams.all (·.retired) = false → exec i s = .next s1)
              ∧ (∀ k1, findCluster s1 k.id = some k1 → k1.teams.all (·.retired) = true →
                (worksOn s1 k.id = true → ∃ t, exec i s = .next t ∧ findCluster t k.id = some { k1 with status := .retired })
                  ∧ (worksOn s1 k.id = false → ∃ t, exec i s = .next t ∧ findCluster t k.id = none ∧ ∀ x ∈ t.pool, x.cid ≠ k.id))))
      -- the end of launches
      ∧ (let i := .launchEnd v
         let ctx := v.toNat / 16 % 65536
         let hits := (s.launches.filter fun l => !l.complete && l.ctx == ctx).map (·.lid)
         (s.ctl.launchEnd.getLsbD 0 = true → exec i s = .next s)
           ∧ (s.ctl.launchEnd.getLsbD 0 = false →
             (v.getLsbD 0 = false → ∃ t, exec i s = .next t ∧ t.launches = s.launches ∧ t.clusters = s.clusters ∧ t.mem = s.mem
                 ∧ t.ctl.launchEnd = BitVec.ofNat 32 (16 * ctx + 0x1000000 * (s.ctl.launchEnd.toNat / 0x1000000)))
               ∧ (v.getLsbD 0 = true → hits = [] → ∃ t, exec i s = .next t ∧ t.ctl.launchEnd = BitVec.ofNat 32 (16 * ctx + 0x1000000)
                 ∧ t.launches = s.launches ∧ t.clusters = s.clusters ∧ t.mem = s.mem)
               ∧ (v.getLsbD 0 = true → hits ≠ [] → ∃ t, exec i s = .next t ∧ t.ctl.launchEnd = BitVec.ofNat 32 (16 * ctx)
                 ∧ (∀ lid ∈ hits, ∀ x, findLaunch t lid = some x → x.ended = true)
                 ∧ ∀ c ∈ t.clusters, c.id.lid ∈ hits → c.status = .dying)))

/-! ## Translation, caches, keys -/

/-- R228 to R232, R224, R347, R356, R357, R361: a walk outside a heap enters its leaf in the TLBs of the core, its bay and its die, and its
nodes in the walk units; an invalidation drops what it covers, a second write while one runs is ignored, and it ends once no work
under a dropped translation is left; an eviction takes a die's copy and changes no byte; a migration locks a legal page that no range
lock and no heap meets, and its switch, once no translation of the page is held, copies every byte, an uncorrectable word as zero.
Which entry leaves a full TLB, and that a migration names its new place with its lock and copies at its switch, follow logs 53 and 34. -/
def Obligations.TranslationEvents : Prop :=
  ∀ (s : State) (core va die pa newPa len : Nat) (mir : Bool) (l : Launch) (v : Word) (g : Migration),
    (findLaunch s l.lid = some l →
      let i := .pageWalk core l.lid va
      let heap := l.hbase.toNat ≤ va ∧ va < l.hlim.toNat
      (heap → exec i s = .next s)
        ∧ (¬heap → ∃ t, exec i s = .next t ∧ SameMemory s t ∧ t.th = s.th ∧ t.mem.tags = s.mem.tags ∧ t.mem.locks = s.mem.locks
          ∧ (∀ r ∈ walkPath s.xl s.mem (gen0 s) l.ctx va walkLevels l.root, r.2.2.2 ≠ 0 →
            (⟨stackOf r.2.1, l.ctx, r.1, va, r.2.2.2⟩ : NodeEntry) ∈ t.xl.nodes)
          ∧ (∀ code, walk s l.ctx l.root va = .error code → t.xl.tlb = s.xl.tlb)
          ∧ (∀ leaf, walk s l.ctx l.root va = .ok leaf →
            let new : List TlbEntry := [⟨0, core, l.ctx, va, leaf⟩, ⟨1, core / 12, l.ctx, va, leaf⟩, ⟨2, core / 336, l.ctx, va, leaf⟩]
            (∀ e ∈ new, e ∈ t.xl.tlb) ∧ ∀ e ∈ t.xl.tlb, e ∈ new ∨ e ∈ s.xl.tlb)))
      -- invalidations
      ∧ (s.xl.invCtl.getLsbD 0 = true → exec (.tlbInvalidate v) s = .next s)
      ∧ (s.xl.invCtl.getLsbD 0 = false →
        ∃ t, exec (.tlbInvalidate v) s = .next t ∧ t.xl.invCtl = v &&& 0x3F0FFFF7 ∧ t.xl.invVa = s.xl.invVa ∧ t.mem = s.mem ∧ t.th = s.th
          ∧ (v.getLsbD 0 = false → t.xl.tlb = s.xl.tlb ∧ t.xl.nodes = s.xl.nodes)
          ∧ (v.getLsbD 0 = true → ∀ e, (e ∈ t.xl.tlb ↔ e ∈ s.xl.tlb ∧ t.xl.covers e.ctx e.va e.leaf.size = false)
            ∧ ∀ n, (n ∈ t.xl.nodes ↔ n ∈ s.xl.nodes ∧ t.xl.covers n.ctx n.va n.shift = false)))
      ∧ ((s.xl.invCtl.getLsbD 0 = false ∨ staleWork { s with xl := dropTlb s.xl } = true) → exec .invalidateComplete s = .next s)
      ∧ (s.xl.invCtl.getLsbD 0 = true → staleWork { s with xl := dropTlb s.xl } = false →
        ∃ t, exec .invalidateComplete s = .next t ∧ t.xl.invCtl = s.xl.invCtl &&& 0xFFFFFFFE ∧ t.mem = s.mem ∧ t.th = s.th
          ∧ ∀ e ∈ t.xl.tlb, e ∈ s.xl.tlb ∧ s.xl.covers e.ctx e.va e.leaf.size = false)
      -- an eviction
      ∧ (∃ t, exec (.llcEviction die pa) s = .next t ∧ SameMemory s t ∧ t.th = s.th ∧ t.xl = s.xl ∧ t.mem.tags = s.mem.tags
        ∧ ∀ x, llcFind t.mem (sectorOf pa) = some x → x.at' die = .i)
      -- a migration
      ∧ (let fits (g : Migration) : Prop := g.newPa % g.len = 0
             ∧ (if g.mir = true then g.newPa + g.len ≤ Config.dieOneBase else g.newPa + g.len ≤ Config.hbmTop)
             ∧ (g.newPa + g.len ≤ g.pa ∨ g.pa + g.len ≤ g.newPa)
             ∧ ∀ p ∈ replicas g.newPa g.mir, lockHit s.mem p g.len = false ∧ heapPage s p g.len = false ∧ codeHit s p g.len = false
               ∧ ∀ h ∈ s.mem.migs, h ≠ g → ∀ q ∈ replicas h.pa h.mir ++ replicas h.newPa h.mir, p + g.len ≤ q ∨ q + h.len ≤ p
         let legal := (len = 2 ^ 16 ∨ len = 2 ^ 25 ∨ len = 2 ^ 31) ∧ pa % len = 0
           ∧ (if mir = true then pa + len ≤ Config.dieOneBase else pa + len ≤ Config.hbmTop)
           ∧ (∀ p ∈ replicas pa mir, lockHit s.mem p len = false ∧ migHit s.mem p len = none ∧ heapPage s p len = false)
           ∧ fits ⟨pa, newPa, len, mir⟩
         (legal → exec (.migrationLock ⟨pa, newPa⟩ len mir) s
             = .next { s with mem := { s.mem with migs := s.mem.migs ++ [⟨pa, newPa, len, mir⟩] } })
           ∧ (¬legal → exec (.migrationLock ⟨pa, newPa⟩ len mir) s = .next s)
           ∧ ((s.mem.migs.find? fun g => g.pa == pa) = none → exec (.migrationSwitch pa newPa) s = .next s)
           ∧ ((s.mem.migs.find? fun h => h.pa == g.pa) = some g →
             let free := newPa = g.newPa ∧ fits g
               ∧ (∀ e ∈ s.xl.tlb, g.pa + g.len ≤ e.leaf.page ∨ e.leaf.page + 2 ^ e.leaf.size ≤ g.pa)
               ∧ (∀ e ∈ s.xl.nodes, g.reaches e.next = false) ∧ ∀ p ∈ replicas g.pa g.mir, heapPage s p g.len = false
             (¬free → exec (.migrationSwitch g.pa newPa) s = .next s)
               ∧ (free → exec (.migrationSwitch g.pa newPa) s = .next (switchPage s g)
                 ∧ (heldAt s g = [] → g ∉ (switchPage s g).mem.migs
                   ∧ (g.mir = false → Mem.wf s.mem.hbm = true → ∀ a, (switchPage s g).hbmByte a
                       = (if newPa ≤ a ∧ a < newPa + g.len then
                           (if (g.pa + (a - newPa)) / 32 ∈ s.mem.bad then 0 else s.hbmByte (g.pa + (a - newPa)))
                         else s.hbmByte a))))))

/-- R217, R220, R221, R413: a key command runs once it has been written, and not otherwise. An install under a free id makes the key valid,
under a valid id it answers status 2, and of key 0 a second time status 3; a destruction of a key in use answers 1, of key 0 answers
3, R169 makes it wait while a lock covers a queue's records, and else the slot is cleared; its receipt ends the command with a new serial. The port's key data read zero after each end. -/
def Obligations.KeyCommands : Prop :=
  ∀ (s : State) (id : Nat),
    let c := s.ctl
    let ended (t : State) (n : Nat) : Prop :=
      t.ctl.kcmd.getLsbD 0 = false ∧ t.ctl.kcmd.toNat / 2 ^ 16 % 256 = n ∧ t.ctl.kdata = List.replicate 64 0 ∧ t.ctl.destroying = false
    let kept (t : State) : Prop := t.mem = s.mem ∧ t.ctl.keys = c.keys ∧ t.th = s.th ∧ t.launches = s.launches
    let runs (op : Nat) : Prop := c.kcmd.getLsbD 0 = true ∧ c.kcmdOp = op ∧ c.kcmdKey = id
    (¬runs 1 → exec (.keyInstall id) s = .next s)
      ∧ (runs 1 →
        (id = 0 → c.key0Done = true → ∃ t, exec (.keyInstall id) s = .next t ∧ ended t 3 ∧ kept t)
          ∧ (¬(id = 0 ∧ c.key0Done = true) → genOf s id ≠ none → ∃ t, exec (.keyInstall id) s = .next t ∧ ended t 2 ∧ kept t)
          ∧ (¬(id = 0 ∧ c.key0Done = true) → genOf s id = none →
            ∃ t, exec (.keyInstall id) s = .next t ∧ ended t 0 ∧ genOf t id = some c.nextGen ∧ t.ctl.nextGen = c.nextGen + 1
              ∧ t.mem.pair c.nextGen = c.kdata ∧ (∀ j, j ≠ id → genOf t j = genOf s j)
              ∧ SameMemory s t ∧ t.mem.tags = s.mem.tags ∧ t.mem.llc = s.mem.llc ∧ t.th = s.th ∧ t.launches = s.launches))
      ∧ ((¬runs 2 ∨ c.destroying = true) → exec (.keyDestroy id) s = .next s)
      ∧ (runs 2 → c.destroying = false →
        (id = 0 → ∃ t, exec (.keyDestroy id) s = .next t ∧ ended t 3 ∧ kept t)
          ∧ (id ≠ 0 → queuesReadable s = false → exec (.keyDestroy id) s = .next s)
          ∧ (id ≠ 0 → queuesReadable s = true → keyInUse s id = true → ∃ t, exec (.keyDestroy id) s = .next t ∧ ended t 1 ∧ kept t)
          ∧ (id ≠ 0 → queuesReadable s = true → keyInUse s id = false →
            ∃ t, exec (.keyDestroy id) s = .next t ∧ genOf t id = none ∧ t.ctl.destroying = true ∧ t.ctl.kcmd = c.kcmd
              ∧ (∀ j, j ≠ id → genOf t j = genOf s j) ∧ t.th = s.th ∧ t.launches = s.launches))
      ∧ (c.destroying = false → exec .keyDestroyReceipt s = .next s)
      ∧ (c.destroying = true →
        ∃ t, exec .keyDestroyReceipt s = .next t ∧ ended t 0 ∧ kept t ∧ t.ctl.serial = c.serial + 1
          ∧ t.ctl.krcpt = receipt c.kcmdKey (c.serial + 1).toNat c.lines0 c.lines1)

/-! ## Control space, host complex and sensors -/

/-- R29, R164, R219, R344, R347, R361, R379, R411, R414, R417 to R420, R422: registers and sensors of the control space, and the host
complex. A write out of a register's limits is discarded or held at them; a listed register reached from its mode is written, any
other access faults and records the fault; an aligned access of a hart to HBM is one access, under its key register's id, a misaligned
one raises the hart's own exception, and one that fails a check faults without effect, its hart taking the access fault of its kind with the
address in its trap value register; a launch processor's access that no listed register takes raises PROT; sensors, soft errors, scrubs,
cycles, reports and bring-up change what their rules name, and no byte of memory.
A hart is modelled by its accesses (log 11), throttling follows log 46, and bring-up is a step for each of its stages (logs 12, 50). The
places that soft errors name are the model's (log 17), as are the late correction of an error in HBM (log 48), the serial of the first
report (log 45) and what Loupe counts (log 72). -/
def Obligations.ControlEvents : Prop :=
  ∀ (s : State) (v : Word) (u n h off size pa core : Nat) (m : HartMode) (d : DWord) (op : AmoOp)
    (mw : Word) (t0 t1 : BitVec 16) (nonce : List Byte),
    let quiet (t : State) : Prop := t.mem = s.mem ∧ t.th = s.th ∧ t.clusters = s.clusters ∧ t.launches = s.launches
    -- single registers
    (∃ t, exec (.rtoctlWrite v) s = .next t ∧ quiet t
        ∧ t.fab.tlog = (if 16 ≤ v.toNat % 32 ∧ v.toNat % 32 ≤ 28 then v.toNat % 32 else s.fab.tlog))
      ∧ (∃ t, exec (.prismbufWrite v) s = .next t ∧ quiet t
        ∧ t.fab.prism = (if v.toNat % 128 ≤ 64 then v.toNat % 128 else s.fab.prism))
      ∧ (∃ t, exec .prismbufApply s = .next t ∧ quiet t
        ∧ t.coll0 = (if s.coll0.resv = [] then { s.coll0 with buf := s.fab.prism } else s.coll0)
        ∧ t.coll1 = (if s.coll1.resv = [] then { s.coll1 with buf := s.fab.prism } else s.coll1))
      ∧ (∃ t, exec (.pcapWrite v) s = .next t ∧ quiet t ∧ t.ctl.pcap.toNat = Max.max 600 (Min.min 3600 (v.toNat % 65536)))
      -- Loupe
      ∧ (∀ x : Loupe, s.ctl.loupe[u]? = some x →
        (∃ t, exec (.loupeClear u) s = .next t ∧ quiet t
            ∧ t.ctl.loupe[u]? = some { x with min := 0xFFFFFFFF, max := 0, cnt := 0, bins := List.replicate 16 0 }
            ∧ ∀ j, j ≠ u → t.ctl.loupe[j]? = s.ctl.loupe[j]?)
          ∧ (x.takes s n = true ↔ x.ctl.getLsbD 0 = true ∧ x.ctl.getLsbD 1 = false ∧ x.event < 6 ∧ x.cores ≠ []
            ∧ ∀ c, x.counted s = some c → n = c)
          ∧ (x.takes s n = false → ∃ t, exec (.loupeSample u n) s = .next t ∧ quiet t ∧ t.ctl.loupe = s.ctl.loupe)
          ∧ (x.takes s n = true → ∃ t y, exec (.loupeSample u n) s = .next t ∧ quiet t ∧ t.ctl.loupe[u]? = some y ∧ y.ctl = x.ctl
            ∧ (∀ j, j ≠ u → t.ctl.loupe[j]? = s.ctl.loupe[j]?)
            ∧ (n < 2 ^ 32 → y.min.toNat = Min.min x.min.toNat n ∧ y.max.toNat = Max.max x.max.toNat n)
            ∧ y.cnt = satAdd x.cnt 1
            ∧ ∀ b, b < x.bins.length → y.bins[b]? = some (if (if n < 2 then b = 0 else if b = 15 then 2 ^ 15 ≤ n else b ≠ 0 ∧ b < 15 ∧ 2 ^ b ≤ n ∧ n < 2 ^ (b + 1))
                then satAdd (x.bins.getD b 0) 1 else x.bins.getD b 0)))
      -- the control space
      ∧ (m ≠ .launch → 16 ≤ h → exec (.controlRegisterWrite h m off size d) s = .next s)
      ∧ (m ≠ .launch → h < 16 →
        (∀ rs, ctlWords m off size = some rs → exec (.controlRegisterWrite h m off size d) s = .next (ctlWrite s d rs))
          ∧ (ctlWords m off size = none → exec (.controlRegisterWrite h m off size d) s = .next (hartFault s h 0x09 (Config.ctlBase + off) true)))
      ∧ (∀ code st, h < s.ctl.harts.length →
        let x := getHart s h
        let y := getHart (hartFault s h code pa st) h
        y.faulted = true ∧ y.excep = some (if st then .storeFault else .loadFault) ∧ y.tval = BitVec.ofNat 64 pa
          ∧ y.value = x.value ∧ y.keyReg = x.keyReg
          ∧ y.fault = (if x.fault.v then { x.fault with ovf := true }
              else { x.fault with addr := BitVec.ofNat 64 pa, cause := BitVec.ofNat 8 code, st := st, v := true }))
      -- harts
      ∧ (let ld : Instr := .hartLoad h m pa size
         let st : Instr := .hartStore h m pa size d
         let am : Instr := .hartAmo h m op pa size d
         let w := hartPlace s pa
         let rp := replica w.1 w.2 (hartDie h)
         let old := natOfBytes (physRead s.mem ((genOf s ((getHart s h).keyReg.toNat % 4096)).getD 0) rp size)
         let new := bytesOfNat size (amoNew op size old (d.toNat % 2 ^ (8 * size)))
         let meets (code : Nat) (store : Bool) : Prop := hartCheck s h w.1 size w.2 store = .error code
         let goes (g : Nat) (store : Bool) : Prop := hartCheck s h w.1 size w.2 store = .ok g
         let waits (i : Instr) : Prop := 16 ≤ h ∨ m = .launch ∨ hartWaits s h i = true
         (∀ i, i ∈ [ld, st, am] → m ≠ .launch → (16 ≤ h ∨ hartWaits s h i = true) → exec i s = .next s)
           -- launch processors: `h` is the die
           ∧ (m = .launch → (2 ≤ h ∨ inCtl pa = false) → ∀ i, i ∈ [ld, st, am] → exec i s = .next s)
           ∧ (m = .launch → h < 2 → inCtl pa = true → h < s.ctl.procs.length →
             let words := ctlWords .launch (pa - Config.ctlBase) size
             (∀ i, i ∈ [ld, st, am] → (words = none ∨ i = am) →
               ∃ t, exec i s = .next t ∧ quiet t ∧ getProc t h = ⟨(getProc s h).value, true⟩)
               ∧ ∀ rs, words = some rs →
                 (∃ t, exec ld s = .next t ∧ quiet t ∧ getProc t h = ⟨ctlRead s rs, false⟩)
                   ∧ exec st s = .next (procDone (ctlWrite s d rs) h none))
           ∧ (∀ i, i ∈ [ld, st, am] → ¬waits i →
             (inCtl pa = false → size ∉ [1, 2, 4, 8] → exec i s = .next s)
               ∧ (inCtl pa = false → size ∈ [1, 2, 4, 8] → (pa % size ≠ 0 ∨ inHbm pa size = false) →
                 ∃ t, exec i s = .next t ∧ quiet t ∧ (h < s.ctl.harts.length →
                   (getHart t h).faulted = true ∧ (getHart t h).tval = BitVec.ofNat 64 pa ∧ (getHart t h).fault = (getHart s h).fault
                     ∧ (getHart t h).excep = some (if pa % size ≠ 0 then (if i = ld then .loadAlign else .storeAlign)
                         else if i = ld then .loadFault else .storeFault))))
           ∧ (inCtl pa = true →
             (¬waits ld → (ctlWords m (pa - Config.ctlBase) size = none → exec ld s = .next (hartFault s h 0x09 pa false))
                 ∧ ∀ rs, ctlWords m (pa - Config.ctlBase) size = some rs → exec ld s = .next (hartDone s h (some (ctlRead s rs))))
               ∧ (¬waits st → (ctlWords m (pa - Config.ctlBase) size = none → exec st s = .next (hartFault s h 0x09 pa true))
                 ∧ ∀ rs, ctlWords m (pa - Config.ctlBase) size = some rs → exec st s = .next (hartDone (ctlWrite s d rs) h none))
               ∧ (¬waits am → exec am s = .next (hartFault s h 0x09 pa true)))
           ∧ (inCtl pa = false → size ∈ [1, 2, 4, 8] → pa % size = 0 → inHbm pa size = true →
             (∀ code, (¬waits ld → meets code false → exec ld s = .next (hartFault s h code pa false))
                 ∧ ∀ i, i ∈ [st, am] → ¬waits i → meets code true → exec i s = .next (hartFault (endForeign s i) h code pa true))
               ∧ (∀ g, ¬waits ld → goes g false → ∃ t, exec ld s = .next t ∧ SameMemory s t ∧ t.th = s.th
                 ∧ (h < s.ctl.harts.length → (getHart t h).value = BitVec.ofNat 64 old ∧ (getHart t h).faulted = false)
                 ∧ ∀ k, k ≠ h → getHart t k = getHart s k)
               ∧ (∀ g i, i ∈ [st, am] → ¬waits i → goes g true →
                 let bytes := if i = st then bytesOfNat size d.toNat else new
                 -- held at its home, or performed there
                 (∀ t1, holdForeign s none w.1 size w.2 i = some t1 → exec i s = .next t1)
                   ∧ (holdForeign s none w.1 size w.2 i = none →
                     let bad := (replicas w.1 w.2).any (fun q => badHit s.mem q size true) = true ∨ (i = am ∧ badHit s.mem rp size false = true)
                     (bad → exec i s = .next (hartFault (endForeign s i) h 0x12 pa true))
                       ∧ (¬bad → ∃ t, exec i s = .next t
                         ∧ (∀ a, t.hbmByte a = ((replicas w.1 w.2).foldl (fun y q => physStore y (if w.2 then homeDie q else hartDie h) g q bytes)
                             (endForeign s i).mem |> fun y => Mem.get y.hbm a))
                         ∧ (h < s.ctl.harts.length → (getHart t h).faulted = false
                           ∧ (getHart t h).value = (if i = am then BitVec.ofNat 64 old else (getHart s h).value)))))))
      -- cycles and errors
      ∧ (672 ≤ core → exec (.coreClockCycle core) s = .next s)
      ∧ (core < 672 → ∃ t, exec (.coreClockCycle core) s = .next t ∧ (getCore t core).cyc = (getCore s core).cyc + 1
        ∧ (∀ k, k ≠ core → getCore t k = getCore s k) ∧ quiet t)
      ∧ (let w := pa / 32
         let held := (llcFind s.mem (sectorOf pa)).isSome
         let fresh := n = 1 ∧ w ∉ s.mem.soft ∧ w ∉ (if held then s.mem.hidden else s.mem.bad)
         ((n = 0 ∨ inHbm pa 1 = false) → exec (.softError .hbm pa n) s = .next s)
           ∧ (n ≠ 0 → inHbm pa 1 = true → ∃ t, exec (.softError .hbm pa n) s = .next t ∧ SameMemory s t ∧ t.th = s.th
             ∧ (fresh → t.mem.soft = setAdd s.mem.soft w ∧ t.mem.bad = s.mem.bad)
             ∧ (¬fresh → held = true → w ∈ t.mem.hidden ∧ t.mem.bad = s.mem.bad)
             ∧ (¬fresh → held = false → t.mem.bad = setAdd s.mem.bad w))
           ∧ (held = true → 2 ≤ n → ∃ t, exec (.softError .llc pa n) s = .next t ∧ SameMemory s t ∧ t.mem.bad = setAdd s.mem.bad w)
           ∧ (∀ a, a ≠ .hbm → a ≠ .llc → (exec (.softError a pa 0) s = .next s
             ∧ ∃ t, exec (.softError a pa 1) s = .next t ∧ quiet t ∧ t.ctl.ceSram = satAdd s.ctl.ceSram 1))
           ∧ (∃ t, exec (.softError (.deque core) pa 2) s = .next t ∧ t.mem = s.mem ∧ t.th = s.th
             ∧ (getCore t core).deque = (getCore s core).deque
             ∧ (getCore t core).dqBad = (if pa < (getCore s core).deque.length then setAdd (getCore s core).dqBad pa else (getCore s core).dqBad))
           ∧ (∀ x, (getCore s core).tiles[pa / 16384]? = some (some x) →
             ∃ t, exec (.softError (.tile core) pa 2) s = .next t ∧ t.mem = s.mem
               ∧ (getCore t core).tiles[pa / 16384]? = some (some { x with bad := setAdd x.bad (pa % 16384) })))
      ∧ (∃ t, exec (.scrub pa) s = .next t ∧ SameMemory s t ∧ t.th = s.th
        ∧ (pa / 32 ∈ s.mem.soft → t.mem.ceHbm = satAdd s.mem.ceHbm 1 ∧ t.mem.soft = setDel s.mem.soft (pa / 32))
        ∧ (pa / 32 ∉ s.mem.soft → t = s))
      -- telemetry, attestation, bring-up
      ∧ (∃ t, exec (.telemetrySample mw t0 t1) s = .next t ∧ quiet t ∧ t.ctl.pwr = mw ∧ t.ctl.temp0 = t0 ∧ t.ctl.temp1 = t1
        ∧ t.ctl.capOn = decide (1000 * s.ctl.pcap.toNat < mw.toNat) ∧ (t.ctl.capOn = false → t.ctl.tripOn = false → t.ctl.clk = 1500)
        ∧ (t.ctl.tripOn = true ↔ s.ctl.tripOn = true ∧ overLimit t.ctl = true))
      ∧ ((overLimit s.ctl = false ∨ s.ctl.tripOn = true) → exec .thermalTrip s = .next s)
      ∧ (overLimit s.ctl = true → s.ctl.tripOn = false → ∃ t, exec .thermalTrip s = .next t ∧ quiet t ∧ t.ctl.tripOn = true)
      ∧ (∃ t, exec (.attestationRequest nonce) s = .next t ∧ quiet t ∧ t.ctl.reports = s.ctl.reports + 1
        ∧ t.ctl.report.take 144 = bytesOfNat 4 2 ++ bytesOfW Config.svn ++ padTo 32 nonce ++ padTo 64 s.ctl.meas ++ deviceId
            ++ bytesOfD (s.ctl.reports + 1))
      ∧ (s.ctl.up = true → exec .powerGood s = .next s)
      ∧ (s.ctl.up = false →
        let k := s.ctl.stage
        let next (t : State) : Prop := exec .powerGood s = .next t ∧ SameMemory s t ∧ t.th = s.th
        -- the images, one by one: an image that is refused ends bring-up there
        (k = 0 → (s.ctl.measured = Config.images.length → ∃ t, next t ∧ t.ctl = { s.ctl with stage := 1 })
            ∧ ∀ i, Config.images[s.ctl.measured]? = some i →
              let good := sha512 i.key = Config.fusedDigest ∧ edVerify i.key i.body i.sig = true ∧ Config.fusedVersion ≤ i.version
              (good → ∃ t, next t ∧ t.ctl = { s.ctl with meas := sha512 (s.ctl.meas ++ sha512 i.body), measured := s.ctl.measured + 1 })
                ∧ (¬good → exec .powerGood s = .next s))
          ∧ (k = 1 ∨ k = 2 → ∃ t, next t ∧ t.ctl = { s.ctl with stage := k + 1 } ∧ t.fab = s.fab)
          ∧ (k = 3 → ∃ t, next t ∧ t.ctl.stage = 4 ∧ genOf t 0 = some s.ctl.nextGen ∧ t.ctl.key0Done = true ∧ t.ctl.up = false)
          ∧ (∀ st, (k = 4 ∧ st = .train) ∨ (k = 5 ∧ st = .join) ∨ (k = 6 ∧ st = .up) →
            ∃ t, next t ∧ t.ctl = { s.ctl with stage := k + 1 } ∧ (∀ p ∈ t.fab.ports, p.st = st)
              ∧ t.fab.joined = (if k = 6 then true else s.fab.joined))
          ∧ (7 ≤ k → ∃ t, next t ∧ t.ctl = { s.ctl with stage := k + 1, up := true } ∧ t.fab = s.fab))

/-! ## Fabric -/

/-- R369 to R371, R376 to R378, R381, R421, R232, R248: what a flit does that reaches this device; one that does not reach it has no effect. A
request whose checks pass is answered, its bytes read or written at their home, or held there; one that fails is logged and
answered with its code; one whose AUX breaks the layout is dropped and counted. A response ends the access that awaits it, a
fault response or a timeout makes it fail, and an answer that no request awaits is dropped and counted; a watch is entered where
there is room and released on request, and a notice reaches the threads that watch its words; R412: an entry of the log is written first and
its head advances behind it.
The layout of fields that R371 names without a place is the model's (log 15), which contexts serve a peer follows log 20, and the answer
to the release of a commit is that of log 66. -/
def Obligations.FlitsArrive : Prop :=
  ∀ (s : State) (f : Flit),
    let dropped : State := { s with fab := { s.fab with dropped := s.fab.dropped + 1 } }
    let n := auxLen f.aux
    let writer := (ownReq s f).map (·.tid)
    let replies (t : State) (q : Flit) : Prop := q ∈ t.out ∧ q.ty = 0x04 ∧ q.serial = f.serial ∧ q.dst = f.src
    -- logged and answered with a code
    let refused (s0 : State) (i : Instr) (code : Nat) : Prop :=
      (logFree s0 = false → exec i s = .next s0)
        ∧ (logFree s0 = true → ∃ t q, exec i s = .next t ∧ q ∈ t.out ∧ q.ty = 0x05 ∧ q.aux = code ∧ q.serial = f.serial ∧ q.dst = f.src
          ∧ (s.fab.iflBase.toNat < 8192 → t.fab.iflDrop = satAdd s.fab.iflDrop 1 ∧ t.fab.iflHead = s.fab.iflHead ∧ SameMemory s t)
          -- the entry first, the head behind it
          ∧ (8192 ≤ s.fab.iflBase.toNat → t.fab.iflOwed = true ∧ t.fab.iflHead = s.fab.iflHead ∧ t.fab.iflDrop = s.fab.iflDrop
            ∧ (headMove t).fab.iflHead = s.fab.iflHead + 1 ∧ (headMove t).fab.iflOwed = false)
          ∧ (code = 0x12 → t.ctl.ueCnt = satAdd s.ctl.ueCnt 1))
    -- an inbound write of m bytes, that reads them first where `rmw`
    let writes (i : Instr) (m : Nat) (rmw : Bool) (new : List Byte → List Byte × List Byte) : Prop :=
      (∀ c, inbound s f f.addr m .wr = .bad c → refused (endForeign s i) i c)
        ∧ (inbound s f f.addr m .wr = .wait → exec i s = .next s)
        ∧ ∀ pa mir gen, inbound s f f.addr m .wr = .go pa mir gen →
          ((rmw && badHit s.mem pa m false) = true → refused (endForeign s i) i 0x12)
            ∧ ((rmw && badHit s.mem pa m false) = false →
              (∀ t, holdForeign s writer pa m mir i = some t → exec i s = .next t)
                ∧ (holdForeign s writer pa m mir i = none →
                  let die := inboundDie s pa mir
                  let old := peekLoc (endForeign s i) die gen (.hbm pa mir) m
                  ∃ t q, exec i s = .next t ∧ replies t q ∧ q.payload = (new old).2 ∧ t.th.ctx = s.th.ctx
                    ∧ t.mem.hbm = (pokeLoc (endForeign s i) die gen (.hbm pa mir) (new old).1).mem.hbm))
    (∀ (i : Instr) (ty : Nat), (i, ty) ∈ [(Instr.read f, 1), (.write f, 2), (.atomic f, 3), (.response f, 4), (.remoteFaultResponse f, 5),
          (.watchRegister f, 6), (.watchRelease f, 7), (.remoteConflictNotice f, 8), (.multicastWrite f, 0x10), (.loadAndReduce f, 0x11)] →
        reaches s f ty = false → exec i s = .next s)
      -- requests
      ∧ (reaches s f 1 = true →
        (auxOk 1 f.aux = false → exec (.read f) s = .next dropped)
          ∧ (auxOk 1 f.aux = true →
            (∀ c, inbound s f f.addr n .rd = .bad c → refused s (.read f) c)
              ∧ (inbound s f f.addr n .rd = .wait → exec (.read f) s = .next s)
              ∧ ∀ pa mir gen, inbound s f f.addr n .rd = .go pa mir gen →
                ∃ t q, exec (.read f) s = .next t ∧ replies t q ∧ SameMemory s t ∧ t.th = s.th
                  ∧ q.payload = peekLoc s (inboundDie s pa mir) gen (.hbm pa mir) n))
      ∧ (reaches s f 2 = true →
        (auxOk 2 f.aux = false → exec (.write f) s = .next dropped)
          ∧ (auxOk 2 f.aux = true → writes (.write f) n false fun _ => (padTo n f.payload, [])))
      ∧ (reaches s f 3 = true →
        (auxOk 3 f.aux = false → exec (.atomic f) s = .next dropped)
          ∧ ∀ o, auxOk 3 f.aux = true → auxAtom f.aux = some o → writes (.atomic f) n true (flitAtom o n f.payload))
      ∧ (reaches s f 0x10 = true →
        (f.aux ≠ 4 → f.aux ≠ 8 → exec (.multicastWrite f) s = .next dropped)
          ∧ (f.aux = 4 ∨ f.aux = 8 → writes (.multicastWrite f) f.aux false fun _ => (padTo f.aux f.payload, [])))
      ∧ (reaches s f 0x11 = true →
        let i := .loadAndReduce f
        let legal := f.aux ≠ 0 ∧ f.aux % 4 = 0 ∧ f.aux ≤ 16384
        (¬legal → exec i s = .next dropped)
          ∧ (legal →
            (∀ c, (readPieces s f f.addr (f.aux / 4)).2 = .error (some c) → refused s i c)
              ∧ ((readPieces s f f.addr (f.aux / 4)).2 = .error none → exec i s = .next s)
              ∧ ∀ bs, (readPieces s f f.addr (f.aux / 4)).2 = .ok bs →
                ∃ t qs, exec i s = .next t ∧ t.out = s.out ++ qs ∧ SameMemory s t ∧ qs.flatMap (·.payload) = bs
                  ∧ qs.length = (f.aux + 223) / 224
                  ∧ ∀ q ∈ qs, q.ty = 0x04 ∧ q.serial = f.serial ∧ q.dst = f.src ∧ q.payload.length ≤ 224))
      -- answers
      ∧ (reaches s f 4 = true →
        let i := .response f
        (findReq s f.serial = none → exec i s = .next dropped)
          ∧ ∀ r, findReq s f.serial = some r → r.tid = s.th.id →
            (awaiting s f.serial = none → exec i s = .next dropped)
              ∧ (∀ a, awaiting s f.serial = some a → exec i s = .next (landAnswer s a f))
              -- the answer to the release of a commit
              ∧ (∀ a m ext ds, s.th.accs = [a] → a.serial = some f.serial → a.spec = true → a.early.isSome = true → a.fault = none →
                s.th.notice = false → a.kind = .load m ext ds →
                (f.aux = 1 → ∃ t, exec i s = .next t ∧ t.th.accs = [] ∧ t.th.ctx = a.snap ∧ t.th.rbk = satInc s.th.rbk ∧ SameMemory s t)
                  ∧ (f.aux ≠ 1 → ∃ t, exec i s = .next t ∧ t.th.accs = [] ∧ t.th.ctx = s.th.ctx ∧ t.th.rbk = s.th.rbk ∧ SameMemory s t))
              ∧ ∀ a, s.th.accs = [a] → a.serial = some f.serial → a.spec = false →
                (∀ m ext ds, a.kind = .load m ext ds →
                    (f.aux ≠ 1 → ∃ t, exec i s = .next t ∧ t.th.accs = [] ∧ SameMemory s t ∧ dcGet t.th a.dc = dcGet (dcDrop s.th a.dc) a.dc
                        ∧ ∀ k, t.th.ctx.reg k = (loadWrite s.th.ctx m ext ds (padTo m f.payload)).reg k)
                      ∧ (f.aux = 1 → ∃ t, exec i s = .next t ∧ t.th.accs = [{ a with serial := none }] ∧ t.th.ctx = s.th.ctx))
                  ∧ (((∃ bs, a.kind = .store bs) ∨ ∃ op bf v, a.kind = .red op bf v) →
                    ∃ t, exec i s = .next t ∧ t.th.accs = [] ∧ SameMemory s t ∧ SameRegsBut [] s t)
                  ∧ (∀ op m c e d, a.kind = .atom op m c e d →
                    ∃ t, exec i s = .next t ∧ t.th.accs = [] ∧ SameMemory s t
                      ∧ ∀ k, t.th.ctx.reg k = (if m = 8 then s.th.ctx.setPair d (BitVec.ofNat 64 (fieldOf f.payload 0 m))
                          else s.th.ctx.setReg d (BitVec.ofNat 32 (fieldOf f.payload 0 m))).reg k)
                  ∧ (∀ ms bs, a.kind = .mcst ms bs → a.failed = none →
                    (f.src ∉ a.awaited → exec i s = .next s)
                      ∧ (f.src ∈ a.awaited → (∀ d ∈ a.awaited, d = f.src) → ∃ t, exec i s = .next t ∧ t.th.accs = [] ∧ SameMemory s t)))
      ∧ (reaches s f 5 = true →
        let i := .remoteFaultResponse f
        let code := f.aux % 256
        (findReq s f.serial = none → exec i s = .next dropped)
          ∧ ∀ r a, findReq s f.serial = some r → r.tid = s.th.id → awaiting s f.serial = some a →
            (isGroup a = false → exec i s = .next (faultAccess s a (remoteExc 0x0F a (accDev a) code)))
              ∧ (isGroup a = true → code = 0 → exec i s = .next (absentGroup s (remoteExc 0x0F a f.src 0)))
              ∧ (isGroup a = true → code ≠ 0 →
                (f.src ∈ a.awaited → exec i s = .next (memberDone s f.src (some (remoteExc 0x0F a f.src code))))
                  ∧ (f.src ∉ a.awaited → exec i s = .next s)))
      ∧ (let i := .remoteTimeout f.serial
         (findReq s f.serial = none → exec i s = .next s)
           ∧ ∀ r, findReq s f.serial = some r →
             (r.age < 2 ^ s.fab.tlog → exec i s = .next s)
               ∧ ∀ a, 2 ^ s.fab.tlog ≤ r.age → r.tid = s.th.id → awaiting s f.serial = some a →
                 (isGroup a = false → exec i s = .next (faultAccess s a (remoteExc 0x10 a (accDev a) 0)))
                   ∧ (isGroup a = true → exec i s = .next (membersLost s fun d => remoteExc 0x10 a d 0)))
      -- watches
      ∧ (reaches s f 6 = true →
        let i := .watchRegister f
        let at' := (contextOf s f).map fun l => xlate s 672 l.xctx f.addr .rd
        ((at' = none ∨ ∃ c, at' = some (.error c)) → exec i s = .next s)
          ∧ ∀ pa mir, at' = some (.ok (pa, mir)) →
            (rwatchRoom s pa = true → ∃ t w, exec i s = .next t ∧ t.fab.rwatch = s.fab.rwatch ++ [w] ∧ w.dev = f.src ∧ w.inc = f.inc
                ∧ w.line = pa / 128 ∧ w.mask = f.aux ∧ SameMemory s t ∧ t.out = s.out)
              ∧ (rwatchRoom s pa = false → ∃ t q, exec i s = .next t ∧ replies t q ∧ q.aux = 1 ∧ t.fab = s.fab ∧ t.mem = s.mem))
      ∧ (reaches s f 7 = true →
        ∃ t, exec (.watchRelease f) s = .next t ∧ t.mem = s.mem ∧ t.th = s.th
          ∧ t.fab.rwatch = s.fab.rwatch.eraseP (fun r => r.dev == f.src && r.off == f.addr && r.mask == f.aux)
          -- the release of a commit is answered
          ∧ (f.payload.getD 1 0 ≠ 1 → t.out = s.out)
          ∧ (f.payload.getD 1 0 = 1 → ∃ q, t.out = s.out ++ [q] ∧ q.ty = 0x04 ∧ q.serial = f.serial ∧ q.dst = f.src
            ∧ q.aux = (if ∃ r ∈ s.fab.rwatch, r.dev = f.src ∧ r.off = f.addr ∧ r.mask = f.aux then 0 else 1)))
      ∧ (reaches s f 8 = true →
        let hit (x : Thread) : Bool := x.watchesPeer f.src (watchWords f.addr f.aux)
        ∃ t, exec (.remoteConflictNotice f) s = .next t ∧ t.mem = s.mem
          ∧ t.th = (if hit s.th then { s.th with notice := true } else s.th)
          ∧ t.pool = s.pool.map fun x => if hit x then { x with notice := true } else x)
      -- other flits
      ∧ (let bad := knownType f.ty = false ∨ ((f.ty = 1 ∨ f.ty = 2 ∨ f.ty = 3) ∧ auxOk f.ty f.aux = false)
         let here := isSelf s f.src = true ∨ portUp s = true
         (bad → here → exec (.reservedFlitDrop f) s = .next dropped) ∧ (¬(bad ∧ here) → exec (.reservedFlitDrop f) s = .next s))

/-- R371, R373 to R376, R383: the states of a port, its lanes and retries, and a peer's absence and return. A receiver stops and releases
the lanes of a port that is up; the 16th retry in a row of one flit takes a port of the JOIN or UP state to DOWN; a port goes from DOWN
to TRAIN and JOIN, and to UP once firmware has reported a clean device or another port is up; a device that comes back announces its own
incarnation or the next, which is free (log 70); with its last port down a device has lost every peer. An absent peer's watchers roll
back; a peer returns with the next incarnation, or, absent till then, with its own (R410), and what is held for another is freed. -/
def Obligations.PortsAndPeers : Prop :=
  ∀ (s : State) (port lane dev inc : Nat) (p : Port), s.fab.ports[port]? = some p →
    let becomes (i : Instr) (q : Port) : Prop :=
      ∃ t, exec i s = .next t ∧ t.fab.ports[port]? = some q ∧ (∀ j, j ≠ port → t.fab.ports[j]? = s.fab.ports[j]?) ∧ t.mem = s.mem
        ∧ t.th.ctx = s.th.ctx ∧ t.out = s.out
    let stays (i : Instr) : Prop := exec i s = .next s
    let lostPeers (i : Instr) : Prop := portUp { s with fab := { s.fab with ports := s.fab.ports.set port ⟨.down, 0, []⟩ } } = false →
      portUp s = true → ∃ t, exec i s = .next t
        ∧ ((∃ a ∈ s.th.accs, a.spec = true ∧ (a.early.isSome = true ∨ a.serial.isSome = true)
              ∧ ∃ d o own, a.loc = some (.peer d o own) ∧ isSelf s d = false) → t.th.notice = true)
    (p.st = .up → lane < 4 → becomes (.laneStop port lane) { p with stopped := setAdd p.stopped lane })
      ∧ ((p.st ≠ .up ∨ 4 ≤ lane) → stays (.laneStop port lane))
      ∧ (p.st = .up → becomes (.laneGo port lane) { p with stopped := setDel p.stopped lane })
      ∧ (p.st ≠ .up → stays (.laneGo port lane))
      ∧ ((p.st = .up ∨ p.st = .join) → p.retries + 1 < 16 → becomes (.flitRetry port) { p with retries := p.retries + 1 })
      ∧ ((p.st = .up ∨ p.st = .join) → 16 ≤ p.retries + 1 → becomes (.flitRetry port) ⟨.down, 0, []⟩ ∧ lostPeers (.flitRetry port))
      ∧ ((p.st = .down ∨ p.st = .train) → stays (.flitRetry port))
      ∧ (p.st = .down → becomes (.portTrain port) ⟨.train, 0, []⟩)
      ∧ (p.st ≠ .down → stays (.portTrain port))
      ∧ (p.st = .train → becomes (.linkTrained port) ⟨.join, 0, []⟩ ∧ ∃ t, exec (.linkTrained port) s = .next t
        ∧ (t.fab.selfInc = s.fab.selfInc ∨ t.fab.selfInc = s.fab.selfInc + 1)
        ∧ (¬(s.fab.joined = true ∧ portUp s = false) → t.fab.selfInc = s.fab.selfInc))
      ∧ (p.st ≠ .train → stays (.linkTrained port))
      ∧ (p.st = .join → (portUp s = true ∨ cleanDevice s = true) → becomes (.joinCleanReport port) ⟨.up, 0, []⟩
        ∧ ∃ t, exec (.joinCleanReport port) s = .next t ∧ t.fab.joined = true)
      ∧ ((p.st ≠ .join ∨ (cleanDevice s = false ∧ portUp s = false)) → stays (.joinCleanReport port))
      ∧ (p.st ≠ .down → becomes (.linkDown port) ⟨.down, 0, []⟩ ∧ lostPeers (.linkDown port))
      ∧ (p.st = .down → stays (.linkDown port))
      -- peers
      ∧ ((isSelf s dev = true ∨ dev ∈ s.fab.absent) → stays (.peerAbsent dev))
      ∧ (isSelf s dev = false → dev ∉ s.fab.absent →
        ∃ t, exec (.peerAbsent dev) s = .next t ∧ t.fab.absent = setAdd s.fab.absent dev ∧ t.fab.ports = s.fab.ports
          ∧ (s.pool = [] → s.th.watchesPeer dev (fun _ _ => true) = true → (∀ a ∈ s.th.accs, isGroup a = false) → t.th.notice = true
            ∧ t.mem = s.mem))
      ∧ (let next := isSelf s dev = false ∧ inc < 65536 ∧ ∀ i, keyGet s.fab.incs dev = some i →
           inc = (i + 1) % 65536 ∨ (inc = i ∧ dev ∈ s.fab.absent)
         (¬next → stays (.peerRejoin dev inc))
           ∧ (next → ∃ t, exec (.peerRejoin dev inc) s = .next t ∧ keyGet t.fab.incs dev = some inc ∧ t.fab.absent = setDel s.fab.absent dev
             ∧ (∀ w, w ∈ t.fab.rwatch ↔ w ∈ s.fab.rwatch ∧ (w.dev = dev → w.inc = inc))
             ∧ (∀ x, x ∈ t.fab.shadow ↔ x ∈ s.fab.shadow ∧ (x.1 = dev → x.2.1 = inc))
             ∧ (∀ die r, r ∈ (getEng t die).resv ↔ r ∈ (getEng s die).resv ∧ (r.dev = dev → r.inc = inc))
             ∧ t.mem = s.mem ∧ t.th = s.th))
end

