-- ==== Sys2Proof/Laws/Memory.lean ====
section
/-! SUPPORT. The laws of a memory: a read after a write, and that every write keeps the canonical form; reads and writes of keyed
lists. -/

namespace Sys2Proof.Machine

/-! ## One byte -/

theorem Mem.wfFrom_mono {lo lo' : Nat} {m : Mem} (h : lo' ≤ lo) (w : Mem.wfFrom lo m = true) : Mem.wfFrom lo' m = true := by
  cases m with
  | nil => rfl
  | cons c r =>
    simp only [Mem.wfFrom, Bool.and_eq_true, decide_eq_true_eq] at w ⊢
    exact ⟨⟨Nat.le_trans h w.1.1, w.1.2⟩, w.2⟩

/-- Below its first address a memory reads as unwritten. -/
theorem Mem.get_below {lo a : Nat} {m : Mem} (w : Mem.wfFrom lo m = true) (h : a < lo) : Mem.get m a = 0 := by
  induction m generalizing lo with
  | nil => rfl
  | cons c r ih =>
    simp only [Mem.wfFrom, Bool.and_eq_true, decide_eq_true_eq] at w
    have : c.1 ≠ a := by omega
    simp only [Mem.get, this, if_false]
    exact ih w.2 (by omega)

theorem Mem.get_set {lo : Nat} {m : Mem} (w : Mem.wfFrom lo m = true) (a : Nat) (b : Byte) (x : Nat) :
    Mem.get (Mem.set m a b) x = if x = a then b else Mem.get m x := by
  induction m generalizing lo with
  | nil =>
    simp only [Mem.set]
    split
    · rename_i hb
      simp only [Mem.get, hb, ite_self]
    · by_cases hx : x = a
      · simp only [Mem.get, hx, if_true]
      · simp only [Mem.get, hx, if_false, Ne.symm hx]
  | cons c r ih =>
    simp only [Mem.wfFrom, Bool.and_eq_true, decide_eq_true_eq] at w
    simp only [Mem.set]
    split
    · rename_i ha
      have below : Mem.get (c :: r) a = 0 := by
        simp only [Mem.get, show c.1 ≠ a by omega, if_false]
        exact Mem.get_below w.2 (by omega)
      split
      · rename_i hb
        split
        · rename_i hx
          rw [hx, below, hb]
        · rfl
      · simp only [Mem.get, eq_comm (a := a)]
    · split
      · rename_i ha
        split
        · rename_i hb
          split
          · rename_i hx
            rw [hx, ha, hb]
            exact Mem.get_below w.2 (by omega)
          · rename_i hx
            simp only [Mem.get, show c.1 ≠ x by omega, if_false]
        · simp only [Mem.get, eq_comm (a := a)]
          split
          · rfl
          · simp only [show c.1 ≠ x by omega, if_false]
      · simp only [Mem.get]
        split
        · rw [if_neg (by omega)]
        · exact ih w.2

theorem Mem.set_wfFrom {lo : Nat} {m : Mem} (w : Mem.wfFrom lo m = true) {a : Nat} (h : lo ≤ a) (b : Byte) :
    Mem.wfFrom lo (Mem.set m a b) = true := by
  induction m generalizing lo with
  | nil =>
    simp only [Mem.set]
    split
    · rfl
    · rename_i hb
      simpa [Mem.wfFrom, h] using hb
  | cons c r ih =>
    have w0 := w
    simp only [Mem.wfFrom, Bool.and_eq_true, decide_eq_true_eq] at w
    simp only [Mem.set]
    split
    · split
      · exact w0
      · rename_i ha hb
        simp only [Mem.wfFrom, Bool.and_eq_true, decide_eq_true_eq]
        exact ⟨⟨h, by simpa using hb⟩, ⟨by omega, w.1.2⟩, w.2⟩
    · split
      · split
        · exact Mem.wfFrom_mono (by omega) w.2
        · rename_i ha hb
          simp only [Mem.wfFrom, Bool.and_eq_true, decide_eq_true_eq]
          exact ⟨⟨h, by simpa using hb⟩, by rw [ha]; exact w.2⟩
      · simp only [Mem.wfFrom, Bool.and_eq_true, decide_eq_true_eq]
        exact ⟨w.1, ih w.2 (by omega)⟩

/-- A write of one byte keeps the canonical form. -/
theorem Mem.set_wf {m : Mem} (w : Mem.wf m = true) (a : Nat) (b : Byte) : Mem.wf (Mem.set m a b) = true :=
  Mem.set_wfFrom w (Nat.zero_le a) b

/-! ## Runs of bytes -/

/-- Every write keeps the canonical form. -/
theorem Mem.store_wf {m : Mem} (w : Mem.wf m = true) (a : Nat) (bs : List Byte) : Mem.wf (Mem.store m a bs) = true := by
  induction bs generalizing m a with
  | nil => exact w
  | cons b bs ih => exact ih (Mem.set_wf w a b) (a + 1)

/-- The memory of reset has the canonical form. -/
theorem Mem.empty_wf : Mem.wf [] = true := rfl

/-- What a write of a run of bytes leaves at an address. -/
theorem Mem.get_store {m : Mem} (w : Mem.wf m = true) (a : Nat) (bs : List Byte) (x : Nat) :
    Mem.get (Mem.store m a bs) x = if a ≤ x ∧ x < a + bs.length then bs.getD (x - a) 0 else Mem.get m x := by
  induction bs generalizing m a with
  | nil =>
    have : ¬ (a ≤ x ∧ x < a + ([] : List Byte).length) := by simp
    simp only [Mem.store, this, if_false]
  | cons b bs ih =>
    rw [Mem.store, ih (Mem.set_wf w a b) (a + 1), Mem.get_set w]
    by_cases h1 : x = a
    · subst h1
      rw [if_neg (by omega), if_pos rfl, if_pos (by simp), Nat.sub_self]
      rfl
    · by_cases h2 : a + 1 ≤ x ∧ x < a + 1 + bs.length
      · have h3 : a ≤ x ∧ x < a + (b :: bs).length := by simp only [List.length_cons]; omega
        obtain ⟨k, rfl⟩ : ∃ k, x = a + 1 + k := ⟨x - (a + 1), by omega⟩
        simp only [h2, h3, and_self, if_true]
        rw [show a + 1 + k - (a + 1) = k by omega, show a + 1 + k - a = k + 1 by omega]
        rfl
      · have h3 : ¬ (a ≤ x ∧ x < a + (b :: bs).length) := by simp only [List.length_cons]; omega
        simp only [h2, h3, if_false, h1]

/-- Outside the bytes written a memory reads as before. -/
theorem Mem.get_store_other {m : Mem} (w : Mem.wf m = true) (a : Nat) (bs : List Byte) (x : Nat)
    (h : x < a ∨ a + bs.length ≤ x) : Mem.get (Mem.store m a bs) x = Mem.get m x := by
  rw [Mem.get_store w, if_neg (by omega)]

/-- The bytes written are read back. -/
theorem Mem.get_store_same {m : Mem} (w : Mem.wf m = true) (a : Nat) (bs : List Byte) (k : Nat) (h : k < bs.length) :
    Mem.get (Mem.store m a bs) (a + k) = bs.getD k 0 := by
  rw [Mem.get_store w, if_pos (by omega), Nat.add_sub_cancel_left]

theorem Mem.load_length (m : Mem) (a n : Nat) : (Mem.load m a n).length = n := by
  induction n generalizing a with
  | zero => rfl
  | succ n ih => simp [Mem.load, ih]

theorem Mem.load_getD (m : Mem) (a n k : Nat) (h : k < n) : (Mem.load m a n).getD k 0 = Mem.get m (a + k) := by
  induction n generalizing a k with
  | zero => omega
  | succ n ih =>
    cases k with
    | zero => simp [Mem.load]
    | succ k => simpa [Mem.load, Nat.add_assoc, Nat.add_comm 1 k] using ih (a + 1) k (by omega)

/-! ## Keyed lists -/

theorem keyGet_keyPut {α : Type} (l : List (Nat × α)) (k : Nat) (v : α) : keyGet (keyPut l k v) k = some v := by
  induction l with
  | nil => simp [keyPut, keyGet]
  | cons c r ih =>
    simp only [keyPut]
    split
    · simp [keyGet]
    · split
      · simp [keyGet]
      · rename_i h1 h2
        have : c.1 ≠ k := fun h => h2 h.symm
        simp [keyGet, this, ih]

theorem keyGet_keyPut_other {α : Type} (l : List (Nat × α)) (k j : Nat) (v : α) (h : j ≠ k) :
    keyGet (keyPut l k v) j = keyGet l j := by
  induction l with
  | nil => simp [keyPut, keyGet, Ne.symm h]
  | cons c r ih =>
    simp only [keyPut]
    split
    · simp [keyGet, Ne.symm h]
    · split
      · rename_i h2
        have : c.1 ≠ j := fun e => h (e ▸ h2.symm)
        simp [keyGet, Ne.symm h, this]
      · simp [keyGet, ih]

@[simp] theorem getCore_setCore (s : State) (n : Nat) (c : Core) : getCore (setCore s n c) n = c := by
  simp [getCore, setCore, keyGet_keyPut]

theorem getCore_setCore_other (s : State) (n k : Nat) (c : Core) (h : k ≠ n) : getCore (setCore s n c) k = getCore s k := by
  simp [getCore, setCore, keyGet_keyPut_other _ _ _ _ h]

end Sys2Proof.Machine
end

