-- ==== Sys2Proof/Laws/State.lean ====
section
/-! SUPPORT. What each named update of State does to each of its fields, one lemma a field. -/

namespace Sys2Proof.Machine

/-! ## modTh -/

@[simp] theorem modTh_th (s : State) (f : Thread → Thread) : (modTh s f).th = f s.th := rfl
@[simp] theorem modTh_pool (s : State) (f : Thread → Thread) : (modTh s f).pool = s.pool := rfl
@[simp] theorem modTh_bundle (s : State) (f : Thread → Thread) : (modTh s f).bundle = s.bundle := rfl
@[simp] theorem modTh_agenda (s : State) (f : Thread → Thread) : (modTh s f).agenda = s.agenda := rfl
@[simp] theorem modTh_clusters (s : State) (f : Thread → Thread) : (modTh s f).clusters = s.clusters := rfl
@[simp] theorem modTh_launches (s : State) (f : Thread → Thread) : (modTh s f).launches = s.launches := rfl
@[simp] theorem modTh_cores (s : State) (f : Thread → Thread) : (modTh s f).cores = s.cores := rfl
@[simp] theorem modTh_mem (s : State) (f : Thread → Thread) : (modTh s f).mem = s.mem := rfl
@[simp] theorem modTh_xl (s : State) (f : Thread → Thread) : (modTh s f).xl = s.xl := rfl
@[simp] theorem modTh_fab (s : State) (f : Thread → Thread) : (modTh s f).fab = s.fab := rfl
@[simp] theorem modTh_coll0 (s : State) (f : Thread → Thread) : (modTh s f).coll0 = s.coll0 := rfl
@[simp] theorem modTh_coll1 (s : State) (f : Thread → Thread) : (modTh s f).coll1 = s.coll1 := rfl
@[simp] theorem modTh_ctl (s : State) (f : Thread → Thread) : (modTh s f).ctl = s.ctl := rfl
@[simp] theorem modTh_fresh (s : State) (f : Thread → Thread) : (modTh s f).fresh = s.fresh := rfl
@[simp] theorem modTh_out (s : State) (f : Thread → Thread) : (modTh s f).out = s.out := rfl
@[simp] theorem modTh_queue (s : State) (f : Thread → Thread) : (modTh s f).queue = s.queue := rfl
@[simp] theorem modTh_grace (s : State) (f : Thread → Thread) : (modTh s f).grace = s.grace := rfl

/-! ## modCtx -/

@[simp] theorem modCtx_th (s : State) (f : Ctx → Ctx) : (modCtx s f).th = { s.th with ctx := f s.th.ctx } := rfl
@[simp] theorem modCtx_pool (s : State) (f : Ctx → Ctx) : (modCtx s f).pool = s.pool := rfl
@[simp] theorem modCtx_bundle (s : State) (f : Ctx → Ctx) : (modCtx s f).bundle = s.bundle := rfl
@[simp] theorem modCtx_agenda (s : State) (f : Ctx → Ctx) : (modCtx s f).agenda = s.agenda := rfl
@[simp] theorem modCtx_clusters (s : State) (f : Ctx → Ctx) : (modCtx s f).clusters = s.clusters := rfl
@[simp] theorem modCtx_launches (s : State) (f : Ctx → Ctx) : (modCtx s f).launches = s.launches := rfl
@[simp] theorem modCtx_cores (s : State) (f : Ctx → Ctx) : (modCtx s f).cores = s.cores := rfl
@[simp] theorem modCtx_mem (s : State) (f : Ctx → Ctx) : (modCtx s f).mem = s.mem := rfl
@[simp] theorem modCtx_xl (s : State) (f : Ctx → Ctx) : (modCtx s f).xl = s.xl := rfl
@[simp] theorem modCtx_fab (s : State) (f : Ctx → Ctx) : (modCtx s f).fab = s.fab := rfl
@[simp] theorem modCtx_coll0 (s : State) (f : Ctx → Ctx) : (modCtx s f).coll0 = s.coll0 := rfl
@[simp] theorem modCtx_coll1 (s : State) (f : Ctx → Ctx) : (modCtx s f).coll1 = s.coll1 := rfl
@[simp] theorem modCtx_ctl (s : State) (f : Ctx → Ctx) : (modCtx s f).ctl = s.ctl := rfl
@[simp] theorem modCtx_fresh (s : State) (f : Ctx → Ctx) : (modCtx s f).fresh = s.fresh := rfl
@[simp] theorem modCtx_out (s : State) (f : Ctx → Ctx) : (modCtx s f).out = s.out := rfl
@[simp] theorem modCtx_queue (s : State) (f : Ctx → Ctx) : (modCtx s f).queue = s.queue := rfl
@[simp] theorem modCtx_grace (s : State) (f : Ctx → Ctx) : (modCtx s f).grace = s.grace := rfl

/-! ## mapThreads -/

@[simp] theorem mapThreads_th (s : State) (f : Thread → Thread) : (mapThreads s f).th = f s.th := rfl
@[simp] theorem mapThreads_pool (s : State) (f : Thread → Thread) : (mapThreads s f).pool = s.pool.map f := rfl
@[simp] theorem mapThreads_bundle (s : State) (f : Thread → Thread) : (mapThreads s f).bundle = s.bundle := rfl
@[simp] theorem mapThreads_agenda (s : State) (f : Thread → Thread) : (mapThreads s f).agenda = s.agenda := rfl
@[simp] theorem mapThreads_clusters (s : State) (f : Thread → Thread) : (mapThreads s f).clusters = s.clusters := rfl
@[simp] theorem mapThreads_launches (s : State) (f : Thread → Thread) : (mapThreads s f).launches = s.launches := rfl
@[simp] theorem mapThreads_cores (s : State) (f : Thread → Thread) : (mapThreads s f).cores = s.cores := rfl
@[simp] theorem mapThreads_mem (s : State) (f : Thread → Thread) : (mapThreads s f).mem = s.mem := rfl
@[simp] theorem mapThreads_xl (s : State) (f : Thread → Thread) : (mapThreads s f).xl = s.xl := rfl
@[simp] theorem mapThreads_fab (s : State) (f : Thread → Thread) : (mapThreads s f).fab = s.fab := rfl
@[simp] theorem mapThreads_coll0 (s : State) (f : Thread → Thread) : (mapThreads s f).coll0 = s.coll0 := rfl
@[simp] theorem mapThreads_coll1 (s : State) (f : Thread → Thread) : (mapThreads s f).coll1 = s.coll1 := rfl
@[simp] theorem mapThreads_ctl (s : State) (f : Thread → Thread) : (mapThreads s f).ctl = s.ctl := rfl
@[simp] theorem mapThreads_fresh (s : State) (f : Thread → Thread) : (mapThreads s f).fresh = s.fresh := rfl
@[simp] theorem mapThreads_out (s : State) (f : Thread → Thread) : (mapThreads s f).out = s.out := rfl
@[simp] theorem mapThreads_queue (s : State) (f : Thread → Thread) : (mapThreads s f).queue = s.queue := rfl
@[simp] theorem mapThreads_grace (s : State) (f : Thread → Thread) : (mapThreads s f).grace = s.grace := rfl

/-! ## setCluster -/

@[simp] theorem setCluster_th (s : State) (k : Cluster) : (setCluster s k).th = s.th := rfl
@[simp] theorem setCluster_pool (s : State) (k : Cluster) : (setCluster s k).pool = s.pool := rfl
@[simp] theorem setCluster_bundle (s : State) (k : Cluster) : (setCluster s k).bundle = s.bundle := rfl
@[simp] theorem setCluster_agenda (s : State) (k : Cluster) : (setCluster s k).agenda = s.agenda := rfl
@[simp] theorem setCluster_clusters (s : State) (k : Cluster) : (setCluster s k).clusters = s.clusters.map fun c => if c.id == k.id then k else c := rfl
@[simp] theorem setCluster_launches (s : State) (k : Cluster) : (setCluster s k).launches = s.launches := rfl
@[simp] theorem setCluster_cores (s : State) (k : Cluster) : (setCluster s k).cores = s.cores := rfl
@[simp] theorem setCluster_mem (s : State) (k : Cluster) : (setCluster s k).mem = s.mem := rfl
@[simp] theorem setCluster_xl (s : State) (k : Cluster) : (setCluster s k).xl = s.xl := rfl
@[simp] theorem setCluster_fab (s : State) (k : Cluster) : (setCluster s k).fab = s.fab := rfl
@[simp] theorem setCluster_coll0 (s : State) (k : Cluster) : (setCluster s k).coll0 = s.coll0 := rfl
@[simp] theorem setCluster_coll1 (s : State) (k : Cluster) : (setCluster s k).coll1 = s.coll1 := rfl
@[simp] theorem setCluster_ctl (s : State) (k : Cluster) : (setCluster s k).ctl = s.ctl := rfl
@[simp] theorem setCluster_fresh (s : State) (k : Cluster) : (setCluster s k).fresh = s.fresh := rfl
@[simp] theorem setCluster_out (s : State) (k : Cluster) : (setCluster s k).out = s.out := rfl
@[simp] theorem setCluster_queue (s : State) (k : Cluster) : (setCluster s k).queue = s.queue := rfl
@[simp] theorem setCluster_grace (s : State) (k : Cluster) : (setCluster s k).grace = s.grace := rfl

/-! ## setLaunch -/

@[simp] theorem setLaunch_th (s : State) (l : Launch) : (setLaunch s l).th = s.th := rfl
@[simp] theorem setLaunch_pool (s : State) (l : Launch) : (setLaunch s l).pool = s.pool := rfl
@[simp] theorem setLaunch_bundle (s : State) (l : Launch) : (setLaunch s l).bundle = s.bundle := rfl
@[simp] theorem setLaunch_agenda (s : State) (l : Launch) : (setLaunch s l).agenda = s.agenda := rfl
@[simp] theorem setLaunch_clusters (s : State) (l : Launch) : (setLaunch s l).clusters = s.clusters := rfl
@[simp] theorem setLaunch_launches (s : State) (l : Launch) : (setLaunch s l).launches = s.launches.map fun k => if k.lid == l.lid then l else k := rfl
@[simp] theorem setLaunch_cores (s : State) (l : Launch) : (setLaunch s l).cores = s.cores := rfl
@[simp] theorem setLaunch_mem (s : State) (l : Launch) : (setLaunch s l).mem = s.mem := rfl
@[simp] theorem setLaunch_xl (s : State) (l : Launch) : (setLaunch s l).xl = s.xl := rfl
@[simp] theorem setLaunch_fab (s : State) (l : Launch) : (setLaunch s l).fab = s.fab := rfl
@[simp] theorem setLaunch_coll0 (s : State) (l : Launch) : (setLaunch s l).coll0 = s.coll0 := rfl
@[simp] theorem setLaunch_coll1 (s : State) (l : Launch) : (setLaunch s l).coll1 = s.coll1 := rfl
@[simp] theorem setLaunch_ctl (s : State) (l : Launch) : (setLaunch s l).ctl = s.ctl := rfl
@[simp] theorem setLaunch_fresh (s : State) (l : Launch) : (setLaunch s l).fresh = s.fresh := rfl
@[simp] theorem setLaunch_out (s : State) (l : Launch) : (setLaunch s l).out = s.out := rfl
@[simp] theorem setLaunch_queue (s : State) (l : Launch) : (setLaunch s l).queue = s.queue := rfl
@[simp] theorem setLaunch_grace (s : State) (l : Launch) : (setLaunch s l).grace = s.grace := rfl

/-! ## setCore -/

@[simp] theorem setCore_th (s : State) (n : Nat) (c : Core) : (setCore s n c).th = s.th := rfl
@[simp] theorem setCore_pool (s : State) (n : Nat) (c : Core) : (setCore s n c).pool = s.pool := rfl
@[simp] theorem setCore_bundle (s : State) (n : Nat) (c : Core) : (setCore s n c).bundle = s.bundle := rfl
@[simp] theorem setCore_agenda (s : State) (n : Nat) (c : Core) : (setCore s n c).agenda = s.agenda := rfl
@[simp] theorem setCore_clusters (s : State) (n : Nat) (c : Core) : (setCore s n c).clusters = s.clusters := rfl
@[simp] theorem setCore_launches (s : State) (n : Nat) (c : Core) : (setCore s n c).launches = s.launches := rfl
@[simp] theorem setCore_cores (s : State) (n : Nat) (c : Core) : (setCore s n c).cores = keyPut s.cores n c := rfl
@[simp] theorem setCore_mem (s : State) (n : Nat) (c : Core) : (setCore s n c).mem = s.mem := rfl
@[simp] theorem setCore_xl (s : State) (n : Nat) (c : Core) : (setCore s n c).xl = s.xl := rfl
@[simp] theorem setCore_fab (s : State) (n : Nat) (c : Core) : (setCore s n c).fab = s.fab := rfl
@[simp] theorem setCore_coll0 (s : State) (n : Nat) (c : Core) : (setCore s n c).coll0 = s.coll0 := rfl
@[simp] theorem setCore_coll1 (s : State) (n : Nat) (c : Core) : (setCore s n c).coll1 = s.coll1 := rfl
@[simp] theorem setCore_ctl (s : State) (n : Nat) (c : Core) : (setCore s n c).ctl = s.ctl := rfl
@[simp] theorem setCore_fresh (s : State) (n : Nat) (c : Core) : (setCore s n c).fresh = s.fresh := rfl
@[simp] theorem setCore_out (s : State) (n : Nat) (c : Core) : (setCore s n c).out = s.out := rfl
@[simp] theorem setCore_queue (s : State) (n : Nat) (c : Core) : (setCore s n c).queue = s.queue := rfl
@[simp] theorem setCore_grace (s : State) (n : Nat) (c : Core) : (setCore s n c).grace = s.grace := rfl

/-! ## Registers and predicates of a context -/

@[simp] theorem Ctx.setReg_res (c : Ctx) (r : Reg) (v : Word) : (c.setReg r v).res = c.res := by
  unfold Ctx.setReg; split; · rfl
  split <;> rfl
@[simp] theorem Ctx.setReg_preds (c : Ctx) (r : Reg) (v : Word) : (c.setReg r v).preds = c.preds := by
  unfold Ctx.setReg; split; · rfl
  split <;> rfl
@[simp] theorem Ctx.setReg_lv0 (c : Ctx) (r : Reg) (v : Word) : (c.setReg r v).lv0 = c.lv0 := by
  unfold Ctx.setReg; split; · rfl
  split <;> rfl
@[simp] theorem Ctx.setReg_lv1 (c : Ctx) (r : Reg) (v : Word) : (c.setReg r v).lv1 = c.lv1 := by
  unfold Ctx.setReg; split; · rfl
  split <;> rfl
@[simp] theorem Ctx.setReg_lv2 (c : Ctx) (r : Reg) (v : Word) : (c.setReg r v).lv2 = c.lv2 := by
  unfold Ctx.setReg; split; · rfl
  split <;> rfl
@[simp] theorem Ctx.setReg_ld (c : Ctx) (r : Reg) (v : Word) : (c.setReg r v).ld = c.ld := by
  unfold Ctx.setReg; split; · rfl
  split <;> rfl
@[simp] theorem Ctx.setReg_ri (c : Ctx) (r : Reg) (v : Word) : (c.setReg r v).ri = c.ri := by
  unfold Ctx.setReg; split; · rfl
  split <;> rfl
@[simp] theorem Ctx.setReg_rep (c : Ctx) (r : Reg) (v : Word) : (c.setReg r v).rep = c.rep := by
  unfold Ctx.setReg; split; · rfl
  split <;> rfl
@[simp] theorem Ctx.setReg_depth (c : Ctx) (r : Reg) (v : Word) : (c.setReg r v).depth = c.depth := by
  unfold Ctx.setReg; split; · rfl
  split <;> rfl
@[simp] theorem Ctx.setReg_spill (c : Ctx) (r : Reg) (v : Word) : (c.setReg r v).spill = c.spill := by
  unfold Ctx.setReg; split; · rfl
  split <;> rfl
@[simp] theorem Ctx.setReg_pc (c : Ctx) (r : Reg) (v : Word) : (c.setReg r v).pc = c.pc := by
  unfold Ctx.setReg; split; · rfl
  split <;> rfl
@[simp] theorem Ctx.setReg_clh (c : Ctx) (r : Reg) (v : Word) : (c.setReg r v).clh = c.clh := by
  unfold Ctx.setReg; split; · rfl
  split <;> rfl
@[simp] theorem Ctx.setReg_cend (c : Ctx) (r : Reg) (v : Word) : (c.setReg r v).cend = c.cend := by
  unfold Ctx.setReg; split; · rfl
  split <;> rfl
@[simp] theorem Ctx.setReg_yieldHdr (c : Ctx) (r : Reg) (v : Word) : (c.setReg r v).yieldHdr = c.yieldHdr := by
  unfold Ctx.setReg; split; · rfl
  split <;> rfl
@[simp] theorem Ctx.setReg_wmask (c : Ctx) (r : Reg) (v : Word) : (c.setReg r v).wmask = c.wmask := by
  unfold Ctx.setReg; split; · rfl
  split <;> rfl
@[simp] theorem Ctx.setReg_wfrom (c : Ctx) (r : Reg) (v : Word) : (c.setReg r v).wfrom = c.wfrom := by
  unfold Ctx.setReg; split; · rfl
  split <;> rfl
@[simp] theorem Ctx.setReg_drain (c : Ctx) (r : Reg) (v : Word) : (c.setReg r v).drain = c.drain := by
  unfold Ctx.setReg; split; · rfl
  split <;> rfl
@[simp] theorem Ctx.setReg_fpst (c : Ctx) (r : Reg) (v : Word) : (c.setReg r v).fpst = c.fpst := by
  unfold Ctx.setReg; split; · rfl
  split <;> rfl
@[simp] theorem Ctx.setReg_dphase (c : Ctx) (r : Reg) (v : Word) : (c.setReg r v).dphase = c.dphase := by
  unfold Ctx.setReg; split; · rfl
  split <;> rfl
@[simp] theorem Ctx.setReg_latch (c : Ctx) (r : Reg) (v : Word) : (c.setReg r v).latch = c.latch := by
  unfold Ctx.setReg; split; · rfl
  split <;> rfl
@[simp] theorem Ctx.setReg_icount (c : Ctx) (r : Reg) (v : Word) : (c.setReg r v).icount = c.icount := by
  unfold Ctx.setReg; split; · rfl
  split <;> rfl
@[simp] theorem Ctx.setReg_wend (c : Ctx) (r : Reg) (v : Word) : (c.setReg r v).wend = c.wend := by
  unfold Ctx.setReg; split; · rfl
  split <;> rfl
@[simp] theorem Ctx.setPair_res (c : Ctx) (r : Reg) (v : DWord) : (c.setPair r v).res = c.res := by
  unfold Ctx.setPair; split <;> simp
@[simp] theorem Ctx.setPair_preds (c : Ctx) (r : Reg) (v : DWord) : (c.setPair r v).preds = c.preds := by
  unfold Ctx.setPair; split <;> simp
@[simp] theorem Ctx.setPair_lv0 (c : Ctx) (r : Reg) (v : DWord) : (c.setPair r v).lv0 = c.lv0 := by
  unfold Ctx.setPair; split <;> simp
@[simp] theorem Ctx.setPair_lv1 (c : Ctx) (r : Reg) (v : DWord) : (c.setPair r v).lv1 = c.lv1 := by
  unfold Ctx.setPair; split <;> simp
@[simp] theorem Ctx.setPair_lv2 (c : Ctx) (r : Reg) (v : DWord) : (c.setPair r v).lv2 = c.lv2 := by
  unfold Ctx.setPair; split <;> simp
@[simp] theorem Ctx.setPair_ld (c : Ctx) (r : Reg) (v : DWord) : (c.setPair r v).ld = c.ld := by
  unfold Ctx.setPair; split <;> simp
@[simp] theorem Ctx.setPair_ri (c : Ctx) (r : Reg) (v : DWord) : (c.setPair r v).ri = c.ri := by
  unfold Ctx.setPair; split <;> simp
@[simp] theorem Ctx.setPair_rep (c : Ctx) (r : Reg) (v : DWord) : (c.setPair r v).rep = c.rep := by
  unfold Ctx.setPair; split <;> simp
@[simp] theorem Ctx.setPair_depth (c : Ctx) (r : Reg) (v : DWord) : (c.setPair r v).depth = c.depth := by
  unfold Ctx.setPair; split <;> simp
@[simp] theorem Ctx.setPair_spill (c : Ctx) (r : Reg) (v : DWord) : (c.setPair r v).spill = c.spill := by
  unfold Ctx.setPair; split <;> simp
@[simp] theorem Ctx.setPair_pc (c : Ctx) (r : Reg) (v : DWord) : (c.setPair r v).pc = c.pc := by
  unfold Ctx.setPair; split <;> simp
@[simp] theorem Ctx.setPair_clh (c : Ctx) (r : Reg) (v : DWord) : (c.setPair r v).clh = c.clh := by
  unfold Ctx.setPair; split <;> simp
@[simp] theorem Ctx.setPair_cend (c : Ctx) (r : Reg) (v : DWord) : (c.setPair r v).cend = c.cend := by
  unfold Ctx.setPair; split <;> simp
@[simp] theorem Ctx.setPair_yieldHdr (c : Ctx) (r : Reg) (v : DWord) : (c.setPair r v).yieldHdr = c.yieldHdr := by
  unfold Ctx.setPair; split <;> simp
@[simp] theorem Ctx.setPair_wmask (c : Ctx) (r : Reg) (v : DWord) : (c.setPair r v).wmask = c.wmask := by
  unfold Ctx.setPair; split <;> simp
@[simp] theorem Ctx.setPair_wfrom (c : Ctx) (r : Reg) (v : DWord) : (c.setPair r v).wfrom = c.wfrom := by
  unfold Ctx.setPair; split <;> simp
@[simp] theorem Ctx.setPair_drain (c : Ctx) (r : Reg) (v : DWord) : (c.setPair r v).drain = c.drain := by
  unfold Ctx.setPair; split <;> simp
@[simp] theorem Ctx.setPair_fpst (c : Ctx) (r : Reg) (v : DWord) : (c.setPair r v).fpst = c.fpst := by
  unfold Ctx.setPair; split <;> simp
@[simp] theorem Ctx.setPair_dphase (c : Ctx) (r : Reg) (v : DWord) : (c.setPair r v).dphase = c.dphase := by
  unfold Ctx.setPair; split <;> simp
@[simp] theorem Ctx.setPair_latch (c : Ctx) (r : Reg) (v : DWord) : (c.setPair r v).latch = c.latch := by
  unfold Ctx.setPair; split <;> simp
@[simp] theorem Ctx.setPair_icount (c : Ctx) (r : Reg) (v : DWord) : (c.setPair r v).icount = c.icount := by
  unfold Ctx.setPair; split <;> simp
@[simp] theorem Ctx.setPair_wend (c : Ctx) (r : Reg) (v : DWord) : (c.setPair r v).wend = c.wend := by
  unfold Ctx.setPair; split <;> simp
@[simp] theorem Ctx.setPred_g (c : Ctx) (p : Pred) (v : Bool) : (c.setPred p v).g = c.g := by
  unfold Ctx.setPred; split <;> rfl
@[simp] theorem Ctx.setPred_win (c : Ctx) (p : Pred) (v : Bool) : (c.setPred p v).win = c.win := by
  unfold Ctx.setPred; split <;> rfl
@[simp] theorem Ctx.setPred_res (c : Ctx) (p : Pred) (v : Bool) : (c.setPred p v).res = c.res := by
  unfold Ctx.setPred; split <;> rfl
@[simp] theorem Ctx.setPred_lv0 (c : Ctx) (p : Pred) (v : Bool) : (c.setPred p v).lv0 = c.lv0 := by
  unfold Ctx.setPred; split <;> rfl
@[simp] theorem Ctx.setPred_lv1 (c : Ctx) (p : Pred) (v : Bool) : (c.setPred p v).lv1 = c.lv1 := by
  unfold Ctx.setPred; split <;> rfl
@[simp] theorem Ctx.setPred_lv2 (c : Ctx) (p : Pred) (v : Bool) : (c.setPred p v).lv2 = c.lv2 := by
  unfold Ctx.setPred; split <;> rfl
@[simp] theorem Ctx.setPred_ld (c : Ctx) (p : Pred) (v : Bool) : (c.setPred p v).ld = c.ld := by
  unfold Ctx.setPred; split <;> rfl
@[simp] theorem Ctx.setPred_ri (c : Ctx) (p : Pred) (v : Bool) : (c.setPred p v).ri = c.ri := by
  unfold Ctx.setPred; split <;> rfl
@[simp] theorem Ctx.setPred_rep (c : Ctx) (p : Pred) (v : Bool) : (c.setPred p v).rep = c.rep := by
  unfold Ctx.setPred; split <;> rfl
@[simp] theorem Ctx.setPred_depth (c : Ctx) (p : Pred) (v : Bool) : (c.setPred p v).depth = c.depth := by
  unfold Ctx.setPred; split <;> rfl
@[simp] theorem Ctx.setPred_spill (c : Ctx) (p : Pred) (v : Bool) : (c.setPred p v).spill = c.spill := by
  unfold Ctx.setPred; split <;> rfl
@[simp] theorem Ctx.setPred_pc (c : Ctx) (p : Pred) (v : Bool) : (c.setPred p v).pc = c.pc := by
  unfold Ctx.setPred; split <;> rfl
@[simp] theorem Ctx.setPred_clh (c : Ctx) (p : Pred) (v : Bool) : (c.setPred p v).clh = c.clh := by
  unfold Ctx.setPred; split <;> rfl
@[simp] theorem Ctx.setPred_cend (c : Ctx) (p : Pred) (v : Bool) : (c.setPred p v).cend = c.cend := by
  unfold Ctx.setPred; split <;> rfl
@[simp] theorem Ctx.setPred_yieldHdr (c : Ctx) (p : Pred) (v : Bool) : (c.setPred p v).yieldHdr = c.yieldHdr := by
  unfold Ctx.setPred; split <;> rfl
@[simp] theorem Ctx.setPred_wmask (c : Ctx) (p : Pred) (v : Bool) : (c.setPred p v).wmask = c.wmask := by
  unfold Ctx.setPred; split <;> rfl
@[simp] theorem Ctx.setPred_wfrom (c : Ctx) (p : Pred) (v : Bool) : (c.setPred p v).wfrom = c.wfrom := by
  unfold Ctx.setPred; split <;> rfl
@[simp] theorem Ctx.setPred_drain (c : Ctx) (p : Pred) (v : Bool) : (c.setPred p v).drain = c.drain := by
  unfold Ctx.setPred; split <;> rfl
@[simp] theorem Ctx.setPred_fpst (c : Ctx) (p : Pred) (v : Bool) : (c.setPred p v).fpst = c.fpst := by
  unfold Ctx.setPred; split <;> rfl
@[simp] theorem Ctx.setPred_dphase (c : Ctx) (p : Pred) (v : Bool) : (c.setPred p v).dphase = c.dphase := by
  unfold Ctx.setPred; split <;> rfl
@[simp] theorem Ctx.setPred_latch (c : Ctx) (p : Pred) (v : Bool) : (c.setPred p v).latch = c.latch := by
  unfold Ctx.setPred; split <;> rfl
@[simp] theorem Ctx.setPred_icount (c : Ctx) (p : Pred) (v : Bool) : (c.setPred p v).icount = c.icount := by
  unfold Ctx.setPred; split <;> rfl
@[simp] theorem Ctx.setPred_wend (c : Ctx) (p : Pred) (v : Bool) : (c.setPred p v).wend = c.wend := by
  unfold Ctx.setPred; split <;> rfl
@[simp] theorem Ctx.orFlags_g (c : Ctx) (w : Word) : (c.orFlags w).g = c.g := rfl
@[simp] theorem Ctx.orFlags_win (c : Ctx) (w : Word) : (c.orFlags w).win = c.win := rfl
@[simp] theorem Ctx.orFlags_res (c : Ctx) (w : Word) : (c.orFlags w).res = c.res := rfl
@[simp] theorem Ctx.orFlags_preds (c : Ctx) (w : Word) : (c.orFlags w).preds = c.preds := rfl
@[simp] theorem Ctx.orFlags_lv0 (c : Ctx) (w : Word) : (c.orFlags w).lv0 = c.lv0 := rfl
@[simp] theorem Ctx.orFlags_lv1 (c : Ctx) (w : Word) : (c.orFlags w).lv1 = c.lv1 := rfl
@[simp] theorem Ctx.orFlags_lv2 (c : Ctx) (w : Word) : (c.orFlags w).lv2 = c.lv2 := rfl
@[simp] theorem Ctx.orFlags_ld (c : Ctx) (w : Word) : (c.orFlags w).ld = c.ld := rfl
@[simp] theorem Ctx.orFlags_ri (c : Ctx) (w : Word) : (c.orFlags w).ri = c.ri := rfl
@[simp] theorem Ctx.orFlags_rep (c : Ctx) (w : Word) : (c.orFlags w).rep = c.rep := rfl
@[simp] theorem Ctx.orFlags_depth (c : Ctx) (w : Word) : (c.orFlags w).depth = c.depth := rfl
@[simp] theorem Ctx.orFlags_spill (c : Ctx) (w : Word) : (c.orFlags w).spill = c.spill := rfl
@[simp] theorem Ctx.orFlags_pc (c : Ctx) (w : Word) : (c.orFlags w).pc = c.pc := rfl
@[simp] theorem Ctx.orFlags_clh (c : Ctx) (w : Word) : (c.orFlags w).clh = c.clh := rfl
@[simp] theorem Ctx.orFlags_cend (c : Ctx) (w : Word) : (c.orFlags w).cend = c.cend := rfl
@[simp] theorem Ctx.orFlags_yieldHdr (c : Ctx) (w : Word) : (c.orFlags w).yieldHdr = c.yieldHdr := rfl
@[simp] theorem Ctx.orFlags_wmask (c : Ctx) (w : Word) : (c.orFlags w).wmask = c.wmask := rfl
@[simp] theorem Ctx.orFlags_wfrom (c : Ctx) (w : Word) : (c.orFlags w).wfrom = c.wfrom := rfl
@[simp] theorem Ctx.orFlags_drain (c : Ctx) (w : Word) : (c.orFlags w).drain = c.drain := rfl
@[simp] theorem Ctx.orFlags_dphase (c : Ctx) (w : Word) : (c.orFlags w).dphase = c.dphase := rfl
@[simp] theorem Ctx.orFlags_latch (c : Ctx) (w : Word) : (c.orFlags w).latch = c.latch := rfl
@[simp] theorem Ctx.orFlags_icount (c : Ctx) (w : Word) : (c.orFlags w).icount = c.icount := rfl
@[simp] theorem Ctx.orFlags_wend (c : Ctx) (w : Word) : (c.orFlags w).wend = c.wend := rfl
@[simp] theorem Ctx.land_g (c : Ctx) (a : DWord) : (c.land a).g = c.g := rfl
@[simp] theorem Ctx.land_win (c : Ctx) (a : DWord) : (c.land a).win = c.win := rfl
@[simp] theorem Ctx.land_res (c : Ctx) (a : DWord) : (c.land a).res = c.res := rfl
@[simp] theorem Ctx.land_preds (c : Ctx) (a : DWord) : (c.land a).preds = c.preds := rfl
@[simp] theorem Ctx.land_lv0 (c : Ctx) (a : DWord) : (c.land a).lv0 = c.lv0 := rfl
@[simp] theorem Ctx.land_lv1 (c : Ctx) (a : DWord) : (c.land a).lv1 = c.lv1 := rfl
@[simp] theorem Ctx.land_lv2 (c : Ctx) (a : DWord) : (c.land a).lv2 = c.lv2 := rfl
@[simp] theorem Ctx.land_ld (c : Ctx) (a : DWord) : (c.land a).ld = c.ld := rfl
@[simp] theorem Ctx.land_ri (c : Ctx) (a : DWord) : (c.land a).ri = c.ri := rfl
@[simp] theorem Ctx.land_rep (c : Ctx) (a : DWord) : (c.land a).rep = c.rep := rfl
@[simp] theorem Ctx.land_depth (c : Ctx) (a : DWord) : (c.land a).depth = c.depth := rfl
@[simp] theorem Ctx.land_spill (c : Ctx) (a : DWord) : (c.land a).spill = c.spill := rfl
@[simp] theorem Ctx.land_yieldHdr (c : Ctx) (a : DWord) : (c.land a).yieldHdr = c.yieldHdr := rfl
@[simp] theorem Ctx.land_wmask (c : Ctx) (a : DWord) : (c.land a).wmask = c.wmask := rfl
@[simp] theorem Ctx.land_wfrom (c : Ctx) (a : DWord) : (c.land a).wfrom = c.wfrom := rfl
@[simp] theorem Ctx.land_drain (c : Ctx) (a : DWord) : (c.land a).drain = c.drain := rfl
@[simp] theorem Ctx.land_fpst (c : Ctx) (a : DWord) : (c.land a).fpst = c.fpst := rfl
@[simp] theorem Ctx.land_dphase (c : Ctx) (a : DWord) : (c.land a).dphase = c.dphase := rfl
@[simp] theorem Ctx.land_latch (c : Ctx) (a : DWord) : (c.land a).latch = c.latch := rfl
@[simp] theorem Ctx.land_icount (c : Ctx) (a : DWord) : (c.land a).icount = c.icount := rfl
@[simp] theorem Ctx.land_wend (c : Ctx) (a : DWord) : (c.land a).wend = c.wend := rfl
@[simp] theorem Ctx.land_pc (c : Ctx) (a : DWord) : (c.land a).pc = a := rfl
@[simp] theorem Ctx.land_clh (c : Ctx) (a : DWord) : (c.land a).clh = a := rfl
@[simp] theorem Ctx.land_cend (c : Ctx) (a : DWord) : (c.land a).cend = a := rfl

/-! ## Registers read back -/

/-- R10: the hard-wired register. -/
@[simp] theorem Ctx.reg_zero (c : Ctx) : c.reg 0 = 0 := rfl

/-- R10: a write to it changes nothing. -/
@[simp] theorem Ctx.setReg_zero (c : Ctx) (v : Word) : c.setReg 0 v = c := rfl

/-- A register reads as it was last written. -/
theorem Ctx.reg_setReg_self (c : Ctx) (r : Reg) (v : Word) (h : r.val ≠ 0) : (c.setReg r v).reg r = v := by
  unfold Ctx.setReg Ctx.reg
  simp only [h, if_false]
  split <;> simp

/-- Another register keeps its value. -/
theorem Ctx.reg_setReg_other (c : Ctx) (r q : Reg) (v : Word) (h : q ≠ r) : (c.setReg r v).reg q = c.reg q := by
  have hv : q.val ≠ r.val := fun e => h (Fin.ext e)
  unfold Ctx.setReg Ctx.reg
  by_cases h0 : r.val = 0
  · simp [h0]
  · by_cases q0 : q.val = 0
    · simp [q0]
    · by_cases hr : r.val < 16 <;> by_cases hq : q.val < 16 <;> simp only [h0, q0, hr, hq, if_false, dite_true, dite_false]
      · exact Vector.getElem_set_ne _ _ (fun e => hv e.symm)
      · exact Vector.getElem_set_ne _ _ (by omega)

/-- R10: p15 reads true. -/
@[simp] theorem Ctx.pred_true (c : Ctx) : c.pred 15 = true := rfl

/-- Registers do not depend on predicates or flags. -/
@[simp] theorem Ctx.reg_setPred (c : Ctx) (p : Pred) (v : Bool) (r : Reg) : (c.setPred p v).reg r = c.reg r := by
  simp [Ctx.reg]
@[simp] theorem Ctx.reg_orFlags (c : Ctx) (w : Word) (r : Reg) : (c.orFlags w).reg r = c.reg r := by
  simp [Ctx.reg]
@[simp] theorem Ctx.pred_setReg (c : Ctx) (p : Pred) (r : Reg) (v : Word) : (c.setReg r v).pred p = c.pred p := by
  simp [Ctx.pred]

end Sys2Proof.Machine
end

