-- ==== Sys2Proof/Laws/Ops.lean ====
section
/-! SUPPORT. What the shared operations of a thread can do: moving past an instruction, transfers, guards. -/

namespace Sys2Proof.Machine

/-! ## `Moved` -/

theorem Moved.refl (s : State) : Moved s s := ⟨rfl, rfl⟩

theorem Moved.trans {s t u : State} (a : Moved s t) (b : Moved t u) : Moved s u := by
  refine ⟨?_, b.others.trans a.others⟩
  have h := b.same
  rw [a.same] at h
  exact h

theorem Moved.device {s t : State} (m : Moved s t) : SameDevice s t := by
  rw [m.same]; exact ⟨rfl, rfl, rfl, rfl, rfl, rfl, rfl, rfl, rfl, rfl⟩

theorem SameDevice.memory {s t : State} (m : SameDevice s t) : SameMemory s t := by
  refine ⟨fun a => ?_, fun c i o => ?_⟩
  · simp [State.hbmByte, m.mem]
  · simp [State.spadByte, findSlot, findCluster, m.clusters]

theorem Moved.reg {s t : State} (m : Moved s t) (r : Reg) : t.th.ctx.reg r = s.th.ctx.reg r := by
  rw [m.same]; rfl

theorem Moved.pair {s t : State} (m : Moved s t) (r : Reg) : t.th.ctx.pair r = s.th.ctx.pair r := by
  rw [m.same]; rfl

theorem Moved.pred {s t : State} (m : Moved s t) (p : Pred) : t.th.ctx.pred p = s.th.ctx.pred p := by
  rw [m.same]; rfl

theorem Moved.fpst {s t : State} (m : Moved s t) : t.th.ctx.fpst = s.th.ctx.fpst := by
  rw [m.same]

theorem Moved.specials {s t : State} (m : Moved s t) : SameSpecials s t := by
  rw [m.same]; exact ⟨rfl, rfl, rfl, rfl, rfl, rfl, rfl, ⟨rfl, rfl⟩, ⟨rfl, rfl, rfl⟩, rfl, rfl⟩

/-! ## The steps of an advance -/

theorem issued_moved (s : State) : Moved s (issued s) := ⟨rfl, rfl⟩

theorem recheckHolds_moved (s : State) (g : Thread) : Moved s (recheckHolds s g) := by
  constructor
  · simp only [recheckHolds, mapThreads]
    congr 1
    split <;> rfl
  · simp only [recheckHolds, mapThreads, List.map_map]
    apply List.map_congr_left
    intro x _
    simp only [Function.comp_apply, Thread.unheld]
    split <;> rfl

theorem land_moved (s : State) (a : DWord) : Moved s (modCtx s fun c => c.land a) := ⟨rfl, rfl⟩

theorem arrive_moved (s : State) (a : DWord) (brm : Bool) : Moved s (arrive s a brm) := by
  unfold arrive
  refine Moved.trans (land_moved s a) (Moved.trans ?_ (recheckHolds_moved _ _))
  split
  · exact ⟨rfl, rfl⟩
  · exact Moved.refl _

theorem yieldAtEnd_moved (s : State) (n : DWord) : Moved s (yieldAtEnd s n) := by
  unfold yieldAtEnd
  split
  · exact ⟨rfl, rfl⟩
  · exact Moved.refl s

/-- A change of the loop levels alone. -/
structure LoopsOnly (c d : Ctx) : Prop where
  same : d = { c with lv0 := d.lv0, lv1 := d.lv1, lv2 := d.lv2, ld := d.ld }

theorem setLvl_loops (c : Ctx) (k : Nat) (l : LoopLvl) : LoopsOnly c (c.setLvl k l) := by
  unfold Ctx.setLvl
  constructor
  split
  · rfl
  · split <;> rfl

theorem LoopsOnly.trans {a b c : Ctx} (h : LoopsOnly a b) (k : LoopsOnly b c) : LoopsOnly a c := by
  constructor
  have e := k.same
  rw [h.same] at e
  exact e

theorem endCheck_loops (n : Nat) (c : Ctx) (a : DWord) : LoopsOnly c (endCheck n c a).1 := by
  induction n generalizing c with
  | zero => exact ⟨rfl⟩
  | succ n ih =>
    simp only [endCheck]
    split
    · exact ⟨rfl⟩
    · split
      · split
        · exact setLvl_loops _ _ _
        · refine LoopsOnly.trans ?_ (ih _)
          exact LoopsOnly.trans (setLvl_loops _ _ _) ⟨rfl⟩
      · exact ⟨rfl⟩

theorem loops_moved (s : State) (c : Ctx) (h : LoopsOnly s.th.ctx c) : Moved s { s with th := { s.th with ctx := c } } := by
  constructor
  · rw [h.same]
  · rfl

theorem goOn_step_moved (s : State) (n : Nat) : Moved s (goOn.step n s) := by
  unfold goOn.step
  simp only
  split
  · refine Moved.trans (yieldAtEnd_moved s (s.th.ctx.pc + dwOf (4 * n))) (Moved.trans ?_ (arrive_moved _ _ _))
    exact loops_moved _ _ (endCheck_loops _ _ _)
  · exact ⟨rfl, rfl⟩

/-- Going on moves the focus thread and nothing else. -/
theorem goOn_moved (s : State) (n : Nat) : Moved s (goOn s n) := by
  unfold goOn
  simp only
  split
  · split
    · exact ⟨rfl, rfl⟩
    · refine Moved.trans ?_ (goOn_step_moved _ n)
      exact ⟨rfl, rfl⟩
  · exact goOn_step_moved s n

/-- So does an instruction that only advances. -/
theorem advance_moved (s : State) : Moved s (advance s) := (issued_moved s).trans (goOn_moved _ _)

theorem retire_eq (s : State) : retire s = .next (advance s) := rfl

/-- A taken transfer moves the focus thread and nothing else. -/
theorem transfer_moved (s : State) (t : DWord) (brm : Bool) : Moved s (transfer s t brm) := by
  unfold transfer
  simp only
  refine Moved.trans (yieldAtEnd_moved s s.th.ctx.cend) (Moved.trans (issued_moved _) (Moved.trans ?_ (arrive_moved _ _ _)))
  exact ⟨rfl, rfl⟩

/-! ## Guards and register operations -/

/-- R11. -/
theorem guarded_false (s : State) (p : Pred) (k : State → Out) (h : guard s p = false) : guarded s p k = .next (advance s) := by
  simp [guarded, h, retire_eq]

theorem guarded_true (s : State) (p : Pred) (k : State → Out) (h : guard s p = true) : guarded s p k = k s := by
  simp [guarded, h]

theorem regOp_true (s : State) (p : Pred) (f : Ctx → Ctx) (h : guard s p = true) :
    regOp s p f = .next (advance (modCtx s f)) := by
  simp [regOp, guarded, h, retire_eq]

/-- A register operation always completes; where its guard is false it only advances. -/
theorem regOp_next (s : State) (p : Pred) (f : Ctx → Ctx) :
    regOp s p f = .next (advance (if guard s p then modCtx s f else s)) := by
  by_cases h : guard s p <;> simp [regOp, guarded, h, retire_eq]

end Sys2Proof.Machine
end

