-- ==== Sys2Proof/Laws/Access.lean ====
section
/-! SUPPORT. What the shared operations of accesses, coherent memory, clusters and counters can do. -/

namespace Sys2Proof.Machine

theorem SameMemory.trans {a b c : State} (x : SameMemory a b) (y : SameMemory b c) : SameMemory a c :=
  ⟨fun k => (y.hbm k).trans (x.hbm k), fun p q r => (y.spad p q r).trans (x.spad p q r)⟩

/-- Memory reads as before where HBM's bytes and the clusters are the same. -/
theorem SameMemory.of_eq {s t : State} (h : t.mem.hbm = s.mem.hbm) (k : t.clusters = s.clusters) : SameMemory s t := by
  refine ⟨fun a => ?_, fun c i o => ?_⟩
  · simp [State.hbmByte, h]
  · simp [State.spadByte, k, findSlot, findCluster]

/-! ## Coherence changes no byte -/

/-- The stored bytes, their key tags and the key pairs are the same. -/
structure SameBytes (m n : MemSys) : Prop where
  hbm : n.hbm = m.hbm
  tags : n.tags = m.tags
  pairs : n.pairs = m.pairs

theorem SameBytes.refl (m : MemSys) : SameBytes m m := ⟨rfl, rfl, rfl⟩

theorem SameBytes.trans {a b c : MemSys} (x : SameBytes a b) (y : SameBytes b c) : SameBytes a c :=
  ⟨y.hbm.trans x.hbm, y.tags.trans x.tags, y.pairs.trans x.pairs⟩

theorem SameBytes.symm {a b : MemSys} (x : SameBytes a b) : SameBytes b a := ⟨x.hbm.symm, x.tags.symm, x.pairs.symm⟩

theorem llcPut_same (m : MemSys) (l : LlcLine) : SameBytes m (llcPut m l) := ⟨rfl, rfl, rfl⟩

theorem llcDrop_same (m : MemSys) (sec : Nat) (d : Bool) : SameBytes m (llcDrop m sec d) := ⟨rfl, rfl, rfl⟩

theorem llcRetireSector_same (m : MemSys) (gen sec : Nat) : SameBytes m (llcRetireSector m gen sec) := by
  unfold llcRetireSector
  split
  · exact .refl m
  · split
    · exact .refl m
    · exact llcDrop_same _ _ _

theorem llcRetire_same (m : MemSys) (sec gen : Nat) : SameBytes m (llcRetire m sec gen) :=
  (llcRetireSector_same m gen (sec / 128 * 128)).trans (llcRetireSector_same _ gen (sec / 128 * 128 + 64))

theorem evict_same (m : MemSys) (die pa : Nat) : SameBytes m (evict m die pa) := by
  unfold evict
  split
  · exact .refl m
  · split
    · exact .refl m
    · dsimp only
      split
      · split
        · exact llcDrop_same _ _ _
        · exact ⟨rfl, rfl, rfl⟩
      · split
        · exact llcDrop_same _ _ _
        · exact llcPut_same _ _

theorem evicts_same (die : Nat) (l : List Nat) (m : MemSys) :
    SameBytes m (l.foldl (fun m n => evict (evict m die (128 * n)) die (128 * n + 64)) m) := by
  induction l generalizing m with
  | nil => exact .refl m
  | cons n r ih => exact ((evict_same m die (128 * n)).trans (evict_same _ die (128 * n + 64))).trans (ih _)

theorem setLru_same (m : MemSys) (die : Nat) (l : List Nat) : SameBytes m (m.setLru die l) := by
  unfold MemSys.setLru
  split <;> exact ⟨rfl, rfl, rfl⟩

/-- R211: a use and an eviction change no byte. -/
theorem llcTrim_same (m : MemSys) (die sec : Nat) : SameBytes m (llcTrim m die sec) := by
  unfold llcTrim
  split
  · exact setLru_same _ _ _
  · exact (setLru_same _ _ _).trans (evicts_same _ _ _)

theorem llcFill_same (m : MemSys) (sec gen : Nat) : SameBytes m (llcFill m sec gen).1 := by
  have h := llcRetire_same m sec gen
  unfold llcFill
  dsimp only
  split
  · exact h
  · exact ⟨h.hbm, h.tags, h.pairs⟩

theorem llcRead_same (m : MemSys) (die sec gen : Nat) : SameBytes m (llcRead m die sec gen) := by
  unfold llcRead
  dsimp only
  refine ((llcFill_same m sec gen).trans ?_).trans (llcTrim_same _ die sec)
  split <;> exact llcPut_same _ _

theorem llcWrite_same (m : MemSys) (die sec gen : Nat) : SameBytes m (llcWrite m die sec gen) := by
  unfold llcWrite
  dsimp only
  refine ((llcFill_same m sec gen).trans ?_).trans (llcTrim_same _ die sec)
  split <;> exact llcPut_same _ _

/-- What a write of one sector leaves depends on HBM's bytes, their key tags and the key pairs alone. -/
theorem physWrite1_congr {m n : MemSys} (h : SameBytes m n) (gen pa : Nat) (bs : List Byte) :
    SameBytes (physWrite1 m gen pa bs) (physWrite1 n gen pa bs) := by
  unfold physWrite1 retag
  rw [h.tags]
  dsimp only
  split
  · exact ⟨by rw [h.hbm], rfl, h.pairs⟩
  · split
    · exact ⟨by rw [h.hbm], h.tags, h.pairs⟩
    · refine ⟨?_, rfl, h.pairs⟩
      dsimp only [sectorUnder, MemSys.pair]
      rw [h.hbm, h.tags, h.pairs]

theorem physStore_same (m : MemSys) (die gen pa : Nat) (bs : List Byte) :
    SameBytes (physWrite1 m gen pa bs) (physStore m die gen pa bs) := by
  have h := physWrite1_congr (llcWrite_same m die (sectorOf pa) gen) gen pa bs
  exact ⟨h.hbm, h.tags, h.pairs⟩

theorem physStore_congr {m n : MemSys} (h : SameBytes m n) (d e gen pa : Nat) (bs : List Byte) :
    SameBytes (physStore m d gen pa bs) (physStore n e gen pa bs) :=
  ((physStore_same m d gen pa bs).symm.trans (physWrite1_congr h gen pa bs)).trans (physStore_same n e gen pa bs)

/-- R219: where the sector is untagged or of the writer's key generation, a write of one sector is a plain store. -/
theorem physStore_plain (m : MemSys) (die gen pa : Nat) (bs : List Byte)
    (h : ∀ g, keyGet m.tags (sectorOf pa) = some g → g = gen) : (physStore m die gen pa bs).hbm = Mem.store m.hbm pa bs := by
  rw [(physStore_same m die gen pa bs).hbm]
  unfold physWrite1 retag
  cases e : keyGet m.tags (sectorOf pa) with
  | none => rfl
  | some g => simp only [h g e, if_true]

theorem probe_mem (s : State) (w : Option Tid) (loc : Loc) (n : Nat) : (probe s w loc n).mem = s.mem := by
  unfold probe remoteProbe
  split <;> rfl

theorem probe_clusters (s : State) (w : Option Tid) (loc : Loc) (n : Nat) : (probe s w loc n).clusters = s.clusters := by
  unfold probe remoteProbe
  split <;> rfl

theorem probe_fab (s : State) (w : Option Tid) (loc : Loc) (n : Nat) : (probe s w loc n).fab = s.fab := by
  unfold probe remoteProbe
  split <;> rfl

theorem notify_th (w : Option Tid) (loc : Loc) (n : Nat) (t : Thread) : notify w loc n t = { t with notice := (notify w loc n t).notice } := by
  unfold notify
  split <;> rfl

/-- A probe leaves a thread as it was, but for its notice. -/
theorem probe_th (s : State) (w : Option Tid) (loc : Loc) (n : Nat) :
    (probe s w loc n).th = { s.th with notice := (probe s w loc n).th.notice } := by
  have h := notify_th w loc n s.th
  unfold probe remoteProbe
  split
  · dsimp only
    split <;> rw [h]
  · exact h
  · exact h

theorem writeLoc_mem (s : State) (w : Option Tid) (die gen : Nat) (loc : Loc) (bs : List Byte) :
    (writeLoc s w die gen loc bs).mem = (pokeLoc s die gen loc bs).mem := probe_mem _ _ _ _

theorem writeLoc_clusters (s : State) (w : Option Tid) (die gen : Nat) (loc : Loc) (bs : List Byte) :
    (writeLoc s w die gen loc bs).clusters = (pokeLoc s die gen loc bs).clusters := probe_clusters _ _ _ _

/-- A write to HBM leaves bytes that depend on HBM's bytes, their key tags and the key pairs alone, whichever die's slice makes it. -/
theorem pokeLoc_congr {s t : State} (h : SameBytes s.mem t.mem) (d e gen pa : Nat) (mir : Bool) (bs : List Byte) :
    SameBytes (pokeLoc s d gen (.hbm pa mir) bs).mem (pokeLoc t e gen (.hbm pa mir) bs).mem := by
  unfold pokeLoc
  dsimp only
  split
  · exact physStore_congr (physStore_congr h 0 0 gen pa bs) 1 1 gen (mirrorOf pa) bs
  · exact physStore_congr h d e gen pa bs

/-- A read changes no byte. -/
theorem readLoc_same (s : State) (die gen : Nat) (loc : Loc) (n : Nat) : SameMemory s (readLoc s die gen loc n).1 := by
  unfold readLoc
  dsimp only
  split
  · exact SameMemory.of_eq (llcRead_same _ _ _ _).hbm rfl
  · exact SameMemory.of_eq rfl rfl

theorem readLoc_th (s : State) (die gen : Nat) (loc : Loc) (n : Nat) : (readLoc s die gen loc n).1.th = s.th := by
  unfold readLoc
  dsimp only
  split <;> rfl

/-- A write that nothing holds at its home performs. -/
theorem holdForeign_none {s : State} {w : Option Tid} {pa n : Nat} {mir : Bool} {ev : Instr} (m : migHolds s pa n mir = false)
    (i : intentHolds s w (.hbm pa mir) n = false) (q : queuedBefore s (heldEntry s pa n ev).num (.hbm pa mir) n = false) :
    holdForeign s w pa n mir ev = none := by
  simp [holdForeign, m, i, q]

/-! ## Clusters -/

theorem findCluster_id {s : State} {c : Cid} {k : Cluster} (h : findCluster s c = some k) : k.id = c := by
  have := List.find?_some h
  simpa using this

theorem findCluster_setCluster {s : State} {c : Cid} {k k' : Cluster} (h : findCluster s c = some k) (e : k'.id = c) :
    findCluster (setCluster s k') c = some k' := by
  have h' : s.clusters.find? (fun x => x.id == c) = some k := h
  have e2 : ((fun x : Cluster => x.id == c) ∘ fun x => if (x.id == k'.id) = true then k' else x) = fun x => x.id == c := by
    funext x
    by_cases hx : x.id = c <;> simp [hx, e]
  simp only [findCluster, setCluster, List.find?_map]
  rw [e2, h']
  simp [findCluster_id h, e]

theorem findCluster_setCluster_other (s : State) {c : Cid} {k : Cluster} (e : k.id ≠ c) :
    findCluster (setCluster s k) c = findCluster s c := by
  have e2 : ((fun x : Cluster => x.id == c) ∘ fun x => if (x.id == k.id) = true then k else x) = fun x => x.id == c := by
    funext x
    by_cases hx : x.id = k.id <;> simp [hx, e]
  simp only [findCluster, setCluster, List.find?_map]
  rw [e2]
  cases h : s.clusters.find? (fun x => x.id == c) with
  | none => rfl
  | some q =>
    have hq : q.id = c := by have := List.find?_some h; simpa using this
    have : q.id ≠ k.id := fun x => e (x.symm.trans hq)
    simp [this]

theorem findSlot_setSlot {s : State} {c : Cid} {i : Nat} {v : Slot} (w : Slot) (h : findSlot s c i = some v) :
    findSlot (setSlot s c i w) c i = some w := by
  unfold findSlot at h
  cases hk : findCluster s c with
  | none => rw [hk] at h; simp at h
  | some k =>
    rw [hk] at h
    have hi : i < k.slots.length := (List.getElem?_eq_some_iff.mp (by simpa using h)).1
    unfold setSlot findSlot
    rw [hk]
    simp only
    have hid : k.id = c := findCluster_id hk
    rw [findCluster_setCluster hk (k' := { k with slots := k.slots.set i w }) hid]
    simp [hi]

theorem findSlot_setSlot_other (s : State) {c d : Cid} {i j : Nat} (w : Slot) (h : d ≠ c ∨ j ≠ i) :
    findSlot (setSlot s c i w) d j = findSlot s d j := by
  unfold setSlot
  cases hk : findCluster s c with
  | none => rfl
  | some k =>
    have hid := findCluster_id hk
    by_cases hd : d = c
    · subst hd
      have hj : i ≠ j := fun e => h.elim (fun x => x rfl) fun x => x e.symm
      unfold findSlot
      simp only
      rw [findCluster_setCluster hk (k' := { k with slots := k.slots.set i w }) hid, hk]
      simp [hj]
    · unfold findSlot
      simp only
      rw [findCluster_setCluster_other]
      simpa [hid] using fun e => hd e.symm

/-! ## External effects (R336) -/

theorem setExt_th (s : State) : (setExt s).th = s.th := by unfold setExt; split <;> rfl
theorem setExt_pool (s : State) : (setExt s).pool = s.pool := by unfold setExt; split <;> rfl
theorem setExt_mem (s : State) : (setExt s).mem = s.mem := by unfold setExt; split <;> rfl
theorem setExt_fab (s : State) : (setExt s).fab = s.fab := by unfold setExt; split <;> rfl
theorem setExt_out (s : State) : (setExt s).out = s.out := by unfold setExt; split <;> rfl
theorem setExt_coll0 (s : State) : (setExt s).coll0 = s.coll0 := by unfold setExt; split <;> rfl
theorem setExt_coll1 (s : State) : (setExt s).coll1 = s.coll1 := by unfold setExt; split <;> rfl
theorem setExt_launches (s : State) : (setExt s).launches = s.launches := by unfold setExt; split <;> rfl
theorem setExt_cores (s : State) : (setExt s).cores = s.cores := by unfold setExt; split <;> rfl
theorem setExt_xl (s : State) : (setExt s).xl = s.xl := by unfold setExt; split <;> rfl
theorem setExt_ctl (s : State) : (setExt s).ctl = s.ctl := by unfold setExt; split <;> rfl

theorem setExt_findSlot (s : State) (c : Cid) (i : Nat) : findSlot (setExt s) c i = findSlot s c i := by
  unfold setExt
  cases hk : findCluster s s.th.cid with
  | none => rfl
  | some k =>
    have hid := findCluster_id hk
    unfold findSlot
    simp only
    by_cases hc : s.th.cid = c
    · subst hc
      rw [findCluster_setCluster hk (k' := { k with ext := true }) hid, hk]
      rfl
    · rw [findCluster_setCluster_other]
      simpa [hid] using hc

theorem setExt_same (s : State) : SameMemory s (setExt s) :=
  ⟨fun a => by simp [State.hbmByte, setExt_mem], fun c i o => by simp [State.spadByte, setExt_findSlot]⟩

/-! ## Counters, and the end of an issue -/

theorem recheckHolds_ctx (s : State) (g : Thread) : (recheckHolds s g).th.ctx = s.th.ctx := by
  simp only [recheckHolds, mapThreads]
  split <;> rfl

/-- Reaching a header stands the thread there and changes no other field of its context. -/
theorem arrive_ctx (s : State) (a : DWord) (brm : Bool) : (arrive s a brm).th.ctx = s.th.ctx.land a := by
  unfold arrive
  simp only
  rw [recheckHolds_ctx]
  split <;> rfl

theorem yieldAtEnd_ctx (s : State) (n : DWord) : (yieldAtEnd s n).th.ctx = s.th.ctx := by
  unfold yieldAtEnd
  split <;> rfl

/-- R69, R77: a taken transfer stands at its target. -/
theorem transfer_ctx (s : State) (t : DWord) (brm : Bool) :
    (transfer s t brm).th.ctx = ({ s.th.ctx with icount := s.th.ctx.icount + 1, wmask := 0, wfrom := none, drain := false,
                                                 wend := s.th.ctx.icount + 1 } : Ctx).land t := by
  unfold transfer
  simp only
  rw [arrive_ctx]
  show (lookEnd (issued (yieldAtEnd s s.th.ctx.cend)).th).ctx.land t = _
  unfold lookEnd issued modCtx
  simp only [yieldAtEnd_ctx]

theorem goOn_step_icount (s : State) (n : Nat) : (goOn.step n s).th.ctx.icount = s.th.ctx.icount := by
  unfold goOn.step
  simp only
  split
  · rw [arrive_ctx]
    show (endCheck _ _ _).1.icount = _
    rw [(endCheck_loops _ _ _).same, yieldAtEnd_ctx]
  · rfl

theorem goOn_icount (s : State) (n : Nat) : (goOn s n).th.ctx.icount = s.th.ctx.icount := by
  unfold goOn
  simp only
  split
  · split
    · rfl
    · rw [goOn_step_icount]
  · exact goOn_step_icount s n

/-- R70: an issue counts one. -/
theorem advance_icount (s : State) : (advance s).th.ctx.icount = s.th.ctx.icount + 1 := goOn_icount _ _

theorem Moved.accs {s t : State} (m : Moved s t) : t.th.accs = s.th.accs := by rw [m.same]
theorem Moved.ops {s t : State} (m : Moved s t) : t.th.ops = s.th.ops := by rw [m.same]
theorem Moved.dc {s t : State} (m : Moved s t) : t.th.dc = s.th.dc := by rw [m.same]
theorem Moved.seq {s t : State} (m : Moved s t) : t.th.seq = s.th.seq := by rw [m.same]
theorem Moved.trap {s t : State} (m : Moved s t) : t.th.trap = s.th.trap := by rw [m.same]
theorem Moved.spec {s t : State} (m : Moved s t) : t.th.spec = s.th.spec := by rw [m.same]
theorem Moved.place {s t : State} (m : Moved s t) : t.th.place = s.th.place := by rw [m.same]
theorem Moved.ident {s t : State} (m : Moved s t) : t.th.id = s.th.id := by rw [m.same]
theorem Moved.status {s t : State} (m : Moved s t) : t.th.status = s.th.status := by rw [m.same]
theorem Moved.dphase {s t : State} (m : Moved s t) : t.th.ctx.dphase = s.th.ctx.dphase := by rw [m.same]
theorem Moved.res {s t : State} (m : Moved s t) : t.th.ctx.res = s.th.ctx.res := by rw [m.same]
theorem Moved.depth {s t : State} (m : Moved s t) : t.th.ctx.depth = s.th.ctx.depth := by rw [m.same]
theorem Moved.spill {s t : State} (m : Moved s t) : t.th.ctx.spill = s.th.ctx.spill := by rw [m.same]

theorem dcGet_step (t : Thread) (d : Fin 7) : dcGet (dcStep t d) d = dcGet t d + (if d.val < 6 then 1 else 0) := by
  unfold dcStep dcGet
  split <;> simp [*]

theorem dcGet_step_other (t : Thread) (d k : Fin 7) (h : k ≠ d) : dcGet (dcStep t d) k = dcGet t k := by
  unfold dcStep dcGet
  have : d.val ≠ k.val := fun e => h (Fin.ext e.symm)
  split
  · split
    · simp [this]
    · rfl
  · rfl

theorem dcGet_drop (t : Thread) (d : Fin 7) (h : d.val < 6) : dcGet (dcDrop t d) d = dcGet t d - 1 := by
  unfold dcDrop dcGet
  simp [h]

theorem dcGet_drop_other (t : Thread) (d k : Fin 7) (h : k ≠ d) : dcGet (dcDrop t d) k = dcGet t k := by
  unfold dcDrop dcGet
  have : d.val ≠ k.val := fun e => h (Fin.ext e.symm)
  split
  · split
    · simp [this]
    · rfl
  · rfl

/-- A counter's step changes the counters alone. -/
theorem dcStep_same (t : Thread) (d : Fin 7) : dcStep t d = { t with dc := (dcStep t d).dc } := by
  unfold dcStep
  split <;> rfl

theorem dcDrop_same (t : Thread) (d : Fin 7) : dcDrop t d = { t with dc := (dcDrop t d).dc } := by
  unfold dcDrop
  split <;> rfl

theorem oldest_none (s : State) (k : State → Out) (h : s.th.accs = []) : oldest s k = k s := by simp [oldest, h]

theorem oldest_some (s : State) (k : State → Out) (h : s.th.accs ≠ []) : oldest s k = .next s := by
  have : s.th.accs.isEmpty = false := by
    cases e : s.th.accs with
    | nil => exact absurd e h
    | cons => rfl
  simp [oldest, this]

/-- R71, R106: the issue of an access always completes; it adds the access, steps its counter and moves past the instruction. -/
theorem pushAcc_next (s : State) (a : Access) (l : Nat) (g : Option Nat) :
    ∃ t, pushAcc s a l g = .next t ∧ t.th.accs = s.th.accs ++ [a] ∧ t.th.ops = s.th.ops ∧ t.th.seq = s.th.seq + 1
      ∧ dcGet t.th a.dc = dcGet s.th a.dc + (if a.dc.val < 6 then 1 else 0)
      ∧ (∀ d, d ≠ a.dc → dcGet t.th d = dcGet s.th d)
      ∧ t.th.ctx.icount = s.th.ctx.icount + 1 ∧ t.th.ctx.dphase = s.th.ctx.dphase
      ∧ (∀ r, t.th.ctx.reg r = s.th.ctx.reg r) ∧ (∀ p, t.th.ctx.pred p = s.th.ctx.pred p)
      ∧ SameDevice s t ∧ t.th.place = s.th.place := by
  have m := advance_moved s
  have e := advance_icount s
  generalize hu : advance s = u at m e
  have hu' : goOn (issued s) (instrLen s) = u := hu
  have hd : ∀ d, dcGet u.th d = dcGet s.th d := fun d => by unfold dcGet; rw [m.dc]
  refine ⟨_, rfl, ?_⟩
  rw [hu']
  simp only [modTh]
  refine ⟨?_, ?_, ?_, ?_, ?_, ?_, ?_, ?_, ?_, ?_, ?_⟩
  · rw [dcStep_same]; simp [m.accs]
  · rw [dcStep_same]; simp [m.ops]
  · rw [dcStep_same]; simp [m.seq]
  · rw [dcGet_step, ← hd]; rfl
  · intro d h; rw [dcGet_step_other _ _ _ h, ← hd]; rfl
  · rw [dcStep_same]; exact e
  · rw [dcStep_same]; exact m.dphase
  · intro r; rw [dcStep_same]; exact m.reg r
  · intro p; rw [dcStep_same]; exact m.pred p
  · have := m.device
    exact ⟨this.1, this.2, this.3, this.4, this.5, this.6, this.7, this.8, this.9, this.10⟩
  · rw [dcStep_same]; exact m.place

/-- R70, R71: the issue of an operation always completes; it owes its results and moves past the instruction. -/
theorem issueOp_next (s : State) (f : FmtC) (w : List (Reg × Word)) (g : Word) :
    ∃ t, issueOp s f w g = .next t
      ∧ t.th.ops = s.th.ops ++ [⟨w, f.dc, f.look.val, g, s.th.seq, s.th.ctx.icount⟩]
      ∧ t.th.ctx.icount = s.th.ctx.icount + 1
      ∧ dcGet t.th f.dc = dcGet s.th f.dc + (if f.dc.val < 6 then 1 else 0)
      ∧ (∀ d, d ≠ f.dc → dcGet t.th d = dcGet s.th d)
      ∧ SameRegsBut [] s t ∧ SamePredsBut [] s t ∧ SameMemory s t := by
  have m := advance_moved s
  have e := advance_icount s
  generalize hu : advance s = u at m e
  have hu' : goOn (issued s) (instrLen s) = u := hu
  have hd : ∀ d, dcGet u.th d = dcGet s.th d := fun d => by unfold dcGet; rw [m.dc]
  refine ⟨_, rfl, ?_⟩
  rw [hu']
  simp only [modTh]
  refine ⟨?_, ?_, ?_, ?_, ?_, ?_, ?_⟩
  · rw [dcStep_same]; simp [m.ops, m.seq]
  · rw [dcStep_same]; exact e
  · rw [dcGet_step, ← hd]; rfl
  · intro d h; rw [dcGet_step_other _ _ _ h, ← hd]; rfl
  · intro r _; rw [dcStep_same]; exact m.reg r
  · intro p _; rw [dcStep_same]; exact m.pred p
  · have := m.device.memory
    exact ⟨this.1, this.2⟩

/-- The operation of the thread in focus needs no change of focus. -/
theorem onThread_self (s : State) (f : State → State) : onThread s s.th.id f = f s := by simp [onThread]

theorem findThread_self (s : State) : findThread s s.th.id = some s.th := by simp [findThread, threads]

end Sys2Proof.Machine
end

