-- ==== Sys2Proof/Laws/Encoding.lean ====
section
/-! SUPPORT. The codes of the operand selectors and the formats: each encoder keeps within its word, and each field is read back. -/

namespace Sys2Proof

/-! ## Selectors -/

theorem b1_lt (b : Bool) : b1 b < 2 := by cases b <;> decide

theorem SatMode.code_lt (m : SatMode) : m.code < 4 := by cases m <;> decide
theorem SatMode.of_code (m : SatMode) : SatMode.of m.code = some m := by cases m <;> rfl
theorem Sgn.code_lt (m : Sgn) : m.code < 4 := by cases m <;> decide
theorem Sgn.of_code (m : Sgn) : Sgn.of m.code = some m := by cases m <;> rfl
theorem MoviKind.code_lt (m : MoviKind) : m.code < 4 := by cases m <;> decide
theorem MoviKind.of_code (m : MoviKind) : MoviKind.of m.code = some m := by cases m <;> rfl
theorem Cond.code_lt (m : Cond) : m.code < 16 := by cases m <;> decide
theorem Cond.of_code (m : Cond) : Cond.of m.code = some m := by cases m <;> rfl
theorem FCond.code_lt (m : FCond) : m.code < 16 := by cases m <;> decide
theorem FCond.of_code (m : FCond) : FCond.of m.code = some m := by cases m <;> rfl
theorem RmSel.code_lt (m : RmSel) : m.code < 4 := by cases m <;> decide
theorem RmSel.of_code (m : RmSel) : RmSel.of m.code = some m := by cases m <;> rfl
theorem FrndSel.code_lt (m : FrndSel) : m.code < 4 := by cases m <;> decide
theorem FrndSel.of_code (m : FrndSel) : FrndSel.of m.code = some m := by cases m <;> rfl
theorem ClsFmt.code_lt (m : ClsFmt) : m.code < 4 := by cases m <;> decide
theorem ClsFmt.of_code (m : ClsFmt) : ClsFmt.of m.code = some m := by cases m <;> rfl
theorem MxFmt.code_lt (m : MxFmt) : m.code < 4 := by cases m <;> decide
theorem MxFmt.of_code (m : MxFmt) : MxFmt.of m.code = some m := by cases m <;> rfl
theorem RedOp.code_lt (m : RedOp) : m.code < 4 := by cases m <;> decide
theorem RedOp.of_code (m : RedOp) : RedOp.of m.code = some m := by cases m <;> rfl
theorem ShflMode.code_lt (m : ShflMode) : m.code < 4 := by cases m <;> decide
theorem ShflMode.of_code (m : ShflMode) : ShflMode.of m.code = some m := by cases m <;> rfl
theorem VoteMode.code_lt (m : VoteMode) : m.code < 4 := by cases m <;> decide
theorem VoteMode.of_code (m : VoteMode) : VoteMode.of m.code = some m := by cases m <;> rfl
theorem IntTy.code_lt (t : IntTy) : t.code < 8 := by cases t <;> decide
theorem IntTy.of_code (t : IntTy) : IntTy.of t.code = some t := by cases t <;> rfl
theorem RawTy.code_lt (t : RawTy) : t.code < 8 := by cases t <;> decide
theorem RawTy.of_code (t : RawTy) : RawTy.of t.code = some t := by cases t <;> rfl
theorem FloatTy.code_lt (t : FloatTy) : t.code < 8 := by cases t <;> decide
theorem FloatTy.of_code (t : FloatTy) : FloatTy.of t.code = some t := by cases t <;> rfl
theorem PackFmt.code_lt (f : PackFmt) : f.code < 8 := by cases f <;> decide
theorem PackFmt.of_code (f : PackFmt) : PackFmt.of f.code = some f := by cases f <;> rfl
theorem ConvTy.code_lt (t : ConvTy) : t.code < 16 := by cases t <;> first | decide | (rename_i f; cases f <;> decide)
theorem ConvTy.of_code (t : ConvTy) : ConvTy.of t.code = some t := by cases t <;> first | rfl | (rename_i f; cases f <;> rfl)
theorem GOp.code_lt (o : GOp) : o.code < 6 := by cases o <;> simp [GOp.code]
theorem GOp.ty_lt (o : GOp) : o.ty < 8 := by cases o <;> first | decide | (rename_i t; cases t <;> decide)
theorem GOp.of_code (o : GOp) : GOp.of o.code o.ty = some o := by cases o <;> first | rfl | (rename_i t; cases t <;> rfl)

theorem dcOf_val (d : Fin 7) : dcOf d.val = some d := by simp [dcOf, d.isLt]
theorem fin3Of_val (d : Fin 3) : fin3Of d.val = some d := by simp [fin3Of, d.isLt]
theorem fin4Of_val (d : Fin 4) : fin4Of d.val = some d := by simp [fin4Of, d.isLt]

theorem xBit_lt {α : Type} (o : Option α) : xBit o < 2 := by cases o <;> simp [xBit]

/-! ## Formats: within 32 bits -/

theorem hdr_lt {op : Nat} (h : op < 256) (p : Pred) {n : Nat} (k : n < 0x100000) : hdr op p + n < 2 ^ 32 := by
  have := p.isLt
  simp only [hdr]
  omega

theorem encA_lt {op m : Nat} (h : op < 256) (k : m < 4) (f : FmtA) : encA op f m < 2 ^ 32 := by
  have := f.p.isLt; have := f.d.isLt; have := f.a.isLt; have := f.b.isLt
  simp only [encA, hdr]
  omega

theorem encU_lt {op b m : Nat} (h : op < 256) (k : b < 64) (j : m < 4) (f : FmtU) : encU op f b m < 2 ^ 32 := by
  have := f.p.isLt; have := f.d.isLt; have := f.a.isLt
  simp only [encU, hdr]
  omega

theorem encB_lt {op : Nat} (h : op < 256) (f : FmtB) : encB op f < 2 ^ 32 := by
  have := f.p.isLt; have := f.d.isLt; have := f.a.isLt; have := f.i.isLt
  simp only [encB, hdr]
  omega

theorem encC_lt {op x : Nat} (h : op < 256) (k : x < 2) (f : FmtC) : encC op f x < 2 ^ 32 := by
  have := f.p.isLt; have := f.d.isLt; have := f.a.isLt; have := f.look.isLt; have := f.dc.isLt
  simp only [encC, hdr]
  omega

theorem encC'_lt {op d x : Nat} (h : op < 256) (j : d < 64) (k : x < 2) (p : Pred) (a : Reg) (look : Fin 16) (dc : Fin 7) :
    encC' op p d a look dc x < 2 ^ 32 := by
  have := p.isLt; have := a.isLt; have := look.isLt; have := dc.isLt
  simp only [encC', hdr]
  omega

theorem encJ_lt {op : Nat} (h : op < 256) (f : FmtJ) : encJ op f < 2 ^ 32 := by
  have := f.p.isLt; have := f.disp.isLt
  simp only [encJ, hdr]
  omega

theorem encM_lt {op low : Nat} (h : op < 256) (k : low < 16) (f : FmtM) : encM op f low < 2 ^ 32 := by
  have := f.p.isLt; have := f.acc.isLt; have := f.a.isLt; have := f.b.isLt
  simp only [encM, hdr]
  omega

theorem encP_lt {op cc : Nat} (h : op < 256) (k : cc < 16) (f : FmtP) : encP op f cc < 2 ^ 32 := by
  have := f.p.isLt; have := f.pd.isLt; have := f.a.isLt; have := f.b.isLt
  simp only [encP, hdr]
  omega

theorem encQ_lt {op : Nat} (h : op < 256) (f : FmtQ) : encQ op f < 2 ^ 32 := by
  have := f.p.isLt; have := f.pd.isLt; have := f.pa.isLt; have := f.pb.isLt; have := b1_lt f.na; have := b1_lt f.nb
  simp only [encQ, hdr]
  omega

theorem encXO_lt (c e : Reg) {t off : Nat} (h : t < 16) (k : off < 0x10000) : encXO c.val e.val t off < 2 ^ 32 := by
  have := c.isLt; have := e.isLt
  simp only [encXO]
  omega

theorem encXO0_lt (c : Reg) {t off : Nat} (h : t < 16) (k : off < 0x10000) : encXO c.val 0 t off < 2 ^ 32 :=
  encXO_lt c 0 h k

theorem encXM_lt (x : Option XM) : (encXM x).getD 0 < 2 ^ 32 := by
  cases x with
  | none => decide
  | some m =>
    have := m.hint.isLt; have := m.off.isLt
    simp only [encXM, Option.getD_some]
    omega

theorem encXM0_lt (x : Option (BitVec 30)) : (encXM0 x).getD 0 < 2 ^ 32 := by
  cases x with
  | none => decide
  | some m =>
    have := m.isLt
    simp only [encXM0, Option.getD_some]
    omega

/-- An extension word in the form XO fits 32 bits. -/
theorem encodeExt_lt {i : Instr} {c e t off : Nat} (h : encodeExt i = some (encXO c e t off)) (hc : c < 64) (he : e < 64) (ht : t < 16)
    (ho : off < 2 ^ 16) : (encodeExt i).getD 0 < 2 ^ 32 := by
  rw [h]
  simp only [encXO, Option.getD_some]
  omega

theorem encOff_lt (x : Option (BitVec 16)) : (encOff x).getD 0 < 2 ^ 32 := by
  cases x with
  | none => decide
  | some m =>
    have := m.isLt
    simp only [encOff, Option.getD_some]
    omega

theorem encBarXO_lt (x : Option BarXO) : (encBarXO x).getD 0 < 2 ^ 32 := by
  cases x with
  | none => decide
  | some m => exact encXO_lt m.c 0 (by decide) m.off.isLt

/-! ## Formats: the opcode and the fields read back -/

theorem encA_op {op m : Nat} (k : m < 4) (f : FmtA) : encA op f m / 0x1000000 = op := by
  have := f.p.isLt; have := f.d.isLt; have := f.a.isLt; have := f.b.isLt
  simp only [encA, hdr]
  omega

theorem encA_mode {op m : Nat} (k : m < 4) (f : FmtA) : nM (encA op f m) = m := by
  simp only [encA, hdr, nM]
  omega

theorem fmtA_encA {op m : Nat} (k : m < 4) (f : FmtA) : fmtA (encA op f m) = f := by
  obtain ⟨p, d, a, b⟩ := f
  have := p.isLt; have := d.isLt; have := a.isLt; have := b.isLt
  simp only [fmtA, encA, hdr, fP, fD, fA, fB, FmtA.mk.injEq]
  refine ⟨?_, ?_, ?_, ?_⟩ <;> apply Fin.ext <;> simp only [Fin.ofNat] <;> omega

theorem encU_op {op b m : Nat} (k : b < 64) (j : m < 4) (f : FmtU) : encU op f b m / 0x1000000 = op := by
  have := f.p.isLt; have := f.d.isLt; have := f.a.isLt
  simp only [encU, hdr]
  omega

theorem encU_low {op b m : Nat} (k : b < 64) (j : m < 4) (f : FmtU) : nB (encU op f b m) = b ∧ nM (encU op f b m) = m := by
  have := f.a.isLt
  simp only [encU, hdr, nB, nM]
  constructor <;> omega

theorem fmtU_encU {op b m : Nat} (k : b < 64) (j : m < 4) (f : FmtU) : fmtU (encU op f b m) = f := by
  obtain ⟨p, d, a⟩ := f
  have := p.isLt; have := d.isLt; have := a.isLt
  simp only [fmtU, encU, hdr, fP, fD, fA, FmtU.mk.injEq]
  refine ⟨?_, ?_, ?_⟩ <;> apply Fin.ext <;> simp only [Fin.ofNat] <;> omega

theorem encB_op {op : Nat} (f : FmtB) : encB op f / 0x1000000 = op := by
  have := f.p.isLt; have := f.d.isLt; have := f.a.isLt; have := f.i.isLt
  simp only [encB, hdr]
  omega

theorem fmtB_encB {op : Nat} (f : FmtB) : fmtB (encB op f) = f := by
  obtain ⟨p, d, a, i⟩ := f
  have := p.isLt; have := d.isLt; have := a.isLt; have := i.isLt
  simp only [fmtB, encB, hdr, fP, fD, fA, FmtB.mk.injEq]
  refine ⟨?_, ?_, ?_, ?_⟩
  · apply Fin.ext; simp only [Fin.ofNat]; omega
  · apply Fin.ext; simp only [Fin.ofNat]; omega
  · apply Fin.ext; simp only [Fin.ofNat]; omega
  · apply BitVec.eq_of_toNat_eq; simp only [BitVec.toNat_ofNat]; omega

theorem encC_op {op x : Nat} (k : x < 2) (f : FmtC) : encC op f x / 0x1000000 = op := by
  have := f.p.isLt; have := f.d.isLt; have := f.a.isLt; have := f.look.isLt; have := f.dc.isLt
  simp only [encC, hdr]
  omega

theorem encC_x {op x : Nat} (k : x < 2) (f : FmtC) : nX (encC op f x) = x := by
  simp only [encC, hdr, nX]
  omega

theorem fmtC_encC {op x : Nat} (k : x < 2) (f : FmtC) : fmtC (encC op f x) = some f := by
  obtain ⟨p, d, a, look, dc⟩ := f
  have := p.isLt; have := d.isLt; have := a.isLt; have := look.isLt; have := dc.isLt
  have e : nDc (encC op ⟨p, d, a, look, dc⟩ x) = dc.val := by
    simp only [encC, hdr, nDc]
    omega
  rw [fmtC, e, dcOf_val, Option.map_some, Option.some.injEq]
  simp only [encC, hdr, fP, fD, fA, fLook, FmtC.mk.injEq, and_true]
  refine ⟨?_, ?_, ?_, ?_⟩ <;> apply Fin.ext <;> simp only [Fin.ofNat] <;> omega

theorem encJ_op {op : Nat} (f : FmtJ) : encJ op f / 0x1000000 = op := by
  have := f.p.isLt; have := f.disp.isLt
  simp only [encJ, hdr]
  omega

theorem fmtJ_encJ {op : Nat} (f : FmtJ) : fmtJ (encJ op f) = f := by
  obtain ⟨p, i⟩ := f
  have := p.isLt; have := i.isLt
  simp only [fmtJ, encJ, hdr, fP, FmtJ.mk.injEq]
  constructor
  · apply Fin.ext; simp only [Fin.ofNat]; omega
  · apply BitVec.eq_of_toNat_eq; simp only [BitVec.toNat_ofNat]; omega

theorem encM_op {op low : Nat} (k : low < 16) (f : FmtM) : encM op f low / 0x1000000 = op := by
  have := f.p.isLt; have := f.acc.isLt; have := f.a.isLt; have := f.b.isLt
  simp only [encM, hdr]
  omega

theorem encM_low {op low : Nat} (k : low < 16) (f : FmtM) : encM op f low % 16 = low := by
  simp only [encM, hdr]
  omega

theorem fmtM_encM {op low : Nat} (k : low < 16) (f : FmtM) : fmtM (encM op f low) = some f := by
  obtain ⟨p, acc, a, b⟩ := f
  have := p.isLt; have := acc.isLt; have := a.isLt; have := b.isLt
  have e : n16 (encM op ⟨p, acc, a, b⟩ low) = acc.val := by
    simp only [encM, hdr, n16]
    omega
  rw [fmtM, e, fin4Of_val, Option.map_some, Option.some.injEq]
  simp only [encM, hdr, fP, fA10, fB4, FmtM.mk.injEq, true_and]
  refine ⟨?_, ?_, ?_⟩ <;> apply Fin.ext <;> simp only [Fin.ofNat] <;> omega

theorem encP_op {op cc : Nat} (k : cc < 16) (f : FmtP) : encP op f cc / 0x1000000 = op := by
  have := f.p.isLt; have := f.pd.isLt; have := f.a.isLt; have := f.b.isLt
  simp only [encP, hdr]
  omega

theorem encP_low {op cc : Nat} (k : cc < 16) (f : FmtP) : encP op f cc % 16 = cc := by
  simp only [encP, hdr]
  omega

theorem fmtP_encP {op cc : Nat} (k : cc < 16) (f : FmtP) : fmtP (encP op f cc) = f := by
  obtain ⟨p, pd, a, b⟩ := f
  have := p.isLt; have := pd.isLt; have := a.isLt; have := b.isLt
  simp only [fmtP, encP, hdr, fP, f16, fA10, fB4, FmtP.mk.injEq]
  refine ⟨?_, ?_, ?_, ?_⟩ <;> apply Fin.ext <;> simp only [Fin.ofNat] <;> omega

end Sys2Proof
end

