-- ==== Sys2Proof/Laws/PerInstr.lean ====
section
/-! SUPPORT. Per instruction: its words, as the encoder gives them, are 32-bit words; an event has none. -/

namespace Sys2Proof.Laws.Encoding

/-- The word and the extension word of `i` fit 32 bits. -/
def Statement (i : Instr) : Prop := encodeWord i < 2 ^ 32 ∧ (encodeExt i).getD 0 < 2 ^ 32

theorem nop (p : Pred) : Statement (.nop p) :=
  ⟨by have := p.isLt; delta encodeWord; dsimp only [hdr]; omega,
   Nat.zero_lt_succ _⟩
theorem hint (o : Fin 8) (z : BitVec 24) : Statement (.hint o z) :=
  ⟨by have := o.isLt; have := z.isLt; delta encodeWord; dsimp only; omega,
   Nat.zero_lt_succ _⟩
theorem add (f : FmtA) (m : SatMode) : Statement (.add f m) :=
  ⟨encA_lt (by decide) (by have := m.code_lt; omega) _,
   Nat.zero_lt_succ _⟩
theorem sub (f : FmtA) (m : SatMode) : Statement (.sub f m) :=
  ⟨encA_lt (by decide) (by have := m.code_lt; omega) _,
   Nat.zero_lt_succ _⟩
theorem mul (f : FmtA) : Statement (.mul f) :=
  ⟨encA_lt (by decide) (by omega) _,
   Nat.zero_lt_succ _⟩
theorem mulh (f : FmtA) (m : Sgn) : Statement (.mulh f m) :=
  ⟨encA_lt (by decide) (by have := m.code_lt; omega) _,
   Nat.zero_lt_succ _⟩
theorem mad (f : FmtA) (c : Reg) : Statement (.mad f c) :=
  ⟨encA_lt (by decide) (by have := c.isLt; omega) _,
   by have := c.isLt; exact encodeExt_lt rfl (by omega) (by omega) (by omega) (by omega)⟩
theorem div (f : FmtA) (m : Sgn) : Statement (.div f m) :=
  ⟨encA_lt (by decide) (by have := m.code_lt; omega) _,
   Nat.zero_lt_succ _⟩
theorem rem (f : FmtA) (m : Sgn) : Statement (.rem f m) :=
  ⟨encA_lt (by decide) (by have := m.code_lt; omega) _,
   Nat.zero_lt_succ _⟩
theorem min (f : FmtA) (m : Sgn) : Statement (.min f m) :=
  ⟨encA_lt (by decide) (by have := m.code_lt; omega) _,
   Nat.zero_lt_succ _⟩
theorem max (f : FmtA) (m : Sgn) : Statement (.max f m) :=
  ⟨encA_lt (by decide) (by have := m.code_lt; omega) _,
   Nat.zero_lt_succ _⟩
theorem abs (f : FmtU) (sat : Bool) : Statement (.abs f sat) :=
  ⟨encU_lt (by decide) (by have := b1_lt sat; omega) (by have := b1_lt sat; omega) _,
   Nat.zero_lt_succ _⟩
theorem neg (f : FmtU) (sat : Bool) : Statement (.neg f sat) :=
  ⟨encU_lt (by decide) (by have := b1_lt sat; omega) (by have := b1_lt sat; omega) _,
   Nat.zero_lt_succ _⟩
theorem and (f : FmtA) : Statement (.and f) :=
  ⟨encA_lt (by decide) (by omega) _,
   Nat.zero_lt_succ _⟩
theorem or (f : FmtA) : Statement (.or f) :=
  ⟨encA_lt (by decide) (by omega) _,
   Nat.zero_lt_succ _⟩
theorem xor (f : FmtA) : Statement (.xor f) :=
  ⟨encA_lt (by decide) (by omega) _,
   Nat.zero_lt_succ _⟩
theorem andn (f : FmtA) : Statement (.andn f) :=
  ⟨encA_lt (by decide) (by omega) _,
   Nat.zero_lt_succ _⟩
theorem not (f : FmtU) : Statement (.not f) :=
  ⟨encU_lt (by decide) (by omega) (by omega) _,
   Nat.zero_lt_succ _⟩
theorem shl (f : FmtA) : Statement (.shl f) :=
  ⟨encA_lt (by decide) (by omega) _,
   Nat.zero_lt_succ _⟩
theorem shr (f : FmtA) : Statement (.shr f) :=
  ⟨encA_lt (by decide) (by omega) _,
   Nat.zero_lt_succ _⟩
theorem sar (f : FmtA) : Statement (.sar f) :=
  ⟨encA_lt (by decide) (by omega) _,
   Nat.zero_lt_succ _⟩
theorem rot (f : FmtA) (right : Bool) : Statement (.rot f right) :=
  ⟨encA_lt (by decide) (by have := b1_lt right; omega) _,
   Nat.zero_lt_succ _⟩
theorem bfx (f : FmtA) (m : Sgn) : Statement (.bfx f m) :=
  ⟨encA_lt (by decide) (by cases m <;> decide) _,
   Nat.zero_lt_succ _⟩
theorem bfi (f : FmtA) : Statement (.bfi f) :=
  ⟨encA_lt (by decide) (by omega) _,
   Nat.zero_lt_succ _⟩
theorem clz (f : FmtU) : Statement (.clz f) :=
  ⟨encU_lt (by decide) (by omega) (by omega) _,
   Nat.zero_lt_succ _⟩
theorem popc (f : FmtU) : Statement (.popc f) :=
  ⟨encU_lt (by decide) (by omega) (by omega) _,
   Nat.zero_lt_succ _⟩
theorem brev (f : FmtU) : Statement (.brev f) :=
  ⟨encU_lt (by decide) (by omega) (by omega) _,
   Nat.zero_lt_succ _⟩
theorem sel (f : FmtA) (wide : Bool) (sp : Pred) : Statement (.sel f wide sp) :=
  ⟨encA_lt (by decide) (by have := b1_lt wide; have := sp.isLt; omega) _,
   by have := b1_lt wide; have := sp.isLt; exact encodeExt_lt rfl (by omega) (by omega) (by omega) (by omega)⟩
theorem mov (f : FmtU) : Statement (.mov f) :=
  ⟨encU_lt (by decide) (by omega) (by omega) _,
   Nat.zero_lt_succ _⟩
theorem lea (f : FmtA) (k : Fin 4) : Statement (.lea f k) :=
  ⟨encA_lt (by decide) (by have := k.isLt; omega) _,
   Nat.zero_lt_succ _⟩
theorem add64 (f : FmtA) : Statement (.add64 f) :=
  ⟨encA_lt (by decide) (by omega) _,
   Nat.zero_lt_succ _⟩
theorem sub64 (f : FmtA) : Statement (.sub64 f) :=
  ⟨encA_lt (by decide) (by omega) _,
   Nat.zero_lt_succ _⟩
theorem lea64 (f : FmtA) (k : Fin 4) : Statement (.lea64 f k) :=
  ⟨encA_lt (by decide) (by have := k.isLt; omega) _,
   Nat.zero_lt_succ _⟩
theorem mov64 (f : FmtU) : Statement (.mov64 f) :=
  ⟨encU_lt (by decide) (by omega) (by omega) _,
   Nat.zero_lt_succ _⟩
theorem movi (p : Pred) (d : Reg) (k : MoviKind) (lit : Word) : Statement (.movi p d k lit) :=
  ⟨by have := p.isLt; have := d.isLt; have := k.code_lt; have := lit.isLt; delta encodeWord; dsimp only [hdr]; omega,
   lit.isLt⟩
theorem addImm (f : FmtB) : Statement (.addImm f) :=
  ⟨encB_lt (by decide) _,
   Nat.zero_lt_succ _⟩
theorem andImm (f : FmtB) : Statement (.andImm f) :=
  ⟨encB_lt (by decide) _,
   Nat.zero_lt_succ _⟩
theorem orImm (f : FmtB) : Statement (.orImm f) :=
  ⟨encB_lt (by decide) _,
   Nat.zero_lt_succ _⟩
theorem xorImm (f : FmtB) : Statement (.xorImm f) :=
  ⟨encB_lt (by decide) _,
   Nat.zero_lt_succ _⟩
theorem shlImm (f : FmtB) : Statement (.shlImm f) :=
  ⟨encB_lt (by decide) _,
   Nat.zero_lt_succ _⟩
theorem shrImm (f : FmtB) : Statement (.shrImm f) :=
  ⟨encB_lt (by decide) _,
   Nat.zero_lt_succ _⟩
theorem sarImm (f : FmtB) : Statement (.sarImm f) :=
  ⟨encB_lt (by decide) _,
   Nat.zero_lt_succ _⟩
theorem icmp (f : FmtP) (cc : Cond) : Statement (.icmp f cc) :=
  ⟨encP_lt (by decide) (by have := cc.code_lt; omega) _,
   Nat.zero_lt_succ _⟩
theorem icmp64 (f : FmtP) (cc : Cond) : Statement (.icmp64 f cc) :=
  ⟨encP_lt (by decide) (by have := cc.code_lt; omega) _,
   Nat.zero_lt_succ _⟩
theorem icmpImm (p : Pred) (pd : Pred) (a : Reg) (i : BitVec 6) (cc : Cond) : Statement (.icmpImm p pd a i cc) :=
  ⟨by have := p.isLt; have := pd.isLt; have := a.isLt; have := i.isLt; have := cc.code_lt; delta encodeWord; dsimp only [hdr]; omega,
   Nat.zero_lt_succ _⟩
theorem pand (f : FmtQ) : Statement (.pand f) :=
  ⟨encQ_lt (by decide) _,
   Nat.zero_lt_succ _⟩
theorem por (f : FmtQ) : Statement (.por f) :=
  ⟨encQ_lt (by decide) _,
   Nat.zero_lt_succ _⟩
theorem pxor (f : FmtQ) : Statement (.pxor f) :=
  ⟨encQ_lt (by decide) _,
   Nat.zero_lt_succ _⟩
theorem pnot (p : Pred) (pd : Pred) (pa : Pred) (na : Bool) : Statement (.pnot p pd pa na) :=
  ⟨by have := p.isLt; have := pd.isLt; have := pa.isLt; have := b1_lt na; delta encodeWord; dsimp only [hdr]; omega,
   Nat.zero_lt_succ _⟩
theorem pmov (p : Pred) (pd : Pred) (pa : Pred) (na : Bool) : Statement (.pmov p pd pa na) :=
  ⟨by have := p.isLt; have := pd.isLt; have := pa.isLt; have := b1_lt na; delta encodeWord; dsimp only [hdr]; omega,
   Nat.zero_lt_succ _⟩
theorem bra (f : FmtJ) : Statement (.bra f) :=
  ⟨encJ_lt (by decide) _,
   Nat.zero_lt_succ _⟩
theorem brm (f : FmtJ) : Statement (.brm f) :=
  ⟨encJ_lt (by decide) _,
   Nat.zero_lt_succ _⟩
theorem jmp (p : Pred) (a : Reg) : Statement (.jmp p a) :=
  ⟨by have := p.isLt; have := a.isLt; delta encodeWord; dsimp only [hdr]; omega,
   Nat.zero_lt_succ _⟩
theorem call (f : FmtJ) : Statement (.call f) :=
  ⟨encJ_lt (by decide) _,
   Nat.zero_lt_succ _⟩
theorem callr (p : Pred) (a : Reg) : Statement (.callr p a) :=
  ⟨by have := p.isLt; have := a.isLt; delta encodeWord; dsimp only [hdr]; omega,
   Nat.zero_lt_succ _⟩
theorem ret (p : Pred) : Statement (.ret p) :=
  ⟨by have := p.isLt; delta encodeWord; dsimp only [hdr]; omega,
   Nat.zero_lt_succ _⟩
theorem exit (p : Pred) : Statement (.exit p) :=
  ⟨by have := p.isLt; delta encodeWord; dsimp only [hdr]; omega,
   Nat.zero_lt_succ _⟩
theorem loop (p : Pred) (lv : Fin 3) (cnt : LoopCount) (len : Fin 256) : Statement (.loop p lv cnt len) :=
  ⟨by have := p.isLt; have := lv.isLt; have := len.isLt; cases cnt with | reg a => (have := a.isLt; delta encodeWord; dsimp only [hdr]; omega) | lit v => (delta encodeWord; dsimp only [hdr]; omega),
   by cases cnt with | reg a => exact Nat.zero_lt_succ _ | lit v => exact v.isLt⟩
theorem lexit (p : Pred) (lv : Fin 3) : Statement (.lexit p lv) :=
  ⟨by have := p.isLt; have := lv.isLt; delta encodeWord; dsimp only [hdr]; omega,
   Nat.zero_lt_succ _⟩
theorem rpt (p : Pred) (n : Fin 64) (sd : Fin 8) (sa : Fin 8) (sb : Fin 8) : Statement (.rpt p n sd sa sb) :=
  ⟨by have := p.isLt; have := n.isLt; have := sd.isLt; have := sa.isLt; have := sb.isLt; delta encodeWord; dsimp only [hdr]; omega,
   Nat.zero_lt_succ _⟩
theorem wait (p : Pred) (mask : BitVec 6) : Statement (.wait p mask) :=
  ⟨by have := p.isLt; have := mask.isLt; delta encodeWord; dsimp only [hdr]; omega,
   Nat.zero_lt_succ _⟩
theorem yld (p : Pred) : Statement (.yld p) :=
  ⟨by have := p.isLt; delta encodeWord; dsimp only [hdr]; omega,
   Nat.zero_lt_succ _⟩
theorem brk (p : Pred) (code : BitVec 8) : Statement (.brk p code) :=
  ⟨by have := p.isLt; have := code.isLt; delta encodeWord; dsimp only [hdr]; omega,
   Nat.zero_lt_succ _⟩
theorem trap (p : Pred) (code : BitVec 8) : Statement (.trap p code) :=
  ⟨by have := p.isLt; have := code.isLt; delta encodeWord; dsimp only [hdr]; omega,
   Nat.zero_lt_succ _⟩
theorem crd (p : Pred) (d : Reg) (n : BitVec 8) : Statement (.crd p d n) :=
  ⟨by have := p.isLt; have := d.isLt; have := n.isLt; delta encodeWord; dsimp only [hdr]; omega,
   Nat.zero_lt_succ _⟩
theorem cwr (p : Pred) (a : Reg) (n : BitVec 8) : Statement (.cwr p a n) :=
  ⟨by have := p.isLt; have := a.isLt; have := n.isLt; delta encodeWord; dsimp only [hdr]; omega,
   Nat.zero_lt_succ _⟩
theorem cmt (p : Pred) : Statement (.cmt p) :=
  ⟨by have := p.isLt; delta encodeWord; dsimp only [hdr]; omega,
   Nat.zero_lt_succ _⟩
theorem tret (p : Pred) : Statement (.tret p) :=
  ⟨by have := p.isLt; delta encodeWord; dsimp only [hdr]; omega,
   Nat.zero_lt_succ _⟩
theorem spec (p : Pred) (lvl : Fin 3) (fix : Bool) (clr : Bool) : Statement (.spec p lvl fix clr) :=
  ⟨by have := p.isLt; have := lvl.isLt; have := b1_lt fix; have := b1_lt clr; delta encodeWord; dsimp only [hdr]; omega,
   Nat.zero_lt_succ _⟩
theorem fadd (f : FmtA) (m : RmSel) : Statement (.fadd f m) :=
  ⟨encA_lt (by decide) (by have := m.code_lt; omega) _,
   Nat.zero_lt_succ _⟩
theorem fsub (f : FmtA) (m : RmSel) : Statement (.fsub f m) :=
  ⟨encA_lt (by decide) (by have := m.code_lt; omega) _,
   Nat.zero_lt_succ _⟩
theorem fmul (f : FmtA) (m : RmSel) : Statement (.fmul f m) :=
  ⟨encA_lt (by decide) (by have := m.code_lt; omega) _,
   Nat.zero_lt_succ _⟩
theorem ffma (f : FmtA) (c : Reg) (m : RmSel) : Statement (.ffma f c m) :=
  ⟨encA_lt (by decide) (by have := c.isLt; have := m.code_lt; omega) _,
   by have := c.isLt; have := m.code_lt; exact encodeExt_lt rfl (by omega) (by omega) (by omega) (by omega)⟩
theorem fmin (f : FmtA) : Statement (.fmin f) :=
  ⟨encA_lt (by decide) (by omega) _,
   Nat.zero_lt_succ _⟩
theorem fmax (f : FmtA) : Statement (.fmax f) :=
  ⟨encA_lt (by decide) (by omega) _,
   Nat.zero_lt_succ _⟩
theorem fabs (f : FmtU) (x2 : Bool) : Statement (.fabs f x2) :=
  ⟨encU_lt (by decide) (by have := b1_lt x2; omega) (by have := b1_lt x2; omega) _,
   Nat.zero_lt_succ _⟩
theorem fneg (f : FmtU) (x2 : Bool) : Statement (.fneg f x2) :=
  ⟨encU_lt (by decide) (by have := b1_lt x2; omega) (by have := b1_lt x2; omega) _,
   Nat.zero_lt_succ _⟩
theorem fcls (f : FmtU) (m : ClsFmt) : Statement (.fcls f m) :=
  ⟨encU_lt (by decide) (by have := m.code_lt; omega) (by have := m.code_lt; omega) _,
   Nat.zero_lt_succ _⟩
theorem frnd (f : FmtU) (m : FrndSel) : Statement (.frnd f m) :=
  ⟨encU_lt (by decide) (by have := m.code_lt; omega) (by have := m.code_lt; omega) _,
   Nat.zero_lt_succ _⟩
theorem fcmp (f : FmtP) (cc : FCond) : Statement (.fcmp f cc) :=
  ⟨encP_lt (by decide) (by have := cc.code_lt; omega) _,
   Nat.zero_lt_succ _⟩
theorem fcvt (f : FmtU) (sf : ConvTy) (df : ConvTy) : Statement (.fcvt f sf df) :=
  ⟨by have := f.p.isLt; have := f.d.isLt; have := f.a.isLt; have := sf.code_lt; have := df.code_lt; delta encodeWord; dsimp only [encU, hdr]; omega,
   Nat.zero_lt_succ _⟩
theorem fcvtSat (f : FmtU) (sf : ConvTy) (df : ConvTy) : Statement (.fcvtSat f sf df) :=
  ⟨by have := f.p.isLt; have := f.d.isLt; have := f.a.isLt; have := sf.code_lt; have := df.code_lt; delta encodeWord; dsimp only [encU, hdr]; omega,
   Nat.zero_lt_succ _⟩
theorem hadd2 (f : FmtA) (half : Bool) : Statement (.hadd2 f half) :=
  ⟨encA_lt (by decide) (by have := b1_lt half; omega) _,
   Nat.zero_lt_succ _⟩
theorem hmul2 (f : FmtA) (half : Bool) : Statement (.hmul2 f half) :=
  ⟨encA_lt (by decide) (by have := b1_lt half; omega) _,
   Nat.zero_lt_succ _⟩
theorem hfma2 (f : FmtA) (c : Reg) (half : Bool) : Statement (.hfma2 f c half) :=
  ⟨encA_lt (by decide) (by have := c.isLt; have := b1_lt half; omega) _,
   by have := c.isLt; have := b1_lt half; exact encodeExt_lt rfl (by omega) (by omega) (by omega) (by omega)⟩
theorem pkq (f : FmtU) (fmt : PackFmt) (sat : Bool) (dth : Bool) : Statement (.pkq f fmt sat dth) :=
  ⟨encU_lt (by decide) (by have := fmt.code_lt; have := b1_lt sat; have := b1_lt dth; omega) (by have := fmt.code_lt; have := b1_lt sat; have := b1_lt dth; omega) _,
   Nat.zero_lt_succ _⟩
theorem upk (f : FmtU) (fmt : PackFmt) : Statement (.upk f fmt) :=
  ⟨encU_lt (by decide) (by have := fmt.code_lt; omega) (by have := fmt.code_lt; omega) _,
   Nat.zero_lt_succ _⟩
theorem qblk (f : FmtU) (fmt : MxFmt) (bsel : Fin 4) (dth : Bool) (e : Reg) (mask : Reg) : Statement (.qblk f fmt bsel dth e mask) :=
  ⟨encU_lt (by decide) (by have := fmt.code_lt; have := bsel.isLt; have := b1_lt dth; have := e.isLt; have := mask.isLt; omega) (by have := fmt.code_lt; have := bsel.isLt; have := b1_lt dth; have := e.isLt; have := mask.isLt; omega) _,
   by have := fmt.code_lt; have := bsel.isLt; have := b1_lt dth; have := e.isLt; have := mask.isLt; exact encodeExt_lt rfl (by omega) (by omega) (by omega) (by omega)⟩
theorem dqblk (f : FmtU) (fmt : MxFmt) (bsel : Fin 4) (e : Reg) (mask : Reg) : Statement (.dqblk f fmt bsel e mask) :=
  ⟨encU_lt (by decide) (by have := fmt.code_lt; have := bsel.isLt; have := e.isLt; have := mask.isLt; omega) (by have := fmt.code_lt; have := bsel.isLt; have := e.isLt; have := mask.isLt; omega) _,
   by have := fmt.code_lt; have := bsel.isLt; have := e.isLt; have := mask.isLt; exact encodeExt_lt rfl (by omega) (by omega) (by omega) (by omega)⟩
theorem rcp (f : FmtC) : Statement (.rcp f) :=
  ⟨encC_lt (by decide) (by decide) _,
   Nat.zero_lt_succ _⟩
theorem rsq (f : FmtC) : Statement (.rsq f) :=
  ⟨encC_lt (by decide) (by decide) _,
   Nat.zero_lt_succ _⟩
theorem sqrt (f : FmtC) : Statement (.sqrt f) :=
  ⟨encC_lt (by decide) (by decide) _,
   Nat.zero_lt_succ _⟩
theorem ex2 (f : FmtC) : Statement (.ex2 f) :=
  ⟨encC_lt (by decide) (by decide) _,
   Nat.zero_lt_succ _⟩
theorem lg2 (f : FmtC) : Statement (.lg2 f) :=
  ⟨encC_lt (by decide) (by decide) _,
   Nat.zero_lt_succ _⟩
theorem sinpi (f : FmtC) : Statement (.sinpi f) :=
  ⟨encC_lt (by decide) (by decide) _,
   Nat.zero_lt_succ _⟩
theorem cospi (f : FmtC) : Statement (.cospi f) :=
  ⟨encC_lt (by decide) (by decide) _,
   Nat.zero_lt_succ _⟩
theorem tanh (f : FmtC) : Statement (.tanh f) :=
  ⟨encC_lt (by decide) (by decide) _,
   Nat.zero_lt_succ _⟩
theorem sigm (f : FmtC) : Statement (.sigm f) :=
  ⟨encC_lt (by decide) (by decide) _,
   Nat.zero_lt_succ _⟩
theorem gelu (f : FmtC) : Statement (.gelu f) :=
  ⟨encC_lt (by decide) (by decide) _,
   Nat.zero_lt_succ _⟩
theorem silu (f : FmtC) : Statement (.silu f) :=
  ⟨encC_lt (by decide) (by decide) _,
   Nat.zero_lt_succ _⟩
theorem erf (f : FmtC) : Statement (.erf f) :=
  ⟨encC_lt (by decide) (by decide) _,
   Nat.zero_lt_succ _⟩
theorem ldN8 (f : FmtC) (x : Option XM) : Statement (.ldN8 f x) :=
  ⟨encC_lt (by decide) (xBit_lt _) _,
   encXM_lt _⟩
theorem ldS8 (f : FmtC) (x : Option XM) : Statement (.ldS8 f x) :=
  ⟨encC_lt (by decide) (xBit_lt _) _,
   encXM_lt _⟩
theorem ldN16 (f : FmtC) (x : Option XM) : Statement (.ldN16 f x) :=
  ⟨encC_lt (by decide) (xBit_lt _) _,
   encXM_lt _⟩
theorem ldS16 (f : FmtC) (x : Option XM) : Statement (.ldS16 f x) :=
  ⟨encC_lt (by decide) (xBit_lt _) _,
   encXM_lt _⟩
theorem ldB32 (f : FmtC) (x : Option XM) : Statement (.ldB32 f x) :=
  ⟨encC_lt (by decide) (xBit_lt _) _,
   encXM_lt _⟩
theorem ldB64 (f : FmtC) (x : Option XM) : Statement (.ldB64 f x) :=
  ⟨encC_lt (by decide) (xBit_lt _) _,
   encXM_lt _⟩
theorem ldB128 (f : FmtC) (x : Option XM) : Statement (.ldB128 f x) :=
  ⟨encC_lt (by decide) (xBit_lt _) _,
   encXM_lt _⟩
theorem stB8 (f : FmtC) (x : Option XM) : Statement (.stB8 f x) :=
  ⟨encC_lt (by decide) (xBit_lt _) _,
   encXM_lt _⟩
theorem stB16 (f : FmtC) (x : Option XM) : Statement (.stB16 f x) :=
  ⟨encC_lt (by decide) (xBit_lt _) _,
   encXM_lt _⟩
theorem stB32 (f : FmtC) (x : Option XM) : Statement (.stB32 f x) :=
  ⟨encC_lt (by decide) (xBit_lt _) _,
   encXM_lt _⟩
theorem stB64 (f : FmtC) (x : Option XM) : Statement (.stB64 f x) :=
  ⟨encC_lt (by decide) (xBit_lt _) _,
   encXM_lt _⟩
theorem stB128 (f : FmtC) (x : Option XM) : Statement (.stB128 f x) :=
  ⟨encC_lt (by decide) (xBit_lt _) _,
   encXM_lt _⟩
theorem atomAdd (f : AtomF) (t : IntTy) : Statement (.atomAdd f t) :=
  ⟨encC_lt (by decide) (by decide) _,
   by have := f.c.isLt; have := f.off.isLt; have := t.code_lt; exact encodeExt_lt rfl (by omega) (by omega) (by omega) (by omega)⟩
theorem atomMin (f : AtomF) (t : IntTy) : Statement (.atomMin f t) :=
  ⟨encC_lt (by decide) (by decide) _,
   by have := f.c.isLt; have := f.off.isLt; have := t.code_lt; exact encodeExt_lt rfl (by omega) (by omega) (by omega) (by omega)⟩
theorem atomMax (f : AtomF) (t : IntTy) : Statement (.atomMax f t) :=
  ⟨encC_lt (by decide) (by decide) _,
   by have := f.c.isLt; have := f.off.isLt; have := t.code_lt; exact encodeExt_lt rfl (by omega) (by omega) (by omega) (by omega)⟩
theorem atomAnd (f : AtomF) (t : RawTy) : Statement (.atomAnd f t) :=
  ⟨encC_lt (by decide) (by decide) _,
   by have := f.c.isLt; have := f.off.isLt; have := t.code_lt; exact encodeExt_lt rfl (by omega) (by omega) (by omega) (by omega)⟩
theorem atomOr (f : AtomF) (t : RawTy) : Statement (.atomOr f t) :=
  ⟨encC_lt (by decide) (by decide) _,
   by have := f.c.isLt; have := f.off.isLt; have := t.code_lt; exact encodeExt_lt rfl (by omega) (by omega) (by omega) (by omega)⟩
theorem atomXor (f : AtomF) (t : RawTy) : Statement (.atomXor f t) :=
  ⟨encC_lt (by decide) (by decide) _,
   by have := f.c.isLt; have := f.off.isLt; have := t.code_lt; exact encodeExt_lt rfl (by omega) (by omega) (by omega) (by omega)⟩
theorem atomExch (f : AtomF) (t : RawTy) : Statement (.atomExch f t) :=
  ⟨encC_lt (by decide) (by decide) _,
   by have := f.c.isLt; have := f.off.isLt; have := t.code_lt; exact encodeExt_lt rfl (by omega) (by omega) (by omega) (by omega)⟩
theorem atomCas (f : AtomF) (e : Reg) (t : RawTy) : Statement (.atomCas f e t) :=
  ⟨encC_lt (by decide) (by decide) _,
   by have := f.c.isLt; have := f.off.isLt; have := e.isLt; have := t.code_lt; exact encodeExt_lt rfl (by omega) (by omega) (by omega) (by omega)⟩
theorem atomFadd (f : AtomF) (t : FloatTy) : Statement (.atomFadd f t) :=
  ⟨encC_lt (by decide) (by decide) _,
   by have := f.c.isLt; have := f.off.isLt; have := t.code_lt; exact encodeExt_lt rfl (by omega) (by omega) (by omega) (by omega)⟩
theorem red (p : Pred) (op : RedOp) (len : Fin 3) (a : Reg) (look : Fin 16) (dc : Fin 7) (c : Reg) (t : FloatTy) (off : BitVec 16) : Statement (.red p op len a look dc c t off) :=
  ⟨encC'_lt (by decide) (by have := p.isLt; have := op.code_lt; have := len.isLt; have := a.isLt; have := look.isLt; have := dc.isLt; have := c.isLt; have := t.code_lt; have := off.isLt; omega) (by decide) _ _ _ _,
   by have := p.isLt; have := op.code_lt; have := len.isLt; have := a.isLt; have := look.isLt; have := dc.isLt; have := c.isLt; have := t.code_lt; have := off.isLt; exact encodeExt_lt rfl (by omega) (by omega) (by omega) (by omega)⟩
theorem shfl (f : FmtA) (m : ShflMode) (t : RawTy) (mask : Reg) : Statement (.shfl f m t mask) :=
  ⟨encA_lt (by decide) (by have := m.code_lt; have := t.code_lt; have := mask.isLt; omega) _,
   by have := m.code_lt; have := t.code_lt; have := mask.isLt; exact encodeExt_lt rfl (by omega) (by omega) (by omega) (by omega)⟩
theorem vote (f : FmtU) (m : VoteMode) (mask : Reg) : Statement (.vote f m mask) :=
  ⟨encU_lt (by decide) (by have := m.code_lt; have := mask.isLt; omega) (by have := m.code_lt; have := mask.isLt; omega) _,
   by have := m.code_lt; have := mask.isLt; exact encodeExt_lt rfl (by omega) (by omega) (by omega) (by omega)⟩
theorem gred (f : FmtU) (op : GOp) (mask : Reg) : Statement (.gred f op mask) :=
  ⟨encU_lt (by decide) (by have := op.code_lt; have := op.ty_lt; have := mask.isLt; omega) (by have := op.code_lt; have := op.ty_lt; have := mask.isLt; omega) _,
   by have := op.code_lt; have := op.ty_lt; have := mask.isLt; exact encodeExt_lt rfl (by omega) (by omega) (by omega) (by omega)⟩
theorem gscan (f : FmtU) (op : GOp) (excl : Bool) (mask : Reg) : Statement (.gscan f op excl mask) :=
  ⟨encU_lt (by decide) (by have := op.code_lt; have := op.ty_lt; have := b1_lt excl; have := mask.isLt; omega) (by have := op.code_lt; have := op.ty_lt; have := b1_lt excl; have := mask.isLt; omega) _,
   by have := op.code_lt; have := op.ty_lt; have := b1_lt excl; have := mask.isLt; exact encodeExt_lt rfl (by omega) (by omega) (by omega) (by omega)⟩
theorem gsync (p : Pred) (mask : Reg) : Statement (.gsync p mask) :=
  ⟨by have := p.isLt; have := mask.isLt; delta encodeWord; dsimp only [hdr]; omega,
   by have := p.isLt; have := mask.isLt; exact encodeExt_lt rfl (by omega) (by omega) (by omega) (by omega)⟩
theorem tbar (p : Pred) (a : Reg) (n : Fin 16) (arrive : Bool) : Statement (.tbar p a n arrive) :=
  ⟨by have := p.isLt; have := a.isLt; have := n.isLt; have := b1_lt arrive; delta encodeWord; dsimp only [hdr]; omega,
   Nat.zero_lt_succ _⟩
theorem cbar (p : Pred) (a : Reg) (n : Fin 4) (arrive : Bool) : Statement (.cbar p a n arrive) :=
  ⟨by have := p.isLt; have := a.isLt; have := n.isLt; have := b1_lt arrive; delta encodeWord; dsimp only [hdr]; omega,
   Nat.zero_lt_succ _⟩
theorem tqPush (f : FmtC) (c : Reg) : Statement (.tqPush f c) :=
  ⟨encC_lt (by decide) (by decide) _,
   by have := c.isLt; exact encodeExt_lt rfl (by omega) (by omega) (by omega) (by omega)⟩
theorem tqPop (p : Pred) (d : Reg) (look : Fin 16) (dc : Fin 7) (c : Reg) : Statement (.tqPop p d look dc c) :=
  ⟨encC'_lt (by decide) (by have := p.isLt; have := d.isLt; have := look.isLt; have := dc.isLt; have := c.isLt; omega) (by decide) _ _ _ _,
   by have := p.isLt; have := d.isLt; have := look.isLt; have := dc.isLt; have := c.isLt; exact encodeExt_lt rfl (by omega) (by omega) (by omega) (by omega)⟩
theorem tqSteal (f : FmtC) (c : Reg) : Statement (.tqSteal f c) :=
  ⟨encC_lt (by decide) (by decide) _,
   by have := c.isLt; exact encodeExt_lt rfl (by omega) (by omega) (by omega) (by omega)⟩
theorem mmaBf16 (f : FmtM) (va : Bool) (z : Bool) : Statement (.mmaBf16 f va z) :=
  ⟨encM_lt (by decide) (by have := b1_lt va; have := b1_lt z; omega) _,
   Nat.zero_lt_succ _⟩
theorem mmaF16 (f : FmtM) (va : Bool) (z : Bool) : Statement (.mmaF16 f va z) :=
  ⟨encM_lt (by decide) (by have := b1_lt va; have := b1_lt z; omega) _,
   Nat.zero_lt_succ _⟩
theorem mmaE4m3 (f : FmtM) (va : Bool) (z : Bool) : Statement (.mmaE4m3 f va z) :=
  ⟨encM_lt (by decide) (by have := b1_lt va; have := b1_lt z; omega) _,
   Nat.zero_lt_succ _⟩
theorem mmaE5m2 (f : FmtM) (va : Bool) (z : Bool) : Statement (.mmaE5m2 f va z) :=
  ⟨encM_lt (by decide) (by have := b1_lt va; have := b1_lt z; omega) _,
   Nat.zero_lt_succ _⟩
theorem mmaT8 (f : FmtM) (va : Bool) (z : Bool) : Statement (.mmaT8 f va z) :=
  ⟨encM_lt (by decide) (by have := b1_lt va; have := b1_lt z; omega) _,
   Nat.zero_lt_succ _⟩
theorem mmaT6 (f : FmtM) (z : Bool) : Statement (.mmaT6 f z) :=
  ⟨encM_lt (by decide) (by have := b1_lt z; omega) _,
   Nat.zero_lt_succ _⟩
theorem mmaMx8 (f : FmtM) (bsel : Fin 4) (z : Bool) : Statement (.mmaMx8 f bsel z) :=
  ⟨encM_lt (by decide) (by have := bsel.isLt; have := b1_lt z; omega) _,
   Nat.zero_lt_succ _⟩
theorem mmaMx6 (f : FmtM) (bsel : Fin 4) (z : Bool) : Statement (.mmaMx6 f bsel z) :=
  ⟨encM_lt (by decide) (by have := bsel.isLt; have := b1_lt z; omega) _,
   Nat.zero_lt_succ _⟩
theorem mmaMx4 (f : FmtM) (bsel : Fin 4) (z : Bool) : Statement (.mmaMx4 f bsel z) :=
  ⟨encM_lt (by decide) (by have := bsel.isLt; have := b1_lt z; omega) _,
   Nat.zero_lt_succ _⟩
theorem mmaI8 (f : FmtM) (va : Bool) (z : Bool) : Statement (.mmaI8 f va z) :=
  ⟨encM_lt (by decide) (by have := b1_lt va; have := b1_lt z; omega) _,
   Nat.zero_lt_succ _⟩
theorem accZero (p : Pred) (acc : Fin 4) : Statement (.accZero p acc) :=
  ⟨by have := p.isLt; have := acc.isLt; delta encodeWord; dsimp only [hdr]; omega,
   Nat.zero_lt_succ _⟩
theorem accLd (p : Pred) (acc : Fin 4) (a : Reg) (look : Fin 16) (dc : Fin 7) (off : Option (BitVec 30)) : Statement (.accLd p acc a look dc off) :=
  ⟨encC'_lt (by decide) (by have := p.isLt; have := acc.isLt; have := a.isLt; have := look.isLt; have := dc.isLt; omega) (xBit_lt _) _ _ _ _,
   encXM0_lt _⟩
theorem accSt (p : Pred) (acc : Fin 4) (rls : Bool) (a : Reg) (look : Fin 16) (dc : Fin 7) (off : Option (BitVec 30)) : Statement (.accSt p acc rls a look dc off) :=
  ⟨encC'_lt (by decide) (by have := p.isLt; have := acc.isLt; have := b1_lt rls; have := a.isLt; have := look.isLt; have := dc.isLt; omega) (xBit_lt _) _ _ _ _,
   encXM0_lt _⟩
theorem accRd (p : Pred) (d : Reg) (acc : Fin 4) (b : Reg) : Statement (.accRd p d acc b) :=
  ⟨by have := p.isLt; have := d.isLt; have := acc.isLt; have := b.isLt; delta encodeWord; dsimp only [hdr]; omega,
   Nat.zero_lt_succ _⟩
theorem accWr (p : Pred) (acc : Fin 4) (a : Reg) (b : Reg) : Statement (.accWr p acc a b) :=
  ⟨by have := p.isLt; have := acc.isLt; have := a.isLt; have := b.isLt; delta encodeWord; dsimp only [hdr]; omega,
   Nat.zero_lt_succ _⟩
theorem accCvt (p : Pred) (acc : Fin 4) (rls : Bool) (a : Reg) (fmt : PackFmt) (s32 : Bool) (sat : Bool) (dth : Bool) : Statement (.accCvt p acc rls a fmt s32 sat dth) :=
  ⟨by have := p.isLt; have := acc.isLt; have := b1_lt rls; have := a.isLt; have := fmt.code_lt; have := b1_lt s32; have := b1_lt sat; have := b1_lt dth; delta encodeWord; dsimp only [hdr]; omega,
   Nat.zero_lt_succ _⟩
theorem xcp (p : Pred) (dth : Bool) (a : Reg) (look : Fin 16) (dc : Fin 7) (off : Option (BitVec 16)) : Statement (.xcp p dth a look dc off) :=
  ⟨encC'_lt (by decide) (by have := p.isLt; have := b1_lt dth; have := a.isLt; have := look.isLt; have := dc.isLt; omega) (xBit_lt _) _ _ _ _,
   encOff_lt _⟩
theorem xcpq (p : Pred) (dth : Bool) (n : Fin 32) (a : Reg) (look : Fin 16) (dc : Fin 7) (off : Option (BitVec 16)) : Statement (.xcpq p dth n a look dc off) :=
  ⟨encC'_lt (by decide) (by have := p.isLt; have := b1_lt dth; have := n.isLt; have := a.isLt; have := look.isLt; have := dc.isLt; omega) (xBit_lt _) _ _ _ _,
   encOff_lt _⟩
theorem barInit (f : FmtC) (off : Option (BitVec 16)) : Statement (.barInit f off) :=
  ⟨encC_lt (by decide) (xBit_lt _) _,
   encOff_lt _⟩
theorem barExp (f : FmtC) (off : Option (BitVec 16)) : Statement (.barExp f off) :=
  ⟨encC_lt (by decide) (xBit_lt _) _,
   encOff_lt _⟩
theorem barArr (f : FmtC) (off : Option (BitVec 16)) : Statement (.barArr f off) :=
  ⟨encC_lt (by decide) (xBit_lt _) _,
   encOff_lt _⟩
theorem barWait (f : FmtC) (x : Option BarXO) : Statement (.barWait f x) :=
  ⟨encC_lt (by decide) (xBit_lt _) _,
   encBarXO_lt _⟩
theorem barTest (f : FmtC) (x : Option BarXO) : Statement (.barTest f x) :=
  ⟨encC_lt (by decide) (xBit_lt _) _,
   encBarXO_lt _⟩
theorem rlq (f : FmtC) (off : Option (BitVec 16)) : Statement (.rlq f off) :=
  ⟨encC_lt (by decide) (xBit_lt _) _,
   encOff_lt _⟩
theorem mcst (f : FmtC) (c : Reg) (t : RawTy) (off : BitVec 16) : Statement (.mcst f c t off) :=
  ⟨encC_lt (by decide) (by decide) _,
   by have := c.isLt; have := t.code_lt; have := off.isLt; exact encodeExt_lt rfl (by omega) (by omega) (by omega) (by omega)⟩
theorem mcldRed (f : FmtC) (c : Reg) (e : Reg) (t : FloatTy) (op : RedOp) : Statement (.mcldRed f c e t op) :=
  ⟨encC_lt (by decide) (by decide) _,
   by have := c.isLt; have := e.isLt; have := t.code_lt; have := op.code_lt; exact encodeExt_lt rfl (by omega) (by omega) (by omega) (by omega)⟩
theorem collArm (f : FmtC) (off : Option (BitVec 16)) : Statement (.collArm f off) :=
  ⟨encC_lt (by decide) (xBit_lt _) _,
   encOff_lt _⟩
theorem collWait (f : FmtC) : Statement (.collWait f) :=
  ⟨encC_lt (by decide) (by decide) _,
   Nat.zero_lt_succ _⟩
theorem shfSide (f : FmtC) (c : Reg) (off : BitVec 16) : Statement (.shfSide f c off) :=
  ⟨encC_lt (by decide) (by decide) _,
   by have := c.isLt; have := off.isLt; exact encodeExt_lt rfl (by omega) (by omega) (by omega) (by omega)⟩
theorem shfPost (f : FmtC) (off : Option (BitVec 16)) : Statement (.shfPost f off) :=
  ⟨encC_lt (by decide) (xBit_lt _) _,
   encOff_lt _⟩
theorem shfWait (f : FmtC) : Statement (.shfWait f) :=
  ⟨encC_lt (by decide) (by decide) _,
   Nat.zero_lt_succ _⟩
theorem unassignedOpcode (w : Word) : Statement (.unassignedOpcode w) :=
  ⟨w.isLt,
   Nat.zero_lt_succ _⟩
theorem ageingIssue (core : Nat) (port : Nat) : Statement (.ageingIssue core port) := ⟨Nat.zero_lt_succ _, Nat.zero_lt_succ _⟩
theorem mergeHoldTimeout (t : Tid) : Statement (.mergeHoldTimeout t) := ⟨Nat.zero_lt_succ _, Nat.zero_lt_succ _⟩
theorem yieldExpiry (t : Tid) : Statement (.yieldExpiry t) := ⟨Nat.zero_lt_succ _, Nat.zero_lt_succ _⟩
theorem rendezvousIssue (t : Tid) : Statement (.rendezvousIssue t) := ⟨Nat.zero_lt_succ _, Nat.zero_lt_succ _⟩
theorem divergenceWaitLimit (t : Tid) : Statement (.divergenceWaitLimit t) := ⟨Nat.zero_lt_succ _, Nat.zero_lt_succ _⟩
theorem loadComplete (t : Tid) : Statement (.loadComplete t) := ⟨Nat.zero_lt_succ _, Nat.zero_lt_succ _⟩
theorem storePerform (t : Tid) : Statement (.storePerform t) := ⟨Nat.zero_lt_succ _, Nat.zero_lt_succ _⟩
theorem atomicPerform (t : Tid) : Statement (.atomicPerform t) := ⟨Nat.zero_lt_succ _, Nat.zero_lt_succ _⟩
theorem instructionCompletion (t : Tid) : Statement (.instructionCompletion t) := ⟨Nat.zero_lt_succ _, Nat.zero_lt_succ _⟩
theorem parkedLoadResume (t : Tid) : Statement (.parkedLoadResume t) := ⟨Nat.zero_lt_succ _, Nat.zero_lt_succ _⟩
theorem conflictNotice (t : Tid) : Statement (.conflictNotice t) := ⟨Nat.zero_lt_succ _, Nat.zero_lt_succ _⟩
theorem ownedWaitExpiry (t : Tid) : Statement (.ownedWaitExpiry t) := ⟨Nat.zero_lt_succ _, Nat.zero_lt_succ _⟩
theorem deferredTrapTaken (t : Tid) : Statement (.deferredTrapTaken t) := ⟨Nat.zero_lt_succ _, Nat.zero_lt_succ _⟩
theorem debugRelease (c : Cid) : Statement (.debugRelease c) := ⟨Nat.zero_lt_succ _, Nat.zero_lt_succ _⟩
theorem pagesPresentReport (c : Cid) (ok : Bool) : Statement (.pagesPresentReport c ok) := ⟨Nat.zero_lt_succ _, Nat.zero_lt_succ _⟩
theorem spillLimitService (c : Cid) (team : Nat) (tid : Nat) (rslim : Option DWord) : Statement (.spillLimitService c team tid rslim) := ⟨Nat.zero_lt_succ _, Nat.zero_lt_succ _⟩
theorem preemptRequest (c : Cid) : Statement (.preemptRequest c) := ⟨Nat.zero_lt_succ _, Nat.zero_lt_succ _⟩
theorem clusterRestore (c : Cid) (cores : List Nat) : Statement (.clusterRestore c cores) := ⟨Nat.zero_lt_succ _, Nat.zero_lt_succ _⟩
theorem clusterPlaceAfresh (c : Cid) (cores : List Nat) : Statement (.clusterPlaceAfresh c cores) := ⟨Nat.zero_lt_succ _, Nat.zero_lt_succ _⟩
theorem launchRecordTake (die : Nat) (queue : Nat) : Statement (.launchRecordTake die queue) := ⟨Nat.zero_lt_succ _, Nat.zero_lt_succ _⟩
theorem clusterClaim (die : Nat) (lid : Nat) (cores : List Nat) : Statement (.clusterClaim die lid cores) := ⟨Nat.zero_lt_succ _, Nat.zero_lt_succ _⟩
theorem clusterRetire (c : Cid) : Statement (.clusterRetire c) := ⟨Nat.zero_lt_succ _, Nat.zero_lt_succ _⟩
theorem launchEnd (v : Word) : Statement (.launchEnd v) := ⟨Nat.zero_lt_succ _, Nat.zero_lt_succ _⟩
theorem scratchpadPageRefill (c : Cid) (slot : Nat) (page : Nat) : Statement (.scratchpadPageRefill c slot page) := ⟨Nat.zero_lt_succ _, Nat.zero_lt_succ _⟩
theorem eccFatalState (c : Cid) (team : Nat) : Statement (.eccFatalState c team) := ⟨Nat.zero_lt_succ _, Nat.zero_lt_succ _⟩
theorem pageWalk (core : Nat) (lid : Nat) (va : Nat) : Statement (.pageWalk core lid va) := ⟨Nat.zero_lt_succ _, Nat.zero_lt_succ _⟩
theorem tlbInvalidate (v : Word) : Statement (.tlbInvalidate v) := ⟨Nat.zero_lt_succ _, Nat.zero_lt_succ _⟩
theorem invalidateComplete : Statement (.invalidateComplete) := ⟨Nat.zero_lt_succ _, Nat.zero_lt_succ _⟩
theorem llcEviction (die : Nat) (pa : Nat) : Statement (.llcEviction die pa) := ⟨Nat.zero_lt_succ _, Nat.zero_lt_succ _⟩
theorem mirrorWriteApply (t : Tid) : Statement (.mirrorWriteApply t) := ⟨Nat.zero_lt_succ _, Nat.zero_lt_succ _⟩
theorem migrationLock (pa : PageMove) (len : Nat) (mir : Bool) : Statement (.migrationLock pa len mir) := ⟨Nat.zero_lt_succ _, Nat.zero_lt_succ _⟩
theorem migrationSwitch (pa : Nat) (newPa : Nat) : Statement (.migrationSwitch pa newPa) := ⟨Nat.zero_lt_succ _, Nat.zero_lt_succ _⟩
theorem copyLaunchPoint (t : Tid) : Statement (.copyLaunchPoint t) := ⟨Nat.zero_lt_succ _, Nat.zero_lt_succ _⟩
theorem copyTransferStep (core : Nat) (pos : Nat) : Statement (.copyTransferStep core pos) := ⟨Nat.zero_lt_succ _, Nat.zero_lt_succ _⟩
theorem engineCountUpdate (core : Nat) (pos : Nat) : Statement (.engineCountUpdate core pos) := ⟨Nat.zero_lt_succ _, Nat.zero_lt_succ _⟩
theorem copyComplete (core : Nat) (pos : Nat) : Statement (.copyComplete core pos) := ⟨Nat.zero_lt_succ _, Nat.zero_lt_succ _⟩
theorem copyLateFail (core : Nat) (pos : Nat) (code : Byte) : Statement (.copyLateFail core pos code) := ⟨Nat.zero_lt_succ _, Nat.zero_lt_succ _⟩
theorem mmaStart (core : Nat) : Statement (.mmaStart core) := ⟨Nat.zero_lt_succ _, Nat.zero_lt_succ _⟩
theorem mmaLastSliceRead (core : Nat) : Statement (.mmaLastSliceRead core) := ⟨Nat.zero_lt_succ _, Nat.zero_lt_succ _⟩
theorem mmaComplete (core : Nat) : Statement (.mmaComplete core) := ⟨Nat.zero_lt_succ _, Nat.zero_lt_succ _⟩
theorem accLdComplete (core : Nat) (op : Nat) : Statement (.accLdComplete core op) := ⟨Nat.zero_lt_succ _, Nat.zero_lt_succ _⟩
theorem accTileReadEnd (core : Nat) (op : Nat) : Statement (.accTileReadEnd core op) := ⟨Nat.zero_lt_succ _, Nat.zero_lt_succ _⟩
theorem accSectorLanded (core : Nat) (op : Nat) : Statement (.accSectorLanded core op) := ⟨Nat.zero_lt_succ _, Nat.zero_lt_succ _⟩
theorem accDrainComplete (core : Nat) (op : Nat) : Statement (.accDrainComplete core op) := ⟨Nat.zero_lt_succ _, Nat.zero_lt_succ _⟩
theorem chainStartTileWait (t : Tid) : Statement (.chainStartTileWait t) := ⟨Nat.zero_lt_succ _, Nat.zero_lt_succ _⟩
theorem keyInstall (id : Nat) : Statement (.keyInstall id) := ⟨Nat.zero_lt_succ _, Nat.zero_lt_succ _⟩
theorem keyDestroy (id : Nat) : Statement (.keyDestroy id) := ⟨Nat.zero_lt_succ _, Nat.zero_lt_succ _⟩
theorem keyDestroyReceipt : Statement (.keyDestroyReceipt) := ⟨Nat.zero_lt_succ _, Nat.zero_lt_succ _⟩
theorem rtoctlWrite (v : Word) : Statement (.rtoctlWrite v) := ⟨Nat.zero_lt_succ _, Nat.zero_lt_succ _⟩
theorem prismbufWrite (v : Word) : Statement (.prismbufWrite v) := ⟨Nat.zero_lt_succ _, Nat.zero_lt_succ _⟩
theorem prismbufApply : Statement (.prismbufApply) := ⟨Nat.zero_lt_succ _, Nat.zero_lt_succ _⟩
theorem pcapWrite (v : Word) : Statement (.pcapWrite v) := ⟨Nat.zero_lt_succ _, Nat.zero_lt_succ _⟩
theorem loupeClear (u : Nat) : Statement (.loupeClear u) := ⟨Nat.zero_lt_succ _, Nat.zero_lt_succ _⟩
theorem loupeSample (u : Nat) (v : Nat) : Statement (.loupeSample u v) := ⟨Nat.zero_lt_succ _, Nat.zero_lt_succ _⟩
theorem controlRegisterWrite (h : Nat) (m : HartMode) (off : Nat) (size : Nat) (v : DWord) : Statement (.controlRegisterWrite h m off size v) := ⟨Nat.zero_lt_succ _, Nat.zero_lt_succ _⟩
theorem hartLoad (h : Nat) (m : HartMode) (pa : Nat) (size : Nat) : Statement (.hartLoad h m pa size) := ⟨Nat.zero_lt_succ _, Nat.zero_lt_succ _⟩
theorem hartStore (h : Nat) (m : HartMode) (pa : Nat) (size : Nat) (v : DWord) : Statement (.hartStore h m pa size v) := ⟨Nat.zero_lt_succ _, Nat.zero_lt_succ _⟩
theorem hartAmo (h : Nat) (m : HartMode) (op : AmoOp) (pa : Nat) (size : Nat) (v : DWord) : Statement (.hartAmo h m op pa size v) := ⟨Nat.zero_lt_succ _, Nat.zero_lt_succ _⟩
theorem coreClockCycle (core : Nat) : Statement (.coreClockCycle core) := ⟨Nat.zero_lt_succ _, Nat.zero_lt_succ _⟩
theorem softError (arr : EccArray) (addr : Nat) (bits : Nat) : Statement (.softError arr addr bits) := ⟨Nat.zero_lt_succ _, Nat.zero_lt_succ _⟩
theorem scrub (pa : Nat) : Statement (.scrub pa) := ⟨Nat.zero_lt_succ _, Nat.zero_lt_succ _⟩
theorem telemetrySample (mw : Word) (t0 : BitVec 16) (t1 : BitVec 16) : Statement (.telemetrySample mw t0 t1) := ⟨Nat.zero_lt_succ _, Nat.zero_lt_succ _⟩
theorem thermalTrip : Statement (.thermalTrip) := ⟨Nat.zero_lt_succ _, Nat.zero_lt_succ _⟩
theorem attestationRequest (nonce : List Byte) : Statement (.attestationRequest nonce) := ⟨Nat.zero_lt_succ _, Nat.zero_lt_succ _⟩
theorem powerGood : Statement (.powerGood) := ⟨Nat.zero_lt_succ _, Nat.zero_lt_succ _⟩
theorem collectiveFire (die : Nat) (slot : Nat) : Statement (.collectiveFire die slot) := ⟨Nat.zero_lt_succ _, Nat.zero_lt_succ _⟩
theorem collectivePartComplete (die : Nat) (slot : Nat) (err : Byte) : Statement (.collectivePartComplete die slot err) := ⟨Nat.zero_lt_succ _, Nat.zero_lt_succ _⟩
theorem shuffleStart (die : Nat) (slot : Nat) : Statement (.shuffleStart die slot) := ⟨Nat.zero_lt_succ _, Nat.zero_lt_succ _⟩
theorem read (f : Flit) : Statement (.read f) := ⟨Nat.zero_lt_succ _, Nat.zero_lt_succ _⟩
theorem write (f : Flit) : Statement (.write f) := ⟨Nat.zero_lt_succ _, Nat.zero_lt_succ _⟩
theorem atomic (f : Flit) : Statement (.atomic f) := ⟨Nat.zero_lt_succ _, Nat.zero_lt_succ _⟩
theorem response (f : Flit) : Statement (.response f) := ⟨Nat.zero_lt_succ _, Nat.zero_lt_succ _⟩
theorem remoteFaultResponse (f : Flit) : Statement (.remoteFaultResponse f) := ⟨Nat.zero_lt_succ _, Nat.zero_lt_succ _⟩
theorem remoteTimeout (serial : Nat) : Statement (.remoteTimeout serial) := ⟨Nat.zero_lt_succ _, Nat.zero_lt_succ _⟩
theorem watchRegister (f : Flit) : Statement (.watchRegister f) := ⟨Nat.zero_lt_succ _, Nat.zero_lt_succ _⟩
theorem watchRelease (f : Flit) : Statement (.watchRelease f) := ⟨Nat.zero_lt_succ _, Nat.zero_lt_succ _⟩
theorem remoteConflictNotice (f : Flit) : Statement (.remoteConflictNotice f) := ⟨Nat.zero_lt_succ _, Nat.zero_lt_succ _⟩
theorem multicastWrite (f : Flit) : Statement (.multicastWrite f) := ⟨Nat.zero_lt_succ _, Nat.zero_lt_succ _⟩
theorem loadAndReduce (f : Flit) : Statement (.loadAndReduce f) := ⟨Nat.zero_lt_succ _, Nat.zero_lt_succ _⟩
theorem collectiveData (die : Nat) (slot : Nat) (member : Nat) (data : List Byte) : Statement (.collectiveData die slot member data) := ⟨Nat.zero_lt_succ _, Nat.zero_lt_succ _⟩
theorem shuffleUnitUncoded (u : UnitTag) (fallback : Bool) (data : List Byte) : Statement (.shuffleUnitUncoded u fallback data) := ⟨Nat.zero_lt_succ _, Nat.zero_lt_succ _⟩
theorem shuffleUnitCoded (u : UnitTag) (v : UnitTag) (cu : Word) (cv : Word) (data : List Byte) : Statement (.shuffleUnitCoded u v cu cv data) := ⟨Nat.zero_lt_succ _, Nat.zero_lt_succ _⟩
theorem sideDeclare (dev : Nat) (inc : Nat) (u : UnitTag) : Statement (.sideDeclare dev inc u) := ⟨Nat.zero_lt_succ _, Nat.zero_lt_succ _⟩
theorem sideEvict (dev : Nat) (u : UnitTag) : Statement (.sideEvict dev u) := ⟨Nat.zero_lt_succ _, Nat.zero_lt_succ _⟩
theorem decodeReserve (u : UnitTag) (v : UnitTag) : Statement (.decodeReserve u v) := ⟨Nat.zero_lt_succ _, Nat.zero_lt_succ _⟩
theorem reserveGrant (u : UnitTag) (v : UnitTag) (atU : Bool) (granted : Bool) : Statement (.reserveGrant u v atU granted) := ⟨Nat.zero_lt_succ _, Nat.zero_lt_succ _⟩
theorem fallbackRequest (u : UnitTag) : Statement (.fallbackRequest u) := ⟨Nat.zero_lt_succ _, Nat.zero_lt_succ _⟩
theorem reservedFlitDrop (f : Flit) : Statement (.reservedFlitDrop f) := ⟨Nat.zero_lt_succ _, Nat.zero_lt_succ _⟩
theorem laneStop (port : Nat) (lane : Nat) : Statement (.laneStop port lane) := ⟨Nat.zero_lt_succ _, Nat.zero_lt_succ _⟩
theorem laneGo (port : Nat) (lane : Nat) : Statement (.laneGo port lane) := ⟨Nat.zero_lt_succ _, Nat.zero_lt_succ _⟩
theorem flitRetry (port : Nat) : Statement (.flitRetry port) := ⟨Nat.zero_lt_succ _, Nat.zero_lt_succ _⟩
theorem portTrain (port : Nat) : Statement (.portTrain port) := ⟨Nat.zero_lt_succ _, Nat.zero_lt_succ _⟩
theorem linkTrained (port : Nat) : Statement (.linkTrained port) := ⟨Nat.zero_lt_succ _, Nat.zero_lt_succ _⟩
theorem joinCleanReport (port : Nat) : Statement (.joinCleanReport port) := ⟨Nat.zero_lt_succ _, Nat.zero_lt_succ _⟩
theorem linkDown (port : Nat) : Statement (.linkDown port) := ⟨Nat.zero_lt_succ _, Nat.zero_lt_succ _⟩
theorem peerAbsent (dev : Nat) : Statement (.peerAbsent dev) := ⟨Nat.zero_lt_succ _, Nat.zero_lt_succ _⟩
theorem peerRejoin (dev : Nat) (inc : Nat) : Statement (.peerRejoin dev inc) := ⟨Nat.zero_lt_succ _, Nat.zero_lt_succ _⟩

end Sys2Proof.Laws.Encoding
end

