-- ==== Sys2Proof/Tests/Slice0.lean ====
section
/-! SUPPORT. Tests: ill-formed terms, words of the spec, and single instructions with results worked out from the rules. -/

namespace Sys2Proof.Tests

open Sys2Proof.Machine

set_option maxRecDepth 4000

/-! ## Helpers -/

/-- A thread that runs, its next instruction a `nop`, on the device after reset. -/
def demo : State := State.reset.withFetchWord 32 0x00F00000

/-- `demo` with registers set. -/
def demoRegs (l : List (Reg × Word)) : State := modCtx demo fun c => c.setMany l

/-- A register after an outcome that is a next state. -/
def regOf (o : Out) (r : Reg) : Option Word :=
  match o with
  | .next t => some (t.th.ctx.reg r)
  | .fault _ => none
  | .refused _ => none

/-- A predicate after it. -/
def predOf (o : Out) (p : Pred) : Option Bool :=
  match o with
  | .next t => some (t.th.ctx.pred p)
  | .fault _ => none
  | .refused _ => none

/-- The pc after it. -/
def pcOf (o : Out) : Option DWord :=
  match o with
  | .next t => some t.th.ctx.pc
  | .fault _ => none
  | .refused _ => none

/-- c.fpst after it. -/
def fpstOf (o : Out) : Option Word :=
  match o with
  | .next t => some t.th.ctx.fpst
  | .fault _ => none
  | .refused _ => none

def f3 : FmtA := ⟨15, 1, 2, 3⟩
def f2 : FmtU := ⟨15, 1, 2⟩

/-! ## Ill-formed terms are refused -/

theorem test_wf_pairs :
    (Instr.sel ⟨15, 1, 2, 4⟩ true 0).wf = false ∧ (Instr.sel ⟨15, 2, 3, 4⟩ true 0).wf = false ∧ (Instr.sel ⟨15, 2, 2, 5⟩ true 0).wf = false
      ∧ (Instr.add64 ⟨15, 1, 2, 4⟩).wf = false ∧ (Instr.sub64 ⟨15, 2, 3, 4⟩).wf = false ∧ (Instr.lea64 ⟨15, 2, 3, 4⟩ 0).wf = false
      ∧ (Instr.mov64 ⟨15, 3, 2⟩).wf = false ∧ (Instr.movi 15 3 .s64 0).wf = false ∧ (Instr.movi 15 3 .n64 0).wf = false
      ∧ (Instr.icmp64 ⟨15, 0, 3, 2⟩ .eq).wf = false ∧ (Instr.jmp 15 3).wf = false ∧ (Instr.callr 15 3).wf = false := by decide

theorem test_wf_control_registers : (Instr.crd 15 1 0x13).wf = false ∧ (Instr.cwr 15 1 0x1E).wf = false := by decide

theorem test_wf_conversions :
    (Instr.fcvt ⟨15, 1, 2⟩ .s32 .s32).wf = false ∧ (Instr.fcvt ⟨15, 1, 2⟩ .s32 .n32).wf = false
      ∧ (Instr.fcvt ⟨15, 1, 3⟩ .s64 (.fp .f32)).wf = false ∧ (Instr.fcvtSat ⟨15, 1, 2⟩ (.fp .f32) .s64).wf = false
      ∧ (Instr.pkq ⟨15, 1, 3⟩ .bf16 false false).wf = false ∧ (Instr.pkq ⟨15, 62, 16⟩ .t6 false false).wf = false
      ∧ (Instr.upk ⟨15, 2, 3⟩ .e4m3).wf = false ∧ (Instr.upk ⟨15, 16, 62⟩ .t6).wf = false
      ∧ (Instr.qblk ⟨15, 1, 2⟩ .mx4 0 false 4 3).wf = false ∧ (Instr.dqblk ⟨15, 1, 2⟩ .mx4 0 4 3).wf = false := by decide

theorem test_wf_loads :
    (Instr.ldN8 ⟨15, 1, 3, 0, 6⟩ none).wf = false ∧ (Instr.ldS8 ⟨15, 1, 3, 0, 6⟩ none).wf = false
      ∧ (Instr.ldN16 ⟨15, 1, 3, 0, 6⟩ none).wf = false ∧ (Instr.ldS16 ⟨15, 1, 3, 0, 6⟩ none).wf = false
      ∧ (Instr.ldB32 ⟨15, 1, 3, 0, 6⟩ none).wf = false ∧ (Instr.ldB64 ⟨15, 1, 2, 0, 6⟩ none).wf = false
      ∧ (Instr.ldB128 ⟨15, 2, 2, 0, 6⟩ none).wf = false ∧ (Instr.stB8 ⟨15, 1, 3, 0, 6⟩ none).wf = false
      ∧ (Instr.stB16 ⟨15, 1, 3, 0, 6⟩ none).wf = false ∧ (Instr.stB32 ⟨15, 1, 3, 0, 6⟩ none).wf = false
      ∧ (Instr.stB64 ⟨15, 1, 2, 0, 6⟩ none).wf = false ∧ (Instr.stB128 ⟨15, 2, 2, 0, 6⟩ none).wf = false := by decide

theorem test_wf_atomics :
    (Instr.atomAdd ⟨⟨15, 1, 3, 0, 6⟩, 1, 0⟩ .s32).wf = false ∧ (Instr.atomMin ⟨⟨15, 1, 2, 0, 6⟩, 2, 0⟩ .s64).wf = false
      ∧ (Instr.atomMax ⟨⟨15, 2, 2, 0, 6⟩, 1, 0⟩ .n64).wf = false ∧ (Instr.atomAnd ⟨⟨15, 1, 2, 0, 6⟩, 2, 0⟩ .b64).wf = false
      ∧ (Instr.atomOr ⟨⟨15, 1, 3, 0, 6⟩, 2, 0⟩ .b32).wf = false ∧ (Instr.atomXor ⟨⟨15, 1, 2, 0, 6⟩, 2, 0⟩ .b64).wf = false
      ∧ (Instr.atomExch ⟨⟨15, 1, 2, 0, 6⟩, 2, 0⟩ .b64).wf = false ∧ (Instr.atomCas ⟨⟨15, 2, 2, 0, 6⟩, 2, 0⟩ 3 .b64).wf = false
      ∧ (Instr.atomFadd ⟨⟨15, 1, 3, 0, 6⟩, 2, 0⟩ .f32).wf = false ∧ (Instr.red 15 .add 1 2 0 6 3 .f32 0).wf = false
      ∧ (Instr.red 15 .add 0 3 0 6 3 .f32 0).wf = false := by decide

theorem test_wf_groups :
    (Instr.shfl ⟨15, 1, 2, 3⟩ .sel .b64 0).wf = false ∧ (Instr.shfl ⟨15, 1, 2, 3⟩ .sel .b32 3).wf = false
      ∧ (Instr.vote ⟨15, 1, 2⟩ .mask 0).wf = false ∧ (Instr.gred ⟨15, 1, 2⟩ (.addI .s64) 0).wf = false
      ∧ (Instr.gscan ⟨15, 2, 3⟩ (.or .b64) true 0).wf = false ∧ (Instr.gsync 15 3).wf = false
      ∧ (Instr.tqPush ⟨15, 1, 2, 0, 6⟩ 3).wf = false ∧ (Instr.tqPop 15 2 0 6 3).wf = false
      ∧ (Instr.tqSteal ⟨15, 2, 3, 0, 6⟩ 3).wf = false := by decide

theorem test_wf_matrix :
    (Instr.mmaBf16 ⟨15, 0, 2, 2⟩ true false).wf = false ∧ (Instr.mmaF16 ⟨15, 0, 3, 2⟩ false false).wf = false
      ∧ (Instr.mmaE4m3 ⟨15, 0, 2, 3⟩ false false).wf = false ∧ (Instr.mmaE5m2 ⟨15, 0, 2, 2⟩ true false).wf = false
      ∧ (Instr.mmaT8 ⟨15, 0, 3, 2⟩ false false).wf = false ∧ (Instr.mmaT6 ⟨15, 0, 3, 2⟩ false).wf = false
      ∧ (Instr.mmaMx8 ⟨15, 0, 2, 4⟩ 0 false).wf = false ∧ (Instr.mmaMx6 ⟨15, 0, 4, 2⟩ 0 false).wf = false
      ∧ (Instr.mmaMx4 ⟨15, 0, 2, 4⟩ 0 false).wf = false ∧ (Instr.mmaI8 ⟨15, 0, 2, 2⟩ true false).wf = false
      ∧ (Instr.accLd 15 0 3 0 6 none).wf = false ∧ (Instr.accSt 15 0 false 3 0 6 none).wf = false
      ∧ (Instr.accCvt 15 0 false 3 .bf16 false false false).wf = false := by decide

theorem test_wf_engine :
    (Instr.xcp 15 false 3 0 6 none).wf = false ∧ (Instr.xcpq 15 false 0 3 0 6 none).wf = false
      ∧ (Instr.barInit ⟨15, 1, 3, 0, 6⟩ none).wf = false ∧ (Instr.barExp ⟨15, 1, 3, 0, 6⟩ none).wf = false
      ∧ (Instr.barArr ⟨15, 1, 3, 0, 6⟩ none).wf = false ∧ (Instr.barWait ⟨15, 1, 3, 0, 6⟩ none).wf = false
      ∧ (Instr.barTest ⟨15, 1, 3, 0, 6⟩ none).wf = false ∧ (Instr.rlq ⟨15, 1, 3, 0, 6⟩ none).wf = false
      ∧ (Instr.mcst ⟨15, 1, 2, 0, 6⟩ 3 .b64 0).wf = false ∧ (Instr.mcldRed ⟨15, 1, 2, 0, 6⟩ 3 5 .f32 .add).wf = false
      ∧ (Instr.collArm ⟨15, 1, 3, 0, 6⟩ none).wf = false ∧ (Instr.shfSide ⟨15, 1, 3, 0, 6⟩ 4 0).wf = false
      ∧ (Instr.shfPost ⟨15, 1, 3, 0, 6⟩ none).wf = false ∧ (Instr.unassignedOpcode 0x01F00000).wf = false := by decide

/-! ## Words of the spec -/

/-- R89, R90, R92: class 0. -/
theorem test_decode_integer :
    decodeWord 0x06F61968 0 = some (.div ⟨15, 24, 25, 26⟩ .s) ∧ decodeWord 0x15F6DC75 0 = some (.bfx ⟨15, 27, 28, 29⟩ .s)
      ∧ decodeWord 0x1FF924AA 0 = some (.lea64 ⟨15, 36, 36, 42⟩ 2)
      ∧ decodeWord 0x23F31240 0 = some (.pand ⟨15, 3, 1, 2, false, true⟩) := by decide

/-- Chapter 6: loops, prefixes; R110, R252, R327: control and system. -/
theorem test_decode_control :
    decodeWord 0x38F280A0 0 = some (.loop 15 0 (.reg 40) 10) ∧ decodeWord 0x38F00091 0x20 = some (.loop 15 0 (.lit 0x20) 9)
      ∧ decodeWord 0x3AF0C900 0 = some (.rpt 15 3 1 1 0) ∧ decodeWord 0x3BF00001 0 = some (.wait 15 1)
      ∧ decodeWord 0xE2F00000 0 = some (.cmt 15) ∧ decodeWord 0xE3F00000 0 = some (.tret 15) := by decide

/-- Chapter 6: conversions and packing; R126: block quantisation. -/
theorem test_decode_float :
    decodeWord 0x4BF71880 0 = some (.fcvt ⟨15, 28, 24⟩ .s32 (.fp .f32)) ∧ decodeWord 0x50F81C20 0 = some (.pkq ⟨15, 32, 28⟩ .bf16 false false)
      ∧ decodeWord 0x52F61912 0x3700 = some (.qblk ⟨15, 24, 25⟩ .mx4 2 false 28 0) := by decide

/-- R104, chapter 6: loads and stores. -/
theorem test_decode_memory :
    decodeWord 0x76F6240C 0 = some (.ldB128 ⟨15, 24, 36, 0, 6⟩ none) ∧ decodeWord 0x7BF8260C 0 = some (.stB64 ⟨15, 32, 38, 0, 6⟩ none)
      ∧ decodeWord 0x73F6640D 2 = some (.ldS16 ⟨15, 25, 36, 0, 6⟩ (some ⟨0, 2⟩))
      ∧ decodeWord 0x87F6240D 0x00102640 = some (.atomCas ⟨⟨15, 24, 36, 0, 6⟩, 0, 16⟩ 25 .b32) := by decide

/-- R179, R181, R183, R190, and the matrix words of chapter 17. -/
theorem test_decode_group :
    decodeWord 0x90F6DA71 0x2000 = some (.shfl ⟨15, 27, 26, 28⟩ .rot .b32 0)
      ∧ decodeWord 0x92F61900 0x3000 = some (.gred ⟨15, 24, 25⟩ .addF 0)
      ∧ decodeWord 0x93F75900 0x3000 = some (.gscan ⟨15, 29, 25⟩ .addF false 0) ∧ decodeWord 0x94F00000 0x1A = some (.gsync 15 26)
      ∧ decodeWord 0x99F6200D 0x1C = some (.tqSteal ⟨15, 24, 32, 0, 6⟩ 28)
      ∧ decodeWord 0xB0F09261 0 = some (.mmaBf16 ⟨15, 0, 36, 38⟩ false true) ∧ decodeWord 0xBCF02800 0 = some (.accSt 15 0 false 40 0 0 none)
      ∧ decodeWord 0xBDF7C078 0 = some (.accRd 15 31 0 30) ∧ decodeWord 0xBFF02A20 0 = some (.accCvt 15 0 false 42 .bf16 false false false) := by
  decide

/-- R305 to R313, R395: the engine words of chapters 17 and 22. -/
theorem test_decode_engine :
    decodeWord 0xC0F02601 0x00400000 = some (.xcp 15 false 38 0 0 (some 0x40)) ∧ decodeWord 0xC2F6640C 0 = some (.barInit ⟨15, 25, 36, 0, 6⟩ none)
      ∧ decodeWord 0xC5F6E40D 0x1C = some (.barWait ⟨15, 27, 36, 0, 6⟩ (some ⟨28, 0⟩))
      ∧ decodeWord 0xD5F6240C 0 = some (.shfPost ⟨15, 24, 36, 0, 6⟩ none) ∧ decodeWord 0xD6F7180C 0 = some (.shfWait ⟨15, 28, 24, 0, 6⟩) := by
  decide

/-- R63, R64, R67: a set bit where the format has none, an even pair's odd field, an unassigned opcode. -/
theorem test_decode_refused :
    decodeWord 0x3CF00001 0 = none ∧ decodeWord 0x1DF04104 0 = none ∧ decodeWord 0x01F00003 0 = none
      ∧ decodeWord 0x3FF00000 0 = some (.unassignedOpcode 0x3FF00000) := by decide

/-- R59: the bytes of a word stand low byte first. -/
theorem test_decode_bytes : decode [0x00, 0x00, 0xF0, 0x3C] = some (.yld 15) ∧ decodeTableWord 32 0x3CF00000 = some (.yld 15) := by decide

/-! ## Integer instructions (R89 to R96) -/

theorem test_add_wraps : regOf (exec (.add f3 .wrap) (demoRegs [(2, 0xFFFFFFFF), (3, 6)])) 1 = some 5 := by decide
theorem test_add_saturates : regOf (exec (.add f3 .satS) (demoRegs [(2, 0x7FFFFFFF), (3, 1)])) 1 = some 0x7FFFFFFF := by decide
theorem test_sub_order : regOf (exec (.sub f3 .wrap) (demoRegs [(2, 5), (3, 7)])) 1 = some 0xFFFFFFFE := by decide
theorem test_sub_satn : regOf (exec (.sub f3 .satN) (demoRegs [(2, 5), (3, 7)])) 1 = some 0 := by decide
theorem test_mul_low : regOf (exec (.mul f3) (demoRegs [(2, 0x10001), (3, 0x10001)])) 1 = some 0x20001 := by decide
theorem test_mulh_signed : regOf (exec (.mulh f3 .s) (demoRegs [(2, 0xFFFFFFFF), (3, 2)])) 1 = some 0xFFFFFFFF := by decide
theorem test_mulh_unsigned : regOf (exec (.mulh f3 .n) (demoRegs [(2, 0xFFFFFFFF), (3, 2)])) 1 = some 1 := by decide
theorem test_mad : regOf (exec (.mad f3 4) (demoRegs [(2, 3), (3, 4), (4, 5)])) 1 = some 17 := by decide
theorem test_div_toward_zero : regOf (exec (.div f3 .s) (demoRegs [(2, 0xFFFFFFF9), (3, 2)])) 1 = some 0xFFFFFFFD := by decide
theorem test_div_by_zero : regOf (exec (.div f3 .s) (demoRegs [(2, 7)])) 1 = some 0xFFFFFFFF := by decide
theorem test_rem_sign : regOf (exec (.rem f3 .s) (demoRegs [(2, 0xFFFFFFF9), (3, 2)])) 1 = some 0xFFFFFFFF := by decide
theorem test_rem_by_zero : regOf (exec (.rem f3 .n) (demoRegs [(2, 7)])) 1 = some 7 := by decide
theorem test_min_signed : regOf (exec (.min f3 .s) (demoRegs [(2, 0xFFFFFFFF), (3, 1)])) 1 = some 0xFFFFFFFF := by decide
theorem test_max_unsigned : regOf (exec (.max f3 .n) (demoRegs [(2, 0xFFFFFFFF), (3, 1)])) 1 = some 0xFFFFFFFF := by decide
theorem test_abs_most_negative : regOf (exec (.abs f2 true) (demoRegs [(2, 0x80000000)])) 1 = some 0x7FFFFFFF := by decide
theorem test_neg_wraps : regOf (exec (.neg f2 false) (demoRegs [(2, 0x80000000)])) 1 = some 0x80000000 := by decide
theorem test_andn : regOf (exec (.andn f3) (demoRegs [(2, 0xFF), (3, 0x0F)])) 1 = some 0xF0 := by decide
theorem test_not : regOf (exec (.not f2) (demoRegs [(2, 0xFF)])) 1 = some 0xFFFFFF00 := by decide
theorem test_shl_full_width : regOf (exec (.shl f3) (demoRegs [(2, 1), (3, 32)])) 1 = some 0 := by decide
theorem test_shr : regOf (exec (.shr f3) (demoRegs [(2, 0x80000000), (3, 31)])) 1 = some 1 := by decide
theorem test_sar_full_width : regOf (exec (.sar f3) (demoRegs [(2, 0x80000000), (3, 40)])) 1 = some 0xFFFFFFFF := by decide
theorem test_rot_left : regOf (exec (.rot f3 false) (demoRegs [(2, 0x80000001), (3, 33)])) 1 = some 3 := by decide
theorem test_bfx_signed : regOf (exec (.bfx f3 .s) (demoRegs [(2, 0xF0), (3, 0x0404)])) 1 = some 0xFFFFFFFF := by decide
theorem test_bfi : regOf (exec (.bfi f3) (demoRegs [(1, 0xFFFFFFFF), (2, 0), (3, 0x0404)])) 1 = some 0xFFFFFF0F := by decide
theorem test_clz_zero : regOf (exec (.clz f2) demo) 1 = some 32 := by decide
theorem test_popc : regOf (exec (.popc f2) (demoRegs [(2, 0xF0F0)])) 1 = some 8 := by decide
theorem test_brev : regOf (exec (.brev f2) (demoRegs [(2, 1)])) 1 = some 0x80000000 := by decide
theorem test_sel_false : regOf (exec (.sel f3 false 0) (demoRegs [(2, 1), (3, 2)])) 1 = some 2 := by decide
theorem test_lea : regOf (exec (.lea f3 2) (demoRegs [(2, 0x100), (3, 3)])) 1 = some 0x10C := by decide
theorem test_add64_carry :
    regOf (exec (.add64 ⟨15, 4, 6, 8⟩) (demoRegs [(6, 0xFFFFFFFF), (8, 1)])) 5 = some 1 := by decide
theorem test_lea64_signed_index :
    regOf (exec (.lea64 ⟨15, 4, 6, 8⟩ 1) (demoRegs [(6, 0x10), (8, 0xFFFFFFFF)])) 4 = some 0x0E := by decide
theorem test_movi_pair : regOf (exec (.movi 15 4 .s64 0x80000000) demo) 5 = some 0xFFFFFFFF := by decide
theorem test_addImm_signed : regOf (exec (.addImm ⟨15, 1, 2, 0xFF⟩) (demoRegs [(2, 5)])) 1 = some 4 := by decide
theorem test_andImm_unsigned : regOf (exec (.andImm ⟨15, 1, 2, 0xFF⟩) (demoRegs [(2, 0xFFFFFFFF)])) 1 = some 0xFF := by decide
theorem test_icmp_signed : predOf (exec (.icmp ⟨15, 1, 2, 3⟩ .ltS) (demoRegs [(2, 0xFFFFFFFF), (3, 0)])) 1 = some true := by decide
theorem test_icmp_unsigned : predOf (exec (.icmp ⟨15, 1, 2, 3⟩ .ltN) (demoRegs [(2, 0xFFFFFFFF), (3, 0)])) 1 = some false := by decide
theorem test_icmpImm_signed : predOf (exec (.icmpImm 15 1 2 0x3F .eq) (demoRegs [(2, 0xFFFFFFFF)])) 1 = some true := by decide
theorem test_pand_inverts : predOf (exec (.pand ⟨15, 3, 15, 2, false, true⟩) demo) 3 = some true := by decide
theorem test_p15_stays : predOf (exec (.pmov 15 15 0 false) demo) 15 = some true := by decide
theorem test_g0_stays : regOf (exec (.addImm ⟨15, 0, 2, 7⟩) demo) 0 = some 0 := by decide
theorem test_guard_false : regOf (exec (.addImm ⟨0, 1, 2, 7⟩) demo) 1 = some 0 := by decide

/-! ## Floating point (R113 to R131) -/

theorem test_fadd : regOf (exec (.fadd f3 .rne) (demoRegs [(2, 0x3F800000), (3, 0x40000000)])) 1 = some 0x40400000 := by decide
theorem test_fadd_inexact : fpstOf (exec (.fadd f3 .rne) (demoRegs [(2, 0x3F800000), (3, 0x33000000)])) = some 0x1000 := by decide
theorem test_fsub : regOf (exec (.fsub f3 .rne) (demoRegs [(2, 0x3F800000), (3, 0x40000000)])) 1 = some 0xBF800000 := by decide
theorem test_fmul_inf_zero : regOf (exec (.fmul f3 .rne) (demoRegs [(2, 0x7F800000)])) 1 = some 0x7FC00000 := by decide
theorem test_ffma : regOf (exec (.ffma f3 4 .rne) (demoRegs [(2, 0x40000000), (3, 0x40400000), (4, 0x3F800000)])) 1 = some 0x40E00000 := by
  decide
theorem test_fmin_zeros : regOf (exec (.fmin f3) (demoRegs [(3, 0x80000000)])) 1 = some 0x80000000 := by decide
theorem test_fabs_halves : regOf (exec (.fabs f2 true) (demoRegs [(2, 0xBF80C000)])) 1 = some 0x3F804000 := by decide
theorem test_fneg_word : regOf (exec (.fneg f2 false) (demoRegs [(2, 0xBF80C000)])) 1 = some 0x3F80C000 := by decide
theorem test_fcls_neg_zero : regOf (exec (.fcls f2 .f32) (demoRegs [(2, 0x80000000)])) 1 = some 8 := by decide
theorem test_frnd_even : regOf (exec (.frnd f2 .rne) (demoRegs [(2, 0x40200000)])) 1 = some 0x40000000 := by decide
theorem test_fcmp_nan : predOf (exec (.fcmp ⟨15, 1, 2, 3⟩ .ne) (demoRegs [(2, 0x7FC00000)])) 1 = some true := by decide
theorem test_fcvt_int : regOf (exec (.fcvt f2 .s32 (.fp .f32)) (demoRegs [(2, 9)])) 1 = some 0x41100000 := by decide
theorem test_fcvtSat_range : regOf (exec (.fcvtSat f2 (.fp .f32) .s32) (demoRegs [(2, 0x7F7FFFFF)])) 1 = some 0x7FFFFFFF := by decide
theorem test_pkq_bf16 :
    regOf (exec (.pkq ⟨15, 1, 2⟩ .bf16 false false) (demoRegs [(2, 0x41100000), (3, 0x41200000)])) 1 = some 0x41204110 := by decide
theorem test_upk_bf16 : regOf (exec (.upk ⟨15, 2, 1⟩ .bf16) (demoRegs [(1, 0x41204110)])) 3 = some 0x41200000 := by decide

/-! ## Control (R69 to R78, R97 to R103) -/

/-- R97: the target counts from the branch's own word. -/
theorem test_bra_back : pcOf (exec (.bra ⟨15, 0xFFFFF⟩) demo) = some 0x10000 := by decide
theorem test_jmp : pcOf (exec (.jmp 15 4) (demoRegs [(4, 0x10020)])) = some 0x10020 := by decide
theorem test_bra_not_taken : pcOf (exec (.bra ⟨0, 0xFFFFF⟩) demo) = some 0x10008 := by decide
theorem test_loop_zero_count : pcOf (exec (.loop 15 0 (.lit 0) 2) demo) = some 0x10014 := by decide
theorem test_loop_enters : pcOf (exec (.loop 15 0 (.lit 3) 2) demo) = some 0x10008 := by decide
theorem test_step_runs_nop : pcOf (Sys2Proof.Machine.step demo) = some 0x10008 := by decide

/-! ## Control registers (R26, R110) -/

theorem test_crd_width : regOf (exec (.crd 15 1 0x06) demo) 1 = some 16 := by decide
theorem test_crd_pset : regOf (exec (.crd 15 1 0x0A) demo) 1 = some 0x8000 := by decide
theorem test_cwr_fpst_mask : fpstOf (exec (.cwr 15 2 0x1A) (demoRegs [(2, 0xFFFFFFFF)])) = some 0x7F03 := by decide

/-! ## Memory: canonical form -/

theorem test_memory_write_zero : Mem.set (Mem.set [] 5 7) 5 0 = [] := by decide
theorem test_memory_sorted : Mem.store [] 4 [1, 0, 3] = [(4, 1), (6, 3)] ∧ Mem.wf (Mem.store [] 4 [1, 0, 3]) = true := by decide

/-! ## Values of atomics and barriers (R186, R187, R291) -/

theorem test_atom_min_signed : atomNew .minS 4 0xFFFFFFFF 1 0 = 0xFFFFFFFF := by decide
theorem test_atom_cas : atomNew .cas 4 7 7 9 = 9 ∧ atomNew .cas 4 7 8 9 = 7 := by decide
theorem test_atom_fadd_halves : atomNew .faddBf 4 0x3F803F80 0x3F800000 0 = 0x40003F80 := by decide

end Sys2Proof.Tests
end

