-- ==== Sys2Proof/Tests/Witness.lean ====
section
/-! SUPPORT. For each statement with hypotheses, states and operands that meet them, clause by clause, at the ends of their ranges. -/

namespace Sys2Proof.Tests

open Sys2Proof.Machine

set_option maxRecDepth 8000

/-! ## Helpers -/

def isNext (o : Out) : Bool :=
  match o with
  | .next _ => true
  | .fault _ => false
  | .refused _ => false

theorem exists_next {o : Out} (h : isNext o = true) : ∃ t, o = .next t := by
  cases o with
  | next t => exact ⟨t, rfl⟩
  | fault f => cases h
  | refused r => cases h

def okOf {ε α : Type} (e : Except ε α) : Option α :=
  match e with
  | .ok a => some a
  | .error _ => none

theorem ok_of {ε α : Type} {e : Except ε α} {a : α} (h : okOf e = some a) : e = .ok a := by
  cases e with
  | ok b => simpa [okOf] using h
  | error x => cases h

/-- An access at its issue in `demo`. -/
def acc (kind : AccKind) (ea : DWord) (loc : Loc) : Access := newAcc demo kind ea (some loc) 0 0 0 false

/-- `demo` with accesses. -/
def demoAccs (l : List Access) : State := modTh demo fun t => { t with accs := l }

/-- The cluster of `demo`. -/
def dc0 : Cid := ⟨1, 0⟩

/-- Registers 2 and 3 hold a scratchpad address, 4 and 5 an HBM address. -/
def demoPtr (off : Word) : State := demoRegs [(2, off), (3, 0xF0000000), (4, 0x20000), (5, 0)]

/-! ## Encoding and the step -/

theorem wit_DecodeEncodeRoundTrip :
    (Instr.add ⟨15, 63, 0, 63⟩ .satN).isProgram = true ∧ (Instr.add ⟨15, 63, 0, 63⟩ .satN).wf = true
      ∧ (Instr.bra ⟨0, 0xFFFFF⟩).isProgram = true ∧ (Instr.bra ⟨0, 0xFFFFF⟩).wf = true
      ∧ (Instr.hint 7 0xFFFFFF).isProgram = true ∧ (Instr.hint 7 0xFFFFFF).wf = true := by decide

theorem wit_EncodeDecodeRoundTrip :
    hasExt (0x1AF69864#32).toNat = true ∧ decodeWord (0x1AF69864#32).toNat (0x00002000#32).toNat = some (.sel ⟨15, 26, 24, 25⟩ false 2)
      ∧ hasExt (0x3CF00000#32).toNat = false ∧ decodeWord (0x3CF00000#32).toNat (0#32).toNat = some (.yld 15) := by decide

theorem wit_StepRunsDecoded_issuing : demo.Issuing [] := ⟨by decide, by decide, by decide, by decide, by decide⟩

theorem wit_StepRunsDecoded_decodes :
    fetchWord demo demo.th demo.th.ctx.pc = .ok 0x00F00000 ∧ stepped demo.th.ctx 0x00F00000 = some 0x00F00000
      ∧ fetchExt demo demo.th.ctx.pc 0x00F00000 = .ok 0 ∧ interlock demo 0x00F00000 0 = false
      ∧ decodeWord 0x00F00000 0 = some (.nop 15) ∧ ∃ u, exec (.nop 15) demo = .next u ∧ u.th.ctx.rep = none :=
  ⟨ok_of (by decide), by decide, ok_of (by decide), by decide, by decide, _, rfl, by decide⟩

/-- The counter that the next instruction awaits is not 0. -/
def demoWaits : State := modTh demo fun t => dcStep { t with ctx := { t.ctx with wmask := 1 } } 0

theorem wit_StepRunsDecoded_waits : demoWaits.Issuing [] ∧ interlock demoWaits 0x00F00000 0 = true :=
  ⟨⟨by decide, by decide, by decide, by decide, by decide⟩, by decide⟩

/-- An issue under a repeat, whose prefix stands at 0x10000. -/
def demoRep (ri : BitVec 6) : State := modCtx demo fun c => { c with rep := some ⟨0x10000, 2, 1, 1, 0⟩, ri := ri }

theorem wit_StepRunsDecoded_repeats :
    (demoRep 0).Issuing [] ∧ (demoRep 0).th.ctx.rep ≠ none ∧ stepped (demoRep 0).th.ctx 0x00F00000 = some 0x00F00000
      ∧ interlock (demoRep 0) 0x00F00000 0 = false :=
  ⟨⟨by decide, by decide, by decide, by decide, by decide⟩, by decide, by decide, by decide⟩

/-- A word that decodes to no instruction (R63). -/
def demoBad : State := State.reset.withFetchWord 32 0x3CF00001

theorem wit_StepRunsDecoded_illegal :
    demoBad.Issuing [] ∧ fetchWord demoBad demoBad.th demoBad.th.ctx.pc = .ok 0x3CF00001
      ∧ stepped demoBad.th.ctx 0x3CF00001 = some 0x3CF00001 ∧ fetchExt demoBad demoBad.th.ctx.pc 0x3CF00001 = .ok 0
      ∧ interlock demoBad 0x3CF00001 0 = false ∧ decodeWord 0x3CF00001 0 = none :=
  ⟨⟨by decide, by decide, by decide, by decide, by decide⟩, ok_of (by decide), by decide, ok_of (by decide), by decide, by decide⟩

/-- At a header not yet entered, and at one whose clause breaks a rule; with a handler's entry pending, and with a trap held over. -/
def demoHeader : State := modCtx demo fun c => c.land 0x10000
def demoHeaderBad : State := modCtx demo fun c => c.land 0x10008
def demoEntry : State := modTh demo fun t => { t with entryPend := true }
def demoPend : State := modTh demo fun t => { t with pend := some (.trap 0x0B 0 0) }

def entersWith (s : State) (h : Bool) : Bool :=
  match enterClause s with
  | .next u => hasEntered s u == h
  | .fault _ => false
  | .refused _ => false

theorem enters_of {s : State} {h : Bool} (e : entersWith s h = true) : ∃ u, enterClause s = .next u ∧ hasEntered s u = h := by
  unfold entersWith at e
  split at e
  · rename_i u hu
    exact ⟨u, hu, by simpa using e⟩
  · cases e
  · cases e

theorem wit_StepRunsDecoded_header :
    demoHeader.bundle = [demoHeader.th.id] ∧ mayIssue demoHeader = true ∧ demoHeader.th.entryPend = false ∧ demoHeader.th.pend = none
      ∧ demoHeader.th.ctx.pc = demoHeader.th.ctx.clh ∧ (∃ u, enterClause demoHeader = .next u ∧ hasEntered demoHeader u = true)
      ∧ demoHeaderBad.bundle = [demoHeaderBad.th.id] ∧ mayIssue demoHeaderBad = true
      ∧ demoHeaderBad.th.ctx.pc = demoHeaderBad.th.ctx.clh
      ∧ (∃ u, enterClause demoHeaderBad = .next u ∧ hasEntered demoHeaderBad u = false) :=
  ⟨by decide, by decide, by decide, by decide, by decide, enters_of (by decide), by decide, by decide, by decide, enters_of (by decide)⟩

theorem wit_StepRunsDecoded_held :
    demoEntry.bundle = [demoEntry.th.id] ∧ mayIssue demoEntry = true ∧ demoEntry.th.entryPend = true
      ∧ demoPend.bundle = [demoPend.th.id] ∧ mayIssue demoPend = true ∧ demoPend.th.entryPend = false
      ∧ demoPend.th.pend = some (.trap 0x0B 0 0)
      ∧ mayIssue (modTh demo fun t => { t with notice := true }) = false := by decide

theorem demo_canonical : demo.Canonical := by
  constructor <;> decide

theorem wit_StepKeepsCanonical : demo.Canonical ∧ ∃ t, Sys2Proof.Machine.step demo = .next t :=
  ⟨demo_canonical, exists_next (by decide)⟩

/-! ## Register operations -/

theorem wit_FalseGuardAdvances :
    guardOf (.add ⟨0, 1, 2, 3⟩ .wrap) = some 0 ∧ demo.th.ctx.pred 0 = false ∧ guardOf (.mmaI8 ⟨14, 3, 4, 6⟩ false false) = some 14
      ∧ demo.th.ctx.pred 14 = false := by decide

/-- Guard true, for the statements whose one hypothesis it is: WordArithmetic, LogicShiftBits, MovesAddressesImmediates,
PredicateLogic, FloatBitsAndCompares, FloatScalar, FloatConversions, ControlRegisterReads, PrefixWaitsAndHints. -/
theorem wit_guard : demo.th.ctx.pred f3.p = true ∧ demo.th.ctx.pred f2.p = true := by decide

theorem wit_DivisionRemainder :
    (demoRegs [(2, 7)]).th.ctx.pred 15 = true ∧ ((demoRegs [(2, 7)]).th.ctx.reg 3).toInt = 0
      ∧ ((demoRegs [(2, 0x80000000), (3, 0xFFFFFFFF)]).th.ctx.reg 2).toInt = -2 ^ 31
      ∧ ((demoRegs [(2, 0x80000000), (3, 0xFFFFFFFF)]).th.ctx.reg 3).toInt = -1
      ∧ ((demoRegs [(2, 0xFFFFFFF9), (3, 2)]).th.ctx.reg 2).toInt = -7 ∧ ((demoRegs [(2, 0xFFFFFFF9), (3, 2)]).th.ctx.reg 3).toInt = 2 := by
  decide

theorem wit_IntegerCompares : demo.th.ctx.pred (FmtP.p ⟨15, 15, 2, 3⟩) = true ∧ (FmtP.pd ⟨15, 15, 2, 3⟩) = 15 := by decide

theorem wit_RegisterOperationFrame :
    regEffect (.add f3 .wrap) = some ([1], []) ∧ isNext (exec (.add f3 .wrap) demo) = true
      ∧ setsFlags (.add f3 .wrap) = false ∧ dithers (.add f3 .wrap) = false
      ∧ regEffect (.pkq ⟨15, 1, 2⟩ .bf16 true true) = some ([1], []) ∧ isNext (exec (.pkq ⟨15, 1, 2⟩ .bf16 true true) demo) = true := by
  decide

theorem wit_FlagsSticky :
    regEffect (.fadd f3 .rne) = some ([1], []) ∧ isNext (exec (.fadd f3 .rne) demo) = true := by decide

/-- A value of each class, a quiet and a signalling NaN, and two negative values in order. -/
theorem wit_FloatBitsAndCompares :
    demo.th.ctx.pred f2.p = true ∧ demo.th.ctx.pred (FmtP.p ⟨15, 3, 1, 2⟩) = true
      ∧ 2 ^ 31 - 2 ^ 23 < (0xFFC00000#32).toNat % 2 ^ 31 ∧ 2 ^ 31 - 2 ^ 23 + 2 ^ 22 ≤ (0xFFC00000#32).toNat % 2 ^ 31
      ∧ ¬(2 ^ 31 - 2 ^ 23 + 2 ^ 22 ≤ (0x7F800001#32).toNat % 2 ^ 31) ∧ (0xFF800000#32).toNat % 2 ^ 31 = 2 ^ 31 - 2 ^ 23
      ∧ (0x8000#32).toNat % 2 ^ 15 = 0 ∧ (0x8000#32).getLsbD 15 = true ∧ (0x007F#32).toNat % 2 ^ 15 < 2 ^ 7
      ∧ 0x7F800000 < (0x7F800001#32).toNat % 2 ^ 31 ∧ (0x7F800001#32).toNat % 2 ^ 31 < 0x7FC00000
      ∧ ¬(0x7F800000 < (0x7F800000#32).toNat % 2 ^ 31) ∧ (0xC0000000#32).toNat % 2 ^ 31 > (0xBF800000#32).toNat % 2 ^ 31 := by decide

/-- Values at the ends of the clauses' ranges. -/
theorem wit_RoundedValues :
    NumFmt.tapered .f32 = false ∧ (1 : Nat) ≠ 0 ∧ (∀ i, Rm.rne ≠ .dith i)
      ∧ |numQ (.fin true 1 0)| ≤ numQ (numOf .f32 (NumFmt.maxCode .f32))
      ∧ 0x7F800000 < (0x7F800001#32).toNat % 2 ^ 31 ∧ (0x80000000#32).toNat % 2 ^ 31 ≤ 0x7F800000
      ∧ (0xFF800000#32).toNat % 2 ^ 31 = 0x7F800000 ∧ (0x7F7FFFFF#32).toNat % 2 ^ 31 < 0x7F800000 := by
  refine ⟨by decide, by decide, by simp, ?_, by decide, by decide, by decide, by decide⟩
  have h : numOf .f32 (NumFmt.maxCode .f32) = .fin false 16777215 104 := by decide
  rw [h]
  norm_num [numQ]

theorem wit_RoundedValues_integers :
    ((-2 ^ 31 : Int) : ℚ) ≤ numQ (.fin true 1 31) ∧ numQ (.fin true 1 31) ≤ ((2 ^ 31 - 1 : Int) : ℚ)
      ∧ numQ (.fin true 3 (-1)) < ((0 : Int) : ℚ) ∧ ((2 ^ 64 - 1 : Int) : ℚ) < numQ (.fin false 1 64) := by
  norm_num [numQ]

theorem wit_RoundedValues_slices :
    (numOf .e4m3 0x7E).isFin = true ∧ (numOf .f32 (0x00000001#32).toNat).isFin = true ∧ ((254 : Nat) ≠ 0xFF)
      ∧ ((mmaOf (.mmaMx8 ⟨15, 0, 2, 6⟩ 0 false)).map fun p => p.ty.mx.isSome) = some true := by decide

/-- One special function pending, of one register. -/
def demoOp : State := modTh demo fun t => { t with ops := [⟨[(1, 7)], 0, 0, 0, 0, 0⟩] }

theorem wit_SfuIssuesAndCompletes :
    demo.th.ctx.pred (FmtC.p ⟨15, 1, 2, 0, 0⟩) = true ∧ demoOp.th.ops = [⟨[(1, 7)], 0, 0, 0, 0, 0⟩] ∧ (1 : Reg) ≠ 0
      ∧ 0x7F800000 < (0x7F800001#32).toNat % 2 ^ 31 := by decide

/-! ## Control -/

theorem wit_BranchesTaken :
    demo.th.ctx.pred 15 = true ∧ demo.th.ctx.pc + 4 * (0xFFFFF#20).signExtend 64 = 0x10000 ∧ (0x10000#64).toNat % 4 = 0
      ∧ inCode demo.th.place 0x10000 4 = true ∧ inCode demo.th.place 0x1003C 4 = true ∧ inCode demo.th.place 0x10040 4 = false
      ∧ (demoRegs [(4, 0x10002)]).th.ctx.pair 4 = 0x10002 ∧ (0x10002#64).toNat % 4 ≠ 0 := by decide

/-- A thread with room for two frames. -/
def demoWide : State := modTh demo fun t => { t with place := { t.place with regs := 104 } }

theorem wit_CallsMoveTheWindow_fits :
    demoWide.th.ctx.pred 15 = true ∧ demoWide.th.ctx.pc + 4 * (0xFFFFF#20).signExtend 64 = 0x10000
      ∧ inCode demoWide.th.place 0x10000 4 = true ∧ demoWide.th.owes = false
      ∧ 1 + demoWide.th.ctx.res.length < residentMax demoWide.th.place.regs := by decide

/-- A thread whose one frame fills its allocation, with a register-stack area in HBM. -/
def demoSpill : State := modTh demo fun t =>
  { t with place := { t.place with regs := 64, rsbase := 0x20000, rslim := 0x200A0 }, ctx := { t.ctx with spill := 0x20000 } }

theorem wit_CallsMoveTheWindow_spills :
    demoSpill.th.ctx.pred 15 = true ∧ checkTarget demoSpill (targetJ demoSpill ⟨15, 0xFFFFF⟩) = none ∧ demoSpill.th.owes = false
      ∧ demoSpill.th.accs = [] ∧ residentMax demoSpill.th.place.regs ≤ 1 + demoSpill.th.ctx.res.length
      ∧ demoSpill.th.ctx.spill.toNat + 160 ≤ demoSpill.th.place.rslim.toNat ∧ demoSpill.th.ctx.depth ≠ 0xFFFFFFFF
      ∧ (runGate demoSpill .wr demoSpill.th.ctx.spill 10).1 = .go
      ∧ (storeRun demoSpill demoSpill.th.ctx.spill (framePieces demoSpill.th.ctx.oldest)).2 = .go
      ∧ (storeRun demoSpill demoSpill.th.ctx.spill (framePieces demoSpill.th.ctx.oldest)).1.th.ctx = demoSpill.th.ctx := by decide

/-- A thread one call deep, its link at the start of the code. -/
def demoDeep : State := modCtx demo fun c => { (c.setPair 54 0x10000) with depth := 1, res := [Vector.replicate 40 0] }

/-- Calls that trap or wait: a target outside the code, a register still owed, an area too small, a page that migrates. -/
def demoOwes : State := modTh demo fun t => { t with ops := [⟨[(1, 7)], 0, 15, 0, 0, 0⟩] }
def demoMig (s : State) : State := { s with mem := { s.mem with migs := [⟨0x20000, 0x30000, 2 ^ 16, false⟩] } }

theorem wit_CallsMoveTheWindow_stops :
    (checkTarget demo 0x10040).isSome = true ∧ demoOwes.th.owes = true ∧ checkTarget demo 0x10000 = none
      ∧ (modTh demoSpill fun t => { t with place := { t.place with rslim := 0x2009F } }).th.place.rslim.toNat < demoSpill.th.ctx.spill.toNat + 160
      ∧ (runGate (demoMig demoSpill) .wr 0x20000 10).1 = .wait := by decide

theorem wit_ReturnFromFrame :
    demoDeep.th.ctx.pred 15 = true ∧ demoDeep.th.ctx.depth ≠ 0 ∧ demoDeep.th.ctx.res = [Vector.replicate 40 0] ∧ demoDeep.th.owes = false
      ∧ demoDeep.th.ctx.ld = 0 ∧ checkTarget demoDeep (demoDeep.th.ctx.pair 54) = none := by decide

/-- Its register-stack area in the window of device 2, and a thread there whose caller's frame is spilled. -/
def peerStack : DWord := 0xF400800000001000
def demoSpillPeer : State :=
  { modTh demo fun t => { t with place := { t.place with regs := 64, rsbase := peerStack, rslim := peerStack + 160 }, ctx := { t.ctx with spill := peerStack } } with
    fab := { demo.fab with selfIdx := 1, member := [(0, 4)] } }
def demoFill (s : State) : State := modCtx s fun c => { (c.setPair 54 0x10000) with depth := 1, spill := c.spill + 160 }

theorem wit_CallsMoveTheWindow_places :
    (frameLocs demoSpill .wr 0x20000).any inPeer = false ∧ (frameLocs demoSpillPeer .wr peerStack).all inPeer = true
      ∧ checkTarget demoSpillPeer (targetJ demoSpillPeer ⟨15, 0xFFFFF⟩) = none
      ∧ demoSpillPeer.th.ctx.spill.toNat + 160 ≤ demoSpillPeer.th.place.rslim.toNat := by decide

theorem wit_ReturnFromFrame_fills :
    (demoFill demoSpill).th.ctx.depth ≠ 0 ∧ (demoFill demoSpill).th.ctx.res = [] ∧ (demoFill demoSpill).th.owes = false
      ∧ checkTarget (demoFill demoSpill) ((demoFill demoSpill).th.ctx.pair 54) = none
      ∧ (frameLocs (demoFill demoSpill) .rd ((demoFill demoSpill).th.ctx.spill - 160)).any inPeer = false
      ∧ (demoFill demoSpill).th.ctx.ld = 0 ∧ (runGate (demoFill demoSpill) .rd ((demoFill demoSpill).th.ctx.spill - 160) 10).1 = .go
      ∧ (loadRun (demoFill demoSpill) ((demoFill demoSpill).th.ctx.spill - 160) 10).2.2 = .go
      ∧ (loadRun (demoFill demoSpill) ((demoFill demoSpill).th.ctx.spill - 160) 10).1.th.ctx = (demoFill demoSpill).th.ctx
      ∧ (frameLocs (demoFill demoSpillPeer) .rd ((demoFill demoSpillPeer).th.ctx.spill - 160)).all inPeer = true := by decide

theorem wit_ReturnFromFrame_stops :
    (modCtx demoDeep fun c => c.setPair 54 0x10040).th.ctx.depth ≠ 0
      ∧ (checkTarget demoDeep ((modCtx demoDeep fun c => c.setPair 54 0x10040).th.ctx.pair 54)).isSome = true
      ∧ (modTh demoDeep fun t => { t with ops := demoOwes.th.ops }).th.owes = true := by decide

theorem wit_ThreadEnds :
    demo.th.ctx.pred 15 = true ∧ demo.th.accs = [] ∧ demo.th.ctx.depth = 0
      ∧ (demoAccs [acc (.store [1]) 0x20000 (.hbm 0x20000 false)]).th.accs ≠ [] := by decide

/-- One loop level open. -/
def demoLoop (n : Word) : State := modCtx demo fun c => { c with lv0 := ⟨n, 1, 0x10008, 0⟩, ld := 1 }

theorem wit_LoopsOpenAndClose :
    demo.th.ctx.pred 0 = false ∧ demo.th.ctx.pred 15 = true ∧ (1 : Fin 3).val ≠ demo.th.ctx.ld ∧ (0 : Fin 3).val = demo.th.ctx.ld
      ∧ (0 : Fin 3).val < (demoLoop 2).th.ctx.ld ∧ ((demoLoop 2).th.ctx.lvl 0).dep = (demoLoop 2).th.ctx.depth
      ∧ demo.th.ctx.ld ≤ (0 : Fin 3).val ∧ (1 : Fin 3).val = (demoLoop 2).th.ctx.ld
      ∧ (0x10000000#32 ≠ 0) ∧ ((demoLoop 2).th.ctx.lvl 0).beg ≤ (demoLoop 2).th.ctx.cend := by decide

/-- Bodies that end at the last word of the code, and beyond it. -/
theorem wit_LoopsOpenAndClose_ends :
    checkTarget demo (demo.th.ctx.cend + BitVec.ofNat 64 (4 * (12 + 1))) = none
      ∧ (checkTarget demo (demo.th.ctx.cend + BitVec.ofNat 64 (4 * (13 + 1)))).isSome = true
      ∧ checkTarget (demoLoop 2) ((demoLoop 2).th.ctx.lvl 0).fin = none
      ∧ (checkTarget (demoLoop 2) ((modCtx (demoLoop 2) fun c => { c with lv0 := ⟨2, 200, 0x10008, 0⟩ }).th.ctx.lvl 0).fin).isSome = true := by
  decide

theorem wit_LoopsOpenAndClose_end :
    (demoLoop 1).th.ctx.ld = 1 ∧ (demoLoop 1).th.ctx.lv0.dep = (demoLoop 1).th.ctx.depth ∧ (demoLoop 1).th.ctx.lv0.cnt = 1
      ∧ (demoLoop 2).th.ctx.lv0.cnt ≠ 0 ∧ (demoLoop 2).th.ctx.lv0.cnt ≠ 1 ∧ (0x10008 : DWord) ≠ (demoLoop 2).th.ctx.lv0.fin := by decide

/-- Three levels open at one depth: a target in the outermost body alone, the end of two levels at once, and a level of another depth. -/
def demoNest : State :=
  modCtx demo fun c => { c with lv0 := ⟨2, 7, 0x10008, 0⟩, lv1 := ⟨1, 3, 0x10008, 0⟩, lv2 := ⟨1, 3, 0x10008, 0⟩, ld := 3 }
def outOf (s : State) (k : Nat) (g : DWord) : Bool :=
  decide (k < s.th.ctx.ld) && (s.th.ctx.lvl k).dep == s.th.ctx.depth && !(decide ((s.th.ctx.lvl k).beg ≤ g) && decide (g < (s.th.ctx.lvl k).fin))

theorem wit_BranchesTaken_levels :
    outOf demoNest 0 0x10024 = false ∧ outOf demoNest 1 0x10024 = true ∧ outOf demoNest 0 0x10004 = true
      ∧ (∀ k, k < 3 → outOf demoNest k 0x10008 = false) := by decide

theorem wit_LoopsOpenAndClose_levels :
    demoNest.th.ctx.ld = 2 + 1 ∧ (demoNest.th.ctx.lvl 2).dep = demoNest.th.ctx.depth ∧ (demoNest.th.ctx.lvl 2).fin = 0x10018
      ∧ (demoNest.th.ctx.lvl 2).cnt = 1 ∧ (demoNest.th.ctx.lvl 1).fin = 0x10018 ∧ (demoNest.th.ctx.lvl 0).fin ≠ 0x10018
      ∧ ((modCtx demoNest fun c => { c with depth := 1 }).th.ctx.lvl 2).dep ≠ 1
      ∧ demo.th.ctx.rep = none ∧ demo.th.ctx.pc + BitVec.ofNat 64 (4 * instrLen demo) = demo.th.ctx.cend := by decide

/-- A prefix with an `add` behind it, and with a branch behind it (R72). -/
def demoRpt : State := placeProbe State.reset 0 [0x3AF0C900, 0x01F0420C]
def demoRptBad : State := placeProbe State.reset 0 [0x3AF0C900, 0x31F00000]

theorem wit_PrefixWaitsAndHints :
    fetchWord demoRpt demoRpt.th (demoRpt.th.ctx.pc + 4) = .ok 0x01F0420C ∧ rptLegal 0x01F0420C 0 = true
      ∧ demoRpt.th.ctx.ri.toNat ≤ (0 : Fin 64).val
      ∧ fetchWord demoRptBad demoRptBad.th (demoRptBad.th.ctx.pc + 4) = .ok 0x31F00000 ∧ rptLegal 0x31F00000 0 = false :=
  ⟨ok_of (by decide), by decide, by decide, ok_of (by decide), by decide⟩

/-- c.ri past the prefix, and no word after it. -/
theorem wit_PrefixWaitsAndHints_past :
    (0 : Fin 64).val < (modCtx demoRpt fun c => { c with ri := 1 }).th.ctx.ri.toNat ∧ demoRpt.th.ctx.pred 0 = false
      ∧ okOf (fetchWord demo (modCtx demo fun c => { c with pc := 0x1003C }).th (0x1003C + 4)) = none := by decide

/-- The first and the last issue of a repeat. -/
theorem wit_PrefixWaitsAndHints_repeat :
    (demoRep 0).th.ctx.rep = some ⟨0x10000, 2, 1, 1, 0⟩ ∧ (demoRep 0).th.ctx.ri.toNat + 1 < 2
      ∧ (demoRep 1).th.ctx.rep = some ⟨0x10000, 2, 1, 1, 0⟩ ∧ 2 ≤ (demoRep 1).th.ctx.ri.toNat + 1 := by decide

/-! ## Traps and control registers -/

/-- A thread with a handler and room for its frame. -/
def demoHand : State := modTh demoWide fun t => { t with place := { t.place with thand := 0x10000 } }

theorem wit_TrapEntersHandler :
    demoHand.th.ctx.pred 15 = true ∧ demoHand.th.accs = [] ∧ demoHand.th.ops = [] ∧ dyingNow demoHand = false
      ∧ demoHand.th.ctx.inH = false ∧ demoHand.th.place.thand ≠ 0
      ∧ 1 + demoHand.th.ctx.res.length < residentMax demoHand.th.place.regs := by decide

theorem wit_TrapWithoutHandler :
    demo.th.ctx.pred 15 = true ∧ demo.th.accs = [] ∧ demo.th.ops = [] ∧ demo.th.place.thand = 0 ∧ demo.th.ctx.inH = false
      ∧ findCluster demo demo.th.cid = some (probeCluster 1) ∧ (probeCluster 1).status = .resident := by decide

/-- In a handler, c.tpc at a header, and at a word of the saved clause. -/
def demoTret (tpc : DWord) : State := modTh demoDeep fun t => 
  { t with trap := { t.trap with tpc := tpc, tclh := 0x10000 }, ctx := { t.ctx with inH := true } }

theorem wit_TretReturns :
    demo.th.ctx.inH = false ∧ (demoTret 0x10000).th.ctx.inH = true ∧ (demoTret 0x10000).th.ctx.depth ≠ 0
      ∧ (demoTret 0x10000).th.ctx.res = [Vector.replicate 40 0] ∧ (demoTret 0x10000).th.owes = false
      ∧ (match tretTo (demoTret 0x10000) 0x10000 0x10000 with | .out => true | .inside _ _ => false | .fault _ => false) = true
      ∧ checkTarget (demoTret 0x10000) 0x10000 = none
      ∧ (match tretTo (demoTret 0x10004) 0x10000 0x10004 with | .out => false | .inside _ ws => ws == [0x00F00000] | .fault _ => false) = true
      ∧ (roles [0x00F00000]).getD 0 .ins = .ins := by decide

/-- At depth 0; with c.tpc outside the code range; with the saved header where no memory is mapped. -/
theorem wit_TretReturns_stops :
    (modCtx demo fun c => { c with inH := true }).th.ctx.inH = true ∧ demo.th.ctx.depth = 0
      ∧ (match tretTo (demoTret 0x10040) 0x10000 0x10040 with | .out => true | .inside _ _ => false | .fault _ => false) = true
      ∧ (checkTarget (demoTret 0x10040) 0x10040).isSome = true
      ∧ (match tretTo { demoTret 0x10000 with xl := { demo.xl with tlb := [] } } 0x10000 0x10000 with
          | .out => false | .inside _ _ => false | .fault _ => true) = true := by decide

theorem wit_ControlRegisterReads :
    demo.th.ctx.pred 15 = true ∧ creg64 demo 0x22 = some 0 ∧ creg64 demo 0x23 = none
      ∧ (modCtx demo fun c => { c with latch := some (0x22, 5) }).th.ctx.latch = some (0x22, 5) := by decide

theorem wit_ControlRegisterWrites :
    demo.th.ctx.pred 15 = true ∧ demo.th.accs = [] ∧ (demoAccs [acc (.store [1]) 0x20000 (.hbm 0x20000 false)]).th.accs ≠ [] := by decide

/-! ## Loads, stores and atomics -/

/-- The last word of the scratchpad. -/
theorem wit_LoadsIssue :
    loadForm (.ldB32 ⟨15, 1, 2, 0, 0⟩ none) = some (⟨15, 1, 2, 0, 0⟩, none, 4, .zext, [1]) ∧ (demoPtr 0xFFC).th.ctx.pred 15 = true
      ∧ (demoPtr 0xFFC).th.accs = []
      ∧ resolve (demoPtr 0xFFC) (demoPtr 0xFFC).th .rd (eaXM (demoPtr 0xFFC).th.ctx 2 none) 4 = .ok (.spad dc0 0 0xFFC)
      ∧ gate (demoPtr 0xFFC) (demoPtr 0xFFC).th.place.die .rd (.spad dc0 0 0xFFC) (eaXM (demoPtr 0xFFC).th.ctx 2 none) 4 = .go :=
  ⟨by decide, by decide, by decide, ok_of (by decide), by decide⟩

theorem wit_LoadsIssue_hbm :
    loadForm (.ldB128 ⟨15, 8, 4, 0, 6⟩ none) = some (⟨15, 8, 4, 0, 6⟩, none, 16, .zext, [8, 9, 10, 11])
      ∧ resolve (demoPtr 0) (demoPtr 0).th .rd (eaXM (demoPtr 0).th.ctx 4 none) 16 = .ok (.hbm 0x20000 false)
      ∧ gate (demoPtr 0) (demoPtr 0).th.place.die .rd (.hbm 0x20000 false) (eaXM (demoPtr 0).th.ctx 4 none) 16 = .go :=
  ⟨by decide, ok_of (by decide), by decide⟩

/-- An older store outstanding. -/
def demoOlder : State := modTh (demoPtr 0) fun t => { t with accs := [acc (.store [1]) 0xF000000000000010 (.spad dc0 0 0x10)] }

theorem wit_LoadsIssue_early :
    demoOlder.th.ctx.pred 15 = true ∧ demoOlder.th.accs ≠ [] ∧ (levelFor demoOlder.th demoOlder.th.ctx.pc).1 < 2
      ∧ resolve demoOlder demoOlder.th .rd (eaXM demoOlder.th.ctx 4 none) 4 = .ok (.hbm 0x20000 false)
      ∧ gate demoOlder demoOlder.th.place.die .rd (.hbm 0x20000 false) (eaXM demoOlder.th.ctx 4 none) 4 = .go
      ∧ earlyRead demoOlder (levelFor demoOlder.th demoOlder.th.ctx.pc).1 (.hbm 0x20000 false) (eaXM demoOlder.th.ctx 4 none) 4
          = some [0, 0, 0, 0] :=
  ⟨by decide, by decide, by decide, ok_of (by decide), by decide, by decide⟩

/-- An absent sector, an unaligned address, an address whose page is not mapped, and an address of device 2. -/
def demoAbsent : State := match findSlot (demoPtr 0) dc0 0 with
  | none => demoPtr 0
  | some v => setSlot (demoPtr 0) dc0 0 (v.setAbsent 0 32)
def demoFar : State := { demoRegs [(2, 0x1000), (3, 0xF4008000)] with fab := { demo.fab with selfIdx := 1, member := [(0, 4)] } }
def older (s : State) : State := modTh s fun t => { t with accs := demoOlder.th.accs }

def resolves (s : State) (t : AccT) (ea : DWord) (n : Nat) : Option Loc := okOf (resolve s s.th t ea n)

theorem wit_LoadsIssue_places :
    resolves demoAbsent .rd 0xF000000000000000 4 = some (.spad dc0 0 0)
      ∧ gate demoAbsent 0 .rd (.spad dc0 0 0) 0xF000000000000000 4 = .park
      ∧ eaXM demoFar.th.ctx 2 none = 0xF400800000001000 ∧ resolves demoFar .rd 0xF400800000001000 4 = some (.peer 2 0x1000 none)
      ∧ resolves (demoPtr 0) .rd 0x20002 4 = none
      ∧ gate { demoPtr 0 with mem := { demo.mem with locks := [⟨.copy 0 0, 0, 0x20000, 0x20040, true⟩] } } 0 .rd (.hbm 0x20000 false) 0x20000 4
          = .bad (.trap cRangeBusy 0 0x20000) := by decide

theorem wit_LoadsIssue_speculative :
    (older demoAbsent).th.accs ≠ [] ∧ resolves (older demoAbsent) .rd 0xF000000000000000 4 = some (.spad dc0 0 0)
      ∧ gate (older demoAbsent) 0 .rd (.spad dc0 0 0) 0xF000000000000000 4 = .park
      ∧ resolves (older (demoPtr 0)) .rd 0x20002 4 = none
      ∧ (levelFor (modTh demoOlder fun t => { t with spec := { t.spec with slvl := 2 } }).th demoOlder.th.ctx.pc).1 = 2
      ∧ mustWait (older demoFar) (older demoFar).th.accs (.peer 2 0x1000 none) 4 = false ∧ watchRoom (older demoFar) (.peer 2 0x1000 none) = true
      ∧ mustWait demoFar [acc (.atom .addS 4 1 0 1) 0xF400800000001000 (.peer 2 0x1000 none)] (.peer 2 0x1000 none) 4 = true := by decide

/-- A core whose watch table is full. -/
def demoNoRoom : State :=
  older { demoPtr 0 with pool := [{ demo.th with
    id := ⟨1, 0, 0, 1⟩,
    accs := List.replicate 1024 { acc (.load 4 .zext [1]) 0xF000000000000000 (.spad dc0 0 0) with spec := true, early := some [0, 0, 0, 0] } }] }

theorem wit_LoadsIssue_noRoom : demoNoRoom.th.accs ≠ [] ∧ watchRoom demoNoRoom (.hbm 0x20000 false) = false := by decide

/-- An older atomic on the word: no early read. -/
theorem wit_LoadsIssue_late :
    earlyRead (modTh (demoPtr 0) fun t => { t with accs := [acc (.atom .addS 4 1 0 1) 0x20000 (.hbm 0x20000 false)] }) 0
      (.hbm 0x20000 false) 0x20000 4 = none := by decide

theorem wit_StoresIssue :
    storeForm (demoPtr 0xFFF).th.ctx (.stB8 ⟨15, 1, 2, 0, 0⟩ none) = some (⟨15, 1, 2, 0, 0⟩, none, [0])
      ∧ (demoPtr 0xFFF).th.ctx.pred 15 = true ∧ (demoPtr 0xFFF).th.accs = []
      ∧ resolve (demoPtr 0xFFF) (demoPtr 0xFFF).th .wr (eaXM (demoPtr 0xFFF).th.ctx 2 none) 1 = .ok (.spad dc0 0 0xFFF)
      ∧ gate (demoPtr 0xFFF) (demoPtr 0xFFF).th.place.die .wr (.spad dc0 0 0xFFF) (eaXM (demoPtr 0xFFF).th.ctx 2 none) 1 = .go :=
  ⟨by decide, by decide, by decide, ok_of (by decide), by decide⟩

/-- An absent sector stops a store, an unpinned page parks it, a migrating page holds it. -/
def demoUnpinned : State := match findSlot (demoPtr 0) dc0 0 with
  | none => demoPtr 0
  | some v => setSlot (demoPtr 0) dc0 0 { v with unpinned := [0] }

theorem wit_StoresIssue_places :
    gate demoUnpinned 0 .wr (.spad dc0 0 0) 0xF000000000000000 1 = .park
      ∧ gate demoAbsent 0 .wr (.spad dc0 0 0) 0xF000000000000000 1 = .bad (.trap cAbsentStore 0 0xF000000000000000)
      ∧ gate (demoMig (demoPtr 0)) 0 .wr (.hbm 0x20000 false) 0x20000 1 = .wait
      ∧ resolves (demoPtr 0) .wr 0x20001 2 = none ∧ resolves (older (demoPtr 0)) .wr 0x20001 2 = none
      ∧ resolves (older (demoPtr 0)) .wr 0x20000 2 = some (.hbm 0x20000 false) := by decide

theorem wit_AtomicsIssue :
    atomForm (demoPtr 0).th.ctx (.atomAdd ⟨⟨15, 1, 4, 0, 6⟩, 6, 0⟩ .s32) = some (15, 6, 0x20000, .atom .addS 4 0 0 1, 4)
      ∧ (demoPtr 0).th.ctx.pred 15 = true ∧ demoOlder.th.accs ≠ [] ∧ (demoPtr 0).th.accs = [] ∧ spadTag 0x20000 = false
      ∧ resolve (setExt (demoPtr 0)) (demoPtr 0).th .wr 0x20000 4 = .ok (.hbm 0x20000 false)
      ∧ gate (setExt (demoPtr 0)) (demoPtr 0).th.place.die .wr (.hbm 0x20000 false) 0x20000 4 = .go :=
  ⟨by decide, by decide, by decide, by decide, by decide, ok_of (by decide), by decide⟩

/-- What counts as an external effect: global memory and the fabric, not a scratchpad. -/
theorem wit_AtomicsIssue_effect :
    extTag 0x20000 = true ∧ extTag 0xF400800000001000 = true ∧ extTag 0xF000000000000000 = false
      ∧ (findCluster (demoPtr 0) (demoPtr 0).th.cid).isSome = true ∧ ([1, 2] : List Word).length = ([3, 4] : List Word).length := by decide

theorem wit_AtomicsIssue_places :
    atomForm demoUnpinned.th.ctx (.red 15 .add 0 2 0 6 1 .f32 0) = some (15, 6, 0xF000000000000000, .red .add false [0], 4)
      ∧ spadTag 0xF000000000000000 = true ∧ gate demoUnpinned 0 .wr (.spad dc0 0 0) 0xF000000000000000 4 = .park
      ∧ gate demoAbsent 0 .wr (.spad dc0 0 0) 0xF000000000000000 4 = .bad (.trap cAbsentStore 0 0xF000000000000000)
      ∧ resolves (demoPtr 0) .wr 0x20002 4 = none := by decide

/-- Task queues on, the deque of core 0 owned by the launch, with `n` entries. -/
def demoTq (n : Nat) : State :=
  setCore (modTh demo fun t => { t with place := { t.place with tq := true } }) 0
    { Core.zero with owner := some 1, deque := List.replicate n (Vector.replicate 4 0) }

theorem wit_TaskQueues_issue : demo.th.ctx.pred 15 = true ∧ demo.th.accs = [] := by decide

theorem wit_TaskQueues_values :
    (demoTq 0).th.place.tq = true ∧ (getCore (demoTq 0) 0).owner = some (demoTq 0).th.id.lid ∧ (getCore (demoTq 0) 0).deque = []
      ∧ (getCore (demoTq 511) 0).deque.length < 512 ∧ 512 ≤ (getCore (demoTq 512) 0).deque.length
      ∧ (getCore (modTh demo fun t => { t with place := { t.place with tq := true } }) 0).owner ≠ some demo.th.id.lid := by decide

/-- Deques whose oldest entry, of `n`, is uncorrectable. -/
def demoTqBad (n : Nat) : State := setCore (demoTq n) 0 { getCore (demoTq n) 0 with dqBad := [0] }

theorem wit_TaskQueues_fails :
    tqFails (demoTq 0) .pop = false ∧ tqFails (demoTqBad 1) .pop = true ∧ tqFails (demoTqBad 2) .pop = false
      ∧ tqFails (demoTqBad 2) (.steal (some 0)) = true ∧ tqFails (demoTq 2) (.steal (some 0)) = false
      ∧ (demoAccs [acc (.store [1]) 0x20000 (.hbm 0x20000 false)]).th.accs ≠ [] ∧ demo.th.place.tq = false
      ∧ tqCore (demoTq 1) (some 0) = some 0 ∧ tqCore (demoTq 1) (some 16) = none
      ∧ (getCore (demoTq 1) 0).deque = Vector.replicate 4 0 :: [] := by decide

/-- A load outstanding, its thread's only access. -/
def demoLoad (parked : Bool) : State :=
  demoAccs [{ acc (.load 4 .zext [1]) 0xF000000000000FFC (.spad dc0 0 0xFFC) with parked := parked }]

theorem wit_LoadCompletes :
    (demoLoad false).th.accs = [acc (.load 4 .zext [1]) 0xF000000000000FFC (.spad dc0 0 0xFFC)]
      ∧ (demoLoad true).th.accs.map (·.parked) = [true]
      ∧ (acc (.load 4 .zext [1]) 0xF000000000000FFC (.spad dc0 0 0xFFC)).spec = false
      ∧ (acc (.load 4 .zext [1]) 0xF000000000000FFC (.spad dc0 0 0xFFC)).fault = none
      ∧ gate (demoLoad false) (demoLoad false).th.place.die .rd (.spad dc0 0 0xFFC) 0xF000000000000FFC 4 = .go
      ∧ gate (demoLoad true) (demoLoad true).th.place.die .rd (.spad dc0 0 0xFFC) 0xF000000000000FFC 4 = .go
      ∧ peekLoc (demoLoad false) 0 0 (.spad dc0 0 0xFFC) 4 = [0, 0, 0, 0] := by decide

/-- A thread parked on a piece of a fill that may perform by now. -/
theorem wit_LoadCompletes_parked :
    gate (modTh demo fun t => { t with wpark := some (false, .hbm 0x20000 false, 0x20000) }) 0 .rd (.hbm 0x20000 false) 0x20000 16 = .go
      ∧ (acc (.load 4 .zext [1]) 0xF400800000001000 (.peer 2 0x1000 none)).serial = none
      ∧ { acc (.load 4 .zext [1]) 0xF400800000001000 (.peer 2 0x1000 none) with serial := some 1 }.serial ≠ none
      ∧ (demoLoad true).th.wpark = none := by decide

/-- A store outstanding that ends at its sector's end, and one at the end of the scratchpad. -/
def storeAcc (loc : Loc) (ea : DWord) : Access := acc (.store [1, 2, 3, 4]) ea loc

theorem wit_StorePerforms_hbm :
    (demoAccs [storeAcc (.hbm 0x2003C false) 0x2003C]).Canonical
      ∧ (demoAccs [storeAcc (.hbm 0x2003C false) 0x2003C]).th.accs = [storeAcc (.hbm 0x2003C false) 0x2003C]
      ∧ writeGate (demoAccs [storeAcc (.hbm 0x2003C false) 0x2003C]) (storeAcc (.hbm 0x2003C false) 0x2003C) (.hbm 0x2003C false) false = .go
      ∧ 0x2003C % 64 + 4 ≤ 64 ∧ keyGet (demoAccs [storeAcc (.hbm 0x2003C false) 0x2003C]).mem.tags (sectorOf 0x2003C) = none :=
  ⟨⟨by decide, by decide, by decide, by decide⟩, by decide, by decide, by decide, by decide⟩

theorem wit_StorePerforms_spad :
    (demoAccs [storeAcc (.spad dc0 0 0xFFC) 0xF000000000000FFC]).Canonical
      ∧ writeGate (demoAccs [storeAcc (.spad dc0 0 0xFFC) 0xF000000000000FFC]) (storeAcc (.spad dc0 0 0xFFC) 0xF000000000000FFC)
          (.spad dc0 0 0xFFC) false = .go
      ∧ (findSlot (demoAccs [storeAcc (.spad dc0 0 0xFFC) 0xF000000000000FFC]) dc0 0).isSome = true :=
  ⟨⟨by decide, by decide, by decide, by decide⟩, by decide, by decide⟩

theorem wit_StorePerforms_rest :
    (demoAccs [storeAcc (.hbm 0x20000 true) 0x20000]).Canonical ∧ isMirror (storeAcc (.hbm 0x20000 true) 0x20000).loc = true
      ∧ writeGate (demoAccs [storeAcc (.hbm 0x20000 true) 0x20000]) (storeAcc (.hbm 0x20000 true) 0x20000) (.hbm 0x20000 true) false = .go
      ∧ (demoAccs [storeAcc (.peer 2 0x1000 none) 0xF400800000001000]).Canonical
      ∧ (storeAcc (.peer 2 0x1000 none) 0xF400800000001000).serial = none :=
  ⟨⟨by decide, by decide, by decide, by decide⟩, by decide, by decide,
    ⟨by decide, by decide, by decide, by decide⟩, by decide⟩

def atomAcc (mir : Bool) : Access := acc (.atom .addS 4 1 0 1) 0x20000 (.hbm 0x20000 mir)

theorem wit_AtomicPerforms :
    (demoAccs [atomAcc false]).th.accs = [atomAcc false] ∧ (atomAcc false).spec = false ∧ (atomAcc false).fault = none
      ∧ isMirror (atomAcc false).loc = false ∧ writeGate (demoAccs [atomAcc false]) (atomAcc false) (.hbm 0x20000 false) true = .go
      ∧ isMirror (atomAcc true).loc = true ∧ writeGate (demoAccs [atomAcc true]) (atomAcc true) (.hbm 0x20000 true) true = .go := by decide

theorem wit_AtomicPerforms_rest :
    (acc (.atom .addS 8 1 0 2) 0xF400800000001000 (.peer 2 0x1000 none)).serial = none
      ∧ writeGate (demoAccs [acc (.red .add false [0]) 0x20000 (.hbm 0x20000 false)]) (acc (.red .add false [0]) 0x20000 (.hbm 0x20000 false))
          (.hbm 0x20000 false) true = .go
      ∧ tqFails (modTh (demoTq 0) fun t => { t with accs := [{ acc (.tq .pop 1 8) 0 (.hbm 0 false) with loc := none }] }) .pop = false
      ∧ (tqApply (demoTq 1) .pop).2.2 = some (Vector.replicate 4 0) ∧ (tqApply (demoTq 0) .pop).2.2 = none := by decide

/-- A committed access with an uncommitted one behind it, and a notice. -/
def demoRegion : State :=
  modTh (demoAccs [atomAcc false, { acc (.load 4 .zext [1]) 0x20010 (.hbm 0x20010 false) with spec := true, ran := true }]) fun t =>
    { t with notice := true }

/-- An access whose fault is held. -/
def faulted : Access := { acc (.load 4 .zext [1]) 0x20010 (.hbm 0x20010 false) with fault := some (.trap 0x0B 0 0x20010) }

theorem wit_RegionsRollBack :
    demoRegion.th.accs.map (·.spec) = [false, true] ∧ demoRegion.th.notice = true ∧ demoRegion.th.ops = []
      ∧ (demoAccs [faulted]).th.accs = [faulted] ∧ timeoutHeld (demoAccs [faulted]) (.trap 0x0B 0 0x20010) = false
      ∧ faulted.spec = false ∧ faulted.serial = none ∧ faulted.awaited = [] := by decide

/-- A timeout of a thread whose cluster is being saved; a piece of the fill of a `tret`. -/
def demoStopping : State := { demoAccs [{ faulted with fault := some (.trap 0x10 0 0) }] with clusters := [{ probeCluster 1 with status := .stopping }] }

theorem wit_RegionsRollBack_kinds :
    timeoutHeld demoStopping (.trap 0x10 0 0) = true ∧ demoStopping.th.ops = [] ∧ faulted.ofTret = false
      ∧ { faulted with kind := .load 16 (.fill true) [16, 17, 18, 19] }.ofTret = true := by decide

/-- A write held at its home for another thread's watch with intent. -/
def watcher : Thread :=
  { demo.th with
    id := ⟨1, 0, 0, 1⟩,
    accs := [{ acc (.load 4 .zext [1]) 0x20000 (.hbm 0x20000 false) with spec := true, ran := true, early := some [0, 0, 0, 0], intent := true }] }
def demoHeld : State := { demoAccs [{ storeAcc (.hbm 0x20000 false) 0x20000 with held := true }] with pool := [watcher] }

theorem wit_RegionsRollBack_expiry :
    demoHeld.th.accs.map (·.held) = [true] ∧ watcher ∈ demoHeld.pool ∧ watcher.id ≠ demoHeld.th.id
      ∧ watcher.intends (.hbm 0x20000 false) 4 = true := by decide

end Sys2Proof.Tests
end

