-- ==== Sys2Proof/Tests/WitnessEvents.lean ====
section
/-! SUPPORT. Witnesses, as in Witness.lean, for the statements about groups, engines, the fabric and the device's events. -/

namespace Sys2Proof.Tests

open Sys2Proof.Machine

set_option maxRecDepth 8000

/-! ## Groups and barriers -/

def vote0 : Instr := .vote ⟨15, 1, 2⟩ .count 0

theorem wit_GroupArrival :
    groupForm vote0 = some (15, 0) ∧ oddPairAt demo.th.place.width vote0 = false ∧ demo.th.ctx.pred 15 = true ∧ demo.th.accs = []
      ∧ demo.th.ops = []
      ∧ (let u := modTh demo fun t => { t with status := .rv ((BitVec.ofNat 64 (2 ^ demo.th.place.width - 1)) ||| (1#64 <<< demo.th.place.lane)) 0 vote0 }
         deadlocked (groupOf u u.th) u.th) = []
      ∧ (demoAccs [atomAcc false]).th.accs ≠ [] ∧ groupForm (.mmaI8 ⟨15, 3, 4, 6⟩ false false) = some (15, 0)
      ∧ oddPairAt 16 (.qblk ⟨15, 1, 3⟩ .mx4 0 false 4 0) = true := by decide

/-- Another lane of the group waits elsewhere, named by this one; and one of the same bundle is still to arrive. -/
def twoLanes (st : Status) (pc : DWord) : State :=
  { demo with pool := [{ demo.th with id := ⟨1, 0, 0, 1⟩, status := st, place := { demo.th.place with lane := 1 }, ctx := { demo.th.ctx with pc := pc } }] }
def atVote (s : State) : State := modTh s fun t => { t with status := .rv 3 0 vote0 }

theorem wit_GroupArrival_meets :
    moreArrive (atVote (twoLanes (.rv 3 0 vote0) 0x10000)) = false
      ∧ deadlocked (groupOf (atVote (twoLanes (.rv 3 0 vote0) 0x10000)) (atVote (twoLanes (.rv 3 0 vote0) 0x10000)).th)
          (atVote (twoLanes (.rv 3 0 vote0) 0x10000)).th ≠ []
      ∧ moreArrive { atVote (twoLanes .run 0x10004) with bundle := [⟨1, 0, 0, 1⟩] } = true := by decide

/-- The lane of `demo` at a complete rendezvous, and one whose partner is away for too long. -/
def demoRv (i : Instr) : State := modTh demo fun t => { t with status := .rv 1 0 i }
def demoLimit : State :=
  { modTh demo (fun t => { t with status := .rv 3 65536 vote0 }) with
    pool := [{ demo.th with id := ⟨1, 0, 0, 1⟩, place := { demo.th.place with lane := 1 } }] }

theorem wit_GroupExchange :
    verdict (groupOf (demoRv vote0) (demoRv vote0).th) (demoRv vote0).th = .complete ∧ isMatrix vote0 = false
      ∧ verdict (groupOf (demoRv (.accZero 15 3)) (demoRv (.accZero 15 3)).th) (demoRv (.accZero 15 3)).th = .complete
      ∧ isMatrix (.accZero 15 3) = true ∧ demoLimit.th.status = .rv 3 65536 vote0
      ∧ verdict (groupOf demoLimit demoLimit.th) demoLimit.th = .limit := by decide

/-- One lane of a group of each width, the last lane of its group, and no lane. -/
def laneOf (w n : Nat) : Thread := { demo.th with place := { demo.th.place with width := w, lane := n } }

theorem wit_GroupExchange_lanes :
    (atLane [laneOf 16 0] 0).isSome = true ∧ atLane [] 0 = none ∧ (∀ n, atLane [] n = none)
      ∧ (laneOf 16 0).place.width = 2 ^ 4 ∧ (laneOf 32 0).place.width = 2 ^ 5 ∧ (laneOf 64 0).place.width = 2 ^ 6
      ∧ (laneOf 64 63).place.lane < (laneOf 64 63).place.width ∧ (1 : Reg) ≠ 0 ∧ (4 : Reg) ≠ 1 ∧ (2 : Reg).val % 2 = 0 :=
  ⟨by decide, by decide, fun _ => rfl, by decide, by decide, by decide, by decide, by decide, by decide, by decide⟩

/-- A yes lane alone is the first and the last; the members of a block begin at lane 32; the threads of a device differ. -/
theorem wit_GroupExchange_members :
    ((atLane [{ laneOf 64 40 with ctx := demo.th.ctx.setReg 2 1 }] 40).map fun t => t.ctx.reg 2) = some 1
      ∧ (∀ j, j < 64 → j ≠ 40 → (atLane [laneOf 64 40] j).isSome = false) ∧ 40 / 32 * 32 ≤ 40 ∧ 40 < 40 / 32 * 32 + 32
      ∧ (threads (demoRv vote0)).map (·.id) = [⟨1, 0, 0, 0⟩] ∧ (rvMembers (demoRv vote0) (demoRv vote0).th 1).1.map (·.id) = [⟨1, 0, 0, 0⟩] := by
  decide

/-- Codes of a block that are finite, infinite and no number, and products on each side of the range of .f32. -/
theorem wit_GroupExchange_dequant :
    (numOf (mxElem .mx8) 0x7E).isFin = true ∧ (numOf (mxElem .mx8) 0x7F).isFin = false ∧ 0x7F < 2 ^ (mxElem .mx8).bits
      ∧ (0xFE : Nat) ≠ 0xFF ∧ numOf (mxElem .mx4) 7 = .fin false 3 1 ∧ numOf (mxElem .mx4) 1 = .fin false 1 (-1)
      ∧ (2 : ℚ) ^ 128 ≤ |numQ (.fin false 3 1) * (2 : ℚ) ^ ((254 : Int) - 127)|
      ∧ (2 : ℚ) ^ (-126 : Int) ≤ |numQ (.fin false 1 (-1)) * (2 : ℚ) ^ ((2 : Int) - 127)|
      ∧ |numQ (.fin false 1 (-1)) * (2 : ℚ) ^ ((0 : Int) - 127)| < (2 : ℚ) ^ (-126 : Int) := by
  refine ⟨by decide, by decide, by decide, by decide, by decide, by decide, ?_, ?_, ?_⟩ <;> norm_num [numQ, zpow_neg, zpow_ofNat]

theorem wit_BarrierArrival :
    demo.th.ctx.pred 15 = true ∧ demo.th.accs = [] ∧ demo.th.ops = [] ∧ demo.th.status = .run
      ∧ (findCluster demo demo.th.cid).map (fun k => (k.cbars.map fun b => b == Barrier.empty))
          = some [true, true, true, true]
      ∧ (findTeam demo demo.th.cid 0).map (fun k => k.bars.all fun b => b == Barrier.empty) = some true
      ∧ 2 ≤ ((demoRegs [(2, 0xFFFFFFFF)]).th.ctx.reg 2).toNat ∧ (demoRegs [(2, 1)]).th.ctx.reg 2 = 1 := by decide

/-- Barriers already open, with one and with two arrivals missing; another live thread of the team, and none. -/
theorem wit_BarrierArrival_open :
    (⟨true, 3, 1, []⟩ : Barrier).arrived + 1 < (⟨true, 3, 1, []⟩ : Barrier).expect.toNat
      ∧ (⟨true, 2, 1, []⟩ : Barrier).expect.toNat ≤ (⟨true, 2, 1, []⟩ : Barrier).arrived + 1 ∧ (⟨true, 2, 1, []⟩ : Barrier).opened = true
      ∧ ((twoLanes .run 0x10004).pool.any fun x => sameTeam x demo.th && x.live && x.id != demo.th.id) = true ∧ demo.pool = []
      ∧ demoOwes.th.ops ≠ [] := by decide

/-- A barrier of count 0 whose last lane arrives, and one that still awaits a lane; a lane that waits there. -/
def demoZero : State := { demo with pool := [{ demo.th with id := ⟨1, 0, 0, 1⟩, status := .tbar 0, place := { demo.th.place with lane := 1 } }] }

theorem wit_BarrierArrival_zero :
    (⟨true, 0, 1, [⟨1, 0, 0, 1⟩]⟩ : Barrier).expect = 0
      ∧ (∀ x ∈ demoZero.pool, x.id ∈ demoZero.th.id :: (⟨true, 0, 1, [⟨1, 0, 0, 1⟩]⟩ : Barrier).seen)
      ∧ ((twoLanes .run 0x10004).pool.any fun x => sameTeam x demo.th && x.live && x.id != demo.th.id) = true
      ∧ (demoZero.pool.any fun x => sameTeam x demoZero.th && x.status == .tbar 0) = true
      ∧ (threads demoZero).map (·.id) = [⟨1, 0, 0, 0⟩, ⟨1, 0, 0, 1⟩] := by decide

def demoAged : State := modTh demo fun t => { t with place := { t.place with prom := true }, age := 4096 }

theorem wit_PickerEvents :
    { demo.th with yielded := some 64 }.yielded = some 64 ∧ { demo.th with yielded := some 63 }.yielded = some 63
      ∧ { demo.th with held := some 64 }.held = some 64 ∧ { demo.th with held := some 63 }.held = some 63
      ∧ (pickAged ((onPort demoAged 0 0).filter (ready demoAged))).isSome = true := by decide

/-! ## Matrix engine -/

/-- A matrix operation at a stage, its sources held, on tile 0 of core 0. -/
def matOp (i : Instr) (stage : Nat) (left : List Nat) : MatOp :=
  { ident := 1, born := 0, cid := dc0, team := 0, grp := 0, slot := 0, ins := i, iaddr := 0, addrA := 0xF000000000000000, scaleA := 0,
    addrB := 0xF000000000000000, scaleB := 0, ph := 0, tile := 0, stage := stage, left := left, result := [], holds := [(0, 0, 0x1000)] }

/-- `demo` with a tile bound to it and operations. -/
def tile0 : Tile := { cid := dc0, team := 0, grp := 0, draining := false, words := [], bad := [] }
def demoMat (l : List MatOp) : State :=
  setCore demo 0 { getCore demo 0 with mats := l, tiles := (getCore demo 0).tiles.set 0 (some tile0) }

def mmaI : Instr := .mmaI8 ⟨15, 3, 4, 6⟩ false false

theorem wit_IntegerMatrixElement : (mmaOf mmaI).isSome = true ∧ (mmaOf (.mmaI8 ⟨0, 0, 62, 0⟩ true true)).isSome = true := by decide

theorem wit_MatrixEvents :
    (getCore (demoMat [matOp mmaI 0 []]) 0).mats = [matOp mmaI 0 []] ∧ (mmaOf (matOp mmaI 0 []).ins).isSome = true
      ∧ (getCore (demoMat [matOp mmaI 1 []]) 0).mats = [matOp mmaI 1 []]
      ∧ rangesAway (demoMat [matOp mmaI 1 []]) dc0 [(0, 0, 0x1000)] = false ∧ rangesBad (demoMat [matOp mmaI 1 []]) dc0 [(0, 0, 0x1000)] = none
      ∧ tileOf (getCore (demoMat [matOp mmaI 1 []]) 0) 0 = some tile0 ∧ tile0.bad = [] ∧ tile0.draining = false := by decide

def accSt0 : Instr := .accSt 15 3 false 2 0 6 none

theorem wit_MatrixEvents_transfers :
    (getCore (demoMat [matOp (.accLd 15 3 2 0 6 none) 0 []]) 0).mats = [matOp (.accLd 15 3 2 0 6 none) 0 []]
      ∧ (getCore (demoMat [matOp accSt0 0 []]) 0).mats = [matOp accSt0 0 []]
      ∧ tileOf (getCore (demoMat [matOp accSt0 0 []]) 0) 0 = some tile0
      ∧ (matOp accSt0 2 [2047]).left = [2047] ∧ (findSlot (demoMat [matOp accSt0 2 [2047]]) dc0 (drainRange (matOp accSt0 2 [2047])).1).isSome = true
      ∧ (matOp accSt0 2 []).stage = 2 ∧ (matOp accSt0 2 []).left = [] := by decide

/-- Sources with an uncorrectable word, a tile with one, and a tile that only drains. -/
def badSlot (s : State) : State := match findSlot s dc0 0 with
  | none => s
  | some v => setSlot s dc0 0 { v with bad := [0] }
def demoTile (x : Tile) (l : List MatOp) : State :=
  setCore demo 0 { getCore demo 0 with mats := l, tiles := (getCore demo 0).tiles.set 0 (some x) }

theorem wit_MatrixEvents_errors :
    (rangesBad (badSlot (demoMat [matOp mmaI 1 []])) dc0 [(0, 0, 0x1000)]).isSome = true
      ∧ tileOf (getCore (demoTile { tile0 with bad := [0] } []) 0) 0 = some { tile0 with bad := [0] }
      ∧ tileOf (getCore (demoTile { tile0 with draining := true } []) 0) 0 = some { tile0 with draining := true }
      ∧ (mmaOf mmaI).map (·.z) = some false ∧ (mmaOf (.mmaI8 ⟨0, 0, 62, 0⟩ true true)).map (·.z) = some true
      ∧ (getCore (demoMat [matOp mmaI 0 []]) 0).mats.find? (fun y => isMma y && y.stage == 0) = some (matOp mmaI 0 []) := by decide

/-- `demoRv` under a launch that reserves accumulator tiles. -/
def demoRes (i : Instr) : State := { demoRv i with launches := demo.launches.map fun l => { l with accRes := 2 } }
def checked (i : Instr) : Bool :=
  matCheck (demoRes i) i (rvMembers (demoRes i) (demoRes i).th 1).1 (rvMembers (demoRes i) (demoRes i).th 1).2 (demoRes i).th == .ok

theorem wit_MatrixEvents_launch :
    (demoRes (.accZero 15 3)).th.status = .rv 1 0 (.accZero 15 3) ∧ isMatrix (.accZero 15 3) = true ∧ checked (.accZero 15 3) = true
      ∧ verdict (groupOf (demoRes (.accZero 15 3)) (demoRes (.accZero 15 3)).th) (demoRes (.accZero 15 3)).th = .complete
      ∧ reservation (demoRes (.accZero 15 3)) (demoRes (.accZero 15 3)).th = 2 ∧ needsTile (.accZero 15 3) = true
      ∧ (freeTile (demoRes (.accZero 15 3)) (demoRes (.accZero 15 3)).th).isSome = true
      ∧ (matLaunch (demoRes (.accZero 15 3)) (.accZero 15 3)
          (rvMembers (demoRes (.accZero 15 3)) (demoRes (.accZero 15 3)).th 1).1 (demoRes (.accZero 15 3)).th).isSome = true
      ∧ checked (.accRd 15 1 0 2) = true ∧ boundTile (demoRes (.accRd 15 1 0 2)) (demoRes (.accRd 15 1 0 2)).th 0 = none := by decide

/-- One tile reserved and taken: a first use waits. -/
def demoFull : State :=
  { setCore (demoRv (.accZero 15 3)) 0 { getCore demo 0 with tiles := (getCore demo 0).tiles.set 0 (some tile0) } with
    launches := demo.launches.map fun l => { l with accRes := 1 } }

theorem wit_MatrixEvents_waits :
    reservation demoFull demoFull.th = 1
      ∧ matLaunch demoFull (.accZero 15 3) (rvMembers demoFull demoFull.th 1).1 demoFull.th = none := by decide

/-- A failing check, a check that waits for a page, and no tile reserved. -/
def chkOf (s : State) (i : Instr) : MatCheck := matCheck s i (rvMembers s s.th 1).1 (rvMembers s s.th 1).2 s.th
def pageAway (s : State) : State := match findSlot s dc0 0 with
  | none => s
  | some v => setSlot s dc0 0 { v with unpinned := [0] }
def mmaVa : Instr := .mmaI8 ⟨15, 3, 4, 6⟩ true false
def lanePtr (i : Instr) (lo : Word) : State := modCtx (demoRes i) fun c => c.setMany [(2, lo), (3, 0xF0000000)]

theorem wit_MatrixEvents_checks :
    chkOf (lanePtr (.accLd 15 3 2 0 6 none) 2) (.accLd 15 3 2 0 6 none) = .trap (.trap cMisaligned 0 0xF000000000000002)
      ∧ reservation (demoRv (.accZero 15 3)) (demoRv (.accZero 15 3)).th = 0 ∧ chkOf (demoRv (.accZero 15 3)) (.accZero 15 3) = .ok
      ∧ boundTile (demoRv (.accZero 15 3)) (demoRv (.accZero 15 3)).th 3 = none
      ∧ freeTile (demoRes (.accZero 15 3)) (demoRes (.accZero 15 3)).th = some 0
      ∧ (findGroup (demoRes (.accZero 15 3)) dc0 0 0).isSome = true ∧ (getCore (demoRes (.accZero 15 3)) 0).tiles.length = 12
      ∧ hasWriter (getCore (demoMat []) 0) 0 = false
      ∧ chkOf (pageAway (modCtx (demoRes mmaVa) fun c => c.setMany [(5, 0xF0000000), (7, 0xF0000000)])) mmaVa = .wait := by decide

/-! ## Copy engine and barrier objects -/

/-- `demo` with bytes in its scratchpad, registers 2 and 3 at offset `off`, register 1 at 1. -/
def demoSpad (off : Word) (l : List (Nat × List Byte)) : State :=
  let s := demoRegs [(1, 1), (2, off), (3, 0xF0000000), (4, 0x20000)]
  match findSlot s dc0 0 with
  | none => s
  | some v => setSlot s dc0 0 { v with bytes := l.foldl (fun m x => Mem.store m x.1 x.2) v.bytes }

def fc : FmtC := ⟨15, 1, 2, 0, 6⟩

theorem wit_BarrierInstructions :
    resolveSpad (demoSpad 0xFF0 []) (eaXO (demoSpad 0xFF0 []).th.ctx 2 none) 16 16 = .ok (.spad dc0 0 0xFF0)
      ∧ gate (demoSpad 0xFF0 []) 0 .wr (.spad dc0 0 0xFF0) 0xF000000000000FF0 16 = .go
      ∧ gate (demoSpad 0xFF0 []) 0 .rd (.spad dc0 0 0xFFC) 0xF000000000000FFC 4 = .go
      ∧ spadTag (eaXO (demoSpad 0xFF0 []).th.ctx 2 none) = true ∧ (eaXO demo.th.ctx 4 none).toNat / 2 ^ 56 = 0 :=
  ⟨ok_of (by decide), by decide, by decide, by decide, by decide⟩

/-- Phase counts on both sides of the target. -/
theorem wit_BarrierInstructions_wait :
    (barStatusWord (BitVec.ofNat 32 1) (barTarget demo.th.ctx none)).getLsbD 24 = true
      ∧ (barStatusWord (BitVec.ofNat 32 0) (barTarget demo.th.ctx none)).getLsbD 24 = false := by decide

/-- The places of a barrier object: its sector absent, its page not in the scratchpad, its word uncorrectable, a misaligned address; and
the same with older accesses, at levels 0 and 2, over a word read early and over one that an older atomic holds. -/
def demoSpoiled (off : Nat) : State := match findSlot (demoSpad 0 []) dc0 0 with
  | none => demo
  | some v => setSlot (demoSpad 0 []) dc0 0 { v with bad := [off] }
def atLevelTwo (s : State) : State := modTh s fun t => { t with spec := { t.spec with slvl := 2 } }
def barEarly (s : State) : Option (List Byte) := earlyRead s (levelFor s.th s.th.ctx.pc).1 (.spad dc0 0 12) 0xF00000000000000C 4
def behindAtom (s : State) : State :=
  modTh s fun t => { t with accs := [acc (.atom .addS 4 1 0 1) 0xF00000000000000C (.spad dc0 0 12)] }

theorem wit_BarrierInstructions_places :
    gate demoUnpinned 0 .wr (.spad dc0 0 0) 0xF000000000000000 16 = .park
      ∧ gate demoAbsent 0 .wr (.spad dc0 0 0) 0xF000000000000000 16 = .bad (.trap cAbsentStore 0 0xF000000000000000)
      ∧ gate demoAbsent 0 .rd (.spad dc0 0 12) 0xF00000000000000C 4 = .park
      ∧ gate (demoSpoiled 1) 0 .rd (.spad dc0 0 12) 0xF00000000000000C 4 = .bad (.trap cEccFatal 0 0xF00000000000000C)
      ∧ okOf (resolveSpad (demoSpad 8 []) 0xF000000000000008 16 16) = none
      ∧ okOf (barWord (resolveSpad (demoSpad 0 []) 0xF000000000000000 16 16)) = some (.spad dc0 0 12)
      ∧ spadTag 0x0100000000000000 = false ∧ (0x0100000000000000 : DWord).toNat / 2 ^ 56 ≠ 0 := by decide

theorem wit_BarrierInstructions_speculative :
    (older (demoSpad 0 [])).th.accs ≠ [] ∧ (levelFor (older (demoSpad 0 [])).th 0x10008).1 ≠ 2
      ∧ (levelFor (atLevelTwo (older (demoSpad 0 []))).th 0x10008).1 = 2
      ∧ okOf (resolveSpad (older (demoSpad 8 [])) 0xF000000000000008 16 16) = none
      ∧ okOf (resolveSpad (older (demoSpad 0 [])) 0xF000000000000000 16 16) = some (.spad dc0 0 0)
      ∧ barEarly (older (demoSpad 0 [(12, [1, 0, 0, 0])])) = some [1, 0, 0, 0]
      ∧ (barStatusWord (BitVec.ofNat 32 (natOfBytes [1, 0, 0, 0])) 1).getLsbD 24 = true
      ∧ (barStatusWord (BitVec.ofNat 32 (natOfBytes [0, 0, 0, 0])) 1).getLsbD 24 = false
      ∧ barEarly (behindAtom (demoSpad 0 [])) = none := by decide

/-- An older store through the peer window, and one to scratchpad, before a test of the barrier; and a core without room for a watch. -/
theorem wit_BarrierInstructions_behind :
    mustWait (behindAtom (demoSpad 0 [])) (behindAtom (demoSpad 0 [])).th.accs (.spad dc0 0 12) 4 = true
      ∧ mustWait (older (demoSpad 0 [])) (older (demoSpad 0 [])).th.accs (.spad dc0 0 12) 4 = false
      ∧ watchRoom demoNoRoom (.spad dc0 0 12) = false
      ∧ gate demoNoRoom 0 .rd (.spad dc0 0 12) 0xF00000000000000C 4 = .go := by decide

/-- Counts that end a phase exactly, beyond, and not; the most that the field holds. -/
def bytesDue (n : Nat) : BarObj := { BarObj.init 1 with arra := 1, expb := n }

theorem wit_BarrierObjectPhases_counts :
    (bytesDue 8).arra = (bytesDue 8).expa ∧ (bytesDue 8).expb ≤ (bytesDue 8).arrb + 8 ∧ (bytesDue 8).expb < (bytesDue 8).arrb + 9
      ∧ (BarObj.init 1).arra ≠ (BarObj.init 1).expa ∧ (BarObj.init 1).arrb + 0xFFFFFFFF < 0x100000000
      ∧ 0xFFFFFFFF < (bytesDue 1).expb + 0xFFFFFFFF := by decide

theorem wit_BarrierObjectPhases :
    (BarObj.init 2).arra < (BarObj.init 2).expa ∧ (BarObj.init 2).arra + 1 < (BarObj.init 2).expa
      ∧ (BarObj.init 1).arra + 1 = (BarObj.init 1).expa ∧ (BarObj.init 1).arrb = (BarObj.init 1).expb
      ∧ (BarObj.init 1).expa < (BarObj.init 1).arra + 2 ∧ (BarObj.init 1).expb + 0xFFFFFFFF ≤ 0xFFFFFFFF := by decide

/-- A store-perform of `bar.exp` and of `bar.arr`, alone on its thread. -/
def demoBarAcc (k : AccKind) : State := demoAccs [acc k 0xF000000000000000 (.spad dc0 0 0)]

theorem wit_BarrierObjectPhases_performs :
    (demoBarAcc (.barExp 8)).th.accs = [acc (.barExp 8) 0xF000000000000000 (.spad dc0 0 0)]
      ∧ (acc (.barArr 1) 0xF000000000000000 (.spad dc0 0 0)).kind = .barArr 1
      ∧ (acc (.barExp 8) 0xF000000000000000 (.spad dc0 0 0)).spec = false ∧ (acc (.barExp 8) 0xF000000000000000 (.spad dc0 0 0)).fault = none
      ∧ (findSlot (demoBarAcc (.barExp 8)) dc0 0).isSome = true
      ∧ writeGate (demoBarAcc (.barExp 8)) (acc (.barExp 8) 0xF000000000000000 (.spad dc0 0 0)) (.spad dc0 0 0) true = .go
      ∧ writeGate (demoBarAcc (.barArr 1)) (acc (.barArr 1) 0xF000000000000000 (.spad dc0 0 0)) (.spad dc0 0 0) true = .go := by decide

theorem wit_CopyRequestsIssue :
    resolveSpad (demoSpad 0xFC0 []) (eaXO (demoSpad 0xFC0 []).th.ctx 2 none) 64 64 = .ok (.spad dc0 0 0xFC0)
      ∧ resolveSpad (demoSpad 0x800 []) (eaXO (demoSpad 0x800 []).th.ctx 2 none) 64 (64 * (31 + 1)) = .ok (.spad dc0 0 0x800) :=
  ⟨ok_of (by decide), ok_of (by decide)⟩

theorem wit_CopyRequestsIssue_waits :
    okOf (resolveSpad (demoSpad 8 []) 0xF000000000000008 64 64) = none ∧ (demoSpad 8 []).th.accs = []
      ∧ (older (demoSpad 8 [])).th.accs ≠ [] ∧ (levelFor (older (demoSpad 8 [])).th (demoSpad 8 []).th.ctx.pc).1 ≠ 2
      ∧ okOf (resolveSpad (older (demoSpad 8 [])) 0xF000000000000008 64 64) = none
      ∧ (levelFor (atLevelTwo (older (demoSpad 0 []))).th (demoSpad 0 []).th.ctx.pc).1 = 2 := by decide

/-- A request at 0x100, its layout at 0x140: four 32-bit elements from scratchpad 0x200 to 0x300 (DIR 2). -/
def copyReq : List Byte :=
  bytesOfNat 4 2 ++ bytesOfNat 4 0 ++ bytesOfNat 4 0x140 ++ bytesOfNat 4 0x300 ++ List.replicate 28 0
    ++ [4, 0, 1, 0, 1, 0, 1, 0, 1, 0] ++ List.replicate 10 0
def copyLay : List Byte :=
  bytesOfNat 8 0xF000000000000200 ++ [1, 0, 0, 0, 0, 0, 0, 0] ++ bytesOfNat 4 4 ++ bytesOfNat 4 1 ++ bytesOfNat 4 1 ++ bytesOfNat 4 1
    ++ bytesOfNat 4 1 ++ List.replicate 28 0
def copy0 : CopyReq := { ea := 0xF000000000000100, ph := 0, dth := false, dc := 6, group := 0, size := 1 }
def copyAcc (r : CopyReq) : Access := acc (.copy r) r.ea (.spad dc0 0 0x100)
def demoCopy : State := modTh (demoSpad 0x100 [(0x100, copyReq), (0x140, copyLay)]) fun t => { t with accs := [copyAcc copy0] }

def goes (l : Launching) : Bool :=
  match l with
  | .go _ _ => true
  | .fail _ => false
  | .wait _ _ => false

def failsWith (l : Launching) : Option Nat :=
  match l with
  | .go _ _ => none
  | .fail c => some c
  | .wait _ _ => none

theorem go_of {x : Launching × CopyOp} (h : goes x.1 = true) : ∃ o l b, x = (.go o l, b) := by
  obtain ⟨a, b⟩ := x
  cases a with
  | go o l => exact ⟨o, l, b, rfl⟩
  | fail c => cases h
  | wait f d => cases h

theorem fail_of {x : Launching × CopyOp} {c : Nat} (h : failsWith x.1 = some c) : ∃ b, x = (.fail c, b) := by
  obtain ⟨a, b⟩ := x
  cases a with
  | go o l => cases h
  | fail c => exact ⟨b, by simp [failsWith] at h; simp [h]⟩
  | wait f d => cases h

theorem wit_CopyEvents_launch :
    demoCopy.th.accs = [copyAcc copy0] ∧ (copyAcc copy0).spec = false ∧ (copyAcc copy0).fault = none ∧ (copyAcc copy0).kind = .copy copy0
      ∧ ∃ o l b, launching demoCopy (copyAcc copy0) copy0 = (.go o l, b) :=
  ⟨by decide, by decide, by decide, by decide, go_of (by decide)⟩

/-- The same request with its box empty. -/
def demoCopyBad : State :=
  modTh (demoSpad 0x100 [(0x100, copyReq.take 44 ++ List.replicate 20 0), (0x140, copyLay)]) fun t => { t with accs := [copyAcc copy0] }

theorem wit_CopyEvents_fail : demoCopyBad.th.accs = [copyAcc copy0] ∧ ∃ b, launching demoCopyBad (copyAcc copy0) copy0 = (.fail 1, b) :=
  ⟨by decide, fail_of (by decide)⟩

/-- The same request with its destination's sector absent waits, and so does one whose layout is in no scratchpad page. -/
def waitsWith (l : Launching) : Option (Bool × List Nat) :=
  match l with
  | .go _ _ => none
  | .fail _ => none
  | .wait f d => some (f, d)

theorem wait_of {x : Launching × CopyOp} {f : Bool} {d : List Nat} (h : waitsWith x.1 = some (f, d)) : ∃ b, x = (.wait f d, b) := by
  obtain ⟨a, b⟩ := x
  cases a with
  | go o l => cases h
  | fail c => cases h
  | wait f' d' => exact ⟨b, by simp [waitsWith] at h; simp [h]⟩

def demoCopyAbsent : State := match findSlot demoCopy dc0 0 with
  | none => demoCopy
  | some v => setSlot demoCopy dc0 0 (v.setAbsent 0x300 32)

theorem wit_CopyEvents_waits :
    demoCopyAbsent.th.accs = [copyAcc copy0] ∧ (copyAcc copy0).awaited = [] ∧ (copyAcc copy0).parked = false
      ∧ ∃ b, launching demoCopyAbsent (copyAcc copy0) copy0 = (.wait false [], b) :=
  ⟨by decide, by decide, by decide, wait_of (by decide)⟩

/-- A copy from global memory whose page is away waits with its access parked; one that meets a lock waits at a lock table. -/
def copyReqIn : List Byte :=
  bytesOfNat 4 0 ++ bytesOfNat 4 0 ++ bytesOfNat 4 0x140 ++ bytesOfNat 4 0x300 ++ List.replicate 28 0
    ++ [4, 0, 1, 0, 1, 0, 1, 0, 1, 0] ++ List.replicate 10 0
def copyLayAt (va : Nat) : List Byte := bytesOfNat 8 va ++ copyLay.drop 8
def demoCopyIn (va : Nat) : State :=
  modTh (demoSpad 0x100 [(0x100, copyReqIn), (0x140, copyLayAt va)]) fun t => { t with accs := [copyAcc copy0] }
def demoCopyLocked : State :=
  { demoCopyIn 0x20000 with mem := { demo.mem with locks := [⟨.copy 1 0, 0, 0x20000, 0x20040, true⟩] } }

theorem wit_CopyEvents_tables :
    (∃ b, launching demoCopyLocked (copyAcc copy0) copy0 = (.wait false [0], b)) ∧ demoCopyLocked.th.accs = [copyAcc copy0] :=
  ⟨wait_of (by decide), by decide⟩

/-- An operation past its launch point on core 0. -/
def copyOp (state next uncounted : Nat) (fail : Bool) : CopyOp :=
  { mkOp demo copy0 copyReq copyLay with state := state, next := next, uncounted := uncounted, fail := fail, err := if fail then 6 else 0 }
def demoEng (o : CopyOp) : State := setCore demo 0 { getCore demo 0 with eng := [o] }

theorem wit_CopyEvents :
    (getCore (demoEng (copyOp 1 0 0 false)) 0).eng = [copyOp 1 0 0 false] ∧ (copyOp 1 0 0 false).next < (copyOp 1 0 0 false).plan.count
      ∧ stepBad (demoEng (copyOp 1 0 0 false)) 0 (copyOp 1 0 0 false) 0 4 = false
      ∧ stepUndecodable (demoEng (copyOp 1 0 0 false)) 0 (copyOp 1 0 0 false) 0 4 = false
      ∧ Nat.min (copyOp 1 0 0 false).plan.count (0 + (copyOp 1 0 0 false).plan.unit) = 4
      ∧ (copyOp 2 4 16 false).uncounted ≠ 0 ∧ (copyOp 2 4 16 false).state ≠ 3
      ∧ (copyOp 2 4 0 false).next = (copyOp 2 4 0 false).plan.count ∧ (copyOp 2 4 0 false).uncounted = 0
      ∧ (copyOp 2 4 0 true).fail = true ∧ (copyOp 2 4 0 true).err < 256 := by decide

/-- An uncorrectable word in the source and, half covered, in the destination of a copy within the scratchpad; and a block that breaks
its coding. -/
def spoil (s : State) (w : Nat) : State := match findSlot s dc0 0 with
  | none => s
  | some v => setSlot s dc0 0 { v with bad := [w] }
def copyThree : CopyOp :=
  { mkOp demo copy0 (copyReq.take 44 ++ [3, 0, 1, 0, 1, 0, 1, 0, 1, 0] ++ List.replicate 10 0) copyLay with state := 1 }
def copyComp : CopyOp := { mkOp demo copy0 copyReq (copyLay.take 10 ++ [1] ++ copyLay.drop 11) with state := 1 }
def demoComp : State := match findSlot (demoEng copyComp) dc0 0 with
  | none => demo
  | some v => setSlot (demoEng copyComp) dc0 0 { v with bytes := [(0x200, 0x7E)] }

theorem wit_CopyEvents_errors :
    pagesIn (demoEng copyThree) copyThree = true
      ∧ pagesIn (spoil (demoEng copyThree) 0x40) copyThree = true ∧ (getCore (spoil (demoEng copyThree) 0x40) 0).eng = [copyThree]
      ∧ stepBad (spoil (demoEng copyThree) 0x40) 0 copyThree 0 3 = true
      ∧ stepBad (spoil (demoEng copyThree) 0x61) 0 copyThree 0 3 = false
      ∧ stepUndecodable (spoil (demoEng copyThree) 0x61) 0 copyThree 0 3 = false
      ∧ (spadOut (spoil (demoEng copyThree) 0x61) 0 copyThree 0 3).any (spadWriteBad (spoil (demoEng copyThree) 0x61) copyThree) = true
      ∧ (spadOut (demoEng copyThree) 0 copyThree 0 3).any (spadWriteBad (demoEng copyThree) copyThree) = false := by decide

/-- The same copy with a barrier object at 0x400: its phase expects 16 bytes, and 8; its page is away; the count of 16 bytes is due. -/
def barOp (req : List Byte) : CopyOp := { mkOp demo copy0 req copyLay with state := 2, next := 4, uncounted := 16 }
def copyReqBar : List Byte := copyReq.take 16 ++ bytesOfNat 4 0x80000400 ++ copyReq.drop 20
def demoBarrier (n : Nat) : State := match findSlot (demoEng (barOp copyReqBar)) dc0 0 with
  | none => demo
  | some v => setSlot (demoEng (barOp copyReqBar)) dc0 0 (v.write 0x400 (bytesDue n).bytes)

theorem wit_CopyEvents_counts :
    (barOp copyReqBar).plan.hasBar = true ∧ (barOp copyReqBar).plan.barSlots = [0] ∧ barWaits (demoBarrier 16) (barOp copyReqBar) = false
      ∧ countOverruns (demoBarrier 16) (barOp copyReqBar) = false ∧ countOverruns (demoBarrier 8) (barOp copyReqBar) = true
      ∧ barWaits (pageAway (demoBarrier 16)) (barOp copyReqBar) = true ∧ barNamed (demoBarrier 16) (barOp copyReqBar) = true
      ∧ pagesIn (demoBarrier 16) (barOp copyReqBar) = true
      ∧ ((findSlot (demoBarrier 16) dc0 0).map fun v => v.badHit 0x400 16 false) = some false := by decide

/-- A step into the scratchpad writes one run, inside a slot; one into global memory writes one run, inside one segment and one sector. -/
def copyOut : CopyOp :=
  { mkOp demo copy0 (bytesOfNat 4 1 ++ copyReqIn.drop 4) (copyLayAt 0x20000) with
    state := 1, segs := [⟨0x20000, 0x20000, 0x100, false⟩] }

theorem wit_CopyEvents_lands :
    ((spadOut (demoEng (copyOp 1 0 0 false)) 0 (copyOp 1 0 0 false) 0 4).map fun w => (w.1, w.2.1, w.2.2.length)) = [(0, 0x300, 16)]
      ∧ (copyOp 1 0 0 false).plan.dir = 2 ∧ copyOut.plan.dir = 1 ∧ copyOut.segs = [⟨0x20000, 0x20000, 0x100, false⟩]
      ∧ ((globalOut (demoEng copyOut) copyOut 0 4).map fun w => (w.1, w.2.length)) = [(0x20000, 16)] ∧ 0x20000 % 64 + 16 ≤ 64
      ∧ keyGet (demoEng copyOut).mem.tags (sectorOf 0x20000) = none ∧ (findSlot (demoEng copyOut) dc0 0).isSome = true
      ∧ Mem.wf (demoEng copyOut).mem.hbm = true
      ∧ (globalOut (demoEng copyOut) copyOut 0 4).any (globalBad (demoEng copyOut) copyOut) = false
      ∧ stepBad (demoEng copyOut) 0 copyOut 0 4 = false := by decide

/-- A request that fails without a barrier, in a team that goes on; one that fails and names a barrier whose page is away. -/
theorem wit_CopyEvents_fails :
    ((findTeam demoCopyBad dc0 0).map fun m => (m.retired, m.asyncN)) = some (false, 0)
      ∧ (launching demoCopyBad (copyAcc copy0) copy0).2.plan.hasBar = false
      ∧ barNamed demoCopyBad (mkOp demo copy0 (copyReq.take 16 ++ bytesOfNat 4 0x80000401 ++ copyReq.drop 20) copyLay) = false
      ∧ barWaits (pageAway (demoBarrier 16)) (barOp copyReqBar) = true ∧ barNamed (pageAway (demoBarrier 16)) (barOp copyReqBar) = true := by
  decide

theorem wit_CopyEvents_undecodable :
    pagesIn demoComp copyComp = true ∧ stepBad demoComp 0 copyComp 0 4 = false ∧ stepUndecodable demoComp 0 copyComp 0 4 = true := by
  decide

/-! ## Multicast, collectives and shuffles -/

/-- This device is 1; group 0 of context 0 has the members 1 and 2. -/
def inGroup (s : State) : State := { s with fab := { s.fab with selfIdx := 1, groups := [(0, 1), (32, 6)] } }

/-- Registers: 1 a count, 2 and 3 an offset, 4 and 5 a scratchpad address, 6 group 0. -/
def demoGroup : State := inGroup (demoRegs [(1, 4), (2, 0x2000), (4, 0x100), (5, 0xF0000000)])

theorem wit_FabricInstructions_mcst :
    demoGroup.th.place.core < 672 ∧ (eaOff demoGroup.th.ctx 2 0).toNat % 4 = 0 ∧ (eaOff demoGroup.th.ctx 2 0).toNat < 2 ^ 46
      ∧ groupOk demoGroup 0 demoGroup.th.place.ctx = true ∧ groupMembers demoGroup 0 = [1, 2] := by decide

theorem wit_FabricInstructions_mcld :
    (demoGroup.th.ctx.pair 2).toNat % 4 = 0 ∧ (demoGroup.th.ctx.pair 4).toNat % 16 = 0 ∧ (demoGroup.th.ctx.pair 2).toNat + 4 * 4 ≤ 2 ^ 46
      ∧ spadTag (demoGroup.th.ctx.pair 4) = true ∧ resolveSpad demoGroup (demoGroup.th.ctx.pair 4) 16 (4 * 4) = .ok (.spad dc0 0 0x100)
      ∧ gate (setExt demoGroup) 0 .wr (.spad dc0 0 0x100) (demoGroup.th.ctx.pair 4) (4 * 4) = .go :=
  ⟨by decide, by decide, by decide, by decide, ok_of (by decide), by decide⟩

/-- The group without members. -/
def inEmptyGroup (s : State) : State := { s with fab := { s.fab with selfIdx := 1, groups := [(0, 1)] } }

/-- Addresses that the two refuse, a destination that waits or traps, counts on both sides of their limits, and an empty group. -/
def demoGroupAt (l : List (Reg × Word)) : State := inGroup (demoRegs ([(1, 4), (2, 0x2000), (4, 0x100), (5, 0xF0000000)] ++ l))

theorem wit_FabricInstructions_places :
    demoGroup.th.accs = [] ∧ demoGroup.th.ctx.pred 15 = true ∧ (older demoGroup).th.accs ≠ []
      ∧ (eaOff (demoGroupAt [(2, 0x2002)]).th.ctx 2 0).toNat % 4 = 2 ∧ 2 ^ 46 ≤ ((demoGroupAt [(3, 0x4000)]).th.ctx.pair 2).toNat
      ∧ groupOk demoGroup 0 0 = true ∧ groupOk demoGroup 1 0 = false ∧ groupMembers demoGroup 0 = [1, 2]
      ∧ groupOk (inEmptyGroup demo) 0 0 = true ∧ groupMembers (inEmptyGroup demo) 0 = []
      ∧ mcldCount false 1 = true ∧ mcldCount false 4096 = true ∧ mcldCount false 0 = false ∧ mcldCount false 4097 = false
      ∧ mcldCount true 2 = true ∧ mcldCount true 8192 = true ∧ mcldCount true 3 = false
      ∧ 2 ^ 46 < 2 ^ 46 - 8 + mcldBytes false 4 ∧ spadTag 0x100 = false
      ∧ okOf (resolveSpad demoGroup 0xF000000000001000 16 16) = none
      ∧ gate (setExt demoAbsent) 0 .wr (.spad dc0 0 0) 0xF000000000000000 16 = .bad (.trap cAbsentStore 0 0xF000000000000000)
      ∧ gate (setExt demoUnpinned) 0 .wr (.spad dc0 0 0) 0xF000000000000000 16 = .park ∧ (findSlot demoGroup dc0 0).isSome = true := by
  decide

/-- A reduce-scatter, a counter operation, a counter operation with its counter out of range, and a shuffle. -/
def collDesc (kind ctr : Byte) (len : Byte) : List Byte := [kind, 0, 0, 0, ctr] ++ List.replicate 28 0 ++ [len] ++ List.replicate 30 0
def shfDesc : List Byte := [7, 0, 0, 0, 0, 0, 0, 0, 0, 1] ++ List.replicate 22 0 ++ bytesOfNat 8 0xF000000000000200 ++ List.replicate 24 0
def demoDesc (d : List Byte) : State := inGroup (demoSpad 0x100 [(0x100, d)])

def descIs (s : State) (d : List Byte) : Bool :=
  match readDesc s (eaXO s.th.ctx 2 none) with
  | .ok (some x) => x == d
  | .ok none => false
  | .error _ => false

theorem desc_of {s : State} {d : List Byte} (h : descIs s d = true) : readDesc s (eaXO s.th.ctx 2 none) = .ok (some d) := by
  unfold descIs at h
  split at h
  · rename_i x e
    rw [e, eq_of_beq h]
  · cases h
  · cases h

theorem wit_FabricInstructions_arm :
    readDesc (demoDesc (collDesc 0 255 1)) (eaXO (demoDesc (collDesc 0 255 1)).th.ctx 2 none) = .ok (some (collDesc 0 255 1))
      ∧ (findLaunch (demoDesc (collDesc 0 255 1)) 1).isSome = true ∧ dCtr (collDesc 0 255 1) = 255
      ∧ collDescOk (collDesc 0 255 1) 2 = true ∧ collDescOk (collDesc 5 255 0) 2 = true
      ∧ groupOk (demoDesc (collDesc 0 255 1)) 0 0 = true ∧ freeSlot (getEng (demoDesc (collDesc 0 255 1)) 0) = some 0
      ∧ dKind (collDesc 4 64 0) = 4 ∧ collDescOk (collDesc 4 64 0) 2 = false :=
  ⟨desc_of (by decide), by decide, by decide, by decide, by decide, by decide, by decide, by decide, by decide⟩

/-- A descriptor's failing check, and one in a sector still absent; a counter of another launch; no free slot. -/
def descFails (s : State) : Bool :=
  match readDesc s (eaXO s.th.ctx 2 none) with
  | .ok _ => false
  | .error _ => true
def descWaits (s : State) : Bool :=
  match readDesc s (eaXO s.th.ctx 2 none) with
  | .ok none => true
  | .ok (some _) => false
  | .error _ => false

theorem desc_fails {s : State} (h : descFails s = true) : ∃ e, readDesc s (eaXO s.th.ctx 2 none) = .error e := by
  unfold descFails at h
  split at h
  · cases h
  · rename_i e he
    exact ⟨e, he⟩

theorem desc_waits {s : State} (h : descWaits s = true) : readDesc s (eaXO s.th.ctx 2 none) = .ok none := by
  unfold descWaits at h
  split at h
  · rename_i e
    exact e
  · cases h
  · cases h

theorem wit_FabricInstructions_descriptor :
    (∃ e, readDesc (demoPtr 8) (eaXO (demoPtr 8).th.ctx 2 none) = .error e)
      ∧ readDesc demoAbsent (eaXO demoAbsent.th.ctx 2 none) = .ok none :=
  ⟨desc_fails (by decide), desc_waits (by decide)⟩

def demoCtrHeld : State := holdCtr (demoDesc (collDesc 0 3 1)) 0 3 7
def demoAllRun : CollEngine :=
  { demo.coll0 with ops := (List.range 64).map fun n => { mkColl demo (probeLaunch 1) none 6 false (collDesc 0 255 1) 255 0 0 none with slot := n } }

theorem wit_FabricInstructions_refused :
    okOf (readDesc demoCtrHeld (eaXO demoCtrHeld.th.ctx 2 none)) = some (some (collDesc 0 3 1)) ∧ dCtr (collDesc 0 3 1) = 3
      ∧ ctrElse demoCtrHeld 0 3 1 = true ∧ collDescOk (collDesc 0 3 1) 2 = true
      ∧ groupOk (demoDesc (collDesc 0 255 1)) 1 0 = false ∧ dGroup ([0, 0, 1, 0] ++ (collDesc 0 255 1).drop 4) = 1
      ∧ freeSlot demoAllRun = none ∧ dKind (collDesc 5 63 0) = 5 ∧ dCtr (collDesc 5 63 0) < demo.coll0.ctrs.length
      ∧ dThresh (collDesc 0 255 1) ≤ (getCtr demo 0 255).val.toNat := by decide

theorem wit_FabricInstructions_post :
    readDesc (demoDesc shfDesc) (eaXO (demoDesc shfDesc).th.ctx 2 none) = .ok (some shfDesc) ∧ shfDescOk shfDesc = true
      ∧ (demoDesc shfDesc).fab.selfIdx.toNat ∈ groupMembers (demoDesc shfDesc) (dGroup shfDesc % 4096)
      ∧ findShf (demoDesc shfDesc) (sidOf 0 7) = none ∧ readSides (setExt (demoDesc shfDesc)) shfDesc = .ok (some [])
      ∧ freeSlot (getEng (demoDesc shfDesc) 0) = some 0 :=
  ⟨desc_of (by decide), by decide, by decide, by decide, ok_of (by decide), by decide⟩

/-- An operation in slot 0 of die 0. -/
def coll0 (shf : Bool) (st : Nat) (fired : Bool) (d : List Byte) : CollOp :=
  { mkColl demoGroup (probeLaunch 1) none 6 shf d 255 0 0 none with st := st, fired := fired }
def demoColl (o : CollOp) : State := { demoGroup with coll0 := { demoGroup.coll0 with ops := [o], buf := 64 } }

theorem wit_FabricInstructions_wait :
    waitAnswer (demoColl (coll0 false 2 true (collDesc 0 255 1))) 0 false = some 1
      ∧ waitAnswer demoGroup 0x80000001 true = some 0x101 ∧ waitAnswer demoGroup 0x80 true = some 3
      ∧ (findShf (demoColl (coll0 true 1 true shfDesc)) (sidOf 0 7)).isSome = true
      ∧ findShf demoGroup (sidOf 0 7) = none ∧ (demoGroup.th.ctx.reg 1).toNat < 1024 := by decide

/-- `shf.side` on a running shuffle of four members: a declaration that breaks its form, one evicted, refused, waiting and entered. -/
def shfFour : CollOp := { coll0 true 1 true shfDesc with members := [1, 2, 3, 4] }
def demoShf : State := demoColl shfFour
def checkOf (c : SideCheck) : Nat :=
  match c with
  | .lost => 0
  | .refuse => 1
  | .enter _ => 2

theorem enter_of {c : SideCheck} (h : checkOf c = 2) : ∃ l, c = .enter l := by
  cases c with
  | lost => cases h
  | refuse => cases h
  | enter l => exact ⟨l, rfl⟩

def sideIn : Side := { u := ⟨7, 1, 2, 0⟩, lid := 1, ctx := 0, keyId := 0, segs := [] }
def demoShfSide : State := { demoShf with coll0 := { demoShf.coll0 with side := [sideIn] } }

theorem wit_FabricInstructions_side :
    findShf demoShf 7 = some (0, shfFour) ∧ findColl demoShf 0 shfFour.slot = some shfFour ∧ shfFour.sides = []
      ∧ checkSide demoShf 0 shfFour 1 0 0x20000 = .refuse ∧ checkSide demoShf 0 shfFour 1 2 0x80000000 = .lost
      ∧ (0x80020001 : Word).toNat / 0x80000000 = 1 ∧ (0x00020001 : Word).toNat / 0x80000000 ≠ 1
      ∧ (0x00020001 : Word).toNat / 1024 % 64 = 0 ∧ (0x00020001 : Word).toNat / 0x4000000 % 32 = 0 ∧ (0x400 : Word).toNat / 1024 % 64 ≠ 0
      ∧ sideIn ∈ (getEng demoShfSide 0).side := by decide

theorem wit_FabricInstructions_enter : ∃ l, checkSide demoShf 0 shfFour 1 2 0x20000 = .enter l := enter_of (by decide)

/-- A shuffle whose number runs already, whose side list is in no scratchpad, and whose side list waits. -/
def shfDescSide (side : Nat) (n : Byte) : List Byte :=
  shfDesc.take 12 ++ [n] ++ (shfDesc.drop 13).take 19 ++ bytesOfNat 8 side ++ List.replicate 24 0
def sidesFail (s : State) (d : List Byte) : Option Nat :=
  match readSides s d with
  | .ok _ => none
  | .error m => some m

theorem wit_FabricInstructions_sides :
    shfDescOk (shfDescSide 0x20000 1) = true ∧ sidesFail (setExt demo) (shfDescSide 0x20000 1) = some 1
      ∧ okOf (readSides (setExt demoAbsent) (shfDescSide 0xF000000000000000 1)) = some none
      ∧ (findShf (demoColl (coll0 true 1 true shfDesc)) (sidOf 0 (shSid shfDesc))).isSome = true
      ∧ shfDescOk (shfDesc.take 9 ++ List.replicate 55 0) = false ∧ groupOk (demoDesc shfDesc) 0 0 = true := by decide

def unit0 : UnitTag := ⟨7, 1, 0, 0⟩

theorem wit_CollectiveEvents :
    findColl (demoColl (coll0 false 0 true (collDesc 0 255 1))) 0 0 = some (coll0 false 0 true (collDesc 0 255 1))
      ∧ firstOfGroup (demoColl (coll0 false 0 true (collDesc 0 255 1))) (coll0 false 0 true (collDesc 0 255 1)) = true
      ∧ (collNeeds (demoColl (coll0 false 0 true (collDesc 0 255 1))) (coll0 false 0 true (collDesc 0 255 1))).contains 1 = true
      ∧ (List.replicate 256 (0 : Byte)).length = dLen (collDesc 0 255 1)
      ∧ partMay (demoColl (coll0 false 1 true (collDesc 4 255 0))) (coll0 false 1 true (collDesc 4 255 0)) 0 = true
      ∧ partMay (demoColl (coll0 false 1 true (collDesc 0 255 1))) (coll0 false 1 true (collDesc 0 255 1)) 0x13 = true := by decide

theorem wit_CollectiveEvents_shuffle :
    findColl (runSides (demoColl (coll0 true 1 false shfDesc)) 0 0) 0 0 = some (coll0 true 1 false shfDesc)
      ∧ memberAbsent (runSides (demoColl (coll0 true 1 false shfDesc)) 0 0) (coll0 true 1 false shfDesc) = false
      ∧ findShf (demoColl (coll0 true 1 true shfDesc)) 7 = some (0, coll0 true 1 true shfDesc)
      ∧ awaitsUnit (demoColl (coll0 true 1 true shfDesc)) (coll0 true 1 true shfDesc) unit0 = true
      ∧ unit0.rcv = (coll0 true 1 true shfDesc).own (demoColl (coll0 true 1 true shfDesc))
      ∧ (⟨7, 0, 1, 0⟩ : UnitTag).snd = (coll0 true 1 true shfDesc).own (demoColl (coll0 true 1 true shfDesc))
      ∧ 1 < (coll0 true 1 true shfDesc).n ∧ 0 < shBsize shfDesc / 256 ∧ shNocode shfDesc = false
      ∧ (getEng (demoColl (coll0 true 1 true shfDesc)) 0).resv.length < (getEng (demoColl (coll0 true 1 true shfDesc)) 0).slots
      ∧ findShf demoGroup 7 = none ∧ keyGet demoGroup.fab.incs 2 = none ∧ demoGroup.fab.pairs = [] := by decide

/-- What the launch point answers: it goes on, waits for a page, fails without its key; then a member absent, or a lock in the way. -/
def planIs (p : CollPlan) : Option Nat :=
  match p with
  | .lost => some 0
  | .fail c => some c
  | .go _ _ => none

theorem plan_go {p : CollPlan} (h : planIs p = none) : ∃ g l, p = .go g l := by
  cases p with
  | lost => cases h
  | fail c => cases h
  | go g l => exact ⟨g, l, rfl⟩

def armed : CollOp := coll0 false 0 true (collDesc 0 255 1)
def posted : CollOp := coll0 true 0 false shfDesc
/-- The reduce-scatter with SRC and DST at `a`, its status record at `st`. -/
def armedAt (a st : Nat) : CollOp :=
  { armed with desc := [0, 0, 0, 0, 255] ++ List.replicate 11 0 ++ bytesOfNat 8 a ++ bytesOfNat 8 a ++ [0, 1, 0, 0, 0, 0, 0, 0]
      ++ bytesOfNat 8 st ++ List.replicate 16 0 }
def lockedAt (s : State) : State := { s with mem := { s.mem with locks := [⟨.copy 1 0, 0, 0, 64, true⟩] } }
def lacking (s : State) : State := { s with fab := { s.fab with absent := [2] } }

theorem wit_CollectiveEvents_launch :
    (∃ g l, planColl (demoColl armed) 0 armed = .go g l) ∧ (∃ g l, planColl (demoColl posted) 0 posted = .go g l)
      ∧ planColl (demoColl (armedAt 0x80000000 0)) 0 (armedAt 0x80000000 0) = .lost
      ∧ planIs (planColl (demoColl armed) 0 { armed with keyId := 5 }) = some 5
      ∧ memberAbsent (demoColl armed) armed = false ∧ memberAbsent (lacking (demoColl armed)) armed = true
      ∧ collBlocked (demoColl armed) (rangeLocks (.coll 0 0) 0 true [⟨0, 0, 256, false⟩]) = false
      ∧ collBlocked (lockedAt (demoColl armed)) (rangeLocks (.coll 0 0) 0 true [⟨0, 0, 256, false⟩]) = true
      ∧ armed.err = 0 ∧ armed.st = 0 ∧ armed.fired = true ∧ posted.fired = false ∧ posted.sides = [] ∧ posted.st = 0 :=
  ⟨plan_go (by decide), plan_go (by decide), by decide, by decide, by decide, by decide, by decide, by decide, by decide, by decide, by decide,
    by decide, by decide, by decide⟩

/-- The two things that hold a launch point up: a lock, and an operation that began to wait before; and what was waiting already. -/
def waiter : CollOp := { armed with slot := 1, arrived := [3, 0] }
def demoBehind : State := { demoColl armed with coll0 := { (demoColl armed).coll0 with ops := [armed, waiter] }, fresh := 5 }

theorem wit_CollectiveEvents_behind :
    behindOther demoBehind armed.arrived (rangeLocks (.coll 0 0) 0 true [⟨0, 0, 256, false⟩]) = true
      ∧ behindOther (demoColl armed) armed.arrived (rangeLocks (.coll 0 0) 0 true [⟨0, 0, 256, false⟩]) = false
      ∧ rangeLocks (.coll 0 0) 0 true [⟨0, 0, 256, false⟩] ≠ [] ∧ armed.arrived = [] ∧ waiter.arrived ≠ [] := by decide

/-- Data for the group's next collective, and from a member whose data is in; a status record that is written, waits, is lost, fails. -/
theorem wit_CollectiveEvents_data :
    nextFrom (demoColl armed) 0 1 = some armed ∧ nextFrom (demoColl { armed with data := [(1, [])] }) 0 1 = none
      ∧ okOf (statusPieces (demoColl armed) 0 armed) = some (some [])
      ∧ okOf (statusPieces (demoColl armed) 0 (armedAt 0 0x40)) = some (some [⟨0x40, 0x40, 32, false⟩])
      ∧ statusWaits (demoColl armed) (armedAt 0 0x40) [⟨0x40, 0x40, 32, false⟩] = false
      ∧ statusWaits (lockedAt (demoColl armed)) (armedAt 0 0x20) [⟨0x20, 0x20, 32, false⟩] = true
      ∧ okOf (statusPieces (demoColl armed) 0 (armedAt 0 0x80000000)) = some none
      ∧ okOf (statusPieces (demoColl armed) 0 { armedAt 0 0x40 with keyId := 5 }) = none
      ∧ partMay (demoColl armed) { armed with err := 4 } 4 = true ∧ partMay (demoColl armed) armed 0 = false
      ∧ armed.tid = none ∧ { armed with tid := some demo.th.id }.tid = some (demoColl armed).th.id
      ∧ (∃ k ∈ (demoColl armed).clusters, k.id.lid = armed.lid) := by decide

/-- A coded unit of which device 1, at position 0, holds the other half; check codes that match, and one that does not. -/
def unitA : UnitTag := ⟨7, 1, 0, 0⟩
def unitB : UnitTag := ⟨7, 0, 1, 0⟩
def running : CollOp := coll0 true 1 true shfDesc
def demoResv (o : CollOp) : State :=
  { demoColl o with coll0 := { (demoColl o).coll0 with resv := [⟨2, 0, unitA, unitB⟩] } }

theorem decodes_of {h : Option (List Byte)} {cu cv : Word} {d : List Byte} (e : (decodeUnit h cu cv d).isSome = true) :
    ∃ bs, decodeUnit h cu cv d = some bs := Option.isSome_iff_exists.mp e

theorem wit_CollectiveEvents_units :
    awaitsUnit (demoResv running) running unitA = true ∧ ((getEng (demoResv running) 0).resv.any fun r => r.u == unitA && r.v == unitB) = true
      ∧ heldUnit (demoResv running) 0 running unitB = some (List.replicate 256 0)
      ∧ decodeUnit (some [0, 0]) 0 0 [0, 0] = none ∧ decodeUnit none 0 0 [] = none
      ∧ awaitsUnit (demoResv { running with units := [unitA] }) { running with units := [unitA] } unitA = false
      ∧ findSent (demoColl running) 7 = some (0, running) ∧ findSent demoGroup 7 = none
      ∧ keyGet [(2, 5)] 2 = some (5 : Nat) ∧ [(⟨unitA, unitB, some true, none⟩ : Pairing)].find? (fun p => p.u == unitA && p.v == unitB)
          = some ⟨unitA, unitB, some true, none⟩ := by decide

/-- Two units that may be coded: each receiver sends the other's; and a pair that has been asked for. -/
theorem wit_CollectiveEvents_pairs :
    unitA.sid = unitB.sid ∧ unitA.rcv ≠ unitB.rcv ∧ unitA.snd ≠ unitA.rcv ∧ unitB.snd ≠ unitB.rcv
      ∧ receiverHolds (demoResv running) running.members unitA.rcv unitB = true
      ∧ receiverHolds (demoResv running) running.members unitB.rcv unitA = true
      ∧ pairStands { demo with fab := { demo.fab with pairs := [⟨unitA, unitB, some true, none⟩] } } unitA unitB = true
      ∧ pairStands (demoResv running) unitA unitA = false ∧ shNocode shfDesc = false
      ∧ (getEng (demoResv running) 0).resv.length < 128 * (getEng (demoResv running) 0).buf
      ∧ genOf (demoResv running) running.keyId ≠ none ∧ running.st ≠ 0 ∧ unitB.snd = running.own (demoResv running)
      ∧ unitB.rcv < running.n ∧ genOf (demoResv running) 5 = none := by decide

theorem wit_CollectiveEvents_decodes :
    ∃ bs, decodeUnit (some (List.replicate 256 0)) (crc32c ((List.replicate 256 0).zipWith (fun p q => p ^^^ q) (List.replicate 256 0)))
      (crc32c (List.replicate 256 0)) (List.replicate 256 0) = some bs :=
  decodes_of (by simp only [decodeUnit, List.length_replicate, beq_self_eq_true, decide_true, Bool.and_self, if_true, Option.isSome_some])

/-! ## Launches, clusters and firmware -/

/-- The cluster of `demo` in another state. -/
def clus0 (st : CStatus) (rs : List Nat) : Cluster := { probeCluster 1 with status := st, reasons := rs }
def demoClus (st : CStatus) (rs : List Nat) : State := { demo with clusters := [clus0 st rs] }

theorem wit_ClusterEvents :
    findCluster demo dc0 = some (clus0 .resident []) ∧ findLaunch demo 1 = some (probeLaunch 1)
      ∧ findCluster (demoClus .saved [1]) dc0 = some (clus0 .saved [1]) ∧ restoreOk (demoClus .saved [1]) (probeLaunch 1) (clus0 .saved [1]) [335] = true
      ∧ findCluster (demoClus .waiting []) dc0 = some (clus0 .waiting [])
      ∧ bitN (probeLaunch 1).dieMask ([335].headD 0 / 336) = true ∧ placeOk (demoClus .waiting []) (probeLaunch 1) 0 [335] = true
      ∧ findCluster (demoClus .saved [4]) dc0 = some (clus0 .saved [4]) ∧ findCluster (demoClus .saved [2]) dc0 = some (clus0 .saved [2])
      ∧ demo.pool = [] ∧ demo.th.cid = dc0 ∧ demo.th.live = true := by decide

theorem wit_ClusterEvents_service :
    (demoClus .saved [3]).th.id = ⟨1, 0, (demoClus .saved [3]).th.id.team, (demoClus .saved [3]).th.id.tid⟩
      ∧ (modTh (demoClus .saved [3]) fun t => { t with status := .svc 0x0E 0 }).th.status = .svc 0x0E 0
      ∧ (findSlot demo dc0 0).isSome = true
      ∧ { ((findSlot demo dc0 0).getD (newSlot (probeLaunch 1) 0 0)) with unpinned := [0] }.unpinned.contains 0 = true := by decide

/-- A page of slot 0 in its backing page; a page whose bits say that a sector is absent. -/
theorem wit_ClusterEvents_refill :
    (clus0 .resident []).pageAt 0 0 = 0 ∧ ({ clus0 .resident [] with back := 0x800000 }).bitsAt 0 1 = 0x900010
      ∧ (clus0 .resident []).status = .resident ∧ clusterGen demo dc0 = gen0 demo
      ∧ (natOfBytes [2]).testBit (1 % 128) = true ∧ (natOfBytes [2]).testBit (0 % 128) = false ∧ 32 * 129 / 4096 = 1 := by decide

/-- A saved cluster that waits for pages with a trap of the page; one being placed whose arguments' page is away; the state in which
nothing of each event applies; and an uncorrectable error in a team that is resident, and in one that is saved. -/
def demoPageTrap : State := modTh (demoClus .saved [2]) fun t => { t with status := .svc 0x0B 0x20000 }

theorem wit_ClusterEvents_pages :
    demoPageTrap.th.cid = dc0 ∧ demoPageTrap.th.status = .svc 0x0B 0x20000 ∧ lostPages demoPageTrap dc0 = [0x20000 / 65536]
      ∧ findCluster demoPageTrap dc0 = some (clus0 .saved [2]) ∧ findLaunch demoPageTrap 1 = some (probeLaunch 1)
      ∧ findCluster { demo with clusters := [{ clus0 .placing [] with argFault := some (11, 0x20000) }] } dc0
          = some { clus0 .placing [] with argFault := some (11, 0x20000) }
      ∧ (2 : Nat) ∉ (clus0 .saved [1]).reasons ∧ restoreOk (demoClus .saved [1]) (probeLaunch 1) (clus0 .saved [1]) [336] = false
      ∧ placeOk (demoClus .waiting []) (probeLaunch 1) 1 [336] = true ∧ bitN (probeLaunch 1).dieMask ([336].headD 0 / 336) = false
      ∧ ¬((0 : DWord) < demo.th.place.rslim) ∧ Mem.wf ((findSlot demo dc0 0).getD (newSlot (probeLaunch 1) 0 0)).bytes = true := by decide

theorem wit_ClusterEvents_limit :
    (modTh (demoClus .saved [3]) fun t => { t with place := { t.place with rslim := 0x100 } }).th.place.rslim = 0x100
      ∧ ((0xFF : DWord) < 0x100) ∧ ¬((0x100 : DWord) < 0x100) ∧ (demoClus .saved [3]).pool = [] := by decide

/-- A launch record with every field in its limits, as the last record of queue 15, and one whose team count is 0. -/
def rec0 (teams : Byte) : List Byte :=
  bytesOfNat 8 0x10000 ++ bytesOfNat 4 64 ++ List.replicate 16 0 ++ [1, 0, 0, 0, 1, 0, 1, 0, 1, 0, 1, 0, teams, 1, 16, 0, 64]
    ++ List.replicate 84 0 ++ [11, 12, 0] ++ bytesOfNat 4 0x00083300 ++ List.replicate 120 0
def demoQueue (r : List Byte) : State :=
  let s := fwStore demo (gen0 demo) 0x30000 (bytesOfNat 8 0x40000 ++ bytesOfNat 4 0 ++ bytesOfNat 4 1 ++ List.replicate 48 0)
  let s := fwStore s (gen0 s) 0x40000 r
  { s with ctl := { s.ctl with queues := s.ctl.queues.set 15 0x30000 } }
def taken (s : State) : Launch := launchOf (1 + s.launches.foldl (fun m l => Nat.max m l.lid) 0) 0x40000 15 (readZero s 0x40000 256)

theorem wit_LaunchEvents_record :
    (demoQueue (rec0 1)).ctl.up = true ∧ queueValid (demoQueue (rec0 1)) 15 = true ∧ pendingOf (demoQueue (rec0 1)) 15 = []
      ∧ (qHeader (demoQueue (rec0 1)) 15).fill = 1 ∧ (qHeader (demoQueue (rec0 1)) 15).recAt 0 = 0x40000
      ∧ badHit (demoQueue (rec0 1)).mem 0x40000 256 false = false ∧ recordOk (readZero (demoQueue (rec0 1)) 0x40000 256) = true
      ∧ handlerOk (demoQueue (rec0 1)) 0 (taken (demoQueue (rec0 1))) = true ∧ bindOk (demoQueue (rec0 1)) 0 (taken (demoQueue (rec0 1))) = true
      ∧ bitN (taken (demoQueue (rec0 1))).dieMask 0 = true ∧ (taken (demoQueue (rec0 1))).nChunk = 0 := by decide

/-- The record's turn has come and nothing is in its way; a lock on it, or on its code, makes it wait. -/
def demoQueueLock (lo : Nat) : State :=
  { demoQueue (rec0 1) with mem := { (demoQueue (rec0 1)).mem with locks := [⟨.copy 1 0, 0, lo, lo + 64, true⟩] } }

theorem wit_LaunchEvents_due :
    fwMayRead (demoQueue (rec0 1)) 0x30000 64 = true ∧ fwMayRead (demoQueue (rec0 1)) 0x40000 256 = true
      ∧ (demoQueue (rec0 1)).ctl.queues.getD 15 0 = 0x30000
      ∧ recordBusy (demoQueue (rec0 1)) 0 (taken (demoQueue (rec0 1))) = false
      ∧ fwMayRead (demoQueueLock 0x40000) 0x40000 256 = false
      ∧ (taken (demoQueue (rec0 1))).nChunk ≤ freeSlots (getEng (demoQueue (rec0 1)) (taken (demoQueue (rec0 1))).bDie)
      ∧ bitN (taken (demoQueue (rec0 1))).dieMask 1 = false := by decide

/-- The record names a handler whose page is held by a copy. -/
def recHandler : List Byte := (rec0 1).take 104 ++ bytesOfNat 8 0x10000 ++ (rec0 1).drop (112)
def demoQueueHandler : State :=
  let s := demoQueue recHandler
  { s with mem := { s.mem with locks := [⟨.copy 1 0, 0, 0x10000, 0x10040, true⟩] },
           xl := { s.xl with tlb := s.xl.tlb.map fun e => { e with ctx := 1 } } }

theorem wit_LaunchEvents_busy :
    recordOk (readZero demoQueueHandler 0x40000 256) = true ∧ recordBusy demoQueueHandler 0 (taken demoQueueHandler) = true := by decide

theorem wit_LaunchEvents_refused :
    queueValid (demoQueue (rec0 0)) 15 = true ∧ pendingOf (demoQueue (rec0 0)) 15 = []
      ∧ recordOk (readZero (demoQueue (rec0 0)) 0x40000 256) = false := by decide

/-- A launch whose record is at 0x40000, TICKET there `k`, with no cluster placed. -/
def launch0 : Launch := { probeLaunch 1 with recAddr := 0x40000, stopped := 0, closed := false, placed := 0 }
def demoTicket (k : Nat) : State :=
  let s := { demo with launches := [launch0], clusters := [] }
  fwStore s (gen0 s) (0x40000 + 248) (bytesOfNat 4 k)

theorem wit_LaunchEvents_claim :
    findLaunch (demoTicket 0) 1 = some launch0 ∧ launch0.complete = false ∧ bitN launch0.dieMask 0 = true ∧ bitN launch0.stopped 0 = false
      ∧ (demoTicket 0).ctl.up = true ∧ ((pendingOf (demoTicket 0) 0).takeWhile fun x => x.lid != 1) = []
      ∧ ticketOf (demoTicket 0) launch0 < launch0.n ∧ placeOk (demoTicket 0) launch0 0 [0] = true
      ∧ findLaunch (demoTicket 1) 1 = some launch0 ∧ launch0.n ≤ ticketOf (demoTicket 1) launch0 := by decide

theorem wit_LaunchEvents_noclaim :
    fwMayRead (demoTicket 0) (0x40000 + 248) 4 = true ∧ bitN launch0.dieMask 1 = false
      ∧ placeOk (demoTicket 0) launch0 0 [336] = false ∧ ticketOf (demoTicket 0) launch0 = 0 := by decide

theorem wit_LaunchEvents_end :
    findCluster { demo with clusters := [{ clus0 .retired [] with teams := [] }] } dc0 = some { clus0 .retired [] with teams := [] }
      ∧ worksOn { demo with clusters := [{ clus0 .retired [] with teams := [] }] } dc0 = false
      ∧ demo.ctl.launchEnd.getLsbD 0 = false ∧ (0x11 : Word).getLsbD 0 = true
      ∧ (∀ x ∈ demo.launches, x.complete = true ∨ x.ctx ≠ (0x11 : Word).toNat / 16 % 65536) := by decide

/-- A cluster whose only team has a thread, one whose threads have ended but whose copy still runs, and a context with an open launch. -/
theorem wit_LaunchEvents_retire :
    ((findCluster ((List.range 1).foldl (fun s i => retireTeam s dc0 i) demo) dc0).map fun k => k.teams.all (·.retired)) = some false
      ∧ ((findCluster ((List.range 1).foldl (fun s i => retireTeam s dc0 i) (modTh demo fun t => { t with status := .exited })) dc0).map
          fun k => k.teams.all (·.retired)) = some true
      ∧ worksOn (demoEng (copyOp 1 0 0 false)) dc0 = true
      ∧ ((demo.launches.filter fun l => !l.complete && l.ctx == (0x1 : Word).toNat / 16 % 65536).map (·.lid)) = [1]
      ∧ ({ demo.ctl with launchEnd := 1 }.launchEnd).getLsbD 0 = true ∧ (0x10 : Word).getLsbD 0 = false := by decide

/-! ## Translation, caches, keys -/

/-- A table with one 2 GiB leaf at 0x80000000 for addresses from 0. -/
def demoTable : State :=
  let put (s : State) (pa e : Nat) : State := fwStore s (gen0 s) pa (bytesOfNat 8 e)
  put (put (put { demo with launches := [{ probeLaunch 1 with root := 0x50000 }] } 0x50000 0x51001) 0x51000 0x52001) 0x52000 0x80000003

theorem wit_TranslationEvents_walk :
    findLaunch demoTable 1 = some { probeLaunch 1 with root := 0x50000 } ∧ (probeLaunch 1).hlim.toNat ≤ 0
      ∧ walk demoTable 0 0x50000 0 = .ok { page := 0x80000000, size := 31, w := false, x := false, mir := false } :=
  ⟨by decide, by decide, ok_of (by decide)⟩

def migA : Migration := ⟨0x20000, 0x30000, 2 ^ 16, false⟩
def demoInval : State := { demo with xl := { demo.xl with invCtl := 1 } }

theorem wit_TranslationEvents :
    demoInval.xl.invCtl.getLsbD 0 = true ∧ demo.xl.invCtl.getLsbD 0 = false ∧ (0xFFFFFFFF : Word).getLsbD 0 = true
      ∧ staleWork { demoInval with xl := dropTlb demoInval.xl } = false ∧ (0x80000000 : Nat) % 2 ^ 16 = 0
      ∧ 0x80000000 + 2 ^ 16 ≤ Config.hbmTop ∧ demo.mem.locks = [] ∧ demo.mem.migs = [] ∧ State.reset.xl.tlb = []
      ∧ { demo.mem with migs := [⟨0x20000, 0x30000, 2 ^ 16, false⟩] }.migs = [⟨0x20000, 0x30000, 2 ^ 16, false⟩] ∧ migA.newPa % migA.len = 0
      ∧ migA.newPa + migA.len ≤ Config.hbmTop ∧ migA.pa + migA.len ≤ migA.newPa := by decide

/-- A page inside a launch's heap, a walk that fails, work still under a dropped translation, pages that may and may not migrate or
switch, and the copy of a page that nothing waits on. -/
def demoHeapLaunch : State := { demo with launches := [{ probeLaunch 1 with hlim := 0x10000000 }] }
def demoStale : State :=
  modTh { demo with xl := { demo.xl with invCtl := 1 } } fun t => { t with accs := [acc (.store [1, 0, 0, 0]) 0x20000 (.hbm 0x20000 false)] }
def walkCode (e : Except Nat Leaf) : Option Nat :=
  match e with
  | .ok _ => none
  | .error c => some c

theorem walk_fails {e : Except Nat Leaf} {c : Nat} (h : walkCode e = some c) : e = .error c := by
  cases e with
  | ok l => cases h
  | error x => simpa [walkCode] using h

theorem wit_TranslationEvents_stale :
    ({ probeLaunch 1 with hlim := 0x10000000 } : Launch).hbase.toNat ≤ 0x8000 ∧ 0x8000 < ({ probeLaunch 1 with hlim := 0x10000000 } : Launch).hlim.toNat
      ∧ walk demo 0 0 0x80000000 = .error 0x0B ∧ staleWork { demoStale with xl := dropTlb demoStale.xl } = true
      ∧ (walkPath demoTable.xl demoTable.mem (gen0 demoTable) 0 0 walkLevels 0x50000).any (fun r => r.2.2.2 != 0) = true
      ∧ heapPage demo 0x30000 (2 ^ 16) = false ∧ lockHit demo.mem 0x30000 (2 ^ 16) = false ∧ (migHit demo.mem 0x30000 (2 ^ 16)) = none
      ∧ heapPage demoHeapLaunch 0x30000 (2 ^ 16) = true ∧ codeHit demo 0x30000 (2 ^ 16) = false ∧ codeHit demo 0x10000 (2 ^ 16) = true :=
  ⟨by decide, by decide, walk_fails (by decide), by decide, by decide, by decide, by decide, by decide, by decide, by decide⟩

def demoMigrating : State := { demo with mem := { demo.mem with migs := [migA] }, xl := { demo.xl with tlb := [], nodes := [] } }

theorem wit_TranslationEvents_switch :
    (demoMigrating.mem.migs.find? fun h => h.pa == migA.pa) = some migA ∧ 0x30000 = migA.newPa ∧ migA.newPa % migA.len = 0
      ∧ migA.mir = false ∧ migA.newPa + migA.len ≤ Config.hbmTop ∧ migA.pa + migA.len ≤ migA.newPa
      ∧ (∀ p ∈ replicas migA.newPa migA.mir, lockHit demoMigrating.mem p migA.len = false ∧ heapPage demoMigrating p migA.len = false
          ∧ codeHit demoMigrating p migA.len = false)
      ∧ (∀ p ∈ replicas migA.pa migA.mir, heapPage demoMigrating p migA.len = false)
      ∧ (∀ h ∈ demoMigrating.mem.migs, h = migA) ∧ demoMigrating.xl.tlb = [] ∧ demoMigrating.xl.nodes = []
      ∧ heldAt demoMigrating migA = [] ∧ (0x40000 : Nat) ≠ migA.newPa ∧ Mem.wf demoMigrating.mem.hbm = true
      ∧ (State.reset.mem.migs.find? fun g => g.pa == 0x20000) = none := by decide

/-- A mirror page, whose replicas lie on both dies, may migrate to another; not beyond the first die's memory. -/
def migM : Migration := ⟨0x40000, 0x80000, 2 ^ 16, true⟩

theorem wit_TranslationEvents_mirror :
    migM.pa % migM.len = 0 ∧ migM.pa + migM.len ≤ Config.dieOneBase ∧ migM.newPa + migM.len ≤ Config.dieOneBase
      ∧ replicas migM.pa migM.mir = [0x40000, 0x40000 + Config.dieOneBase]
      ∧ (∀ p ∈ replicas migM.pa migM.mir, lockHit demo.mem p migM.len = false ∧ migHit demo.mem p migM.len = none ∧ heapPage demo p migM.len = false)
      ∧ (∀ p ∈ replicas migM.newPa migM.mir, lockHit demo.mem p migM.len = false ∧ heapPage demo p migM.len = false
          ∧ codeHit demo p migM.len = false)
      ∧ ¬(Config.dieOneBase + migM.len ≤ Config.dieOneBase) ∧ (2 ^ 16 = migM.len) := by decide

/-- A command word: OP 1 installs, 2 destroys. -/
def demoKey (op id : Nat) : State := { demo with ctl := { demo.ctl with kcmd := wOf (1 + 2 * op + 16 * id) } }

theorem wit_KeyCommands :
    (demoKey 1 4095).ctl.kcmd.getLsbD 0 = true ∧ (demoKey 1 4095).ctl.kcmdOp = 1 ∧ (demoKey 1 4095).ctl.kcmdKey = 4095
      ∧ genOf (demoKey 1 4095) 4095 = none
      ∧ genOf { (demoKey 1 4095) with ctl := { (demoKey 1 4095).ctl with keys := [⟨4095, [], 7⟩] } } 4095 ≠ none := by decide

theorem wit_KeyCommands_destroy :
    (demoKey 2 0).ctl.kcmd.getLsbD 0 = true ∧ (demoKey 2 0).ctl.kcmdOp = 2 ∧ (demoKey 2 0).ctl.kcmdKey = 0 ∧ (demoKey 2 0).ctl.destroying = false
      ∧ keyInUse (demoKey 2 4095) 4095 = false
      ∧ keyInUse { (demoKey 2 4095) with launches := [{ probeLaunch 1 with keyId := 4095 }] } 4095 = true
      ∧ { demo.ctl with destroying := true }.destroying = true := by decide

/-- Every queue's records can be read; a lock on one of them. -/
theorem wit_KeyCommands_queues :
    queuesReadable demo = true ∧ queuesReadable { demo with mem := { demo.mem with locks := [⟨.copy 1 0, 0, 0, 64, true⟩] } } = false := by decide

theorem wit_KeyCommands_zero :
    { (demoKey 1 0).ctl with key0Done := true }.key0Done = true ∧ (demoKey 1 0).ctl.kcmdKey = 0
      ∧ (demoKey 2 4095).ctl.kcmdKey = 4095 ∧ (demoKey 1 4095).ctl.kcmdOp ≠ 2 ∧ demo.ctl.kcmd.getLsbD 0 = false := by decide

/-! ## Control space, host complex and sensors -/

theorem wit_ControlEvents :
    1 < demo.ctl.loupe.length
      ∧ ctlWords .machine 0x600000 4 ≠ none ∧ ctlWords .user 0 4 = none ∧ inCtl 0x20000 = false ∧ hartSize 8 = true ∧ inHbm 0x20000 8 = true
      ∧ badHit demo.mem 0x20000 8 false = false ∧ inHbm (Config.hbmTop - 1) 1 = true ∧ llcFind demo.mem (sectorOf (Config.hbmTop - 1)) = none
      ∧ { demo.mem with soft := [0x1000] }.soft.contains (0x20000 / 32) = true
      ∧ overLimit { demo.ctl with pwr := 3600000 } = true ∧ demo.ctl.tripOn = false ∧ State.reset.ctl.up = false := by decide

theorem wit_ControlEvents_checks :
    hartPlace demo 0x20000 = (0x20000, false) ∧ hartCheck demo 15 0x20000 8 false false = .ok (gen0 demo)
      ∧ hartCheck demo 15 0x20000 8 false true = .ok (gen0 demo) ∧ ({ Loupe.zero with ctl := 1 } : Loupe).samples = true :=
  ⟨by decide, ok_of (by decide), ok_of (by decide), by decide⟩

/-- The register window: launch processors reach the listed words alone, by aligned loads and stores. -/
theorem wit_ControlEvents_launch :
    inCtl Config.ctlBase = true ∧ inCtl 0x20000 = false ∧ demo.ctl.procs.length = 2
      ∧ (ctlWords .launch 0x700000 4).isSome = true ∧ ctlWords .launch 0xFFFFF0 4 = none := by decide

/-- A unit that counts the positions held on a core of the die, and one that counts what comes with its event. -/
def counter4 : Loupe := { Loupe.zero with ctl := 1 + 4 * 256 }

theorem wit_ControlEvents_loupe :
    counter4.counted (demoEng (copyOp 1 0 0 false)) = some 1 ∧ counter4.takes (demoEng (copyOp 1 0 0 false)) 1 = true
      ∧ counter4.takes (demoEng (copyOp 1 0 0 false)) 0 = false ∧ ({ Loupe.zero with ctl := 1 } : Loupe).counted demo = none
      ∧ ({ Loupe.zero with ctl := 1 } : Loupe).takes demo 5 = true ∧ ({ Loupe.zero with ctl := 3 } : Loupe).takes demo 5 = false := by decide

/-- Bring-up before its images, between its stages and at its last. -/
def stageAt (k : Nat) : State := { State.reset with ctl := { State.reset.ctl with stage := k } }

theorem wit_ControlEvents_stages :
    State.reset.ctl.up = false ∧ State.reset.ctl.stage = 0 ∧ State.reset.ctl.measured = 0 ∧ (stageAt 3).ctl.stage = 3 ∧ (stageAt 6).ctl.stage = 6
      ∧ (stageAt 7).ctl.up = false ∧ (stageAt 7).ctl.stage = 7 := by decide

/-- The deque of a core with the entry that is hit, and none there. -/
theorem wit_ControlEvents_deque :
    0 < (getCore (demoTq 1) 0).deque.length ∧ ¬(1 < (getCore (demoTq 1) 0).deque.length) := by decide

/-- A hart whose older write waits; one whose write meets the code range, a held range and a migrating page. -/
def demoWaiting : State :=
  { demo with mem := { demo.mem with waits := [⟨1, 0x20000, 8, .hartStore 15 .machine 0x20000 8 0⟩], migs := [⟨0x20000, 0x30000, 2 ^ 16, false⟩] } }
def codeOf (e : Except Nat Nat) : Option Nat :=
  match e with
  | .ok _ => none
  | .error c => some c

theorem wit_ControlEvents_harts :
    hartWaits demoWaiting 15 (.hartLoad 15 .machine 0x20000 8) = true ∧ hartWaits demo 15 (.hartLoad 15 .machine 0x20000 8) = false
      ∧ (holdForeign demoWaiting none 0x20000 8 false (.hartStore 15 .machine 0x20000 8 0)).isSome = true
      ∧ holdForeign demo none 0x20000 8 false (.hartStore 15 .machine 0x20000 8 0) = none
      ∧ codeOf (hartCheck demo 15 0x10038 8 false true) = some 0x09 ∧ codeOf (hartCheck demo 15 0x10038 8 false false) = none
      ∧ (3 : Nat) ∉ [1, 2, 4, 8] ∧ 0x20001 % 2 ≠ 0 ∧ inHbm (Config.hbmTop - 1) 2 = false
      ∧ badHit { demo.mem with bad := [0x1000] } 0x20000 8 true = true ∧ 15 < demo.ctl.harts.length := by decide

theorem wit_ControlEvents_errors :
    { demo.mem with bad := [0x1000] }.bad = [0x1000] ∧ (0x1000 : Nat) ∉ demo.mem.soft ∧ (1000 : Nat) < 2 ^ 32
      ∧ (llcFind (llcRead demo.mem 0 0x20000 (gen0 demo)) (sectorOf 0x20000)).isSome = true
      ∧ (getCore (demoMat []) 0).tiles[0]? = some (some tile0) ∧ overLimit demo.ctl = false ∧ demo.ctl.up = true := by decide

/-! ## Fabric -/

/-- A launch whose heap window is the memory below 1 GiB. -/
def heapLaunch : Launch := { probeLaunch 1 with hlim := 0x40000000 }

/-- A flit of the device to itself, under context 0 and key 0. -/
def flit (ty addr aux : Nat) : Flit :=
  { ty := ty, vl := 0, nocode := false, src := 0, dst := 0, inc := 0, serial := 3, ctx := 0, keyid := 0, addr := addr, aux := aux,
    payload := [1, 2, 3, 4] }
def demoSelf : State :=
  { demo with launches := [heapLaunch],
              fab := { demo.fab with selfIdx := 0, ports := [⟨.up, 0, []⟩], groups := [(0, 1), (32, 1)] } }

theorem wit_FlitsArrive :
    reaches demoSelf (flit 1 0x20000 16) 1 = true ∧ auxOk 1 16 = true ∧ inbound demoSelf (flit 1 0x20000 16) 0x20000 16 .rd = .go 0x20000 false (gen0 demo)
      ∧ inbound demoSelf (flit 1 0x20001 16) 0x20001 16 .rd = .bad 5 ∧ auxOk 1 32 = false ∧ auxOk 2 1 = true
      ∧ inbound demoSelf (flit 2 0x20000 1) 0x20000 1 .wr = .go 0x20000 false (gen0 demo) ∧ intentHolds demoSelf none (.hbm 0x20000 false) 16 = false
      ∧ inbound demoSelf (flit 0x10 0x20000 4) 0x20000 4 .wr = .go 0x20000 false (gen0 demo)
      ∧ inbound demoSelf (flit 0x11 0x20000 4) 0x20000 4 .rd = .go 0x20000 false (gen0 demo) := by decide

theorem wit_FlitsArrive_atomic :
    reaches demoSelf (flit 3 0x20000 0x104) 3 = true ∧ auxOk 3 0x104 = true ∧ (auxAtom 0x104).isSome = true ∧ badHit demoSelf.mem 0x20000 4 false = false
      ∧ (contextOf demoSelf (flit 3 0x20000 0x104)).isSome = true ∧ rwatchRoom demoSelf 0x20000 = true ∧ knownType 0x7F = false
      ∧ (demoSelf.fab.ports.any fun p => p.st == .up) = true := by decide

theorem wit_FlitsArrive_watch :
    contextOf demoSelf (flit 6 0x20000 1) = some heapLaunch ∧ xlate demoSelf 672 heapLaunch.xctx 0x20000 .rd = .ok (0x20000, false)
      ∧ contextOf demoSelf { flit 6 0x20000 1 with ctx := 1 } = none ∧ reaches demoSelf (flit 6 0x20000 1) 6 = true
      ∧ reaches demoSelf (flit 7 0x20000 1) 7 = true ∧ reaches demoSelf (flit 7 0x20000 1) 6 = false :=
  ⟨by decide, ok_of (by decide), by decide, by decide, by decide, by decide⟩

/-- An inbound write of a page that migrates; the fault log off, and on; a load-reduce in pieces. -/
def demoSelfMig : State := { demoSelf with mem := { demoSelf.mem with migs := [⟨0x20000, 0x30000, 2 ^ 16, false⟩] } }
def piecesOk (s : State) (f : Flit) (k : Nat) : Option Nat :=
  match (readPieces s f f.addr k).2 with
  | .ok bs => some bs.length
  | .error _ => none

theorem wit_FlitsArrive_writes :
    holdForeign demoSelf none 0x20000 1 false (.write (flit 2 0x20000 1)) = none
      ∧ (holdForeign demoSelfMig none 0x20000 1 false (.write (flit 2 0x20000 1))).isSome = true
      ∧ logFree demoSelf = true ∧ demoSelf.fab.iflBase.toNat < 8192
      ∧ logFree { demoSelf with fab := { demoSelf.fab with iflBase := 8192 }, mem := { demoSelf.mem with fwq := [⟨1, 0, 8192, false, []⟩] } } = false
      ∧ badHit { demoSelf.mem with bad := [0x1000] } 0x20000 4 false = true
      ∧ piecesOk demoSelf (flit 0x11 0x20000 8) 2 = some 8 ∧ piecesOk demoSelf (flit 0x11 0x3FFFFFFC 8) 2 = none
      ∧ reaches demoSelf (flit 2 0x20000 1) 2 = true ∧ reaches demoSelf (flit 0x10 0x20000 4) 0x10 = true
      ∧ reaches demoSelf (flit 0x11 0x20000 8) 0x11 = true := by decide

/-- A load of the device 2 that awaits request 3, and a multicast that awaits device 2. -/
def peerAcc : Access := { acc (.load 4 .zext [1]) 0x20000 (.peer 2 0x20000 none) with serial := some 3, spec := true, ran := true }
def mcstAcc : Access := { acc (.mcst [2] [1, 2, 3, 4]) 0x20000 (.peer 2 0x20000 none) with loc := none, serial := some 3, awaited := [2] }
def awaitsReq (a : Access) : State :=
  { demoAccs [a] with fab := { demo.fab with selfIdx := 0, ports := [⟨.up, 0, []⟩], reqs := [⟨3, demo.th.id, 0, 2, 2 ^ 28⟩] } }
def demoPeer : State := awaitsReq peerAcc

theorem wit_FlitsArrive_answers :
    reaches demoPeer (flit 4 0 0) 4 = true ∧ findReq demoPeer 3 = some ⟨3, demo.th.id, 0, 2, 2 ^ 28⟩ ∧ findReq demoSelf 3 = none
      ∧ demo.th.id = demoPeer.th.id ∧ awaiting demoPeer 3 = some peerAcc ∧ isGroup peerAcc = false ∧ 2 ^ demoPeer.fab.tlog ≤ 2 ^ 28
      ∧ reaches demoPeer { flit 8 0x20000 1 with src := 2 } 8 = true
      ∧ demoPeer.th.watchesPeer 2 (watchWords 0x20000 1) = true := by decide

theorem wit_FlitsArrive_groups :
    awaiting (awaitsReq mcstAcc) 3 = some mcstAcc ∧ isGroup mcstAcc = true ∧ mcstAcc.failed = none ∧ (2 : Nat) ∈ mcstAcc.awaited
      ∧ reaches (awaitsReq mcstAcc) (flit 5 0 0) 5 = true ∧ (flit 5 0 0x100).aux % 256 = 0 ∧ (flit 5 0 0x0B).aux % 256 ≠ 0
      ∧ awaiting demoSelf 3 = none ∧ (awaitsReq { peerAcc with spec := false }).th.accs = [{ peerAcc with spec := false }]
      ∧ (1 : Nat) < 2 ^ demoPeer.fab.tlog := by decide

/-- The answer to the release of a commit: to the oldest access, that read early; and a release that asks for one. -/
def demoCommit : State := awaitsReq { peerAcc with early := some [0, 0, 0, 0] }

theorem wit_FlitsArrive_release :
    awaiting demoCommit 3 = some { peerAcc with early := some [0, 0, 0, 0] } ∧ demoCommit.th.notice = false
      ∧ ({ peerAcc with early := some [0, 0, 0, 0] } : Access).fault = none ∧ (flit 4 0 1).aux = 1 ∧ (flit 4 0 0).aux ≠ 1
      ∧ ({ flit 7 0x20000 1 with payload := [0, 1] }).payload.getD 1 0 = 1 ∧ (flit 7 0x20000 1).payload.getD 1 0 ≠ 1
      ∧ 8192 ≤ (8192#64).toNat := by decide

theorem wit_FlitsArrive_others :
    (auxOk 1 32 = false ∧ isSelf demoSelf 0 = true) ∧ (knownType 6 = true ∧ (6 : Nat) ≠ 1 ∧ (6 : Nat) ≠ 2 ∧ (6 : Nat) ≠ 3) := by decide

/-- A port in a state. -/
def demoPort (st : PortState) (n : Nat) : State := { demo with fab := { demo.fab with ports := [⟨st, n, []⟩] } }

theorem wit_PortsAndPeers :
    (demoPort .up 14).fab.ports[0]? = some ⟨.up, 14, []⟩ ∧ 14 + 1 < 16 ∧ (demoPort .up 15).fab.ports[0]? = some ⟨.up, 15, []⟩ ∧ 16 ≤ 15 + 1
      ∧ (demoPort .down 0).fab.ports[0]? = some ⟨.down, 0, []⟩ ∧ (demoPort .train 0).fab.ports[0]? = some ⟨.train, 0, []⟩
      ∧ (demoPort .join 0).fab.ports[0]? = some ⟨.join, 0, []⟩ ∧ cleanDevice (demoPort .join 0) = true
      ∧ cleanDevice { demoPort .join 0 with fab := { (demoPort .join 0).fab with reqs := [⟨3, demo.th.id, 0, 2, 0⟩] } } = false
      ∧ portUp (demoPort .join 0) = false ∧ isSelf demoSelf 1023 = false ∧ demoSelf.fab.absent.contains 1023 = false
      ∧ keyGet demoSelf.fab.incs 1023 = none := by decide

/-- A lane's two ends of its range, the last port down with an early peer load under watch, a peer that watchers lose, and a return with
the next incarnation and with another. -/
def demoLast : State :=
  { demoPeer with fab := { demoPeer.fab with selfIdx := 1, ports := [⟨.up, 15, []⟩] } }

theorem wit_PortsAndPeers_lost :
    (3 : Nat) < 4 ∧ 4 ≤ 4 ∧ portUp demoLast = true
      ∧ portUp { demoLast with fab := { demoLast.fab with ports := demoLast.fab.ports.set 0 ⟨.down, 0, []⟩ } } = false
      ∧ peerAcc ∈ demoLast.th.accs ∧ peerAcc.serial.isSome = true ∧ peerAcc.loc = some (.peer 2 0x20000 none) ∧ isSelf demoLast 2 = false
      ∧ demoLast.pool = [] ∧ demoLast.th.watchesPeer 2 (fun _ _ => true) = true ∧ (∀ a ∈ demoLast.th.accs, isGroup a = false)
      ∧ demoLast.fab.absent = [] ∧ keyGet [(2, 65535)] 2 = some (65535 : Nat) ∧ 0 = (65535 + 1) % 65536 ∧ 1 ≠ (65535 + 1) % 65536
      ∧ isSelf demoLast 1 = true ∧ { demo.fab with joined := true }.joined = true
      ∧ keyGet [(2, 7)] 2 = some (7 : Nat) ∧ (2 : Nat) ∈ ({ demoLast.fab with absent := [2] }).absent
      ∧ ({ peerAcc with early := some [0, 0, 0, 0] } : Access).early.isSome = true := by decide

end Sys2Proof.Tests
end

