-- ==== Sys2Proof/Proofs/ControlRegisterWrites.lean ====
section
/-! The writes of `cwr` and `spec` (R110, R253): what a write to a control register does to each field of the thread, and what the
advance past the instruction then keeps. -/

namespace Sys2Proof.Machine

/-! ## The words of a pair (R9) -/

theorem pairD_toNat (lo hi : Word) : (pairD lo hi).toNat = lo.toNat + 0x100000000 * hi.toNat := by
  have := lo.isLt
  have := hi.isLt
  simp only [pairD, dwOf, BitVec.toNat_ofNat]
  omega

@[simp] theorem loW_pairD (lo hi : Word) : loW (pairD lo hi) = lo := by
  apply BitVec.eq_of_toNat_eq
  have := lo.isLt
  simp only [loW, wOf, pairD_toNat, BitVec.toNat_ofNat]
  omega

@[simp] theorem hiW_pairD (lo hi : Word) : hiW (pairD lo hi) = hi := by
  apply BitVec.eq_of_toNat_eq
  have := lo.isLt
  have := hi.isLt
  simp only [hiW, wOf, pairD_toNat, BitVec.toNat_ofNat]
  omega

/-! ## What an advance keeps of the thread's control registers -/

theorem Moved.latch {s t : State} (m : Moved s t) : t.th.ctx.latch = s.th.ctx.latch := by rw [m.same]
theorem Moved.exitedF {s t : State} (m : Moved s t) : t.th.exitedF = s.th.exitedF := by rw [m.same]
theorem Moved.mhold {s t : State} (m : Moved s t) : t.th.mhold = s.th.mhold := by rw [m.same]
theorem Moved.aged {s t : State} (m : Moved s t) : t.th.aged = s.th.aged := by rw [m.same]
theorem Moved.esc {s t : State} (m : Moved s t) : t.th.esc = s.th.esc := by rw [m.same]

/-! ## A write to a control register -/

/-- R250: SLVL after a write of `v` to c.spec, which holds no level 3. -/
def slvlWritten (old : BitVec 2) (v : Word) : BitVec 2 := if v.toNat % 4 = 3 then old else BitVec.ofNat 2 v.toNat

/-- R26, R110: c.tpc after a write of `v` to register `n`, which may name its low or its high word. -/
def tpcWritten (old : DWord) (n : BitVec 8) (v : Word) : DWord :=
  if n = 0x22 then pairD v (hiW old) else if n = 0x23 then pairD (loW old) v else old

theorem loW_tpcWritten (old : DWord) (n : BitVec 8) (v : Word) :
    loW (tpcWritten old n v) = if n = 0x22 then v else loW old := by
  unfold tpcWritten
  split_ifs <;> simp

theorem hiW_tpcWritten (old : DWord) (n : BitVec 8) (v : Word) :
    hiW (tpcWritten old n v) = if n = 0x23 then v else hiW old := by
  unfold tpcWritten
  split_ifs <;> simp_all

/-- R6, R26, R110: the thread after a write of `v` to control register `n`; a read-only number names no field. -/
def cregWritten (t : Thread) (n : BitVec 8) (v : Word) : Thread :=
  { t with
    ctx := { t.ctx with
      preds := if n = 0x0A then v.truncate 15 else t.ctx.preds
      fpst := if n = 0x1A then v &&& fpstMask else t.ctx.fpst
      dphase := if n = 0x1B then BitVec.ofNat 6 v.toNat else t.ctx.dphase }
    exitedF := t.exitedF && !(decide (n = 0x1C) && v.getLsbD 0)
    mhold := t.mhold && !(decide (n = 0x1C) && v.getLsbD 1)
    aged := t.aged && !(decide (n = 0x1C) && v.getLsbD 2)
    spec := if n = 0x1D then { t.spec with slvl := slvlWritten t.spec.slvl v, fix := v.getLsbD 2 } else t.spec
    trap := { t.trap with tpc := tpcWritten t.trap.tpc n v }
    rbk := if n = 0x58 then v else t.rbk
    ncmt := if n = 0x59 then v else t.ncmt
    nesc := if n = 0x5A then v else t.nesc }

theorem cregWrite_eq (t : Thread) (n : BitVec 8) (v : Word) : cregWrite t n.toNat v = cregWritten t n v := by
  unfold cregWrite
  split <;> simp_all [BitVec.toNat_eq, cregWritten, tpcWritten, slvlWritten]

/-- R86, R110: a write to c.pset gives each predicate but p15 its bit. -/
theorem pred_cregWritten_pset (t : Thread) (v : Word) (k : Pred) (hk : k.val < 15) :
    (cregWritten t 0x0A v).ctx.pred k = v.getLsbD k.val := by
  have : k.val ≠ 15 := by omega
  simp [Ctx.pred, cregWritten, hk, this]

theorem pred_cregWritten_other (t : Thread) (n : BitVec 8) (v : Word) (hn : n ≠ 0x0A) (k : Pred) :
    (cregWritten t n v).ctx.pred k = t.ctx.pred k := by
  simp only [Ctx.pred, cregWritten, if_neg hn]

/-- R11, R27, R110: `cwr` under a true guard with no access outstanding writes the register and advances. -/
theorem exec_cwr_alone (s : State) (p : Pred) (a : Reg) (n : BitVec 8) (hp : s.th.ctx.pred p = true) (h : s.th.accs = []) :
    exec (.cwr p a n) s = .next (advance (modTh s fun t => cregWritten t n (t.ctx.reg a))) := by
  show execCwr p a n s = _
  simp only [execCwr, guarded_true s p _ hp, oldest_none s _ h, retire_eq, cregWrite_eq]

/-- R27, R110: it waits for the thread's accesses. -/
theorem exec_cwr_waits (s : State) (p : Pred) (a : Reg) (n : BitVec 8) (hp : s.th.ctx.pred p = true) (h : s.th.accs ≠ []) :
    exec (.cwr p a n) s = .next s := by
  show execCwr p a n s = _
  rw [execCwr, guarded_true s p _ hp, oldest_some s _ h]

/-! ## `spec` -/

/-- R253: the thread after `spec`. -/
def specSet (lvl : Fin 3) (fix clr : Bool) (t : Thread) : Thread :=
  { t with spec := { t.spec with slvl := BitVec.ofNat 2 lvl.val, fix := fix }, esc := if clr then [] else t.esc }

theorem exec_spec_alone (s : State) (p : Pred) (lvl : Fin 3) (fix clr : Bool) (hp : s.th.ctx.pred p = true) (h : s.th.accs = []) :
    exec (.spec p lvl fix clr) s = .next (advance (modTh s (specSet lvl fix clr))) := by
  show execSpec p lvl fix clr s = _
  rw [execSpec, guarded_true s p _ hp, oldest_none s _ h, retire_eq]
  rfl

theorem exec_spec_waits (s : State) (p : Pred) (lvl : Fin 3) (fix clr : Bool) (hp : s.th.ctx.pred p = true) (h : s.th.accs ≠ []) :
    exec (.spec p lvl fix clr) s = .next s := by
  show execSpec p lvl fix clr s = _
  rw [execSpec, guarded_true s p _ hp, oldest_some s _ h]

/-- A change of the focus thread touches nothing of the device. -/
theorem modTh_device (s : State) (f : Thread → Thread) : SameDevice s (modTh s f) :=
  ⟨rfl, rfl, rfl, rfl, rfl, rfl, rfl, rfl, rfl, rfl⟩

theorem SameDevice.trans {s t u : State} (a : SameDevice s t) (b : SameDevice t u) : SameDevice s u :=
  ⟨b.clusters.trans a.clusters, b.launches.trans a.launches, b.cores.trans a.cores, b.mem.trans a.mem, b.xl.trans a.xl,
    b.fab.trans a.fab, b.coll0.trans a.coll0, b.coll1.trans a.coll1, b.ctl.trans a.ctl, b.out.trans a.out⟩

/-- A change of the focus thread, and the advance past its instruction, touch nothing of the device. -/
theorem advance_modTh_device (s : State) (f : Thread → Thread) : SameDevice s (advance (modTh s f)) :=
  (modTh_device s f).trans (advance_moved _).device

/-- Settles O33: each field of the thread after `cwr` or `spec` is that of the written thread, which the advance keeps. -/
theorem controlRegisterWrites : Obligations.ControlRegisterWrites := by
  unfold Obligations.ControlRegisterWrites
  intro s p a n lvl fix clr hp v sp
  refine ⟨fun h => ⟨exec_cwr_waits s p a n hp h, exec_spec_waits s p lvl fix clr hp h⟩,
    fun h => ⟨⟨_, exec_cwr_alone s p a n hp h, ?_⟩, ⟨_, exec_spec_alone s p lvl fix clr hp h, ?_⟩⟩⟩
  · have m := advance_moved (modTh s fun t => cregWritten t n (t.ctx.reg a))
    have hdev := advance_modTh_device s fun t => cregWritten t n (t.ctx.reg a)
    have hpset : n = 0x0A → ∀ k : Pred, k.val < 15 → _ = v.getLsbD k.val := fun hn k hk =>
      (m.pred k).trans (hn ▸ pred_cregWritten_pset s.th v k hk)
    have hpreds : n ≠ 0x0A → SamePredsBut [] s _ := fun hn k _ => (m.pred k).trans (pred_cregWritten_other s.th n v hn k)
    have htpc := congrArg TrapRegs.tpc m.trap
    have hlo := (congrArg loW htpc).trans (loW_tpcWritten s.th.trap.tpc n v)
    have hhi := (congrArg hiW htpc).trans (hiW_tpcWritten s.th.trap.tpc n v)
    obtain ⟨hrbk, hncmt, hnesc⟩ := m.specials.counts
    exact ⟨hpset, hpreds, m.fpst, m.dphase, m.exitedF, m.mhold, m.aged, m.spec, hlo, hhi, hrbk, hncmt, hnesc,
      congrArg (fun r : TrapRegs => { r with tpc := s.th.trap.tpc }) m.trap, m.res, m.depth, m.spill, m.specials.inHandler,
      m.latch, m.dc, m.ops, m.esc, m.place, m.ident, fun r _ => m.reg r, hdev.memory, hdev⟩
  · have m := advance_moved (modTh s (specSet lvl fix clr))
    have hdev := advance_modTh_device s (specSet lvl fix clr)
    obtain ⟨hrbk, hncmt, hnesc⟩ := m.specials.counts
    exact ⟨m.spec, m.esc, fun r _ => m.reg r, fun k _ => m.pred k, m.fpst, m.dphase, m.specials.gstat, m.trap, m.res, m.depth,
      m.spill, m.dc, m.ops, hrbk, hncmt, hnesc, m.place, m.ident, hdev.memory, hdev⟩

end Sys2Proof.Machine
end

