-- ==== Sys2Proof/Proofs/Guards.lean ====
section
/-! What stands before every meaning: the guard (R11), the hard-wired registers (R10), and the values of reset. -/

namespace Sys2Proof.Machine

/-- R11: the meaning of an instruction of `guardOf` stands under its guard; `o` is what it does under a true one. -/
theorem exec_under_guard {i : Instr} {p : Pred} (h : guardOf i = some p) (s : State) :
    ∃ o, exec i s = if guard s p then o else retire s := by
  cases i
  all_goals simp only [guardOf, Option.some.injEq, reduceCtorEq] at h
  all_goals subst h
  all_goals exact ⟨_, rfl⟩

/-- Settles O8: the meaning of every such instruction stands under its guard, and an advance only moves the thread. -/
theorem falseGuardAdvances : Obligations.FalseGuardAdvances := by
  unfold Obligations.FalseGuardAdvances
  intro s i p h hp
  obtain ⟨o, ho⟩ := exec_under_guard h s
  have hg : guard s p = false := hp
  exact ⟨by simp [ho, hg, retire_eq], advance_moved s⟩

/-- Settles O5: the reset state is a literal, and each of its values is read off it. -/
theorem resetValues : Obligations.ResetValues := by
  unfold Obligations.ResetValues
  decide

/-- R10: four registers written from g0 on are g1, g2 and g3. -/
theorem Ctx.setRegs_four_zero (c : Ctx) (w0 w1 w2 w3 : Word) :
    c.setRegs 0 [w0, w1, w2, w3] = ((c.setReg 1 w1).setReg 2 w2).setReg 3 w3 := rfl

/-- Settles O9: a write of g0 or p15 leaves the context as it is, and the others read as last written. -/
theorem hardwiredRegisters : Obligations.HardwiredRegisters := by
  unfold Obligations.HardwiredRegisters
  intro c v d b w0 w1 w2 w3
  refine ⟨rfl, rfl, rfl, rfl, rfl, rfl, rfl, ?_, ?_, ?_⟩
  all_goals rw [Ctx.setRegs_four_zero]
  · rw [Ctx.reg_setReg_other _ _ _ _ (by decide), Ctx.reg_setReg_other _ _ _ _ (by decide), Ctx.reg_setReg_self _ _ _ (by decide)]
  · rw [Ctx.reg_setReg_other _ _ _ _ (by decide), Ctx.reg_setReg_self _ _ _ (by decide)]
  · exact Ctx.reg_setReg_self _ _ _ (by decide)

end Sys2Proof.Machine
end

