-- ==== Sys2Proof/Proofs/ThreadEnd.lean ====
section
/-! The end of a thread (R16, R100): what its holds, barriers and names give up leaves its own registers and every memory. -/

namespace Sys2Proof.Machine

/-- The focus thread is as before but for its merge hold, and memory is as before. -/
structure FocusKept (s t : State) : Prop where
  th : t.th = { s.th with held := t.th.held }
  mem : t.mem = s.mem

theorem FocusKept.refl (s : State) : FocusKept s s := ⟨rfl, rfl⟩

theorem FocusKept.trans {s t u : State} (a : FocusKept s t) (b : FocusKept t u) : FocusKept s u := by
  refine ⟨?_, b.mem.trans a.mem⟩
  have h := b.th
  rw [a.th] at h
  exact h

/-- An update that keeps the focus thread and memory. -/
theorem FocusKept.of_eq {s t : State} (h : t.th = s.th) (m : t.mem = s.mem) : FocusKept s t := ⟨by rw [h], m⟩

theorem recheckHolds_focusKept (s : State) (g : Thread) : FocusKept s (recheckHolds s g) := by
  refine ⟨?_, rfl⟩
  simp only [recheckHolds, mapThreads_th]
  split <;> rfl

/-! ## Focus -/

/-- A thread brought into focus is one of the pool, and the thread that stood in focus heads the pool. -/
theorem focus_other {s u : State} {t : Tid} (h : focus s t = some u) (ht : s.th.id ≠ t) (hl : s.th.status ≠ .free) :
    u.th.id = t ∧ u.mem = s.mem ∧ ∃ rest, u.pool = s.th :: rest := by
  unfold focus at h
  rw [if_neg ht] at h
  split at h
  · simp at h
  next x hx =>
    simp only [Option.some.injEq, if_neg hl] at h
    subst h
    exact ⟨by simpa using List.find?_some hx, rfl, _, rfl⟩

/-- A thread that heads the pool comes back into focus. -/
theorem focus_head {s : State} {y : Thread} {rest : List Thread} (h : s.pool = y :: rest) (hy : s.th.id ≠ y.id) :
    ∃ u, focus s y.id = some u ∧ u.th = y ∧ u.mem = s.mem := by
  unfold focus
  rw [if_neg hy, h, List.find?_cons_of_pos (by simp)]
  exact ⟨_, rfl, rfl, rfl⟩

/-- R149, R185: a released thread stands where it stood. -/
theorem releaseWaiter_moved (s : State) : Moved (modTh s fun t => { t with status := .run }) (releaseWaiter s) := by
  unfold releaseWaiter
  dsimp only
  split
  · exact arrive_moved _ _ _
  · exact Moved.refl _

/-- The release of another thread keeps the thread in focus. -/
theorem onThread_release_focusKept {s : State} {t : Tid} (ht : s.th.id ≠ t) (hl : s.th.status ≠ .free) :
    FocusKept s (onThread s t releaseWaiter) := by
  unfold onThread
  rw [if_neg ht]
  split
  · exact .refl s
  next u hu =>
    obtain ⟨hid, hmem, rest, hpool⟩ := focus_other hu ht hl
    have m := releaseWaiter_moved u
    have ho := m.others
    rw [modTh_pool, hpool] at ho
    obtain ⟨y, rest', hp, hy, -⟩ := List.map_eq_cons_iff.mp ho
    have hy' : y = { s.th with held := y.held } := by
      have := congrArg (fun x : Thread => { x with held := y.held }) hy
      exact this
    have hyid : y.id = s.th.id := by rw [hy']
    have hne : (releaseWaiter u).th.id ≠ y.id := by
      rw [m.ident, hyid]
      exact fun e => ht (e.symm.trans hid)
    obtain ⟨v, hv, hvth, hvmem⟩ := focus_head hp hne
    rw [hyid] at hv
    simp only [hv, Option.getD_some]
    exact ⟨by rw [hvth]; exact hy', by rw [hvmem, m.device.mem, modTh_mem, hmem]⟩

theorem foldl_release_focusKept (ids : List Tid) (s : State) (hn : ∀ t ∈ ids, s.th.id ≠ t) (hl : s.th.status ≠ .free) :
    FocusKept s (ids.foldl (fun s t => onThread s t releaseWaiter) s) := by
  induction ids generalizing s with
  | nil => exact .refl s
  | cons t ids ih =>
    have k := onThread_release_focusKept (hn t (by simp)) hl
    refine k.trans (ih _ (fun x hx => ?_) ?_)
    · rw [k.th]; exact hn x (by simp [hx])
    · rw [k.th]; exact hl

/-! ## What follows the end of a thread -/

theorem setGroup_focusKept (s : State) (c : Cid) (t g : Nat) (v : Group) : FocusKept s (setGroup s c t g v) := by
  unfold setGroup setTeam
  split
  · exact .refl s
  · split
    · exact .refl s
    · exact .of_eq rfl rfl

theorem unbindGroup_focusKept (s : State) (th : Thread) : FocusKept s (unbindGroup s th) := by
  unfold unbindGroup
  split
  · exact .refl s
  · split
    · exact .refl s
    · exact (FocusKept.of_eq (setCore_th _ _ _) (setCore_mem _ _ _)).trans (setGroup_focusKept _ _ _ _ _)

/-- R185: barriers that are full release other threads alone, where the thread in focus waits at none. -/
theorem settleBarriers_focusKept (s : State) (th : Thread) (h : s.th.status = .exited) : FocusKept s (settleBarriers s th) := by
  unfold settleBarriers
  dsimp only
  split
  · exact .refl s
  · split
    · exact .refl s
    · refine (FocusKept.of_eq (setCluster_th _ _) (setCluster_mem _ _)).trans (foldl_release_focusKept _ _ ?_ ?_)
      · intro t ht
        simp only [h, Bool.false_eq_true, if_false, List.nil_append, List.mem_filter] at ht
        simpa using fun e => bne_iff_ne.mp ht.2 e.symm
      · simp [h]

theorem afterEnd_focusKept (s : State) (h : s.th.status = .exited) : FocusKept s (afterEnd s) := by
  have k := recheckHolds_focusKept s s.th
  exact (k.trans (settleBarriers_focusKept _ _ (by rw [k.th]; exact h))).trans (unbindGroup_focusKept _ _)

/-- R100: the thread as `exitThread` leaves it, before what follows its end. -/
def Thread.over (t : Thread) : Thread :=
  { lookEnd t with status := .exited, held := none, yielded := none, ops := [], ctx := { t.ctx with ld := 0 } }

theorem exitThread_focusKept (s : State) : FocusKept (modTh s Thread.over) (exitThread s) := afterEnd_focusKept _ rfl

theorem exitThread_ends (s : State) :
    (exitThread s).th.status = .exited ∧ (exitThread s).th.ctx.ld = 0 ∧ (exitThread s).th.ops = []
      ∧ SameRegsBut [] s (exitThread s) ∧ (exitThread s).mem = s.mem := by
  have k := exitThread_focusKept s
  have hctx : (exitThread s).th.ctx = { s.th.ctx with ld := 0 } := by rw [k.th]; rfl
  exact ⟨by rw [k.th]; rfl, by rw [hctx], by rw [k.th]; rfl, fun r _ => by rw [hctx]; rfl, k.mem⟩

/-- R16: `ret` at depth 0 does as `exit` does. -/
theorem exec_leaves {s : State} {i : Instr} {p : Pred} (hp : s.th.ctx.pred p = true)
    (hi : i = .exit p ∨ (i = .ret p ∧ s.th.ctx.depth = 0)) : exec i s = leave s := by
  rcases hi with rfl | ⟨rfl, hd⟩
  · exact guarded_true s p _ hp
  · show execRet p s = _
    unfold execRet
    rw [guarded_true s p _ hp]
    simp only [hd, if_true]

/-- Settles O26: an end waits for the thread's accesses, and what it gives up keeps the registers and memory. -/
theorem threadEnds : Obligations.ThreadEnds := by
  unfold Obligations.ThreadEnds
  intro s i p hp hi
  rw [exec_leaves hp hi, leave]
  refine ⟨fun h => ?_, oldest_some s _⟩
  rw [oldest_none s _ h]
  exact ⟨_, rfl, exitThread_ends (issued s)⟩

end Sys2Proof.Machine
end

