-- ==== Sys2Proof/Proofs/ControlRegisterReads.lean ====
section
/-! The reads of `crd` (R26, R110): the word that each control register reads as, and the latch of a 64-bit one's high word. -/

namespace Sys2Proof.Machine

theorem SameSpecials.trans {s t u : State} (a : SameSpecials s t) (b : SameSpecials t u) : SameSpecials s u :=
  ⟨b.frames.trans a.frames, b.depth.trans a.depth, b.spill.trans a.spill, b.dphase.trans a.dphase, b.trap.trans a.trap,
    b.inHandler.trans a.inHandler, b.gstat.trans a.gstat, ⟨b.specReg.1.trans a.specReg.1, b.specReg.2.trans a.specReg.2⟩,
    ⟨b.counts.1.trans a.counts.1, b.counts.2.1.trans a.counts.2.1, b.counts.2.2.trans a.counts.2.2⟩,
    b.place.trans a.place, b.ident.trans a.ident⟩

/-! ## The word read (R26) -/

/-- A 64-bit register's low word, and its high word in the latch. -/
theorem cregRead_low {s : State} {m : Nat} {v : DWord} (h : creg64 s m = some v) : cregRead s m = (loW v, some (m, hiW v)) := by
  simp [cregRead, h]

/-- The high word just after the low one comes from the latch. -/
theorem cregRead_high {s : State} {m : Nat} {v : DWord} {h : Word} (h0 : creg64 s m = some v) (h1 : creg64 s (m + 1) = none)
    (hl : s.th.ctx.latch = some (m, h)) : cregRead s (m + 1) = (h, none) := by
  simp [cregRead, h0, h1, hl]

theorem getLsbD_pset (c : Ctx) (k : Pred) : c.pset.getLsbD k.val = c.pred k := by
  have hbit : (0x8000#32).getLsbD k.val = (k.val == 15) := by revert k; decide
  rw [Ctx.pset, Ctx.pred, BitVec.getLsbD_or, BitVec.getLsbD_setWidth, show (0x8000 : Word) = 0x8000#32 from rfl, hbit]
  have := k.isLt
  simp [Bool.or_comm, show k.val < 32 by omega]

/-! ## `crd` -/

/-- The context after a `crd` of `n` into `d`. -/
def crdCtx (d : Reg) (r : Word × Option (Nat × Word)) (c : Ctx) : Ctx := { c.setReg d r.1 with latch := r.2 }

theorem exec_crd (s : State) (p : Pred) (d : Reg) (n : BitVec 8) (hp : s.th.ctx.pred p = true) :
    exec (.crd p d n) s = .next (advance (modCtx s (crdCtx d (cregRead s n.toNat)))) := by
  show execCrd p d n s = _
  rw [execCrd, guarded_true s p _ hp]
  rfl

/-- Of the context it changes the registers and the latch alone. -/
theorem crdCtx_same (d : Reg) (r : Word × Option (Nat × Word)) :
    crdCtx d r = fun c => { c with g := (c.setReg d r.1).g, win := (c.setReg d r.1).win, latch := r.2 } := by
  funext c
  unfold crdCtx Ctx.setReg
  split
  · rfl
  · split <;> rfl

theorem crdCtx_specials (s : State) (d : Reg) (r : Word × Option (Nat × Word)) : SameSpecials s (modCtx s (crdCtx d r)) := by
  rw [crdCtx_same]
  exact ⟨rfl, rfl, rfl, rfl, rfl, rfl, rfl, ⟨rfl, rfl⟩, ⟨rfl, rfl, rfl⟩, rfl, rfl⟩

/-- Settles O32: `crd` is a register operation that also writes the latch, and the advance past it keeps what it read. -/
theorem controlRegisterReads : Obligations.ControlRegisterReads := by
  unfold Obligations.ControlRegisterReads
  intro s p d n hp
  have m := advance_moved (modCtx s (crdCtx d (cregRead s n.toNat)))
  have hdev : SameDevice s (advance (modCtx s (crdCtx d (cregRead s n.toNat)))) :=
    advance_modTh_device s fun t => { t with ctx := crdCtx d (cregRead s n.toNat) t.ctx }
  refine ⟨⟨_, exec_crd s p d n hp, fun hd => ?_, m.latch, fun r hr => ?_, fun k _ => ?_,
    (crdCtx_specials s d _).trans m.specials, hdev.memory, hdev⟩,
    rfl, rfl, rfl, rfl, rfl, rfl, rfl, fun k _ => getLsbD_pset _ k, getLsbD_pset s.th.ctx 15, fun _ _ h => cregRead_low h,
    fun _ _ _ h0 h1 hl => cregRead_high h0 h1 hl⟩
  · exact (m.reg d).trans (Ctx.reg_setReg_self _ _ _ fun h => hd (Fin.ext h))
  · exact (m.reg r).trans (Ctx.reg_setReg_other _ _ _ _ (by simpa using hr))
  · exact (m.pred k).trans (Ctx.pred_setReg _ _ _ _)

end Sys2Proof.Machine
end

