-- ==== Sys2Proof/Proofs/Window.lean ====
section
/-! The window (R12 to R18): what a call and a return make of the registers, what a spill and a fill change of the thread, and what
follows the window action of a call or return. -/

namespace Sys2Proof.Machine

/-! ## The words of a pair, read back (R9) -/

@[simp] theorem pairD_loW_hiW (d : DWord) : pairD (loW d) (hiW d) = d := by
  apply BitVec.eq_of_toNat_eq
  have := d.isLt
  rw [pairD_toNat]
  simp only [loW, hiW, wOf, BitVec.toNat_ofNat]
  omega

/-- w38d, the link. -/
theorem Ctx.pair_link (c : Ctx) : c.pair 54 = pairD (c.win[38]) (c.win[39]) := rfl

/-- A window register by its number. -/
theorem Ctx.reg_win (c : Ctx) (k : Nat) (h : k < 48) : c.reg (Fin.ofNat 64 (16 + k)) = c.win[k] := by
  have e : (Fin.ofNat 64 (16 + k) : Reg).val = 16 + k := Nat.mod_eq_of_lt (by omega)
  unfold Ctx.reg
  rw [if_neg (by omega), dif_neg (by omega)]
  simp only [e, Nat.add_sub_cancel_left]

/-- A global register depends on the global file alone. -/
theorem Ctx.reg_global {c d : Ctx} (h : d.g = c.g) (r : Reg) (hr : r.val < 16) : d.reg r = c.reg r := by
  simp only [Ctx.reg, dif_pos hr, h]

/-! ## The frame of a call (R14, R15) -/

/-- w0 to w7 are the caller's w40 to w47. -/
theorem Ctx.reg_pushFrame_arg (c : Ctx) (link : DWord) (fresh : Nat) (keep : Bool) (k : Nat) (h : k < 8) :
    (c.pushFrame link fresh keep).reg (Fin.ofNat 64 (16 + k)) = c.reg (Fin.ofNat 64 (56 + k)) := by
  rw [show 56 + k = 16 + (k + 40) by omega, Ctx.reg_win _ _ (by omega), Ctx.reg_win _ _ (by omega)]
  simp [Ctx.pushFrame, h]

/-- w38d is the link. -/
theorem Ctx.pair_pushFrame_link (c : Ctx) (link : DWord) (fresh : Nat) (keep : Bool) :
    (c.pushFrame link fresh keep).pair 54 = link := by
  rw [Ctx.pair_link]
  simp [Ctx.pushFrame]

theorem Ctx.res_pushFrame_length (c : Ctx) (link : DWord) (fresh : Nat) :
    (c.pushFrame link fresh false).res.length = c.res.length := by
  unfold Ctx.pushFrame
  cases h : c.res <;> simp

/-- What `d` has of the caller `c` once a call has moved the window. -/
structure NewFrame (c d : Ctx) (link : DWord) : Prop where
  depth : d.depth = c.depth + 1
  args : ∀ k : Nat, k < 8 → d.reg (Fin.ofNat 64 (16 + k)) = c.reg (Fin.ofNat 64 (56 + k))
  link : d.pair 54 = link
  globals : ∀ r : Reg, r.val < 16 → d.reg r = c.reg r
  preds : ∀ p, d.pred p = c.pred p

theorem Ctx.pushFrame_newFrame (c : Ctx) (link : DWord) (fresh : Nat) (keep : Bool) :
    NewFrame c (c.pushFrame link fresh keep) link where
  depth := by simp only [Ctx.pushFrame]
  args := c.reg_pushFrame_arg link fresh keep
  link := c.pair_pushFrame_link link fresh keep
  globals := Ctx.reg_global (by simp only [Ctx.pushFrame])
  preds p := by simp only [Ctx.pred, Ctx.pushFrame]

/-! ## The frame that a return gives back (R16) -/

theorem Ctx.reg_popFrame_frame (c : Ctx) (f : Vector Word 40) (res : List (Vector Word 40)) (k : Fin 40) :
    (c.popFrame f res).reg (Fin.ofNat 64 (16 + k.val)) = f[k] := by
  rw [Ctx.reg_win _ _ (by omega)]
  simp [Ctx.popFrame]

theorem Ctx.reg_popFrame_result (c : Ctx) (f : Vector Word 40) (res : List (Vector Word 40)) (k : Nat) (h : k < 8) :
    (c.popFrame f res).reg (Fin.ofNat 64 (56 + k)) = c.reg (Fin.ofNat 64 (16 + k)) := by
  rw [show 56 + k = 16 + (k + 40) by omega, Ctx.reg_win _ _ (by omega), Ctx.reg_win _ _ (by omega)]
  simp [Ctx.popFrame]

/-- What `d` has of the returning frame `c` once a return has moved the window back to the frame `f`. -/
structure FrameBack (c d : Ctx) (f : Vector Word 40) : Prop where
  depth : d.depth = c.depth - 1
  frame : ∀ k : Fin 40, d.reg (Fin.ofNat 64 (16 + k.val)) = f[k]
  results : ∀ k : Nat, k < 8 → d.reg (Fin.ofNat 64 (56 + k)) = c.reg (Fin.ofNat 64 (16 + k))
  globals : ∀ r : Reg, r.val < 16 → d.reg r = c.reg r
  preds : ∀ p, d.pred p = c.pred p

theorem Ctx.popFrame_frameBack (c : Ctx) (f : Vector Word 40) (res : List (Vector Word 40)) : FrameBack c (c.popFrame f res) f where
  depth := by simp only [Ctx.popFrame]
  frame := c.reg_popFrame_frame f res
  results := c.reg_popFrame_result f res
  globals := Ctx.reg_global (by simp only [Ctx.popFrame])
  preds p := by simp only [Ctx.pred, Ctx.popFrame]

/-! ## The context after a taken transfer (R69, R70) -/

/-- The context that stands at `g` after a taken transfer. -/
def Ctx.transferred (c : Ctx) (g : DWord) : Ctx :=
  ({ c with icount := c.icount + 1, wmask := 0, wfrom := none, drain := false, wend := c.icount + 1 } : Ctx).land g

theorem transfer_ctx_eq (s : State) (g : DWord) (brm : Bool) : (transfer s g brm).th.ctx = s.th.ctx.transferred g :=
  transfer_ctx s g brm

theorem NewFrame.withSpill {c d : Ctx} {link : DWord} (n : NewFrame c d link) (a : DWord) :
    NewFrame c { d with spill := a } link :=
  ⟨n.depth, n.args, n.link, n.globals, n.preds⟩

theorem NewFrame.withDrain {c d : Ctx} {link : DWord} (n : NewFrame c d link) (b : Bool) :
    NewFrame c { d with drain := b } link :=
  ⟨n.depth, n.args, n.link, n.globals, n.preds⟩

theorem NewFrame.transferred {c d : Ctx} {link : DWord} (n : NewFrame c d link) (g : DWord) : NewFrame c (d.transferred g) link :=
  ⟨n.depth, n.args, n.link, n.globals, n.preds⟩

theorem FrameBack.transferred {c d : Ctx} {f : Vector Word 40} (n : FrameBack c d f) (g : DWord) : FrameBack c (d.transferred g) f :=
  ⟨n.depth, n.frame, n.results, n.globals, n.preds⟩

/-! ## Stores and loads made whole change nothing of the thread but its notice -/

theorem setSlot_th (s : State) (c : Cid) (i : Nat) (v : Slot) : (setSlot s c i v).th = s.th := by
  unfold setSlot
  split <;> rfl

theorem pokeLoc_th (s : State) (die gen : Nat) (loc : Loc) (bs : List Byte) : (pokeLoc s die gen loc bs).th = s.th := by
  unfold pokeLoc
  split
  · split <;> rfl
  · split
    · rfl
    · exact setSlot_th _ _ _ _
  · rfl

theorem writeLoc_th (s : State) (w : Option Tid) (die gen : Nat) (loc : Loc) (bs : List Byte) :
    (writeLoc s w die gen loc bs).th = { s.th with notice := (writeLoc s w die gen loc bs).th.notice } := by
  have h := probe_th (pokeLoc s die gen loc bs) w loc bs.length
  rw [pokeLoc_th] at h
  exact h

theorem storeNow_th (s : State) (ea : DWord) (bs : List Byte) :
    (storeNow s ea bs).1.th = { s.th with notice := (storeNow s ea bs).1.th.notice } := by
  unfold storeNow
  split
  · rfl
  · split
    · split
      · rfl
      · exact writeLoc_th _ _ _ _ _ _
    · rfl

theorem storeRun_th (s : State) (ea : DWord) (l : List (List Byte)) :
    (storeRun s ea l).1.th = { s.th with notice := (storeRun s ea l).1.th.notice } := by
  induction l generalizing s ea with
  | nil => rfl
  | cons bs rest ih =>
    have h := storeNow_th s ea bs
    unfold storeRun
    split
    next s' e =>
      rw [e] at h
      rw [ih, h]
    next => exact h

/-! ## Spills and fills through the peer window (R17, R369) -/

/-- The accesses of a spill or fill whose pieces all lie at a peer. -/
def frameAccs (s : State) (t : AccT) (ea : DWord) (kind : Nat → AccKind) : List Access :=
  ((List.range 10).zip (frameLocs s t ea)).filterMap fun x => match x.2 with
    | .ok l => some (pieceAcc s.th x.1 (kind x.1) ea l)
    | .error _ => none

/-- One access for each of the ten pieces, where each has a place; `f` is what is read off an access. -/
theorem map_frameAccs {α : Type} (s : State) (t : AccT) (ea : DWord) (kind : Nat → AccKind) (f : Access → α) (v : Nat → α)
    (h : (frameLocs s t ea).all inPeer = true) (hf : ∀ j l, f (pieceAcc s.th j (kind j) ea l) = v j) :
    (frameAccs s t ea kind).map f = (List.range 10).map v := by
  unfold frameAccs frameLocs
  rw [← List.map_id (List.range 10), List.map_map, List.zip_map', List.filterMap_map, List.map_filterMap, List.map_id,
    ← List.filterMap_eq_map]
  apply List.filterMap_congr
  intro j hj
  have hp : inPeer (resolve s s.th t (ea + dwOf (16 * j)) 16) = true :=
    List.all_eq_true.mp h _ (List.mem_map_of_mem hj)
  simp only [Function.comp_apply, id]
  cases hr : resolve s s.th t (ea + dwOf (16 * j)) 16 with
  | error e => rw [hr] at hp; cases hp
  | ok l => simp [hf]

theorem map_frameAccs_ea (s : State) (t : AccT) (ea : DWord) (kind : Nat → AccKind) (h : (frameLocs s t ea).all inPeer = true) :
    (frameAccs s t ea kind).map (·.ea) = (List.range 10).map fun j => ea + BitVec.ofNat 64 (16 * j) :=
  map_frameAccs s t ea kind _ _ h fun _ _ => rfl

theorem frameAccs_ne_nil {s : State} {t : AccT} {ea : DWord} {kind : Nat → AccKind} (h : (frameLocs s t ea).all inPeer = true) :
    frameAccs s t ea kind ≠ [] := by
  intro e
  have := map_frameAccs_ea s t ea kind h
  simp [e] at this

theorem queueFrame_all_peer (s : State) (t : AccT) (ea : DWord) (kind : Nat → AccKind)
    (h : (frameLocs s t ea).all inPeer = true) :
    queueFrame s t ea kind
      = (modTh s fun th => { th with seq := th.seq + 10, accs := th.accs ++ frameAccs s t ea kind }, .go) := by
  have hn : ((frameLocs s t ea).findSome? fun r => match r with
      | .error e => some e
      | .ok _ => none) = none := by
    rw [List.findSome?_eq_none_iff]
    intro r hr
    have hp := List.all_eq_true.mp h r hr
    cases r with
    | error e => cases hp
    | ok l => rfl
  unfold queueFrame
  dsimp only
  split
  next e he => exact absurd (he.symm.trans hn) (by simp)
  next => rfl

theorem any_inPeer_of_all {s : State} {t : AccT} {ea : DWord} (h : (frameLocs s t ea).all inPeer = true) :
    (frameLocs s t ea).any inPeer = true := by
  unfold frameLocs at *
  rw [List.range_succ_eq_map, List.map_cons] at *
  simp only [List.all_cons, List.any_cons, Bool.and_eq_true, Bool.or_eq_true] at *
  exact .inl h.1

/-! ## What follows the window action -/

/-- R249: a commit touches the escalation table alone. -/
theorem escCommit_same (t : Thread) (a : DWord) : escCommit t a = { t with esc := (escCommit t a).esc } := by
  unfold escCommit
  split
  · rfl
  · split
    · rfl
    · split <;> rfl

theorem foldl_escCommit_same (l : List Nat) (t : Thread) (a : DWord) :
    l.foldl (fun t _ => escCommit t a) t = { t with esc := (l.foldl (fun t _ => escCommit t a) t).esc } := by
  induction l generalizing t with
  | nil => rfl
  | cons _ l ih =>
    rw [List.foldl_cons, ih, escCommit_same]

/-- R249, R250: accesses made whole touch the level and the escalation table of the thread alone. -/
theorem frameMade_same (s : State) :
    frameMade s = modTh s fun t => { t with spec := (frameMade s).th.spec, esc := (frameMade s).th.esc } := by
  have h := foldl_escCommit_same (List.range (if s.th.accs.isEmpty then 10 else 0))
    { s.th with spec := { s.th.spec with lvl := BitVec.ofNat 2 (levelFor s.th s.th.ctx.pc).1 } } s.th.ctx.pc
  unfold frameMade madeWhole modTh
  dsimp only
  rw [h]

theorem frameMade_ctx (s : State) : (frameMade s).th.ctx = s.th.ctx := by rw [frameMade_same]; rfl
theorem frameMade_accs (s : State) : (frameMade s).th.accs = s.th.accs := by rw [frameMade_same]; rfl

/-- R17: only the wait that stands before the next instruction may change. -/
theorem awaitFrame_same (s t : State) :
    awaitFrame s t = modCtx t fun c => { c with drain := (awaitFrame s t).th.ctx.drain } := by
  unfold awaitFrame
  split <;> rfl

theorem awaitFrame_accs (s t : State) : (awaitFrame s t).th.accs = t.th.accs := by
  unfold awaitFrame
  split <;> rfl

theorem awaitFrame_accs_same {s t : State} (h : t.th.accs = s.th.accs) : awaitFrame s t = t := by
  simp [awaitFrame, h]

theorem awaitFrame_drain {s t : State} (hs : s.th.accs = []) (ht : t.th.accs ≠ []) : (awaitFrame s t).th.ctx.drain = true := by
  simp [awaitFrame, hs, ht]

end Sys2Proof.Machine
end

