-- ==== Sys2Proof/Proofs/Calls.lean ====
section
/-! Calls (R14, R15, R17, R98, R99): the checks of the target, the waits, and the window of the new frame, kept or spilled. -/

namespace Sys2Proof.Machine

/-! ## The checks of a target (R62, R99) -/

theorem checkTarget_none {s : State} {g : DWord} (h4 : g.toNat % 4 = 0) (hc : inCode s.th.place g 4 = true) :
    checkTarget s g = none := by
  simp [checkTarget, h4, hc]

/-! ## The window action (R14, R17) -/

/-- The new frame in the window, by `f`, with free words taken for it. -/
@[irreducible] def framePushed (s : State) (f : Ctx → Ctx) : State := modCtx { s with fresh := s.fresh + 48 } f

theorem framePushed_ctx (s : State) (f : Ctx → Ctx) : (framePushed s f).th.ctx = f s.th.ctx := by
  simp only [framePushed, modCtx_th]
theorem framePushed_accs (s : State) (f : Ctx → Ctx) : (framePushed s f).th.accs = s.th.accs := by
  simp only [framePushed, modCtx_th]
theorem framePushed_mem (s : State) (f : Ctx → Ctx) : (framePushed s f).mem = s.mem := by
  simp only [framePushed, modCtx_mem]
theorem framePushed_clusters (s : State) (f : Ctx → Ctx) : (framePushed s f).clusters = s.clusters := by
  simp only [framePushed, modCtx_clusters]

/-- The context of a call whose older frames all stay resident. -/
@[irreducible] def Ctx.kept (c : Ctx) (link : DWord) (fresh : Nat) : Ctx := c.pushFrame link fresh true

/-- The context of a call that has spilled the oldest frame. -/
@[irreducible] def Ctx.spilled (c : Ctx) (link : DWord) (fresh : Nat) : Ctx :=
  { c.pushFrame link fresh false with spill := c.spill + 160 }

theorem Ctx.kept_newFrame (c : Ctx) (link : DWord) (fresh : Nat) : NewFrame c (c.kept link fresh) link := by
  rw [Ctx.kept]
  exact c.pushFrame_newFrame link fresh true
theorem Ctx.kept_res (c : Ctx) (link : DWord) (fresh : Nat) : (c.kept link fresh).res = c.frame :: c.res := by
  simp only [Ctx.kept, Ctx.pushFrame, if_true]
theorem Ctx.kept_spill (c : Ctx) (link : DWord) (fresh : Nat) : (c.kept link fresh).spill = c.spill := by
  simp only [Ctx.kept, Ctx.pushFrame]

theorem Ctx.spilled_newFrame (c : Ctx) (link : DWord) (fresh : Nat) : NewFrame c (c.spilled link fresh) link := by
  rw [Ctx.spilled]
  exact (c.pushFrame_newFrame link fresh false).withSpill _
theorem Ctx.spilled_res_length (c : Ctx) (link : DWord) (fresh : Nat) : (c.spilled link fresh).res.length = c.res.length := by
  rw [Ctx.spilled]
  exact c.res_pushFrame_length link fresh
theorem Ctx.spilled_spill (c : Ctx) (link : DWord) (fresh : Nat) : (c.spilled link fresh).spill = c.spill + 160 := by
  simp only [Ctx.spilled]

/-- What a call that does not fit stores. -/
def spillOldest (s : State) : State × Gate :=
  let c := s.th.ctx
  if (frameLocs s .wr c.spill).any inPeer
  then queueFrame s .wr c.spill fun j => .store ((framePieces c.oldest).getD j [])
  else match runGate s .wr c.spill 10 with
    | (.park, ea) => (parkWindow s .wr ea, .park)
    | (.wait, _) => (s, .wait)
    | _ => storeRun s c.spill (framePieces c.oldest)

/-- What a call pushes once its spill has ended at gate `r.2`. -/
def pushSpilled (link : DWord) (r : State × Gate) : State × Gate :=
  match r with
  | (s', .go) => (framePushed s' fun c => c.spilled link s'.fresh, .go)
  | r => r

theorem callWindow_fits (s : State) (link : DWord) (h : 1 + s.th.ctx.res.length < residentMax s.th.place.regs) :
    callWindow s link = (framePushed s fun c => c.kept link s.fresh, .go) := by
  unfold callWindow
  dsimp only
  rw [if_pos h, framePushed]
  simp only [Ctx.kept]

/-- R17: a frame that would pass c.rslim, or a depth that would pass its width. -/
theorem callWindow_full (s : State) (link : DWord) (h : residentMax s.th.place.regs ≤ 1 + s.th.ctx.res.length)
    (hl : s.th.place.rslim.toNat < s.th.ctx.spill.toNat + 160 ∨ s.th.ctx.depth = 0xFFFFFFFF) :
    callWindow s link = (s, .bad (excOf cSpillLimit s.th.ctx.spill)) := by
  unfold callWindow
  dsimp only
  rw [if_neg (by omega), if_pos (by simpa using hl)]

/-- A call that spills pushes its frame once the oldest one is stored. -/
theorem callWindow_spill (s : State) (link : DWord) (h : residentMax s.th.place.regs ≤ 1 + s.th.ctx.res.length)
    (hl : s.th.ctx.spill.toNat + 160 ≤ s.th.place.rslim.toNat) (hd : s.th.ctx.depth ≠ 0xFFFFFFFF) :
    callWindow s link = pushSpilled link (spillOldest s) := by
  unfold callWindow
  dsimp only
  rw [if_neg (by omega), if_neg (by simpa [hl] using hd)]
  simp only [pushSpilled, framePushed, Ctx.spilled]
  rfl

theorem spillOldest_waits {s : State} (hp : (frameLocs s .wr s.th.ctx.spill).any inPeer = false)
    (hg : (runGate s .wr s.th.ctx.spill 10).1 = .wait) : spillOldest s = (s, .wait) := by
  rcases hr : runGate s .wr s.th.ctx.spill 10 with ⟨g, ea⟩
  rw [hr] at hg
  obtain rfl : g = .wait := hg
  simp [spillOldest, hp, hr]

theorem spillOldest_go {s : State} (hp : (frameLocs s .wr s.th.ctx.spill).any inPeer = false)
    (hg : (runGate s .wr s.th.ctx.spill 10).1 = .go) :
    spillOldest s = storeRun s s.th.ctx.spill (framePieces s.th.ctx.oldest) := by
  rcases hr : runGate s .wr s.th.ctx.spill 10 with ⟨g, ea⟩
  rw [hr] at hg
  obtain rfl : g = .go := hg
  simp [spillOldest, hp, hr]

/-- The kinds of the ten stores of a spill. -/
def spillKind (c : Ctx) (j : Nat) : AccKind := .store ((framePieces c.oldest).getD j [])

/-- A peer spill's ten stores, queued. -/
def queuedSpill (s : State) : State :=
  modTh s fun th => { th with
    seq := th.seq + 10, accs := th.accs ++ frameAccs s .wr s.th.ctx.spill (spillKind s.th.ctx) }

theorem queuedSpill_accs {s : State} (ha : s.th.accs = []) :
    (queuedSpill s).th.accs = frameAccs s .wr s.th.ctx.spill (spillKind s.th.ctx) := by
  simp [queuedSpill, ha]

theorem spillOldest_peer {s : State} (hp : (frameLocs s .wr s.th.ctx.spill).all inPeer = true) :
    spillOldest s = (queuedSpill s, .go) := by
  unfold spillOldest
  dsimp only
  rw [if_pos (any_inPeer_of_all hp)]
  exact queueFrame_all_peer s .wr s.th.ctx.spill (spillKind s.th.ctx) hp

/-! ## A taken call -/

theorem exec_call {s : State} {i : Instr} {p : Pred} {g : DWord} (hp : s.th.ctx.pred p = true)
    (hi : (∃ f : FmtJ, f.p = p ∧ i = .call f ∧ g = s.th.ctx.pc + 4 * f.disp.signExtend 64)
      ∨ (∃ a, i = .callr p a ∧ g = s.th.ctx.pair a)) : exec i s = callTo s g := by
  obtain ⟨f, rfl, rfl, rfl⟩ | ⟨a, rfl, rfl⟩ := hi
  · show execCall f s = _
    rw [execCall, guarded_true s _ _ hp]
    rfl
  · show execCallr p a s = _
    rw [execCallr, guarded_true s _ _ hp]

theorem callTo_bad {s : State} {g : DWord} {x : Exc} (h : checkTarget s g = some x) : callTo s g = raise s x := by
  simp [callTo, h]

/-- R70: the window moves once every register is in it. -/
theorem callTo_owes {s : State} {g : DWord} (h : checkTarget s g = none) (ho : s.th.owes = true) : callTo s g = .next s := by
  simp [callTo, h, ho]

theorem callSpills_fits {t : Thread} (h : 1 + t.ctx.res.length < residentMax t.place.regs) : callSpills t = false := by
  simp [callSpills, h]

theorem callSpills_full {t : Thread} (h : residentMax t.place.regs ≤ 1 + t.ctx.res.length) : callSpills t = true := by
  simp [callSpills, h]

/-- How a call goes on once its window action has ended. -/
def callDone (s : State) (g : DWord) (r : State × Gate) : Out :=
  match r with
  | (s', .go) => .next (awaitFrame s (transfer (if callSpills s.th then frameMade s' else s') g false))
  | (s', .bad e) => .next (takeExc s' e)
  | (s', .park) => .next s'
  | (s', .wait) => .next s'

theorem callTo_ready {s : State} {g : DWord} (h : checkTarget s g = none) (ho : s.th.owes = false)
    (ha : callSpills s.th = true → s.th.accs = []) : callTo s g = callDone s g (callWindow s s.th.ctx.cend) := by
  unfold callTo
  rw [h]
  dsimp only
  rw [if_neg (by simpa [ho] using ha)]
  rfl

/-- The state after a call whose frame fits. -/
def keptCall (s : State) (g : DWord) : State := transfer (framePushed s fun c => c.kept s.th.ctx.cend s.fresh) g false

theorem callTo_kept {s : State} {g : DWord} (h : checkTarget s g = none) (ho : s.th.owes = false)
    (hf : 1 + s.th.ctx.res.length < residentMax s.th.place.regs) : callTo s g = .next (keptCall s g) := by
  have hs := callSpills_fits hf
  have ht : (keptCall s g).th.accs = s.th.accs := (transfer_moved _ _ _).accs.trans (framePushed_accs _ _)
  rw [callTo_ready h ho (by simp [hs]), callWindow_fits s _ hf, callDone]
  simp only [hs, Bool.false_eq_true, if_false]
  exact congrArg _ (awaitFrame_accs_same ht)

theorem keptCall_ctx (s : State) (g : DWord) : (keptCall s g).th.ctx = (s.th.ctx.kept s.th.ctx.cend s.fresh).transferred g := by
  rw [keptCall, transfer_ctx_eq, framePushed_ctx]

theorem keptCall_memory (s : State) (g : DWord) : SameMemory s (keptCall s g) := by
  have d := (transfer_moved (framePushed s fun c => c.kept s.th.ctx.cend s.fresh) g false).device
  exact .of_eq (congrArg MemSys.hbm (d.mem.trans (framePushed_mem _ _))) (d.clusters.trans (framePushed_clusters _ _))

/-- The state after a call that spilled, `s'` being the state once its stores are made or queued. -/
def spilledCall (s s' : State) (g : DWord) : State :=
  awaitFrame s (transfer (frameMade (framePushed s' fun c => c.spilled s.th.ctx.cend s'.fresh)) g false)

theorem callTo_spilled {s s' : State} {g : DWord} (h : checkTarget s g = none) (ho : s.th.owes = false) (ha : s.th.accs = [])
    (hf : residentMax s.th.place.regs ≤ 1 + s.th.ctx.res.length) (hl : s.th.ctx.spill.toNat + 160 ≤ s.th.place.rslim.toNat)
    (hd : s.th.ctx.depth ≠ 0xFFFFFFFF) (hs : spillOldest s = (s', .go)) : callTo s g = .next (spilledCall s s' g) := by
  rw [callTo_ready h ho fun _ => ha, callWindow_spill s _ hf hl hd, hs, pushSpilled, callDone]
  simp only [callSpills_full hf, if_true]
  rfl

/-- The window of a call that spilled, where its stores have left the registers. -/
theorem spilledCall_ctx {s s' : State} (g : DWord) (hc : s'.th.ctx = s.th.ctx) : (spilledCall s s' g).th.ctx
    = { (s.th.ctx.spilled s.th.ctx.cend s'.fresh).transferred g with drain := (spilledCall s s' g).th.ctx.drain } := by
  generalize hd : (spilledCall s s' g).th.ctx.drain = d
  unfold spilledCall at *
  rw [awaitFrame_same, hd, modCtx_th, transfer_ctx_eq, frameMade_ctx, framePushed_ctx, hc]

theorem spilledCall_mem (s s' : State) (g : DWord) : (spilledCall s s' g).mem = s'.mem := by
  unfold spilledCall
  rw [awaitFrame_same]
  exact (transfer_moved _ g false).device.mem.trans (framePushed_mem _ _)

theorem spilledCall_accs (s s' : State) (g : DWord) : (spilledCall s s' g).th.accs = s'.th.accs := by
  rw [spilledCall, awaitFrame_accs, (transfer_moved _ g false).accs, frameMade_accs, framePushed_accs]

/-- R17: where the ten stores are queued, they stand before the next instruction. -/
theorem spilledCall_drain {s s' : State} (g : DWord) (hs : s.th.accs = []) (h : s'.th.accs ≠ []) :
    (spilledCall s s' g).th.ctx.drain = true := by
  refine awaitFrame_drain hs ?_
  rw [(transfer_moved _ g false).accs, frameMade_accs, framePushed_accs]
  exact h

/-- What a call whose frame fits leaves. -/
theorem keptCall_moves (s : State) (g : DWord) :
    let t := keptCall s g
    t.th.ctx.pc = g ∧ t.th.ctx.clh = g ∧ t.th.ctx.depth = s.th.ctx.depth + 1 ∧ t.th.ctx.spill = s.th.ctx.spill
      ∧ t.th.ctx.res = s.th.ctx.frame :: s.th.ctx.res
      ∧ (∀ k : Nat, k < 8 → t.th.ctx.reg (Fin.ofNat 64 (16 + k)) = s.th.ctx.reg (Fin.ofNat 64 (56 + k)))
      ∧ t.th.ctx.pair 54 = s.th.ctx.cend ∧ (∀ r : Reg, r.val < 16 → t.th.ctx.reg r = s.th.ctx.reg r)
      ∧ SamePredsBut [] s t ∧ SameMemory s t := by
  intro t
  have hc : t.th.ctx = _ := keptCall_ctx s g
  have n : NewFrame s.th.ctx t.th.ctx s.th.ctx.cend := hc ▸ (s.th.ctx.kept_newFrame _ _).transferred g
  exact ⟨by rw [hc]; rfl, by rw [hc]; rfl, n.depth, by rw [hc]; exact Ctx.kept_spill _ _ _, by rw [hc]; exact Ctx.kept_res _ _ _,
    n.args, n.link, n.globals, fun p _ => n.preds p, keptCall_memory s g⟩

/-- What a call that spilled leaves of the thread, beside its accesses. -/
theorem spilledCall_moves {s s' : State} (g : DWord) (hs : s'.th.ctx = s.th.ctx) :
    let t := spilledCall s s' g
    t.th.ctx.pc = g ∧ t.th.ctx.spill = s.th.ctx.spill + 160 ∧ t.th.ctx.res.length = s.th.ctx.res.length
      ∧ NewFrame s.th.ctx t.th.ctx s.th.ctx.cend := by
  intro t
  have hc : t.th.ctx = _ := spilledCall_ctx g hs
  exact ⟨by rw [hc]; rfl, by rw [hc]; exact Ctx.spilled_spill _ _ _, by rw [hc]; exact Ctx.spilled_res_length _ _ _,
    hc ▸ ((s.th.ctx.spilled_newFrame _ _).transferred g).withDrain _⟩

/-- A call that waits for a piece of its spill, and one whose frame would pass c.rslim. -/
theorem callTo_waits {s : State} {g : DWord} (h : checkTarget s g = none) (ho : s.th.owes = false) (ha : s.th.accs = [])
    (hf : residentMax s.th.place.regs ≤ 1 + s.th.ctx.res.length) (hl : s.th.ctx.spill.toNat + 160 ≤ s.th.place.rslim.toNat)
    (hd : s.th.ctx.depth ≠ 0xFFFFFFFF) (hs : spillOldest s = (s, .wait)) : callTo s g = .next s := by
  rw [callTo_ready h ho fun _ => ha, callWindow_spill s _ hf hl hd, hs, pushSpilled, callDone]
  all_goals simp

theorem callTo_limit {s : State} {g : DWord} (h : checkTarget s g = none) (ho : s.th.owes = false) (ha : s.th.accs = [])
    (hf : residentMax s.th.place.regs ≤ 1 + s.th.ctx.res.length) (hl : s.th.place.rslim.toNat < s.th.ctx.spill.toNat + 160) :
    callTo s g = .next (takeExc s (.trap cSpillLimit 0 s.th.ctx.spill)) := by
  rw [callTo_ready h ho fun _ => ha, callWindow_full s _ hf (.inl hl), callDone]
  rfl

/-- Settles O24: a call checks its target, waits for what it owes, and then keeps its caller's frame or spills the oldest one; the window
it leaves is `NewFrame` either way. -/
theorem callsMoveTheWindow : Obligations.CallsMoveTheWindow := by
  unfold Obligations.CallsMoveTheWindow
  refine ⟨fun s i p g hp hi => ?_, fun s s' i p g hp hi hg ho ha hf => ?_⟩
  all_goals rw [exec_call hp hi]
  · refine ⟨fun x => callTo_bad, fun h4 hc => ?_⟩
    have hg := checkTarget_none h4 hc
    exact ⟨callTo_owes hg, fun ho hf => ⟨_, callTo_kept hg ho hf, keptCall_moves s g⟩⟩
  · refine ⟨callTo_limit hg ho ha hf, fun hl hd => ⟨fun hp => ⟨fun hw => ?_, fun hw hs hc => ?_⟩, fun hp => ?_⟩⟩
    · exact callTo_waits hg ho ha hf hl hd (spillOldest_waits hp hw)
    · obtain ⟨hpc, hspill, hres, n⟩ := spilledCall_moves g hc
      exact ⟨_, callTo_spilled hg ho ha hf hl hd ((spillOldest_go hp hw).trans hs), hpc, n.depth, hspill, hres, n.args, n.link,
        spilledCall_mem s s' g⟩
    · obtain ⟨hpc, hspill, -, n⟩ := spilledCall_moves (s := s) (s' := queuedSpill s) g rfl
      have haccs := (spilledCall_accs s (queuedSpill s) g).trans (queuedSpill_accs ha)
      refine ⟨_, callTo_spilled hg ho ha hf hl hd (spillOldest_peer hp), hpc, n.depth, hspill, ?_, n.link, ?_, ?_,
        spilledCall_mem s _ g⟩
      · exact spilledCall_drain g ha (by rw [queuedSpill_accs ha]; exact frameAccs_ne_nil hp)
      · rw [haccs]
        exact map_frameAccs_ea s .wr _ _ hp
      · rw [haccs]
        exact map_frameAccs s .wr _ _ _ _ hp fun _ _ => rfl

end Sys2Proof.Machine
end

