-- ==== Sys2Proof/Proofs/Returns.lean ====
section
/-! Returns (R16, R77, R98, R99): the checks of the link, the waits, and the window of the caller's frame, resident or filled. -/

namespace Sys2Proof.Machine

/-! ## Loops that a return closes (R77) -/

theorem closeDepth_loops (c : Ctx) (d : Word) : LoopsOnly c (closeDepth c d) := by
  unfold closeDepth
  split <;> exact ⟨rfl⟩

/-- The context and the address at which a return to the link `a` at depth `d` goes on. -/
def returnCheck (c : Ctx) (d : Word) (a : DWord) : Ctx × DWord := endCheck 4 (closeDepth c d) a

theorem returnCheck_loops (c : Ctx) (d : Word) (a : DWord) : LoopsOnly c (returnCheck c d a).1 :=
  (closeDepth_loops c d).trans (endCheck_loops _ _ _)

/-- Without an open level a return goes on at its link. -/
theorem returnCheck_no_loop {c : Ctx} (d : Word) (a : DWord) (h : c.ld = 0) : returnCheck c d a = (c, a) := by
  have hc : closeDepth c d = c := by simp [closeDepth, h]
  simp [returnCheck, hc, endCheck, h]

theorem FrameBack.loops {c d e : Ctx} {f : Vector Word 40} (n : FrameBack c d f) (h : LoopsOnly d e) : FrameBack c e f := by
  rw [h.same]
  exact ⟨n.depth, n.frame, n.results, n.globals, n.preds⟩

theorem FrameBack.withSpill {c d : Ctx} {f : Vector Word 40} (n : FrameBack c d f) (a : DWord) :
    FrameBack c { d with spill := a } f :=
  ⟨n.depth, n.frame, n.results, n.globals, n.preds⟩

theorem FrameBack.withDrain {c d : Ctx} {f : Vector Word 40} (n : FrameBack c d f) (b : Bool) : FrameBack c { d with drain := b } f :=
  ⟨n.depth, n.frame, n.results, n.globals, n.preds⟩

/-! ## The window action of a return (R16) -/

/-- The caller's frame back from the resident ones. -/
@[irreducible] def Ctx.popped (c : Ctx) (f : Vector Word 40) (rest : List (Vector Word 40)) : Ctx := c.popFrame f rest

/-- The caller's frame back from the 160 bytes below c.spill. -/
@[irreducible] def Ctx.filled (c : Ctx) (f : Vector Word 40) : Ctx := { c.popFrame f [] with spill := c.spill - 160 }

theorem Ctx.popped_frameBack (c : Ctx) (f : Vector Word 40) (rest : List (Vector Word 40)) : FrameBack c (c.popped f rest) f := by
  rw [Ctx.popped]
  exact c.popFrame_frameBack f rest
theorem Ctx.popped_res (c : Ctx) (f : Vector Word 40) (rest : List (Vector Word 40)) : (c.popped f rest).res = rest := by
  simp only [Ctx.popped, Ctx.popFrame]
theorem Ctx.popped_ld (c : Ctx) (f : Vector Word 40) (rest : List (Vector Word 40)) : (c.popped f rest).ld = c.ld := by
  simp only [Ctx.popped, Ctx.popFrame]

theorem Ctx.filled_frameBack (c : Ctx) (f : Vector Word 40) : FrameBack c (c.filled f) f := by
  rw [Ctx.filled]
  exact (c.popFrame_frameBack f []).withSpill _
theorem Ctx.filled_res (c : Ctx) (f : Vector Word 40) : (c.filled f).res = [] := by
  simp only [Ctx.filled, Ctx.popFrame]
theorem Ctx.filled_spill (c : Ctx) (f : Vector Word 40) : (c.filled f).spill = c.spill - 160 := by
  simp only [Ctx.filled]
theorem Ctx.filled_ld (c : Ctx) (f : Vector Word 40) : (c.filled f).ld = c.ld := by
  simp only [Ctx.filled, Ctx.popFrame]

theorem retWindow_resident {s : State} {fr : Vector Word 40} {rest : List (Vector Word 40)} (tret : Bool)
    (h : s.th.ctx.res = fr :: rest) : retWindow s tret = (modCtx s fun c => c.popped fr rest, .go) := by
  simp only [retWindow, h, Ctx.popped]

/-- The frame that the bytes of a fill hold. -/
def frameOfBytes (bs : List Byte) : Vector Word 40 := Vector.ofFn fun i => (wordsOf 40 bs).getD i.val 0

theorem getElem_frameOfBytes (bs : List Byte) (k : Fin 40) : (frameOfBytes bs)[k] = (wordsOf 40 bs).getD k.val 0 := by
  simp [frameOfBytes]

/-- R16: a fill whose ten loads all perform. -/
theorem retWindow_filled {s s' : State} {bs : List Byte} (tret : Bool) (h : s.th.ctx.res = [])
    (hp : (frameLocs s .rd (s.th.ctx.spill - 160)).any inPeer = false) (hg : (runGate s .rd (s.th.ctx.spill - 160) 10).1 = .go)
    (hl : loadRun s (s.th.ctx.spill - 160) 10 = (s', bs, .go)) :
    retWindow s tret = (modCtx s' fun c => c.filled (frameOfBytes bs), .go) := by
  rcases hr : runGate s .rd (s.th.ctx.spill - 160) 10 with ⟨g, ea⟩
  rw [hr] at hg
  obtain rfl : g = .go := hg
  simp only [retWindow, h, hp, hr, hl, Bool.false_eq_true, if_false, Ctx.filled, frameOfBytes]

/-- The kinds of the ten loads of a fill. -/
def fillKind (tret : Bool) (j : Nat) : AccKind :=
  .load 16 (.fill tret) ((List.range 4).map fun i => Fin.ofNat 64 (16 + 4 * j + i))

/-- A peer fill's ten loads, queued. -/
def queuedFill (s : State) (tret : Bool) : State :=
  modTh s fun th => { th with
    seq := th.seq + 10, accs := th.accs ++ frameAccs s .rd (s.th.ctx.spill - 160) (fillKind tret) }

theorem queuedFill_accs {s : State} {tret : Bool} (ha : s.th.accs = []) :
    (queuedFill s tret).th.accs = frameAccs s .rd (s.th.ctx.spill - 160) (fillKind tret) := by
  simp [queuedFill, ha]

theorem retWindow_peer {s : State} (tret : Bool) (h : s.th.ctx.res = [])
    (hp : (frameLocs s .rd (s.th.ctx.spill - 160)).all inPeer = true) :
    retWindow s tret = (modCtx (queuedFill s tret) fun c => c.filled c.frame, .go) := by
  have hq := queueFrame_all_peer s .rd (s.th.ctx.spill - 160) (fillKind tret) hp
  unfold retWindow
  dsimp only
  rw [h]
  dsimp only
  rw [if_pos (any_inPeer_of_all hp)]
  unfold fillKind at hq
  rw [hq]
  simp only [Ctx.filled]
  rfl

/-! ## What follows a window action touches nothing of the device -/

theorem modCtx_device (s : State) (f : Ctx → Ctx) : SameDevice s (modCtx s f) := ⟨rfl, rfl, rfl, rfl, rfl, rfl, rfl, rfl, rfl, rfl⟩

theorem frameMade_device (s : State) : SameDevice s (frameMade s) := by
  rw [frameMade_same]
  exact modTh_device _ _

theorem awaitFrame_device (s t : State) : SameDevice t (awaitFrame s t) := by
  rw [awaitFrame_same]
  exact modCtx_device _ _

/-! ## A return at depth above 0 -/

/-- The window has moved back to `s1`: a fill is made whole, loops close, and the thread goes on where the check says. -/
def wentBack (s s1 : State) : State :=
  let s' := if s.th.ctx.res.isEmpty then frameMade s1 else s1
  let e := returnCheck s'.th.ctx s.th.ctx.depth (s.th.ctx.pair 54)
  transfer (modCtx s' fun _ => e.1) e.2 false

/-- The state after a return whose window action has left `s1`. -/
def returned (s s1 : State) : State := awaitFrame s (wentBack s s1)

/-- How a return goes on once its window action has ended. -/
def retDone (s : State) (r : State × Gate) : Out :=
  match r with
  | (s1, .go) => .next (returned s s1)
  | (s', .bad e) => .next (takeExc s' e)
  | (s', .park) => .next s'
  | (s', .wait) => .next s'

theorem exec_ret_bad {s : State} {p : Pred} {x : Exc} (hp : s.th.ctx.pred p = true) (hd : s.th.ctx.depth ≠ 0)
    (h : checkTarget s (s.th.ctx.pair 54) = some x) : exec (.ret p) s = raise s x := by
  show execRet p s = _
  simp only [execRet, guarded_true s p _ hp, hd, linkReg, h, if_false]

theorem exec_ret_owes {s : State} {p : Pred} (hp : s.th.ctx.pred p = true) (hd : s.th.ctx.depth ≠ 0)
    (h : checkTarget s (s.th.ctx.pair 54) = none) (ho : s.th.owes = true) : exec (.ret p) s = .next s := by
  show execRet p s = _
  simp only [execRet, guarded_true s p _ hp, hd, linkReg, h, ho, Bool.true_or, if_false, if_true]

theorem exec_ret_ready {s : State} {p : Pred} (hp : s.th.ctx.pred p = true) (hd : s.th.ctx.depth ≠ 0)
    (h : checkTarget s (s.th.ctx.pair 54) = none) (ho : s.th.owes = false) (ha : s.th.ctx.res = [] → s.th.accs = []) :
    exec (.ret p) s = retDone s (retWindow s false) := by
  show execRet p s = _
  rw [execRet, guarded_true s p _ hp]
  dsimp only
  rw [if_neg hd, linkReg, h]
  dsimp only
  rw [if_neg (by simpa [ho] using ha)]
  rfl

/-- What a fill made whole leaves: the accesses and the context as they were. -/
theorem wholeFill_kept (s s1 : State) : let s' := if s.th.ctx.res.isEmpty then frameMade s1 else s1
    s'.th.accs = s1.th.accs ∧ s'.th.ctx = s1.th.ctx ∧ SameDevice s1 s' := by
  dsimp only
  split
  · exact ⟨frameMade_accs s1, frameMade_ctx s1, frameMade_device s1⟩
  · exact ⟨rfl, rfl, (Moved.refl s1).device⟩

theorem wentBack_accs (s s1 : State) : (wentBack s s1).th.accs = s1.th.accs :=
  (transfer_moved _ _ false).accs.trans (wholeFill_kept s s1).1

theorem wentBack_device (s s1 : State) : SameDevice s1 (wentBack s s1) :=
  ((wholeFill_kept s s1).2.2.trans (modCtx_device _ _)).trans (transfer_moved _ _ false).device

theorem wentBack_ctx (s s1 : State) : (wentBack s s1).th.ctx
    = (returnCheck s1.th.ctx s.th.ctx.depth (s.th.ctx.pair 54)).1.transferred
        (returnCheck s1.th.ctx s.th.ctx.depth (s.th.ctx.pair 54)).2 := by
  rw [wentBack, (wholeFill_kept s s1).2.1, transfer_ctx_eq, modCtx_th]

theorem returned_accs (s s1 : State) : (returned s s1).th.accs = s1.th.accs :=
  (awaitFrame_accs _ _).trans (wentBack_accs s s1)

theorem returned_device (s s1 : State) : SameDevice s1 (returned s s1) := (wentBack_device s s1).trans (awaitFrame_device _ _)

/-- The context after a return; only `drain` depends on the accesses. -/
theorem returned_ctx (s s1 : State) : (returned s s1).th.ctx
    = { (returnCheck s1.th.ctx s.th.ctx.depth (s.th.ctx.pair 54)).1.transferred
          (returnCheck s1.th.ctx s.th.ctx.depth (s.th.ctx.pair 54)).2 with drain := (returned s s1).th.ctx.drain } := by
  generalize hd : (returned s s1).th.ctx.drain = d
  unfold returned at *
  rw [awaitFrame_same, hd, modCtx_th, wentBack_ctx]

/-- R17: where the ten loads are queued, they stand before the next instruction. -/
theorem returned_drain {s s1 : State} (hs : s.th.accs = []) (h : s1.th.accs ≠ []) : (returned s s1).th.ctx.drain = true :=
  awaitFrame_drain hs (by rw [wentBack_accs]; exact h)

/-- What a return leaves of the thread, where its window action has left the caller's frame `f`. -/
theorem returned_frameBack {s s1 : State} {f : Vector Word 40} (n : FrameBack s.th.ctx s1.th.ctx f) :
    FrameBack s.th.ctx (returned s s1).th.ctx f := by
  rw [returned_ctx]
  exact ((n.loops (returnCheck_loops _ _ _)).transferred _).withDrain _

theorem returned_pc (s s1 : State) :
    (returned s s1).th.ctx.pc = (returnCheck s1.th.ctx s.th.ctx.depth (s.th.ctx.pair 54)).2 := by
  rw [returned_ctx]
  rfl

theorem returned_ld (s s1 : State) :
    (returned s s1).th.ctx.ld = (returnCheck s1.th.ctx s.th.ctx.depth (s.th.ctx.pair 54)).1.ld := by
  rw [returned_ctx]
  rfl

theorem returned_res (s s1 : State) : (returned s s1).th.ctx.res = s1.th.ctx.res := by
  rw [returned_ctx]
  exact (congrArg Ctx.res (returnCheck_loops _ _ _).same).trans rfl

theorem returned_spill (s s1 : State) : (returned s s1).th.ctx.spill = s1.th.ctx.spill := by
  rw [returned_ctx]
  exact (congrArg Ctx.spill (returnCheck_loops _ _ _).same).trans rfl

/-- A return with no loop level open goes on at its link. -/
theorem returned_pc_no_loop {s s1 : State} (h : s1.th.ctx.ld = 0) : (returned s s1).th.ctx.pc = s.th.ctx.pair 54 := by
  rw [returned_pc, returnCheck_no_loop _ _ h]

theorem exec_ret_resident {s : State} {p : Pred} {fr : Vector Word 40} {rest : List (Vector Word 40)}
    (hp : s.th.ctx.pred p = true) (hd : s.th.ctx.depth ≠ 0) (hr : s.th.ctx.res = fr :: rest)
    (hg : checkTarget s (s.th.ctx.pair 54) = none) (ho : s.th.owes = false) :
    exec (.ret p) s = .next (returned s (modCtx s fun c => c.popped fr rest)) := by
  rw [exec_ret_ready hp hd hg ho (by simp [hr]), retWindow_resident false hr, retDone]

theorem exec_ret_filled {s s' : State} {p : Pred} {bs : List Byte} (hp : s.th.ctx.pred p = true) (hd : s.th.ctx.depth ≠ 0)
    (hr : s.th.ctx.res = []) (ho : s.th.owes = false) (ha : s.th.accs = []) (hg : checkTarget s (s.th.ctx.pair 54) = none)
    (hpeer : (frameLocs s .rd (s.th.ctx.spill - 160)).any inPeer = false)
    (hgo : (runGate s .rd (s.th.ctx.spill - 160) 10).1 = .go) (hl : loadRun s (s.th.ctx.spill - 160) 10 = (s', bs, .go)) :
    exec (.ret p) s = .next (returned s (modCtx s' fun c => c.filled (frameOfBytes bs))) := by
  rw [exec_ret_ready hp hd hg ho fun _ => ha, retWindow_filled false hr hpeer hgo hl, retDone]

theorem exec_ret_peer {s : State} {p : Pred} (hp : s.th.ctx.pred p = true) (hd : s.th.ctx.depth ≠ 0) (hr : s.th.ctx.res = [])
    (ho : s.th.owes = false) (ha : s.th.accs = []) (hg : checkTarget s (s.th.ctx.pair 54) = none)
    (hpeer : (frameLocs s .rd (s.th.ctx.spill - 160)).all inPeer = true) :
    exec (.ret p) s = .next (returned s (modCtx (queuedFill s false) fun c => c.filled c.frame)) := by
  rw [exec_ret_ready hp hd hg ho fun _ => ha, retWindow_peer false hr hpeer, retDone]

/-- Settles O25: a return checks its link, waits for what it owes, and takes the caller's frame from the resident ones or from memory;
the window it leaves is `FrameBack` either way. -/
theorem returnFromFrame : Obligations.ReturnFromFrame := by
  unfold Obligations.ReturnFromFrame
  dsimp only
  constructor
  · intro s p fr rest hp hd hr
    refine ⟨fun x => exec_ret_bad hp hd, exec_ret_owes hp hd, fun hg ho => ⟨_, exec_ret_resident hp hd hr hg ho, ?_⟩⟩
    have n := returned_frameBack (s := s) (s1 := modCtx s fun c => c.popped fr rest) (s.th.ctx.popped_frameBack fr rest)
    have hdev := (modCtx_device s fun c => c.popped fr rest).trans (returned_device s _)
    rw [show endCheck 4 (closeDepth (s.th.ctx.popFrame fr rest) s.th.ctx.depth) (s.th.ctx.pair 54)
        = returnCheck (s.th.ctx.popped fr rest) s.th.ctx.depth (s.th.ctx.pair 54) by rw [returnCheck, Ctx.popped]]
    exact ⟨returned_pc s _, returned_ld s _, fun h => returned_pc_no_loop ((s.th.ctx.popped_ld fr rest).trans h), n.depth,
      (returned_res s _).trans (s.th.ctx.popped_res fr rest), n.frame, n.results, n.globals, fun q _ => n.preds q, hdev.memory⟩
  · intro s s' p bs hp hd hr ho ha hld hg
    refine ⟨fun hpeer hgo hl hctx => ⟨_, exec_ret_filled hp hd hr ho ha hg hpeer hgo hl, ?_⟩,
      fun hpeer => ⟨_, exec_ret_peer hp hd hr ho ha hg hpeer, ?_⟩⟩
    · have hc : (modCtx s' fun c => c.filled (frameOfBytes bs)).th.ctx = s.th.ctx.filled (frameOfBytes bs) :=
        congrArg (fun c : Ctx => c.filled (frameOfBytes bs)) hctx
      have n : FrameBack s.th.ctx _ _ := returned_frameBack (hc ▸ s.th.ctx.filled_frameBack (frameOfBytes bs))
      refine ⟨returned_pc_no_loop ?_, n.depth, ?_, ?_, fun k => (n.frame k).trans (getElem_frameOfBytes bs k), n.results,
        (returned_device s _).mem⟩
      · rw [hc, Ctx.filled_ld, hld]
      · rw [returned_res, hc, Ctx.filled_res]
      · rw [returned_spill, hc, Ctx.filled_spill]
    · have n := returned_frameBack (s := s) (s1 := modCtx (queuedFill s false) fun c => c.filled c.frame)
        (s.th.ctx.filled_frameBack s.th.ctx.frame)
      have haccs := (returned_accs s (modCtx (queuedFill s false) fun c => c.filled c.frame)).trans (queuedFill_accs ha)
      refine ⟨returned_pc_no_loop ((s.th.ctx.filled_ld _).trans hld), n.depth,
        (returned_spill s _).trans (s.th.ctx.filled_spill _), returned_drain ha ?_, ?_, (returned_device s _).mem⟩
      · exact (queuedFill_accs ha).symm ▸ frameAccs_ne_nil hpeer
      · rw [haccs]
        exact map_frameAccs_ea s .rd _ _ hpeer

end Sys2Proof.Machine
end

