-- ==== Sys2Proof/Proofs/StepIssues.lean ====
section
/-! One step of the thread that its port serves (R11, R59 to R64, R72, R111, R147): entry of a handler and of a clause, the repeat, the
interlock and the decoded instruction. A trap leaves no repeat in force, so an unassigned word ends the step. -/

namespace Sys2Proof.Machine

/-! ## A trap leaves no repeat in force -/

theorem queueFrame_ctx (s : State) (t : AccT) (ea : DWord) (kind : Nat → AccKind) :
    (queueFrame s t ea kind).1.th.ctx = s.th.ctx := by
  unfold queueFrame
  dsimp only
  split <;> rfl

theorem spillOldest_ctx (s : State) : (spillOldest s).1.th.ctx = s.th.ctx := by
  unfold spillOldest
  dsimp only
  split
  · exact queueFrame_ctx _ _ _ _
  · split
    · rfl
    · rfl
    · rw [storeRun_th]

theorem callWindow_rep (s : State) (link : DWord) : (callWindow s link).1.th.ctx.rep = s.th.ctx.rep := by
  by_cases hf : 1 + s.th.ctx.res.length < residentMax s.th.place.regs
  · rw [callWindow_fits s link hf, framePushed_ctx]
    simp only [Ctx.kept, Ctx.pushFrame]
  · by_cases hl : s.th.place.rslim.toNat < s.th.ctx.spill.toNat + 160 ∨ s.th.ctx.depth = 0xFFFFFFFF
    · rw [callWindow_full s link (by omega) hl]
    · obtain ⟨hl, hd⟩ := not_or.mp hl
      rw [callWindow_spill s link (by omega) (by omega) hd]
      have h := spillOldest_ctx s
      unfold pushSpilled
      split
      next s' e =>
        rw [e] at h
        rw [framePushed_ctx, ← h]
        simp only [Ctx.spilled, Ctx.pushFrame]
      next => rw [h]

theorem fatal_ctx (s : State) (code : Nat) (nested : Bool) : (fatal s code nested).th.ctx = s.th.ctx := by
  unfold fatal dieCluster
  dsimp only
  split <;> split <;> rfl

theorem stopCluster_th (s : State) (c : Cid) (reason : Nat) : (stopCluster s c reason).th = s.th := by
  unfold stopCluster
  split <;> rfl

theorem service_rep (s : State) (code : Nat) (addr : DWord) : (service s code addr).th.ctx.rep = none := by
  unfold service
  rw [stopCluster_th]
  rfl

theorem windowFault_rep {s : State} (e : Exc) (h : s.th.ctx.rep = none) : (windowFault s e).th.ctx.rep = none := by
  unfold windowFault
  split
  · exact h
  · split
    · split
      · exact service_rep _ _ _
      · rw [fatal_ctx]; exact h
    · rw [fatal_ctx]; exact h

theorem awaitFrame_rep (s t : State) : (awaitFrame s t).th.ctx.rep = t.th.ctx.rep := by
  rw [awaitFrame_same, modCtx_th]

theorem enterHandler_rep {s : State} (h : s.th.ctx.rep = none) : (enterHandler s).th.ctx.rep = none := by
  have hw := (callWindow_rep s s.th.trap.tpc).trans h
  unfold enterHandler
  split
  next s' e =>
    rw [e] at hw
    rw [awaitFrame_rep, arrive_ctx]
    dsimp only
    split
    · exact (congrArg Ctx.rep (frameMade_ctx s')).trans hw
    · exact hw
  next s' x e =>
    rw [e] at hw
    exact windowFault_rep x hw
  all_goals
    next s' e =>
      rw [e] at hw
      exact hw

/-- No trap puts a repeat in force. -/
theorem takeExc_rep {s : State} (code : Nat) (info : Word) (addr : DWord) (h : s.th.ctx.rep = none) :
    (takeExc s (.trap code info addr)).th.ctx.rep = none := by
  unfold takeExc
  dsimp only
  split_ifs
  · exact h
  · exact service_rep _ _ _
  · rw [stopCluster_th]; rfl
  · rw [stopCluster_th]; rfl
  · exact service_rep _ _ _
  · rw [fatal_ctx]; exact h
  · rw [fatal_ctx]; exact h
  · rw [fatal_ctx]; exact h
  · exact enterHandler_rep rfl

theorem illegal_rep {s u : State} (h : s.th.ctx.rep = none) (hu : illegal s = .next u) : u.th.ctx.rep = none := by
  unfold illegal raiseCode raise at hu
  split at hu
  · cases hu
    exact takeExc_rep _ _ _ h
  · cases hu
    exact h

/-! ## The thread served -/

/-- The step serves the thread at the head of the bundle where it stands in focus. -/
theorem step_serves {s : State} {rest : List Tid} (h : s.bundle = s.th.id :: rest) :
    step s = issueThread { s with bundle := rest } := by
  simp [step, deviceStep, h, focusIssue, focus]

/-- Inside a clause the thread issues the instruction at pc. -/
theorem step_issuing {s : State} {rest : List Tid} (h : s.Issuing rest) : step s = issuePrefixed { s with bundle := rest } := by
  obtain ⟨hserved, hmay, hentry, hpend, hinside⟩ := h
  have hmay' : mayIssue { s with bundle := rest } = true := hmay
  rw [step_serves hserved]
  simp [issueThread, hmay', hentry, hpend, hinside]

/-- Where the issue leaves no repeat in force, nothing issues after it. -/
theorem issuePrefixed_of_rep_none {s u : State} (h : issueInstr s = .next u) (hu : u.th.ctx.rep = none) :
    issuePrefixed s = .next u := by
  simp [issuePrefixed, h, hu]

/-- Under a repeat the governed instruction is the only issue. -/
theorem issuePrefixed_of_rep {s : State} (h : s.th.ctx.rep ≠ none) : issuePrefixed s = issueInstr s := by
  unfold issuePrefixed
  cases hr : s.th.ctx.rep with
  | none => exact absurd hr h
  | some r => cases issueInstr s <;> rfl

section

variable {s : State} {w : Word} {w' x : Nat} (hw : fetchWord s s.th s.th.ctx.pc = .ok w) (hs : stepped s.th.ctx w.toNat = some w')
  (hx : fetchExt s s.th.ctx.pc w' = .ok x)
include hw hs hx

/-! The fetched word `w'`, after the steps of the repeat, with its extension `x`. -/

theorem issueInstr_waits (hl : interlock s w' x = true) : issueInstr s = .next s := by
  simp [issueInstr, hw, hs, hx, hl]

theorem issueInstr_decoded {i : Instr} (hl : interlock s w' x = false) (hd : decodeWord w' x = some i) : issueInstr s = exec i s := by
  simp [issueInstr, hw, hs, hx, hl, hd]

theorem issueInstr_unassigned (hl : interlock s w' x = false) (hd : decodeWord w' x = none) : issueInstr s = illegal s := by
  simp [issueInstr, hw, hs, hx, hl, hd]

end

/-- The interlock holds the instruction back. -/
theorem issuePrefixed_waits {s : State} (hi : issueInstr s = .next s) : issuePrefixed s = .next s := by
  by_cases hr : s.th.ctx.rep = none
  · exact issuePrefixed_of_rep_none hi hr
  · rw [issuePrefixed_of_rep hr, hi]

/-- An unassigned word traps, and its step ends there. -/
theorem issuePrefixed_unassigned {s : State} (hi : issueInstr s = illegal s) : issuePrefixed s = illegal s := by
  by_cases hr : s.th.ctx.rep = none
  · obtain ⟨u, hu⟩ : ∃ u, illegal s = .next u := by
      unfold illegal raiseCode raise
      split <;> exact ⟨_, rfl⟩
    rw [issuePrefixed_of_rep_none (hi.trans hu) (illegal_rep hr hu), hu]
  · rw [issuePrefixed_of_rep hr, hi]

/-- R61, R62: at a header the clause is entered, and its first instruction issues with the entry. -/
theorem issueThread_header {s u : State} (hm : mayIssue s = true) (he : s.th.entryPend = false) (hp : s.th.pend = none)
    (hpc : s.th.ctx.pc = s.th.ctx.clh) (hu : enterClause s = .next u) :
    issueThread s = if hasEntered s u then issuePrefixed u else .next u := by
  simp [issueThread, hm, he, hp, hpc, hu]

/-- Settles O4: each branch of the issue is read off `issueThread` and `issuePrefixed`; no fetch depends on the bundle. -/
theorem stepRunsDecoded : Obligations.StepRunsDecoded := by
  unfold Obligations.StepRunsDecoded
  dsimp only
  refine ⟨fun s rest w w' x hs hw hst hx => ?_, fun s rest hb => ?_⟩
  · rw [step_issuing hs]
    generalize hs1 : ({ s with bundle := rest } : State) = s1
    have hth : s1.th = s.th := hs1 ▸ rfl
    have hw1 : fetchWord s1 s1.th s1.th.ctx.pc = .ok w := hs1 ▸ hw
    have hst1 : stepped s1.th.ctx w.toNat = some w' := hs1 ▸ hst
    have hx1 : fetchExt s1 s1.th.ctx.pc w' = .ok x := hs1 ▸ hx
    have hlock : interlock s w' x = interlock s1 w' x := by rw [← hs1]; rfl
    rw [hlock, ← hth]
    refine ⟨fun hl => issuePrefixed_waits (issueInstr_waits hw1 hst1 hx1 hl), fun hl => ⟨fun i hd => ?_, fun hd =>
      issuePrefixed_unassigned (issueInstr_unassigned hw1 hst1 hx1 hl hd)⟩⟩
    have hi := issueInstr_decoded hw1 hst1 hx1 hl hd
    refine ⟨?_, fun hr => (issuePrefixed_of_rep hr).trans hi, fun u hu => issuePrefixed_of_rep_none (hi.trans hu)⟩
    rw [issuePrefixed, hi]
    rfl
  · rw [step_serves hb]
    refine ⟨fun hm => ?_, fun hm he => ?_, fun e hm he hp => ?_, fun u hm he hp hpc hu => ?_⟩
    · simp [issueThread, show mayIssue { s with bundle := rest } = false from hm]
    · simp [issueThread, show mayIssue { s with bundle := rest } = true from hm, he]
    · simp [issueThread, show mayIssue { s with bundle := rest } = true from hm, he, hp]
    · rw [issueThread_header (s := { s with bundle := rest }) hm he hp hpc hu]
      exact ⟨fun h => if_pos h, fun h => if_neg (by simp [h])⟩

end Sys2Proof.Machine
end

