-- ==== Sys2Proof/Proofs/ControlSettings.lean ====
section
/-! The control space's settings and units (R379, R414, R417 to R420): the limits of a register, Loupe units, sensors and reports. None of
them touches a thread, a cluster, a launch or memory. -/

namespace Sys2Proof.Machine

/-- Memory, the focus thread, clusters and launches are as before. -/
def Quiet (s t : State) : Prop := t.mem = s.mem ∧ t.th = s.th ∧ t.clusters = s.clusters ∧ t.launches = s.launches

theorem Quiet.refl (s : State) : Quiet s s := ⟨rfl, rfl, rfl, rfl⟩

/-! ## Single registers (R379, R414) -/

theorem exec_rtoctlWrite (s : State) (v : Word) :
    ∃ t, exec (.rtoctlWrite v) s = .next t ∧ Quiet s t
      ∧ t.fab.tlog = if 16 ≤ v.toNat % 32 ∧ v.toNat % 32 ≤ 28 then v.toNat % 32 else s.fab.tlog := by
  refine ⟨writeTlog s v, rfl, ?_⟩
  unfold writeTlog
  dsimp only
  split
  · exact ⟨.refl s, rfl⟩
  · exact ⟨.refl s, rfl⟩

theorem exec_prismbufWrite (s : State) (v : Word) :
    ∃ t, exec (.prismbufWrite v) s = .next t ∧ Quiet s t
      ∧ t.fab.prism = if v.toNat % 128 ≤ 64 then v.toNat % 128 else s.fab.prism := by
  refine ⟨writePrism s v, rfl, ?_⟩
  unfold writePrism
  dsimp only
  split
  · exact ⟨.refl s, rfl⟩
  · exact ⟨.refl s, rfl⟩

/-- R379: an engine without a reservation takes the new size. -/
def engApplied (s : State) (e : CollEngine) : CollEngine := if e.resv = [] then { e with buf := s.fab.prism } else e

theorem exec_prismbufApply (s : State) :
    ∃ t, exec .prismbufApply s = .next t ∧ Quiet s t ∧ t.coll0 = engApplied s s.coll0 ∧ t.coll1 = engApplied s s.coll1 := by
  refine ⟨_, rfl, .refl s, ?_, ?_⟩
  all_goals
    simp only [engApplied, List.isEmpty_iff]

theorem exec_pcapWrite (s : State) (v : Word) :
    ∃ t, exec (.pcapWrite v) s = .next t ∧ Quiet s t
      ∧ t.ctl.pcap.toNat = Max.max 600 (Min.min 3600 (v.toNat % 65536)) := by
  refine ⟨_, rfl, .refl s, ?_⟩
  show (BitVec.ofNat 16 (Max.max 600 (Min.min 3600 (v.toNat % 65536)))).toNat = _
  rw [BitVec.toNat_ofNat]
  omega

/-! ## Loupe (R417) -/

theorem mapLoupe_quiet (s : State) (u : Nat) (f : Loupe → Loupe) : Quiet s (mapLoupe s u f) := ⟨rfl, rfl, rfl, rfl⟩

theorem getD_loupe {s : State} {u : Nat} {x : Loupe} (h : s.ctl.loupe[u]? = some x) : s.ctl.loupe.getD u Loupe.zero = x := by
  rw [List.getD_eq_getElem?_getD, h, Option.getD_some]

theorem mapLoupe_self {s : State} {u : Nat} {x : Loupe} (h : s.ctl.loupe[u]? = some x) (f : Loupe → Loupe) :
    (mapLoupe s u f).ctl.loupe[u]? = some (f x) := by
  have hu := (List.getElem?_eq_some_iff.mp h).1
  simp only [mapLoupe, getD_loupe h, List.getElem?_set_self hu]

theorem mapLoupe_other (s : State) (u : Nat) (f : Loupe → Loupe) (j : Nat) (hj : j ≠ u) :
    (mapLoupe s u f).ctl.loupe[j]? = s.ctl.loupe[j]? :=
  List.getElem?_set_ne hj.symm

/-- A unit that keeps its state leaves the list. -/
theorem mapLoupe_same {s : State} {u : Nat} {x : Loupe} (h : s.ctl.loupe[u]? = some x) {f : Loupe → Loupe} (hf : f x = x) :
    (mapLoupe s u f).ctl.loupe = s.ctl.loupe := by
  obtain ⟨hu, hx⟩ := List.getElem?_eq_some_iff.mp h
  simp only [mapLoupe, getD_loupe h, hf]
  rw [← hx, List.set_getElem_self]

theorem takes_iff (s : State) (x : Loupe) (n : Nat) : x.takes s n = true ↔
    x.ctl.getLsbD 0 = true ∧ x.ctl.getLsbD 1 = false ∧ x.event < 6 ∧ x.cores ≠ [] ∧ ∀ c, x.counted s = some c → n = c := by
  unfold Loupe.takes Loupe.samples
  cases x.counted s <;> simp [and_assoc]

/-- The bin of a value: the first below 2, the last from 2^15 on, and between them by powers of two. -/
theorem loupeBin_eq_iff (n b : Nat) : loupeBin n = b ↔
    if n < 2 then b = 0 else if b = 15 then 2 ^ 15 ≤ n else b ≠ 0 ∧ b < 15 ∧ 2 ^ b ≤ n ∧ n < 2 ^ (b + 1) := by
  change Min.min 15 (if n < 2 then 0 else n.log2) = b ↔ _
  by_cases hn : n < 2
  · simp only [hn, if_true]
    exact eq_comm
  · have h0 : n ≠ 0 := by omega
    have h1 : 1 ≤ Nat.log2 n := (Nat.le_log2 h0).mpr (by omega)
    simp only [hn, if_false]
    by_cases hb : b = 15
    · subst hb
      rw [if_pos rfl, ← Nat.le_log2 h0]
      omega
    · rw [if_neg hb, ← Nat.le_log2 h0, ← Nat.log2_lt h0]
      omega

theorem Loupe.sample_min (x : Loupe) {n : Nat} (h : n < 2 ^ 32) : (x.sample n).min.toNat = Min.min x.min.toNat n := by
  have hw : (wOf (Nat.min n 0xFFFFFFFF)).toNat = n := by
    rw [show Nat.min n 0xFFFFFFFF = n from Nat.min_eq_left (by omega)]
    exact Nat.mod_eq_of_lt h
  unfold Loupe.sample
  simp only [BitVec.lt_def, hw]
  split <;> omega

theorem Loupe.sample_max (x : Loupe) {n : Nat} (h : n < 2 ^ 32) : (x.sample n).max.toNat = Max.max x.max.toNat n := by
  have hw : (wOf (Nat.min n 0xFFFFFFFF)).toNat = n := by
    rw [show Nat.min n 0xFFFFFFFF = n from Nat.min_eq_left (by omega)]
    exact Nat.mod_eq_of_lt h
  unfold Loupe.sample
  simp only [BitVec.lt_def, hw]
  split <;> omega

theorem Loupe.sample_bins (x : Loupe) (n b : Nat) (hb : b < x.bins.length) :
    (x.sample n).bins[b]? = some (if loupeBin n = b then satAdd (x.bins.getD b 0) 1 else x.bins.getD b 0) := by
  simp only [Loupe.sample, List.getElem?_set]
  split
  next h => simp [h, hb]
  next h => simp [List.getD_eq_getElem?_getD, hb]

theorem exec_loupeClear {s : State} {u : Nat} {x : Loupe} (h : s.ctl.loupe[u]? = some x) :
    ∃ t, exec (.loupeClear u) s = .next t ∧ Quiet s t
      ∧ t.ctl.loupe[u]? = some { x with min := 0xFFFFFFFF, max := 0, cnt := 0, bins := List.replicate 16 0 }
      ∧ ∀ j, j ≠ u → t.ctl.loupe[j]? = s.ctl.loupe[j]? :=
  ⟨_, rfl, mapLoupe_quiet s u _, mapLoupe_self h _, mapLoupe_other s u _⟩

theorem exec_loupeSample_skips {s : State} {u n : Nat} {x : Loupe} (h : s.ctl.loupe[u]? = some x) (hn : x.takes s n = false) :
    ∃ t, exec (.loupeSample u n) s = .next t ∧ Quiet s t ∧ t.ctl.loupe = s.ctl.loupe :=
  ⟨_, rfl, mapLoupe_quiet s u _, mapLoupe_same h (by simp [hn])⟩

theorem exec_loupeSample_takes {s : State} {u n : Nat} {x : Loupe} (h : s.ctl.loupe[u]? = some x) (hn : x.takes s n = true) :
    ∃ t, exec (.loupeSample u n) s = .next t ∧ Quiet s t ∧ t.ctl.loupe[u]? = some (x.sample n)
      ∧ ∀ j, j ≠ u → t.ctl.loupe[j]? = s.ctl.loupe[j]? := by
  refine ⟨_, rfl, mapLoupe_quiet s u _, ?_, mapLoupe_other s u _⟩
  rw [mapLoupe_self h, if_pos hn]

end Sys2Proof.Machine
end

