-- ==== Sys2Proof/Proofs/DeviceMonitors.lean ====
section
/-! Sensors, attestation, cycles, soft errors and bring-up (R29, R344, R347, R414, R418 to R420). No byte of memory changes. -/

namespace Sys2Proof.Machine

/-! ## Sensors (R414, R418) -/

theorem settleClock_clk {s : State} (hc : s.ctl.capOn = false) (ht : s.ctl.tripOn = false) : (settleClock s).ctl.clk = 1500 := by
  simp [settleClock, hc, ht]

theorem exec_telemetrySample (s : State) (mw : Word) (t0 t1 : BitVec 16) :
    ∃ t, exec (.telemetrySample mw t0 t1) s = .next t ∧ Quiet s t ∧ t.ctl.pwr = mw ∧ t.ctl.temp0 = t0 ∧ t.ctl.temp1 = t1
      ∧ t.ctl.capOn = decide (1000 * s.ctl.pcap.toNat < mw.toNat) ∧ (t.ctl.capOn = false → t.ctl.tripOn = false → t.ctl.clk = 1500)
      ∧ (t.ctl.tripOn = true ↔ s.ctl.tripOn = true ∧ overLimit t.ctl = true) := by
  refine ⟨_, rfl, ⟨rfl, rfl, rfl, rfl⟩, rfl, rfl, rfl, rfl, fun hc ht => settleClock_clk hc ht, ?_⟩
  exact Bool.and_eq_true_iff

theorem exec_thermalTrip_idle {s : State} (h : overLimit s.ctl = false ∨ s.ctl.tripOn = true) : exec .thermalTrip s = .next s := by
  show execThermalTrip s = _
  rw [execThermalTrip, if_neg]
  rcases h with h | h <;> simp [h]

theorem exec_thermalTrip_trips {s : State} (h : overLimit s.ctl = true) (ht : s.ctl.tripOn = false) :
    ∃ t, exec .thermalTrip s = .next t ∧ Quiet s t ∧ t.ctl.tripOn = true := by
  refine ⟨settleClock { s with ctl := { s.ctl with tripOn := true } }, ?_, ⟨rfl, rfl, rfl, rfl⟩, rfl⟩
  show execThermalTrip s = _
  rw [execThermalTrip, if_pos (by simp [h, ht])]

/-! ## The length of a report (R419) -/

theorem length_bytesOfNat (n v : Nat) : (bytesOfNat n v).length = n := by
  induction n generalizing v with
  | zero => rfl
  | succ n ih => simp [bytesOfNat, ih]

theorem length_padTo (n : Nat) (bs : List Byte) : (padTo n bs).length = n := by
  simp [padTo]

theorem length_shaStart : shaStart.length = 8 := by
  have hs : ((List.range 20).filter isPrime).length ≤ shaPrimes.length :=
    ((List.range_sublist.mpr (by decide)).filter isPrime).length_le
  have h20 : ((List.range 20).filter isPrime).length = 8 := by decide
  simp only [shaStart, List.length_map, List.length_take]
  omega

theorem length_shaRound {v : List Nat} (kw : Nat) (h : v.length = 8) : (shaRound v kw).length = 8 := by
  unfold shaRound
  split
  · rfl
  · exact h

theorem length_shaBlock {hs : List Nat} (block : List Nat) (h : hs.length = 8) : (shaBlock hs block).length = 8 := by
  have hv : ∀ (l : List Nat) (v : List Nat), v.length = 8 → (l.foldl shaRound v).length = 8 := by
    intro l
    induction l with
    | nil => exact fun _ hv => hv
    | cons kw l ih => exact fun v hv => ih _ (length_shaRound kw hv)
  simp only [shaBlock, List.length_zipWith, h, hv _ _ h, Nat.min_self]

theorem length_sha512 (bs : List Byte) : (sha512 bs).length = 64 := by
  have hf : ∀ (l : List Nat) (h : List Nat), h.length = 8 →
      (l.foldl (fun h i => shaBlock h (shaWords (shaPad bs) i)) h).length = 8 := by
    intro l
    induction l with
    | nil => exact fun _ hh => hh
    | cons i l ih => exact fun h hh => ih _ (length_shaBlock _ hh)
  unfold sha512
  dsimp only
  have hb : ∀ n x, (bytesBig n x).length = n := fun n x => by simp [bytesBig, length_bytesOfNat]
  simp only [List.length_flatMap, hb, List.map_const', List.sum_replicate, hf _ _ length_shaStart]
  rfl

theorem length_reportBody (c : Control) (nonce : List Byte) : (reportBody c nonce).length = 144 := by
  simp [reportBody, bytesOfW, bytesOfD, length_bytesOfNat, length_padTo, deviceId, length_sha512]

theorem exec_attestationRequest (s : State) (nonce : List Byte) :
    ∃ t, exec (.attestationRequest nonce) s = .next t ∧ Quiet s t ∧ t.ctl.reports = s.ctl.reports + 1
      ∧ t.ctl.report.take 144 = reportBody s.ctl nonce :=
  ⟨_, rfl, ⟨rfl, rfl, rfl, rfl⟩, rfl, List.take_left' (length_reportBody s.ctl nonce)⟩

/-! ## Cycles (R29) -/

theorem exec_coreClockCycle_none {s : State} {core : Nat} (h : 672 ≤ core) : exec (.coreClockCycle core) s = .next s := by
  show execCoreClockCycle core s = _
  rw [execCoreClockCycle, if_pos (show Config.cores ≤ core from h)]

theorem exec_coreClockCycle {s : State} {core : Nat} (h : core < 672) :
    ∃ t, exec (.coreClockCycle core) s = .next t ∧ (getCore t core).cyc = (getCore s core).cyc + 1
      ∧ (∀ k, k ≠ core → getCore t k = getCore s k) ∧ Quiet s t := by
  have he : execCoreClockCycle core s = _ := if_neg (Nat.not_le.mpr h)
  exact ⟨_, he, congrArg Core.cyc (getCore_setCore s core _), fun k hk => getCore_setCore_other s core k _ hk, rfl, rfl, rfl, rfl⟩

/-! ## Soft errors and scrubbing (R344, R347) -/

theorem mem_setAdd (l : List Nat) (k : Nat) : k ∈ setAdd l k := by
  induction l with
  | nil => simp [setAdd]
  | cons c r ih =>
    unfold setAdd
    split
    · simp
    · split
      next h => simp [h]
      next => simp [ih]

/-- A change of memory beside HBM's bytes. -/
theorem sameMemory_setMem {s : State} {m : MemSys} (h : m.hbm = s.mem.hbm) : SameMemory s { s with mem := m } := .of_eq h rfl

theorem exec_softError_hbm_none {s : State} {pa n : Nat} (h : n = 0 ∨ inHbm pa 1 = false) :
    exec (.softError .hbm pa n) s = .next s := by
  show execSoftError .hbm pa n s = _
  simp only [execSoftError]
  rw [if_pos (by simpa using h)]

/-- R344: a first error of one bit waits to be corrected; any other makes the word uncorrectable, in HBM beneath a copy in an LLC. -/
theorem exec_softError_hbm {s : State} {pa n : Nat} (hn : n ≠ 0) (hp : inHbm pa 1 = true) :
    let w := pa / 32
    let held := (llcFind s.mem (sectorOf pa)).isSome
    let fresh := n = 1 ∧ w ∉ s.mem.soft ∧ w ∉ (if held then s.mem.hidden else s.mem.bad)
    ∃ t, exec (.softError .hbm pa n) s = .next t ∧ SameMemory s t ∧ t.th = s.th
      ∧ (fresh → t.mem.soft = setAdd s.mem.soft w ∧ t.mem.bad = s.mem.bad)
      ∧ (¬fresh → held = true → w ∈ t.mem.hidden ∧ t.mem.bad = s.mem.bad)
      ∧ (¬fresh → held = false → t.mem.bad = setAdd s.mem.bad w) := by
  intro w held fresh
  have hf : (n = 1 && !s.mem.soft.contains w && !(if held then s.mem.hidden else s.mem.bad).contains w) = true ↔ fresh := by
    simp [fresh, and_assoc]
  refine ⟨_, rfl, ?_⟩
  dsimp only
  rw [if_neg (by simp [hn, hp])]
  by_cases h : fresh
  · rw [if_pos (hf.mpr h)]
    exact ⟨sameMemory_setMem rfl, rfl, fun _ => ⟨rfl, rfl⟩, fun k => absurd h k, fun k => absurd h k⟩
  · rw [if_neg (fun k => h (hf.mp k))]
    cases hh : held with
    | true =>
      rw [if_pos hh]
      exact ⟨sameMemory_setMem rfl, rfl, fun k => absurd k h, fun _ _ => ⟨mem_setAdd _ _, rfl⟩, fun _ k => absurd k (by simp)⟩
    | false =>
      rw [if_neg (show ¬held = true by simp [hh])]
      exact ⟨sameMemory_setMem rfl, rfl, fun k => absurd k h, fun _ k => absurd k (by simp), fun _ _ => rfl⟩

theorem exec_softError_llc {s : State} {pa n : Nat} (hh : (llcFind s.mem (sectorOf pa)).isSome = true) (hn : 2 ≤ n) :
    ∃ t, exec (.softError .llc pa n) s = .next t ∧ SameMemory s t ∧ t.mem.bad = setAdd s.mem.bad (pa / 32) := by
  refine ⟨{ s with mem := { s.mem with bad := setAdd s.mem.bad (pa / 32) } }, ?_, sameMemory_setMem rfl, rfl⟩
  show execSoftError .llc pa n s = _
  simp only [execSoftError, hh]
  rw [if_neg (by simp; omega), if_neg (by omega)]

/-- R346: what an error of `n` bits does in an array of the device other than HBM and the LLC. -/
theorem exec_softError_other {a : EccArray} (h : a ≠ .hbm) (l : a ≠ .llc) (s : State) (pa n : Nat) :
    exec (.softError a pa n) s = .next (if n = 0 then s else if n = 1 then countSram s else doubleError s a pa) := by
  cases a with
  | hbm => exact absurd rfl h
  | llc => exact absurd rfl l
  | _ => rfl

theorem exec_softError_single {a : EccArray} (h : a ≠ .hbm) (l : a ≠ .llc) (s : State) (pa : Nat) :
    exec (.softError a pa 0) s = .next s
      ∧ ∃ t, exec (.softError a pa 1) s = .next t ∧ Quiet s t ∧ t.ctl.ceSram = satAdd s.ctl.ceSram 1 :=
  ⟨exec_softError_other h l s pa 0, _, exec_softError_other h l s pa 1, ⟨rfl, rfl, rfl, rfl⟩, rfl⟩

theorem exec_softError_deque (s : State) (core pa : Nat) :
    ∃ t, exec (.softError (.deque core) pa 2) s = .next t ∧ t.mem = s.mem ∧ t.th = s.th
      ∧ (getCore t core).deque = (getCore s core).deque
      ∧ (getCore t core).dqBad
        = (if pa < (getCore s core).deque.length then setAdd (getCore s core).dqBad pa else (getCore s core).dqBad) := by
  refine ⟨doubleError s (.deque core) pa, exec_softError_other (by simp) (by simp) s pa 2, ?_⟩
  unfold doubleError
  by_cases h : pa < (getCore s core).deque.length
  · simp [h]
  · simp [h]

theorem exec_softError_tile {s : State} {core pa : Nat} {x : Tile} (h : (getCore s core).tiles[pa / 16384]? = some (some x)) :
    ∃ t, exec (.softError (.tile core) pa 2) s = .next t ∧ t.mem = s.mem
      ∧ (getCore t core).tiles[pa / 16384]? = some (some { x with bad := setAdd x.bad (pa % 16384) }) := by
  have hl := (List.getElem?_eq_some_iff.mp h).1
  refine ⟨doubleError s (.tile core) pa, exec_softError_other (by simp) (by simp) s pa 2, rfl, ?_⟩
  simp only [doubleError, spoilTile, getCore_setCore, h, Option.getD_some, Option.map_some, List.getElem?_set_self hl]

theorem exec_scrub (s : State) (pa : Nat) :
    ∃ t, exec (.scrub pa) s = .next t ∧ SameMemory s t ∧ t.th = s.th
      ∧ (pa / 32 ∈ s.mem.soft → t.mem.ceHbm = satAdd s.mem.ceHbm 1 ∧ t.mem.soft = setDel s.mem.soft (pa / 32))
      ∧ (pa / 32 ∉ s.mem.soft → t = s) := by
  by_cases h : pa / 32 ∈ s.mem.soft
  · have he : execScrub pa s = .next _ := congrArg Host.Outcome.next (if_pos (List.contains_iff_mem.mpr h))
    exact ⟨_, he, sameMemory_setMem rfl, rfl, fun _ => ⟨rfl, rfl⟩, fun k => absurd h k⟩
  · have he : execScrub pa s = .next s := congrArg Host.Outcome.next (if_neg (fun k => h (List.contains_iff_mem.mp k)))
    exact ⟨s, he, .of_eq rfl rfl, rfl, fun k => absurd k h, fun _ => rfl⟩

/-! ## Bring-up (R420) -/

/-- What a step of bring-up leaves: every byte of memory, and the focus thread. -/
def BroughtUp (s t : State) : Prop := exec .powerGood s = .next t ∧ SameMemory s t ∧ t.th = s.th

theorem exec_powerGood_up {s : State} (h : s.ctl.up = true) : exec .powerGood s = .next s :=
  congrArg Host.Outcome.next (if_pos h)

theorem exec_powerGood {s : State} (h : s.ctl.up = false) : exec .powerGood s = .next (bringUp s) :=
  congrArg Host.Outcome.next (if_neg (by simp [h]))

/-- A stage that touches only the control registers and the fabric. -/
theorem BroughtUp.of_bringUp {s : State} {c : Control} {f : Fabric} (h : s.ctl.up = false)
    (he : bringUp s = { s with ctl := c, fab := f }) : BroughtUp s { s with ctl := c, fab := f } :=
  ⟨(exec_powerGood h).trans (congrArg Host.Outcome.next he), .of_eq rfl rfl, rfl⟩

theorem bringUp_measured {s : State} (h : s.ctl.up = false) (hk : s.ctl.stage = 0)
    (hm : s.ctl.measured = Config.images.length) : ∃ t, BroughtUp s t ∧ t.ctl = { s.ctl with stage := 1 } := by
  have hn : Config.images[s.ctl.measured]? = none := List.getElem?_eq_none hm.ge
  have he : bringUp s = { s with ctl := { s.ctl with stage := 1 } } := by simp only [bringUp, hk, hn]
  exact ⟨_, .of_bringUp h he, rfl⟩

/-- R419: the boot ROM's judgement of an image. -/
theorem accepted_iff (i : FwImage) : accepted i = true ↔
    sha512 i.key = Config.fusedDigest ∧ edVerify i.key i.body i.sig = true ∧ Config.fusedVersion ≤ i.version := by
  simp [accepted, and_assoc]

theorem bringUp_image {s : State} {i : FwImage} (h : s.ctl.up = false) (hk : s.ctl.stage = 0)
    (hi : Config.images[s.ctl.measured]? = some i) (ha : accepted i = true) :
    ∃ t, BroughtUp s t
      ∧ t.ctl = { s.ctl with meas := sha512 (s.ctl.meas ++ sha512 i.body), measured := s.ctl.measured + 1 } := by
  have he : bringUp s = { s with ctl := { s.ctl with meas := extend s.ctl.meas i.body, measured := s.ctl.measured + 1 } } := by
    simp only [bringUp, hk, hi, ha, if_true]
  exact ⟨_, .of_bringUp h he, rfl⟩

theorem bringUp_refused {s : State} {i : FwImage} (h : s.ctl.up = false) (hk : s.ctl.stage = 0)
    (hi : Config.images[s.ctl.measured]? = some i) (ha : accepted i = false) : exec .powerGood s = .next s := by
  rw [exec_powerGood h]
  simp only [bringUp, hk, hi, ha, Bool.false_eq_true, if_false]

/-- The stages that train the stacks and load the launch processors. -/
theorem bringUp_plain {s : State} (h : s.ctl.up = false) (hk : s.ctl.stage = 1 ∨ s.ctl.stage = 2) :
    ∃ t, BroughtUp s t ∧ t.ctl = { s.ctl with stage := s.ctl.stage + 1 } ∧ t.fab = s.fab := by
  have he : bringUp s = { s with ctl := { s.ctl with stage := s.ctl.stage + 1 } } := by
    rcases hk with hk | hk
    all_goals simp only [bringUp, hk]
  exact ⟨_, .of_bringUp h he, rfl, rfl⟩

theorem bringUp_key {s : State} (h : s.ctl.up = false) (hk : s.ctl.stage = 3) :
    ∃ t, BroughtUp s t ∧ t.ctl.stage = 4 ∧ genOf t 0 = some s.ctl.nextGen ∧ t.ctl.key0Done = true ∧ t.ctl.up = false := by
  have he : bringUp s = { s with
      ctl := { s.ctl with stage := 4, key0Done := true, nextGen := s.ctl.nextGen + 1,
                          keys := ⟨0, padTo 64 Config.keyZero, s.ctl.nextGen⟩ :: s.ctl.keys },
      mem := { s.mem with pairs := keyPut s.mem.pairs s.ctl.nextGen (padTo 64 Config.keyZero) } } := by
    simp only [bringUp, hk]
  exact ⟨_, ⟨(exec_powerGood h).trans (congrArg Host.Outcome.next he), .of_eq rfl rfl, rfl⟩, rfl, rfl, rfl, h⟩

/-- The stage that takes every port to `st`. -/
theorem bringUp_allPorts {s : State} {st : PortState}
    (hk : (s.ctl.stage = 4 ∧ st = .train) ∨ (s.ctl.stage = 5 ∧ st = .join) ∨ (s.ctl.stage = 6 ∧ st = .up)) :
    bringUp s = { s with ctl := { s.ctl with stage := s.ctl.stage + 1 },
                         fab := { allPorts s st with joined := if s.ctl.stage = 6 then true else s.fab.joined } } := by
  obtain ⟨hk, rfl⟩ | ⟨hk, rfl⟩ | ⟨hk, rfl⟩ := hk
  all_goals
    simp only [bringUp, hk]
    rfl

/-- R374: the stages that take the ports through TRAIN and JOIN to UP. -/
theorem bringUp_ports {s : State} {st : PortState} (h : s.ctl.up = false)
    (hk : (s.ctl.stage = 4 ∧ st = .train) ∨ (s.ctl.stage = 5 ∧ st = .join) ∨ (s.ctl.stage = 6 ∧ st = .up)) :
    ∃ t, BroughtUp s t ∧ t.ctl = { s.ctl with stage := s.ctl.stage + 1 } ∧ (∀ p ∈ t.fab.ports, p.st = st)
      ∧ t.fab.joined = (if s.ctl.stage = 6 then true else s.fab.joined) := by
  have hp : ∀ p ∈ (allPorts s st).ports, p.st = st := by simp [allPorts]
  exact ⟨_, .of_bringUp h (bringUp_allPorts hk), rfl, hp, rfl⟩

theorem bringUp_opens {s : State} (h : s.ctl.up = false) (hk : 7 ≤ s.ctl.stage) :
    ∃ t, BroughtUp s t ∧ t.ctl = { s.ctl with stage := s.ctl.stage + 1, up := true } ∧ t.fab = s.fab := by
  obtain ⟨k, hk⟩ : ∃ k, s.ctl.stage = k + 7 := ⟨s.ctl.stage - 7, by omega⟩
  have he : bringUp s = { s with ctl := { s.ctl with stage := s.ctl.stage + 1, up := true } } := by simp only [bringUp, hk]
  exact ⟨_, .of_bringUp h he, rfl, rfl⟩

end Sys2Proof.Machine
end

