-- ==== Sys2Proof/Proofs/HartAccesses.lean ====
section
/-! Accesses of harts and of launch processors (R164, R219, R359, R361, R411, R422): to the control space, to HBM, and their faults. -/

namespace Sys2Proof.Machine

/-! ## The records of harts and of launch processors -/

theorem getHart_setHart {s : State} {h : Nat} (hh : h < s.ctl.harts.length) (x : Hart) : getHart (setHart s h x) h = x := by
  simp [getHart, setHart, List.getD_eq_getElem?_getD, hh]

theorem getHart_setHart_other (s : State) {h k : Nat} (hk : k ≠ h) (x : Hart) : getHart (setHart s h x) k = getHart s k := by
  simp [getHart, setHart, List.getD_eq_getElem?_getD, List.getElem?_set_ne hk.symm]

theorem getProc_setProc {s : State} {h : Nat} (hh : h < s.ctl.procs.length) (x : Proc) : getProc (setProc s h x) h = x := by
  simp [getProc, setProc, List.getD_eq_getElem?_getD, hh]

/-- R422: the record of a fault; a record that is held keeps its fields. -/
def HartFault.recorded (f : HartFault) (code pa : Nat) (st : Bool) : HartFault :=
  if f.v then { f with ovf := true } else { f with addr := BitVec.ofNat 64 pa, cause := BitVec.ofNat 8 code, st := st, v := true }

theorem getHart_hartFault {s : State} {h : Nat} (hh : h < s.ctl.harts.length) (code pa : Nat) (st : Bool) :
    getHart (hartFault s h code pa st) h
      = { getHart s h with fault := (getHart s h).fault.recorded code pa st, faulted := true,
                           excep := some (if st then .storeFault else .loadFault), tval := BitVec.ofNat 64 pa } := by
  have hc : h < (if code = cEccFatal then countUe s else s).ctl.harts.length := by
    split
    · exact hh
    · exact hh
  exact getHart_setHart hc _

/-- An access that ends in a state `y` with the control registers of `s`. -/
theorem getHart_hartDone {s y : State} {h : Nat} (hy : y.ctl = s.ctl) (hh : h < s.ctl.harts.length) (v : Option DWord) :
    getHart (hartDone y h v) h = { getHart s h with faulted := false, excep := none, value := v.getD (getHart s h).value } := by
  have hg : getHart y h = getHart s h := by rw [getHart, hy, getHart]
  rw [hartDone, getHart_setHart (by rwa [hy]), hg]

/-! ## Writes of the control space's registers -/

theorem exec_controlRegisterWrite_none {s : State} {h off size : Nat} {m : HartMode} {d : DWord} (hm : m ≠ .launch) (hh : 16 ≤ h) :
    exec (.controlRegisterWrite h m off size d) s = .next s :=
  (if_neg hm).trans (if_pos hh)

theorem exec_controlRegisterWrite {s : State} {h off size : Nat} {m : HartMode} {d : DWord} (hm : m ≠ .launch) (hh : h < 16)
    {rs : List Region} (hr : ctlWords m off size = some rs) :
    exec (.controlRegisterWrite h m off size d) s = .next (ctlWrite s d rs) := by
  refine (if_neg hm).trans ((if_neg (by omega)).trans ?_)
  rw [hr]

theorem exec_controlRegisterWrite_faults {s : State} {h off size : Nat} {m : HartMode} {d : DWord} (hm : m ≠ .launch) (hh : h < 16)
    (hr : ctlWords m off size = none) :
    exec (.controlRegisterWrite h m off size d) s = .next (hartFault s h 0x09 (Config.ctlBase + off) true) := by
  refine (if_neg hm).trans ((if_neg (by omega)).trans ?_)
  rw [hr]
  rfl

/-! ## Launch processors (R411) -/

theorem procAccess_elsewhere {s : State} {h pa size : Nat} (ha : 2 ≤ h ∨ inCtl pa = false) (k : Option (List Region → State)) :
    procAccess s h pa size k = s :=
  if_pos (by simpa using ha)

theorem procAccess_refused {s : State} {h pa size : Nat} (h2 : h < 2) (hc : inCtl pa = true) {k : Option (List Region → State)}
    (hk : ctlWords .launch (pa - Config.ctlBase) size = none ∨ k = none) : procAccess s h pa size k = procFault s h := by
  unfold procAccess
  rw [if_neg (by simp [hc]; omega)]
  rcases hk with hk | rfl
  · rw [hk]
  · cases ctlWords .launch (pa - Config.ctlBase) size <;> rfl

theorem procAccess_takes {s : State} {h pa size : Nat} (h2 : h < 2) (hc : inCtl pa = true) {rs : List Region}
    (hr : ctlWords .launch (pa - Config.ctlBase) size = some rs) (f : List Region → State) :
    procAccess s h pa size (some f) = f rs := by
  unfold procAccess
  rw [if_neg (by simp [hc]; omega), hr]

section Accesses
variable {s : State} {h pa size : Nat} {m : HartMode} {op : AmoOp} {d : DWord} {i : Instr}

/-- The loads, stores and AMOs of a hart. -/
def hartAccesses (h : Nat) (m : HartMode) (op : AmoOp) (pa size : Nat) (d : DWord) : List Instr :=
  [.hartLoad h m pa size, .hartStore h m pa size d, .hartAmo h m op pa size d]

theorem mem_hartAccesses : i ∈ hartAccesses h m op pa size d ↔
    i = .hartLoad h m pa size ∨ i = .hartStore h m pa size d ∨ i = .hartAmo h m op pa size d := by
  simp [hartAccesses]

theorem exec_procAccess_elsewhere (hm : m = .launch) (ha : 2 ≤ h ∨ inCtl pa = false) (hi : i ∈ hartAccesses h m op pa size d) :
    exec i s = .next s := by
  obtain rfl | rfl | rfl := mem_hartAccesses.mp hi
  all_goals exact (if_pos hm).trans (congrArg Host.Outcome.next (procAccess_elsewhere ha _))

/-- R411: an access of a launch processor that no listed register takes raises PROT; it has no AMOs. -/
theorem exec_procAccess_refused (hm : m = .launch) (h2 : h < 2) (hc : inCtl pa = true) (hi : i ∈ hartAccesses h m op pa size d)
    (hr : ctlWords .launch (pa - Config.ctlBase) size = none ∨ i = .hartAmo h m op pa size d) : exec i s = .next (procFault s h) := by
  obtain rfl | rfl | rfl := mem_hartAccesses.mp hi
  case inr.inr => exact (if_pos hm).trans (congrArg Host.Outcome.next (procAccess_refused h2 hc (.inr rfl)))
  all_goals
    have hw := hr.resolve_right (by simp)
    exact (if_pos hm).trans (congrArg Host.Outcome.next (procAccess_refused h2 hc (.inl hw)))

theorem exec_hartLoad_proc (hm : m = .launch) (h2 : h < 2) (hc : inCtl pa = true) {rs : List Region}
    (hr : ctlWords .launch (pa - Config.ctlBase) size = some rs) :
    exec (.hartLoad h m pa size) s = .next (procDone s h (some (ctlRead s rs))) :=
  (if_pos hm).trans (congrArg Host.Outcome.next (procAccess_takes h2 hc hr _))

theorem exec_hartStore_proc (hm : m = .launch) (h2 : h < 2) (hc : inCtl pa = true) {rs : List Region}
    (hr : ctlWords .launch (pa - Config.ctlBase) size = some rs) :
    exec (.hartStore h m pa size d) s = .next (procDone (ctlWrite s d rs) h none) :=
  (if_pos hm).trans (congrArg Host.Outcome.next (procAccess_takes h2 hc hr _))

/-! ## Harts: waits, refusals and the control space (R164, R411) -/

/-- No hart of the device makes the access now: there is none of that number, a launch processor makes it, or it waits for a held write. -/
def HartBusy (s : State) (h : Nat) (m : HartMode) (i : Instr) : Prop := 16 ≤ h ∨ m = .launch ∨ hartWaits s h i = true

/-- A hart that does not wait passes the first two checks of its access. -/
theorem ite_not_hartBusy (hb : ¬HartBusy s h m i) (a b c : Out) :
    (if m = .launch then a else if (decide (16 ≤ h) || hartWaits s h i) = true then b else c) = c := by
  have hw : ¬(16 ≤ h ∨ hartWaits s h i = true) := fun k => hb (k.imp_right .inr)
  rw [if_neg (fun k => hb (.inr (.inl k))), if_neg (by simpa using hw)]

theorem exec_hartAccess_waits (hm : m ≠ .launch) (hw : 16 ≤ h ∨ hartWaits s h i = true) (hi : i ∈ hartAccesses h m op pa size d) :
    exec i s = .next s := by
  have hc : (decide (16 ≤ h) || hartWaits s h i) = true := by simpa using hw
  obtain rfl | rfl | rfl := mem_hartAccesses.mp hi
  all_goals exact (if_neg hm).trans (if_pos hc)

theorem hartSize_iff : hartSize size = true ↔ size ∈ [1, 2, 4, 8] := List.contains_iff_mem

theorem exec_hartAccess_size (hb : ¬HartBusy s h m i) (hc : inCtl pa = false) (hs : size ∉ [1, 2, 4, 8])
    (hi : i ∈ hartAccesses h m op pa size d) : exec i s = .next s := by
  have hc : ¬inCtl pa = true := by simp [hc]
  have hs : (!hartSize size) = true := by simpa using mt hartSize_iff.mp hs
  obtain rfl | rfl | rfl := mem_hartAccesses.mp hi
  all_goals exact (ite_not_hartBusy hb _ _ _).trans ((if_neg hc).trans (if_pos hs))

/-- R164: a misaligned access, or one outside HBM, raises the hart's own exception. -/
theorem exec_hartAccess_traps (hb : ¬HartBusy s h m i) (hc : inCtl pa = false) (hs : size ∈ [1, 2, 4, 8])
    (ha : pa % size ≠ 0 ∨ inHbm pa size = false) (hi : i ∈ hartAccesses h m op pa size d) :
    exec i s = .next (hartTrap s h pa size (i ≠ .hartLoad h m pa size)) := by
  have hc : ¬inCtl pa = true := by simp [hc]
  have hs : ¬(!hartSize size) = true := by simpa using hartSize_iff.mpr hs
  have ha : (pa % size != 0 || !inHbm pa size) = true := by simpa using ha
  obtain rfl | rfl | rfl := mem_hartAccesses.mp hi
  all_goals
    simp only [ne_eq, not_true_eq_false, reduceCtorEq, not_false_eq_true, decide_true, decide_false]
    exact (ite_not_hartBusy hb _ _ _).trans ((if_neg hc).trans ((if_neg hs).trans (if_pos ha)))

theorem getHart_hartTrap (hh : h < s.ctl.harts.length) (st : Bool) :
    getHart (hartTrap s h pa size st) h
      = { getHart s h with faulted := true, tval := BitVec.ofNat 64 pa,
                           excep := some (if pa % size != 0 then (if st then .storeAlign else .loadAlign)
                             else if st then .storeFault else .loadFault) } :=
  getHart_setHart hh _

theorem exec_hartLoad_ctl (hb : ¬HartBusy s h m (.hartLoad h m pa size)) (hc : inCtl pa = true) {rs : List Region}
    (hr : ctlWords m (pa - Config.ctlBase) size = some rs) :
    exec (.hartLoad h m pa size) s = .next (hartDone s h (some (ctlRead s rs))) := by
  refine (ite_not_hartBusy hb _ _ _).trans ((if_pos hc).trans ?_)
  rw [hr]

theorem exec_hartLoad_ctl_faults (hb : ¬HartBusy s h m (.hartLoad h m pa size)) (hc : inCtl pa = true)
    (hr : ctlWords m (pa - Config.ctlBase) size = none) :
    exec (.hartLoad h m pa size) s = .next (hartFault s h 0x09 pa false) := by
  refine (ite_not_hartBusy hb _ _ _).trans ((if_pos hc).trans ?_)
  rw [hr]
  rfl

theorem exec_hartStore_ctl (hb : ¬HartBusy s h m (.hartStore h m pa size d)) (hc : inCtl pa = true) {rs : List Region}
    (hr : ctlWords m (pa - Config.ctlBase) size = some rs) :
    exec (.hartStore h m pa size d) s = .next (hartDone (ctlWrite s d rs) h none) := by
  refine (ite_not_hartBusy hb _ _ _).trans ((if_pos hc).trans ?_)
  rw [hr]

theorem exec_hartStore_ctl_faults (hb : ¬HartBusy s h m (.hartStore h m pa size d)) (hc : inCtl pa = true)
    (hr : ctlWords m (pa - Config.ctlBase) size = none) :
    exec (.hartStore h m pa size d) s = .next (hartFault s h 0x09 pa true) := by
  refine (ite_not_hartBusy hb _ _ _).trans ((if_pos hc).trans ?_)
  rw [hr]
  rfl

theorem exec_hartAmo_ctl (hb : ¬HartBusy s h m (.hartAmo h m op pa size d)) (hc : inCtl pa = true) :
    exec (.hartAmo h m op pa size d) s = .next (hartFault s h 0x09 pa true) :=
  (ite_not_hartBusy hb _ _ _).trans (if_pos hc)

/-! ## Harts: HBM (R164, R219, R359, R361) -/

/-- An aligned access of a hart's size whose bytes lie in HBM. -/
structure HartAligned (pa size : Nat) : Prop where
  outside : inCtl pa = false
  sizes : size ∈ [1, 2, 4, 8]
  aligned : pa % size = 0
  inside : inHbm pa size = true

/-- An aligned access to HBM passes the three checks before that of its key. -/
theorem ite_hartAligned (ha : HartAligned pa size) (a b c e : Out) :
    (if inCtl pa = true then a else if (!hartSize size) = true then b
      else if (pa % size != 0 || !inHbm pa size) = true then c else e) = e := by
  obtain ⟨hc, hs, hp, hi⟩ := ha
  rw [if_neg (by simp [hc]), if_neg (by simp [hartSize_iff.mpr hs]), if_neg (by simp [hp, hi])]

theorem exec_hartLoad_faults (hb : ¬HartBusy s h m (.hartLoad h m pa size)) (ha : HartAligned pa size) {c : Nat}
    (hk : hartCheck s h (hartPlace s pa).1 size (hartPlace s pa).2 false = .error c) :
    exec (.hartLoad h m pa size) s = .next (hartFault s h c pa false) := by
  refine (ite_not_hartBusy hb _ _ _).trans ((ite_hartAligned ha _ _ _ _).trans ?_)
  dsimp only
  rw [hk]

theorem exec_hartWrite_faults (hb : ¬HartBusy s h m i) (ha : HartAligned pa size) {c : Nat}
    (hi : i ∈ [.hartStore h m pa size d, .hartAmo h m op pa size d])
    (hk : hartCheck s h (hartPlace s pa).1 size (hartPlace s pa).2 true = .error c) :
    exec i s = .next (hartFault (endForeign s i) h c pa true) := by
  simp only [List.mem_cons, List.not_mem_nil, or_false] at hi
  obtain rfl | rfl := hi
  all_goals
    refine (ite_not_hartBusy hb _ _ _).trans ((ite_hartAligned ha _ _ _ _).trans ?_)
    dsimp only
    rw [hk]

/-- A check that passes names the generation of the key in the hart's key register (R219). -/
theorem genOf_of_hartCheck {n g : Nat} {mir st : Bool} (hk : hartCheck s h pa n mir st = .ok g) :
    genOf s ((getHart s h).keyReg.toNat % 4096) = some g := by
  unfold hartCheck at hk
  generalize (if st = true then replicas pa mir else [replica pa mir (h / 8)]) = places at hk
  dsimp only at hk
  split at hk
  · cases hk
  · split at hk
    · cases hk
    next g' hg =>
      split at hk
      · cases hk
      · split at hk
        · cases hk
        · cases hk
          exact hg

theorem llcHart_same (m : MemSys) (h sec : Nat) (write : Bool) : SameBytes m (llcHart m h sec write) := by
  unfold llcHart
  split
  · exact .refl m
  · exact llcPut_same _ _

/-- R357, R359: memory after a hart's load at `p`, and the copy that the hart keeps. -/
def hartLoadMem (y : MemSys) (h g p : Nat) : MemSys := llcHart (llcRead y (hartDie h) (sectorOf p) g) h (sectorOf p) false

theorem hartLoadMem_same (y : MemSys) (h g p : Nat) : SameBytes y (hartLoadMem y h g p) :=
  (llcRead_same y _ _ _).trans (llcHart_same _ _ _ _)

/-- A load of a hart that passes its checks: its value is what its die reads under its key. -/
theorem exec_hartLoad (hb : ¬HartBusy s h m (.hartLoad h m pa size)) (ha : HartAligned pa size) {g : Nat}
    (hk : hartCheck s h (hartPlace s pa).1 size (hartPlace s pa).2 false = .ok g) :
    let p := replica (hartPlace s pa).1 (hartPlace s pa).2 (hartDie h)
    exec (.hartLoad h m pa size) s
      = .next (hartDone { s with mem := hartLoadMem s.mem h g p } h (some (BitVec.ofNat 64 (natOfBytes (physRead s.mem g p size))))) := by
  intro p
  refine (ite_not_hartBusy hb _ _ _).trans ((ite_hartAligned ha _ _ _ _).trans ?_)
  dsimp only
  rw [hk]
  rfl

/-- The value that a hart's write returns, and the bytes that it leaves. -/
def hartNew (i : Instr) (size : Nat) (d : DWord) (old : Nat) : List Byte × Option DWord :=
  match i with
  | .hartAmo _ _ op _ _ _ => (bytesOfNat size (amoNew op size old (d.toNat % 2 ^ (8 * size))), some (dwOf old))
  | _ => (bytesOfNat size d.toNat, none)

/-- The instruction is a hart's AMO, which reads before it writes. -/
def isHartAmo : Instr → Bool
  | .hartAmo _ _ _ _ _ _ => true
  | _ => false

theorem exec_hartWrite (hb : ¬HartBusy s h m i) (ha : HartAligned pa size) {g : Nat}
    (hi : i ∈ [.hartStore h m pa size d, .hartAmo h m op pa size d])
    (hk : hartCheck s h (hartPlace s pa).1 size (hartPlace s pa).2 true = .ok g) :
    exec i s = .next (hartWrite s h g pa size (hartPlace s pa) (isHartAmo i) i (hartNew i size d)) := by
  simp only [List.mem_cons, List.not_mem_nil, or_false] at hi
  obtain rfl | rfl := hi
  all_goals
    refine (ite_not_hartBusy hb _ _ _).trans ((ite_hartAligned ha _ _ _ _).trans ?_)
    dsimp only
    rw [hk]
    rfl

end Accesses

/-! ## A hart's write at its home -/

theorem badHit_endForeign (s : State) (i : Instr) (pa n : Nat) (w : Bool) :
    badHit (endForeign s i).mem pa n w = badHit s.mem pa n w := rfl

theorem physRead_endForeign (s : State) (i : Instr) (g pa n : Nat) :
    physRead (endForeign s i).mem g pa n = physRead s.mem g pa n := by
  induction n generalizing pa with
  | zero => rfl
  | succ n ih => exact congrArg₂ List.cons rfl (ih (pa + 1))

theorem probe_ctl (s : State) (w : Option Tid) (loc : Loc) (n : Nat) : (probe s w loc n).ctl = s.ctl := by
  unfold probe remoteProbe
  split <;> rfl

/-- R361: a write of one replica, at its home die for a mirror page, with its probe. -/
def storeReplica (mir : Bool) (die g n : Nat) (bytes : List Byte) (s : State) (q : Nat) : State :=
  probe { s with mem := physStore s.mem (if mir then homeDie q else die) g q bytes } none (.hbm q false) n

/-- The same write, of memory alone. -/
def storeReplicaMem (mir : Bool) (die g : Nat) (bytes : List Byte) (y : MemSys) (q : Nat) : MemSys :=
  physStore y (if mir then homeDie q else die) g q bytes

theorem foldl_storeReplica_mem (mir : Bool) (die g n : Nat) (bytes : List Byte) (qs : List Nat) (s : State) :
    (qs.foldl (storeReplica mir die g n bytes) s).mem = qs.foldl (storeReplicaMem mir die g bytes) s.mem := by
  induction qs generalizing s with
  | nil => rfl
  | cons q qs ih =>
    rw [List.foldl_cons, List.foldl_cons, ih, storeReplica, probe_mem]
    rfl

theorem foldl_storeReplica_ctl (mir : Bool) (die g n : Nat) (bytes : List Byte) (qs : List Nat) (s : State) :
    (qs.foldl (storeReplica mir die g n bytes) s).ctl = s.ctl := by
  induction qs generalizing s with
  | nil => rfl
  | cons q qs ih => rw [List.foldl_cons, ih, storeReplica, probe_ctl]

section Writes
variable {s : State} {h g pa n : Nat} {w : Nat × Bool} {rmw : Bool} {i : Instr} {f : Nat → List Byte × Option DWord}

/-- The write meets an uncorrectable error, in a word that it keeps in part or that it reads. -/
def HartSpoiled (s : State) (h n : Nat) (w : Nat × Bool) (rmw : Bool) : Prop :=
  (replicas w.1 w.2).any (fun q => badHit s.mem q n true) = true
    ∨ (rmw = true ∧ badHit s.mem (replica w.1 w.2 (hartDie h)) n false = true)

theorem hartWrite_held {t : State} (hh : holdForeign s none w.1 n w.2 i = some t) : hartWrite s h g pa n w rmw i f = t := by
  simp only [hartWrite, hh]

theorem hartWrite_spoiled (hh : holdForeign s none w.1 n w.2 i = none) (hb : HartSpoiled s h n w rmw) :
    hartWrite s h g pa n w rmw i f = hartFault (endForeign s i) h 0x12 pa true := by
  simp only [hartWrite, hh]
  exact if_pos (by simpa only [Bool.or_eq_true, Bool.and_eq_true, badHit_endForeign, HartSpoiled] using hb)

/-- A write that is not held and meets no error performs at every replica. -/
theorem hartWrite_performs (hh : holdForeign s none w.1 n w.2 i = none) (hb : ¬HartSpoiled s h n w rmw) :
    let r := f (natOfBytes (physRead s.mem g (replica w.1 w.2 (hartDie h)) n))
    let s1 := (replicas w.1 w.2).foldl (storeReplica w.2 (hartDie h) g n r.1) (endForeign s i)
    hartWrite s h g pa n w rmw i f
      = hartDone { s1 with mem := llcHart s1.mem h (sectorOf (replica w.1 w.2 (hartDie h))) true } h r.2 := by
  simp only [hartWrite, hh]
  refine (if_neg (by simpa only [Bool.or_eq_true, Bool.and_eq_true, badHit_endForeign, HartSpoiled] using hb)).trans ?_
  rw [physRead_endForeign]
  rfl

/-- What such a write leaves in HBM, and in its hart's record. -/
theorem hartWrite_performed (hh : holdForeign s none w.1 n w.2 i = none) (hb : ¬HartSpoiled s h n w rmw) :
    let r := f (natOfBytes (physRead s.mem g (replica w.1 w.2 (hartDie h)) n))
    let t := hartWrite s h g pa n w rmw i f
    t.mem.hbm = ((replicas w.1 w.2).foldl (storeReplicaMem w.2 (hartDie h) g r.1) (endForeign s i).mem).hbm
      ∧ (h < s.ctl.harts.length → (getHart t h).faulted = false ∧ (getHart t h).value = r.2.getD (getHart s h).value) := by
  intro r t
  have ht : t = _ := hartWrite_performs hh hb
  have hc := foldl_storeReplica_ctl w.2 (hartDie h) g n r.1 (replicas w.1 w.2) (endForeign s i)
  refine ⟨?_, fun hl => ?_⟩
  · rw [ht, ← foldl_storeReplica_mem (n := n)]
    exact (llcHart_same _ h _ true).hbm
  · have hd : getHart t h = _ := (congrArg (getHart · h) ht).trans (getHart_hartDone hc hl r.2)
    exact ⟨congrArg Hart.faulted hd, congrArg Hart.value hd⟩

end Writes

end Sys2Proof.Machine
end

