-- ==== Sys2Proof/Proofs/ControlEvents.lean ====
section
/-! What the events of the control space and the host complex come to (R29, R164, R219, R344, R347, R361, R379, R411, R414, R417 to R420, R422). -/

namespace Sys2Proof.Machine

/-! ## Launch processors (R411) -/

theorem procAccess_raises {s : State} {h pa size : Nat} {m : HartMode} {op : AmoOp} {d : DWord} {i : Instr} (hm : m = .launch) (h2 : h < 2)
    (hc : inCtl pa = true) (hl : h < s.ctl.procs.length) (hi : i ∈ hartAccesses h m op pa size d)
    (hr : ctlWords .launch (pa - Config.ctlBase) size = none ∨ i = .hartAmo h m op pa size d) :
    ∃ t, exec i s = .next t ∧ Quiet s t ∧ getProc t h = ⟨(getProc s h).value, true⟩ :=
  ⟨_, exec_procAccess_refused hm h2 hc hi hr, ⟨rfl, rfl, rfl, rfl⟩, getProc_setProc hl _⟩

theorem procAccess_loads {s : State} {h pa size : Nat} {m : HartMode} (hm : m = .launch) (h2 : h < 2)
    (hc : inCtl pa = true) (hl : h < s.ctl.procs.length) {rs : List Region}
    (hr : ctlWords .launch (pa - Config.ctlBase) size = some rs) :
    ∃ t, exec (.hartLoad h m pa size) s = .next t ∧ Quiet s t ∧ getProc t h = ⟨ctlRead s rs, false⟩ :=
  ⟨_, exec_hartLoad_proc hm h2 hc hr, ⟨rfl, rfl, rfl, rfl⟩, getProc_setProc hl _⟩

/-! ## Harts (R164, R219, R359, R361) -/

section Harts
variable {s : State} {h pa size g : Nat} {m : HartMode} {op : AmoOp} {d : DWord} {i : Instr}

theorem hartAccess_raises (hb : ¬HartBusy s h m i) (hc : inCtl pa = false) (hs : size ∈ [1, 2, 4, 8])
    (ha : pa % size ≠ 0 ∨ inHbm pa size = false) (hi : i ∈ hartAccesses h m op pa size d) :
    ∃ t, exec i s = .next t ∧ Quiet s t ∧ (h < s.ctl.harts.length →
      (getHart t h).faulted = true ∧ (getHart t h).tval = BitVec.ofNat 64 pa ∧ (getHart t h).fault = (getHart s h).fault
        ∧ (getHart t h).excep = some (if pa % size ≠ 0 then (if i = .hartLoad h m pa size then .loadAlign else .storeAlign)
            else if i = .hartLoad h m pa size then .loadFault else .storeFault)) := by
  refine ⟨_, exec_hartAccess_traps hb hc hs ha hi, ⟨rfl, rfl, rfl, rfl⟩, fun hl => ?_⟩
  rw [getHart_hartTrap hl]
  refine ⟨rfl, rfl, rfl, ?_⟩
  by_cases hd : i = .hartLoad h m pa size
  · simp [hd]
  · simp [hd]

theorem hartLoad_reads (hb : ¬HartBusy s h m (.hartLoad h m pa size)) (ha : HartAligned pa size)
    (hk : hartCheck s h (hartPlace s pa).1 size (hartPlace s pa).2 false = .ok g) :
    ∃ t, exec (.hartLoad h m pa size) s = .next t ∧ SameMemory s t ∧ t.th = s.th
      ∧ (h < s.ctl.harts.length →
        (getHart t h).value = BitVec.ofNat 64 (natOfBytes (physRead s.mem ((genOf s ((getHart s h).keyReg.toNat % 4096)).getD 0)
            (replica (hartPlace s pa).1 (hartPlace s pa).2 (hartDie h)) size))
          ∧ (getHart t h).faulted = false)
      ∧ ∀ k, k ≠ h → getHart t k = getHart s k := by
  rw [genOf_of_hartCheck hk, Option.getD_some]
  refine ⟨_, exec_hartLoad hb ha hk, .of_eq (hartLoadMem_same _ _ _ _).hbm rfl, rfl, fun hl => ?_,
    fun k hne => getHart_setHart_other _ hne _⟩
  have hd := getHart_hartDone (s := s)
    (y := { s with mem := hartLoadMem s.mem h g (replica (hartPlace s pa).1 (hartPlace s pa).2 (hartDie h)) }) rfl hl
  exact ⟨congrArg Hart.value (hd _), congrArg Hart.faulted (hd _)⟩

theorem isHartAmo_iff (hi : i ∈ [.hartStore h m pa size d, .hartAmo h m op pa size d]) :
    isHartAmo i = true ↔ i = .hartAmo h m op pa size d := by
  simp only [List.mem_cons, List.not_mem_nil, or_false] at hi
  obtain rfl | rfl := hi
  · simp [isHartAmo]
  · simp [isHartAmo]

theorem hartNew_bytes (hi : i ∈ [.hartStore h m pa size d, .hartAmo h m op pa size d]) (old : Nat) :
    (hartNew i size d old).1 = if i = .hartStore h m pa size d then bytesOfNat size d.toNat
      else bytesOfNat size (amoNew op size old (d.toNat % 2 ^ (8 * size))) := by
  simp only [List.mem_cons, List.not_mem_nil, or_false] at hi
  obtain rfl | rfl := hi
  · rw [if_pos rfl, hartNew]
    simp
  · rw [if_neg (by simp), hartNew]

theorem hartNew_value (hi : i ∈ [.hartStore h m pa size d, .hartAmo h m op pa size d]) (old : Nat) (v : DWord) :
    (hartNew i size d old).2.getD v = if i = .hartAmo h m op pa size d then BitVec.ofNat 64 old else v := by
  simp only [List.mem_cons, List.not_mem_nil, or_false] at hi
  obtain rfl | rfl := hi
  · rw [if_neg (by simp)]
    rfl
  · rw [if_pos rfl]
    rfl

/-- A store or AMO that is not held and meets no error: its bytes stand at every replica, and its hart has its value. -/
theorem hartWrite_stores (hb : ¬HartBusy s h m i) (ha : HartAligned pa size)
    (hi : i ∈ [.hartStore h m pa size d, .hartAmo h m op pa size d])
    (hk : hartCheck s h (hartPlace s pa).1 size (hartPlace s pa).2 true = .ok g)
    (hh : holdForeign s none (hartPlace s pa).1 size (hartPlace s pa).2 i = none)
    (hs : ¬HartSpoiled s h size (hartPlace s pa) (isHartAmo i)) :
    let w := hartPlace s pa
    let old := natOfBytes (physRead s.mem ((genOf s ((getHart s h).keyReg.toNat % 4096)).getD 0) (replica w.1 w.2 (hartDie h)) size)
    let bytes := if i = .hartStore h m pa size d then bytesOfNat size d.toNat
      else bytesOfNat size (amoNew op size old (d.toNat % 2 ^ (8 * size)))
    ∃ t, exec i s = .next t
      ∧ (∀ a, t.hbmByte a = Mem.get ((replicas w.1 w.2).foldl (storeReplicaMem w.2 (hartDie h) g bytes) (endForeign s i).mem).hbm a)
      ∧ (h < s.ctl.harts.length → (getHart t h).faulted = false
        ∧ (getHart t h).value = if i = .hartAmo h m op pa size d then BitVec.ofNat 64 old else (getHart s h).value) := by
  intro w old bytes
  have hold : old = natOfBytes (physRead s.mem g (replica w.1 w.2 (hartDie h)) size) := by
    simp only [old, genOf_of_hartCheck hk, Option.getD_some]
  obtain ⟨hm, hv⟩ := hartWrite_performed (g := g) (pa := pa) (f := hartNew i size d) hh hs
  rw [← hold, hartNew_bytes hi] at hm
  rw [← hold, hartNew_value hi] at hv
  exact ⟨_, exec_hartWrite hb ha hi hk, fun a => congrArg (Mem.get · a) hm, hv⟩

end Harts

/-- Settles O58: each event has its rule above, and the statement is their conjunction. -/
theorem controlEvents : Obligations.ControlEvents := by
  unfold Obligations.ControlEvents
  intro s v u n h off size pa core m d op mw t0 t1 nonce quiet
  refine ⟨exec_rtoctlWrite s v, exec_prismbufWrite s v, exec_prismbufApply s, exec_pcapWrite s v, ?loupe,
    exec_controlRegisterWrite_none, ?registers, ?faults, ?harts, exec_coreClockCycle_none, exec_coreClockCycle, ?errors,
    exec_scrub s pa, exec_telemetrySample s mw t0 t1, exec_thermalTrip_idle, exec_thermalTrip_trips,
    exec_attestationRequest s nonce, exec_powerGood_up, ?bringUp⟩
  case loupe =>
    intro x hx
    refine ⟨exec_loupeClear hx, takes_iff s x n, exec_loupeSample_skips hx, fun ht => ?_⟩
    obtain ⟨t, he, hq, hu, ho⟩ := exec_loupeSample_takes hx ht
    refine ⟨t, x.sample n, he, hq, hu, rfl, ho, fun hn => ⟨x.sample_min hn, x.sample_max hn⟩, rfl, fun b hb => ?_⟩
    simp only [Loupe.sample_bins x n b hb, loupeBin_eq_iff]
  case registers =>
    exact fun hm hh => ⟨fun _ hr => exec_controlRegisterWrite hm hh hr, exec_controlRegisterWrite_faults hm hh⟩
  case faults =>
    intro code st hl x y
    have hy : y = _ := getHart_hartFault hl code pa st
    rw [hy]
    exact ⟨rfl, rfl, rfl, rfl, rfl, rfl⟩
  case errors =>
    exact ⟨exec_softError_hbm_none, exec_softError_hbm, exec_softError_llc, fun a h l => exec_softError_single h l s pa,
      exec_softError_deque s core pa, fun x => exec_softError_tile⟩
  case bringUp =>
    intro hup k next
    refine ⟨fun hk => ⟨bringUp_measured hup hk, fun i hi => ?_⟩, bringUp_plain hup, bringUp_key hup, fun st => bringUp_ports hup,
      bringUp_opens hup⟩
    exact ⟨fun hg => bringUp_image hup hk hi ((accepted_iff i).mpr hg),
      fun hg => bringUp_refused hup hk hi (Bool.eq_false_iff.mpr (mt (accepted_iff i).mp hg))⟩
  case harts =>
    intro ld st am w rp old new meets goes waits
    refine ⟨fun i hi hm hw => exec_hartAccess_waits hm hw hi, fun hm ha i hi => exec_procAccess_elsewhere hm ha hi, ?_, ?_, ?_, ?_⟩
    · intro hm h2 hc hl words
      exact ⟨fun i hi hr => procAccess_raises hm h2 hc hl hi hr,
        fun rs hr => ⟨procAccess_loads hm h2 hc hl hr, exec_hartStore_proc hm h2 hc hr⟩⟩
    · intro i hi hb
      exact ⟨fun hc hs => exec_hartAccess_size hb hc hs hi, fun hc hs ha => hartAccess_raises hb hc hs ha hi⟩
    · intro hc
      exact ⟨fun hb => ⟨exec_hartLoad_ctl_faults hb hc, fun rs => exec_hartLoad_ctl hb hc⟩,
        fun hb => ⟨exec_hartStore_ctl_faults hb hc, fun rs => exec_hartStore_ctl hb hc⟩, fun hb => exec_hartAmo_ctl hb hc⟩
    · intro hc hs hp hin
      have ha : HartAligned pa size := ⟨hc, hs, hp, hin⟩
      refine ⟨fun code => ⟨fun hb => exec_hartLoad_faults hb ha, fun i hi hb => exec_hartWrite_faults hb ha hi⟩,
        fun g hb hk => hartLoad_reads hb ha hk, fun g i hi hb hk => ?_⟩
      have he := exec_hartWrite hb ha hi hk
      refine ⟨fun t1 hh => he.trans (congrArg _ (hartWrite_held hh)), fun hh => ?_⟩
      have hbad : HartSpoiled s h size w (isHartAmo i) ↔ _ := or_congr Iff.rfl (and_congr (isHartAmo_iff hi) Iff.rfl)
      exact ⟨fun hb' => he.trans (congrArg _ (hartWrite_spoiled hh (hbad.mpr hb'))),
        fun hb' => hartWrite_stores hb ha hi hk hh (mt hbad.mp hb')⟩

end Sys2Proof.Machine
end

