-- ==== Sys2Proof/Proofs/BinaryCodes.lean ====
section
/-! The codes of a binary format (R39): a sign bit above a magnitude, what each decodes to, and what the other sign bit makes of it. -/

namespace Sys2Proof.Machine

/-- The sign bit of a code of `f`, where it is set. -/
def signPart (f : NumFmt) (s : Bool) : Nat := if s then f.signBit else 0

/-- What a code of a binary format with sign `s` and magnitude `mag` stands for (R39, R40). -/
def magNum (f : NumFmt) (s : Bool) (mag : Nat) : Num :=
  if f.hasInf && mag > f.maxCode then
    if mag % 2 ^ f.fbits = 0 then .inf s else .nan (f != .e5m2 && mag % 2 ^ f.fbits < 2 ^ (f.fbits - 1))
  else if mag > f.maxCode then .nan false
  else if mag / 2 ^ f.fbits = 0 then .fin s (mag % 2 ^ f.fbits) (1 - (f.bias : Int) - f.fbits)
  else .fin s (2 ^ f.fbits + mag % 2 ^ f.fbits) ((mag / 2 ^ f.fbits : Nat) - (f.bias : Int) - f.fbits)

theorem two_pow_bits (f : NumFmt) : 2 ^ f.bits = f.signBit + f.signBit := by cases f <;> rfl

theorem maxCode_lt_signBit (f : NumFmt) : f.maxCode < f.signBit := by cases f <;> decide

/-- A code is a sign and a magnitude. -/
theorem exists_signPart_add (f : NumFmt) {a : Nat} (ha : a < 2 ^ f.bits) :
    ∃ s mag, mag < f.signBit ∧ a = signPart f s + mag := by
  have h2 := two_pow_bits f
  by_cases h : f.signBit ≤ a
  · exact ⟨true, a - f.signBit, by omega, by simp [signPart]; omega⟩
  · exact ⟨false, a, by omega, by simp [signPart]⟩

theorem signPart_add_lt (f : NumFmt) (s : Bool) {mag : Nat} (hm : mag < f.signBit) : signPart f s + mag < 2 ^ f.bits := by
  have h2 := two_pow_bits f
  cases s <;> simp [signPart] <;> omega

theorem signBit_le_iff (f : NumFmt) (s : Bool) {mag : Nat} (hm : mag < f.signBit) : f.signBit ≤ signPart f s + mag ↔ s = true := by
  cases s <;> simp [signPart, hm]

/-- R39: the value of a code of a binary format. -/
theorem numOf_signPart_add {f : NumFmt} (hf : f.tapered = false) (s : Bool) {mag : Nat} (hm : mag < f.signBit) :
    numOf f (signPart f s + mag) = magNum f s mag := by
  have hc : (signPart f s + mag) % 2 ^ f.bits = signPart f s + mag := Nat.mod_eq_of_lt (signPart_add_lt f s hm)
  have hs : decide (f.signBit ≤ signPart f s + mag) = s := by
    rw [Bool.eq_iff_iff, decide_eq_true_iff, signBit_le_iff f s hm]
  have hmag : (signPart f s + mag) % f.signBit = mag := by
    cases s <;> simp [signPart, Nat.mod_eq_of_lt hm]
  simp only [numOf, magNum, hc, hs, hmag, hf, Bool.false_eq_true, if_false]

theorem negNum_magNum (f : NumFmt) (s : Bool) (mag : Nat) : negNum (magNum f s mag) = magNum f (!s) mag := by
  unfold magNum
  split_ifs <;> rfl

theorem negBits_signPart_add (f : NumFmt) (s : Bool) {mag : Nat} (hm : mag < f.signBit) :
    negBits f (signPart f s + mag) = signPart f (!s) + mag := by
  have hc : (signPart f s + mag) % 2 ^ f.bits = signPart f s + mag := Nat.mod_eq_of_lt (signPart_add_lt f s hm)
  unfold negBits
  simp only [hc, ge_iff_le, signBit_le_iff f s hm]
  cases s <;> simp [signPart, Nat.add_comm]

/-- R115: the code with the other sign bit stands for the negated value. -/
theorem numOf_negBits {f : NumFmt} (hf : f.tapered = false) {a : Nat} (ha : a < 2 ^ f.bits) :
    numOf f (negBits f a) = negNum (numOf f a) := by
  obtain ⟨s, mag, hm, rfl⟩ := exists_signPart_add f ha
  rw [negBits_signPart_add f s hm, numOf_signPart_add hf _ hm, numOf_signPart_add hf _ hm, negNum_magNum]

theorem sig_negNum (x : Num) : (negNum x).sig = x.sig := by
  cases x with
  | nan q => cases q <;> rfl
  | inf s => rfl
  | fin s m e => rfl

end Sys2Proof.Machine
end

