-- ==== Sys2Proof/Proofs/FloatIssue.lean ====
section
/-! What a float, conversion or packing instruction leaves in its thread (R41, R46, R113 to R124): its result and its flags. -/

namespace Sys2Proof.Machine

@[simp] theorem Ctx.orFlags_fpst (c : Ctx) (w : Word) : (c.orFlags w).fpst = c.fpst ||| w := rfl

@[simp] theorem Ctx.setRegs_fpst (c : Ctx) (r : Reg) (l : List Word) : (c.setRegs r l).fpst = c.fpst := by
  induction l generalizing c r with
  | nil => rfl
  | cons v vs ih => rw [Ctx.setRegs, ih, Ctx.setReg_fpst]

@[simp] theorem Ctx.setRegs_dphase (c : Ctx) (r : Reg) (l : List Word) : (c.setRegs r l).dphase = c.dphase := by
  induction l generalizing c r with
  | nil => rfl
  | cons v vs ih => rw [Ctx.setRegs, ih, Ctx.setReg_dphase]

/-- A register operation under a true guard, with what it makes of the thread's context. -/
theorem regOp_after {s : State} {p : Pred} {f g : Ctx → Ctx} (hp : s.th.ctx.pred p = true) (h : f s.th.ctx = g s.th.ctx) :
    regOp s p f = .next (s.after g) := by
  rw [regOp_true s p f hp, State.after, modCtx, modCtx, h]

/-- R113: one result word and its flags. -/
theorem regOp_setF {s : State} {p : Pred} {d : Reg} {r : Ctx → Nat × Word} {q : Nat × Word} (hp : s.th.ctx.pred p = true)
    (h : r s.th.ctx = q) : regOp s p (fun c => c.setF d (r c)) = .next (s.afterF d q) := by
  refine regOp_after hp ?_
  simp only [h, Ctx.setF, Ctx.orFlags, Ctx.setReg_fpst]
  rfl

/-- A result with the flags of the signalling operands beside its own (R40). -/
def withSig (r : Nat × Word) (g : Word) : Nat × Word := (r.1, r.2 ||| g)

/-- R115. -/
theorem faddBits_eq (f : NumFmt) (md : Rm) (a b : Nat) :
    faddBits f md a b
      = withSig (finish f md (addNum md.isDn (numOf f a) (numOf f b))) ((numOf f a).sig ||| (numOf f b).sig) := by
  simp only [faddBits, withSig, BitVec.or_assoc]

/-- R115: a subtraction adds the negated value. -/
theorem faddBits_negBits {f : NumFmt} (hf : f.tapered = false) (md : Rm) (a : Nat) {b : Nat} (hb : b < 2 ^ f.bits) :
    faddBits f md a (negBits f b)
      = withSig (finish f md (addNum md.isDn (numOf f a) (negNum (numOf f b)))) ((numOf f a).sig ||| (numOf f b).sig) := by
  rw [faddBits_eq, numOf_negBits hf hb, sig_negNum]

/-- R115. -/
theorem fmulBits_eq (f : NumFmt) (md : Rm) (a b : Nat) :
    fmulBits f md a b = withSig (finish f md (mulNum (numOf f a) (numOf f b))) ((numOf f a).sig ||| (numOf f b).sig) := by
  simp only [fmulBits, withSig, BitVec.or_assoc]

/-- R58, R115. -/
theorem ffmaBits_eq (f : NumFmt) (md : Rm) (a b c : Nat) :
    ffmaBits f md a b c
      = withSig (finish f md (fmaNum md.isDn (numOf f a) (numOf f b) (numOf f c)))
          ((numOf f a).sig ||| (numOf f b).sig ||| (numOf f c).sig) := by
  simp only [ffmaBits, withSig, BitVec.or_assoc]

/-- Settles O18: each scalar instruction is a register operation that writes one word and its flags. -/
theorem floatScalar : Obligations.FloatScalar := by
  unfold Obligations.FloatScalar
  intro s f u e m n hf hu c a b x md sig done
  exact ⟨regOp_setF hf (faddBits_eq _ _ _ _), regOp_setF hf (faddBits_negBits rfl _ _ (c.reg f.b).isLt),
    regOp_setF hf (fmulBits_eq _ _ _ _), regOp_setF hf (ffmaBits_eq _ _ _ _ _), regOp_setF hf rfl, regOp_setF hf rfl,
    regOp_setF hu rfl, rfl, rfl, rfl⟩

/-- Settles O19: each is a register operation; the flags of `fcmp`, `upk` and `pkq` stand beside the registers they write. -/
theorem floatConversions : Obligations.FloatConversions := by
  unfold Obligations.FloatConversions
  intro s f g h e half cc x y fmt sat dth hf hg hh c fm md a b z els
  refine ⟨regOp_after hh ?_, regOp_setF hg rfl, regOp_setF hg rfl, regOp_setF hg rfl, regOp_after hf rfl, regOp_after hf rfl,
    regOp_after hf rfl, regOp_after hf ?_⟩
  · simp only [Ctx.orFlags, Ctx.setPred_fpst]
  · cases dth <;> simp [Ctx.orFlags, els, c]

end Sys2Proof.Machine
end

