-- ==== Sys2Proof/Proofs/FlagsSticky.lean ====
section
/-! No float instruction clears a flag or touches the rounding mode (R46, R113): every result's flags keep clear of the low byte, and are
OR-ed into c.fpst. -/

namespace Sys2Proof.Machine

/-! ## Flag words -/

/-- The word holds flags alone: its low byte, where c.fpst has the rounding mode and reserved bits, is clear (R46). -/
def FlagsOnly (w : Word) : Prop := w &&& 0xFF = 0

theorem or_and_low (a b : Word) : (a ||| b) &&& 0xFF = a &&& 0xFF ||| b &&& 0xFF := by
  rw [BitVec.and_comm, BitVec.and_or_distrib_left, BitVec.and_comm _ a, BitVec.and_comm _ b]

theorem FlagsOnly.or {a b : Word} (ha : FlagsOnly a) (hb : FlagsOnly b) : FlagsOnly (a ||| b) := by
  unfold FlagsOnly at *
  rw [or_and_low, ha, hb]
  rfl

theorem FlagsOnly.ite {a b : Word} {p : Prop} [Decidable p] (ha : FlagsOnly a) (hb : FlagsOnly b) :
    FlagsOnly (if p then a else b) := by
  split <;> assumption

theorem flagsOnly_zero : FlagsOnly 0 := rfl
theorem flagsOnly_fNV : FlagsOnly fNV := rfl
theorem flagsOnly_fOF : FlagsOnly fOF := rfl
theorem flagsOnly_fUF : FlagsOnly fUF := rfl
theorem flagsOnly_fNX : FlagsOnly fNX := rfl
theorem flagsOnly_fSA : FlagsOnly fSA := rfl

/-! ## Flags of the results -/

theorem flagsOnly_sig (x : Num) : FlagsOnly x.sig := by
  unfold Num.sig
  split
  · exact flagsOnly_fNV
  all_goals exact flagsOnly_zero

theorem flagsOnly_encT (f : NumFmt) (md : Rm) (s : Bool) (m : Nat) (e : Int) : FlagsOnly (encT f md s m e).2 := by
  unfold encT
  extract_lets
  split
  · exact flagsOnly_fUF.or flagsOnly_fNX
  · split
    · exact flagsOnly_zero
    · split
      · exact flagsOnly_fOF.or flagsOnly_fNX
      · exact flagsOnly_fNX

theorem flagsOnly_encB (f : NumFmt) (md : Rm) (sat s : Bool) (m : Nat) (e : Int) : FlagsOnly (encB f md sat s m e).2 := by
  unfold encB
  extract_lets
  split
  · split
    · exact (flagsOnly_fOF.or flagsOnly_fNX).or flagsOnly_fSA
    · exact flagsOnly_fOF.or flagsOnly_fNX
  · exact (flagsOnly_fNX.ite flagsOnly_zero).or (flagsOnly_fUF.ite flagsOnly_zero)

theorem flagsOnly_encNum (f : NumFmt) (md : Rm) (sat : Bool) (v : Num) : FlagsOnly (encNum f md sat v).2 := by
  cases v with
  | nan q => exact flagsOnly_zero
  | inf s =>
    simp only [encNum]
    split
    · exact flagsOnly_fSA
    · split
      · exact flagsOnly_zero
      · exact flagsOnly_fNV
  | fin s m e =>
    simp only [encNum]
    split
    · exact flagsOnly_zero
    · split
      · exact flagsOnly_encT f md s m e
      · exact flagsOnly_encB f md sat s m e

theorem flagsOnly_intOf (md : Rm) (signed : Bool) (w : Nat) (v : Num) : FlagsOnly (intOf md signed w v).2 := by
  unfold intOf
  extract_lets
  split
  · exact flagsOnly_fNV
  · exact flagsOnly_fNV
  · extract_lets
    split
    · exact flagsOnly_fNV
    · split
      · exact flagsOnly_fNV
      · exact flagsOnly_fNX.ite flagsOnly_zero

/-- R49: a sum of two infinities of opposite signs is invalid. -/
theorem flagsOnly_addNum (rdn : Bool) (a b : Num) : FlagsOnly (addNum rdn a b).2 := by
  cases a with
  | nan q => exact flagsOnly_zero
  | inf s =>
    cases b with
    | nan q | fin t n g => exact flagsOnly_zero
    | inf t =>
      simp only [addNum]
      split
      · exact flagsOnly_zero
      · exact flagsOnly_fNV
  | fin s m e =>
    cases b with
    | nan q | inf t => exact flagsOnly_zero
    | fin t n g =>
      simp only [addNum]
      split <;> exact flagsOnly_zero

/-- R49: a product of zero and an infinity is invalid. -/
theorem flagsOnly_mulNum (a b : Num) : FlagsOnly (mulNum a b).2 := by
  have hinf (m : Nat) (x : Num) : FlagsOnly (if m = 0 then (Num.nan false, fNV) else (x, 0)).2 := by
    split
    · exact flagsOnly_fNV
    · exact flagsOnly_zero
  cases a with
  | nan q => exact flagsOnly_zero
  | inf s =>
    cases b with
    | nan q | inf t => exact flagsOnly_zero
    | fin t n g => exact hinf n _
  | fin s m e =>
    cases b with
    | nan q | fin t n g => exact flagsOnly_zero
    | inf t => exact hinf m _

theorem flagsOnly_fmaNum (rdn : Bool) (a b c : Num) : FlagsOnly (fmaNum rdn a b c).2 :=
  (flagsOnly_mulNum a b).or (flagsOnly_addNum rdn _ c)

theorem flagsOnly_finish (f : NumFmt) (md : Rm) {r : Num × Word} (h : FlagsOnly r.2) : FlagsOnly (finish f md r).2 :=
  h.or (flagsOnly_encNum f md false r.1)

theorem flagsOnly_faddBits (f : NumFmt) (md : Rm) (a b : Nat) : FlagsOnly (faddBits f md a b).2 := by
  rw [faddBits_eq]
  exact (flagsOnly_finish f md (flagsOnly_addNum _ _ _)).or ((flagsOnly_sig _).or (flagsOnly_sig _))

theorem flagsOnly_fmulBits (f : NumFmt) (md : Rm) (a b : Nat) : FlagsOnly (fmulBits f md a b).2 := by
  rw [fmulBits_eq]
  exact (flagsOnly_finish f md (flagsOnly_mulNum _ _)).or ((flagsOnly_sig _).or (flagsOnly_sig _))

theorem flagsOnly_ffmaBits (f : NumFmt) (md : Rm) (a b c : Nat) : FlagsOnly (ffmaBits f md a b c).2 := by
  rw [ffmaBits_eq]
  exact (flagsOnly_finish f md (flagsOnly_fmaNum _ _ _ _)).or (((flagsOnly_sig _).or (flagsOnly_sig _)).or (flagsOnly_sig _))

theorem flagsOnly_fminmax (f : NumFmt) (mx : Bool) (a b : Nat) : FlagsOnly (fminmax f mx a b).2 := by
  unfold fminmax
  extract_lets
  split
  · exact (flagsOnly_sig _).or (flagsOnly_sig _)
  · exact flagsOnly_zero

theorem flagsOnly_frndBits (md : Rm) (a : Nat) : FlagsOnly (frndBits md a).2 := by
  unfold frndBits
  split
  · exact flagsOnly_fNV.ite flagsOnly_zero
  · exact flagsOnly_zero
  · split
    · exact flagsOnly_zero
    · exact flagsOnly_fNX.ite flagsOnly_zero

theorem flagsOnly_fcmpOf (cc : FCond) (a b : Word) : FlagsOnly (fcmpOf cc a b).2 := by
  have hquiet := (flagsOnly_sig (numOf .f32 a.toNat)).or (flagsOnly_sig (numOf .f32 b.toNat))
  have hloud : ∀ un : Bool, FlagsOnly (if un then fNV else 0) := fun _ => flagsOnly_fNV.ite flagsOnly_zero
  cases cc
  case lt | le | gt | ge => exact hloud _
  all_goals exact hquiet

theorem flagsOnly_packed2 {x y : Nat × Word} (hx : FlagsOnly x.2) (hy : FlagsOnly y.2) : FlagsOnly (packed2 x y).2 := hx.or hy

theorem flagsOnly_orAll {l : List (Nat × Word)} (h : ∀ e ∈ l, FlagsOnly e.2) : FlagsOnly (orAll l) :=
  List.foldlRecOn l _ flagsOnly_zero fun _ hw e he => hw.or (h e he)

theorem flagsOnly_packNum (f : PackFmt) (md : Rm) (sat : Bool) (v : Num) : FlagsOnly (packNum f md sat v).2 :=
  ((flagsOnly_encNum _ _ _ _).or (flagsOnly_sig v)).or (flagsOnly_fSA.ite flagsOnly_zero)

theorem flagsOnly_packElems (f : PackFmt) (sat : Bool) (dith : Option Nat) (j : Nat) (ws : List Word) :
    ∀ e ∈ packElems f sat dith j ws, FlagsOnly e.2 := by
  induction ws generalizing j with
  | nil => simp [packElems]
  | cons w ws ih =>
    simp only [packElems, List.mem_cons, forall_eq_or_imp]
    exact ⟨flagsOnly_packNum _ _ _ _, ih (j + 1)⟩

/-! ## Flags of a step -/

/-- R113: `d` has the flags of `c` and perhaps others, and its rounding mode. -/
def FlagsGrow (c d : Ctx) : Prop := ∃ w, FlagsOnly w ∧ d.fpst = c.fpst ||| w

theorem FlagsGrow.of_eq {c d : Ctx} (h : d.fpst = c.fpst) : FlagsGrow c d := ⟨0, flagsOnly_zero, by simp [h]⟩

/-- Where the outcome is a state, the flags have grown. -/
def OutGrows (s : State) (o : Out) : Prop := ∀ t, o = .next t → FlagsGrow s.th.ctx t.th.ctx

theorem retire_grows (s : State) : OutGrows s (retire s) := by
  rintro t ⟨⟩
  exact .of_eq (advance_moved s).fpst

theorem regOp_grows {s : State} {p : Pred} {f : Ctx → Ctx} (h : FlagsGrow s.th.ctx (f s.th.ctx)) : OutGrows s (regOp s p f) := by
  unfold regOp guarded
  split
  · rintro t ⟨⟩
    obtain ⟨w, hw, hf⟩ := h
    exact ⟨w, hw, (advance_moved (modCtx s f)).fpst.trans hf⟩
  · exact retire_grows s

/-- A register operation that leaves c.fpst alone. -/
theorem regOp_keeps {s : State} {p : Pred} {f : Ctx → Ctx} (h : (f s.th.ctx).fpst = s.th.ctx.fpst) : OutGrows s (regOp s p f) :=
  regOp_grows (.of_eq h)

theorem regOp_setF_grows {s : State} {p : Pred} {d : Reg} {r : Ctx → Nat × Word} (h : FlagsOnly (r s.th.ctx).2) :
    OutGrows s (regOp s p fun c => c.setF d (r c)) :=
  regOp_grows ⟨_, h, by simp [Ctx.setF]⟩

/-- R122: a conversion's flags. -/
theorem cvtTo_grows (c : Ctx) (d : Reg) (df : ConvTy) (sat : Bool) (v : Num) : FlagsGrow c (cvtTo c d df sat v) := by
  cases df with
  | fp f => exact ⟨_, (flagsOnly_encNum (fpFmt f) (rmOf c.fpst) sat v).or (flagsOnly_sig v), by simp [cvtTo, Ctx.setF]⟩
  | s32 => exact ⟨_, flagsOnly_intOf (rmOf c.fpst) true 32 v, by simp [cvtTo, Ctx.setF]⟩
  | n32 => exact ⟨_, flagsOnly_intOf (rmOf c.fpst) false 32 v, by simp [cvtTo, Ctx.setF]⟩
  | s64 => exact ⟨_, flagsOnly_intOf (rmOf c.fpst) true 64 v, by simp [cvtTo]⟩
  | n64 => exact ⟨_, flagsOnly_intOf (rmOf c.fpst) false 64 v, by simp [cvtTo]⟩

/-- R113: every register operation makes the flags of c.fpst grow. -/
theorem exec_grows {i : Instr} {e : List Reg × List Pred} (h : regEffect i = some e) (s : State) : OutGrows s (exec i s) := by
  cases i
  case nop | hint => exact retire_grows s
  case add | sub | mul | mulh | mad | div | rem | min | max | and | or | xor | andn | shl | shr | sar | rot | bfx | bfi | lea | abs
      | neg | not | clz | popc | brev | mov | addImm | andImm | orImm | xorImm | shlImm | shrImm | sarImm | fabs | fneg | fcls =>
    exact regOp_keeps (Ctx.setReg_fpst _ _ _)
  case add64 | sub64 | mov64 | lea64 => exact regOp_keeps (Ctx.setPair_fpst _ _ _)
  case icmp | icmp64 | icmpImm | pand | por | pxor | pnot | pmov => exact regOp_keeps (Ctx.setPred_fpst _ _ _)
  case sel f wide sp =>
    refine regOp_keeps ?_
    cases wide
    · exact Ctx.setReg_fpst _ _ _
    · exact Ctx.setPair_fpst _ _ _
  case movi p d k lit =>
    refine regOp_keeps ?_
    cases k
    · exact Ctx.setReg_fpst _ _ _
    all_goals exact Ctx.setPair_fpst _ _ _
  case fadd | fsub => exact regOp_setF_grows (flagsOnly_faddBits _ _ _ _)
  case fmul => exact regOp_setF_grows (flagsOnly_fmulBits _ _ _ _)
  case ffma => exact regOp_setF_grows (flagsOnly_ffmaBits _ _ _ _ _)
  case fmin | fmax => exact regOp_setF_grows (flagsOnly_fminmax _ _ _ _)
  case frnd => exact regOp_setF_grows (flagsOnly_frndBits _ _)
  case fcmp f cc => exact regOp_grows ⟨_, flagsOnly_fcmpOf cc (s.th.ctx.reg f.a) (s.th.ctx.reg f.b), by simp⟩
  case hadd2 => exact regOp_setF_grows (flagsOnly_packed2 (flagsOnly_faddBits _ _ _ _) (flagsOnly_faddBits _ _ _ _))
  case hmul2 => exact regOp_setF_grows (flagsOnly_packed2 (flagsOnly_fmulBits _ _ _ _) (flagsOnly_fmulBits _ _ _ _))
  case hfma2 => exact regOp_setF_grows (flagsOnly_packed2 (flagsOnly_ffmaBits _ _ _ _ _) (flagsOnly_ffmaBits _ _ _ _ _))
  case fcvt | fcvtSat => exact regOp_grows (cvtTo_grows _ _ _ _ _)
  case pkq f fmt sat dth =>
    refine regOp_grows ⟨_, flagsOnly_orAll (flagsOnly_packElems fmt sat (if dth then some s.th.ctx.dphase.toNat else none) 0
      (s.th.ctx.regs f.a fmt.count)), ?_⟩
    cases dth <;> simp
  case upk f fmt =>
    refine regOp_grows ⟨_, flagsOnly_orAll fun e he => ?_, by simp; rfl⟩
    obtain ⟨x, -, rfl⟩ := List.mem_map.mp he
    exact flagsOnly_sig _
  all_goals cases h

/-- Settles O21: what is OR-ed into c.fpst keeps clear of the byte of the rounding mode. -/
theorem flagsSticky : Obligations.FlagsSticky := by
  unfold Obligations.FlagsSticky
  intro s t i e h hx
  obtain ⟨w, hw, hf⟩ := exec_grows h s t hx
  rw [hf]
  refine ⟨?_, (or_and_low _ _).trans (by rw [show w &&& 0xFF = 0 from hw]; exact BitVec.or_zero)⟩
  ext k hk
  simp only [BitVec.getElem_and, BitVec.getElem_or, Bool.and_or_distrib_left, Bool.and_self, Bool.or_eq_left_iff_imp, Bool.and_eq_true]
  exact fun h => h.1

end Sys2Proof.Machine
end

