-- ==== Sys2Proof/Proofs/IntegerProducts.lean ====
section
/-! The integer products of the matrix engine (R57, R270): an element's accumulator is the sum of its products modulo 2^32. -/

namespace Sys2Proof.Machine

/-! ## Slices of the terms of a product -/

theorem rangeFrom_eq_map (a n : Nat) : rangeFrom a n = (List.range n).map (a + ·) := by
  induction n generalizing a with
  | zero => rfl
  | succ n ih =>
    rw [rangeFrom, ih, List.range_succ_eq_map, List.map_cons, List.map_map]
    exact congrArg₂ _ rfl (List.map_congr_left fun k _ => by simp; omega)

/-- The terms from `0` to `s * n - 1`, in `n` slices of `s`. -/
theorem sum_slices (g : Nat → Int) (s n : Nat) :
    ((List.range n).map fun t => ((rangeFrom (s * t) s).map g).sum).sum = ((List.range (s * n)).map g).sum := by
  induction n with
  | zero => simp
  | succ n ih =>
    rw [List.range_succ, List.map_append, List.sum_append, ih, Nat.mul_succ, List.range_add, List.map_append, List.sum_append,
      ← rangeFrom_eq_map]
    simp

/-! ## Sums by folding -/

theorem foldl_add_eq (g : Nat → Int) (l : List Nat) (x : Int) : l.foldl (fun x k => x + g k) x = x + (l.map g).sum := by
  induction l generalizing x with
  | nil => simp
  | cons k l ih => rw [List.foldl_cons, ih, List.map_cons, List.sum_cons, add_assoc]

/-- R57: a slice's sum, added modulo 2^32. -/
theorem sliceI_eq (p : MmaOp) (a b : Nat → Nat) (acc : Word) (t : Nat) :
    sliceI p a b acc t
      = acc + BitVec.ofInt 32 ((rangeFrom (p.ty.s * t) p.ty.s).map fun k => sextN 8 (a k) * sextN 8 (b k)).sum := by
  rw [sliceI, foldl_add_eq fun k => sextN 8 (a k) * sextN 8 (b k), BitVec.ofInt_add, BitVec.ofInt_toInt]

theorem foldl_sliceI (p : MmaOp) (a b : Nat → Nat) (n : Nat) (acc : Word) :
    (List.range n).foldl (sliceI p a b) acc
      = acc + BitVec.ofInt 32 ((List.range (p.ty.s * n)).map fun k => sextN 8 (a k) * sextN 8 (b k)).sum := by
  rw [← sum_slices]
  induction n with
  | zero => simp
  | succ n ih =>
    rw [List.range_succ, List.foldl_append, ih, List.map_append, List.sum_append, BitVec.ofInt_add, ← BitVec.add_assoc]
    simp [sliceI_eq]

/-- R270: an element of an integer product. -/
theorem mmaElem_int (s : State) (o : MatOp) {p : MmaOp} (lens : Lens) (old : Word) (m n : Nat) (hint : p.ty.int = true)
    (hk : p.ty.s ∣ p.ty.k) :
    mmaElem s o p lens old m n
      = BitVec.ofInt 32 ((if p.z then 0 else old.toInt)
          + ((List.range p.ty.k).map fun k => sextN 8 (codeA s o p lens m k) * sextN 8 (codeB s o p k n)).sum) := by
  have hfold := foldl_sliceI p (codeA s o p lens m) (fun k => codeB s o p k n) (p.ty.k / p.ty.s) (if p.z then 0 else old)
  rw [Nat.mul_div_cancel' hk] at hfold
  simp only [mmaElem, hint, if_true]
  refine hfold.trans ?_
  rw [BitVec.ofInt_add]
  cases p.z <;> simp

/-- Settles O46: the 128 products go in 64 slices of two. -/
theorem integerMatrixElement : Obligations.IntegerMatrixElement := by
  unfold Obligations.IntegerMatrixElement
  intro s o f va z p lens old m n hp
  cases hp
  exact mmaElem_int s o lens old m n rfl ⟨64, rfl⟩

end Sys2Proof.Machine
end

