-- ==== Sys2Proof/Proofs/ExactValues.lean ====
section
/-! The exact operations by their rational values (R49, R56, R58, R115): sums, products, scales and comparisons round nothing. -/

namespace Sys2Proof.Machine

/-! ## Values -/

/-- The sign of a value. -/
def signQ (s : Bool) : ℚ := if s then -1 else 1

theorem sgnd_cast (s : Bool) (m : Nat) : (sgnd s m : ℚ) = signQ s * m := by
  cases s <;> simp [sgnd, signQ]

theorem numQ_fin (s : Bool) (m : Nat) (e : Int) : numQ (.fin s m e) = signQ s * (m * (2 : ℚ) ^ e) := mul_assoc _ _ _

/-- A magnitude written at a lower exponent. -/
theorem shiftLeft_mul_zpow (m : Nat) {b e : Int} (h : b ≤ e) :
    ((m <<< (e - b).toNat : Nat) : ℚ) * (2 : ℚ) ^ b = m * (2 : ℚ) ^ e := by
  have he : e = ((e - b).toNat : Int) + b := by omega
  conv_rhs => rw [he, zpow_add₀ (by norm_num), zpow_natCast]
  rw [Nat.shiftLeft_eq]
  push_cast
  ring

theorem sgnd_shiftLeft_mul_zpow (s : Bool) (m : Nat) {b e : Int} (h : b ≤ e) :
    (sgnd s (m <<< (e - b).toNat) : ℚ) * (2 : ℚ) ^ b = numQ (.fin s m e) := by
  rw [sgnd_cast, mul_assoc, shiftLeft_mul_zpow m h, numQ_fin]

theorem sgnd_natAbs (x : Int) : sgnd (decide (x < 0)) x.natAbs = x := by
  unfold sgnd
  split_ifs with h <;> simp at h <;> omega

/-- `v` is finite, of exact value `q`. -/
def IsVal (v : Num) (q : ℚ) : Prop := ∃ s m e, v = .fin s m e ∧ numQ v = q

theorem isVal_fin (s : Bool) (m : Nat) (e : Int) : IsVal (.fin s m e) (numQ (.fin s m e)) := ⟨s, m, e, rfl, rfl⟩

theorem IsVal.eq {v : Num} {q : ℚ} (h : IsVal v q) : numQ v = q := by
  obtain ⟨_, _, _, _, hq⟩ := h
  exact hq

theorem isVal_of_isFin {v : Num} (h : v.isFin = true) : IsVal v (numQ v) := by
  cases v with
  | fin s m e => exact isVal_fin s m e
  | nan q => cases h
  | inf s => cases h

/-! ## Operations -/

/-- R115: a sum of finite values is exact. -/
theorem IsVal.add {x y : Num} {p q : ℚ} (rd : Bool) (hx : IsVal x p) (hy : IsVal y q) : IsVal (addNum rd x y).1 (p + q) := by
  obtain ⟨s, m, e, rfl, rfl⟩ := hx
  obtain ⟨t, n, g, rfl, rfl⟩ := hy
  have hsum : numQ (.fin s m e) + numQ (.fin t n g)
      = ((sgnd s (m <<< (e - min e g).toNat) + sgnd t (n <<< (g - min e g).toNat) : Int) : ℚ) * (2 : ℚ) ^ min e g := by
    rw [← sgnd_shiftLeft_mul_zpow s m (min_le_left e g), ← sgnd_shiftLeft_mul_zpow t n (min_le_right e g)]
    push_cast
    ring
  simp only [addNum]
  split
  next h => exact ⟨_, _, _, rfl, by rw [hsum, h]; simp [numQ]⟩
  next => exact ⟨_, _, _, rfl, by rw [hsum, numQ_fin, ← mul_assoc, ← sgnd_cast, sgnd_natAbs]⟩

/-- R115: so is a product. -/
theorem IsVal.mul {x y : Num} {p q : ℚ} (hx : IsVal x p) (hy : IsVal y q) : IsVal (mulNum x y).1 (p * q) := by
  obtain ⟨s, m, e, rfl, rfl⟩ := hx
  obtain ⟨t, n, g, rfl, rfl⟩ := hy
  refine ⟨_, _, _, rfl, ?_⟩
  simp only [mulNum, numQ, zpow_add₀ (two_ne_zero' ℚ)]
  cases s <;> cases t <;> push_cast <;> simp <;> ring

/-- R58: and so is a fused sum. -/
theorem IsVal.fma {x y z : Num} {p q r : ℚ} (rd : Bool) (hx : IsVal x p) (hy : IsVal y q) (hz : IsVal z r) :
    IsVal (fmaNum rd x y z).1 (p * q + r) := (hx.mul hy).add rd hz

/-- No finite operand makes an exact operation invalid (R49). -/
theorem addNum_fin_flags (rd s t : Bool) (m n : Nat) (e g : Int) : (addNum rd (.fin s m e) (.fin t n g)).2 = 0 := by
  simp only [addNum]
  split_ifs <;> rfl

theorem fmaNum_fin_flags (rd s t u : Bool) (m n k : Nat) (e g i : Int) :
    (fmaNum rd (.fin s m e) (.fin t n g) (.fin u k i)).2 = 0 := by
  simp only [fmaNum, mulNum, addNum_fin_flags]
  rfl

/-! ## Comparison -/

theorem leDy_iff (m : Nat) (e : Int) (n : Nat) (g : Int) :
    leDy m e n g = true ↔ (m : ℚ) * (2 : ℚ) ^ e ≤ n * (2 : ℚ) ^ g := by
  unfold leDy
  split_ifs with h
  · rw [← shiftLeft_mul_zpow n h, mul_le_mul_iff_left₀ (by positivity), Nat.cast_le, decide_eq_true_iff]
  · rw [← shiftLeft_mul_zpow m (Int.le_of_not_le h), mul_le_mul_iff_left₀ (by positivity), Nat.cast_le, decide_eq_true_iff]

/-! ## Slices of a matrix product -/

/-- R45: a scale but 0xFF multiplies exactly. -/
theorem IsVal.scale {v : Num} {q : ℚ} (h : IsVal v q) {sc : Nat} (hsc : sc ≠ 0xFF) :
    IsVal (scaleNum v sc) (q * (2 : ℚ) ^ ((sc : Int) - 127)) := by
  obtain ⟨s, m, e, rfl, rfl⟩ := h
  refine ⟨s, m, e + sc - 127, by simp [scaleNum, hsc], ?_⟩
  simp only [scaleNum, hsc, if_false, numQ, show e + sc - 127 = e + ((sc : Int) - 127) by ring, zpow_add₀ (two_ne_zero' ℚ)]
  ring

/-- A sum of values, added one by one to another. -/
theorem IsVal.foldl {f : Nat → Num} {g : Nat → ℚ} {l : List Nat} (h : ∀ k ∈ l, IsVal (f k) (g k)) {x : Num} {q : ℚ}
    (hx : IsVal x q) : IsVal (l.foldl (fun x k => (addNum false x (f k)).1) x) (q + (l.map g).sum) := by
  induction l generalizing x q with
  | nil => simpa using hx
  | cons k l ih =>
    rw [List.foldl_cons, List.map_cons, List.sum_cons, ← add_assoc]
    exact ih (fun j hj => h j (List.mem_cons_of_mem _ hj)) (hx.add false (h k List.mem_cons_self))

/-- R56: the exact sum of a slice's products. -/
def sliceSum (p : MmaOp) (a b : Nat → Nat) (ks : List Nat) : Num :=
  let prod (k : Nat) : Num := (mulNum (numOf p.ty.fmt (a k)) (numOf p.ty.fmt (b k))).1
  match ks with
  | [] => .fin false 0 0
  | k :: r => r.foldl (fun x k => (addNum false x (prod k)).1) (prod k)

/-- R56: scaled, where the type is an MX one. -/
def sliceScaled (p : MmaOp) (sa sb : Nat) (x : Num) : Num :=
  match p.ty.mx with
  | none => x
  | some _ => scaleNum (scaleNum x sa) sb

theorem sliceF_eq (p : MmaOp) (a b sa sb : Nat → Nat) (acc : Word) (t : Nat) :
    sliceF p a b sa sb acc t
      = BitVec.ofNat 32 (encNum .f32 .rne false (addNum false (numOf .f32 acc.toNat)
          (sliceScaled p (sa (p.ty.s * t / 32)) (sb (p.ty.s * t / 32))
            (sliceSum p a b ((List.range p.ty.s).map (p.ty.s * t + ·))))).1).1 := by
  rw [← rangeFrom_eq_map]
  rfl

theorem isVal_sliceSum (p : MmaOp) (a b : Nat → Nat) {ks : List Nat}
    (h : ∀ i ∈ ks, (numOf p.ty.fmt (a i)).isFin = true ∧ (numOf p.ty.fmt (b i)).isFin = true) :
    IsVal (sliceSum p a b ks) (ks.map fun i => numQ (numOf p.ty.fmt (a i)) * numQ (numOf p.ty.fmt (b i))).sum := by
  have hprod : ∀ i ∈ ks, IsVal (mulNum (numOf p.ty.fmt (a i)) (numOf p.ty.fmt (b i))).1
      (numQ (numOf p.ty.fmt (a i)) * numQ (numOf p.ty.fmt (b i))) := fun i hi =>
    (isVal_of_isFin (h i hi).1).mul (isVal_of_isFin (h i hi).2)
  cases ks with
  | nil => exact ⟨_, _, _, rfl, by simp [sliceSum, numQ]⟩
  | cons k r =>
    rw [List.map_cons, List.sum_cons]
    exact IsVal.foldl (fun i hi => hprod i (List.mem_cons_of_mem _ hi)) (hprod k List.mem_cons_self)

theorem isVal_sliceScaled (p : MmaOp) {sa sb : Nat} (hs : p.ty.mx.isSome = true → sa ≠ 0xFF ∧ sb ≠ 0xFF) {x : Num} {q : ℚ}
    (hx : IsVal x q) :
    IsVal (sliceScaled p sa sb x)
      ((if p.ty.mx.isSome then (2 : ℚ) ^ ((sa : Int) - 127) * (2 : ℚ) ^ ((sb : Int) - 127) else 1) * q) := by
  unfold sliceScaled
  cases hmx : p.ty.mx with
  | none => simpa using hx
  | some f =>
    obtain ⟨ha, hb⟩ := hs (by rw [hmx]; rfl)
    have := (hx.scale ha).scale hb
    simpa [mul_comm, mul_left_comm, mul_assoc] using this

end Sys2Proof.Machine
end

