-- ==== Sys2Proof/Proofs/Rounding.lean ====
section
/-! Rounding to a multiple of a power of two (R46, R47): what `roundShift` gives, in each mode. -/

namespace Sys2Proof.Machine

@[simp] theorem abs_signQ (s : Bool) : |signQ s| = 1 := by cases s <;> simp [signQ]

theorem signQ_ne_zero (s : Bool) : signQ s ≠ 0 := by cases s <;> simp [signQ]

theorem abs_signQ_mul_sub (s : Bool) (a b : ℚ) : |signQ s * a - signQ s * b| = |a - b| := by
  rw [← mul_sub, abs_mul, abs_signQ, one_mul]

theorem abs_numQ_fin (s : Bool) (m : Nat) (e : Int) : |numQ (.fin s m e)| = m * (2 : ℚ) ^ e := by
  rw [numQ_fin, abs_mul, abs_signQ, one_mul, abs_of_nonneg (by positivity)]

theorem sgnd_even_iff (s : Bool) (n : Nat) : sgnd s n % 2 = 0 ↔ n % 2 = 0 := by
  cases s <;> simp [sgnd] <;> omega

/-! ## The relation -/

/-- A multiple of 2^t is rounded to itself. -/
theorem roundsTo_self (md : Rm) {x : ℚ} {t : Int} (h : ∃ n : Int, x = n * (2 : ℚ) ^ t) : roundsTo md x t x := by
  obtain ⟨n, hn⟩ := h
  have h2 : (0 : ℚ) < 2 ^ t := by positivity
  refine ⟨n, hn, ?_⟩
  cases md with
  | rne => simp [h2.le, h2.ne]
  | rz | rup | rdn => simp [h2]
  | dith i => trivial

/-- A rounding to an integer, scaled by 2^t, is one to a multiple of 2^t. -/
theorem roundsTo_scale {md : Rm} {x y : ℚ} (t : Int) (h : roundsTo md x 0 y) : roundsTo md (x * (2 : ℚ) ^ t) t (y * (2 : ℚ) ^ t) := by
  obtain ⟨n, hy, h⟩ := h
  rw [zpow_zero, mul_one] at hy
  have h2 : (0 : ℚ) < 2 ^ t := by positivity
  have habs (a : ℚ) : |a * (2 : ℚ) ^ t| = |a| * 2 ^ t := by rw [abs_mul, abs_of_pos h2]
  refine ⟨n, by rw [hy], ?_⟩
  cases md with
  | rne =>
    simp only [zpow_zero] at h
    simp only [← sub_mul, habs, ← mul_assoc]
    exact ⟨by nlinarith [h.1], fun he => h.2 (mul_right_cancel₀ h2.ne' (by rw [he, one_mul]))⟩
  | rz =>
    simp only [zpow_zero] at h
    simp only [← sub_mul, habs]
    exact ⟨by nlinarith [h.1], by nlinarith [h.2]⟩
  | rup | rdn =>
    simp only [zpow_zero] at h
    exact ⟨by nlinarith [h.1], by nlinarith [h.2]⟩
  | dith i => trivial

/-- R46, R47: a magnitude between `n` and `n + 1`, rounded as `roundsUp` says. -/
theorem roundsTo_unit (md : Rm) (s : Bool) (n : Nat) {r q : Nat} (h0 : 0 < r) (hq : r < q) :
    roundsTo md (signQ s * (n + r / q)) 0 (signQ s * (if roundsUp md s (n % 2 == 1) r q then n + 1 else n : Nat)) := by
  have hq0 : (0 : ℚ) < q := by exact_mod_cast h0.trans hq
  have hf0 : (0 : ℚ) < r / q := by positivity
  have hf1 : (r / q : ℚ) < 1 := by rw [div_lt_one hq0]; exact_mod_cast hq
  have hlt : q < 2 * r ↔ 1 < 2 * (r / q : ℚ) := by
    rw [← mul_div_assoc, one_lt_div hq0]; exact_mod_cast Iff.rfl
  have heq : 2 * r = q ↔ 2 * (r / q : ℚ) = 1 := by
    rw [← mul_div_assoc, div_eq_one_iff_eq hq0.ne']; exact_mod_cast Iff.rfl
  generalize (r / q : ℚ) = f at *
  refine ⟨sgnd s _, by rw [sgnd_cast, zpow_zero, mul_one], ?_⟩
  cases md with
  | rne =>
    simp only [zpow_zero, abs_signQ_mul_sub, sgnd_even_iff, roundsUp, Bool.or_eq_true, decide_eq_true_iff, Bool.and_eq_true,
      beq_iff_eq, hlt, heq]
    split_ifs with h
    · rw [Nat.cast_add, Nat.cast_one, add_sub_add_left_eq_sub, abs_of_pos (by linarith)]
      refine ⟨?_, fun he => ?_⟩
      · rcases h with h | h <;> linarith [h]
      · rcases h with h | ⟨_, h⟩
        · linarith
        · omega
    · simp only [not_or, not_and, not_lt] at h
      rw [sub_add_cancel_left, abs_neg, abs_of_pos hf0]
      refine ⟨h.1, fun he => ?_⟩
      have := h.2 he
      omega
  | rz =>
    simp only [roundsUp, Bool.false_eq_true, if_false, zpow_zero, abs_signQ_mul_sub, abs_mul, abs_signQ, one_mul]
    rw [add_sub_cancel_left, abs_of_pos hf0, abs_of_nonneg (by positivity), abs_of_nonneg (by positivity)]
    exact ⟨by linarith, hf1⟩
  | rup | rdn =>
    cases s
    all_goals
      simp only [roundsUp, Bool.not_false, Bool.not_true, Bool.false_eq_true, if_true, if_false, zpow_zero, signQ, one_mul, neg_mul]
      push_cast
      exact ⟨by linarith, by linarith⟩
  | dith i => trivial

/-! ## `roundShift` -/

/-- The magnitude m × 2^e in units of 2^t. -/
def inUnits (m : Nat) (e t : Int) : ℚ := m * (2 : ℚ) ^ (e - t)

theorem inUnits_mul (m : Nat) (e t : Int) : inUnits m e t * (2 : ℚ) ^ t = m * (2 : ℚ) ^ e := by
  rw [inUnits, mul_assoc, ← zpow_add₀ (two_ne_zero' ℚ), sub_add_cancel]

theorem numQ_eq_inUnits (s : Bool) (m : Nat) (e t : Int) : numQ (.fin s m e) = signQ s * inUnits m e t * (2 : ℚ) ^ t := by
  rw [numQ_fin, mul_assoc, inUnits_mul]

theorem roundShift_of_le (md : Rm) (s : Bool) (m : Nat) {e t : Int} (h : t ≤ e) :
    roundShift md s m (t - e) = (m <<< (e - t).toNat, false) := by
  rw [roundShift, if_pos (by omega), neg_sub]

theorem shiftLeft_eq_inUnits (m : Nat) {e t : Int} (h : t ≤ e) : ((m <<< (e - t).toNat : Nat) : ℚ) = inUnits m e t := by
  have h2 : (2 : ℚ) ^ t ≠ 0 := by positivity
  rw [← mul_left_inj' h2, shiftLeft_mul_zpow m h, inUnits_mul]

theorem inUnits_of_lt (m : Nat) {e t : Int} {k : Nat} (h : t - e = k) :
    inUnits m e t = (m / 2 ^ k : Nat) + (m % 2 ^ k : Nat) / (2 ^ k : Nat) := by
  have hdiv : ((2 ^ k : Nat) : ℚ) * (m / 2 ^ k : Nat) + (m % 2 ^ k : Nat) = m := by exact_mod_cast Nat.div_add_mod m (2 ^ k)
  rw [inUnits, ← neg_sub t e, h, zpow_neg, zpow_natCast, ← hdiv]
  push_cast
  field_simp

/-- What a rounding to units of 2^t can give: an exact value, or a neighbour of an inexact one. -/
theorem roundShift_cases (md : Rm) (s : Bool) (m : Nat) (e t : Int) :
    ((roundShift md s m (t - e)).2 = false ∧ ((roundShift md s m (t - e)).1 : ℚ) = inUnits m e t)
      ∨ ∃ n r q : Nat, 0 < r ∧ r < q ∧ inUnits m e t = n + r / q
          ∧ roundShift md s m (t - e) = (if roundsUp md s (n % 2 == 1) r q then n + 1 else n, true) := by
  by_cases hte : t ≤ e
  · left
    rw [roundShift_of_le md s m hte]
    exact ⟨rfl, shiftLeft_eq_inUnits m hte⟩
  · obtain ⟨k, hk⟩ : ∃ k : Nat, t - e = k := ⟨(t - e).toNat, by omega⟩
    have hk0 : k ≠ 0 := by omega
    rw [inUnits_of_lt m hk, hk]
    by_cases hr : m % 2 ^ k = 0
    · left
      simp [roundShift, hk0, hr, Nat.shiftRight_eq_div_pow]
    · right
      exact ⟨m / 2 ^ k, m % 2 ^ k, 2 ^ k, Nat.pos_of_ne_zero hr, Nat.mod_lt _ (by positivity), rfl,
        by simp [roundShift, hk0, hr, Nat.shiftRight_eq_div_pow]⟩

/-- R46, R47: `roundShift` rounds as the mode says. -/
theorem roundsTo_roundShift (md : Rm) (s : Bool) (m : Nat) (e t : Int) :
    roundsTo md (numQ (.fin s m e)) t (numQ (.fin s (roundShift md s m (t - e)).1 t)) := by
  rw [numQ_eq_inUnits s m e t, numQ_fin s _ t, ← mul_assoc]
  obtain ⟨-, h⟩ | ⟨n, r, q, h0, hq, hm, h⟩ := roundShift_cases md s m e t
  · rw [← h]
    exact roundsTo_self md ⟨sgnd s _, by rw [sgnd_cast]⟩
  · rw [hm, h]
    exact roundsTo_scale t (roundsTo_unit md s n h0 hq)

/-- A rounding moves a magnitude by less than a unit, and is inexact where it moves it. -/
theorem roundShift_close (md : Rm) (s : Bool) (m : Nat) (e t : Int) :
    |((roundShift md s m (t - e)).1 : ℚ) - inUnits m e t| < 1
      ∧ ((roundShift md s m (t - e)).2 = true ↔ ((roundShift md s m (t - e)).1 : ℚ) ≠ inUnits m e t) := by
  obtain ⟨h, he⟩ | ⟨n, r, q, h0, hq, hm, h⟩ := roundShift_cases md s m e t
  · simp [he, h]
  · have hq0 : (0 : ℚ) < q := by exact_mod_cast h0.trans hq
    have hf0 : (0 : ℚ) < r / q := by positivity
    have hf1 : (r / q : ℚ) < 1 := by rw [div_lt_one hq0]; exact_mod_cast hq
    rw [hm, h, abs_lt]
    split_ifs
    · push_cast
      exact ⟨⟨by linarith, by linarith⟩, iff_of_true rfl fun h => by linarith⟩
    · exact ⟨⟨by linarith, by linarith⟩, iff_of_true rfl fun h => by linarith⟩

/-- R46: NX where the value changes. -/
theorem roundShift_inexact_iff (md : Rm) (s : Bool) (m : Nat) (e t : Int) :
    (roundShift md s m (t - e)).2 = true ↔ numQ (.fin s (roundShift md s m (t - e)).1 t) ≠ numQ (.fin s m e) := by
  rw [(roundShift_close md s m e t).2, numQ_eq_inUnits s m e t, numQ_fin, ← mul_assoc, ne_eq, ne_eq,
    mul_left_inj' (by positivity), mul_right_inj' (signQ_ne_zero s)]

/-- A rounding does not pass a multiple of the unit above the value. -/
theorem roundShift_le (md : Rm) (s : Bool) {m : Nat} {e t : Int} {b : Nat} (h : (m : ℚ) * (2 : ℚ) ^ e ≤ b * (2 : ℚ) ^ t) :
    (roundShift md s m (t - e)).1 ≤ b := by
  rw [← inUnits_mul m e t, mul_le_mul_iff_left₀ (by positivity)] at h
  have hlt := (abs_lt.mp (roundShift_close md s m e t).1).2
  have : ((roundShift md s m (t - e)).1 : ℚ) < b + 1 := by linarith
  exact Nat.lt_succ_iff.mp (by exact_mod_cast this)

/-- Nor one below it. -/
theorem le_roundShift (md : Rm) (s : Bool) {m : Nat} {e t : Int} {b : Nat} (h : b * (2 : ℚ) ^ t ≤ (m : ℚ) * (2 : ℚ) ^ e) :
    b ≤ (roundShift md s m (t - e)).1 := by
  rw [← inUnits_mul m e t, mul_le_mul_iff_left₀ (by positivity)] at h
  have hlt := (abs_lt.mp (roundShift_close md s m e t).1).1
  have : (b : ℚ) < (roundShift md s m (t - e)).1 + 1 := by linarith
  exact Nat.lt_succ_iff.mp (by exact_mod_cast this)

/-- A multiple of the unit stands. -/
theorem numQ_roundShift_of_le (md : Rm) (s : Bool) (m : Nat) {e t : Int} (h : t ≤ e) :
    numQ (.fin s (roundShift md s m (t - e)).1 t) = numQ (.fin s m e) := by
  rw [numQ_fin, numQ_fin, roundShift_of_le md s m h, shiftLeft_mul_zpow m h]

end Sys2Proof.Machine
end

