-- ==== Sys2Proof/Proofs/RoundedCodes.lean ====
section
/-! The code that a binary format gives a rounded value (R39, R47): within the format's range it stands for that value. -/

namespace Sys2Proof.Machine

/-! ## Codes of a significand and an exponent -/

/-- The lowest exponent of a significand of `f`: that of its subnormal codes. -/
def lowExp (f : NumFmt) : Int := 1 - (f.bias : Int) - f.fbits

/-- A significand and its exponent as a code of `f` holds them: `fbits + 1` bits, fewer at the lowest exponent alone (R39). -/
structure Fits (f : NumFmt) (n : Nat) (q : Int) : Prop where
  lt : n < 2 ^ (f.fbits + 1)
  low : n < 2 ^ f.fbits → q = lowExp f
  le : lowExp f ≤ q

/-- The magnitude code. -/
def codeOf (f : NumFmt) (n : Nat) (q : Int) : Nat :=
  if n < 2 ^ f.fbits then n else (q + f.fbits + f.bias).toNat * 2 ^ f.fbits + (n - 2 ^ f.fbits)

theorem codeOf_of_lt {f : NumFmt} {n : Nat} (q : Int) (h : n < 2 ^ f.fbits) : codeOf f n q = n := if_pos h

/-- The exponent field of a normal code, and the fraction beside it. -/
theorem codeOf_fields {f : NumFmt} {n : Nat} {q : Int} (h : Fits f n q) (hn : 2 ^ f.fbits ≤ n) :
    ∃ ex fr, 0 < ex ∧ fr < 2 ^ f.fbits ∧ codeOf f n q = ex * 2 ^ f.fbits + fr ∧ n = 2 ^ f.fbits + fr
      ∧ q = (ex : Int) - f.bias - f.fbits := by
  obtain ⟨hlt, -, hle⟩ := h
  unfold lowExp at hle
  rw [pow_succ] at hlt
  exact ⟨(q + f.fbits + f.bias).toNat, n - 2 ^ f.fbits, by omega, by omega, if_neg (by omega), by omega, by omega⟩

theorem fields_div_mod {b ex fr : Nat} (h : fr < b) : (ex * b + fr) / b = ex ∧ (ex * b + fr) % b = fr := by
  rw [Nat.mul_comm, Nat.mul_add_div (by omega), Nat.div_eq_of_lt h, Nat.mul_add_mod, Nat.mod_eq_of_lt h]
  exact ⟨rfl, rfl⟩

/-- R39: such a code stands for its significand and exponent. -/
theorem magNum_codeOf {f : NumFmt} {n : Nat} {q : Int} (h : Fits f n q) (hmax : codeOf f n q ≤ f.maxCode) (s : Bool) :
    magNum f s (codeOf f n q) = .fin s n q := by
  have hgt : ¬codeOf f n q > f.maxCode := by omega
  simp only [magNum, hgt, decide_false, Bool.and_false, Bool.false_eq_true, if_false]
  by_cases hn : n < 2 ^ f.fbits
  · rw [codeOf_of_lt q hn, Nat.div_eq_of_lt hn, Nat.mod_eq_of_lt hn, h.low hn, if_pos rfl, lowExp]
  · obtain ⟨ex, fr, hex, hfr, hc, rfl, rfl⟩ := codeOf_fields h (by omega)
    obtain ⟨hd, hm⟩ := fields_div_mod (ex := ex) hfr
    rw [hc, hd, hm, if_neg (by omega)]

/-- The significand and the exponent of the largest finite value. -/
theorem exists_maxCode {f : NumFmt} (hf : f.tapered = false) :
    ∃ n q, Fits f n q ∧ 2 ^ f.fbits ≤ n ∧ codeOf f n q = f.maxCode ∧ numOf f f.maxCode = .fin false n q := by
  have h : ∃ n q, Fits f n q ∧ 2 ^ f.fbits ≤ n ∧ codeOf f n q = f.maxCode := by
    cases f
    case f32 => exact ⟨0xFFFFFF, 104, ⟨by decide, by decide, by decide⟩, by decide, by decide⟩
    case bf16 => exact ⟨0xFF, 120, ⟨by decide, by decide, by decide⟩, by decide, by decide⟩
    case f16 => exact ⟨0x7FF, 5, ⟨by decide, by decide, by decide⟩, by decide, by decide⟩
    case e5m2 => exact ⟨7, 13, ⟨by decide, by decide, by decide⟩, by decide, by decide⟩
    case e4m3 => exact ⟨14, 5, ⟨by decide, by decide, by decide⟩, by decide, by decide⟩
    case e2m3 => exact ⟨15, -1, ⟨by decide, by decide, by decide⟩, by decide, by decide⟩
    case e2m1 => exact ⟨3, 1, ⟨by decide, by decide, by decide⟩, by decide, by decide⟩
    all_goals cases hf
  obtain ⟨n, q, hfits, hn, hc⟩ := h
  refine ⟨n, q, hfits, hn, hc, ?_⟩
  have := numOf_signPart_add hf false (maxCode_lt_signBit f)
  rw [show signPart f false = 0 from rfl, Nat.zero_add] at this
  rw [this, ← hc, magNum_codeOf hfits hc.le]

/-- Codes rise with their values. -/
theorem codeOf_le_codeOf {f : NumFmt} {n n' : Nat} {q q' : Int} (h : Fits f n q) (h' : Fits f n' q')
    (hn' : 2 ^ f.fbits ≤ n') (hv : (n : ℚ) * (2 : ℚ) ^ q ≤ n' * (2 : ℚ) ^ q') : codeOf f n q ≤ codeOf f n' q' := by
  obtain ⟨ex', fr', hex', hfr', hc', rfl, hq'⟩ := codeOf_fields h' hn'
  rw [hc']
  by_cases hn : n < 2 ^ f.fbits
  · rw [codeOf_of_lt q hn]
    nlinarith
  obtain ⟨ex, fr, -, hfr, hc, rfl, hq⟩ := codeOf_fields h (by omega)
  rw [hc]
  rcases lt_trichotomy ex ex' with hlt | rfl | hgt
  · nlinarith
  · rw [hq, ← hq', mul_le_mul_iff_left₀ (by positivity), Nat.cast_le] at hv
    omega
  · exfalso
    have hstep : (2 : ℚ) ^ q' * 2 ≤ (2 : ℚ) ^ q := by
      rw [← zpow_add_one₀ (two_ne_zero' ℚ)]
      exact zpow_le_zpow_right₀ one_le_two (by omega)
    have hfrq : (fr' : ℚ) < 2 ^ f.fbits := by exact_mod_cast hfr'
    have h0 : (0 : ℚ) < 2 ^ q' := by positivity
    push_cast at hv
    have hfr0 : (0 : ℚ) ≤ fr * 2 ^ q := by positivity
    have hb : (0 : ℚ) < 2 ^ f.fbits := by positivity
    nlinarith

/-! ## The unit of a value -/

/-- R47: values of the size of m × 2^e are rounded to multiples of 2 to this. -/
def unitExp (f : NumFmt) (m : Nat) (e : Int) : Int := max ((Nat.log2 m : Int) + e) (1 - (f.bias : Int)) - f.fbits

theorem two_pow_log2_le {m : Nat} (hm : m ≠ 0) (e : Int) : (2 : ℚ) ^ ((Nat.log2 m : Int) + e) ≤ m * (2 : ℚ) ^ e := by
  rw [zpow_add₀ (two_ne_zero' ℚ), zpow_natCast]
  have : (2 : ℚ) ^ Nat.log2 m ≤ m := by exact_mod_cast Nat.log2_self_le hm
  gcongr

theorem lt_two_pow_log2 (m : Nat) (e : Int) : m * (2 : ℚ) ^ e < (2 : ℚ) ^ ((Nat.log2 m : Int) + 1 + e) := by
  rw [zpow_add₀ (two_ne_zero' ℚ)]
  have : (m : ℚ) < (2 : ℚ) ^ ((Nat.log2 m : Int) + 1) := by exact_mod_cast Nat.lt_log2_self
  gcongr

theorem two_pow_mul_two_pow (k : Nat) (t : Int) : ((2 ^ k : Nat) : ℚ) * (2 : ℚ) ^ t = (2 : ℚ) ^ (k + t) := by
  rw [zpow_add₀ (two_ne_zero' ℚ), zpow_natCast]
  push_cast
  rfl

theorem lowExp_le_unitExp (f : NumFmt) (m : Nat) (e : Int) : lowExp f ≤ unitExp f m e := by
  unfold lowExp unitExp
  omega

section
variable (f : NumFmt) (md : Rm) (s : Bool) {m : Nat} (e : Int)

/-- A rounding gives no more bits than a significand has, but for a carry. -/
theorem roundShift_unitExp_le : (roundShift md s m (unitExp f m e - e)).1 ≤ 2 ^ (f.fbits + 1) := by
  refine roundShift_le md s ((lt_two_pow_log2 m e).le.trans ?_)
  rw [two_pow_mul_two_pow]
  exact zpow_le_zpow_right₀ one_le_two (by unfold unitExp; omega)

/-- It gives fewer only at the exponent of subnormal codes. -/
theorem unitExp_of_roundShift_lt (hm : m ≠ 0) (h : (roundShift md s m (unitExp f m e - e)).1 < 2 ^ f.fbits) :
    unitExp f m e = lowExp f := by
  by_contra hne
  have htop : (f.fbits : Int) + unitExp f m e = (Nat.log2 m : Int) + e := by
    unfold unitExp lowExp at *
    omega
  refine absurd (le_roundShift md s ?_) (Nat.not_le.mpr h)
  rw [two_pow_mul_two_pow, htop]
  exact two_pow_log2_le hm e

/-! ## The carry -/

/-- A significand of one bit too many, which a rounding up may leave, at the next exponent. -/
def carried (f : NumFmt) (r : Nat) (t : Int) : Nat × Int :=
  (if r = 2 ^ (f.fbits + 1) then 2 ^ f.fbits else r, if r = 2 ^ (f.fbits + 1) then t + 1 else t)

theorem numQ_carried (r : Nat) (t : Int) : numQ (.fin s (carried f r t).1 (carried f r t).2) = numQ (.fin s r t) := by
  unfold carried
  split_ifs with h
  · rw [numQ_fin, numQ_fin, h, two_pow_mul_two_pow, two_pow_mul_two_pow]
    congr 2
    push_cast
    ring
  · rfl

theorem fits_carried {f : NumFmt} {r : Nat} {t : Int} (hr : r ≤ 2 ^ (f.fbits + 1)) (hlow : r < 2 ^ f.fbits → t = lowExp f)
    (ht : lowExp f ≤ t) : Fits f (carried f r t).1 (carried f r t).2 := by
  unfold carried
  split_ifs with h
  · exact ⟨by dsimp only; rw [pow_succ]; have := Nat.two_pow_pos f.fbits; omega, fun h => absurd h (lt_irrefl _), by dsimp only; omega⟩
  · exact ⟨by dsimp only; omega, hlow, ht⟩

/-- R47: the significand and exponent of the rounded value. -/
def roundedSig (f : NumFmt) (md : Rm) (s : Bool) (m : Nat) (e : Int) : Nat × Int :=
  carried f (roundShift md s m (unitExp f m e - e)).1 (unitExp f m e)

theorem fits_roundedSig (hm : m ≠ 0) : Fits f (roundedSig f md s m e).1 (roundedSig f md s m e).2 :=
  fits_carried (roundShift_unitExp_le f md s e) (unitExp_of_roundShift_lt f md s e hm) (lowExp_le_unitExp f m e)

theorem numQ_roundedSig : numQ (.fin s (roundedSig f md s m e).1 (roundedSig f md s m e).2)
    = numQ (.fin s (roundShift md s m (unitExp f m e - e)).1 (unitExp f m e)) := numQ_carried f s _ _

end

/-! ## Within the range -/

/-- R47: a value within the range is rounded within it. -/
theorem codeOf_roundedSig_le {f : NumFmt} (hf : f.tapered = false) (md : Rm) (s : Bool) {m : Nat} {e : Int} (hm : m ≠ 0)
    (hle : (m : ℚ) * (2 : ℚ) ^ e ≤ numQ (numOf f f.maxCode)) :
    codeOf f (roundedSig f md s m e).1 (roundedSig f md s m e).2 ≤ f.maxCode := by
  obtain ⟨n, q, hfits, hn, hc, hmax⟩ := exists_maxCode hf
  have hval : numQ (.fin false n q) = n * (2 : ℚ) ^ q := by rw [numQ_fin]; exact one_mul _
  rw [hmax, hval] at hle
  have ht : unitExp f m e ≤ q := by
    have hlt : (2 : ℚ) ^ ((Nat.log2 m : Int) + e) < (2 : ℚ) ^ ((f.fbits + 1 : Nat) + q) := by
      rw [← two_pow_mul_two_pow _ q]
      refine ((two_pow_log2_le hm e).trans hle).trans_lt ?_
      have : (n : ℚ) < (2 ^ (f.fbits + 1) : Nat) := by exact_mod_cast hfits.lt
      gcongr
    have := (zpow_lt_zpow_iff_right₀ one_lt_two).mp hlt
    have := hfits.le
    unfold unitExp lowExp at *
    omega
  rw [← hc]
  refine codeOf_le_codeOf (fits_roundedSig f md s e hm) hfits hn ?_
  rw [← shiftLeft_mul_zpow n ht] at hle
  have hr : ((roundShift md s m (unitExp f m e - e)).1 : ℚ) * (2 : ℚ) ^ unitExp f m e ≤ n * (2 : ℚ) ^ q := by
    rw [← shiftLeft_mul_zpow n ht]
    have : ((roundShift md s m (unitExp f m e - e)).1 : ℚ) ≤ (n <<< (q - unitExp f m e).toNat : Nat) := by
      exact_mod_cast roundShift_le md s hle
    gcongr
  rw [← abs_numQ_fin s, numQ_roundedSig, abs_numQ_fin]
  exact hr

/-- R47, R52: the code and the flags of a value within the range; UF stands where a subnormal result is inexact. -/
theorem encB_of_le {f : NumFmt} {md : Rm} (hmd : ∀ i, md ≠ .dith i) (sat s : Bool) {m : Nat} {e : Int} {code : Nat}
    (hcode : codeOf f (roundedSig f md s m e).1 (roundedSig f md s m e).2 = code) (hle : code ≤ f.maxCode) :
    encB f md sat s m e = (signPart f s + code, (if (roundShift md s m (unitExp f m e - e)).2 then fNX else 0)
      ||| (if (roundShift md s m (unitExp f m e - e)).2 && 0 < code && code < 2 ^ f.fbits then fUF else 0)) := by
  subst hcode
  have hgt : ¬codeOf f (roundedSig f md s m e).1 (roundedSig f md s m e).2 > f.maxCode := Nat.not_lt.mpr hle
  cases md with
  | dith i => exact absurd rfl (hmd i)
  | rne | rz | rup | rdn => exact if_neg hgt

/-- R46: NX alone says that the result is inexact, and none but NX and UF stands. -/
theorem inRange_flags (nx a b : Bool) :
    (((if nx then fNX else 0) ||| (if nx && a && b then fUF else 0)) &&& 0x1000 ≠ 0 ↔ nx = true)
      ∧ ((if nx then fNX else 0) ||| (if nx && a && b then fUF else 0)) &&& 0x6700 = 0 := by
  revert nx a b
  decide

/-- R47: a value within the range, rounded: its code, what that stands for, and its flags. -/
structure Rounded (f : NumFmt) (md : Rm) (s : Bool) (m : Nat) (e : Int) (r : Nat × Word) : Prop where
  code : ∃ c ≤ f.maxCode, r.1 = signPart f s + c
  isFin : (numOf f r.1).isFin = true
  value : numQ (numOf f r.1) = numQ (.fin s (roundShift md s m (unitExp f m e - e)).1 (unitExp f m e))
  inexact : r.2 &&& 0x1000 ≠ 0 ↔ numQ (numOf f r.1) ≠ numQ (.fin s m e)
  others : r.2 &&& 0x6700 = 0

theorem rounded_encNum {f : NumFmt} (hf : f.tapered = false) {md : Rm} (hmd : ∀ i, md ≠ .dith i) (sat s : Bool) {m : Nat} {e : Int}
    (hm : m ≠ 0) (hle : (m : ℚ) * (2 : ℚ) ^ e ≤ numQ (numOf f f.maxCode)) :
    Rounded f md s m e (encNum f md sat (.fin s m e)) := by
  have hcode := codeOf_roundedSig_le hf md s hm hle
  have henc : encNum f md sat (.fin s m e) = encB f md sat s m e := by simp [encNum, hm, hf]
  have hnum := (numOf_signPart_add hf s (hcode.trans_lt (maxCode_lt_signBit f))).trans
    (magNum_codeOf (fits_roundedSig f md s e hm) hcode s)
  have hval := numQ_roundedSig f md s e (m := m)
  rw [henc, encB_of_le hmd sat s rfl hcode]
  obtain ⟨hnx, hrest⟩ := inRange_flags (roundShift md s m (unitExp f m e - e)).2 _ _
  refine ⟨⟨_, hcode, rfl⟩, by rw [hnum]; rfl, by rw [hnum, hval], ?_, hrest⟩
  rw [hnum, hval, ← roundShift_inexact_iff]
  exact hnx

end Sys2Proof.Machine
end

