-- ==== Sys2Proof/Proofs/RoundedValues.lean ====
section
/-! The numeric functions by exact values (R38, R47, R50, R56, R58, R115, R116, R119, R122): what their results stand for. -/

namespace Sys2Proof.Machine

/-! ## The classes of a .f32 code (R39, R40) -/

/-- The magnitude of a .f32 word. -/
def magW (a : Word) : Nat := a.toNat % 2 ^ 31

theorem magW_lt (a : Word) : magW a < NumFmt.signBit .f32 := Nat.mod_lt _ (by norm_num)

theorem word_eq_signPart_add (a : Word) : a.toNat = signPart .f32 (a.getLsbD 31) + magW a := by
  have h : a.toNat < 2 ^ 32 := a.isLt
  have hbit : a.getLsbD 31 = decide (2 ^ 31 ≤ a.toNat) := by
    rw [BitVec.getLsbD, Nat.testBit_eq_decide_div_mod_eq, decide_eq_decide]
    omega
  simp only [hbit, signPart, decide_eq_true_iff, magW, show NumFmt.signBit .f32 = 2 ^ 31 from rfl]
  split_ifs <;> omega

theorem numOf_word (a : Word) : numOf .f32 a.toNat = magNum .f32 (a.getLsbD 31) (magW a) := by
  conv_lhs => rw [word_eq_signPart_add a]
  exact numOf_signPart_add rfl _ (magW_lt a)

theorem numOf_word_nan {a : Word} (h : 0x7F800000 < magW a) : numOf .f32 a.toNat = .nan (decide (magW a < 0x7FC00000)) := by
  have hlt : magW a < 2 ^ 31 := magW_lt a
  have hgt : magW a > 0x7F7FFFFF := by omega
  have hfr : magW a % 8388608 ≠ 0 := by omega
  have hsig : magW a % 8388608 < 4194304 ↔ magW a < 0x7FC00000 := by omega
  rw [numOf_word]
  simp [magNum, NumFmt.hasInf, NumFmt.maxCode, NumFmt.fbits, hgt, hfr, hsig]

theorem numOf_word_inf {a : Word} (h : magW a = 0x7F800000) : numOf .f32 a.toNat = .inf (a.getLsbD 31) := by
  rw [numOf_word, h]
  rfl

theorem numOf_word_fin {a : Word} (h : magW a < 0x7F800000) :
    ∃ m e, numOf .f32 a.toNat = .fin (a.getLsbD 31) m e ∧ m < 2 ^ 24 := by
  have hgt : ¬magW a > 0x7F7FFFFF := by omega
  rw [numOf_word]
  simp only [magNum, NumFmt.hasInf, NumFmt.maxCode, NumFmt.fbits, hgt, decide_false, Bool.and_false, Bool.false_eq_true, if_false]
  by_cases h0 : magW a / 2 ^ 23 = 0
  · refine ⟨_, _, if_pos h0, ?_⟩
    omega
  · refine ⟨_, _, if_neg h0, ?_⟩
    omega

theorem isNan_word (a : Word) : (numOf .f32 a.toNat).isNan = true ↔ 0x7F800000 < magW a := by
  rcases lt_trichotomy (magW a) 0x7F800000 with h | h | h
  · obtain ⟨m, e, hfin, -⟩ := numOf_word_fin h
    simp [hfin, Num.isNan, h.le]
  · simp [numOf_word_inf h, Num.isNan, h]
  · simp [numOf_word_nan h, Num.isNan, h]

/-- R40: NV of a signalling operand. -/
theorem sig_word (a : Word) :
    (numOf .f32 a.toNat).sig = if 0x7F800000 < magW a ∧ magW a < 0x7FC00000 then 0x100 else 0 := by
  rcases lt_trichotomy (magW a) 0x7F800000 with h | h | h
  · obtain ⟨m, e, hfin, -⟩ := numOf_word_fin h
    rw [hfin, if_neg (by omega)]
    rfl
  · rw [numOf_word_inf h, if_neg (by omega)]
    rfl
  · rw [numOf_word_nan h]
    by_cases hq : magW a < 0x7FC00000 <;> simp [hq, h] <;> rfl

/-! ## Minimum and maximum (R116) -/

theorem codeKey_word (a : Word) : codeKey .f32 a.toNat = if a.getLsbD 31 then -(magW a : Int) - 1 else (magW a : Int) := by
  have hmod : a.toNat % 2 ^ NumFmt.bits .f32 = a.toNat := Nat.mod_eq_of_lt a.isLt
  have hsplit := word_eq_signPart_add a
  have hle := signBit_le_iff .f32 (a.getLsbD 31) (magW_lt a)
  simp only [codeKey, hmod]
  rw [hsplit]
  simp only [hle]
  cases a.getLsbD 31 <;> simp [signPart]

theorem fminmax_word_nan {a b : Word} (h : 0x7F800000 < magW a ∨ 0x7F800000 < magW b) (mx : Bool) :
    fminmax .f32 mx a.toNat b.toNat = (0x7FC00000, (numOf .f32 a.toNat).sig ||| (numOf .f32 b.toNat).sig) := by
  have hnan : ((numOf .f32 a.toNat).isNan || (numOf .f32 b.toNat).isNan) = true := by
    rw [Bool.or_eq_true, isNan_word, isNan_word]
    exact h
  exact if_pos hnan

theorem fminmax_word {a b : Word} (ha : magW a ≤ 0x7F800000) (hb : magW b ≤ 0x7F800000) (mx : Bool) :
    fminmax .f32 mx a.toNat b.toNat
      = ((if decide (codeKey .f32 a.toNat ≤ codeKey .f32 b.toNat) = mx then b else a).toNat, 0) := by
  have hnan : ¬((numOf .f32 a.toNat).isNan || (numOf .f32 b.toNat).isNan) = true := by
    rw [Bool.or_eq_true, isNan_word, isNan_word]
    omega
  have hmod (w : Word) : w.toNat % 2 ^ NumFmt.bits .f32 = w.toNat := Nat.mod_eq_of_lt w.isLt
  refine (if_neg hnan).trans ?_
  simp only [hmod, beq_iff_eq]
  split_ifs <;> rfl

/-! ## Rounding to an integral value (R119) -/

theorem numQ_multiple (s : Bool) (m : Nat) {e t : Int} (h : t ≤ e) : ∃ n : Int, numQ (.fin s m e) = n * (2 : ℚ) ^ t :=
  ⟨_, (sgnd_shiftLeft_mul_zpow s m h).symm⟩

theorem numQ_integer (s : Bool) (n : Nat) : numQ (.fin s n 0) = sgnd s n := by
  rw [numQ_fin, sgnd_cast, zpow_zero, mul_one]

/-- An integral value of a .f32 significand's size is a .f32 value. -/
theorem encNum_integral (s : Bool) {n : Nat} (hn : n ≤ 2 ^ 23) :
    ∃ c < NumFmt.signBit .f32, (encNum .f32 .rne false (.fin s n 0)).1 = signPart .f32 s + c
      ∧ numQ (numOf .f32 (signPart .f32 s + c)) = numQ (.fin s n 0) := by
  by_cases h0 : n = 0
  · subst h0
    refine ⟨0, by decide, by simp [encNum, signPart, NumFmt.tapered], ?_⟩
    rw [numOf_signPart_add rfl s (by decide)]
    simp [magNum, numQ]
  · have hlog := (Nat.log2_lt h0).mpr (show n < 2 ^ 24 by omega)
    have hunit : unitExp .f32 n 0 ≤ 0 := by
      simp only [unitExp, NumFmt.bias, NumFmt.fbits]
      omega
    have hmax : numOf .f32 (NumFmt.maxCode .f32) = .fin false 0xFFFFFF 104 := by decide
    have hle : (n : ℚ) * (2 : ℚ) ^ (0 : Int) ≤ numQ (numOf .f32 (NumFmt.maxCode .f32)) := by
      have : (n : ℚ) ≤ 2 ^ 23 := by exact_mod_cast hn
      rw [hmax, zpow_zero, mul_one]
      refine this.trans ?_
      norm_num [numQ]
    obtain ⟨⟨c, hc, hcode⟩, -, hval, -, -⟩ := rounded_encNum rfl (by simp) false s h0 hle (md := .rne)
    exact ⟨c, hc.trans_lt (by decide), hcode, by rw [← hcode, hval, numQ_roundShift_of_le _ _ _ hunit]⟩

theorem frndBits_word_nan (md : Rm) {a : Word} (h : 0x7F800000 < magW a) :
    frndBits md a.toNat = (0x7FC00000, if 0x7F800000 < magW a ∧ magW a < 0x7FC00000 then 0x100 else 0) := by
  simp only [frndBits, numOf_word_nan h, h, true_and, decide_eq_true_iff]
  rfl

theorem frndBits_word_inf (md : Rm) {a : Word} (h : magW a = 0x7F800000) : frndBits md a.toNat = (a.toNat, 0) := by
  simp only [frndBits, numOf_word_inf h]

/-- R119: a rounded value is integral, has its operand's sign, and sets NX where it differs. -/
theorem frndBits_word_fin (md : Rm) {a : Word} (h : magW a < 0x7F800000) :
    roundsTo md (numQ (numOf .f32 a.toNat)) 0 (numQ (numOf .f32 (frndBits md a.toNat).1))
      ∧ (frndBits md a.toNat).1 / 2 ^ 31 = a.toNat / 2 ^ 31
      ∧ (frndBits md a.toNat).2
          = if numQ (numOf .f32 (frndBits md a.toNat).1) = numQ (numOf .f32 a.toNat) then 0 else 0x1000 := by
  obtain ⟨m, e, hfin, hm⟩ := numOf_word_fin h
  by_cases hint : m = 0 ∨ 0 ≤ e
  · have hr : frndBits md a.toNat = (a.toNat, 0) := by
      simp only [frndBits, hfin]
      exact if_pos (by simpa using hint)
    rw [hr, if_pos rfl]
    refine ⟨roundsTo_self md ?_, rfl, rfl⟩
    rw [hfin]
    rcases hint with rfl | he
    · exact ⟨0, by simp [numQ]⟩
    · exact numQ_multiple _ m he
  · rw [not_or, not_le] at hint
    obtain ⟨hm0, he⟩ := hint
    have hr : frndBits md a.toNat = ((encNum .f32 .rne false (.fin (a.getLsbD 31) (roundShift md (a.getLsbD 31) m (0 - e)).1 0)).1,
        if (roundShift md (a.getLsbD 31) m (0 - e)).2 then fNX else 0) := by
      simp only [frndBits, hfin, zero_sub]
      exact if_neg (by simp [hm0, he])
    have hn : (roundShift md (a.getLsbD 31) m (0 - e)).1 ≤ 2 ^ 23 := by
      refine roundShift_le md _ ?_
      have hmq : (m : ℚ) ≤ 2 ^ 24 := by exact_mod_cast hm.le
      have heq : (2 : ℚ) ^ e ≤ 2 ^ (-1 : Int) := zpow_le_zpow_right₀ one_le_two (by omega)
      calc (m : ℚ) * (2 : ℚ) ^ e ≤ 2 ^ 24 * 2 ^ (-1 : Int) := by gcongr
        _ = ((2 ^ 23 : Nat) : ℚ) * (2 : ℚ) ^ (0 : Int) := by norm_num
    obtain ⟨c, hc, hcode, hval⟩ := encNum_integral (a.getLsbD 31) hn
    rw [hr, hfin, hcode, hval]
    refine ⟨roundsTo_roundShift md _ m e 0, ?_, ?_⟩
    · have hmag := magW_lt a
      rw [word_eq_signPart_add a]
      simp only [show NumFmt.signBit .f32 = 2 ^ 31 from rfl] at hc hmag
      cases a.getLsbD 31 <;> simp [signPart, NumFmt.signBit, NumFmt.bits] <;> omega
    · have hx := roundShift_inexact_iff md (a.getLsbD 31) m e 0
      split_ifs with h1 h2 h2
      · exact absurd h2 (hx.mp h1)
      · rfl
      · rfl
      · exact absurd (hx.mpr h2) h1

/-! ## Conversion to an integer (R50, R122) -/

/-- The least value of an integer type (R37). -/
def intLo (signed : Bool) (w : Nat) : Int := if signed then -2 ^ (w - 1) else 0

/-- The greatest value of an integer type (R37). -/
def intHi (signed : Bool) (w : Nat) : Int := if signed then 2 ^ (w - 1) - 1 else 2 ^ w - 1

/-- The bits of an integer in a register. -/
def intBits (w : Nat) (n : Int) : Nat := (n % 2 ^ w).toNat

theorem intLo_le_zero (signed : Bool) (w : Nat) : intLo signed w ≤ 0 := by
  unfold intLo
  split_ifs <;> simp

theorem intHi_nonneg (signed : Bool) (w : Nat) : 0 ≤ intHi signed w := by
  have h (k : Nat) : (0 : Int) < 2 ^ k := by positivity
  unfold intHi
  split_ifs
  · have := h (w - 1); omega
  · have := h w; omega

theorem leDy_natCast (m : Nat) (e : Int) (k : Nat) : leDy m e k 0 = false ↔ (k : ℚ) < m * (2 : ℚ) ^ e := by
  rw [← Bool.not_eq_true, leDy_iff, zpow_zero, mul_one, not_le]

theorem below_iff (s : Bool) (m : Nat) (e : Int) {lo : Int} (hlo : lo ≤ 0) :
    (s && !leDy m e lo.natAbs 0) = true ↔ numQ (.fin s m e) < lo := by
  obtain ⟨k, rfl⟩ : ∃ k : Nat, lo = -(k : Int) := ⟨lo.natAbs, by omega⟩
  have hv : (0 : ℚ) ≤ m * (2 : ℚ) ^ e := by positivity
  have hk : (0 : ℚ) ≤ k := by positivity
  rw [Bool.and_eq_true, Bool.not_eq_true', Int.natAbs_neg, Int.natAbs_natCast, leDy_natCast, numQ_fin]
  cases s
  · refine iff_of_false (fun h => Bool.false_ne_true h.1) (not_lt.mpr ?_)
    simp only [signQ, Bool.false_eq_true, if_false]
    push_cast
    linarith
  · simp [signQ]

theorem above_iff (s : Bool) (m : Nat) (e : Int) {hi : Int} (hhi : 0 ≤ hi) :
    (!s && !leDy m e hi.natAbs 0) = true ↔ (hi : ℚ) < numQ (.fin s m e) := by
  obtain ⟨k, rfl⟩ := Int.eq_ofNat_of_zero_le hhi
  have hv : (0 : ℚ) ≤ m * (2 : ℚ) ^ e := by positivity
  have hk : (0 : ℚ) ≤ k := by positivity
  rw [Bool.and_eq_true, Bool.not_eq_true', Bool.not_eq_true', Int.natAbs_natCast, leDy_natCast, numQ_fin]
  cases s
  · simp [signQ]
  · refine iff_of_false (fun h => Bool.noConfusion h.1) (not_lt.mpr ?_)
    simp only [signQ, if_true]
    push_cast
    linarith

/-- R50: what a finite value converts to. -/
theorem intOf_fin (md : Rm) (signed : Bool) (w : Nat) (s : Bool) (m : Nat) (e : Int) :
    intOf md signed w (.fin s m e)
      = if numQ (.fin s m e) < intLo signed w then (intBits w (intLo signed w), 0x100)
        else if (intHi signed w : ℚ) < numQ (.fin s m e) then (intBits w (intHi signed w), 0x100)
        else (intBits w (sgnd s (roundShift md s m (0 - e)).1), if (roundShift md s m (0 - e)).2 then 0x1000 else 0) := by
  simp only [← below_iff s m e (intLo_le_zero signed w), ← above_iff s m e (intHi_nonneg signed w), zero_sub]
  rfl

/-! ## Packed strings (R38) -/

theorem packN_lt (w : Nat) (l : List Nat) : packN w l < 2 ^ (w * l.length) := by
  induction l with
  | nil => simp [packN]
  | cons x l ih =>
    have hx : x % 2 ^ w < 2 ^ w := Nat.mod_lt _ (by positivity)
    have hstep : 2 ^ w * (packN w l + 1) ≤ 2 ^ w * 2 ^ (w * l.length) := Nat.mul_le_mul_left _ ih
    rw [packN, List.length_cons, Nat.mul_succ, pow_add]
    linarith

theorem unpackN_packN (w : Nat) (l : List Nat) : unpackN w l.length (packN w l) = l.map (· % 2 ^ w) := by
  induction l with
  | nil => rfl
  | cons x l ih =>
    have hx : x % 2 ^ w < 2 ^ w := Nat.mod_lt _ (by positivity)
    rw [packN, List.length_cons, unpackN, List.map_cons, Nat.add_mul_mod_self_left, Nat.mod_mod,
      Nat.add_mul_div_left _ _ (by positivity), Nat.div_eq_of_lt hx, Nat.zero_add, ih]

/-- R50, R122: a value within the range of the type is rounded. -/
theorem intOf_in_range (md : Rm) {signed : Bool} {w : Nat} {s : Bool} {m : Nat} {e : Int}
    (hlo : (intLo signed w : ℚ) ≤ numQ (.fin s m e)) (hhi : numQ (.fin s m e) ≤ intHi signed w) :
    ∃ n : Int, roundsTo md (numQ (.fin s m e)) 0 n
      ∧ intOf md signed w (.fin s m e) = (intBits w n, if (n : ℚ) = numQ (.fin s m e) then 0 else 0x1000) := by
  have hx := roundShift_inexact_iff md s m e 0
  have hr := roundsTo_roundShift md s m e 0
  rw [numQ_integer] at hx hr
  refine ⟨_, hr, ?_⟩
  rw [intOf_fin, if_neg (not_lt.mpr hlo), if_neg (not_lt.mpr hhi)]
  by_cases h : (roundShift md s m (0 - e)).2 = true
  · rw [if_pos h, if_neg (hx.mp h)]
  · rw [if_neg h, if_pos (not_not.mp (mt hx.mpr h))]

/-- R50: a value below the range becomes its least. -/
theorem intOf_below (md : Rm) {signed : Bool} {w : Nat} {s : Bool} {m : Nat} {e : Int} (h : numQ (.fin s m e) < intLo signed w) :
    intOf md signed w (.fin s m e) = (intBits w (intLo signed w), 0x100) := by
  rw [intOf_fin, if_pos h]

/-- R50: a value above the range becomes its greatest. -/
theorem intOf_above (md : Rm) {signed : Bool} {w : Nat} {s : Bool} {m : Nat} {e : Int}
    (h : (intHi signed w : ℚ) < numQ (.fin s m e)) : intOf md signed w (.fin s m e) = (intBits w (intHi signed w), 0x100) := by
  have hle : (intLo signed w : ℚ) ≤ intHi signed w := by
    exact_mod_cast (intLo_le_zero signed w).trans (intHi_nonneg signed w)
  rw [intOf_fin, if_neg (not_lt.mpr (hle.trans h.le)), if_pos h]

/-- Settles O20: each function is exact, or one rounding of an exact value. -/
theorem roundedValues : Obligations.RoundedValues := by
  unfold Obligations.RoundedValues
  refine ⟨?exact, ?inRange, ?codes, ?integers, fun w l => ⟨unpackN_packN w l, packN_lt w l⟩, ?slices⟩
  case exact =>
    intro rd s s' s'' m m' m'' e e' e'' x y z
    exact ⟨((isVal_fin s m e).add rd (isVal_fin s' m' e')).eq, ((isVal_fin s m e).mul (isVal_fin s' m' e')).eq,
      ((isVal_fin s m e).fma rd (isVal_fin s' m' e') (isVal_fin s'' m'' e'')).eq, addNum_fin_flags _ _ _ _ _ _ _, rfl,
      fmaNum_fin_flags _ _ _ _ _ _ _ _ _ _⟩
  case inRange =>
    intro f md s m e hf hm hmd x r hle
    rw [abs_numQ_fin] at hle
    have hr := rounded_encNum hf hmd false s hm hle
    exact ⟨hr.value ▸ roundsTo_roundShift md s m e (unitExp f m e), hr.isFin, hr.inexact, hr.others⟩
  case codes =>
    intro a b md mag key nv r
    refine ⟨fun h mx => ?_, fun ha hb => ?_, fun h => ?_, fun h => ?_, fun h _ => frndBits_word_fin md h⟩
    · rw [fminmax_word_nan h, sig_word, sig_word]
      rfl
    · have hkey (w : Word) : key w = codeKey .f32 w.toNat := (codeKey_word w).symm
      rw [fminmax_word ha hb, fminmax_word ha hb, hkey, hkey]
      by_cases hab : codeKey .f32 a.toNat ≤ codeKey .f32 b.toNat <;> simp [hab]
    · exact frndBits_word_nan md h
    · exact frndBits_word_inf md h
  case integers =>
    intro md signed w m s e _ _ lo hi x bits
    exact ⟨intOf_in_range md, intOf_below md, intOf_above md, rfl, rfl, fun _ => rfl⟩
  case slices =>
    intro p a b sa sb acc t ks j k hks hacc hscale
    obtain ⟨s, m, e, hv, hq⟩ := (isVal_of_isFin hacc).add false (isVal_sliceScaled p hscale (isVal_sliceSum p a b hks))
    exact ⟨s, m, e, by rw [sliceF_eq, ← hv], by rw [← hv, hq]⟩

end Sys2Proof.Machine
end

