-- ==== Sys2Proof/Proofs/WordsOfFields.lean ====
section
/-! Fields put back together (R63 to R68): the code of what a code decodes to, and each format's word from the fields read of it. -/

namespace Sys2Proof

/-! ## Selectors -/

/-- One step down a table of codes: the entry of code `k`, or one of those below it. -/
theorem code_of_step {α : Type} {code : α → Nat} {n k : Nat} {a m : α} {o : Option α} (ha : code a = k)
    (ho : o = some m → code m = n) (h : (if n = k then some a else o) = some m) : code m = n := by
  by_cases hn : n = k
  · rw [if_pos hn] at h
    cases h
    exact ha.trans hn.symm
  · rw [if_neg hn] at h
    exact ho h

theorem SatMode.code_of {n : Nat} {m : SatMode} : SatMode.of n = some m → m.code = n := by
  repeat refine code_of_step rfl ?_
  nofun
theorem Sgn.code_of {n : Nat} {m : Sgn} : Sgn.of n = some m → m.code = n := by
  repeat refine code_of_step rfl ?_
  nofun
theorem MoviKind.code_of {n : Nat} {m : MoviKind} : MoviKind.of n = some m → m.code = n := by
  repeat refine code_of_step rfl ?_
  nofun
theorem Cond.code_of {n : Nat} {m : Cond} : Cond.of n = some m → m.code = n := by
  repeat refine code_of_step rfl ?_
  nofun
theorem FCond.code_of {n : Nat} {m : FCond} : FCond.of n = some m → m.code = n := by
  repeat refine code_of_step rfl ?_
  nofun
theorem RmSel.code_of {n : Nat} {m : RmSel} : RmSel.of n = some m → m.code = n := by
  repeat refine code_of_step rfl ?_
  nofun
theorem FrndSel.code_of {n : Nat} {m : FrndSel} : FrndSel.of n = some m → m.code = n := by
  repeat refine code_of_step rfl ?_
  nofun
theorem ClsFmt.code_of {n : Nat} {m : ClsFmt} : ClsFmt.of n = some m → m.code = n := by
  repeat refine code_of_step rfl ?_
  nofun
theorem MxFmt.code_of {n : Nat} {m : MxFmt} : MxFmt.of n = some m → m.code = n := by
  repeat refine code_of_step rfl ?_
  nofun
theorem RedOp.code_of {n : Nat} {m : RedOp} : RedOp.of n = some m → m.code = n := by
  repeat refine code_of_step rfl ?_
  nofun
theorem ShflMode.code_of {n : Nat} {m : ShflMode} : ShflMode.of n = some m → m.code = n := by
  repeat refine code_of_step rfl ?_
  nofun
theorem VoteMode.code_of {n : Nat} {m : VoteMode} : VoteMode.of n = some m → m.code = n := by
  repeat refine code_of_step rfl ?_
  nofun
theorem IntTy.code_of {n : Nat} {m : IntTy} : IntTy.of n = some m → m.code = n := by
  repeat refine code_of_step rfl ?_
  nofun
theorem RawTy.code_of {n : Nat} {m : RawTy} : RawTy.of n = some m → m.code = n := by
  repeat refine code_of_step rfl ?_
  nofun
theorem FloatTy.code_of {n : Nat} {m : FloatTy} : FloatTy.of n = some m → m.code = n := by
  repeat refine code_of_step rfl ?_
  nofun
theorem PackFmt.code_of {n : Nat} {m : PackFmt} : PackFmt.of n = some m → m.code = n := by
  repeat refine code_of_step rfl ?_
  nofun
theorem ConvTy.code_of {n : Nat} {m : ConvTy} : ConvTy.of n = some m → m.code = n := by
  repeat refine code_of_step rfl ?_
  nofun

/-- R181: an operation on the types of `of`, at code `c`. -/
theorem GOp.code_of_map {α : Type} {of : Nat → Option α} {code : α → Nat} {k : α → GOp} {b c t : Nat} {o : GOp}
    (hb : b = c) (hof : ∀ m, of t = some m → code m = t) (hk : ∀ m, (k m).code = c ∧ (k m).ty = code m)
    (h : (of t).map k = some o) : o.code = b ∧ o.ty = t := by
  obtain ⟨m, hm, rfl⟩ := Option.map_eq_some_iff.mp h
  exact ⟨(hk m).1.trans hb.symm, (hk m).2.trans (hof m hm)⟩

theorem GOp.code_of_float {k o : GOp} {b c t : Nat} (hb : b = c) (h3 : t = 3) (hc : k.code = c) (ht : k.ty = 3)
    (h : some k = some o) : o.code = b ∧ o.ty = t := by
  cases h
  exact ⟨hc.trans hb.symm, ht.trans h3.symm⟩

/-- R181: the operation's code, and its type's. -/
theorem GOp.code_of {b t : Nat} {o : GOp} (h : GOp.of b t = some o) : o.code = b ∧ o.ty = t := by
  unfold GOp.of at h
  split_ifs at h with h0 t0 h1 t1 h2 t2 h3 h4 h5
  · exact code_of_float h0 t0 rfl rfl h
  · exact code_of_map h0 (fun _ => IntTy.code_of) (fun _ => ⟨rfl, rfl⟩) h
  · exact code_of_float h1 t1 rfl rfl h
  · exact code_of_map h1 (fun _ => IntTy.code_of) (fun _ => ⟨rfl, rfl⟩) h
  · exact code_of_float h2 t2 rfl rfl h
  · exact code_of_map h2 (fun _ => IntTy.code_of) (fun _ => ⟨rfl, rfl⟩) h
  · exact code_of_map h3 (fun _ => RawTy.code_of) (fun _ => ⟨rfl, rfl⟩) h
  · exact code_of_map h4 (fun _ => RawTy.code_of) (fun _ => ⟨rfl, rfl⟩) h
  · exact code_of_map h5 (fun _ => RawTy.code_of) (fun _ => ⟨rfl, rfl⟩) h

theorem dcOf_eq_some {n : Nat} {d : Fin 7} (h : dcOf n = some d) : d.val = n := by
  unfold dcOf at h; split at h <;> cases h; rfl
theorem fin3Of_eq_some {n : Nat} {d : Fin 3} (h : fin3Of n = some d) : d.val = n := by
  unfold fin3Of at h; split at h <;> cases h; rfl
theorem fin4Of_eq_some {n : Nat} {d : Fin 4} (h : fin4Of n = some d) : d.val = n := by
  unfold fin4Of at h; split at h <;> cases h; rfl

/-- A one-bit field read as a flag. -/
theorem b1_bit {n : Nat} (h : n < 2) : b1 (n == 1) = n := by
  interval_cases n <;> rfl

theorem b1_mod_two (n : Nat) : b1 (n % 2 == 1) = n % 2 := b1_bit (Nat.mod_lt n Nat.two_pos)

/-! ## Words -/

variable {w op : Nat}

theorem hdr_fP {n : Nat} (h : w / 0x1000000 = op) (k : n = w % 0x100000) : hdr op (fP w) + n = w := by
  simp only [hdr, fP, Fin.ofNat]
  omega

theorem hdr_fP_alone (h : w / 0x1000000 = op) (k : w % 0x100000 = 0) : hdr op (fP w) = w := by
  simp only [hdr, fP, Fin.ofNat]
  omega

theorem encA_fmtA {m : Nat} (h : w / 0x1000000 = op) (k : m = w % 4) : encA op (fmtA w) m = w := by
  simp only [encA, hdr, fmtA, fP, fD, fA, fB, Fin.ofNat]
  omega

theorem encU_fmtU {b m : Nat} (h : w / 0x1000000 = op) (k : b * 4 + m = w % 256) : encU op (fmtU w) b m = w := by
  simp only [encU, hdr, fmtU, fP, fD, fA, Fin.ofNat]
  omega

theorem encB_fmtB (h : w / 0x1000000 = op) : encB op (fmtB w) = w := by
  simp only [encB, hdr, fmtB, fP, fD, fA, Fin.ofNat, BitVec.toNat_ofNat]
  omega

theorem encC_fmtC {f : FmtC} {x : Nat} (h : w / 0x1000000 = op) (hf : fmtC w = some f) (k : x = w % 2) : encC op f x = w := by
  obtain ⟨dc, hdc, rfl⟩ := Option.map_eq_some_iff.mp hf
  have := dcOf_eq_some hdc
  simp only [encC, hdr, fP, fD, fA, fLook, nDc, Fin.ofNat] at *
  omega

theorem encC'_fields {d x : Nat} {dc : Fin 7} (h : w / 0x1000000 = op) (hd : d = w / 0x4000 % 64) (hdc : dcOf (nDc w) = some dc)
    (k : x = w % 2) : encC' op (fP w) d (fA w) (fLook w) dc x = w := by
  have := dcOf_eq_some hdc
  simp only [encC', hdr, fP, fA, fLook, nDc, Fin.ofNat] at *
  omega

theorem encJ_fmtJ (h : w / 0x1000000 = op) : encJ op (fmtJ w) = w := by
  simp only [encJ, hdr, fmtJ, fP, Fin.ofNat, BitVec.toNat_ofNat]
  omega

theorem encM_fmtM {f : FmtM} {low : Nat} (h : w / 0x1000000 = op) (hf : fmtM w = some f) (k : low = w % 16) :
    encM op f low = w := by
  obtain ⟨acc, hacc, rfl⟩ := Option.map_eq_some_iff.mp hf
  have := fin4Of_eq_some hacc
  simp only [encM, hdr, fP, fA10, fB4, n16, Fin.ofNat] at *
  omega

theorem encP_fmtP {cc : Nat} (h : w / 0x1000000 = op) (k : cc = w % 16) : encP op (fmtP w) cc = w := by
  simp only [encP, hdr, fmtP, fP, f16, fA10, fB4, Fin.ofNat]
  omega

theorem encQ_fmtQ (h : w / 0x1000000 = op) (k : w % 64 = 0) : encQ op (fmtQ w) = w := by
  simp only [encQ, hdr, fmtQ, fP, f16, Fin.ofNat, b1_mod_two]
  omega

/-! ## Extension words -/

variable {x : Nat}

/-- R66: an XO word from its four fields. -/
theorem encXO_fields {c e t off : Nat} (hc : c = x % 64) (he : e = x / 64 % 64) (ht : t = x / 0x1000 % 16)
    (ho : off = x / 0x10000) : encXO c e t off = x := by
  simp only [encXO]
  omega

/-- An optional extension word: none where the x bit is 0, and then `x` is 0. -/
theorem xmOf_eq_some {o : Option XM} (hx : x < 2 ^ 32) (h0 : nX w = 0 → x = 0) (h : xmOf w x = some o) :
    xBit o = w % 2 ∧ (encXM o).getD 0 = x := by
  unfold xmOf at h
  split at h
  next h1 => cases h; exact ⟨h1.symm, (h0 h1).symm⟩
  next h1 =>
    obtain ⟨m, hm, rfl⟩ := Option.map_eq_some_iff.mp h
    have := fin3Of_eq_some hm
    simp only [nX, xBit, encXM, Option.isSome_some, if_true, Option.getD_some, BitVec.toNat_ofNat] at *
    omega

theorem xm0Of_eq_some {o : Option (BitVec 30)} (hx : x < 2 ^ 32) (h0 : nX w = 0 → x = 0) (h : xm0Of w x = some o) :
    xBit o = w % 2 ∧ (encXM0 o).getD 0 = x := by
  unfold xm0Of at h
  split at h
  next h1 => cases h; exact ⟨h1.symm, (h0 h1).symm⟩
  next h1 =>
    split at h <;> cases h
    simp only [nX, xBit, encXM0, Option.isSome_some, if_true, Option.getD_some, BitVec.toNat_ofNat] at *
    omega

theorem xoOff_eq_some {o : Option (BitVec 16)} (hx : x < 2 ^ 32) (h0 : nX w = 0 → x = 0) (h : xoOff w x = some o) :
    xBit o = w % 2 ∧ (encOff o).getD 0 = x := by
  unfold xoOff at h
  split at h
  next h1 => cases h; exact ⟨h1.symm, (h0 h1).symm⟩
  next h1 =>
    split at h <;> cases h
    simp only [nX, xOff, xBit, encOff, Option.isSome_some, if_true, Option.getD_some, BitVec.toNat_ofNat] at *
    omega

theorem xoBar_eq_some {o : Option BarXO} (hx : x < 2 ^ 32) (h0 : nX w = 0 → x = 0) (h : xoBar w x = some o) :
    xBit o = w % 2 ∧ (encBarXO o).getD 0 = x := by
  unfold xoBar at h
  split at h
  next h1 => cases h; exact ⟨h1.symm, (h0 h1).symm⟩
  next h1 =>
    split at h <;> cases h
    simp only [nX, xC, xOff, xBit, encBarXO, encXO, Fin.ofNat, Option.isSome_some, if_true, Option.getD_some,
      BitVec.toNat_ofNat] at *
    omega

end Sys2Proof
end


-- ==== Sys2Proof/Proofs/EncodeDecode.lean ====
section
/-! Every word that decodes is the encoding of what it decodes to (R63 to R68): the decoder's table, opcode by opcode. -/

namespace Sys2Proof

/-- The words of `i` are `w` and, as its extension, `x`. -/
def Words (w x : Nat) (i : Instr) : Prop := encodeWord i = w ∧ (encodeExt i).getD 0 = x

/-- An instruction with an extension word. -/
theorem Words.withExt {w x y : Nat} {i : Instr} (h : encodeWord i = w) (e : encodeExt i = some y) (k : y = x) : Words w x i :=
  ⟨h, by rw [e]; exact k⟩

/-- Of `w` and `x`, `o` decodes nothing but the instruction whose words they are. -/
def AllWords (w x : Nat) (o : Option Instr) : Prop := ∀ i, o = some i → Words w x i

namespace AllWords

variable {w x : Nat}

theorem nothing : AllWords w x none := nofun

theorem one {i : Instr} (h : Words w x i) : AllWords w x (some i) := fun _ e => Option.some.inj e ▸ h

theorem map {α : Type} {o : Option α} {f : α → Instr} (h : ∀ a, o = some a → Words w x (f a)) :
    AllWords w x (o.map f) := by
  intro i e
  obtain ⟨a, ha, rfl⟩ := Option.map_eq_some_iff.mp e
  exact h a ha

theorem bind {α : Type} {o : Option α} {f : α → Option Instr} (h : ∀ a, o = some a → AllWords w x (f a)) :
    AllWords w x (o.bind f) := by
  intro i e
  obtain ⟨a, ha, hi⟩ := Option.bind_eq_some_iff.mp e
  exact h a ha i hi

/-- R64: a check of fixed fields. -/
theorem when {c : Bool} {o : Option Instr} (h : c = true → AllWords w x o) : AllWords w x (when c o) := by
  cases c
  · exact nothing
  · exact h rfl

theorem whenEq {α : Type} [BEq α] [LawfulBEq α] {a b : α} {o : Option Instr} (h : a = b → AllWords w x o) :
    AllWords w x (Sys2Proof.when (a == b) o) :=
  when fun k => h (eq_of_beq k)

theorem whenLt {a b : Nat} {o : Option Instr} (h : a < b → AllWords w x o) : AllWords w x (Sys2Proof.when (decide (a < b)) o) :=
  when fun k => h (of_decide_eq_true k)

/-- Checks are made one after the other. -/
theorem and {c d : Bool} {o : Option Instr} (h : AllWords w x (Sys2Proof.when c (Sys2Proof.when d o))) :
    AllWords w x (Sys2Proof.when (c && d) o) := by
  cases c
  · exact nothing
  · exact h

end AllWords

/-! ## Words of the formats -/

section

variable {w op : Nat} (h : w / 0x1000000 = op)
include h

/-- R184, R185: a barrier's register, number and mode. -/
theorem word_barrier {n m : Nat} (kd : w / 0x4000 % 64 = 0) (kn : n = nB w) (km : m = nM w) :
    hdr op (fP w) + (fA w).val * 0x100 + n * 4 + m = w := by
  simp only [hdr, fP, fA, nB, nM, Fin.ofNat] at *
  omega

/-- R148: a hint is its low three opcode bits and 24 free ones. -/
theorem word_hint {c : Nat} (h8 : c < 8) (hc : op = 0xF0 + c) :
    (0xF0 + (Fin.ofNat 8 c).val) * 0x1000000 + (BitVec.ofNat 24 w).toNat = w := by
  simp only [Fin.ofNat, BitVec.toNat_ofNat]
  omega

/-- R91: the modes of `bfx` are the other way round. -/
theorem word_bfx (hop : op = 0x15) (k : nM w < 2) : encodeWord (.bfx (fmtA w) (if nM w = 1 then .s else .n)) = w := by
  subst hop
  by_cases h1 : nM w = 1
  · rw [if_pos h1]
    exact encA_fmtA h h1.symm
  · rw [if_neg h1]
    exact encA_fmtA h (by simp only [nM] at *; omega)

theorem encU_fields {b m : Nat} (kb : b = nB w) (km : m = nM w) : encU op (fmtU w) b m = w :=
  encU_fmtU h (by simp only [nB, nM] at *; omega)

/-- An unused field and a flag. -/
theorem encU_flag (kb : nB w = 0) (km : nM w < 2) : encU op (fmtU w) 0 (b1 (nM w == 1)) = w :=
  encU_fields h kb.symm (b1_bit km)

/-- R122: the types of a conversion. -/
theorem encU_types {sf df : Nat} (ks : sf = w / 16 % 16) (kd : df = w % 16) : encU op (fmtU w) 0 0 + sf * 16 + df = w := by
  simp only [encU, hdr, fmtU, fP, fD, fA, Fin.ofNat]
  omega

end

theorem encXO_reg {x : Nat} (hx : x < 2 ^ 32) (h : x / 64 % 0x4000000 = 0) : encXO (xC x).val 0 0 0 = x :=
  encXO_fields rfl (by omega) (by omega) (by omega)

/-- R66, R186: words of an atomic: its fields, and an extension word of its registers, type and offset. -/
theorem atomF_fields {w x op e t : Nat} {f : AtomF} (hx : x < 2 ^ 32) (h : w / 0x1000000 = op) (hf : atomF w x = some f)
    (he : e = (xE x).val) (ht : t = xT x) : encC op f.f 1 = w ∧ encXO f.c.val e t f.off.toNat = x := by
  unfold atomF when at hf
  split at hf
  next k =>
    obtain ⟨c, hc, rfl⟩ := Option.map_eq_some_iff.mp hf
    exact ⟨encC_fmtC h hc (eq_of_beq k).symm, encXO_fields rfl he ht (Nat.mod_eq_of_lt (by omega))⟩
  next => cases hf

/-- R75: words of `loop`, whose trip count is a register or the extension word. -/
theorem loop_words {w x : Nat} {lv : Fin 3} (hx : x < 2 ^ 32) (h : w / 0x1000000 = 0x38) (k : w / 2 % 8 = 0)
    (e : nX w = 0 ∨ w / 0x1000 % 64 = 0) (hl : fin3Of (w / 0x40000 % 4) = some lv) (h0 : nX w = 0 → x = 0) :
    Words w x (.loop (fP w) lv (if nX w = 0 then .reg (Fin.ofNat 64 (w / 0x1000)) else .lit (BitVec.ofNat 32 x))
      (Fin.ofNat 256 (w / 16))) := by
  have := fin3Of_eq_some hl
  by_cases hn : nX w = 0
  · rw [if_pos hn]
    refine ⟨?_, (h0 hn).symm⟩
    delta encodeWord
    simp only [hdr, fP, nX, Fin.ofNat] at *
    omega
  · rw [if_neg hn]
    refine ⟨?_, Nat.mod_eq_of_lt hx⟩
    delta encodeWord
    simp only [hdr, fP, nX, Fin.ofNat] at *
    omega

/-! ## Extension words of an opcode (R68) -/

theorem hasExt_of_op {w op : Nat} (h : w / 0x1000000 = op) :
    hasExt w = (extAlways (op % 256) || (extByX (op % 256) && nX w == 1)) := by
  simp only [hasExt, h]

section

variable {w x op : Nat} (hx : hasExt w = true ∨ x = 0) (h : w / 0x1000000 = op)
include hx h

/-- An opcode that takes no extension word. -/
theorem ext_zero (ha : extAlways (op % 256) = false) (hb : extByX (op % 256) = false) : 0 = x := by
  rw [hasExt_of_op h, ha, hb] at hx
  simpa [eq_comm] using hx

/-- An opcode that takes one where its x bit is 1. -/
theorem ext_eq_zero_of_x (ha : extAlways (op % 256) = false) (k : nX w = 0) : x = 0 := by
  rw [hasExt_of_op h, ha, k] at hx
  simpa using hx

end

/-- R61: no unassigned opcode takes one. -/
theorem noExt_of_unassigned {op : Nat} (h : op < 256) (ha : opcodeAssigned op = false) :
    extAlways (op % 256) = false ∧ extByX (op % 256) = false := by
  simp only [opcodeAssigned, extAlways, extByX, Bool.or_eq_false_iff, Bool.and_eq_false_iff, decide_eq_false_iff_not,
    beq_eq_false_iff_ne] at *
  omega

theorem rowA_unassigned : ∀ c < 16, opcodeAssigned (0xA0 + c) = false := by decide
theorem rowF_unassigned : ∀ c < 16, ¬c < 8 → opcodeAssigned (0xF0 + c) = false := by decide
theorem hint_noExt : ∀ c < 8, extAlways ((0xF0 + c) % 256) = false ∧ extByX ((0xF0 + c) % 256) = false := by decide

/-! ## The rows -/

section

variable {w x : Nat} (hx : hasExt w = true ∨ x = 0)
include hx

/-- R61: a word of an unassigned opcode stands for itself, and no extension word follows it. -/
theorem unassigned_words {op : Nat} (hw : w < 2 ^ 32) (h : w / 0x1000000 = op) (ha : opcodeAssigned op = false) :
    AllWords w x (some (.unassignedOpcode (BitVec.ofNat 32 w))) :=
  have ⟨h1, h2⟩ := noExt_of_unassigned (by omega) ha
  .one ⟨Nat.mod_eq_of_lt hw, ext_zero hx h h1 h2⟩

variable (hx32 : x < 2 ^ 32)
include hx32

theorem row0_words : ∀ {c : Nat}, w / 0x1000000 = 0x00 + c → AllWords w x (row0 c w x)
  | 0, h => .whenEq fun k => .one ⟨hdr_fP_alone h k, ext_zero hx h rfl rfl⟩
  | 1, h | 2, h => .map fun _ k => ⟨encA_fmtA h (SatMode.code_of k), ext_zero hx h rfl rfl⟩
  | 4, h | 6, h | 7, h | 8, h | 9, h => .map fun _ k => ⟨encA_fmtA h (Sgn.code_of k), ext_zero hx h rfl rfl⟩
  | 3, h | 12, h | 13, h | 14, h | 15, h => .whenEq fun k => .one ⟨encA_fmtA h k.symm, ext_zero hx h rfl rfl⟩
  | 5, h => .and <| .whenEq fun k => .whenEq fun e => .one (.withExt (encA_fmtA h k.symm) rfl (encXO_reg hx32 e))
  | 10, h | 11, h => .and <| .whenEq fun k => .whenLt fun e => .one ⟨encU_flag h k e, ext_zero hx h rfl rfl⟩
  | _ + 16, _ => .nothing

theorem row1_words : ∀ {c : Nat}, w / 0x1000000 = 0x10 + c → AllWords w x (row1 c w x)
  | 0, h | 7, h | 8, h | 9, h | 11, h => .whenEq fun k => .one ⟨encU_fmtU h k.symm, ext_zero hx h rfl rfl⟩
  | 1, h | 2, h | 3, h | 6, h | 13, h | 14, h => .whenEq fun k => .one ⟨encA_fmtA h k.symm, ext_zero hx h rfl rfl⟩
  | 4, h => .whenLt fun k => .one ⟨encA_fmtA h (b1_bit k), ext_zero hx h rfl rfl⟩
  | 5, h => .whenLt fun k => .one ⟨word_bfx h rfl k, ext_zero hx h rfl rfl⟩
  | 10, h => .and <| .and <| .whenLt fun k => .whenEq fun e1 => .whenEq fun e2 =>
    .one (.withExt (encA_fmtA h (b1_bit k)) rfl (encXO_fields (by omega) (by omega) rfl (by omega)))
  | 12, h | 15, h => .one ⟨encA_fmtA h rfl, ext_zero hx h rfl rfl⟩
  | _ + 16, _ => .nothing

theorem row2_words : ∀ {c : Nat}, w / 0x1000000 = 0x20 + c → AllWords w x (row2 c w x)
  | 0, h => .whenEq fun k => .one ⟨encU_fmtU h k.symm, ext_zero hx h rfl rfl⟩
  | 1, h | 2, h => .map fun _ k => ⟨encP_fmtP h (Cond.code_of k), ext_zero hx h rfl rfl⟩
  | 3, h | 4, h | 5, h => .whenEq fun k => .one ⟨encQ_fmtQ h k, ext_zero hx h rfl rfl⟩
  | 6, h | 7, h => .and <| .whenEq fun k => .whenEq fun e =>
    .one ⟨by delta encodeWord; simp only [hdr, fP, f16, Fin.ofNat, b1_mod_two]; omega, ext_zero hx h rfl rfl⟩
  | 8, h => .whenEq fun k => .map fun _ e =>
    ⟨by delta encodeWord; simp only [hdr, fP, fD, Fin.ofNat, MoviKind.code_of e, nI]; omega, Nat.mod_eq_of_lt hx32⟩
  | 9, h | 10, h | 11, h | 12, h | 13, h | 14, h | 15, h => .one ⟨encB_fmtB h, ext_zero hx h rfl rfl⟩
  | _ + 16, _ => .nothing

theorem row3_words (hw : w < 2 ^ 32) : ∀ {c : Nat}, c < 16 → w / 0x1000000 = 0x30 + c → AllWords w x (row3 c w x)
  | 0, _, h => .map fun _ k =>
    ⟨by delta encodeWord; simp only [hdr, fP, f16, fA10, Fin.ofNat, BitVec.toNat_ofNat, Cond.code_of k]; omega,
      ext_zero hx h rfl rfl⟩
  | 1, _, h | 2, _, h | 4, _, h => .one ⟨encJ_fmtJ h, ext_zero hx h rfl rfl⟩
  | 3, _, h | 5, _, h => .and <| .whenEq fun k => .whenEq fun e =>
    .one ⟨by delta encodeWord; simp only [hdr, fP, fA, Fin.ofNat]; omega, ext_zero hx h rfl rfl⟩
  | 6, _, h | 7, _, h | 12, _, h => .whenEq fun k => .one ⟨hdr_fP_alone h k, ext_zero hx h rfl rfl⟩
  | 8, _, h => .and <| .whenEq fun k => .when fun e => .map fun _ hl =>
    loop_words hx32 h k (by simpa using e) hl (ext_eq_zero_of_x hx h rfl)
  | 9, _, h => .whenEq fun k => .map fun _ hl => ⟨hdr_fP h (by rw [fin3Of_eq_some hl]; omega), ext_zero hx h rfl rfl⟩
  | 10, _, h => .whenEq fun k => .one ⟨by delta encodeWord; simp only [hdr, fP, Fin.ofNat]; omega, ext_zero hx h rfl rfl⟩
  | 11, _, h | 13, _, h | 14, _, h => .whenEq fun k =>
    .one ⟨hdr_fP h (by simp only [BitVec.toNat_ofNat]; omega), ext_zero hx h rfl rfl⟩
  | 15, _, h => unassigned_words hx hw h rfl
  | _ + 16, hc, _ => absurd hc (by omega)

theorem row4_words : ∀ {c : Nat}, w / 0x1000000 = 0x40 + c → AllWords w x (row4 c w x)
  | 0, h | 1, h | 2, h => .map fun _ k => ⟨encA_fmtA h (RmSel.code_of k), ext_zero hx h rfl rfl⟩
  | 3, h => .whenEq fun e => .map fun _ k => .withExt (encA_fmtA h (RmSel.code_of k)) rfl (encXO_reg hx32 e)
  | 4, h | 5, h => .whenEq fun k => .one ⟨encA_fmtA h k.symm, ext_zero hx h rfl rfl⟩
  | 6, h | 7, h => .and <| .whenEq fun k => .whenLt fun e => .one ⟨encU_flag h k e, ext_zero hx h rfl rfl⟩
  | 8, h => .whenEq fun k => .map fun _ e => ⟨encU_fields h k.symm (ClsFmt.code_of e), ext_zero hx h rfl rfl⟩
  | 9, h => .whenEq fun k => .map fun _ e => ⟨encU_fields h k.symm (FrndSel.code_of e), ext_zero hx h rfl rfl⟩
  | 10, h => .map fun _ k => ⟨encP_fmtP h (FCond.code_of k), ext_zero hx h rfl rfl⟩
  | 11, h | 12, h => .bind fun _ k => .map fun _ e =>
    ⟨encU_types h (ConvTy.code_of k) (ConvTy.code_of e), ext_zero hx h rfl rfl⟩
  | 13, h | 14, h => .whenLt fun k => .one ⟨encA_fmtA h (b1_bit k), ext_zero hx h rfl rfl⟩
  | 15, h => .and <| .whenLt fun k => .whenEq fun e => .one (.withExt (encA_fmtA h (b1_bit k)) rfl (encXO_reg hx32 e))
  | _ + 16, _ => .nothing

theorem row5_words (hw : w < 2 ^ 32) : ∀ {c : Nat}, c < 16 → w / 0x1000000 = 0x50 + c → AllWords w x (row5 c w x)
  | 0, _, h => .whenEq fun k => .map fun _ e =>
    ⟨encU_fmtU h (by simp only [PackFmt.code_of e, b1_mod_two, nB] at *; omega), ext_zero hx h rfl rfl⟩
  | 1, _, h => .whenEq fun k => .map fun _ e =>
    ⟨encU_fmtU h (by simp only [PackFmt.code_of e, nB] at *; omega), ext_zero hx h rfl rfl⟩
  | 2, _, h => .and <| .and <| .whenEq fun k => .whenEq fun e1 => .whenEq fun e2 => .map fun _ e =>
    ⟨encU_fmtU h (by simp only [MxFmt.code_of e, b1_mod_two, nB, nM, Fin.ofNat] at *; omega),
      encXO_fields rfl rfl e1.symm (by omega)⟩
  | 3, _, h => .and <| .and <| .and <| .whenEq fun k => .whenEq fun k' => .whenEq fun e1 => .whenEq fun e2 => .map fun _ e =>
    .withExt (encU_fmtU h (by simp only [MxFmt.code_of e, nB, nM, Fin.ofNat] at *; omega))
      rfl (encXO_fields rfl rfl e1.symm (by omega))
  | 4, _, h | 5, _, h | 6, _, h | 7, _, h | 8, _, h | 9, _, h | 10, _, h | 11, _, h | 12, _, h | 13, _, h | 14, _, h | 15, _, h =>
    unassigned_words hx hw h rfl
  | _ + 16, hc, _ => absurd hc (by omega)

omit hx32 in
theorem row6_words (hw : w < 2 ^ 32) : ∀ {c : Nat}, c < 16 → w / 0x1000000 = 0x60 + c → AllWords w x (row6 c w x)
  | 0, _, h | 1, _, h | 2, _, h | 3, _, h | 4, _, h | 5, _, h | 6, _, h | 7, _, h | 8, _, h | 9, _, h | 10, _, h | 11, _, h =>
    .whenEq fun k => .map fun _ hf => ⟨encC_fmtC h hf k.symm, ext_zero hx h rfl rfl⟩
  | 12, _, h | 13, _, h | 14, _, h | 15, _, h =>
    unassigned_words hx hw h rfl
  | _ + 16, hc, _ => absurd hc (by omega)

theorem row7_words (hw : w < 2 ^ 32) : ∀ {c : Nat}, c < 16 → w / 0x1000000 = 0x70 + c → AllWords w x (row7 c w x)
  | 0, _, h | 1, _, h | 2, _, h | 3, _, h | 4, _, h | 5, _, h | 6, _, h | 8, _, h | 9, _, h | 10, _, h | 11, _, h | 12, _, h =>
    .bind fun _ hf => .map fun _ ho =>
      have ⟨hb, he⟩ := xmOf_eq_some hx32 (ext_eq_zero_of_x hx h rfl) ho
      ⟨encC_fmtC h hf hb, he⟩
  | 7, _, h | 13, _, h | 14, _, h | 15, _, h =>
    unassigned_words hx hw h rfl
  | _ + 16, hc, _ => absurd hc (by omega)

theorem row8_words (hw : w < 2 ^ 32) : ∀ {c : Nat}, c < 16 → w / 0x1000000 = 0x80 + c → AllWords w x (row8 c w x)
  | 0, _, h | 1, _, h | 2, _, h => .whenEq fun e => .bind fun _ hf => .map fun _ t =>
    have ⟨hw, he⟩ := atomF_fields hx32 h hf (congrArg Fin.val e.symm) (IntTy.code_of t)
    .withExt hw rfl he
  | 3, _, h | 4, _, h | 5, _, h | 6, _, h => .whenEq fun e => .bind fun _ hf => .map fun _ t =>
    have ⟨hw, he⟩ := atomF_fields hx32 h hf (congrArg Fin.val e.symm) (RawTy.code_of t)
    .withExt hw rfl he
  | 7, _, h => .bind fun _ hf => .map fun _ t => 
    have ⟨hw, he⟩ := atomF_fields hx32 h hf rfl (RawTy.code_of t)
    .withExt hw rfl he
  | 8, _, h => .whenEq fun e => .bind fun _ hf => .map fun _ t =>
    have ⟨hw, he⟩ := atomF_fields hx32 h hf (congrArg Fin.val e.symm) (FloatTy.code_of t)
    .withExt hw rfl he
  | 9, _, h => .and <| .and <| .whenEq fun k => .whenEq fun e => .whenEq fun k' =>
    .bind fun _ hdc => .bind fun _ ho => .bind fun _ hl => .map fun _ t =>
      ⟨encC'_fields h (by rw [fin3Of_eq_some hl, RedOp.code_of ho]; omega) hdc k.symm,
        encXO_fields rfl (congrArg Fin.val e).symm (FloatTy.code_of t) (Nat.mod_eq_of_lt (by omega))⟩
  | 10, _, h | 11, _, h | 12, _, h | 13, _, h | 14, _, h | 15, _, h =>
    unassigned_words hx hw h rfl
  | _ + 16, hc, _ => absurd hc (by omega)

theorem row9_words (hw : w < 2 ^ 32) : ∀ {c : Nat}, c < 16 → w / 0x1000000 = 0x90 + c → AllWords w x (row9 c w x)
  | 0, _, h => .and <| .whenEq fun e1 => .whenEq fun e2 => .bind fun _ k => .map fun _ t =>
    .withExt (encA_fmtA h (ShflMode.code_of k)) rfl (encXO_fields rfl e1.symm (RawTy.code_of t) (by omega))
  | 1, _, h => .and <| .whenEq fun k => .whenEq fun e => .map fun _ m =>
    .withExt (encU_fields h k.symm (VoteMode.code_of m)) rfl (encXO_reg hx32 e)
  | 2, _, h => .and <| .and <| .whenEq fun k => .whenEq fun e1 => .whenEq fun e2 => .map fun _ o =>
    .withExt (encU_fields h (GOp.code_of o).1 k.symm) rfl (encXO_fields rfl e1.symm (GOp.code_of o).2 (by omega))
  | 3, _, h => .and <| .and <| .whenLt fun k => .whenEq fun e1 => .whenEq fun e2 => .map fun _ o =>
    .withExt (encU_fields h (GOp.code_of o).1 (b1_bit k)) rfl (encXO_fields rfl e1.symm (GOp.code_of o).2 (by omega))
  | 4, _, h => .and <| .whenEq fun k => .whenEq fun e => .one (.withExt (hdr_fP_alone h k) rfl (encXO_reg hx32 e))
  | 5, _, h | 6, _, h => .and <| .and <| .and <| .whenEq fun k1 => .whenLt fun k2 => .whenLt fun k3 => .whenEq fun e =>
    .one ⟨word_barrier h k1 (by simp only [nB, Fin.ofNat] at *; omega) (b1_bit k3), e.symm.trans (Nat.mod_eq_of_lt hx32)⟩
  | 7, _, h | 9, _, h => .and <| .whenEq fun k => .whenEq fun e => .map fun _ hf =>
    .withExt (encC_fmtC h hf k.symm) rfl (encXO_reg hx32 e)
  | 8, _, h => .and <| .and <| .whenEq fun k => .whenEq fun k' => .whenEq fun e => .map fun _ hdc =>
    .withExt (by delta encodeWord; simp only [encC', hdr, fP, fD, fLook, Fin.ofNat, dcOf_eq_some hdc, nDc, nX] at *; omega)
      rfl (encXO_reg hx32 e)
  | 10, _, h | 11, _, h | 12, _, h | 13, _, h | 14, _, h | 15, _, h =>
    unassigned_words hx hw h rfl
  | _ + 16, hc, _ => absurd hc (by omega)

theorem rowB_words : ∀ {c : Nat}, w / 0x1000000 = 0xB0 + c → AllWords w x (rowB c w x)
  | 0, h | 1, h | 2, h | 3, h | 4, h | 9, h => .whenEq fun k => .map fun _ hf =>
    ⟨encM_fmtM h hf (by simp only [b1_mod_two]; omega), ext_zero hx h rfl rfl⟩
  | 5, h => .whenEq fun k => .map fun _ hf => ⟨encM_fmtM h hf (by simp only [b1_mod_two]; omega), ext_zero hx h rfl rfl⟩
  | 6, h | 7, h | 8, h => .whenEq fun k => .map fun _ hf =>
    ⟨encM_fmtM h hf (by simp only [b1_mod_two, Fin.ofNat]; omega), ext_zero hx h rfl rfl⟩
  | 10, h => .whenEq fun k => .map fun _ hn =>
    ⟨by delta encodeWord; simp only [hdr, fP, Fin.ofNat, fin4Of_eq_some hn, n16]; omega, ext_zero hx h rfl rfl⟩
  | 11, h => .whenEq fun k => .bind fun _ hdc => .map fun _ ho =>
    have ⟨hb, he⟩ := xm0Of_eq_some hx32 (ext_eq_zero_of_x hx h rfl) ho
    ⟨encC'_fields h (by simp only [Fin.ofNat]; omega) hdc hb, he⟩
  | 12, h => .whenEq fun k => .bind fun _ hdc => .map fun _ ho =>
    have ⟨hb, he⟩ := xm0Of_eq_some hx32 (ext_eq_zero_of_x hx h rfl) ho
    ⟨encC'_fields h (by simp only [Fin.ofNat, b1_mod_two]; omega) hdc hb, he⟩
  | 13, h => .whenEq fun k => .map fun _ hn =>
    ⟨by delta encodeWord; simp only [hdr, fP, fD, fB, Fin.ofNat, fin4Of_eq_some hn, nM] at *; omega, ext_zero hx h rfl rfl⟩
  | 14, h => .whenEq fun k => .map fun _ hn =>
    ⟨by delta encodeWord; simp only [hdr, fP, fA, fB, Fin.ofNat, fin4Of_eq_some hn, nM] at *; omega, ext_zero hx h rfl rfl⟩
  | 15, h => .and <| .whenEq fun k => .whenEq fun k' => .map fun _ hf =>
    ⟨by delta encodeWord; simp only [hdr, fP, fA, nB, Fin.ofNat, PackFmt.code_of hf, b1_mod_two] at *; omega,
      ext_zero hx h rfl rfl⟩
  | _ + 16, _ => .nothing

theorem rowC_words (hw : w < 2 ^ 32) : ∀ {c : Nat}, c < 16 → w / 0x1000000 = 0xC0 + c → AllWords w x (rowC c w x)
  | 0, _, h => .whenEq fun k => .bind fun _ hdc => .map fun _ ho =>
    have ⟨hb, he⟩ := xoOff_eq_some hx32 (ext_eq_zero_of_x hx h rfl) ho
    ⟨encC'_fields h (by simp only [b1_mod_two]; omega) hdc hb, he⟩
  | 1, _, h => .bind fun _ hdc => .map fun _ ho =>
    have ⟨hb, he⟩ := xoOff_eq_some hx32 (ext_eq_zero_of_x hx h rfl) ho
    ⟨encC'_fields h (by simp only [b1_mod_two, Fin.ofNat]; omega) hdc hb, he⟩
  | 2, _, h | 3, _, h | 4, _, h | 7, _, h => .bind fun _ hf => .map fun _ ho =>
    have ⟨hb, he⟩ := xoOff_eq_some hx32 (ext_eq_zero_of_x hx h rfl) ho
    ⟨encC_fmtC h hf hb, he⟩
  | 5, _, h | 6, _, h => .bind fun _ hf => .map fun _ ho =>
    have ⟨hb, he⟩ := xoBar_eq_some hx32 (ext_eq_zero_of_x hx h rfl) ho
    ⟨encC_fmtC h hf hb, he⟩
  | 8, _, h | 9, _, h | 10, _, h | 11, _, h | 12, _, h | 13, _, h | 14, _, h | 15, _, h =>
    unassigned_words hx hw h rfl
  | _ + 16, hc, _ => absurd hc (by omega)

theorem rowD_words (hw : w < 2 ^ 32) : ∀ {c : Nat}, c < 16 → w / 0x1000000 = 0xD0 + c → AllWords w x (rowD c w x)
  | 0, _, h => .and <| .whenEq fun k => .whenEq fun e => .bind fun _ hf => .map fun _ t =>
    .withExt (encC_fmtC h hf k.symm)
      rfl (encXO_fields rfl (congrArg Fin.val e).symm (RawTy.code_of t) (Nat.mod_eq_of_lt (by omega)))
  | 1, _, h => .and <| .whenEq fun k => .whenEq fun e => .bind fun _ hf => .bind fun _ t => .map fun _ o =>
    .withExt (encC_fmtC h hf k.symm) rfl (encXO_fields rfl rfl (FloatTy.code_of t) (by rw [RedOp.code_of o]; omega))
  | 2, _, h | 5, _, h => .bind fun _ hf => .map fun _ ho =>
    have ⟨hb, he⟩ := xoOff_eq_some hx32 (ext_eq_zero_of_x hx h rfl) ho
    ⟨encC_fmtC h hf hb, he⟩
  | 3, _, h | 6, _, h => .whenEq fun k => .map fun _ hf => ⟨encC_fmtC h hf k.symm, ext_zero hx h rfl rfl⟩
  | 4, _, h => .and <| .whenEq fun k => .whenEq fun e => .map fun _ hf =>
    .withExt (encC_fmtC h hf k.symm) rfl (encXO_fields rfl (by omega) (by omega) (Nat.mod_eq_of_lt (by omega)))
  | 7, _, h | 8, _, h | 9, _, h | 10, _, h | 11, _, h | 12, _, h | 13, _, h | 14, _, h | 15, _, h =>
    unassigned_words hx hw h rfl
  | _ + 16, hc, _ => absurd hc (by omega)

omit hx32 in
theorem rowE_words (hw : w < 2 ^ 32) : ∀ {c : Nat}, c < 16 → w / 0x1000000 = 0xE0 + c → AllWords w x (rowE c w x)
  | 0, _, h => .whenEq fun k =>
    .one ⟨by delta encodeWord; simp only [hdr, fP, fD, Fin.ofNat, BitVec.toNat_ofNat]; omega, ext_zero hx h rfl rfl⟩
  | 1, _, h => .whenEq fun k =>
    .one ⟨by delta encodeWord; simp only [hdr, fP, fA, Fin.ofNat, BitVec.toNat_ofNat]; omega, ext_zero hx h rfl rfl⟩
  | 2, _, h | 3, _, h => .whenEq fun k => .one ⟨hdr_fP_alone h k, ext_zero hx h rfl rfl⟩
  | 4, _, h => .whenEq fun k => .map fun _ hl =>
    ⟨by delta encodeWord; simp only [hdr, fP, Fin.ofNat, fin3Of_eq_some hl, b1_mod_two]; omega, ext_zero hx h rfl rfl⟩
  | 5, _, h | 6, _, h | 7, _, h | 8, _, h | 9, _, h | 10, _, h | 11, _, h | 12, _, h | 13, _, h | 14, _, h | 15, _, h =>
    unassigned_words hx hw h rfl
  | _ + 16, hc, _ => absurd hc (by omega)

/-- The whole table. -/
theorem rawDecode_words (hw : w < 2 ^ 32) : AllWords w x (rawDecode w x) := by
  have hc : w / 0x1000000 % 16 < 16 := Nat.mod_lt _ (by decide)
  have hop (n : Nat) (h : w / 0x10000000 % 16 = n) : w / 0x1000000 = 16 * n + w / 0x1000000 % 16 := by omega
  unfold rawDecode
  dsimp only
  split
  next r => exact row0_words hx hx32 (hop 0 r)
  next r => exact row1_words hx hx32 (hop 1 r)
  next r => exact row2_words hx hx32 (hop 2 r)
  next r => exact row3_words hx hx32 hw hc (hop 3 r)
  next r => exact row4_words hx hx32 (hop 4 r)
  next r => exact row5_words hx hx32 hw hc (hop 5 r)
  next r => exact row6_words hx hw hc (hop 6 r)
  next r => exact row7_words hx hx32 hw hc (hop 7 r)
  next r => exact row8_words hx hx32 hw hc (hop 8 r)
  next r => exact row9_words hx hx32 hw hc (hop 9 r)
  next r => exact rowB_words hx hx32 (hop 11 r)
  next r => exact rowC_words hx hx32 hw hc (hop 12 r)
  next r => exact rowD_words hx hx32 hw hc (hop 13 r)
  next r => exact rowE_words hx hw hc (hop 14 r)
  next r =>
    split
    next h8 =>
      have ⟨ha, hb⟩ := hint_noExt _ h8
      exact .one ⟨word_hint (hop 15 r) h8 rfl, ext_zero hx (hop 15 r) ha hb⟩
    next h8 => exact unassigned_words hx hw (hop 15 r) (rowF_unassigned _ hc h8)
  next =>
    have r : w / 0x10000000 % 16 = 10 := by
      simp only [imp_false] at *
      omega
    exact unassigned_words hx hw (hop 10 r) (rowA_unassigned _ hc)

end

/-- Settles O2: the decoder's table rebuilds each word from the fields read from it. -/
theorem encodeDecodeRoundTrip : Obligations.EncodeDecodeRoundTrip := by
  unfold Obligations.EncodeDecodeRoundTrip
  intro w x i hx h
  obtain ⟨hi, hwf⟩ := Option.filter_eq_some_iff.mp h
  have hx0 : hasExt w.toNat = true ∨ x.toNat = 0 := hx.imp_right fun e => by rw [e]; rfl
  exact ⟨hwf, rawDecode_words hx0 x.isLt w.isLt i hi⟩

end Sys2Proof
end

