-- ==== Sys2Proof/Proofs/DecodeEncode.lean ====
section
/-! Decoding the words of a well-formed instruction gives it back (R60 to R68), format by format. -/

namespace Sys2Proof

/-! ## Rows of the opcode map (R67) -/

/-- The row of the opcode map with high digit `r`. -/
def rowAt (r c w x : Nat) : Option Instr :=
  match r with
  | 0 => row0 c w x
  | 1 => row1 c w x
  | 2 => row2 c w x
  | 3 => row3 c w x
  | 4 => row4 c w x
  | 5 => row5 c w x
  | 6 => row6 c w x
  | 7 => row7 c w x
  | 8 => row8 c w x
  | 9 => row9 c w x
  | 11 => rowB c w x
  | 12 => rowC c w x
  | 13 => rowD c w x
  | 14 => rowE c w x
  | 15 => if c < 8 then some (.hint (Fin.ofNat 8 c) (BitVec.ofNat 24 w)) else some (.unassignedOpcode (BitVec.ofNat 32 w))
  | _ => some (.unassignedOpcode (BitVec.ofNat 32 w))

theorem rawDecode_eq_rowAt (w x : Nat) : rawDecode w x = rowAt (w / 0x10000000 % 16) (w / 0x1000000 % 16) w x := rfl

theorem rawDecode_of_op {w op : Nat} (h : w / 0x1000000 = op) (hop : op < 256) (x : Nat) :
    rawDecode w x = rowAt (op / 16) (op % 16) w x := by
  rw [rawDecode_eq_rowAt, h, show w / 0x10000000 % 16 = op / 16 by omega]

/-- The words of `i` decode to `i`, and an extension word follows where `i` has one. -/
def Reads (i : Instr) : Prop :=
  rawDecode (encodeWord i) ((encodeExt i).getD 0) = some i ∧ hasExt (encodeWord i) = (encodeExt i).isSome

section

variable {i : Instr} {w op : Nat} (h : w / 0x1000000 = op) (hw : encodeWord i = w) (hop : op < 256)
include h hw hop

/-- An opcode that takes no extension word. -/
theorem Reads.short (hx : encodeExt i = none) (ha : (extAlways (op % 256) || extByX (op % 256)) = false)
    (hd : rowAt (op / 16) (op % 16) w 0 = some i) : Reads i := by
  obtain ⟨h1, h2⟩ := Bool.or_eq_false_iff.mp ha
  rw [Reads, hw, hx, hasExt_of_op h, h1, h2]
  exact ⟨(rawDecode_of_op h hop 0).trans hd, rfl⟩

/-- An opcode that always takes one. -/
theorem Reads.long {x : Nat} (hx : encodeExt i = some x) (ha : extAlways (op % 256) = true)
    (hd : rowAt (op / 16) (op % 16) w x = some i) : Reads i := by
  rw [Reads, hw, hx, hasExt_of_op h, ha]
  exact ⟨(rawDecode_of_op h hop x).trans hd, rfl⟩

/-- An opcode that takes one where its x bit is 1. -/
theorem Reads.byX (ha : extAlways (op % 256) = false) (hb : extByX (op % 256) = true)
    (hx : (nX w == 1) = (encodeExt i).isSome) (hd : rowAt (op / 16) (op % 16) w ((encodeExt i).getD 0) = some i) : Reads i := by
  rw [Reads, hw, hasExt_of_op h, ha, hb, Bool.false_or, Bool.true_and]
  exact ⟨(rawDecode_of_op h hop _).trans hd, hx⟩

end

@[simp] theorem when_eq_some {α : Type} {c : Bool} {v : Option α} {i : α} : when c v = some i ↔ c = true ∧ v = some i := by
  cases c <;> simp [when]

/-! ## Fields of an extension word -/

theorem nX_xBit {α : Type} (o : Option α) {w : Nat} (h : nX w = xBit o) : (nX w == 1) = o.isSome := by
  rw [h]
  cases o <;> rfl

theorem xmOf_encXM {w : Nat} (o : Option XM) (h : nX w = xBit o) : xmOf w ((encXM o).getD 0) = some o := by
  cases o with
  | none => simp [xmOf, h, xBit]
  | some m =>
    obtain ⟨hint, off⟩ := m
    have := hint.isLt; have := off.isLt
    have hh : (hint.val * 0x40000000 + off.toNat) / 0x40000000 % 4 = hint.val := by omega
    have ho : BitVec.ofNat 30 (hint.val * 0x40000000 + off.toNat) = off := by
      apply BitVec.eq_of_toNat_eq
      simp only [BitVec.toNat_ofNat]
      omega
    simp [xmOf, h, xBit, encXM, hh, ho, fin3Of_val]

theorem xm0Of_encXM0 {w : Nat} (o : Option (BitVec 30)) (h : nX w = xBit o) : xm0Of w ((encXM0 o).getD 0) = some o := by
  cases o with
  | none => simp [xm0Of, h, xBit]
  | some off =>
    have := off.isLt
    have hh : off.toNat / 0x40000000 % 4 = 0 := by omega
    simp [xm0Of, h, xBit, encXM0, hh]

theorem xoOff_encOff {w : Nat} (o : Option (BitVec 16)) (h : nX w = xBit o) : xoOff w ((encOff o).getD 0) = some o := by
  cases o with
  | none => simp [xoOff, h, xBit]
  | some off => simp [xoOff, h, xBit, encOff, xOff]

theorem encXM_isSome (o : Option XM) : (encXM o).isSome = o.isSome := by cases o <;> rfl
theorem encXM0_isSome (o : Option (BitVec 30)) : (encXM0 o).isSome = o.isSome := by cases o <;> rfl
theorem encOff_isSome (o : Option (BitVec 16)) : (encOff o).isSome = o.isSome := by cases o <;> rfl
theorem encBarXO_isSome (o : Option BarXO) : (encBarXO o).isSome = o.isSome := by cases o <;> rfl

section

variable (c e : Reg) (t : Nat)

theorem encXO_div (e t off : Nat) : encXO c.val e t off / 64 = e + t * 64 + off * 0x400 := by
  simp only [encXO]
  omega

theorem xC_encXO (e t off : Nat) : xC (encXO c.val e t off) = c := by
  apply Fin.ext
  simp only [xC, encXO, Fin.ofNat]
  omega

theorem xE_encXO (off : Nat) : xE (encXO c.val e.val t off) = e := by
  apply Fin.ext
  simp only [xE, encXO, Fin.ofNat]
  omega

theorem xT_encXO {t : Nat} (ht : t < 16) (off : Nat) : xT (encXO c.val e.val t off) = t := by
  simp only [xT, encXO]
  omega

theorem encXO_off {t : Nat} (ht : t < 16) (off : Nat) : encXO c.val e.val t off / 0x10000 = off := by
  simp only [encXO]
  omega

theorem xOff_encXO {t : Nat} (ht : t < 16) (off : BitVec 16) : xOff (encXO c.val e.val t off.toNat) = off := by
  rw [xOff, encXO_off c e ht]
  simp

end

theorem xoBar_encBarXO {w : Nat} (o : Option BarXO) (h : nX w = xBit o) : xoBar w ((encBarXO o).getD 0) = some o := by
  cases o with
  | none => simp [xoBar, h, xBit]
  | some m =>
    have hz : encXO m.c.val 0 0 m.off.toNat / 64 % 0x400 = 0 := by rw [encXO_div]; omega
    have ho : xOff (encXO m.c.val 0 0 m.off.toNat) = m.off := xOff_encXO m.c 0 (by decide) m.off
    rw [show encBarXO (some m) = some (encXO m.c.val 0 0 m.off.toNat) from rfl, Option.getD_some]
    simp [xoBar, h, xBit, hz, ho, xC_encXO]

/-! ## Fields of a word -/

theorem ofNat_eq {n k : Nat} [NeZero n] {a : Fin n} (h : k % n = a.val) : Fin.ofNat n k = a := Fin.ext h

theorem bitVec_ofNat_eq {n k : Nat} {a : BitVec n} (h : k % 2 ^ n = a.toNat) : BitVec.ofNat n k = a :=
  BitVec.eq_of_toNat_eq ((BitVec.toNat_ofNat k n).trans h)

theorem dcOf_of_val {n : Nat} {d : Fin 7} (h : n = d.val) : dcOf n = some d := h ▸ dcOf_val d
theorem fin3Of_of_val {n : Nat} {d : Fin 3} (h : n = d.val) : fin3Of n = some d := h ▸ fin3Of_val d
theorem fin4Of_of_val {n : Nat} {d : Fin 4} (h : n = d.val) : fin4Of n = some d := h ▸ fin4Of_val d

theorem b1_lt_four (b : Bool) : b1 b < 4 := Nat.lt_trans (b1_lt b) (by decide)
theorem b1_le_one (b : Bool) : b1 b ≤ 1 := Nat.le_of_lt_succ (b1_lt b)
theorem b1_beq_one (b : Bool) : (b1 b == 1) = b := by cases b <;> rfl

theorem beq_one_of_b1 {n : Nat} {b : Bool} (h : n = b1 b) : (n == 1) = b := h ▸ b1_beq_one b

theorem hdr_op {op n : Nat} (p : Pred) (h : n < 0x100000) : (hdr op p + n) / 0x1000000 = op := by
  simp only [hdr]
  omega

theorem fP_hdr {op n : Nat} (p : Pred) (h : n < 0x100000) : fP (hdr op p + n) = p := by
  apply ofNat_eq
  simp only [hdr]
  omega

theorem hdr_low {op n : Nat} (p : Pred) (h : n < 0x100000) : (hdr op p + n) % 0x100000 = n := by
  simp only [hdr]
  omega

theorem encA_low {op m : Nat} (f : FmtA) : encA op f m % 4 = m % 4 := by
  simp only [encA, hdr]
  omega

theorem encU_byte {op b m : Nat} (k : b < 64) (j : m < 4) (f : FmtU) : encU op f b m % 256 = b * 4 + m := by
  simp only [encU, hdr]
  omega

theorem encB_high {op : Nat} (f : FmtB) : encB op f / 256 = (op * 0x10 + f.p.val) * 0x1000 + f.d.val * 64 + f.a.val := by
  have := f.i.isLt
  simp only [encB, hdr]
  omega

theorem encQ_op {op : Nat} (f : FmtQ) : encQ op f / 0x1000000 = op := by
  have := f.pb.isLt; have := b1_lt f.na; have := b1_lt f.nb
  simp only [encQ, hdr]
  omega

theorem encQ_low {op : Nat} (f : FmtQ) : encQ op f % 128 = b1 f.nb * 64 := by
  have := b1_lt f.nb
  simp only [encQ, hdr]
  omega

theorem fmtQ_encQ {op : Nat} (f : FmtQ) : fmtQ (encQ op f) = f := by
  obtain ⟨p, pd, pa, pb, na, nb⟩ := f
  have := b1_lt na; have := b1_lt nb
  simp only [fmtQ, FmtQ.mk.injEq]
  refine ⟨ofNat_eq ?_, ofNat_eq ?_, ofNat_eq ?_, ofNat_eq ?_, beq_one_of_b1 ?_, beq_one_of_b1 ?_⟩
  all_goals simp only [encQ, hdr]; omega

section

variable {op d x : Nat} (hd : d < 64) (hx : x < 2) (p : Pred) (a : Reg) (look : Fin 16) (dc : Fin 7)
include hx

theorem nX_encC' : nX (encC' op p d a look dc x) = x := by
  simp only [nX, encC', hdr]
  omega

theorem dcOf_encC' : dcOf (nDc (encC' op p d a look dc x)) = some dc := by
  apply dcOf_of_val
  simp only [nDc, encC', hdr]
  omega

theorem fLook_encC' : fLook (encC' op p d a look dc x) = look := by
  apply ofNat_eq
  simp only [encC', hdr]
  omega

theorem fA_encC' : fA (encC' op p d a look dc x) = a := by
  apply ofNat_eq
  simp only [encC', hdr]
  omega

/-- The bits above the first register. -/
theorem encC'_high : encC' op p d a look dc x / 0x4000 = (op * 16 + p.val) * 64 + d := by
  simp only [encC', hdr]
  omega

include hd

theorem encC'_op : encC' op p d a look dc x / 0x1000000 = op := by
  simp only [encC', hdr]
  omega

theorem fP_encC' : fP (encC' op p d a look dc x) = p := by
  apply ofNat_eq
  simp only [encC', hdr]
  omega

end

/-! ## Instructions whose fields are their own -/

/-- The word `v` of `i`, under a name of its own. -/
theorem Reads.ofWord {i : Instr} (v : Nat) (hv : encodeWord i = v) (h : ∀ w, w = v → encodeWord i = w → Reads i) : Reads i :=
  h v rfl hv

theorem reads_spec (p : Pred) (lvl : Fin 3) (fix clr : Bool) : Reads (.spec p lvl fix clr) := by
  refine .ofWord (hdr 0xE4 p + lvl.val + b1 fix * 4 + b1 clr * 8) rfl fun w e hw => ?_
  simp only [hdr] at e
  have := b1_lt fix; have := b1_lt clr
  have hp : fP w = p := ofNat_eq (by omega)
  have hl : fin3Of (w % 4) = some lvl := fin3Of_of_val (by omega)
  have h0 : w / 16 % 0x10000 = 0 := by omega
  have h1 : (w / 4 % 2 == 1) = fix := beq_one_of_b1 (by omega)
  have h2 : (w / 8 % 2 == 1) = clr := beq_one_of_b1 (by omega)
  refine .short (op := 0xE4) (by omega) hw (by decide) rfl rfl ?_
  simp [rowAt, rowE, hp, hl, h0, h1, h2]

theorem reads_lexit (p : Pred) (lv : Fin 3) : Reads (.lexit p lv) := by
  refine .ofWord (hdr 0x39 p + lv.val * 0x40000) rfl fun w e hw => ?_
  simp only [hdr] at e
  have hp : fP w = p := ofNat_eq (by omega)
  have hl : fin3Of (w / 0x40000 % 4) = some lv := fin3Of_of_val (by omega)
  have h0 : w % 0x40000 = 0 := by omega
  refine .short (op := 0x39) (by omega) hw (by decide) rfl rfl ?_
  simp [rowAt, row3, hp, hl, h0]

/-- R75: the trip count is a register, or the extension word. -/
theorem reads_loop (p : Pred) (lv : Fin 3) (cnt : LoopCount) (len : Fin 256) : Reads (.loop p lv cnt len) := by
  cases cnt with
  | reg a =>
    refine .ofWord (hdr 0x38 p + lv.val * 0x40000 + a.val * 0x1000 + len.val * 16) rfl fun w e hw => ?_
    simp only [hdr] at e
    have hp : fP w = p := ofNat_eq (by omega)
    have hl : fin3Of (w / 0x40000 % 4) = some lv := fin3Of_of_val (by omega)
    have ha : Fin.ofNat 64 (w / 0x1000) = a := ofNat_eq (by omega)
    have hlen : Fin.ofNat 256 (w / 16) = len := ofNat_eq (by omega)
    have hx : nX w = 0 := by simp only [nX]; omega
    have h0 : w / 2 % 8 = 0 := by omega
    refine .byX (op := 0x38) (by omega) hw (by decide) rfl rfl (by rw [hx]; rfl) ?_
    simp [rowAt, row3, hp, hl, hx, h0, ha, hlen, -Fin.ofNat_eq_cast]
  | lit v =>
    refine .ofWord (hdr 0x38 p + lv.val * 0x40000 + 1 + len.val * 16) rfl fun w e hw => ?_
    simp only [hdr] at e
    have hp : fP w = p := ofNat_eq (by omega)
    have hl : fin3Of (w / 0x40000 % 4) = some lv := fin3Of_of_val (by omega)
    have hlen : Fin.ofNat 256 (w / 16) = len := ofNat_eq (by omega)
    have hx : nX w = 1 := by simp only [nX]; omega
    have h0 : w / 2 % 8 = 0 := by omega
    have h1 : w / 0x1000 % 64 = 0 := by omega
    refine .byX (op := 0x38) (by omega) hw (by decide) rfl rfl (by rw [hx]; rfl) ?_
    simp [rowAt, row3, hp, hl, hx, h0, h1, hlen, encodeExt, -Fin.ofNat_eq_cast]

theorem reads_rpt (p : Pred) (n : Fin 64) (sd sa sb : Fin 8) : Reads (.rpt p n sd sa sb) := by
  refine .ofWord (hdr 0x3A p + n.val * 0x4000 + sd.val * 0x800 + sa.val * 0x100 + sb.val * 32) rfl fun w e hw => ?_
  simp only [hdr] at e
  refine .short (op := 0x3A) (by omega) hw (by decide) rfl rfl ?_
  simp [rowAt, row3, fP, Fin.ext_iff]
  omega

theorem reads_pkq (f : FmtU) (fmt : PackFmt) (sat dth : Bool) : Reads (.pkq f fmt sat dth) := by
  have := fmt.code_lt; have := b1_lt sat; have := b1_lt dth
  have hb := encU_byte (op := 0x50) (show fmt.code * 8 < 64 by omega) (show b1 sat + b1 dth * 2 < 4 by omega) f
  have hf := fmtU_encU (op := 0x50) (show fmt.code * 8 < 64 by omega) (show b1 sat + b1 dth * 2 < 4 by omega) f
  refine .ofWord (encU 0x50 f (fmt.code * 8) (b1 sat + b1 dth * 2)) rfl fun w e hw => ?_
  rw [← e] at hb hf
  have h0 : nB w % 8 = 0 := by simp only [nB]; omega
  have hc : PackFmt.of (nB w / 8) = some fmt := by rw [show nB w / 8 = fmt.code by simp only [nB]; omega]; exact fmt.of_code
  have h1 : (w % 2 == 1) = sat := beq_one_of_b1 (by omega)
  have h2 : (w / 2 % 2 == 1) = dth := beq_one_of_b1 (by omega)
  refine .short (e ▸ encU_op (by omega) (by omega) f) hw (by decide) rfl rfl ?_
  simp [rowAt, row5, h0, hc, h1, h2, hf]

theorem reads_upk (f : FmtU) (fmt : PackFmt) : Reads (.upk f fmt) := by
  have := fmt.code_lt
  have hb := encU_byte (op := 0x51) (show fmt.code * 8 < 64 by omega) (show 0 < 4 by decide) f
  have hf := fmtU_encU (op := 0x51) (show fmt.code * 8 < 64 by omega) (show 0 < 4 by decide) f
  refine .ofWord (encU 0x51 f (fmt.code * 8) 0) rfl fun w e hw => ?_
  rw [← e] at hb hf
  have h0 : w % 32 = 0 := by omega
  have hc : PackFmt.of (nB w / 8) = some fmt := by rw [show nB w / 8 = fmt.code by simp only [nB]; omega]; exact fmt.of_code
  refine .short (e ▸ encU_op (by omega) (by omega) f) hw (by decide) rfl rfl ?_
  simp [rowAt, row5, h0, hc, hf]

theorem reads_qblk (f : FmtU) (fmt : MxFmt) (bsel : Fin 4) (dth : Bool) (e mask : Reg) : Reads (.qblk f fmt bsel dth e mask) := by
  have := fmt.code_lt; have := b1_lt dth
  have hb := encU_byte (op := 0x52) (show b1 dth + bsel.val * 2 < 64 by omega) fmt.code_lt f
  have hf := fmtU_encU (op := 0x52) (show b1 dth + bsel.val * 2 < 64 by omega) fmt.code_lt f
  refine .ofWord (encU 0x52 f (b1 dth + bsel.val * 2) fmt.code) rfl fun w ew hw => ?_
  rw [← ew] at hb hf
  have h0 : nB w / 8 = 0 := by simp only [nB]; omega
  have hc : MxFmt.of (nM w) = some fmt := by rw [show nM w = fmt.code by simp only [nM]; omega]; exact fmt.of_code
  have h1 : (w / 4 % 2 == 1) = dth := beq_one_of_b1 (by omega)
  have h2 : Fin.ofNat 4 (w / 8) = bsel := ofNat_eq (by omega)
  refine .long (ew ▸ encU_op (by omega) fmt.code_lt f) hw (by decide) rfl rfl ?_
  simp [rowAt, row5, h0, hc, h1, h2, hf, xC_encXO, xE_encXO, xT_encXO, encXO_off, -Fin.ofNat_eq_cast]

theorem reads_dqblk (f : FmtU) (fmt : MxFmt) (bsel : Fin 4) (e mask : Reg) : Reads (.dqblk f fmt bsel e mask) := by
  have := fmt.code_lt
  have hb := encU_byte (op := 0x53) (show bsel.val * 2 < 64 by omega) fmt.code_lt f
  have hf := fmtU_encU (op := 0x53) (show bsel.val * 2 < 64 by omega) fmt.code_lt f
  refine .ofWord (encU 0x53 f (bsel.val * 2) fmt.code) rfl fun w ew hw => ?_
  rw [← ew] at hb hf
  have h0 : nB w / 8 = 0 := by simp only [nB]; omega
  have hc : MxFmt.of (nM w) = some fmt := by rw [show nM w = fmt.code by simp only [nM]; omega]; exact fmt.of_code
  have h1 : w / 4 % 2 = 0 := by omega
  have h2 : Fin.ofNat 4 (w / 8) = bsel := ofNat_eq (by omega)
  refine .long (ew ▸ encU_op (by omega) fmt.code_lt f) hw (by decide) rfl rfl ?_
  simp [rowAt, row5, h0, hc, h1, h2, hf, xC_encXO, xE_encXO, xT_encXO, encXO_off, -Fin.ofNat_eq_cast]

/-- R122: the types of a conversion are the low byte of its word. -/
theorem encU_add_types {op : Nat} (f : FmtU) (sf df : ConvTy) :
    encU op f 0 0 + sf.code * 16 + df.code = encU op f (sf.code * 4 + df.code / 4) (df.code % 4) := by
  simp only [encU, hdr]
  omega

/-- A conversion's word: its registers and its two types. -/
theorem conv_fields {op : Nat} (f : FmtU) (sf df : ConvTy) :
    let w := encU op f 0 0 + sf.code * 16 + df.code
    w / 0x1000000 = op ∧ fmtU w = f ∧ ConvTy.of (w / 16 % 16) = some sf ∧ ConvTy.of (w % 16) = some df := by
  have hs := sf.code_lt; have hd := df.code_lt
  have hb : sf.code * 4 + df.code / 4 < 64 := by omega
  have hm : df.code % 4 < 4 := by omega
  have e := encU_byte (op := op) hb hm f
  intro w
  have hw : w = _ := encU_add_types f sf df
  rw [hw]
  refine ⟨encU_op hb hm f, fmtU_encU hb hm f, ?_, ?_⟩
  · rw [show encU op f (sf.code * 4 + df.code / 4) (df.code % 4) / 16 % 16 = sf.code by omega]
    exact sf.of_code
  · rw [show encU op f (sf.code * 4 + df.code / 4) (df.code % 4) % 16 = df.code by omega]
    exact df.of_code

theorem reads_movi (p : Pred) (d : Reg) (k : MoviKind) (lit : Word) : Reads (.movi p d k lit) := by
  have := k.code_lt
  refine .ofWord (hdr 0x28 p + d.val * 0x4000 + k.code) rfl fun w e hw => ?_
  simp only [hdr] at e
  have hp : fP w = p := ofNat_eq (by omega)
  have hd : fD w = d := ofNat_eq (by omega)
  have h0 : w / 256 % 64 = 0 := by omega
  have hk : MoviKind.of (nI w) = some k := by rw [show nI w = k.code by simp only [nI]; omega]; exact k.of_code
  refine .long (op := 0x28) (by omega) hw (by decide) rfl rfl ?_
  simp [rowAt, row2, hp, hd, h0, hk]

/-- R95: the immediate stands where another compare has its second register. -/
theorem reads_icmpImm (p pd : Pred) (a : Reg) (i : BitVec 6) (cc : Cond) : Reads (.icmpImm p pd a i cc) := by
  refine .ofWord (encP 0x30 ⟨p, pd, a, i.toFin⟩ cc.code) rfl fun w e hw => ?_
  have hf : fmtP w = ⟨p, pd, a, i.toFin⟩ := e ▸ fmtP_encP cc.code_lt _
  have hc : w % 16 = cc.code := e ▸ encP_low cc.code_lt _
  simp only [fmtP, FmtP.mk.injEq] at hf
  obtain ⟨hp, hpd, ha, hi⟩ := hf
  have hi : BitVec.ofNat 6 (w / 16) = i := bitVec_ofNat_eq (congrArg Fin.val hi)
  refine .short (e ▸ encP_op cc.code_lt _) hw (by decide) rfl rfl ?_
  simp [rowAt, row3, hp, hpd, ha, hi, hc, cc.of_code]

theorem reads_accCvt (p : Pred) (acc : Fin 4) (rls : Bool) (a : Reg) (fmt : PackFmt) (s32 sat dth : Bool) :
    Reads (.accCvt p acc rls a fmt s32 sat dth) := by
  have := fmt.code_lt; have := b1_lt rls; have := b1_lt s32; have := b1_lt sat; have := b1_lt dth
  refine .ofWord (hdr 0xBF p + (acc.val + b1 rls * 4) * 0x4000 + a.val * 0x100 + fmt.code * 32 + b1 s32 * 16 + b1 dth * 2 + b1 sat)
    rfl fun w e hw => ?_
  simp only [hdr] at e
  have hp : fP w = p := ofNat_eq (by omega)
  have hacc : Fin.ofNat 4 (w / 0x4000) = acc := ofNat_eq (by omega)
  have hrls : (w / 0x10000 % 2 == 1) = rls := beq_one_of_b1 (by omega)
  have ha : fA w = a := ofNat_eq (by omega)
  have hf : PackFmt.of (nB w / 8) = some fmt := by rw [show nB w / 8 = fmt.code by simp only [nB]; omega]; exact fmt.of_code
  have h1 : (w / 16 % 2 == 1) = s32 := beq_one_of_b1 (by omega)
  have h2 : (w % 2 == 1) = sat := beq_one_of_b1 (by omega)
  have h3 : (w / 2 % 2 == 1) = dth := beq_one_of_b1 (by omega)
  have h4 : w / 0x20000 % 8 = 0 := by omega
  have h5 : nB w % 4 = 0 := by simp only [nB]; omega
  refine .short (op := 0xBF) (by omega) hw (by decide) rfl rfl ?_
  simp [rowAt, rowB, hp, hacc, hrls, ha, hf, h1, h2, h3, h4, h5, -Fin.ofNat_eq_cast]

theorem reads_red (p : Pred) (op : RedOp) (len : Fin 3) (a : Reg) (look : Fin 16) (dc : Fin 7) (c : Reg) (t : FloatTy)
    (off : BitVec 16) : Reads (.red p op len a look dc c t off) := by
  have := op.code_lt
  have ht : t.code < 16 := by have := t.code_lt; omega
  have hd : len.val + op.code * 4 < 64 := by omega
  have hw := encC'_high (op := 0x89) (d := len.val + op.code * 4) Nat.one_lt_two p a look dc
  refine .long (encC'_op hd Nat.one_lt_two p a look dc) rfl (by decide) rfl rfl ?_
  have ho : RedOp.of (encC' 0x89 p (len.val + op.code * 4) a look dc 1 / 0x10000 % 4) = some op := by
    rw [show encC' 0x89 p (len.val + op.code * 4) a look dc 1 / 0x10000 % 4 = op.code by omega]
    exact op.of_code
  have hl : fin3Of (encC' 0x89 p (len.val + op.code * 4) a look dc 1 / 0x4000 % 4) = some len := fin3Of_of_val (by omega)
  have h0 : encC' 0x89 p (len.val + op.code * 4) a look dc 1 / 0x40000 % 4 = 0 := by omega
  have hx : xE (encXO c.val 0 t.code off.toNat) = 0 := xE_encXO c 0 _ _
  have hxt : xT (encXO c.val 0 t.code off.toNat) = t.code := xT_encXO c 0 ht _
  have hxo : xOff (encXO c.val 0 t.code off.toNat) = off := xOff_encXO c 0 ht _
  simp [rowAt, row8, ho, hl, h0, hx, hxt, hxo, xC_encXO, t.of_code, nX_encC', dcOf_encC', fP_encC' hd, fA_encC', fLook_encC']

theorem reads_tqPop (p : Pred) (d : Reg) (look : Fin 16) (dc : Fin 7) (c : Reg) : Reads (.tqPop p d look dc c) := by
  refine .long (encC'_op d.isLt Nat.one_lt_two p 0 look dc) rfl (by decide) rfl rfl ?_
  have ha : encC' 0x98 p d.val 0 look dc 1 / 256 % 64 = 0 := congrArg Fin.val (fA_encC' (d := d.val) Nat.one_lt_two p 0 look dc)
  have hd : fD (encC' 0x98 p d.val 0 look dc 1) = d := ofNat_eq (by rw [encC'_high Nat.one_lt_two]; omega)
  simp [rowAt, row9, ha, hd, xC_encXO, encXO_div, nX_encC', dcOf_encC', fP_encC' d.isLt, fLook_encC']

theorem reads_accLd (p : Pred) (acc : Fin 4) (a : Reg) (look : Fin 16) (dc : Fin 7) (off : Option (BitVec 30)) :
    Reads (.accLd p acc a look dc off) := by
  have hd : acc.val < 64 := by omega
  have hx := xBit_lt off
  have hw := encC'_high (op := 0xBB) (d := acc.val) hx p a look dc
  have hn := nX_encC' (op := 0xBB) (d := acc.val) hx p a look dc
  refine .byX (encC'_op hd hx p a look dc) rfl (by decide) rfl rfl ((nX_xBit off hn).trans (encXM0_isSome off).symm) ?_
  have h0 : encC' 0xBB p acc.val a look dc (xBit off) / 0x10000 % 16 = 0 := by omega
  have hacc : Fin.ofNat 4 (encC' 0xBB p acc.val a look dc (xBit off) / 0x4000) = acc := ofNat_eq (by omega)
  simp [rowAt, rowB, encodeExt, h0, hacc, xm0Of_encXM0 off hn, dcOf_encC' hx, fP_encC' hd hx, fA_encC' hx,
    fLook_encC' hx, -Fin.ofNat_eq_cast]

theorem reads_accSt (p : Pred) (acc : Fin 4) (rls : Bool) (a : Reg) (look : Fin 16) (dc : Fin 7) (off : Option (BitVec 30)) :
    Reads (.accSt p acc rls a look dc off) := by
  have := b1_lt rls
  have hd : acc.val + b1 rls * 4 < 64 := by omega
  have hx := xBit_lt off
  have hw := encC'_high (op := 0xBC) (d := acc.val + b1 rls * 4) hx p a look dc
  have hn := nX_encC' (op := 0xBC) (d := acc.val + b1 rls * 4) hx p a look dc
  refine .byX (encC'_op hd hx p a look dc) rfl (by decide) rfl rfl ((nX_xBit off hn).trans (encXM0_isSome off).symm) ?_
  have h0 : encC' 0xBC p (acc.val + b1 rls * 4) a look dc (xBit off) / 0x20000 % 8 = 0 := by omega
  have hacc : Fin.ofNat 4 (encC' 0xBC p (acc.val + b1 rls * 4) a look dc (xBit off) / 0x4000) = acc := ofNat_eq (by omega)
  have hr : (encC' 0xBC p (acc.val + b1 rls * 4) a look dc (xBit off) / 0x10000 % 2 == 1) = rls := beq_one_of_b1 (by omega)
  simp [rowAt, rowB, encodeExt, h0, hacc, hr, xm0Of_encXM0 off hn, dcOf_encC' hx, fP_encC' hd hx, fA_encC' hx,
    fLook_encC' hx, -Fin.ofNat_eq_cast]

theorem reads_xcp (p : Pred) (dth : Bool) (a : Reg) (look : Fin 16) (dc : Fin 7) (off : Option (BitVec 16)) :
    Reads (.xcp p dth a look dc off) := by
  have := b1_lt dth
  have hd : b1 dth * 32 < 64 := by omega
  have hx := xBit_lt off
  have hw := encC'_high (op := 0xC0) (d := b1 dth * 32) hx p a look dc
  have hn := nX_encC' (op := 0xC0) (d := b1 dth * 32) hx p a look dc
  refine .byX (encC'_op hd hx p a look dc) rfl (by decide) rfl rfl ((nX_xBit off hn).trans (encOff_isSome off).symm) ?_
  have h0 : encC' 0xC0 p (b1 dth * 32) a look dc (xBit off) / 0x4000 % 32 = 0 := by omega
  have hr : (encC' 0xC0 p (b1 dth * 32) a look dc (xBit off) / 0x80000 % 2 == 1) = dth := beq_one_of_b1 (by omega)
  simp [rowAt, rowC, encodeExt, h0, hr, xoOff_encOff off hn, dcOf_encC' hx, fP_encC' hd hx, fA_encC' hx, fLook_encC' hx]

theorem reads_xcpq (p : Pred) (dth : Bool) (n : Fin 32) (a : Reg) (look : Fin 16) (dc : Fin 7) (off : Option (BitVec 16)) :
    Reads (.xcpq p dth n a look dc off) := by
  have := b1_lt dth
  have hd : b1 dth * 32 + n.val < 64 := by omega
  have hx := xBit_lt off
  have hw := encC'_high (op := 0xC1) (d := b1 dth * 32 + n.val) hx p a look dc
  have hn := nX_encC' (op := 0xC1) (d := b1 dth * 32 + n.val) hx p a look dc
  refine .byX (encC'_op hd hx p a look dc) rfl (by decide) rfl rfl ((nX_xBit off hn).trans (encOff_isSome off).symm) ?_
  have h0 : Fin.ofNat 32 (encC' 0xC1 p (b1 dth * 32 + n.val) a look dc (xBit off) / 0x4000) = n := ofNat_eq (by omega)
  have hr : (encC' 0xC1 p (b1 dth * 32 + n.val) a look dc (xBit off) / 0x80000 % 2 == 1) = dth := beq_one_of_b1 (by omega)
  simp [rowAt, rowC, encodeExt, h0, hr, xoOff_encOff off hn, dcOf_encC' hx, fP_encC' hd hx, fA_encC' hx,
    fLook_encC' hx, -Fin.ofNat_eq_cast]

/-- A word of an opcode and a guard alone. -/
theorem hdr_fields {op : Nat} (p : Pred) :
    hdr op p / 0x1000000 = op ∧ fP (hdr op p) = p ∧ hdr op p % 0x100000 = 0 :=
  ⟨by simp only [hdr]; omega, ofNat_eq (by simp only [hdr]; omega), by simp only [hdr]; omega⟩

theorem encQ_unused {op : Nat} (f : FmtQ) : encQ op f % 64 = 0 := by
  simp only [encQ, hdr]
  omega

/-- R96: the forms of one source have no second one. -/
theorem encQ_one {op : Nat} (p pd pa : Pred) (na : Bool) :
    hdr op p + pd.val * 0x10000 + pa.val * 0x1000 + b1 na * 128 = encQ op ⟨p, pd, pa, 0, na, false⟩ := by
  simp [encQ, b1]

/-- A word of format Q with one source. -/
theorem pred_fields {op : Nat} (p pd pa : Pred) (na : Bool) :
    let w := hdr op p + pd.val * 0x10000 + pa.val * 0x1000 + b1 na * 128
    w / 0x1000000 = op ∧ w % 128 = 0 ∧ w / 256 % 16 = 0 ∧ fP w = p ∧ f16 w = pd ∧ Fin.ofNat 16 (w / 0x1000) = pa
      ∧ (w / 128 % 2 == 1) = na := by
  intro w
  have hw : w = _ := encQ_one p pd pa na
  have hf : fmtQ w = ⟨p, pd, pa, 0, na, false⟩ := hw ▸ fmtQ_encQ _
  simp only [fmtQ, FmtQ.mk.injEq] at hf
  obtain ⟨hp, hpd, hpa, hpb, hna, -⟩ := hf
  exact ⟨hw ▸ encQ_op _, hw ▸ encQ_low _, congrArg Fin.val hpb, hp, hpd, hpa, hna⟩

/-- R97 to R100: a word of a guard and a register pair. -/
theorem jump_fields {op : Nat} (p : Pred) (a : Reg) :
    let w := hdr op p + a.val * 0x100
    w / 0x1000000 = op ∧ w % 256 = 0 ∧ w / 0x4000 % 64 = 0 ∧ fP w = p ∧ fA w = a := by
  intro w
  have hw : w = hdr op p + a.val * 0x100 := rfl
  simp only [hdr] at hw
  exact ⟨by omega, by omega, by omega, ofNat_eq (by omega), ofNat_eq (by omega)⟩

/-- R184, R185: a barrier's register, number and mode. -/
theorem barrier_fields {op n : Nat} (p : Pred) (a : Reg) (hn : n < 16) (arrive : Bool) :
    let w := hdr op p + a.val * 0x100 + n * 4 + b1 arrive
    w / 0x1000000 = op ∧ w / 0x4000 % 64 = 0 ∧ nB w = n ∧ w / 4 % 16 = n ∧ nM w = b1 arrive ∧ fP w = p ∧ fA w = a := by
  intro w
  have hw : w = hdr op p + a.val * 0x100 + n * 4 + b1 arrive := rfl
  have := b1_lt arrive
  simp only [hdr] at hw
  exact ⟨by omega, by omega, by simp only [nB]; omega, by omega, by simp only [nM]; omega, ofNat_eq (by omega),
    ofNat_eq (by omega)⟩

theorem reads_tbar (p : Pred) (a : Reg) (n : Fin 16) (arrive : Bool) : Reads (.tbar p a n arrive) := by
  obtain ⟨hop, h0, hn, hn', hm, hp, ha⟩ := barrier_fields (op := 0x95) p a n.isLt arrive
  refine .long hop rfl (by decide) rfl rfl ?_
  simp [rowAt, row9, h0, hn, hm, hp, ha, ofNat_eq hn', b1_le_one, b1_beq_one, -Fin.ofNat_eq_cast]

theorem reads_cbar (p : Pred) (a : Reg) (n : Fin 4) (arrive : Bool) : Reads (.cbar p a n arrive) := by
  obtain ⟨hop, h0, hn, hn', hm, hp, ha⟩ := barrier_fields (op := 0x96) p a (show n.val < 16 by omega) arrive
  refine .long hop rfl (by decide) rfl rfl ?_
  have hn4 : Fin.ofNat 4 ((hdr 0x96 p + a.val * 0x100 + n.val * 4 + b1 arrive) / 4) = n := ofNat_eq (by omega)
  simp [rowAt, row9, h0, hn, hm, hp, ha, hn4, b1_le_one, b1_beq_one, -Fin.ofNat_eq_cast]

theorem reads_hint (o : Fin 8) (z : BitVec 24) : Reads (.hint o z) := by
  refine .ofWord ((0xF0 + o.val) * 0x1000000 + z.toNat) rfl fun w e hw => ?_
  have hx := hint_noExt o.val o.isLt
  have ho : (0xF0 + o.val) % 16 = o.val := by omega
  have hr : (0xF0 + o.val) / 16 = 15 := by omega
  refine .short (op := 0xF0 + o.val) (by omega) hw (by omega) rfl (by rw [hx.1, hx.2]; rfl) ?_
  simp only [rowAt, hr, ho, if_pos o.isLt, Option.some.injEq, Instr.hint.injEq]
  exact ⟨ofNat_eq (Nat.mod_eq_of_lt o.isLt), bitVec_ofNat_eq (by omega)⟩

theorem reads_wait (p : Pred) (mask : BitVec 6) : Reads (.wait p mask) := by
  refine .ofWord (hdr 0x3B p + mask.toNat) rfl fun w e hw => ?_
  simp only [hdr] at e
  refine .short (op := 0x3B) (by omega) hw (by decide) rfl rfl ?_
  simp [rowAt, row3, show w / 64 % 0x4000 = 0 by omega, show fP w = p from ofNat_eq (by omega),
    show BitVec.ofNat 6 w = mask from bitVec_ofNat_eq (by omega)]

/-- R108: a word of a guard and a code. -/
theorem code_fields {op : Nat} (p : Pred) (code : BitVec 8) :
    let w := hdr op p + code.toNat
    w / 0x1000000 = op ∧ w / 256 % 0x1000 = 0 ∧ fP w = p ∧ BitVec.ofNat 8 w = code := by
  intro w
  have hw : w = hdr op p + code.toNat := rfl
  simp only [hdr] at hw
  exact ⟨by omega, by omega, ofNat_eq (by omega), bitVec_ofNat_eq (by omega)⟩

theorem reads_crd (p : Pred) (d : Reg) (n : BitVec 8) : Reads (.crd p d n) := by
  refine .ofWord (hdr 0xE0 p + d.val * 0x4000 + n.toNat) rfl fun w e hw => ?_
  simp only [hdr] at e
  refine .short (op := 0xE0) (by omega) hw (by decide) rfl rfl ?_
  simp [rowAt, rowE, show w / 256 % 64 = 0 by omega, show fP w = p from ofNat_eq (by omega),
    show fD w = d from ofNat_eq (by omega), show BitVec.ofNat 8 w = n from bitVec_ofNat_eq (by omega)]

theorem reads_cwr (p : Pred) (a : Reg) (n : BitVec 8) : Reads (.cwr p a n) := by
  refine .ofWord (hdr 0xE1 p + a.val * 0x100 + n.toNat) rfl fun w e hw => ?_
  simp only [hdr] at e
  refine .short (op := 0xE1) (by omega) hw (by decide) rfl rfl ?_
  simp [rowAt, rowE, show w / 0x4000 % 64 = 0 by omega, show fP w = p from ofNat_eq (by omega),
    show fA w = a from ofNat_eq (by omega), show BitVec.ofNat 8 w = n from bitVec_ofNat_eq (by omega)]

theorem reads_accZero (p : Pred) (acc : Fin 4) : Reads (.accZero p acc) := by
  refine .ofWord (hdr 0xBA p + acc.val * 0x10000 + 1) rfl fun w e hw => ?_
  simp only [hdr] at e
  refine .short (op := 0xBA) (by omega) hw (by decide) rfl rfl ?_
  simp [rowAt, rowB, show w % 0x10000 = 1 by omega, show fP w = p from ofNat_eq (by omega),
    show fin4Of (n16 w) = some acc from fin4Of_of_val (by simp only [n16]; omega)]

theorem reads_accRd (p : Pred) (d : Reg) (acc : Fin 4) (b : Reg) : Reads (.accRd p d acc b) := by
  refine .ofWord (hdr 0xBD p + d.val * 0x4000 + acc.val * 0x100 + b.val * 4) rfl fun w e hw => ?_
  simp only [hdr] at e
  refine .short (op := 0xBD) (by omega) hw (by decide) rfl rfl ?_
  simp [rowAt, rowB, show nM w = 0 by simp only [nM]; omega, show fP w = p from ofNat_eq (by omega),
    show fD w = d from ofNat_eq (by omega), show fB w = b from ofNat_eq (by omega),
    show fin4Of (w / 256 % 64) = some acc from fin4Of_of_val (by omega)]

theorem reads_accWr (p : Pred) (acc : Fin 4) (a b : Reg) : Reads (.accWr p acc a b) := by
  refine .ofWord (hdr 0xBE p + acc.val * 0x4000 + a.val * 0x100 + b.val * 4) rfl fun w e hw => ?_
  simp only [hdr] at e
  refine .short (op := 0xBE) (by omega) hw (by decide) rfl rfl ?_
  simp [rowAt, rowB, show nM w = 0 by simp only [nM]; omega, show fP w = p from ofNat_eq (by omega),
    show fA w = a from ofNat_eq (by omega), show fB w = b from ofNat_eq (by omega),
    show fin4Of (w / 0x4000 % 64) = some acc from fin4Of_of_val (by omega)]

/-- R186: an atomic's fields. -/
theorem atomF_encXO {op t : Nat} (f : AtomF) (e : Reg) (ht : t < 16) :
    atomF (encC op f.f 1) (encXO f.c.val e.val t f.off.toNat) = some f := by
  simp [atomF, encC_x, fmtC_encC, xC_encXO, xOff_encXO f.c e ht]

/-! ## Unassigned opcodes (R61, R67) -/

section

variable {c : Nat} (w x : Nat)

theorem row3_rest (h : 15 ≤ c) : row3 c w x = some (.unassignedOpcode (BitVec.ofNat 32 w)) := by
  obtain ⟨k, rfl⟩ := Nat.exists_eq_add_of_le' h
  rfl
theorem row5_rest (h : 4 ≤ c) : row5 c w x = some (.unassignedOpcode (BitVec.ofNat 32 w)) := by
  obtain ⟨k, rfl⟩ := Nat.exists_eq_add_of_le' h
  rfl
theorem row6_rest (h : 12 ≤ c) : row6 c w x = some (.unassignedOpcode (BitVec.ofNat 32 w)) := by
  obtain ⟨k, rfl⟩ := Nat.exists_eq_add_of_le' h
  rfl
theorem row7_rest (h : c = 7 ∨ 13 ≤ c) : row7 c w x = some (.unassignedOpcode (BitVec.ofNat 32 w)) := by
  rcases h with rfl | h
  · rfl
  · obtain ⟨k, rfl⟩ := Nat.exists_eq_add_of_le' h
    rfl
theorem row8_rest (h : 10 ≤ c) : row8 c w x = some (.unassignedOpcode (BitVec.ofNat 32 w)) := by
  obtain ⟨k, rfl⟩ := Nat.exists_eq_add_of_le' h
  rfl
theorem row9_rest (h : 10 ≤ c) : row9 c w x = some (.unassignedOpcode (BitVec.ofNat 32 w)) := by
  obtain ⟨k, rfl⟩ := Nat.exists_eq_add_of_le' h
  rfl
theorem rowC_rest (h : 8 ≤ c) : rowC c w x = some (.unassignedOpcode (BitVec.ofNat 32 w)) := by
  obtain ⟨k, rfl⟩ := Nat.exists_eq_add_of_le' h
  rfl
theorem rowD_rest (h : 7 ≤ c) : rowD c w x = some (.unassignedOpcode (BitVec.ofNat 32 w)) := by
  obtain ⟨k, rfl⟩ := Nat.exists_eq_add_of_le' h
  rfl
theorem rowE_rest (h : 5 ≤ c) : rowE c w x = some (.unassignedOpcode (BitVec.ofNat 32 w)) := by
  obtain ⟨k, rfl⟩ := Nat.exists_eq_add_of_le' h
  rfl

/-- An unassigned opcode is read whole. -/
theorem rowAt_unassigned {op : Nat} (hop : op < 256) (h : opcodeAssigned op = false) :
    rowAt (op / 16) (op % 16) w x = some (.unassignedOpcode (BitVec.ofNat 32 w)) := by
  simp only [opcodeAssigned, Bool.or_eq_false_iff, Bool.and_eq_false_iff, decide_eq_false_iff_not] at h
  match hr : op / 16 with
  | 0 | 1 | 2 | 4 | 11 => omega
  | 3 => exact row3_rest w x (by omega)
  | 5 => exact row5_rest w x (by omega)
  | 6 => exact row6_rest w x (by omega)
  | 7 => exact row7_rest w x (by omega)
  | 8 => exact row8_rest w x (by omega)
  | 9 => exact row9_rest w x (by omega)
  | 12 => exact rowC_rest w x (by omega)
  | 13 => exact rowD_rest w x (by omega)
  | 14 => exact rowE_rest w x (by omega)
  | 15 => exact if_neg (by omega)
  | 10 => rfl
  | _ + 16 => omega

end

theorem reads_unassigned (w : Word) (h : opcodeAssigned (w.toNat / 0x1000000) = false) : Reads (.unassignedOpcode w) := by
  have hop : w.toNat / 0x1000000 < 256 := by omega
  obtain ⟨h1, h2⟩ := noExt_of_unassigned hop h
  refine .ofWord w.toNat rfl fun v e hv => .short (congrArg (· / 0x1000000) e) hv hop rfl (by rw [h1, h2]; rfl) ?_
  rw [rowAt_unassigned _ _ hop h, e, BitVec.ofNat_toNat, BitVec.setWidth_eq]

/-- R181: the extension word of a reduction or a scan. -/
theorem gop_fields (op : GOp) (mask : Reg) : op.code < 64 ∧ op.ty < 16 ∧ xT (encXO mask.val 0 op.ty 0) = op.ty
    ∧ encXO mask.val 0 op.ty 0 / 0x10000 = 0 := by
  have hc := op.code_lt
  have ht : op.ty < 16 := Nat.lt_trans op.ty_lt (by decide)
  exact ⟨by omega, ht, xT_encXO mask 0 ht 0, encXO_off mask 0 ht 0⟩

/-- R257: a matrix instruction's two low flags. -/
theorem mma_low {op : Nat} (f : FmtM) (va z : Bool) :
    let w := encM op f (b1 va * 2 + b1 z)
    w / 0x1000000 = op ∧ fmtM w = some f ∧ w / 4 % 4 = 0 ∧ (w / 2 % 2 == 1) = va ∧ (w % 2 == 1) = z := by
  have := b1_lt va; have := b1_lt z
  have hl : b1 va * 2 + b1 z < 16 := by omega
  have e := encM_low (op := op) hl f
  exact ⟨encM_op hl f, fmtM_encM hl f, by omega, beq_one_of_b1 (by omega), beq_one_of_b1 (by omega)⟩

/-- R257, R266: a block-scaled instruction's scale selector and flag. -/
theorem mmaMx_low {op : Nat} (f : FmtM) (bsel : Fin 4) (z : Bool) :
    let w := encM op f (bsel.val * 4 + b1 z)
    w / 0x1000000 = op ∧ fmtM w = some f ∧ w / 2 % 2 = 0 ∧ Fin.ofNat 4 (w / 4) = bsel ∧ (w % 2 == 1) = z := by
  have := b1_lt z
  have hl : bsel.val * 4 + b1 z < 16 := by omega
  have e := encM_low (op := op) hl f
  exact ⟨encM_op hl f, fmtM_encM hl f, by omega, ofNat_eq (by omega), beq_one_of_b1 (by omega)⟩

theorem reads_mmaT6 (f : FmtM) (z : Bool) : Reads (.mmaT6 f z) := by
  have hl : b1 z < 16 := Nat.lt_trans (b1_lt z) (by decide)
  have e := encM_low (op := 0xB5) hl f
  refine .short (encM_op hl f) rfl (by decide) rfl rfl ?_
  have h0 : encM 0xB5 f (b1 z) / 2 % 8 = 0 := by have := b1_lt z; omega
  have hz : (encM 0xB5 f (b1 z) % 2 == 1) = z := beq_one_of_b1 (by have := b1_lt z; omega)
  simp [rowAt, rowB, fmtM_encM hl, h0, hz]

theorem reads_sel (f : FmtA) (wide : Bool) (sp : Pred) : Reads (.sel f wide sp) := by
  refine .long (encA_op (b1_lt_four wide) f) rfl (by decide) rfl rfl ?_
  have hx : encXO 0 0 sp.val 0 = sp.val * 0x1000 := by simp only [encXO]; omega
  have h0 : sp.val * 0x1000 % 0x1000 = 0 := by omega
  have h1 : sp.val * 0x1000 / 0x10000 % 0x10000 = 0 := by omega
  rw [hx]
  simp [rowAt, row1, encA_mode (b1_lt_four wide), fmtA_encA (b1_lt_four wide), b1_le_one, b1_beq_one, h0, h1]

/-- The whole table, by formats; an event has no word. -/
theorem reads_of_isProgram (i : Instr) (h : i.isProgram = true)
    (hu : ∀ w, i = .unassignedOpcode w → opcodeAssigned (w.toNat / 0x1000000) = false) : Reads i := by
  cases i
  case add f m | sub f m | mulh f m | div f m | rem f m | min f m | max f m | fadd f m | fsub f m | fmul f m =>
    refine .short (encA_op m.code_lt f) rfl (by decide) rfl rfl ?_
    simp [rowAt, row0, row4, encA_mode m.code_lt, fmtA_encA m.code_lt, m.of_code]
  case mul f | and f | or f | xor f | andn f | shl f | shr f | sar f | bfi f | add64 f | sub64 f | fmin f | fmax f =>
    refine .short (encA_op (by decide) f) rfl (by decide) rfl rfl ?_
    simp [rowAt, row0, row1, row4, encA_mode, fmtA_encA]
  case rot f m | hadd2 f m | hmul2 f m =>
    refine .short (encA_op (b1_lt_four m) f) rfl (by decide) rfl rfl ?_
    simp [rowAt, row1, row4, encA_mode (b1_lt_four m), fmtA_encA (b1_lt_four m), b1_le_one, b1_beq_one]
  case bfx f m =>
    cases m
    all_goals
      refine .short (encA_op (by decide) f) rfl (by decide) rfl rfl ?_
      simp [rowAt, row1, encA_mode, fmtA_encA]
  case lea f k | lea64 f k =>
    refine .short (encA_op k.isLt f) rfl (by decide) rfl rfl ?_
    simp [rowAt, row1, fmtA_encA k.isLt, ofNat_eq (encA_mode k.isLt f), -Fin.ofNat_eq_cast]
  case mad f c =>
    refine .long (encA_op (by decide) f) rfl (by decide) rfl rfl ?_
    simp [rowAt, row0, encA_mode, fmtA_encA, encXO_div, xC_encXO]
  case sel f wide sp => exact reads_sel f wide sp
  case ffma f c m =>
    refine .long (encA_op m.code_lt f) rfl (by decide) rfl rfl ?_
    simp [rowAt, row4, fmtA_encA m.code_lt, encA_mode m.code_lt, m.of_code, encXO_div, xC_encXO]
  case hfma2 f c m =>
    refine .long (encA_op (b1_lt_four m) f) rfl (by decide) rfl rfl ?_
    simp [rowAt, row4, encA_mode (b1_lt_four m), fmtA_encA (b1_lt_four m), b1_le_one, b1_beq_one, encXO_div, xC_encXO]
  case shfl f m t mask =>
    have ht : t.code < 16 := by have := t.code_lt; omega
    refine .long (encA_op m.code_lt f) rfl (by decide) rfl rfl ?_
    have hxt : xT (encXO mask.val 0 t.code 0) = t.code := xT_encXO mask 0 ht _
    have hxo : encXO mask.val 0 t.code 0 / 0x10000 = 0 := encXO_off mask 0 ht _
    simp [rowAt, row9, encA_mode m.code_lt, fmtA_encA m.code_lt, m.of_code, t.of_code, encXO_div, hxt, hxo, xC_encXO]
  case not f | clz f | popc f | brev f | mov f | mov64 f =>
    refine .short (encU_op (by decide) (by decide) f) rfl (by decide) rfl rfl ?_
    simp [rowAt, row1, row2, encU_byte, fmtU_encU]
  case abs f m | neg f m | fabs f m | fneg f m =>
    refine .short (encU_op (by decide) (b1_lt_four m) f) rfl (by decide) rfl rfl ?_
    simp [rowAt, row0, row4, encU_low _ (b1_lt_four m), fmtU_encU _ (b1_lt_four m), b1_le_one, b1_beq_one]
  case fcls f m | frnd f m =>
    refine .short (encU_op (by decide) m.code_lt f) rfl (by decide) rfl rfl ?_
    simp [rowAt, row4, encU_low _ m.code_lt, fmtU_encU _ m.code_lt, m.of_code]
  case fcvt f sf df | fcvtSat f sf df =>
    refine .short (conv_fields f sf df).1 rfl (by decide) rfl rfl ?_
    simp [rowAt, row4, conv_fields]
  case pkq f fmt sat dth => exact reads_pkq f fmt sat dth
  case upk f fmt => exact reads_upk f fmt
  case qblk f fmt bsel dth e mask => exact reads_qblk f fmt bsel dth e mask
  case dqblk f fmt bsel e mask => exact reads_dqblk f fmt bsel e mask
  case vote f m mask =>
    refine .long (encU_op (by decide) m.code_lt f) rfl (by decide) rfl rfl ?_
    simp [rowAt, row9, encU_low _ m.code_lt, fmtU_encU _ m.code_lt, m.of_code, encXO_div, xC_encXO]
  case gred f op mask =>
    obtain ⟨hc, ht, hxt, hxo⟩ := gop_fields op mask
    refine .long (encU_op hc (by decide) f) rfl (by decide) rfl rfl ?_
    simp [rowAt, row9, encU_low hc, fmtU_encU hc, hxt, hxo, op.of_code, encXO_div, xC_encXO]
  case gscan f op excl mask =>
    obtain ⟨hc, ht, hxt, hxo⟩ := gop_fields op mask
    refine .long (encU_op hc (b1_lt_four excl) f) rfl (by decide) rfl rfl ?_
    simp [rowAt, row9, encU_low hc (b1_lt_four excl), fmtU_encU hc (b1_lt_four excl), hxt, hxo, op.of_code, encXO_div, xC_encXO,
      b1_le_one, b1_beq_one]
  case addImm f | andImm f | orImm f | xorImm f | shlImm f | shrImm f | sarImm f =>
    refine .short (encB_op f) rfl (by decide) rfl rfl ?_
    simp [rowAt, row2, fmtB_encB]
  case icmp f cc | icmp64 f cc | fcmp f cc =>
    refine .short (encP_op cc.code_lt f) rfl (by decide) rfl rfl ?_
    simp [rowAt, row2, row4, fmtP_encP cc.code_lt, encP_low cc.code_lt, cc.of_code]
  case icmpImm p pd a i cc => exact reads_icmpImm p pd a i cc
  case pand f | por f | pxor f =>
    refine .short (encQ_op f) rfl (by decide) rfl rfl ?_
    simp [rowAt, row2, fmtQ_encQ, encQ_unused]
  case pnot p pd pa na | pmov p pd pa na =>
    refine .short (pred_fields p pd pa na).1 rfl (by decide) rfl rfl ?_
    simp [rowAt, row2, pred_fields p pd pa na, -Fin.ofNat_eq_cast]
  case bra f | brm f | call f =>
    refine .short (encJ_op f) rfl (by decide) rfl rfl ?_
    simp [rowAt, row3, fmtJ_encJ]
  case movi p d k lit => exact reads_movi p d k lit
  case nop p | ret p | exit p | yld p | cmt p | tret p =>
    refine .short (hdr_fields p).1 rfl (by decide) rfl rfl ?_
    simp [rowAt, row0, row3, rowE, hdr_fields p]
  case gsync p mask =>
    refine .long (hdr_fields p).1 rfl (by decide) rfl rfl ?_
    simp [rowAt, row9, hdr_fields p, encXO_div, xC_encXO]
  case jmp p a | callr p a =>
    refine .short (jump_fields p a).1 rfl (by decide) rfl rfl ?_
    simp [rowAt, row3, jump_fields p a]
  case brk p code | trap p code =>
    refine .short (code_fields p code).1 rfl (by decide) rfl rfl ?_
    simp [rowAt, row3, code_fields p code]
  case hint o z => exact reads_hint o z
  case wait p mask => exact reads_wait p mask
  case crd p d n => exact reads_crd p d n
  case cwr p a n => exact reads_cwr p a n
  case spec p lvl fix clr => exact reads_spec p lvl fix clr
  case loop p lv cnt len => exact reads_loop p lv cnt len
  case lexit p lv => exact reads_lexit p lv
  case rpt p n sd sa sb => exact reads_rpt p n sd sa sb
  case tbar p a n arrive => exact reads_tbar p a n arrive
  case cbar p a n arrive => exact reads_cbar p a n arrive
  case accZero p acc => exact reads_accZero p acc
  case accLd p acc a look dc off => exact reads_accLd p acc a look dc off
  case accSt p acc rls a look dc off => exact reads_accSt p acc rls a look dc off
  case accRd p d acc b => exact reads_accRd p d acc b
  case accWr p acc a b => exact reads_accWr p acc a b
  case accCvt p acc rls a fmt s32 sat dth => exact reads_accCvt p acc rls a fmt s32 sat dth
  case xcp p dth a look dc off => exact reads_xcp p dth a look dc off
  case xcpq p dth n a look dc off => exact reads_xcpq p dth n a look dc off
  case red p op len a look dc c t off => exact reads_red p op len a look dc c t off
  case tqPop p d look dc c => exact reads_tqPop p d look dc c
  case unassignedOpcode w => exact reads_unassigned w (hu w rfl)
  case tqPush f c | tqSteal f c =>
    refine .long (encC_op Nat.one_lt_two f) rfl (by decide) rfl rfl ?_
    simp [rowAt, row9, encC_x, fmtC_encC, encXO_div, xC_encXO]
  case mcst f c t off =>
    have ht : t.code < 16 := by have := t.code_lt; omega
    refine .long (encC_op Nat.one_lt_two f) rfl (by decide) rfl rfl ?_
    have he : xE (encXO c.val 0 t.code off.toNat) = 0 := xE_encXO c 0 _ _
    have hxt : xT (encXO c.val 0 t.code off.toNat) = t.code := xT_encXO c 0 ht _
    have hxo : xOff (encXO c.val 0 t.code off.toNat) = off := xOff_encXO c 0 ht _
    simp [rowAt, rowD, encC_x, fmtC_encC, xC_encXO, he, hxt, hxo, t.of_code]
  case mcldRed f c e t op =>
    have ht : t.code < 16 := by have := t.code_lt; omega
    have := op.code_lt
    refine .long (encC_op Nat.one_lt_two f) rfl (by decide) rfl rfl ?_
    have ho := encXO_off c e ht op.code
    have h0 : encXO c.val e.val t.code op.code / 0x40000 % 0x4000 = 0 := by omega
    have hop : encXO c.val e.val t.code op.code / 0x10000 % 4 = op.code := by omega
    simp [rowAt, rowD, encC_x, fmtC_encC, xC_encXO, xE_encXO, xT_encXO c e ht, h0, hop, t.of_code, op.of_code]
  case shfSide f c off =>
    refine .long (encC_op Nat.one_lt_two f) rfl (by decide) rfl rfl ?_
    have h0 : encXO c.val 0 0 off.toNat / 64 % 0x400 = 0 := by rw [encXO_div]; omega
    have hxo : xOff (encXO c.val 0 0 off.toNat) = off := xOff_encXO c 0 (by decide) _
    simp [rowAt, rowD, encC_x, fmtC_encC, xC_encXO, h0, hxo]
  case mmaBf16 f va z | mmaF16 f va z | mmaE4m3 f va z | mmaE5m2 f va z | mmaT8 f va z | mmaI8 f va z =>
    refine .short (mma_low f va z).1 rfl (by decide) rfl rfl ?_
    simp [rowAt, rowB, mma_low f va z]
  case mmaT6 f z => exact reads_mmaT6 f z
  case mmaMx8 f bsel z | mmaMx6 f bsel z | mmaMx4 f bsel z =>
    refine .short (mmaMx_low f bsel z).1 rfl (by decide) rfl rfl ?_
    simp [rowAt, rowB, mmaMx_low f bsel z, -Fin.ofNat_eq_cast]
  case rcp f | rsq f | sqrt f | ex2 f | lg2 f | sinpi f | cospi f | tanh f | sigm f | gelu f | silu f | erf f | collWait f
      | shfWait f =>
    refine .short (encC_op (by decide) f) rfl (by decide) rfl rfl ?_
    simp [rowAt, row6, rowD, encC_x, fmtC_encC]
  case ldN8 f x | ldS8 f x | ldN16 f x | ldS16 f x | ldB32 f x | ldB64 f x | ldB128 f x | stB8 f x | stB16 f x | stB32 f x
      | stB64 f x | stB128 f x =>
    refine .byX (encC_op (xBit_lt x) f) rfl (by decide) rfl rfl
      ((nX_xBit x (encC_x (xBit_lt x) f)).trans (encXM_isSome x).symm) ?_
    simp [rowAt, row7, encodeExt, fmtC_encC (xBit_lt x), xmOf_encXM x (encC_x (xBit_lt x) f)]
  case barInit f off | barExp f off | barArr f off | rlq f off | collArm f off | shfPost f off =>
    refine .byX (encC_op (xBit_lt off) f) rfl (by decide) rfl rfl
      ((nX_xBit off (encC_x (xBit_lt off) f)).trans (encOff_isSome off).symm) ?_
    simp [rowAt, rowC, rowD, encodeExt, fmtC_encC (xBit_lt off), xoOff_encOff off (encC_x (xBit_lt off) f)]
  case barWait f x | barTest f x =>
    refine .byX (encC_op (xBit_lt x) f) rfl (by decide) rfl rfl
      ((nX_xBit x (encC_x (xBit_lt x) f)).trans (encBarXO_isSome x).symm) ?_
    simp [rowAt, rowC, encodeExt, fmtC_encC (xBit_lt x), xoBar_encBarXO x (encC_x (xBit_lt x) f)]
  case atomAdd f t | atomMin f t | atomMax f t | atomAnd f t | atomOr f t | atomXor f t | atomExch f t | atomFadd f t =>
    have ht : t.code < 16 := by have := t.code_lt; omega
    refine .long (encC_op Nat.one_lt_two f.f) rfl (by decide) rfl rfl ?_
    have hf := fun op => atomF_encXO (op := op) f 0 ht
    have he : xE (encXO f.c.val 0 t.code f.off.toNat) = 0 := xE_encXO f.c 0 _ _
    have hxt : xT (encXO f.c.val 0 t.code f.off.toNat) = t.code := xT_encXO f.c 0 ht _
    simp only [Fin.val_zero] at hf
    simp [rowAt, row8, he, hxt, hf, t.of_code]
  case atomCas f e t =>
    have ht : t.code < 16 := by have := t.code_lt; omega
    refine .long (encC_op Nat.one_lt_two f.f) rfl (by decide) rfl rfl ?_
    simp [rowAt, row8, atomF_encXO f e ht, xE_encXO, xT_encXO f.c e ht, t.of_code]
  all_goals cases h

/-- Settles O1: each format's fields are read back, and where an extension word follows is settled by the opcode and its x bit. -/
theorem decodeEncodeRoundTrip : Obligations.DecodeEncodeRoundTrip := by
  unfold Obligations.DecodeEncodeRoundTrip
  intro i hp hwf
  obtain ⟨hd, hx⟩ := reads_of_isProgram i hp fun w e => by
    rw [e] at hwf
    exact (Bool.not_eq_true' _).mp hwf
  exact ⟨by rw [decodeWord, hd, Option.filter_some, if_pos hwf], hx⟩

end Sys2Proof
end

