-- ==== Sys2Proof/Proofs/RegisterFrame.lean ====
section
/-! The frame of the register operations (R59, R62, R113): each writes the registers and predicates that `regEffect` names, perhaps
c.fpst and c.dphase, and nothing else of the context. -/

namespace Sys2Proof.Machine

/-- Another predicate keeps its value. -/
theorem Ctx.pred_setPred_other (c : Ctx) (p q : Pred) (v : Bool) (h : q ≠ p) : (c.setPred p v).pred q = c.pred q := by
  have hbit : (1#15 <<< p.val).getLsbD q.val = false := by
    have : ¬(q.val = p.val) := fun e => h (Fin.ext e)
    rw [BitVec.getLsbD_shiftLeft, BitVec.getLsbD_one]
    simp only [Bool.and_eq_false_iff, Bool.not_eq_eq_eq_not, Bool.not_false, decide_eq_true_eq, decide_eq_false_iff_not]
    omega
  unfold Ctx.setPred
  split
  · rfl
  · cases v
    · by_cases hq : q.val < 15
      · simp only [Ctx.pred, BitVec.getLsbD_and, BitVec.getLsbD_not, hbit, hq, Bool.false_eq_true, if_false, decide_true,
          Bool.not_false, Bool.and_true]
      · simp [Ctx.pred, show q.val = 15 by omega]
    · simp only [Ctx.pred, BitVec.getLsbD_or, hbit, if_true, Bool.or_false]

/-! ## What a context update writes -/

/-- Of `c`, `d` has new at most the registers `ds`, the predicates `ps`, with `fl` c.fpst, and with `di` c.dphase. -/
structure WritesOnly (ds : List Reg) (ps : List Pred) (fl di : Bool) (c d : Ctx) : Prop where
  regs : ∀ r, r ∉ ds → d.reg r = c.reg r
  preds : ∀ p, p ∉ ps → d.pred p = c.pred p
  fpst : fl = false → d.fpst = c.fpst
  dphase : di = false → d.dphase = c.dphase
  rest : d = { c with g := d.g, win := d.win, preds := d.preds, fpst := d.fpst, dphase := d.dphase }

namespace WritesOnly

variable {ds : List Reg} {ps : List Pred} {fl di : Bool} {c d e : Ctx}

theorem refl (c : Ctx) : WritesOnly ds ps fl di c c := ⟨fun _ _ => rfl, fun _ _ => rfl, fun _ => rfl, fun _ => rfl, rfl⟩

theorem trans (h : WritesOnly ds ps fl di c d) (k : WritesOnly ds ps fl di d e) : WritesOnly ds ps fl di c e where
  regs r hr := (k.regs r hr).trans (h.regs r hr)
  preds p hp := (k.preds p hp).trans (h.preds p hp)
  fpst hf := (k.fpst hf).trans (h.fpst hf)
  dphase hd := (k.dphase hd).trans (h.dphase hd)
  rest := by
    have hk := k.rest
    rw [h.rest] at hk
    exact hk

theorem setReg {r : Reg} (h : r ∈ ds) (v : Word) : WritesOnly ds ps fl di c (c.setReg r v) where
  regs q hq := Ctx.reg_setReg_other c r q v (ne_of_mem_of_not_mem h hq).symm
  preds p _ := Ctx.pred_setReg c p r v
  fpst _ := Ctx.setReg_fpst c r v
  dphase _ := Ctx.setReg_dphase c r v
  rest := by
    unfold Ctx.setReg
    split
    · rfl
    · split <;> rfl

theorem setPair {r : Reg} (h : r ∈ ds) (h' : plusReg r 1 ∈ ds) (v : DWord) : WritesOnly ds ps fl di c (c.setPair r v) := by
  unfold Ctx.setPair
  split
  · exact refl c
  · exact (setReg h _).trans (setReg h' _)

/-- A run of registers. -/
theorem setRegs {r : Reg} {n : Nat} {vs : List Word} (hn : vs.length = n) (h : ∀ q ∈ regRun r n, q ∈ ds) :
    WritesOnly ds ps fl di c (c.setRegs r vs) := by
  induction vs generalizing c r n with
  | nil => exact refl c
  | cons v vs ih =>
    subst hn
    exact (setReg (h r (List.mem_cons_self ..)) v).trans (ih rfl fun q hq => h q (List.mem_cons_of_mem _ hq))

theorem setPred {p : Pred} (h : p ∈ ps) (v : Bool) : WritesOnly ds ps fl di c (c.setPred p v) where
  regs q _ := Ctx.reg_setPred c p v q
  preds q hq := Ctx.pred_setPred_other c p q v (ne_of_mem_of_not_mem h hq).symm
  fpst _ := Ctx.setPred_fpst c p v
  dphase _ := Ctx.setPred_dphase c p v
  rest := by
    unfold Ctx.setPred
    split <;> rfl

/-- R113: flags OR-ed. -/
theorem orFlags (w : Word) : WritesOnly ds ps true di c (c.orFlags w) :=
  ⟨fun _ _ => rfl, fun _ _ => rfl, nofun, fun _ => rfl, rfl⟩

theorem setF {r : Reg} (h : r ∈ ds) (v : Nat × Word) : WritesOnly ds ps true di c (c.setF r v) := (setReg h _).trans (orFlags _)

end WritesOnly

/-! ## Conversions, packing and unpacking -/

theorem length_wordsOfNat (n v : Nat) : (wordsOfNat n v).length = n := by
  induction n generalizing v with
  | zero => rfl
  | succ n ih => exact congrArg (· + 1) (ih _)

theorem length_unpackN (w n v : Nat) : (unpackN w n v).length = n := by
  induction n generalizing v with
  | zero => rfl
  | succ n ih => exact congrArg (· + 1) (ih _)

/-- R122: a conversion writes a pair where its destination is 64 bits wide. -/
theorem cvtTo_writesOnly (c : Ctx) (d : Reg) (df : ConvTy) (sat : Bool) (v : Num) :
    WritesOnly (if df.wide then pairRegs d else [d]) [] true false c (cvtTo c d df sat v) := by
  cases df with
  | fp _ | s32 | n32 => exact .setF (List.mem_singleton_self d) _
  | s64 | n64 => exact (WritesOnly.setPair (by simp [ConvTy.wide, pairRegs]) (by simp [ConvTy.wide, pairRegs]) _).trans (.orFlags _)

/-! ## Register operations -/

/-- The outcome of a register operation: the context rewritten, and the thread moved on. -/
def OutWrites (ds : List Reg) (ps : List Pred) (fl di : Bool) (s : State) (o : Out) : Prop :=
  ∀ t, o = .next t → ∃ c, WritesOnly ds ps fl di s.th.ctx c ∧ Moved (modCtx s fun _ => c) t

section

variable {s : State} {ds : List Reg} {ps : List Pred} {fl di : Bool} {p : Pred} {d : Reg}

theorem retire_writes : OutWrites ds ps fl di s (retire s) := by
  rintro t ⟨⟩
  exact ⟨s.th.ctx, .refl _, advance_moved s⟩

theorem regOp_writes {f : Ctx → Ctx} (h : WritesOnly ds ps fl di s.th.ctx (f s.th.ctx)) :
    OutWrites ds ps fl di s (regOp s p f) := by
  unfold regOp guarded
  split
  · rintro t ⟨⟩
    exact ⟨f s.th.ctx, h, advance_moved _⟩
  · exact retire_writes

theorem regOp_setReg_writes {v : Ctx → Word} : OutWrites [d] ps fl di s (regOp s p fun c => c.setReg d (v c)) :=
  regOp_writes (.setReg (List.mem_singleton_self d) _)

theorem regOp_setPair_writes {v : Ctx → DWord} : OutWrites (pairRegs d) ps fl di s (regOp s p fun c => c.setPair d (v c)) :=
  regOp_writes (.setPair (by simp [pairRegs]) (by simp [pairRegs]) _)

theorem regOp_setPred_writes {q : Pred} {v : Ctx → Bool} : OutWrites ds [q] fl di s (regOp s p fun c => c.setPred q (v c)) :=
  regOp_writes (.setPred (List.mem_singleton_self q) _)

theorem regOp_setF_writes {v : Ctx → Nat × Word} : OutWrites [d] ps true di s (regOp s p fun c => c.setF d (v c)) :=
  regOp_writes (.setF (List.mem_singleton_self d) _)

end

/-- R123: a packed result, its flags, and the dither's phase. -/
theorem execPkq_writes (f : FmtU) (fmt : PackFmt) (sat dth : Bool) (s : State) :
    OutWrites (regRun f.d (packWords fmt)) [] true dth s (execPkq f fmt sat dth s) := by
  refine regOp_writes ?_
  dsimp only
  have h {di : Bool} (v : Nat) (w : Word) :
      WritesOnly (regRun f.d (packWords fmt)) [] true di s.th.ctx ((s.th.ctx.setRegs f.d (wordsOfNat (packWords fmt) v)).orFlags w) :=
    (WritesOnly.setRegs (length_wordsOfNat _ v) fun _ => id).trans (.orFlags w)
  cases dth
  · exact h _ _
  · exact (h _ _).trans ⟨fun _ _ => rfl, fun _ _ => rfl, nofun, nofun, rfl⟩

/-- R124. -/
theorem execUpk_writes (f : FmtU) (fmt : PackFmt) (s : State) :
    OutWrites (regRun f.d fmt.count) [] true false s (execUpk f fmt s) :=
  regOp_writes ((WritesOnly.setRegs (by simp [length_unpackN]) fun _ => id).trans (.orFlags _))

/-- Every register operation writes what `regEffect` names. -/
theorem exec_writes {i : Instr} {ds : List Reg} {ps : List Pred} (h : regEffect i = some (ds, ps)) (s : State) :
    OutWrites ds ps (setsFlags i) (dithers i) s (exec i s) := by
  cases i
  case nop | hint => exact retire_writes
  case add | sub | mul | mulh | mad | div | rem | min | max | and | or | xor | andn | shl | shr | sar | rot | bfx | bfi | lea | abs
      | neg | not | clz | popc | brev | mov | addImm | andImm | orImm | xorImm | shlImm | shrImm | sarImm | fabs | fneg | fcls =>
    cases h
    exact regOp_setReg_writes
  case add64 | sub64 | mov64 | lea64 =>
    cases h
    exact regOp_setPair_writes
  case icmp | icmp64 | icmpImm | pand | por | pxor | pnot | pmov =>
    cases h
    exact regOp_setPred_writes
  case fadd | fsub | fmul | ffma | fmin | fmax | frnd | hadd2 | hmul2 | hfma2 =>
    cases h
    exact regOp_setF_writes
  case sel f wide sp =>
    cases h
    cases wide
    · exact regOp_setReg_writes
    · exact regOp_setPair_writes
  case movi p d k lit =>
    cases h
    cases k
    · exact regOp_setReg_writes
    · exact regOp_setPair_writes
    · exact regOp_setPair_writes
  case fcmp f cc =>
    cases h
    exact regOp_writes ((WritesOnly.setPred (List.mem_singleton_self _) _).trans (.orFlags _))
  case fcvt | fcvtSat =>
    cases h
    exact regOp_writes (cvtTo_writesOnly _ _ _ _ _)
  case pkq f fmt sat dth =>
    cases h
    exact execPkq_writes f fmt sat dth s
  case upk f fmt =>
    cases h
    exact execUpk_writes f fmt s
  all_goals cases h

/-- Settles O16: what a register operation leaves alone is what its writes do not name, and the advance past it moves the thread
alone. -/
theorem registerOperationFrame : Obligations.RegisterOperationFrame := by
  unfold Obligations.RegisterOperationFrame
  intro s t i ds ps h hx
  obtain ⟨c, hc, m⟩ := exec_writes h s t hx
  have hr := hc.rest
  have hdev : SameDevice s t := (modCtx_device s _).trans m.device
  exact ⟨fun r hn => (m.reg r).trans (hc.regs r hn), fun p hn => (m.pred p).trans (hc.preds p hn), hdev.memory, hdev, m.accs, m.ops,
    m.dc, m.trap, m.spec, m.res.trans (congrArg Ctx.res hr :), m.depth.trans (congrArg Ctx.depth hr :),
    m.spill.trans (congrArg Ctx.spill hr :), m.specials.inHandler.trans (congrArg Ctx.inH hr :), m.latch.trans (congrArg Ctx.latch hr :),
    fun hf => m.fpst.trans (hc.fpst hf), fun hd => m.dphase.trans (hc.dphase hd)⟩

end Sys2Proof.Machine
end

