-- ==== Sys2Proof/Proofs/Branches.lean ====
section
/-! Taken branches (R62, R69, R77, R97 to R99): the check of the target, and the loop levels that a transfer closes. -/

namespace Sys2Proof.Machine

/-! ## The checks of a target -/

theorem checkTarget_misaligned {s : State} {g : DWord} (h : g.toNat % 4 ≠ 0) : checkTarget s g = some (excOf cMisaligned g) := by
  simp [checkTarget, h]

theorem checkTarget_outside {s : State} {g : DWord} (h : g.toNat % 4 = 0) (hc : inCode s.th.place g 4 = false) :
    checkTarget s g = some (excOf cProt g) := by
  simp [checkTarget, h, hc]

/-! ## The levels that a transfer closes -/

/-- R77: level `k` is open, of this depth, and its body does not hold `g`. -/
def Ctx.Shuts (c : Ctx) (g : DWord) (k : Nat) : Prop :=
  k < c.ld ∧ (c.lvl k).dep = c.depth ∧ ¬((c.lvl k).beg ≤ g ∧ g < (c.lvl k).fin)

/-- The outermost such level closes with those inside it. -/
theorem closeLoops_outermost (c : Ctx) (g : DWord) :
    (∃ k, c.Shuts g k ∧ (∀ j, j < k → ¬c.Shuts g j) ∧ closeLoops c g = { c with ld := k })
      ∨ ((∀ k, ¬c.Shuts g k) ∧ closeLoops c g = c) := by
  have shuts_iff (k : Nat) (hk : k < c.ld) :
      c.Shuts g k ↔ ((c.lvl k).dep == c.depth && !(c.lvl k).holds g) = true := by
    simp only [Ctx.Shuts, LoopLvl.holds, hk, true_and, Bool.and_eq_true, beq_iff_eq, Bool.not_eq_true', ← Bool.not_eq_true,
      decide_eq_true_eq]
  unfold closeLoops
  split
  next h =>
    rw [List.find?_range_eq_none] at h
    refine .inr ⟨fun k hk => ?_, rfl⟩
    have hn := h k hk.1
    rw [(shuts_iff k hk.1).mp hk] at hn
    cases hn
  next k h =>
    obtain ⟨hs, hk, hmin⟩ := List.find?_range_eq_some.mp h
    rw [List.mem_range] at hk
    refine .inl ⟨k, (shuts_iff k hk).mpr hs, fun j hj hs' => ?_, rfl⟩
    have hn := hmin j hj
    rw [(shuts_iff j hs'.1).mp hs'] at hn
    cases hn

theorem closeLoops_loops (c : Ctx) (g : DWord) : LoopsOnly c (closeLoops c g) := by
  unfold closeLoops
  split <;> exact ⟨rfl⟩

theorem closeLoops_lvl (c : Ctx) (g : DWord) (k : Nat) : (closeLoops c g).lvl k = c.lvl k := by
  unfold closeLoops
  split <;> rfl

theorem closeLoops_ld_le (c : Ctx) (g : DWord) : (closeLoops c g).ld ≤ c.ld := by
  rcases closeLoops_outermost c g with ⟨k, hk, -, e⟩ | ⟨-, e⟩ <;> rw [e]
  exact Nat.le_of_lt hk.1

theorem closeLoops_ld {c : Ctx} {g : DWord} {k : Nat} (hk : c.Shuts g k) (hmin : ∀ j, j < k → ¬c.Shuts g j) :
    (closeLoops c g).ld = k := by
  rcases closeLoops_outermost c g with ⟨n, hn, nmin, e⟩ | ⟨h, -⟩
  · rw [e]
    rcases Nat.lt_trichotomy n k with h | h | h
    · exact absurd hn (hmin n h)
    · exact h
    · exact absurd hk (nmin k h)
  · exact absurd hk (h k)

theorem closeLoops_none {c : Ctx} {g : DWord} (h : ∀ k, ¬c.Shuts g k) : closeLoops c g = c := by
  rcases closeLoops_outermost c g with ⟨n, hn, -⟩ | ⟨-, e⟩
  · exact absurd hn (h n)
  · exact e

/-! ## The branches -/

/-- A branch under a true guard. -/
theorem exec_branch {s : State} {i : Instr} {p : Pred} {g : DWord} (hp : s.th.ctx.pred p = true)
    (hi : (∃ f : FmtJ, f.p = p ∧ (i = .bra f ∨ i = .brm f) ∧ g = s.th.ctx.pc + 4 * f.disp.signExtend 64)
      ∨ ∃ a, i = .jmp p a ∧ g = s.th.ctx.pair a) : ∃ brm, exec i s = branchTo s g brm := by
  rcases hi with ⟨f, rfl, rfl | rfl, rfl⟩ | ⟨a, rfl, rfl⟩
  · exact ⟨false, guarded_true s f.p (fun s => branchTo s (targetJ s f) false) hp⟩
  · exact ⟨true, guarded_true s f.p (fun s => branchTo s (targetJ s f) true) hp⟩
  · exact ⟨false, guarded_true s p (fun s => branchTo s (s.th.ctx.pair a) false) hp⟩

theorem branchTo_moved (s : State) (g : DWord) (brm : Bool) : Moved s (transfer (modCtx s fun c => closeLoops c g) g brm) :=
  (loops_moved s _ (closeLoops_loops _ g)).trans (transfer_moved _ g brm)

/-- Settles O23: the context after the transfer is that of the closed levels, standing at the target. -/
theorem branchesTaken : Obligations.BranchesTaken := by
  unfold Obligations.BranchesTaken
  intro s i p g hp hi
  obtain ⟨brm, he⟩ := exec_branch hp hi
  rw [he]
  refine ⟨fun h4 hc => ?_, fun h4 => ?_, fun h4 hc => ?_⟩
  · have m := branchTo_moved s g brm
    have hctx := transfer_ctx_eq (modCtx s fun c => closeLoops c g) g brm
    refine ⟨transfer (modCtx s fun c => closeLoops c g) g brm, by rw [branchTo, checkTarget_none h4 hc], congrArg Ctx.pc hctx,
      congrArg Ctx.clh hctx, ?_, ⟨fun k hk hmin => ?_, fun h => ?_, fun k => ?_⟩, ?_, fun r _ => m.reg r, fun q _ => m.pred q,
      m.specials, m.device.memory, m.device⟩
    · rw [hctx]
      exact closeLoops_ld_le _ g
    · rw [hctx]
      exact closeLoops_ld hk hmin
    · rw [hctx]
      exact (congrArg Ctx.ld (closeLoops_none h) :)
    · rw [hctx]
      exact closeLoops_lvl _ g k
    · rw [hctx]
      exact (congrArg (·.icount + 1) (closeLoops_loops s.th.ctx g).same :)
  · rw [branchTo, checkTarget_misaligned h4]
    rfl
  · rw [branchTo, checkTarget_outside h4 hc]
    rfl

end Sys2Proof.Machine
end

