-- ==== Sys2Proof/Proofs/Loops.lean ====
section
/-! Loops (R74 to R78, R99, R101): the end check, level by level; opening, skipping and leaving a loop. -/

namespace Sys2Proof.Machine

/-! ## The end check (R76) -/

theorem endCheck_unopened {c : Ctx} (h : c.ld = 0) (fuel : Nat) (a : DWord) : endCheck fuel c a = (c, a) := by
  cases fuel with
  | zero => rfl
  | succ fuel => rw [endCheck, if_pos h]

section

variable {c : Ctx} {n : Nat} {a : DWord} (hld : c.ld = n + 1)
include hld

/-- The innermost open level is of another depth, or ends elsewhere. -/
theorem endCheck_elsewhere (h : (c.lvl n).dep ≠ c.depth ∨ (c.lvl n).fin ≠ a) (fuel : Nat) : endCheck fuel c a = (c, a) := by
  cases fuel with
  | zero => rfl
  | succ fuel =>
    rw [endCheck, if_neg (by omega)]
    simp only [hld, Nat.add_sub_cancel]
    refine if_neg fun e => ?_
    obtain ⟨hdep, hfin⟩ := Bool.and_eq_true_iff.mp e
    exact h.elim (· (of_decide_eq_true hdep)) (· (of_decide_eq_true hfin))

variable (hdep : (c.lvl n).dep = c.depth) (hfin : (c.lvl n).fin = a)
include hdep hfin

/-- It ends at `a`: its count falls by 1, and decides. -/
theorem endCheck_counts (fuel : Nat) :
    endCheck (fuel + 1) c a =
      if (c.lvl n).cnt = 1 then endCheck fuel { c.setLvl n { c.lvl n with cnt := (c.lvl n).cnt - 1 } with ld := n } a
      else (c.setLvl n { c.lvl n with cnt := (c.lvl n).cnt - 1 }, (c.lvl n).beg) := by
  rw [endCheck, if_neg (by omega)]
  simp only [hld, Nat.add_sub_cancel, hdep, hfin, decide_true, Bool.and_self, if_true, bne_iff_ne, ne_eq, sub_eq_zero, ite_not]

end

/-! ## Contexts with the same loops -/

/-- The loop levels and the depth agree. -/
structure SameLoops (c d : Ctx) : Prop where
  lv0 : d.lv0 = c.lv0
  lv1 : d.lv1 = c.lv1
  lv2 : d.lv2 = c.lv2
  ld : d.ld = c.ld
  depth : d.depth = c.depth

theorem SameLoops.lvl {c d : Ctx} (h : SameLoops c d) (k : Nat) : d.lvl k = c.lvl k := by
  unfold Ctx.lvl
  rw [h.lv0, h.lv1, h.lv2]

theorem SameLoops.setLvl {c d : Ctx} (h : SameLoops c d) (k : Nat) (l : LoopLvl) : SameLoops (c.setLvl k l) (d.setLvl k l) := by
  unfold Ctx.setLvl
  split
  · exact ⟨rfl, h.lv1, h.lv2, h.ld, h.depth⟩
  · split
    · exact ⟨h.lv0, rfl, h.lv2, h.ld, h.depth⟩
    · exact ⟨h.lv0, h.lv1, rfl, h.ld, h.depth⟩

theorem SameLoops.withLd {c d : Ctx} (h : SameLoops c d) (n : Nat) : SameLoops { c with ld := n } { d with ld := n } :=
  ⟨h.lv0, h.lv1, h.lv2, rfl, h.depth⟩

/-- The end check looks at nothing but the loops. -/
theorem SameLoops.endCheck {c d : Ctx} (h : SameLoops c d) (fuel : Nat) (a : DWord) :
    SameLoops (endCheck fuel c a).1 (endCheck fuel d a).1 ∧ (Machine.endCheck fuel d a).2 = (Machine.endCheck fuel c a).2 := by
  induction fuel generalizing c d with
  | zero => exact ⟨h, rfl⟩
  | succ fuel ih =>
    simp only [Machine.endCheck, h.ld, h.depth, h.lvl]
    split
    · exact ⟨h, rfl⟩
    · split
      · split
        · exact ⟨h.setLvl _ _, rfl⟩
        · exact ih ((h.setLvl _ _).withLd _)
      · exact ⟨h, rfl⟩

/-! ## Going on at the end of a clause -/

/-- An instruction without a repeat, at its clause's end, goes on where the end check says. -/
theorem advance_at_cend {s : State} (hr : s.th.ctx.rep = none)
    (hc : s.th.ctx.pc + BitVec.ofNat 64 (4 * instrLen s) = s.th.ctx.cend) :
    (advance s).th.ctx = (endCheck 4 (issued s).th.ctx s.th.ctx.cend).1.land (endCheck 4 (issued s).th.ctx s.th.ctx.cend).2 := by
  have hstep : goOn (issued s) (instrLen s) = goOn.step (instrLen s) (issued s) := by
    rw [goOn, show (issued s).th.ctx.rep = none from hr]
  have hpc : (issued s).th.ctx.pc + dwOf (4 * instrLen s) = (issued s).th.ctx.cend := hc
  rw [advance, hstep, goOn.step, if_pos hpc, hpc, arrive_ctx, yieldAtEnd_ctx]
  rfl

/-! ## Levels of a context -/

theorem Ctx.lvl_setLvl_same (c : Ctx) (k : Fin 3) (l : LoopLvl) : (c.setLvl k.val l).lvl k.val = l := by
  unfold Ctx.lvl Ctx.setLvl
  split
  · rfl
  · split <;> rfl

theorem Ctx.setLvl_ld (c : Ctx) (k : Nat) (l : LoopLvl) : (c.setLvl k l).ld = c.ld := by
  unfold Ctx.setLvl
  split
  · rfl
  · split <;> rfl

/-! ## Going past a body -/

theorem skipTo_fault {s : State} {e : DWord} {x : Exc} (h : checkTarget s e = some x) (f : Ctx → Ctx) :
    skipTo s e f = raise s x := by
  rw [skipTo, h]

theorem skipTo_next {s : State} {e : DWord} (h : checkTarget s e = none) (f : Ctx → Ctx) :
    skipTo s e f = .next (transfer (modCtx s f) e false) := by
  rw [skipTo, h]

theorem skip_moved (s : State) (e : DWord) {f : Ctx → Ctx} (h : LoopsOnly s.th.ctx (f s.th.ctx)) :
    Moved s (transfer (modCtx s f) e false) :=
  (loops_moved s _ h).trans (transfer_moved _ e false)

/-! ## `loop` and `lexit` -/

/-- The end of the body of a loop whose instruction ends the clause. -/
def Ctx.bodyEnd (c : Ctx) (len : Fin 256) : DWord := c.cend + BitVec.ofNat 64 (4 * (len.val + 1))

/-- R75: the body lies in that of the level outside level `k`, where that one is of this depth. -/
def Ctx.BodyFits (c : Ctx) (k : Nat) (len : Fin 256) : Prop :=
  k = 0 ∨ (c.lvl (k - 1)).dep ≠ c.depth ∨ ((c.lvl (k - 1)).beg ≤ c.cend ∧ c.bodyEnd len ≤ (c.lvl (k - 1)).fin)

/-- The trip count. -/
def Ctx.trips (c : Ctx) : LoopCount → Word
  | .reg a => c.reg a
  | .lit v => v

/-- The level that a loop opens. -/
def Ctx.opened (c : Ctx) (k : Nat) (n : Word) (len : Fin 256) : Ctx :=
  { c.setLvl k { cnt := n, len := BitVec.ofNat 8 len.val, beg := c.cend, dep := c.depth } with ld := k + 1 }

theorem Ctx.opened_loops (c : Ctx) (k : Nat) (n : Word) (len : Fin 256) : LoopsOnly c (c.opened k n len) :=
  (setLvl_loops c k _).trans ⟨rfl⟩

/-- The state past a `loop` that opens level `k`. -/
def State.enterLoop (s : State) (k : Nat) (n : Word) (len : Fin 256) : State :=
  arrive (issued (yieldAtEnd (modCtx s fun c => c.opened k n len) s.th.ctx.cend)) s.th.ctx.cend false

theorem State.enterLoop_moved (s : State) (k : Nat) (n : Word) (len : Fin 256) : Moved s (s.enterLoop k n len) :=
  (((loops_moved s _ (s.th.ctx.opened_loops k n len)).trans (yieldAtEnd_moved _ _)).trans (issued_moved _)).trans
    (arrive_moved _ _ _)

theorem State.enterLoop_ctx (s : State) (k : Nat) (n : Word) (len : Fin 256) :
    (s.enterLoop k n len).th.ctx =
      { s.th.ctx.opened k n len with
        pc := s.th.ctx.cend, clh := s.th.ctx.cend, icount := (s.th.ctx.opened k n len).icount + 1, wmask := 0, wfrom := none,
        drain := false, cend := s.th.ctx.cend } := by
  unfold State.enterLoop
  rw [arrive_ctx]
  unfold issued modCtx
  simp only [yieldAtEnd_ctx]
  rfl

section

variable {s : State} {p : Pred} {lv : Fin 3} {cnt : LoopCount} {len : Fin 256}

theorem exec_loop_skipped (hp : s.th.ctx.pred p = false) : exec (.loop p lv cnt len) s = skipTo s (s.th.ctx.bodyEnd len) id := by
  show execLoop p lv cnt len s = _
  simp only [execLoop, guard, hp, Bool.not_false, if_true]
  rfl

theorem exec_loop_illegal (hp : s.th.ctx.pred p = true) (h : lv.val ≠ s.th.ctx.ld ∨ ¬s.th.ctx.BodyFits lv.val len) :
    exec (.loop p lv cnt len) s = illegal s := by
  show execLoop p lv cnt len s = _
  simp only [execLoop, guard, hp, Bool.not_true, Bool.false_eq_true, if_false]
  by_cases hk : lv.val = s.th.ctx.ld
  · obtain ⟨h0, hdep, hbody⟩ := not_or.mp (h.resolve_left (· hk)) |>.imp_right not_or.mp
    rw [if_neg (· hk), if_pos]
    simp only [Bool.and_eq_true, decide_eq_true_eq, beq_iff_eq, Bool.not_eq_true', ← Bool.not_eq_true]
    exact ⟨⟨Nat.pos_of_ne_zero h0, not_not.mp hdep⟩, hbody⟩
  · exact if_pos hk

theorem exec_loop_fits (hp : s.th.ctx.pred p = true) (hk : lv.val = s.th.ctx.ld) (hf : s.th.ctx.BodyFits lv.val len) :
    exec (.loop p lv cnt len) s =
      if s.th.ctx.trips cnt = 0 then skipTo s (s.th.ctx.bodyEnd len) fun c => c.setLvl lv.val { c.lvl lv.val with cnt := 0 }
      else .next (s.enterLoop lv.val (s.th.ctx.trips cnt) len) := by
  show execLoop p lv cnt len s = _
  simp only [execLoop, guard, hp, Bool.not_true, Bool.false_eq_true, if_false]
  rw [if_neg (· hk), if_neg]
  · cases cnt <;> rfl
  · simp only [Bool.and_eq_true, decide_eq_true_eq, beq_iff_eq, Bool.not_eq_true', ← Bool.not_eq_true]
    rintro ⟨⟨h0, hdep⟩, hbody⟩
    rcases hf with h | h | h
    · omega
    · exact h hdep
    · exact hbody h

theorem exec_lexit_open (hp : s.th.ctx.pred p = true) (hk : lv.val < s.th.ctx.ld) (hd : (s.th.ctx.lvl lv.val).dep = s.th.ctx.depth) :
    exec (.lexit p lv) s = skipTo s (s.th.ctx.lvl lv.val).fin fun c => { c with ld := lv.val } := by
  show execLexit p lv s = _
  rw [execLexit, guarded_true s p _ hp]
  refine if_neg ?_
  simp only [Bool.or_eq_true, decide_eq_true_eq, bne_iff_ne]
  rintro (h | h)
  · omega
  · exact h hd

theorem exec_lexit_illegal (hp : s.th.ctx.pred p = true)
    (h : s.th.ctx.ld ≤ lv.val ∨ (s.th.ctx.lvl lv.val).dep ≠ s.th.ctx.depth) : exec (.lexit p lv) s = illegal s := by
  show execLexit p lv s = _
  rw [execLexit, guarded_true s p _ hp]
  refine if_pos ?_
  simpa only [Bool.or_eq_true, decide_eq_true_eq, bne_iff_ne] using h

end

/-! ## The parts of the statement -/

/-- R76 of a single open level. -/
theorem endCheck_single {c : Ctx} {l : LoopLvl} (hld : c.ld = 1) (hl : c.lv0 = l) (hd : l.dep = c.depth) :
    (l.cnt ≠ 1 → (endCheck 4 c l.fin).2 = l.beg ∧ (endCheck 4 c l.fin).1.ld = 1 ∧ (endCheck 4 c l.fin).1.lv0.cnt = l.cnt - 1)
      ∧ (l.cnt = 1 → (endCheck 4 c l.fin).2 = l.fin ∧ (endCheck 4 c l.fin).1.ld = 0 ∧ (endCheck 4 c l.fin).1.lv0.cnt = 0)
      ∧ ∀ a, a ≠ l.fin → endCheck 4 c a = (c, a) := by
  subst hl
  have he := endCheck_counts (a := c.lv0.fin) (n := 0) hld hd rfl 3
  refine ⟨fun h => ?_, fun h => ?_, fun a ha => ?_⟩
  · rw [he.trans (if_neg h)]
    exact ⟨rfl, hld, rfl⟩
  · rw [he.trans (if_pos h), endCheck_unopened rfl]
    exact ⟨rfl, rfl, sub_eq_zero.mpr h⟩
  · exact endCheck_elsewhere (n := 0) hld (.inr ha.symm) 4

/-- R76: an instruction that ends its clause goes on where the check says. -/
theorem nop_at_cend {s : State} (p : Pred) (hr : s.th.ctx.rep = none)
    (hc : s.th.ctx.pc + BitVec.ofNat 64 (4 * instrLen s) = s.th.ctx.cend) :
    let e := endCheck 4 s.th.ctx s.th.ctx.cend
    ∃ t, exec (.nop p) s = .next t ∧ t.th.ctx.pc = e.2 ∧ t.th.ctx.clh = e.2 ∧ t.th.ctx.ld = e.1.ld
      ∧ (∀ k, t.th.ctx.lvl k = e.1.lvl k) ∧ SameRegsBut [] s t ∧ SameMemory s t := by
  have m := advance_moved s
  have hctx := advance_at_cend hr hc
  obtain ⟨hl, hpc⟩ := SameLoops.endCheck (c := s.th.ctx) (d := (issued s).th.ctx) ⟨rfl, rfl, rfl, rfl, rfl⟩ 4 s.th.ctx.cend
  refine ⟨advance s, rfl, ?_, ?_, ?_, fun k => ?_, fun r _ => m.reg r, m.device.memory⟩
  · rw [hctx]
    exact hpc
  · rw [hctx]
    exact hpc
  · rw [hctx]
    exact hl.ld
  · rw [hctx]
    exact hl.lvl k

/-- A `loop` under a false guard goes to the body's end. -/
theorem loop_under_false_guard {s : State} {p : Pred} (hp : s.th.ctx.pred p = false) (lv : Fin 3) (cnt : LoopCount) (len : Fin 256) :
    (checkTarget s (s.th.ctx.bodyEnd len) = none →
        ∃ t, exec (.loop p lv cnt len) s = .next t ∧ t.th.ctx.pc = s.th.ctx.bodyEnd len ∧ t.th.ctx.ld = s.th.ctx.ld)
      ∧ ∀ x, checkTarget s (s.th.ctx.bodyEnd len) = some x → exec (.loop p lv cnt len) s = raise s x := by
  rw [exec_loop_skipped hp]
  refine ⟨fun hn => ⟨_, skipTo_next hn id, ?_⟩, fun x hx => skipTo_fault hx id⟩
  rw [transfer_ctx_eq]
  exact ⟨rfl, rfl⟩

/-- A `loop` with `n` trips that may open its level: it skips the body at 0, and else opens the level at the body's start. -/
theorem loop_skips_or_opens {s : State} {p : Pred} {lv : Fin 3} {cnt : LoopCount} {len : Fin 256} {n : Word}
    (hp : s.th.ctx.pred p = true) (hk : lv.val = s.th.ctx.ld) (hf : s.th.ctx.BodyFits lv.val len) (htrips : s.th.ctx.trips cnt = n) :
    (n = 0 → checkTarget s (s.th.ctx.bodyEnd len) = none →
        ∃ t, exec (.loop p lv cnt len) s = .next t ∧ t.th.ctx.pc = s.th.ctx.bodyEnd len ∧ (t.th.ctx.lvl lv.val).cnt = 0
          ∧ t.th.ctx.ld = s.th.ctx.ld ∧ SameRegsBut [] s t ∧ SameMemory s t)
      ∧ (∀ x, n = 0 → checkTarget s (s.th.ctx.bodyEnd len) = some x → exec (.loop p lv cnt len) s = raise s x)
      ∧ (n ≠ 0 → ∃ t, exec (.loop p lv cnt len) s = .next t ∧ t.th.ctx.pc = s.th.ctx.cend ∧ t.th.ctx.ld = s.th.ctx.ld + 1
          ∧ t.th.ctx.lvl lv.val = ⟨n, BitVec.ofNat 8 len.val, s.th.ctx.cend, s.th.ctx.depth⟩ ∧ SameRegsBut [] s t ∧ SameMemory s t) := by
  rw [exec_loop_fits hp hk hf, htrips]
  refine ⟨fun h0 hn => ?_, fun x h0 hx => ?_, fun h0 => ?_⟩
  · have m := skip_moved s (s.th.ctx.bodyEnd len) (f := fun c => c.setLvl lv.val { c.lvl lv.val with cnt := 0 })
      (setLvl_loops _ _ _)
    rw [if_pos h0]
    refine ⟨_, skipTo_next hn _, ?_, ?_, ?_, fun r _ => m.reg r, m.device.memory⟩ <;> rw [transfer_ctx_eq]
    · rfl
    · exact congrArg LoopLvl.cnt (s.th.ctx.lvl_setLvl_same lv _)
    · exact s.th.ctx.setLvl_ld lv.val _
  · rw [if_pos h0]
    exact skipTo_fault hx _
  · have m := s.enterLoop_moved lv.val n len
    rw [if_neg h0]
    refine ⟨_, rfl, ?_, ?_, ?_, fun r _ => m.reg r, m.device.memory⟩ <;> rw [State.enterLoop_ctx]
    · rw [← hk]
      rfl
    · exact s.th.ctx.lvl_setLvl_same lv _

/-- `lexit` of an open level of this depth. -/
theorem lexit_closes {s : State} {p : Pred} {lv : Fin 3} (hp : s.th.ctx.pred p = true) (hk : lv.val < s.th.ctx.ld)
    (hd : (s.th.ctx.lvl lv.val).dep = s.th.ctx.depth) :
    (checkTarget s (s.th.ctx.lvl lv.val).fin = none →
        ∃ t, exec (.lexit p lv) s = .next t ∧ t.th.ctx.pc = (s.th.ctx.lvl lv.val).fin ∧ t.th.ctx.ld = lv.val
          ∧ SameRegsBut [] s t ∧ SameMemory s t)
      ∧ ∀ x, checkTarget s (s.th.ctx.lvl lv.val).fin = some x → exec (.lexit p lv) s = raise s x := by
  have m := skip_moved s (s.th.ctx.lvl lv.val).fin (f := fun c => { c with ld := lv.val }) ⟨rfl⟩
  rw [exec_lexit_open hp hk hd]
  refine ⟨fun hn => ⟨_, skipTo_next hn _, ?_, ?_, fun r _ => m.reg r, m.device.memory⟩, fun x hx => skipTo_fault hx _⟩
    <;> rw [transfer_ctx_eq] <;> rfl

/-- Settles O27, from the equations of the end check and of `loop` and `lexit` in each case. -/
theorem loopsOpenAndClose : Obligations.LoopsOpenAndClose := by
  unfold Obligations.LoopsOpenAndClose
  refine ⟨fun s p lv cnt len => ⟨fun hp => loop_under_false_guard hp lv cnt len, fun hp h => exec_loop_illegal hp h,
      fun hp hk hf => ?_, fun hp hk hd => lexit_closes hp hk hd, fun hp h => exec_lexit_illegal hp h⟩,
    fun c l hld hl hd _ => endCheck_single hld hl hd,
    fun c n a _ hld hd hf => ⟨fun h => (endCheck_counts hld hd hf 3).trans (if_neg h),
      fun h => (endCheck_counts hld hd hf 3).trans (if_pos h)⟩,
    fun c n fuel a hld h => endCheck_elsewhere hld h fuel, fun s p => nop_at_cend p⟩
  cases cnt with
  | reg a => exact loop_skips_or_opens hp hk hf rfl
  | lit v => exact loop_skips_or_opens hp hk hf rfl

end Sys2Proof.Machine
end

