-- ==== Sys2Proof/Proofs/Prefixes.lean ====
section
/-! `rpt` and the issues of a repeat, and the instructions that only mark the thread as it moves on (R72, R73, R102, R103,
R148, R252). -/

namespace Sys2Proof.Machine

/-! ## The issues of a repeat (R72, R73) -/

/-- Going on to the next word or the next header leaves the repeat as it stands. -/
theorem goOn_step_repeat (s : State) (n : Nat) :
    (goOn.step n s).th.ctx.ri = s.th.ctx.ri ∧ (goOn.step n s).th.ctx.rep = s.th.ctx.rep := by
  unfold goOn.step
  simp only
  split
  · rw [arrive_ctx]
    have h := (endCheck_loops 4 (yieldAtEnd s (s.th.ctx.pc + dwOf (4 * n))).th.ctx (s.th.ctx.pc + dwOf (4 * n))).same
    rw [yieldAtEnd_ctx] at h
    rw [yieldAtEnd_ctx]
    exact ⟨(congrArg Ctx.ri h :), (congrArg Ctx.rep h :)⟩
  · exact ⟨rfl, rfl⟩

section

variable {s : State} {r : Rep} (hr : s.th.ctx.rep = some r)
include hr

/-- Between two issues of a repeat the position stays and the index rises. -/
theorem advance_in_repeat (h : s.th.ctx.ri.toNat + 1 < r.n) :
    advance s = modCtx (issued s) fun c => { c with ri := c.ri + 1 } := by
  rw [advance, goOn, show (issued s).th.ctx.rep = some r from hr]
  exact if_pos h

/-- The last issue ends the repeat. -/
theorem advance_ends_repeat (h : r.n ≤ s.th.ctx.ri.toNat + 1) :
    advance s = goOn.step (instrLen s) (modCtx (issued s) fun c => { c with ri := 0, rep := none }) := by
  rw [advance, goOn, show (issued s).th.ctx.rep = some r from hr]
  exact if_neg (Nat.not_lt.mpr h)

end

/-- R72, R73 of an advance. -/
theorem advance_repeat {s : State} {r : Rep} (hr : s.th.ctx.rep = some r) :
    (s.th.ctx.ri.toNat + 1 < r.n →
        (advance s).th.ctx.ri = s.th.ctx.ri + 1 ∧ (advance s).th.ctx.pc = s.th.ctx.pc ∧ (advance s).th.ctx.rep = some r)
      ∧ (r.n ≤ s.th.ctx.ri.toNat + 1 → (advance s).th.ctx.ri = 0 ∧ (advance s).th.ctx.rep = none) := by
  refine ⟨fun h => ?_, fun h => ?_⟩
  · rw [advance_in_repeat hr h]
    exact ⟨rfl, rfl, hr⟩
  · rw [advance_ends_repeat hr h]
    exact goOn_step_repeat _ _

/-! ## `rpt` -/

section

variable {s : State} {p : Pred} {n : Fin 64} {sd sa sb : Fin 8} {w : Word}

theorem exec_rpt_fault {e : Exc} (hw : fetchWord s s.th (s.th.ctx.pc + 4) = .error e) : exec (.rpt p n sd sa sb) s = raise s e := by
  show execRpt p n sd sa sb s = _
  simp only [execRpt, hw]

theorem exec_rpt_illegal (hw : fetchWord s s.th (s.th.ctx.pc + 4) = .ok w) (hl : rptLegal w.toNat sb.val = false) :
    exec (.rpt p n sd sa sb) s = illegal s := by
  show execRpt p n sd sa sb s = _
  simp only [execRpt, hw, hl, Bool.not_false, if_true]

/-- Before an instruction that may be repeated. -/
theorem exec_rpt (hw : fetchWord s s.th (s.th.ctx.pc + 4) = .ok w) (hl : rptLegal w.toNat sb.val = true) :
    exec (.rpt p n sd sa sb) s =
      if s.th.ctx.pred p = false then .next (modCtx s fun c => { c with pc := c.pc + 4, rep := some ⟨c.pc, 1, 0, 0, 0⟩ })
      else if s.th.ctx.ri.toNat ≤ n.val then
        .next (modCtx s fun c => { c with pc := c.pc + 4, rep := some ⟨c.pc, n.val + 1, sd.val, sa.val, sb.val⟩ })
      else .next (goOn (modCtx s fun c => { c with pc := c.pc + 4, ri := 0 }) (if hasExt w.toNat then 2 else 1)) := by
  show execRpt p n sd sa sb s = _
  simp only [execRpt, hw, hl, guard, Bool.not_true, Bool.false_eq_true, if_false, Bool.not_eq_true']

end

/-! ## Waits, drains and yields -/

section

variable {s : State} {p : Pred} (hp : s.th.ctx.pred p = true)
include hp

theorem exec_wait (mask : BitVec 6) :
    exec (.wait p mask) s = .next (modCtx (advance s) fun c => { c with wmask := c.wmask ||| mask, wfrom := some s.th.ctx.waitAt }) :=
  show execWait p mask s = _ by rw [execWait, guarded_true s p _ hp]; rfl

theorem exec_cmt : exec (.cmt p) s = .next (modCtx (advance s) fun c => { c with drain := true }) :=
  show execCmt p s = _ by rw [execCmt, guarded_true s p _ hp]; rfl

theorem exec_yld : exec (.yld p) s = .next (modTh (advance s) fun t => { t with yielded := some 0 }) :=
  show execYld p s = _ by rw [execYld, guarded_true s p _ hp]; rfl

end

/-- Settles O28, from the equation of each instruction and the issues of a repeat. -/
theorem prefixWaitsAndHints : Obligations.PrefixWaitsAndHints := by
  unfold Obligations.PrefixWaitsAndHints
  refine ⟨fun s p n sd sa sb w mask o z => ⟨fun hw hl hp hn => ?_, fun hw hl hp => ?_, fun hw hl hp hn => ?_,
    fun hw hl => exec_rpt_illegal hw hl, fun e hw => exec_rpt_fault hw, rfl, rfl, fun hp => ⟨?_, ?_, ?_⟩⟩, fun s r => advance_repeat⟩
  · rw [exec_rpt hw hl, if_neg (Bool.not_eq_false _ ▸ hp), if_pos hn]
    exact ⟨_, rfl, rfl, rfl, rfl⟩
  · rw [exec_rpt hw hl, if_pos hp]
    exact ⟨_, rfl, rfl, rfl, rfl⟩
  · rw [exec_rpt hw hl, if_neg (Bool.not_eq_false _ ▸ hp), if_neg (Nat.not_le.mpr hn)]
    exact ⟨_, rfl, rfl⟩
  · have m := advance_moved s
    exact ⟨_, exec_wait hp mask, rfl, rfl, fun r _ => m.reg r, (m.device.trans (modCtx_device _ _)).memory⟩
  · have m := advance_moved s
    exact ⟨_, exec_cmt hp, rfl, rfl, fun r _ => m.reg r, (m.device.trans (modCtx_device _ _)).memory⟩
  · exact ⟨_, exec_yld hp, rfl, rfl, ((advance_moved s).device.trans (modTh_device _ _)).memory⟩

end Sys2Proof.Machine
end

