-- ==== Sys2Proof/Proofs/IntegerWords.lean ====
section
/-! Integer words (R89 to R92): what each operation on words leaves, as a number or bit by bit. -/

namespace Sys2Proof.Machine

/-! ## Arithmetic (R89) -/

/-- sat(x, .s32). -/
theorem satS32_eq (x : Int) : satS32 x = BitVec.ofInt 32 (clampTo (-2 ^ 31) (2 ^ 31 - 1) x) := by
  rw [clampTo, apply_ite (BitVec.ofInt 32), apply_ite (BitVec.ofInt 32)]
  rfl

/-- sat(x, .n32). -/
theorem satN32_eq (x : Int) : satN32 x = BitVec.ofInt 32 (clampTo 0 (2 ^ 32 - 1) x) := by
  rw [clampTo, apply_ite (BitVec.ofInt 32), apply_ite (BitVec.ofInt 32)]
  rfl

theorem extractLsb'_high_ofInt (z : Int) : (BitVec.ofInt 64 z).extractLsb' 32 32 = BitVec.ofInt 32 (z / 0x100000000) := by
  apply BitVec.eq_of_toNat_eq
  simp only [BitVec.extractLsb'_toNat, BitVec.toNat_ofInt, Nat.shiftRight_eq_div_pow]
  omega

theorem extractLsb'_high_ofNat (n : Nat) : (BitVec.ofNat 64 n).extractLsb' 32 32 = BitVec.ofNat 32 (n / 0x100000000) := by
  apply BitVec.eq_of_toNat_eq
  simp only [BitVec.extractLsb'_toNat, BitVec.toNat_ofNat, Nat.shiftRight_eq_div_pow]
  omega

theorem mulhW_signed (a b : Word) : mulhW .s a b = (a.signExtend 64 * b.signExtend 64).extractLsb' 32 32 := by
  have h : a.signExtend 64 * b.signExtend 64 = BitVec.ofInt 64 (a.toInt * b.toInt) := (BitVec.ofInt_mul _ _).symm
  rw [h, extractLsb'_high_ofInt]
  rfl

theorem mulhW_unsigned (a b : Word) : mulhW .n a b = (a.zeroExtend 64 * b.zeroExtend 64).extractLsb' 32 32 := by
  have h : a.zeroExtend 64 * b.zeroExtend 64 = BitVec.ofNat 64 (a.toNat * b.toNat) := by
    simp only [BitVec.ofNat_mul, BitVec.ofNat_toNat]
  rw [h, extractLsb'_high_ofNat]
  rfl

theorem minW_signed (a b : Word) : minW .s a b = BitVec.ofInt 32 (min a.toInt b.toInt) := by
  unfold minW ltW
  rcases lt_or_ge b.toInt a.toInt with h | h
  · simp [h, min_eq_right h.le]
  · simp [h, h.not_gt]

theorem minW_unsigned (a b : Word) : minW .n a b = BitVec.ofNat 32 (min a.toNat b.toNat) := by
  unfold minW ltW
  rcases lt_or_ge b.toNat a.toNat with h | h
  · simp [h, min_eq_right h.le]
  · simp [h, h.not_gt]

theorem maxW_signed (a b : Word) : maxW .s a b = BitVec.ofInt 32 (max a.toInt b.toInt) := by
  unfold maxW ltW
  rcases lt_or_ge a.toInt b.toInt with h | h
  · simp [h, max_eq_right h.le]
  · simp [h, h.not_gt]

theorem maxW_unsigned (a b : Word) : maxW .n a b = BitVec.ofNat 32 (max a.toNat b.toNat) := by
  unfold maxW ltW
  rcases lt_or_ge a.toNat b.toNat with h | h
  · simp [h, max_eq_right h.le]
  · simp [h, h.not_gt]

theorem negW_wrap (a : Word) : negW false a = BitVec.ofInt 32 (-a.toInt) := by
  simp [negW, BitVec.ofInt_neg]

/-- Only the most negative word's negative is clamped. -/
theorem negW_sat (a : Word) : negW true a = BitVec.ofInt 32 (clampTo (-2 ^ 31) (2 ^ 31 - 1) (-a.toInt)) := by
  by_cases h : a = 0x80000000
  · subst h
    decide
  · have hi : a.toInt ≠ -2 ^ 31 := fun e => h (BitVec.eq_of_toInt_eq e)
    have := BitVec.le_toInt a
    have := BitVec.toInt_lt (x := a)
    rw [clampTo, if_neg (by omega), if_neg (by omega), ← negW_wrap]
    simp only [negW, Bool.true_and, Bool.false_and, beq_iff_eq, h, Bool.false_eq_true, if_false]

/-- `abs` is `neg` of a negative word and no change of another. -/
theorem absW_eq {sat : Bool} {v : Int → Word} (hneg : ∀ a : Word, negW sat a = v (-a.toInt))
    (hpos : ∀ a : Word, 0 ≤ a.toInt → v a.toInt = a) (a : Word) : absW sat a = v a.toInt.natAbs := by
  unfold absW
  split
  · rw [hneg, Int.ofNat_natAbs_of_nonpos (by omega)]
  · rw [Int.natAbs_of_nonneg (by omega), hpos a (by omega)]

theorem absW_wrap (a : Word) : absW false a = BitVec.ofInt 32 a.toInt.natAbs :=
  absW_eq negW_wrap (fun _ _ => BitVec.ofInt_toInt) a

theorem absW_sat (a : Word) : absW true a = BitVec.ofInt 32 (clampTo (-2 ^ 31) (2 ^ 31 - 1) (a.toInt.natAbs : Int)) := by
  refine absW_eq (v := fun x => BitVec.ofInt 32 (clampTo (-2 ^ 31) (2 ^ 31 - 1) x)) negW_sat (fun a h => ?_) a
  have := BitVec.toInt_lt (x := a)
  rw [clampTo, if_neg (by omega), if_neg (by omega), BitVec.ofInt_toInt]

/-! ## Division (R90) -/

/-- The quotient rounded toward zero, and −1 for a zero divisor. -/
def divQuotient (x y : Int) : Int := if y = 0 then -1 else x.tdiv y

/-- The remainder with the dividend's sign, and the dividend for a zero divisor. -/
def divRemainder (x y : Int) : Int := if y = 0 then x else x.tmod y

/-- R90: a word's value as `div` and `rem` read it. -/
def sgnValue (m : Sgn) (a : Word) : Int := if m = .s then a.toInt else a.toNat

theorem sgnValue_eq_zero (m : Sgn) (a : Word) : sgnValue m a = 0 ↔ a = 0 := by
  cases m with
  | s => exact BitVec.toInt_inj (y := 0#32)
  | n => exact Int.natCast_eq_zero.trans (BitVec.toNat_inj (y := 0#32))

theorem divW_eq (m : Sgn) (a b : Word) : divW m a b = BitVec.ofInt 32 (divQuotient (sgnValue m a) (sgnValue m b)) := by
  simp only [divQuotient, apply_ite (BitVec.ofInt 32), sgnValue_eq_zero]
  cases m with
  | s => rfl
  | n => exact congrArg (ite _ _) (BitVec.ofInt_natCast 32 (a.toNat / b.toNat)).symm

theorem remW_eq (m : Sgn) (a b : Word) : remW m a b = BitVec.ofInt 32 (divRemainder (sgnValue m a) (sgnValue m b)) := by
  simp only [divRemainder, apply_ite (BitVec.ofInt 32), sgnValue_eq_zero]
  cases m with
  | s =>
    simp only [sgnValue, if_true, BitVec.ofInt_toInt]
    rfl
  | n =>
    simp only [sgnValue, reduceCtorEq, if_false, ← Int.ofNat_tmod, BitVec.ofInt_natCast, BitVec.ofNat_toNat, BitVec.setWidth_eq]
    rfl

/-- R90: away from a zero divisor, quotient and remainder make up the dividend. -/
theorem divQuotient_mul_add {x y : Int} (hy : y ≠ 0) :
    x = divQuotient x y * y + divRemainder x y ∧ (divRemainder x y).natAbs < y.natAbs
      ∧ (0 ≤ x → 0 ≤ divRemainder x y) ∧ (x ≤ 0 → divRemainder x y ≤ 0) := by
  simp only [divQuotient, divRemainder, hy, if_false]
  refine ⟨?_, ?_, Int.tmod_nonneg y, fun h => ?_⟩
  · rw [mul_comm]
    exact (Int.mul_tdiv_add_tmod x y).symm
  · rw [Int.natAbs_tmod]
    exact Nat.mod_lt _ (Int.natAbs_pos.mpr hy)
  · have := Int.tmod_nonneg y (neg_nonneg.mpr h)
    rw [Int.neg_tmod] at this
    omega

/-! ## Shifts and rotations (R91) -/

theorem shlW_eq (a : Word) (n : Nat) : shlW a n = BitVec.ofNat 32 (a.toNat * 2 ^ n) := by
  unfold shlW
  split
  · obtain ⟨k, rfl⟩ := Nat.exists_eq_add_of_le ‹n ≥ 32›
    apply BitVec.eq_of_toNat_eq
    rw [BitVec.toNat_ofNat, pow_add, mul_left_comm, Nat.mul_mod_right]
    rfl
  · rw [← Nat.shiftLeft_eq]
    rfl

theorem shrW_eq (a : Word) (n : Nat) : shrW a n = BitVec.ofNat 32 (a.toNat / 2 ^ n) := by
  unfold shrW
  split
  · have : a.toNat < 2 ^ n := a.isLt.trans_le (Nat.pow_le_pow_right (by omega) ‹n ≥ 32›)
    rw [Nat.div_eq_of_lt this]
    rfl
  · apply BitVec.eq_of_toNat_eq
    have := Nat.div_le_self a.toNat (2 ^ n)
    rw [BitVec.toNat_ushiftRight, Nat.shiftRight_eq_div_pow, BitVec.toNat_ofNat, Nat.mod_eq_of_lt (by omega)]

/-- A word's value divided by more than any word holds leaves its sign. -/
theorem toInt_ediv_large (a : Word) {n : Nat} (h : 31 ≤ n) : a.toInt / 2 ^ n = if a.toInt < 0 then -1 else 0 := by
  have hn : (2 ^ 31 : Int) ≤ 2 ^ n := pow_le_pow_right₀ (by norm_num) h
  have := BitVec.le_toInt a
  have := BitVec.toInt_lt (x := a)
  split
  · exact ((Int.ediv_emod_unique (r := a.toInt + 2 ^ n) (by omega)).mpr ⟨by omega, by omega, by omega⟩).1
  · exact Int.ediv_eq_zero_of_lt (by omega) (by omega)

theorem sarW_eq (a : Word) (n : Nat) : sarW a n = BitVec.ofInt 32 (a.toInt / 2 ^ n) := by
  rw [sarW, BitVec.sshiftRight_eq, Int.shiftRight_eq_div_pow]
  split
  · have h := toInt_ediv_large a (le_refl 31)
    have := toInt_ediv_large a (n := n) (by omega)
    push_cast at *
    rw [h, this]
  · push_cast
    rfl

theorem rotW_left_bit (a : Word) (n i : Nat) (h : i < 32) : (rotW false a n).getLsbD ((i + n) % 32) = a.getLsbD i := by
  simp only [rotW, Bool.false_eq_true, if_false, BitVec.getLsbD_rotateLeft]
  by_cases hw : (i + n) % 32 < n % 32 % 32
  · simp only [hw, decide_true, cond_true]
    congr 1
    omega
  · simp only [hw, decide_false, cond_false, show (i + n) % 32 < 32 by omega, decide_true, Bool.true_and]
    congr 1
    omega

theorem rotW_right_bit (a : Word) (n i : Nat) (h : i < 32) : (rotW true a n).getLsbD i = a.getLsbD ((i + n) % 32) := by
  simp only [rotW, if_true, BitVec.getLsbD_rotateRight]
  by_cases hw : i < 32 - n % 32 % 32
  · simp only [hw, decide_true, cond_true]
    congr 1
    omega
  · simp only [hw, decide_false, cond_false, h, decide_true, Bool.true_and]
    congr 1
    omega

/-! ## Counts and reversal (R91) -/

theorem clzFrom_le (n : Nat) (a : Word) : clzFrom n a ≤ n := by
  induction n with
  | zero => exact le_refl 0
  | succ n ih =>
    rw [clzFrom]
    split <;> omega

/-- Above the first set bit below `n` there is none. -/
theorem clzFrom_clear (n : Nat) (a : Word) (i : Nat) (h : n - clzFrom n a ≤ i) (hi : i < n) : a.getLsbD i = false := by
  induction n with
  | zero => omega
  | succ n ih =>
    rw [clzFrom] at h
    split at h
    · omega
    · rename_i hn
      rcases Nat.lt_succ_iff_lt_or_eq.mp hi with hi | rfl
      · exact ih (by omega) hi
      · simpa using hn

theorem clzFrom_set (n : Nat) (a : Word) (h : clzFrom n a < n) : a.getLsbD (n - 1 - clzFrom n a) = true := by
  induction n with
  | zero => omega
  | succ n ih =>
    rw [clzFrom] at h ⊢
    split
    · simpa
    · rename_i hn
      rw [if_neg hn] at h
      have := ih (by omega)
      rwa [show n + 1 - 1 - (1 + clzFrom n a) = n - 1 - clzFrom n a by omega]

/-- R91: the word has no bit above its leading zeros, and the first one below them set. -/
theorem clz_bounds (a : Word) :
    a.toNat < 2 ^ (32 - clzFrom 32 a) ∧ (clzFrom 32 a < 32 → 2 ^ (31 - clzFrom 32 a) ≤ a.toNat) := by
  refine ⟨Nat.lt_pow_two_of_testBit _ fun i hi => ?_, fun h => Nat.ge_two_pow_of_testBit (clzFrom_set 32 a h)⟩
  by_cases h : i < 32
  · exact clzFrom_clear 32 a i hi h
  · exact BitVec.getLsbD_of_ge a i (by omega)

theorem popcFrom_eq (n : Nat) (a : Word) : popcFrom n a = (List.range n).countP fun i => a.getLsbD i := by
  induction n with
  | zero => rfl
  | succ n ih =>
    rw [popcFrom, ih, List.range_succ, List.countP_append, Nat.add_comm]
    simp

theorem brevW_bit (a : Word) (i : Nat) (h : i < 32) : (brevW a).getLsbD i = a.getLsbD (31 - i) := by
  rw [brevW, BitVec.getLsbD_reverse, BitVec.getMsbD_eq_getLsbD]
  simp [h]

/-! ## Bit fields (R92) -/

theorem fieldLen_le (b : Word) : fieldLen b ≤ 32 := Nat.min_le_right _ _
theorem fieldPos_le (b : Word) : fieldPos b ≤ 32 := Nat.min_le_right _ _

/-- sext of a field is its value as a two's-complement number of its length. -/
theorem sextN_eq_toInt (n x : Nat) (hn : 0 < n) : sextN n x = (BitVec.ofNat n x).toInt := by
  obtain ⟨k, rfl⟩ : ∃ k, n = k + 1 := ⟨n - 1, by omega⟩
  have := pow_succ 2 k
  simp only [sextN, BitVec.toInt, BitVec.toNat_ofNat, Nat.add_sub_cancel]
  by_cases h : x % 2 ^ (k + 1) ≥ 2 ^ k
  · rw [if_pos h, if_neg (by omega)]
    push_cast
    rfl
  · rw [if_neg h, if_pos (by omega)]
    push_cast
    rfl

/-- Bit `i` of a sign-extended field is its bit `i`, or its top bit beyond it. -/
theorem ofInt_sextN_bit {n : Nat} (x : Nat) {i : Nat} (hn : 0 < n) (hi : i < 32) :
    (BitVec.ofInt 32 (sextN n x)).getLsbD i = x.testBit (min i (n - 1)) := by
  rw [sextN_eq_toInt n x hn]
  show ((BitVec.ofNat n x).signExtend 32).getLsbD i = _
  rw [BitVec.getLsbD_signExtend, BitVec.msb_eq_getLsbD_last, BitVec.getLsbD_ofNat, BitVec.getLsbD_ofNat]
  by_cases h : i < n
  · simp [h, hi, show min i (n - 1) = i by omega]
  · simp [h, hi, show min i (n - 1) = n - 1 by omega, hn]

theorem bfxW_unsigned_bit (a b : Word) (i : Nat) (hi : i < 32) :
    (bfxW .n a b).getLsbD i = (decide (i < fieldLen b) && a.getLsbD (fieldPos b + i)) := by
  have := fieldPos_le b
  unfold bfxW
  dsimp only
  split
  · simp [*]
  · rw [BitVec.getLsbD_ofNat, Nat.testBit_mod_two_pow, BitVec.testBit_toNat, BitVec.getLsbD_ushiftRight, BitVec.getLsbD_setWidth]
    simp [hi, show fieldPos b + i < 64 by omega]

theorem bfxW_signed_bit (a b : Word) (i : Nat) (hi : i < 32) :
    (bfxW .s a b).getLsbD i
      = (decide (0 < fieldLen b) && a.getLsbD (min 31 (fieldPos b + min i (fieldLen b - 1)))) := by
  have := fieldPos_le b
  have := fieldLen_le b
  unfold bfxW
  dsimp only
  split
  · simp [*]
  · have hl : 0 < fieldLen b := by omega
    have hb : min i (fieldLen b - 1) < fieldLen b := by omega
    rw [ofInt_sextN_bit _ hl hi, Nat.testBit_mod_two_pow, BitVec.testBit_toNat, BitVec.getLsbD_ushiftRight,
      BitVec.getLsbD_signExtend, BitVec.msb_eq_getLsbD_last]
    simp only [hl, hb, decide_true, Bool.true_and, show fieldPos b + min i (fieldLen b - 1) < 64 by omega]
    split
    · congr 1
      omega
    · congr 1
      omega

theorem bfiW_bit (d a b : Word) (i : Nat) (hi : i < 32) :
    (bfiW d a b).getLsbD i
      = if fieldPos b ≤ i ∧ i < fieldPos b + fieldLen b then a.getLsbD (i - fieldPos b) else d.getLsbD i := by
  have := fieldLen_le b
  have hm : ∀ j, (BitVec.ofNat 64 (2 ^ fieldLen b - 1)).getLsbD j = decide (j < fieldLen b) := fun j => by
    rw [BitVec.getLsbD_ofNat, Nat.testBit_two_pow_sub_one, Bool.and_eq_right_iff_imp]
    simp
    omega
  simp only [bfiW, BitVec.truncate_eq_setWidth, BitVec.getLsbD_or, BitVec.getLsbD_and, BitVec.getLsbD_not, BitVec.getLsbD_setWidth,
    BitVec.getLsbD_shiftLeft, hm, hi, decide_true, Bool.true_and, show i < 64 by omega, show i - fieldPos b < 64 by omega]
  by_cases hp : fieldPos b ≤ i
  · by_cases hl : i < fieldPos b + fieldLen b
    · simp [hp, hl, show ¬ i < fieldPos b by omega, show i - fieldPos b < fieldLen b by omega]
    · simp [hp, hl, show ¬ i - fieldPos b < fieldLen b by omega]
  · simp [hp, show i < fieldPos b by omega]

end Sys2Proof.Machine
end

