-- ==== Sys2Proof/Proofs/IntegerInstructions.lean ====
section
/-! The integer, move, compare and predicate instructions (R89 to R96): each is a register operation that writes one word, pair or
predicate. -/

namespace Sys2Proof.Machine

section

variable {s : State}

theorem binOp_next {f : FmtA} {g : Word → Word → Word} {v : Word} (hp : s.th.ctx.pred f.p = true)
    (h : g (s.th.ctx.reg f.a) (s.th.ctx.reg f.b) = v) : binOp s f g = .next (s.afterReg f.d v) :=
  regOp_after hp (congrArg (s.th.ctx.setReg f.d) h)

theorem unOp_next {f : FmtU} {g : Word → Word} {v : Word} (hp : s.th.ctx.pred f.p = true) (h : g (s.th.ctx.reg f.a) = v) :
    unOp s f g = .next (s.afterReg f.d v) :=
  regOp_after hp (congrArg (s.th.ctx.setReg f.d) h)

theorem immOp_next {f : FmtB} {g : Word → BitVec 8 → Word} {v : Word} (hp : s.th.ctx.pred f.p = true)
    (h : g (s.th.ctx.reg f.a) f.i = v) : immOp s f g = .next (s.afterReg f.d v) :=
  regOp_after hp (congrArg (s.th.ctx.setReg f.d) h)

/-- A register operation that writes a pair. -/
theorem regOp_setPair {p : Pred} {d : Reg} {g : Ctx → DWord} {v : DWord} (hp : s.th.ctx.pred p = true) (h : g s.th.ctx = v) :
    regOp s p (fun c => c.setPair d (g c)) = .next (s.afterPair d v) :=
  regOp_after hp (congrArg (s.th.ctx.setPair d) h)

/-- A register operation that writes a predicate. -/
theorem regOp_setPred {p pd : Pred} {g : Ctx → Bool} {v : Bool} (hp : s.th.ctx.pred p = true) (h : g s.th.ctx = v) :
    regOp s p (fun c => c.setPred pd (g c)) = .next (s.afterPred pd v) :=
  regOp_after hp (congrArg (s.th.ctx.setPred pd) h)

end

/-- Settles O10, from the value of each operation on words. -/
theorem wordArithmetic : Obligations.WordArithmetic := by
  unfold Obligations.WordArithmetic
  refine ⟨fun s f c hp => ?_, fun s f hp => ?_⟩
  · intro a b
    refine ⟨?_, ?_, ?_, ?_, ?_, ?_, ?_, ?_, ?_, ?_, ?_, ?_, ?_, ?_⟩
    · exact binOp_next hp rfl
    · exact binOp_next hp (satS32_eq _)
    · exact binOp_next hp (satN32_eq _)
    · exact binOp_next hp rfl
    · exact binOp_next hp (satS32_eq _)
    · exact binOp_next hp (satN32_eq _)
    · exact binOp_next hp rfl
    · exact binOp_next hp (mulhW_signed a b)
    · exact binOp_next hp (mulhW_unsigned a b)
    · exact regOp_after hp rfl
    · exact binOp_next hp (minW_signed a b)
    · exact binOp_next hp (minW_unsigned a b)
    · exact binOp_next hp (maxW_signed a b)
    · exact binOp_next hp (maxW_unsigned a b)
  · exact ⟨unOp_next hp (absW_wrap _), unOp_next hp (absW_sat _), unOp_next hp (negW_wrap _), unOp_next hp (negW_sat _)⟩

/-- Settles O11: the quotient and the remainder are those of division toward zero, with the values that R90 gives a zero divisor. -/
theorem divisionRemainder : Obligations.DivisionRemainder := by
  unfold Obligations.DivisionRemainder
  intro s f m hp v x y
  refine ⟨divQuotient x y, divRemainder x y, binOp_next hp (divW_eq m _ _), binOp_next hp (remW_eq m _ _), fun hy => ?_,
    fun _ ⟨_, hx, hy⟩ => ?_, fun hy _ => divQuotient_mul_add hy⟩
  · simp [divQuotient, divRemainder, hy]
  · rw [hx, hy]
    decide

/-- Settles O12, from what each operation leaves of the word and of its bits. -/
theorem logicShiftBits : Obligations.LogicShiftBits := by
  unfold Obligations.LogicShiftBits
  intro s f u hp hu a b d e pos len
  refine ⟨binOp_next hp rfl, binOp_next hp rfl, binOp_next hp rfl, binOp_next (g := fun x y => x &&& ~~~y) hp rfl,
    unOp_next (g := fun x => ~~~x) hu rfl, binOp_next (g := fun x y => shlW x y.toNat) hp (shlW_eq a _),
    binOp_next (g := fun x y => shrW x y.toNat) hp (shrW_eq a _), binOp_next (g := fun x y => sarW x y.toNat) hp (sarW_eq a _),
    ⟨_, binOp_next (g := fun x y => rotW false x y.toNat) hp rfl, rotW_left_bit a _⟩,
    ⟨_, binOp_next (g := fun x y => rotW true x y.toNat) hp rfl, rotW_right_bit a _⟩,
    ⟨_, binOp_next hp rfl, bfxW_unsigned_bit a b⟩, ⟨_, binOp_next hp rfl, bfxW_signed_bit a b⟩,
    ⟨_, regOp_after hp rfl, bfiW_bit d a b⟩, ⟨clzFrom 32 e, unOp_next hu rfl, clzFrom_le 32 e, clz_bounds e⟩,
    unOp_next hu (congrArg wOf (popcFrom_eq 32 e)), ⟨_, unOp_next hu rfl, brevW_bit e⟩⟩

/-! ## Addresses and immediates (R93, R94) -/

theorem shiftLeft_eq_mul_ofNat {w : Nat} (x : BitVec w) (n : Nat) : x <<< n = x * BitVec.ofNat w (2 ^ n) := by
  apply BitVec.eq_of_toNat_eq
  rw [BitVec.toNat_shiftLeft, BitVec.toNat_mul, BitVec.toNat_ofNat, Nat.shiftLeft_eq, Nat.mul_mod_mod]

theorem addImm_eq (a : Word) (i : BitVec 8) : a + sext8 i = BitVec.ofInt 32 (a.toInt + i.toInt) := by
  rw [BitVec.ofInt_add, BitVec.ofInt_toInt]
  rfl

theorem zext8_eq (i : BitVec 8) : zext8 i = BitVec.ofNat 32 i.toNat := (BitVec.ofNat_toNat 32 i).symm

/-- Settles O13: each is a register operation; the immediates are extended as R94 says. -/
theorem movesAddressesImmediates : Obligations.MovesAddressesImmediates := by
  unfold Obligations.MovesAddressesImmediates
  refine ⟨fun s f u p sp d k lit hp hu hg => ?_, fun s f hp => ?_⟩
  · intro c
    refine ⟨unOp_next (g := fun x => x) hu rfl, regOp_setPair hu rfl, regOp_after hg rfl, regOp_after hg rfl, regOp_after hg rfl,
      regOp_after hp ?_, regOp_after hp ?_,
      binOp_next (g := fun x y => x + y <<< k.val) hp (congrArg _ (shiftLeft_eq_mul_ofNat _ _)),
      regOp_setPair hp rfl, regOp_setPair hp rfl, regOp_setPair hp (congrArg _ (shiftLeft_eq_mul_ofNat _ _))⟩
    · exact congrArg (c.setReg f.d) (apply_ite c.reg _ _ _)
    · exact congrArg (c.setPair f.d) (apply_ite c.pair _ _ _)
  · intro a
    refine ⟨immOp_next (g := fun x i => x + sext8 i) hp (addImm_eq a _), immOp_next (g := fun x i => x &&& zext8 i) hp ?_,
      immOp_next (g := fun x i => x ||| zext8 i) hp ?_, immOp_next (g := fun x i => x ^^^ zext8 i) hp ?_,
      immOp_next (g := fun x i => shlW x i.toNat) hp (shlW_eq a _), immOp_next (g := fun x i => shrW x i.toNat) hp (shrW_eq a _),
      immOp_next (g := fun x i => sarW x i.toNat) hp (sarW_eq a _)⟩
    · rw [BitVec.ofNat_and, ← zext8_eq, BitVec.ofNat_toNat, BitVec.setWidth_eq]
    · rw [BitVec.ofNat_or, ← zext8_eq, BitVec.ofNat_toNat, BitVec.setWidth_eq]
    · rw [BitVec.ofNat_xor, ← zext8_eq, BitVec.ofNat_toNat, BitVec.setWidth_eq]

/-! ## Compares and predicate logic (R95, R96) -/

theorem condOf_iff (cc : Cond) {w : Nat} (a b : BitVec w) : condOf cc a b = true ↔ condHolds cc a b := by
  cases cc <;> simp [condOf, condHolds]

/-- R10: p15 discards what is written to it. -/
theorem afterPred_true (s : State) (v : Bool) : s.afterPred 15 v = advance s := rfl

/-- Settles O14. -/
theorem integerCompares : Obligations.IntegerCompares := by
  unfold Obligations.IntegerCompares
  intro s f p pd a i cc hf hp c
  exact ⟨⟨_, regOp_setPred hf rfl, condOf_iff cc _ _⟩, ⟨_, regOp_setPred hf rfl, condOf_iff cc _ _⟩,
    ⟨_, regOp_setPred hp rfl, condOf_iff cc _ _⟩, fun h v => h ▸ afterPred_true s v⟩

/-- Settles O15. -/
theorem predicateLogic : Obligations.PredicateLogic := by
  unfold Obligations.PredicateLogic
  intro s f p pd pa na hf hp x y z
  exact ⟨regOp_setPred hf rfl, regOp_setPred hf rfl, regOp_setPred hf rfl, regOp_setPred hp rfl, regOp_setPred hp rfl⟩

/-! ## Words of the spec -/

/-- Settles O3: closed words, decoded. -/
theorem decodeWords : Obligations.DecodeWords := by
  unfold Obligations.DecodeWords
  decide

end Sys2Proof.Machine
end

