-- ==== Sys2Proof/Proofs/TrapEntry.lean ====
section
/-! A trap's entry into its thread's handler (R108, R109, R324 to R326): the registers that the trap writes and the handler's frame. -/

namespace Sys2Proof.Machine

/-! ## The trap (R108, R109, R64) -/

/-- R246: a trap waits for nothing of a thread with no access or operation outstanding. -/
theorem raise_alone {s : State} (e : Exc) (ha : s.th.accs = []) (ho : s.th.ops = []) : raise s e = .next (takeExc s e) := by
  simp [raise, ha, ho]

/-- `trap`, `brk` and an unassigned opcode raise their causes. -/
theorem exec_raises {s : State} {i : Instr} {p : Pred} {b : BitVec 8} {w : Word} {code : Nat} {addr : DWord}
    (hp : s.th.ctx.pred p = true)
    (hi : (i = .trap p b ∧ code = 0x14 ∧ addr = b.zeroExtend 64) ∨ (i = .brk p b ∧ code = 0x13 ∧ addr = b.zeroExtend 64)
      ∨ (i = .unassignedOpcode w ∧ code = 1 ∧ addr = 0)) :
    exec i s = raise s (.trap code 0 addr) := by
  obtain ⟨rfl, rfl, rfl⟩ | ⟨rfl, rfl, rfl⟩ | ⟨rfl, rfl, rfl⟩ := hi
  · exact guarded_true s p (fun s => raiseCode s cTrap (b.zeroExtend 64)) hp
  · exact guarded_true s p (fun s => raiseCode s cBrk (b.zeroExtend 64)) hp
  · rfl

/-- The thread whose handler a trap is to enter: its trap registers written (R324), and what entry saves saved (R326). -/
def trapSaved (s : State) (code : Nat) (info : Word) (addr : DWord) : State :=
  modTh (modTh s fun t => writeTrapRegs t code info addr) saveForHandler

/-- R325: the causes that go to a thread's handler wherever it has one. -/
def handled (code : Nat) : Bool :=
  !([cPageFault, cTableFault, cSpillLimit, cTableFar, cEccFatal].contains code)

theorem takeExc_enters {s : State} {code : Nat} {info : Word} {addr : DWord} (hc : handled code = true) (hd : dyingNow s = false)
    (hh : s.th.ctx.inH = false) (ht : s.th.place.thand ≠ 0) :
    takeExc s (.trap code info addr) = enterHandler (trapSaved s code info addr) := by
  simp only [handled, List.contains_cons, List.contains_nil, Bool.or_false, Bool.not_eq_true', Bool.or_eq_false_iff,
    beq_eq_false_iff_ne] at hc
  obtain ⟨h1, h2, h3, h4, h5⟩ := hc
  simp only [takeExc, trapSaved, hd, hh, ht, h1, h2, h3, h4, h5, decide_false, Bool.or_false, Bool.and_false, Bool.false_eq_true,
    if_false]

/-! ## The entry (R326) -/

theorem framePushed_th (s : State) (f : Ctx → Ctx) : (framePushed s f).th = { s.th with ctx := f s.th.ctx } := by
  simp only [framePushed, modCtx_th]

theorem Ctx.kept_same (c : Ctx) (link : DWord) (fresh : Nat) :
    c.kept link fresh = { c with win := (c.kept link fresh).win, depth := c.depth + 1, res := c.frame :: c.res } := by
  simp only [Ctx.kept, Ctx.pushFrame, if_true]

/-- The state after an entry whose frame fits: the handler's frame is pushed with c.tpc as its link. -/
def handlerEntered (s : State) : State :=
  arrive (modTh (framePushed s fun c => c.kept s.th.trap.tpc s.fresh) fun t => { lookEnd t with entryPend := false })
    s.th.place.thand false

theorem enterHandler_fits {s : State} (hf : 1 + s.th.ctx.res.length < residentMax s.th.place.regs) :
    enterHandler s = handlerEntered s := by
  have hs := callSpills_fits hf
  have ha : (handlerEntered s).th.accs = s.th.accs := (arrive_moved _ _ _).accs.trans (framePushed_accs _ _)
  have hp : (framePushed s fun c => c.kept s.th.trap.tpc s.fresh).th.place = s.th.place := by rw [framePushed_th]
  rw [enterHandler, callWindow_fits s _ hf]
  simp only [hs, hp, Bool.false_eq_true, if_false]
  exact awaitFrame_accs_same ha

theorem handlerEntered_ctx (s : State) :
    (handlerEntered s).th.ctx
      = ({ s.th.ctx.kept s.th.trap.tpc s.fresh with wend := (s.th.ctx.kept s.th.trap.tpc s.fresh).icount } : Ctx).land
          s.th.place.thand := by
  rw [handlerEntered, arrive_ctx, modTh_th, framePushed_th]
  rfl

theorem handlerEntered_trap (s : State) : (handlerEntered s).th.trap = s.th.trap := by
  rw [handlerEntered, (arrive_moved _ _ _).trap, modTh_th, framePushed_th]
  rfl

theorem handlerEntered_memory (s : State) : SameMemory s (handlerEntered s) := by
  have d := (arrive_moved (modTh (framePushed s fun c => c.kept s.th.trap.tpc s.fresh) fun t => { lookEnd t with entryPend := false })
    s.th.place.thand false).device
  exact .of_eq (congrArg MemSys.hbm (d.mem.trans (framePushed_mem _ _))) (d.clusters.trans (framePushed_clusters _ _))

/-- What an entry leaves of its thread's context. -/
theorem handlerEntered_enters (s : State) :
    let t := handlerEntered s
    t.th.ctx.pc = s.th.place.thand ∧ t.th.ctx.clh = s.th.place.thand ∧ t.th.ctx.inH = s.th.ctx.inH ∧ t.th.ctx.ri = s.th.ctx.ri
      ∧ t.th.ctx.rep = s.th.ctx.rep ∧ NewFrame s.th.ctx t.th.ctx s.th.trap.tpc := by
  intro t
  have n := s.th.ctx.kept_newFrame s.th.trap.tpc s.fresh
  rw [show t.th.ctx = _ from handlerEntered_ctx s]
  refine ⟨rfl, rfl, ?_, ?_, ?_, ⟨n.depth, n.args, n.link, n.globals, n.preds⟩⟩
  all_goals
    rw [Ctx.kept_same]
    rfl

/-- Settles O29: the trap writes its registers, the entry saves the predicates and c.ri, and the handler's frame is a `NewFrame`. -/
theorem trapEntersHandler : Obligations.TrapEntersHandler := by
  unfold Obligations.TrapEntersHandler
  intro s i p b w code addr hp hi ha ho hd hh ht hf
  have hc : handled code = true := by
    obtain ⟨-, rfl, -⟩ | ⟨-, rfl, -⟩ | ⟨-, rfl, -⟩ := hi <;> rfl
  obtain ⟨hpc, hclh, hin, hri, hrep, n⟩ := handlerEntered_enters (trapSaved s code 0 addr)
  have hr : (handlerEntered (trapSaved s code 0 addr)).th.trap = _ := handlerEntered_trap _
  refine ⟨handlerEntered (trapSaved s code 0 addr), ?_, by rw [hr]; rfl, by rw [hr]; rfl, by rw [hr]; rfl, by rw [hr]; rfl,
    by rw [hr]; rfl, hin, by rw [hr]; rfl, by rw [hr]; rfl, hpc, hclh, hri, hrep, n.depth, n.link, n.globals,
    fun q _ => n.preds q, ((modTh_device _ _).trans (modTh_device _ _)).memory.trans (handlerEntered_memory _)⟩
  rw [exec_raises hp hi, raise_alone _ ha ho, takeExc_enters hc hd hh ht, enterHandler_fits (s := trapSaved s code 0 addr) hf]

end Sys2Proof.Machine
end

