-- ==== Sys2Proof/Proofs/LoadCompletion.lean ====
section
/-! The completion of a load (R104, R106, R166, R204): what its bytes leave in the registers, what the end of a thread's only access
leaves of the thread, and the events LOAD_COMPLETE and PARKED_LOAD_RESUME. -/

namespace Sys2Proof.Machine

/-! ## The bytes of a load in its registers (R33, R104) -/

theorem natOfBytes_lt (bs : List Byte) : natOfBytes bs < 256 ^ bs.length := by
  induction bs with
  | nil => exact Nat.one_pos
  | cons b bs ih =>
    have := b.isLt
    rw [natOfBytes, List.length_cons, pow_succ]
    omega

theorem natOfBytes_take_lt (k : Nat) (bs : List Byte) : natOfBytes (bs.take k) < 256 ^ k :=
  (natOfBytes_lt _).trans_le (Nat.pow_le_pow_right (by omega) (List.length_take_le k bs))

/-- Bytes stand low byte first: those from place `k` on count 256 ^ `k`. -/
theorem natOfBytes_take_drop (k : Nat) (bs : List Byte) :
    natOfBytes bs = natOfBytes (bs.take k) + 256 ^ k * natOfBytes (bs.drop k) := by
  induction k generalizing bs with
  | zero => simp [natOfBytes]
  | succ k ih =>
    cases bs with
    | nil => simp [natOfBytes]
    | cons b bs =>
      rw [List.take_succ_cons, List.drop_succ_cons, natOfBytes, natOfBytes, ih bs, pow_succ]
      ring

/-- Two words of a byte string are its low eight bytes. -/
theorem pairD_of_bytes (bs : List Byte) :
    pairD (BitVec.ofNat 32 (natOfBytes (bs.take 4))) (BitVec.ofNat 32 (natOfBytes ((bs.drop 4).take 4)))
      = BitVec.ofNat 64 (natOfBytes bs) := by
  apply BitVec.eq_of_toNat_eq
  have h0 := natOfBytes_take_lt 4 bs
  have h1 := natOfBytes_take_lt 4 (bs.drop 4)
  rw [pairD_toNat, natOfBytes_take_drop 4 bs, natOfBytes_take_drop 4 (bs.drop 4)]
  simp only [BitVec.toNat_ofNat]
  omega

theorem setMany_writesOnly {ds : List Reg} {ps : List Pred} {fl di : Bool} (c : Ctx) (l : List (Reg × Word))
    (h : ∀ x ∈ l, x.1 ∈ ds) : WritesOnly ds ps fl di c (c.setMany l) := by
  induction l generalizing c with
  | nil => exact .refl c
  | cons x l ih =>
    exact (WritesOnly.setReg (h x (List.mem_cons_self ..)) x.2).trans (ih _ fun y hy => h y (List.mem_cons_of_mem _ hy))

/-- A load writes the registers that it names. -/
theorem loadWrite_writesOnly (c : Ctx) (n : Nat) (ext : LoadExt) (ds : List Reg) (bs : List Byte) :
    WritesOnly ds [] false false c (loadWrite c n ext ds bs) := by
  have h : ∀ ws : List Word, WritesOnly ds [] false false c (c.setMany (ds.zip ws)) := fun ws =>
    setMany_writesOnly c _ fun x hx => (List.of_mem_zip hx).1
  cases ext with
  | zext => exact h _
  | fill _ => exact h _
  | sext => exact h _
  | barStatus _ => exact h _

theorem reg_loadWrite_zext (c : Ctx) {n : Nat} (d : Reg) (bs : List Byte) (hd : d ≠ 0) (hn : n ≤ 4) :
    (loadWrite c n .zext [d] bs).reg d = BitVec.ofNat 32 (natOfBytes bs) := by
  simp only [loadWrite, hn, if_true]
  exact Ctx.reg_setReg_self c d _ fun h => hd (Fin.ext h)

theorem reg_loadWrite_sext (c : Ctx) {n : Nat} (d : Reg) (bs : List Byte) (hd : d ≠ 0) (hn : 0 < n) :
    (loadWrite c n .sext [d] bs).reg d = (BitVec.ofNat (8 * n) (natOfBytes bs)).signExtend 32 := by
  have h : (loadWrite c n .sext [d] bs).reg d = BitVec.ofInt 32 (sextN (8 * n) (natOfBytes bs)) :=
    Ctx.reg_setReg_self c d _ fun h => hd (Fin.ext h)
  rw [h, sextN_eq_toInt _ _ (by omega)]
  rfl

/-- R104: what a load of at most a word leaves in its one register, by its extension. -/
theorem reg_loadWrite (c : Ctx) {n : Nat} {ext : LoadExt} (d : Reg) (bs : List Byte) (hd : d ≠ 0) (hn : n ≤ 4) :
    (ext = .zext → (loadWrite c n ext [d] bs).reg d = BitVec.ofNat 32 (natOfBytes bs))
      ∧ (ext = .sext → n = 1 → (loadWrite c n ext [d] bs).reg d = (BitVec.ofNat 8 (natOfBytes bs)).signExtend 32)
      ∧ (ext = .sext → n = 2 → (loadWrite c n ext [d] bs).reg d = (BitVec.ofNat 16 (natOfBytes bs)).signExtend 32) := by
  refine ⟨?_, ?_, ?_⟩
  · rintro rfl
    exact reg_loadWrite_zext c d bs hd hn
  · rintro rfl rfl
    exact reg_loadWrite_sext c d bs hd Nat.one_pos
  · rintro rfl rfl
    exact reg_loadWrite_sext c d bs hd Nat.two_pos

/-- R9: a load of 8 bytes into a pair. -/
theorem pair_loadWrite (c : Ctx) (d : Reg) (bs : List Byte) (hd : d ≠ 0) (he : d.val % 2 = 0) :
    (loadWrite c 8 .zext [d, plusReg d 1] bs).pair d = BitVec.ofNat 64 (natOfBytes bs) := by
  have h0 : d.val ≠ 0 := fun h => hd (Fin.ext h)
  have hv : (plusReg d 1).val = d.val + 1 := Nat.mod_eq_of_lt (by have := d.isLt; omega)
  have hne : d ≠ plusReg d 1 := fun h => by have := congrArg Fin.val h; omega
  have hw : loadWrite c 8 .zext [d, plusReg d 1] bs
      = (c.setReg d (BitVec.ofNat 32 (natOfBytes (bs.take 4)))).setReg (plusReg d 1)
          (BitVec.ofNat 32 (natOfBytes ((bs.drop 4).take 4))) := rfl
  rw [Ctx.pair, if_neg h0, hw, Ctx.reg_setReg_self _ _ _ (by omega), Ctx.reg_setReg_other _ _ _ _ hne,
    Ctx.reg_setReg_self _ _ _ h0, pairD_of_bytes]

/-! ## The end of a thread's only access (R71, R249) -/

theorem settle_nil {s : State} (h : s.th.accs = []) : settle s = s := by
  simp [settle, settleFrom, h]

theorem dropRequest_th (s : State) (a : Access) : (dropRequest s a).th = s.th := by
  unfold dropRequest
  split <;> rfl

theorem dropRequest_same (s : State) (a : Access) : SameMemory s (dropRequest s a) := by
  unfold dropRequest
  split <;> exact .of_eq rfl rfl

theorem dropHead_single {s : State} {a : Access} (h : s.th.accs = [a]) :
    dropHead s = modTh (dropRequest s a) fun t => dcDrop { t with accs := [], gov := none } a.dc := by
  simp [dropHead, h]

/-- R249: the thread after the commit of an access that did not run ahead. -/
def committed (s : State) (a : Access) : State := if a.ran then s else modTh s fun t => escCommit t a.iaddr

theorem committed_same (s : State) (a : Access) : committed s a = modTh s fun t => { t with esc := (committed s a).th.esc } := by
  unfold committed
  split
  · rfl
  · rw [modTh, escCommit_same]
    rfl

/-- A counter's value is read off the counters alone. -/
theorem dcGet_congr {t u : Thread} (h : t.dc = u.dc) (d : Fin 7) : dcGet t d = dcGet u d := by
  unfold dcGet
  rw [h]

theorem dcDrop_dc_congr {t u : Thread} (h : t.dc = u.dc) (d : Fin 7) : (dcDrop t d).dc = (dcDrop u d).dc := by
  unfold dcDrop
  split <;> simp [h]

/-- The access is gone and its counter is released; the context and every byte of memory stay. -/
theorem finishHead_single {s : State} {a : Access} (h : s.th.accs = [a]) :
    (finishHead s).th.accs = [] ∧ (finishHead s).th.ctx = s.th.ctx ∧ (finishHead s).th.dc = (dcDrop s.th a.dc).dc
      ∧ SameMemory s (finishHead s) := by
  have hc := committed_same s a
  have ha : (committed s a).th.accs = [a] := by
    rw [hc]
    exact h
  have e : finishHead s = modTh (dropRequest (committed s a) a) fun t => dcDrop { t with accs := [], gov := none } a.dc := by
    have hf : finishHead s = settle (dropHead (committed s a)) := by
      unfold finishHead
      rw [h]
      rfl
    rw [hf, dropHead_single ha, settle_nil (by rw [modTh_th, dcDrop_same])]
  rw [e, modTh_th, dropRequest_th]
  refine ⟨by rw [dcDrop_same], by rw [dcDrop_same, hc]; rfl, ?_, ?_⟩
  · refine dcDrop_dc_congr ?_ a.dc
    rw [hc]
    rfl
  · have h1 : SameMemory s (committed s a) := by
      rw [hc]
      exact .of_eq rfl rfl
    exact (h1.trans (dropRequest_same _ a)).trans (.of_eq rfl rfl)

/-! ## The read and its delivery (R106, R166) -/

theorem giveLoad_ctx (s : State) (a : Access) (n : Nat) (ext : LoadExt) (ds : List Reg) (bs : List Byte) :
    (giveLoad s a n ext ds bs).th.ctx = loadWrite s.th.ctx n ext ds bs := by
  cases ext <;> rfl

theorem giveLoad_dc (s : State) (a : Access) (n : Nat) (ext : LoadExt) (ds : List Reg) (bs : List Byte) :
    (giveLoad s a n ext ds bs).th.dc = s.th.dc := by
  cases ext <;> rfl

theorem giveLoad_same (s : State) (a : Access) (n : Nat) (ext : LoadExt) (ds : List Reg) (bs : List Byte) :
    SameMemory s (giveLoad s a n ext ds bs) := by
  cases ext <;> exact .of_eq rfl rfl

/-- A thread's only access has no younger one whose checkpoint its value would reach. -/
theorem giveLoad_accs {s : State} {a : Access} (n : Nat) (ext : LoadExt) (ds : List Reg) (bs : List Byte) (h : s.th.accs = [a]) :
    (giveLoad s a n ext ds bs).th.accs = [a] := by
  cases ext <;> simp [giveLoad, deliver, patchSnaps, h]

theorem readLoc_bytes (s : State) (die gen : Nat) (loc : Loc) (n : Nat) : (readLoc s die gen loc n).2 = peekLoc s die gen loc n := by
  unfold readLoc
  dsimp only
  split <;> rfl

/-- The state once a load has read at its home: the caches are those of the die where it allocates (R354). -/
def loadRead (s : State) (hint : Nat) (loc : Loc) (n : Nat) : State :=
  { (readLoc s s.th.place.die (thGen s s.th) loc n).1 with
    mem := (readLoc s (allocDie s.th.place.die hint loc) (thGen s s.th) loc n).1.mem }

theorem withMem_th (s : State) (m : MemSys) : ({ s with mem := m } : State).th = s.th := rfl

theorem withMem_same {s t u : State} (ht : SameMemory s t) (hu : SameMemory s u) : SameMemory s { t with mem := u.mem } :=
  ⟨hu.hbm, ht.spad⟩

theorem loadRead_th (s : State) (hint : Nat) (loc : Loc) (n : Nat) : (loadRead s hint loc n).th = s.th := by
  rw [loadRead, withMem_th, readLoc_th]

theorem loadRead_same (s : State) (hint : Nat) (loc : Loc) (n : Nat) : SameMemory s (loadRead s hint loc n) := by
  rw [loadRead]
  exact withMem_same (readLoc_same ..) (readLoc_same ..)

section

variable {s : State} {a : Access} {n : Nat} {ext : LoadExt} {ds : List Reg} {loc : Loc}

theorem performLoad_go (hk : a.kind = .load n ext ds) (hl : a.loc = some loc) (hp : loc.isPeer = false)
    (hg : gate s s.th.place.die .rd loc a.ea n = .go) :
    performLoad s a
      = finishHead (giveLoad (loadRead s a.hint loc n) a n ext ds (peekLoc s s.th.place.die (thGen s s.th) loc n)) := by
  cases loc with
  | peer d o own => cases hp
  | hbm pa mir => simp only [performLoad, hk, hl, hg, readLoc_bytes, loadRead]
  | spad c i off => simp only [performLoad, hk, hl, hg, readLoc_bytes, loadRead]

/-- A thread's only access, a load that nothing stops, performs. -/
theorem performLoad_completes (h : s.th.accs = [a]) (hk : a.kind = .load n ext ds) (hl : a.loc = some loc) (hp : loc.isPeer = false)
    (hg : gate s s.th.place.die .rd loc a.ea n = .go) :
    (performLoad s a).th.accs = []
      ∧ (performLoad s a).th.ctx = loadWrite s.th.ctx n ext ds (peekLoc s s.th.place.die (thGen s s.th) loc n)
      ∧ (performLoad s a).th.dc = (dcDrop s.th a.dc).dc ∧ SameMemory s (performLoad s a) := by
  have hr := loadRead_th s a.hint loc n
  rw [performLoad_go hk hl hp hg]
  obtain ⟨haccs, hctx, hdc, hmem⟩ := finishHead_single (giveLoad_accs n ext ds (peekLoc s s.th.place.die (thGen s s.th) loc n)
    ((congrArg Thread.accs hr).trans h))
  refine ⟨haccs, ?_, ?_, ((loadRead_same s a.hint loc n).trans (giveLoad_same ..)).trans hmem⟩
  · rw [hctx, giveLoad_ctx, hr]
  · rw [hdc]
    refine dcDrop_dc_congr ?_ a.dc
    rw [giveLoad_dc, hr]

/-! ## The events -/

theorem loadHead_single (h : s.th.accs = [a]) (hs : a.spec = false) (hf : a.fault = none) : loadHead s = performLoad s a := by
  simp [loadHead, headAcc, h, hs, hf]

theorem exec_loadComplete_single (h : s.th.accs = [a]) (hs : a.spec = false) (hf : a.fault = none) :
    exec (.loadComplete s.th.id) s = .next (performLoad s a) := by
  show execLoadComplete s.th.id s = _
  rw [execLoadComplete, onThread_self, loadHead_single h hs hf]

/-- A thread's only access, no longer parked. -/
def unparked (s : State) (a : Access) : State := modTh s fun t => { t with accs := [{ a with parked := false }] }

/-- R204: the load of a thread that is parked on nothing else performs once its sectors are present. -/
theorem exec_parkedLoadResume_single (h : s.th.accs = [a]) (hs : a.spec = false) (hf : a.fault = none) (hpk : a.parked = true)
    (hw : s.th.wpark = none) (hk : a.kind = .load n ext ds) (hl : a.loc = some loc)
    (hg : gate s s.th.place.die .rd loc a.ea n ≠ .park) :
    exec (.parkedLoadResume s.th.id) s = .next (performLoad (unparked s a) { a with parked := false }) := by
  have hr : resumeAccess s = loadHead (unparked s a) := by
    simp only [resumeAccess, h, List.find?_cons, hpk, hl, hk, hs, Bool.false_eq_true, if_false]
    simp [unparked, modTh, h]
  show execParkedLoadResume s.th.id s = _
  rw [execParkedLoadResume, onThread_self, resumeParked, hw]
  show Host.Outcome.next (resumeAccess s) = _
  rw [hr, loadHead_single (a := { a with parked := false }) rfl hs hf]

theorem exec_parkedLoadResume_window {w : Bool × Loc × DWord} (hw : s.th.wpark = some w)
    (hg : gate s s.th.place.die (if w.1 then .wr else .rd) w.2.1 w.2.2 16 ≠ .park) :
    exec (.parkedLoadResume s.th.id) s = .next { s with th := { s.th with wpark := none } } := by
  show execParkedLoadResume s.th.id s = _
  rw [execParkedLoadResume, onThread_self, resumeParked, hw]
  show Host.Outcome.next (resumeWindow s w) = _
  unfold resumeWindow
  split
  · exact absurd ‹_› hg
  · rfl

/-- LOAD_COMPLETE of a load, or PARKED_LOAD_RESUME of one that was parked: the load performs. -/
theorem exec_load_event (h : s.th.accs = [a]) (hs : a.spec = false) (hf : a.fault = none) (hw : a.parked = true → s.th.wpark = none)
    (hk : a.kind = .load n ext ds) (hl : a.loc = some loc) (hg : gate s s.th.place.die .rd loc a.ea n ≠ .park) :
    exec (if a.parked then .parkedLoadResume s.th.id else .loadComplete s.th.id) s
      = .next (performLoad (unparked s a) { a with parked := false }) := by
  by_cases hp : a.parked = true
  · rw [if_pos hp]
    exact exec_parkedLoadResume_single h hs hf hp (hw hp) hk hl hg
  · have ha : ({ a with parked := false } : Access) = a := by rw [← Bool.eq_false_of_not_eq_true hp]
    have hu : unparked s a = s := by rw [unparked, ha, modTh, ← h]
    rw [if_neg hp, ha, hu]
    exact exec_loadComplete_single h hs hf

/-- R376: a load to a peer sends its request. -/
theorem performLoad_peer {d o : Nat} {own : Option Nat} (h : s.th.accs = [a]) (hk : a.kind = .load n ext ds)
    (hl : a.loc = some (.peer d o own)) (hn : a.serial = none) :
    performLoad s a = modTh (sendRequest s a.seq d o (0x01, n, [])).1
      fun t => { t with accs := [{ a with serial := some s.fab.nextSerial }] } := by
  simp [performLoad, hk, hl, hn, AccKind.request, modHead, modTh, sendRequest, h]

/-- R376: one that has sent it waits for the response. -/
theorem performLoad_peer_waits {d o : Nat} {own : Option Nat} (hk : a.kind = .load n ext ds) (hl : a.loc = some (.peer d o own))
    (hn : a.serial ≠ none) : performLoad s a = s := by
  simp [performLoad, hk, hl, Option.isSome_iff_ne_none.mpr hn]

end

/-- Settles O38: the load that an event lets perform leaves `loadWrite` of the bytes read; one to a peer sends its request or waits. -/
theorem loadCompletes : Obligations.LoadCompletes := by
  unfold Obligations.LoadCompletes
  refine ⟨fun s a n ds ext loc bs h hs hf hk hl hw => ?_, fun s w hw hg => exec_parkedLoadResume_window hw hg⟩
  intro ev
  refine ⟨fun hp hg hbs => ?_, fun d o own hloc hpk => ⟨fun hn => ?_, fun hn => ?_⟩⟩
  · obtain ⟨haccs, hctx, hdc, hmem⟩ :=
      performLoad_completes (s := unparked s a) (a := { a with parked := false }) rfl hk hl hp hg
    have hev : exec ev s = .next _ := exec_load_event h hs hf hw hk hl (by rw [hg]; nofun)
    have hctx' : (performLoad (unparked s a) { a with parked := false }).th.ctx = loadWrite s.th.ctx n ext ds bs := hbs ▸ hctx
    have hwr := loadWrite_writesOnly s.th.ctx n ext ds bs
    refine ⟨_, hev, haccs, fun r => by rw [hctx'], fun d hd hd0 hn => ?_, fun d hd he hd0 hn hx => ?_, fun hd => ?_, fun k hd => ?_,
      fun r hr => by rw [hctx', hwr.regs r hr], fun p hp => by rw [hctx', hwr.preds p hp], by rw [hctx', hwr.fpst rfl],
      (modTh_device s _).memory.trans hmem⟩
    · subst hd
      rw [hctx']
      exact reg_loadWrite s.th.ctx d bs hd0 hn
    · subst hd hx hn
      rw [hctx', pair_loadWrite _ _ _ hd0 he]
    · exact (dcGet_congr hdc a.dc).trans (dcGet_drop _ _ hd)
    · exact (dcGet_congr hdc k).trans (dcGet_drop_other _ _ _ hd)
  · subst hloc
    have hev : exec ev s = .next (performLoad s a) := by
      rw [show ev = .loadComplete s.th.id from if_neg (by simp [hpk])]
      exact exec_loadComplete_single h hs hf
    rw [performLoad_peer h hk hl hn] at hev
    exact ⟨_, _, hev, rfl, rfl, rfl, rfl, rfl, rfl, rfl, .of_eq rfl rfl⟩
  · subst hloc
    rw [show ev = .loadComplete s.th.id from if_neg (by simp [hpk]), exec_loadComplete_single h hs hf,
      performLoad_peer_waits hk hl hn]

end Sys2Proof.Machine
end

