-- ==== Sys2Proof/Proofs/StoreIssue.lean ====
section
/-! The issue of a store (R106, R205, R240, R243): what every joining access leaves of its thread, and the cases of a store's checks. -/

namespace Sys2Proof.Machine

/-! ## An access joins its thread (R70, R71, R238) -/

/-- Beside its accesses, counters, sequence number, governing level and LVL, the issue of an access changes nothing of the thread but
where it stands. -/
theorem pushAcc_joins (s : State) (a : Access) (lvl : Nat) (gov : Option Nat) (hs : a.snap = s.th.ctx) (hi : a.iaddr = s.th.ctx.pc) :
    ∃ t, pushAcc s a lvl gov = .next t ∧ Joins s t a ∧ SameRegsBut [] s t ∧ t.out = s.out := by
  obtain ⟨t, ht, haccs, hops, -, hdc, hothers, hcount, hdphase, hreg, hpred, hdev, hplace⟩ := pushAcc_next s a lvl gov
  have m := advance_moved s
  have e : t = modTh (advance s) fun u => dcStep { u with
      accs := u.accs ++ [a], seq := u.seq + 1, gov := gov, spec := { u.spec with lvl := BitVec.ofNat 2 lvl } } a.dc :=
    (Host.Outcome.next.inj ht).symm
  have hspecials : SameSpecials s t := by
    rw [e, modTh, dcStep_same, m.same]
    exact ⟨rfl, rfl, rfl, rfl, rfl, rfl, rfl, ⟨rfl, rfl⟩, ⟨rfl, rfl, rfl⟩, rfl, rfl⟩
  have hfpst : t.th.ctx.fpst = s.th.ctx.fpst := by
    rw [e, modTh, dcStep_same, m.same]
  exact ⟨t, ht, ⟨haccs, hops, hs, hi, hcount, hdc, hothers, fun p _ => hpred p, hfpst, hspecials, hdev.memory⟩,
    fun r _ => hreg r, hdev.out⟩

/-! ## The cases of an issue (R235, R246) -/

section

variable {s : State} {kind : AccKind} {n : Nat} {ea : DWord} {dc : Fin 7} {look hint : Nat}

/-- R249: an access at level 2 waits to be its thread's oldest. -/
theorem issueAt_waits {res : Except Exc Loc} (ha : s.th.accs ≠ []) (hl : (levelFor s.th s.th.ctx.pc).1 = 2) :
    issueAt s kind n ea dc look hint res = .next s := by
  simp [issueAt, ha, hl]

theorem issueAt_raises {e : Exc} (ha : s.th.accs = []) : issueAt s kind n ea dc look hint (.error e) = raise s e := by
  simp [issueAt, ha]

/-- R246: beside older accesses a failing check is held with the access. -/
theorem issueAt_holdsFault {e : Exc} (ha : s.th.accs ≠ []) (hl : (levelFor s.th s.th.ctx.pc).1 ≠ 2) :
    issueAt s kind n ea dc look hint (.error e)
      = pushAcc s { newAcc s kind ea none dc look hint true with fault := some e } (levelFor s.th s.th.ctx.pc).1
          (levelFor s.th s.th.ctx.pc).2 := by
  simp [issueAt, ha, hl]

end

/-! ## Stores -/

theorem storeOp_true {s : State} {f : FmtC} (x : Option XM) (bs : Ctx → List Byte) (hp : s.th.ctx.pred f.p = true) :
    storeOp s f x bs
      = issueAt s (.store (bs s.th.ctx)) (bs s.th.ctx).length (eaXM s.th.ctx f.a x) f.dc f.look.val (hintOf x)
          (resolve s s.th .wr (eaXM s.th.ctx f.a x) (bs s.th.ctx).length) :=
  guarded_true s f.p _ hp

/-- Each form's store, under a true guard. -/
theorem exec_store {s : State} {i : Instr} {f : FmtC} {x : Option XM} {bs : List Byte}
    (h : storeForm s.th.ctx i = some (f, x, bs)) (hp : s.th.ctx.pred f.p = true) :
    exec i s = issueAt s (.store bs) bs.length (eaXM s.th.ctx f.a x) f.dc f.look.val (hintOf x)
      (resolve s s.th .wr (eaXM s.th.ctx f.a x) bs.length) := by
  cases i
  all_goals simp only [storeForm, Option.some.injEq, Prod.mk.injEq, reduceCtorEq] at h
  all_goals obtain ⟨rfl, rfl, rfl⟩ := h
  case stB8 f x => exact storeOp_true x (fun c => bytesOfNat 1 (c.reg f.d).toNat) hp
  case stB16 f x => exact storeOp_true x (fun c => bytesOfNat 2 (c.reg f.d).toNat) hp
  case stB32 f x => exact storeOp_true x (fun c => bytesOfNat 4 (c.reg f.d).toNat) hp
  case stB64 f x => exact storeOp_true x (fun c => bytesOfNat 8 (c.pair f.d).toNat) hp
  case stB128 f x => exact storeOp_true x (fun c => bytesOf (c.regs f.d 4)) hp

section

variable {s : State} {bs : List Byte} {n : Nat} {ea : DWord} {dc : Fin 7} {look hint : Nat} {loc : Loc}

/-- R240: beside older accesses a store whose address resolves joins, whatever its page. -/
theorem issueAt_store_speculative (ha : s.th.accs ≠ []) (hl : (levelFor s.th s.th.ctx.pc).1 ≠ 2) :
    issueAt s (.store bs) n ea dc look hint (.ok loc)
      = pushAcc s (newAcc s (.store bs) ea (some loc) dc look hint true) (levelFor s.th s.th.ctx.pc).1 (levelFor s.th s.th.ctx.pc).2 := by
  have he : s.th.accs.isEmpty = false := by simpa using ha
  simp [issueAt, he, hl]

/-- R205, R323: the oldest store's page holds it back, or not; either way it joins. -/
theorem issueAt_store_oldest {g : Gate} (ha : s.th.accs = []) (hg : gate s s.th.place.die .wr loc ea n = g) (hb : ∀ e, g ≠ .bad e) :
    issueAt s (.store bs) n ea dc look hint (.ok loc)
      = pushAcc s { newAcc s (.store bs) ea (some loc) dc look hint false with parked := decide (g = .park) }
          (levelFor s.th s.th.ctx.pc).1 (levelFor s.th s.th.ctx.pc).2 := by
  simp only [issueAt, ha, hg, List.isEmpty_nil, Bool.not_true, Bool.false_and, Bool.false_eq_true, if_false]
  cases g with
  | go => rfl
  | park => rfl
  | wait => rfl
  | bad e => exact absurd rfl (hb e)

theorem issueAt_store_raises {e : Exc} (ha : s.th.accs = []) (hg : gate s s.th.place.die .wr loc ea n = .bad e) :
    issueAt s (.store bs) n ea dc look hint (.ok loc) = raise s e := by
  simp [issueAt, ha, hg]

end

/-- Settles O35: each case of the checks is a push of the access, a trap or a wait. -/
theorem storesIssue : Obligations.StoresIssue := by
  unfold Obligations.StoresIssue
  intro s i f x bs loc e hi hp ea res g lvl joined
  have hx : exec i s = issueAt s (.store bs) bs.length ea f.dc f.look.val (hintOf x) res := exec_store hi hp
  have push : ∀ a : Access, a.snap = s.th.ctx → a.iaddr = s.th.ctx.pc → a.kind = .store bs → a.ea = ea → a.dc = f.dc →
      exec i s = pushAcc s a lvl (levelFor s.th s.th.ctx.pc).2 → ∃ t, joined t a := fun a hs ha hk he hd hpush => by
    obtain ⟨t, ht, hj, hr, ho⟩ := pushAcc_joins s a lvl (levelFor s.th s.th.ctx.pc).2 hs ha
    exact ⟨t, hpush.trans ht, hj, hr, hk, he, hd, ho⟩
  have oldest : s.th.accs = [] → res = .ok loc → ∀ v, g = v → (∀ e, v ≠ .bad e) →
      ∃ (t : State) (a : Access), joined t a ∧ a.loc = some loc ∧ a.fault = none ∧ a.spec = false
        ∧ a.parked = decide (v = .park) :=
    fun ha hres v hg hb => by
      rw [hres, issueAt_store_oldest ha hg hb] at hx
      obtain ⟨t, ht⟩ := push _ rfl rfl rfl rfl rfl hx
      exact ⟨t, _, ht, rfl, rfl, rfl, rfl⟩
  refine ⟨fun ha => ⟨fun hres hg => ?_, fun hres hg => oldest ha hres _ hg (by simp), fun hres hg => ?_, fun hres => ?_⟩,
    fun ha hl => hx.trans (issueAt_waits ha hl), fun ha hl => ⟨fun hres => ?_, fun hres => ?_⟩⟩
  · rcases hg with hg | hg
    · exact oldest ha hres _ hg (by simp)
    · exact oldest ha hres _ hg (by simp)
  · rw [hx, hres, issueAt_store_raises ha hg]
  · rw [hx, hres, issueAt_raises ha]
  · rw [hres, issueAt_store_speculative ha hl] at hx
    obtain ⟨t, ht⟩ := push _ rfl rfl rfl rfl rfl hx
    exact ⟨t, _, ht, rfl, rfl, rfl⟩
  · rw [hres, issueAt_holdsFault ha hl] at hx
    obtain ⟨t, ht⟩ := push _ rfl rfl rfl rfl rfl hx
    exact ⟨t, _, ht, rfl, rfl⟩

end Sys2Proof.Machine
end

