-- ==== Sys2Proof/Proofs/LoadIssue.lean ====
section
/-! Why `LoadsIssue` fails: it says that an early read is to be had at every level but 2, and at a level of 3, which the two bits of SLVL
can hold, none is. -/

namespace Sys2Proof.Machine

/-- A thread of the device after reset whose registers 2 and 3 hold the first address of its scratchpad. -/
def spadReader : State :=
  modCtx (State.reset.withFetchWord 32 0x00F00000) fun c => c.setMany [(2, 0), (3, 0xF0000000)]

/-- A load of word 16 of that scratchpad, not yet performed. -/
def olderLoad : Access :=
  newAcc spadReader (.load 4 .zext [1]) 0xF000000000000010 (some (.spad ⟨1, 0⟩ 0 0x10)) 0 0 0 false

/-- The same thread with that load outstanding, its SLVL at 3, a value to which R250 gives no meaning. -/
def levelThree : State :=
  modTh spadReader fun t => { t with accs := [olderLoad], spec := { t.spec with slvl := 3 } }

theorem levelThree_level : (levelFor levelThree.th levelThree.th.ctx.pc).1 = 3 := by decide

theorem levelThree_resolve :
    resolve levelThree levelThree.th .rd (eaXM levelThree.th.ctx 2 none) 4 = .ok (.spad ⟨1, 0⟩ 0 0) := rfl

/-- R235: at a level of 2 or more nothing reads early. -/
theorem earlyRead_of_two_le {s : State} {lvl : Nat} (h : 2 ≤ lvl) (loc : Loc) (ea : DWord) (n : Nat) :
    earlyRead s lvl loc ea n = none := by
  have : decide (lvl < 2) = false := decide_eq_false (by omega)
  cases loc with
  | peer => rfl
  | hbm => simp only [earlyRead, this, Bool.false_and, Bool.false_eq_true, if_false]
  | spad => simp only [earlyRead, this, Bool.false_and, Bool.false_eq_true, if_false]

/-- Refutes O34: its clause that an early read can be had asks for a level other than 2, where R235 and the model ask for one below 2.
At SLVL 3 a load of `levelThree` beside an older one passes its checks, need not wait and finds room for its watch, but reads nothing
early. -/
theorem not_loadsIssue : ¬ Obligations.LoadsIssue := by
  unfold Obligations.LoadsIssue
  intro h
  obtain ⟨-, -, hspec⟩ := h levelThree (.ldB32 ⟨15, 1, 2, 0, 0⟩ none) ⟨15, 1, 2, 0, 0⟩ none 4 .zext [1] (.spad ⟨1, 0⟩ 0 0)
    (.kill 0) rfl rfl
  obtain ⟨-, -, -, -, -, hearly, -⟩ := hspec (by decide) (by decide)
  have hsome := hearly levelThree_resolve (by decide) rfl (by decide) (by decide)
  rw [levelThree_level, earlyRead_of_two_le (by decide)] at hsome
  cases hsome

end Sys2Proof.Machine
end

