-- ==== Sys2Proof/Proofs/FloatBits.lean ====
section
/-! Classes of floating-point values, and the order of .f32 values, by sign and magnitude (R117, R118, R120). -/

namespace Sys2Proof.Machine

/-! ## Classes (R118) -/

/-- The code of the infinity of a format that has one: all exponent bits set. -/
def infCode (f : NumFmt) : Nat := f.signBit - 2 ^ f.fbits

/-- R118: the class of a sign and a magnitude, as the number of its bit. -/
def classIndex (f : NumFmt) (neg : Bool) (mag : Nat) : Nat :=
  if infCode f < mag then (if infCode f + 2 ^ (f.fbits - 1) ≤ mag then 9 else 8)
  else if mag = infCode f then (if neg then 0 else 7)
  else if mag = 0 then (if neg then 3 else 4)
  else if mag < 2 ^ f.fbits then (if neg then 2 else 5)
  else (if neg then 1 else 6)

/-- A word's low bits, as a code of `f`, are a sign and a magnitude. -/
theorem mod_two_pow_bits (f : NumFmt) (a : Word) :
    a.toNat % 2 ^ f.bits = signPart f (a.getLsbD (f.bits - 1)) + a.toNat % f.signBit := by
  have hpow : 2 ^ f.bits = 2 ^ (f.bits - 1 + 1) := by cases f <;> rfl
  rw [hpow, Nat.mod_pow_succ, BitVec.getLsbD, Nat.testBit_eq_decide_div_mod_eq, signPart, NumFmt.signBit, Nat.add_comm]
  rcases Nat.mod_two_eq_zero_or_one (a.toNat / 2 ^ (f.bits - 1)) with h | h <;> simp [h]

theorem numOf_mod (f : NumFmt) (code : Nat) : numOf f (code % 2 ^ f.bits) = numOf f code := by
  simp only [numOf, Nat.mod_mod]

/-- R39, R112: the value of a word's low bits. -/
theorem numOf_low {f : NumFmt} (hf : f.tapered = false) (a : Word) :
    numOf f a.toNat = magNum f (a.getLsbD (f.bits - 1)) (a.toNat % f.signBit) := by
  rw [← numOf_mod, mod_two_pow_bits, numOf_signPart_add hf _ (Nat.mod_lt _ (Nat.two_pow_pos _))]

section

variable (m : ClsFmt) (s : Bool) {mag : Nat}

theorem infCode_eq_maxCode_succ : infCode (clsFmt m) = (clsFmt m).maxCode + 1 := by cases m <;> rfl

theorem two_pow_fbits_dvd_infCode : 2 ^ (clsFmt m).fbits ∣ infCode (clsFmt m) := by cases m <;> decide

theorem infCode_add_two_pow_fbits : infCode (clsFmt m) + 2 ^ (clsFmt m).fbits = (clsFmt m).signBit := by cases m <;> rfl

/-- From the infinity up, the fraction is what the magnitude has above it. -/
theorem mod_two_pow_fbits_of_infCode_le (h : infCode (clsFmt m) ≤ mag) (hm : mag < (clsFmt m).signBit) :
    mag % 2 ^ (clsFmt m).fbits = mag - infCode (clsFmt m) := by
  have hsum := infCode_add_two_pow_fbits m
  obtain ⟨t, ht⟩ := two_pow_fbits_dvd_infCode m
  obtain ⟨r, rfl⟩ := Nat.exists_eq_add_of_le h
  rw [Nat.add_sub_cancel_left, ht, Nat.mul_add_mod, Nat.mod_eq_of_lt (by omega)]

theorem magNum_of_infCode_le (h : infCode (clsFmt m) ≤ mag) (hm : mag < (clsFmt m).signBit) :
    magNum (clsFmt m) s mag
      = if mag = infCode (clsFmt m) then .inf s else .nan (decide (mag < infCode (clsFmt m) + 2 ^ ((clsFmt m).fbits - 1))) := by
  have hmax := infCode_eq_maxCode_succ m
  have hinf : (clsFmt m).hasInf = true := by cases m <;> rfl
  have hne : ((clsFmt m) != .e5m2) = true := by cases m <;> rfl
  have hgt : mag > (clsFmt m).maxCode := by omega
  have hfr : mag - infCode (clsFmt m) = 0 ↔ mag = infCode (clsFmt m) := by omega
  have hq : mag - infCode (clsFmt m) < 2 ^ ((clsFmt m).fbits - 1) ↔ mag < infCode (clsFmt m) + 2 ^ ((clsFmt m).fbits - 1) := by omega
  simp [magNum, hinf, hne, hgt, mod_two_pow_fbits_of_infCode_le m h hm, hfr, hq]

/-- Below the infinity a value is finite: subnormal or zero with the magnitude itself as its significand, or with the leading bit added. -/
theorem magNum_of_lt_infCode (h : mag < infCode (clsFmt m)) :
    ∃ n e, magNum (clsFmt m) s mag = .fin s n e ∧ (n = 0 ↔ mag = 0) ∧ (n < 2 ^ (clsFmt m).fbits ↔ mag < 2 ^ (clsFmt m).fbits) := by
  have hmax := infCode_eq_maxCode_succ m
  have hle : ¬mag > (clsFmt m).maxCode := by omega
  have hpos : 0 < 2 ^ (clsFmt m).fbits := Nat.two_pow_pos _
  have hex : mag / 2 ^ (clsFmt m).fbits = 0 ↔ mag < 2 ^ (clsFmt m).fbits := Nat.div_eq_zero_iff_lt hpos
  simp only [magNum, hle, decide_false, Bool.and_false, Bool.false_eq_true, if_false, hex]
  by_cases hsub : mag < 2 ^ (clsFmt m).fbits
  · rw [if_pos hsub, Nat.mod_eq_of_lt hsub]
    exact ⟨_, _, rfl, Iff.rfl, Iff.rfl⟩
  · rw [if_neg hsub]
    exact ⟨_, _, rfl, by omega, by omega⟩

/-- R118: the class of a value is that of its sign and magnitude. -/
theorem classBit_eq_classIndex (a : Word) :
    classBit (clsFmt m) a.toNat
      = classIndex (clsFmt m) (a.getLsbD ((clsFmt m).bits - 1)) (a.toNat % (clsFmt m).signBit) := by
  have hm : a.toNat % (clsFmt m).signBit < (clsFmt m).signBit := Nat.mod_lt _ (Nat.two_pow_pos _)
  have hf : (clsFmt m).tapered = false := by cases m <;> rfl
  rw [classBit, numOf_low hf]
  generalize a.toNat % (clsFmt m).signBit = mag at hm ⊢
  generalize a.getLsbD ((clsFmt m).bits - 1) = s
  rcases lt_trichotomy mag (infCode (clsFmt m)) with h | h | h
  · obtain ⟨n, e, hfin, hzero, hsub⟩ := magNum_of_lt_infCode m s h
    simp only [hfin, classIndex, hzero, hsub, if_neg h.not_gt, if_neg h.ne]
  · rw [magNum_of_infCode_le m s h.ge hm, if_pos h, classIndex, if_neg h.not_gt, if_pos h]
  · rw [magNum_of_infCode_le m s h.le hm, if_neg h.ne', classIndex, if_pos h]
    by_cases hq : mag < infCode (clsFmt m) + 2 ^ ((clsFmt m).fbits - 1)
    · simp [hq]
    · simp [hq, not_lt.mp hq]

end

/-! ## Compares (R120) -/

/-- A .f32 word's magnitude with its sign: the order of values that are no NaN, both zeros being equal. -/
def signedMag (w : Word) : Int := if w.getLsbD 31 then -(magW w : Int) else (magW w : Int)

/-- R120: the ordered relations, which a quiet NaN too makes invalid. -/
def IsLoud (cc : FCond) : Prop := cc = .lt ∨ cc = .le ∨ cc = .gt ∨ cc = .ge

/-- A word is its sign and its magnitude. -/
theorem word_eq_iff (a b : Word) : a = b ↔ a.getLsbD 31 = b.getLsbD 31 ∧ magW a = magW b := by
  refine ⟨fun h => h ▸ ⟨rfl, rfl⟩, fun ⟨hs, hm⟩ => BitVec.eq_of_toNat_eq ?_⟩
  rw [word_eq_signPart_add a, word_eq_signPart_add b, hs, hm]

theorem fEq_iff (a b : Word) : fEq a b = true ↔ signedMag a = signedMag b := by
  have hmag (w : Word) : w.toNat % 0x80000000 = magW w := rfl
  simp only [fEq, hmag, Bool.or_eq_true, Bool.and_eq_true, beq_iff_eq, word_eq_iff, signedMag]
  cases a.getLsbD 31 <;> cases b.getLsbD 31 <;> simp <;> omega

theorem fLt_iff (a b : Word) : fLt a b = true ↔ signedMag a < signedMag b := by
  have heq := fEq_iff a b
  rw [fLt, Bool.and_eq_true, Bool.not_eq_true', ← Bool.not_eq_true, heq, decide_eq_true_iff, codeKey_word, codeKey_word]
  unfold signedMag
  cases a.getLsbD 31 <;> cases b.getLsbD 31 <;> simp <;> omega

theorem fLe_iff (a b : Word) : (fLt a b || fEq a b) = true ↔ signedMag a ≤ signedMag b := by
  rw [Bool.or_eq_true, fLt_iff, fEq_iff, le_iff_lt_or_eq]

theorem fGe_iff (a b : Word) : (fLt b a || fEq a b) = true ↔ signedMag a ≥ signedMag b := by
  rw [Bool.or_eq_true, fLt_iff, fEq_iff, ge_iff_le, le_iff_lt_or_eq, eq_comm]

/-- R40: a .f32 word that is a signalling NaN. -/
def IsSignalling (w : Word) : Prop := 0x7F800000 < magW w ∧ magW w < 0x7FC00000

theorem sig_or_sig_of_signalling {a b : Word} (h : IsSignalling a ∨ IsSignalling b) :
    (numOf .f32 a.toNat).sig ||| (numOf .f32 b.toNat).sig = 0x100 := by
  rw [sig_word, sig_word]
  rcases h with ⟨hinf, hq⟩ | ⟨hinf, hq⟩
  · rw [if_pos ⟨hinf, hq⟩]
    split_ifs <;> rfl
  · rw [if_pos (c := _ ∧ magW b < _) ⟨hinf, hq⟩]
    split_ifs <;> rfl

theorem sig_or_sig_of_not_signalling {a b : Word} (h : ¬(IsSignalling a ∨ IsSignalling b)) :
    (numOf .f32 a.toNat).sig ||| (numOf .f32 b.toNat).sig = 0 := by
  obtain ⟨ha, hb⟩ := not_or.mp h
  rw [sig_word, sig_word]
  exact congrArg₂ (· ||| ·) (if_neg ha) (if_neg hb)

theorem isNan_or_iff (a b : Word) :
    ((numOf .f32 a.toNat).isNan || (numOf .f32 b.toNat).isNan) = true ↔ 0x7F800000 < magW a ∨ 0x7F800000 < magW b := by
  rw [Bool.or_eq_true, isNan_word, isNan_word]

section Unordered

variable {a b : Word} (h : 0x7F800000 < magW a ∨ 0x7F800000 < magW b) (cc : FCond)

include h

theorem fcmpOf_nan : (fcmpOf cc a b).1 = true ↔ cc = .ne ∨ cc = .un := by
  have hun := (isNan_or_iff a b).mpr h
  cases cc <;> simp [fcmpOf, hun]

theorem fcmpOf_nan_flags_loud (hl : IsLoud cc) : (fcmpOf cc a b).2 = 0x100 := by
  have hun := (isNan_or_iff a b).mpr h
  rcases hl with rfl | rfl | rfl | rfl <;> exact if_pos hun

end Unordered

theorem fcmpOf_flags_quiet (a b : Word) {cc : FCond} (hl : ¬IsLoud cc) :
    (fcmpOf cc a b).2 = (numOf .f32 a.toNat).sig ||| (numOf .f32 b.toNat).sig := by
  cases cc
  case lt | le | gt | ge => exact absurd (by simp [IsLoud]) hl
  all_goals rfl

/-- R120: what a relation says of two values that are no NaN. -/
def fcondHolds (cc : FCond) (x y : Int) : Prop :=
  match cc with
  | .eq => x = y
  | .ne => x ≠ y
  | .lt | .qlt => x < y
  | .le | .qle => x ≤ y
  | .gt | .qgt => x > y
  | .ge | .qge => x ≥ y
  | .un => False
  | .ord => True

section Ordered

variable {a b : Word} (h : ¬(0x7F800000 < magW a ∨ 0x7F800000 < magW b)) (cc : FCond)

include h

theorem fcmpOf_ordered : (fcmpOf cc a b).1 = true ↔ fcondHolds cc (signedMag a) (signedMag b) := by
  have hun : ((numOf .f32 a.toNat).isNan || (numOf .f32 b.toNat).isNan) = false := by
    rw [← Bool.not_eq_true, isNan_or_iff]
    exact h
  cases cc <;> simp only [fcmpOf, hun, Bool.not_false, Bool.true_and, Bool.false_or, fcondHolds]
  case eq => exact fEq_iff a b
  case ne => rw [Bool.not_eq_true', ← Bool.not_eq_true, fEq_iff]
  case lt | qlt => exact fLt_iff a b
  case le | qle => exact fLe_iff a b
  case gt | qgt => exact fLt_iff b a
  case ge | qge => exact fGe_iff a b
  case un => exact Bool.false_eq_true.to_iff

theorem fcmpOf_ordered_flags : (fcmpOf cc a b).2 = 0 := by
  by_cases hl : IsLoud cc
  · have hun := mt (isNan_or_iff a b).mp h
    rcases hl with rfl | rfl | rfl | rfl <;> exact if_neg hun
  · rw [fcmpOf_flags_quiet a b hl]
    refine sig_or_sig_of_not_signalling fun hsig => h ?_
    exact hsig.imp And.left And.left

end Ordered

/-! ## The statement -/

theorem execFcls_next {s : State} {f : FmtU} (m : ClsFmt) (hp : s.th.ctx.pred f.p = true) {a : Word} (ha : s.th.ctx.reg f.a = a) {k : Nat}
    (hk : classIndex (clsFmt m) (a.getLsbD ((clsFmt m).bits - 1)) (a.toNat % (clsFmt m).signBit) = k) :
    exec (.fcls f m) s = .next (s.afterReg f.d (BitVec.ofNat 32 (2 ^ k))) := by
  refine unOp_next (g := fun x => wOf (2 ^ classBit (clsFmt m) x.toNat)) hp ?_
  rw [ha, classBit_eq_classIndex, hk]
  rfl

/-- Settles O17: the bits by computation, the class from the value of each sign and magnitude, and each relation from the order of signed
magnitudes, where neither operand is a NaN. -/
theorem floatBitsAndCompares : Obligations.FloatBitsAndCompares := by
  unfold Obligations.FloatBitsAndCompares
  refine ⟨fun s f m hp => ?_, fun s f cc hp => ?_⟩
  · intro a n fb mag neg inf k
    refine ⟨unOp_next (g := fun x => x &&& ~~~signMask false) hp rfl, unOp_next (g := fun x => x &&& ~~~signMask true) hp rfl,
      unOp_next (g := fun x => x ^^^ signMask false) hp rfl, unOp_next (g := fun x => x ^^^ signMask true) hp rfl,
      execFcls_next m hp rfl ?_⟩
    cases m <;> rfl
  · intro a b mag val nan sig loud
    refine ⟨(fcmpOf cc a b).1, (fcmpOf cc a b).2, regOp_after hp ?_, fun hnan => ⟨fcmpOf_nan hnan cc, fun hnv => ?_, fun hl hsig => ?_⟩,
      fun hnum => ⟨fcmpOf_ordered_flags hnum cc, ?_⟩⟩
    · simp only [Ctx.orFlags, Ctx.setPred_fpst, a, b]
    · by_cases hl : IsLoud cc
      · exact fcmpOf_nan_flags_loud hnan cc hl
      · rw [fcmpOf_flags_quiet a b hl]
        exact sig_or_sig_of_signalling (hnv.resolve_left hl)
    · rw [fcmpOf_flags_quiet a b hl]
      exact sig_or_sig_of_not_signalling hsig
    · exact fcmpOf_ordered hnum cc

end Sys2Proof.Machine
end

