-- ==== Sys2Proof/Proofs/PickerEvents.lean ====
section
/-! Yields, merge holds and ageing at a port (R143, R145, R148, R149): the limits of 64 opportunities, and the bundle of an aged thread. -/

namespace Sys2Proof.Machine

/-! ## The limits of 64 opportunities (R148, R149) -/

/-- R148: the end of a yield that has lasted `n` opportunities. -/
def endYield (n : Nat) (t : Thread) : Thread := if 64 ≤ n then { t with yielded := none } else t

/-- R148: a thread's own yield is judged by its count. -/
theorem exec_yieldExpiry_self {s : State} {n : Nat} (h : s.th.yielded = some n) :
    exec (.yieldExpiry s.th.id) s = .next (modTh s (endYield n)) := by
  refine congrArg Host.Outcome.next ((onThread_self s _).trans ?_)
  simp only [modTh, h, endYield]

/-- R149: the release of the holds of a group at the address where `x` is held. -/
def releaseHolds (s : State) (x : Thread) : State :=
  mapThreads s fun y => if sameGroup y x && y.held.isSome && y.ctx.pc == x.ctx.pc then { y with held := none, mhold := true } else y

/-- R149: a thread's own hold is judged by its count, and released with the others. -/
theorem exec_mergeHoldTimeout_self {s : State} {n : Nat} (h : s.th.held = some n) :
    exec (.mergeHoldTimeout s.th.id) s = .next (if 64 ≤ n then releaseHolds s s.th else s) := by
  show execMergeHoldTimeout s.th.id s = _
  simp only [execMergeHoldTimeout, findThread_self, h]
  rfl

theorem sameGroup_refl (t : Thread) : sameGroup t t = true := by simp [sameGroup, sameTeam, sameCluster]

theorem releaseHolds_th {s : State} (h : s.th.held.isSome = true) :
    (releaseHolds s s.th).th = { s.th with held := none, mhold := true } := by
  simp [releaseHolds, sameGroup_refl, h]

theorem mem_releaseHolds_pool {s : State} {x y : Thread} (hy : y ∈ s.pool) (hg : sameGroup y x = true) (hh : y.held.isSome = true)
    (hpc : y.ctx.pc = x.ctx.pc) : { y with held := none, mhold := true } ∈ (releaseHolds s x).pool :=
  List.mem_map.mpr ⟨y, hy, by simp [hg, hh, hpc]⟩

/-! ## The bundle of a path (R145) -/

/-- R238: the pre-images of an issue are marks alone. -/
theorem markNext_same (s : State) (t : Thread) : markNext s t = { t with marks := (markNext s t).marks } := by
  unfold markNext
  split
  · rfl
  · split <;> rfl

theorem countOpp_ctx (core port : Nat) (rdy took : List Tid) (t : Thread) : (countOpp core port rdy took t).ctx = t.ctx := by
  unfold countOpp
  split <;> rfl

/-- R143, R148: a thread of the bundle that issues at the port loses its age and its yield. -/
theorem countOpp_took {core port : Nat} {rdy took : List Tid} {t : Thread} (hc : t.place.core = core) (hp : t.place.port = port)
    (hl : t.live = true) (ht : took.contains t.id = true) :
    (countOpp core port rdy took t).age = 0 ∧ (countOpp core port rdy took t).yielded = none := by
  unfold countOpp
  rw [if_pos (by simp [hc, hp, hl]), ht]
  exact ⟨rfl, rfl⟩

theorem countOpp_id (core port : Nat) (rdy took : List Tid) (t : Thread) : (countOpp core port rdy took t).id = t.id := by
  unfold countOpp
  split <;> rfl

/-- A thread after the choice of a bundle `b`, before the yields of its team end. -/
def chosenTh (s : State) (core port : Nat) (rdy b : List Tid) (aged : Bool) (t : Thread) : Thread :=
  let x := countOpp core port rdy b (if b.contains t.id then markNext s t else t)
  if b.contains x.id then { x with aged := x.aged || aged } else x

section
variable (s : State) (core port : Nat) (rdy b : List Tid) (aged : Bool) (t : Thread)

theorem marked_same : ∃ m, (if b.contains t.id then markNext s t else t) = { t with marks := m } := by
  split
  · exact ⟨_, markNext_same s t⟩
  · exact ⟨_, rfl⟩

theorem chosenTh_ctx : (chosenTh s core port rdy b aged t).ctx = t.ctx := by
  obtain ⟨m, hm⟩ := marked_same s b t
  unfold chosenTh
  rw [hm]
  dsimp only
  split <;> exact countOpp_ctx _ _ _ _ _

theorem chosenTh_id : (chosenTh s core port rdy b aged t).id = t.id := by
  obtain ⟨m, hm⟩ := marked_same s b t
  unfold chosenTh
  rw [hm]
  dsimp only
  split <;> exact countOpp_id _ _ _ _ _

/-- R145, R150: an aged thread of the bundle. -/
theorem chosenTh_of_mem {s : State} {core port : Nat} {b : List Tid} {t : Thread} (hb : t.id ∈ b) (ht : t ∈ onPort s core port) :
    (chosenTh s core port rdy b true t).age = 0 ∧ (chosenTh s core port rdy b true t).aged = true
      ∧ (chosenTh s core port rdy b true t).yielded = none := by
  have hport := (List.mem_filter.mp ht).2
  simp only [Bool.and_eq_true, beq_iff_eq] at hport
  obtain ⟨⟨hc, hp⟩, hl⟩ := hport
  have hcon : b.contains t.id = true := List.contains_iff_mem.mpr hb
  obtain ⟨m, hm⟩ := marked_same s b t
  obtain ⟨hage, hyield⟩ := countOpp_took (rdy := rdy) (took := b) (t := { t with marks := m }) hc hp hl hcon
  unfold chosenTh
  rw [hm]
  dsimp only
  rw [countOpp_id, if_pos hcon]
  exact ⟨hage, Bool.or_true _, hyield⟩

/-- What is left of `takePath` once its bundle is known. -/
def bundleTaken : State :=
  let s1 := mapThreads (mapThreads s fun x => if b.contains x.id then markNext s x else x) (countOpp core port rdy b)
  let s2 := endYields (mapThreads s1 fun x => if b.contains x.id then { x with aged := x.aged || aged } else x) core port t b
  let p := setLeader (getPicker s2 core port) t.cid t.id.team t.id.tid
  let s3 := setPicker s2 core port { p with last := some (t.cid, t.id.team) }
  { s3 with bundle := s3.bundle ++ b }

theorem takePath_eq_bundleTaken :
    takePath s core port t aged = bundleTaken s core port (((onPort s core port).filter (ready s)).map (·.id))
      (bundleOf t (bundleMates s t (pathOf ((onPort s core port).filter (ready s)) t))) aged t := by
  unfold takePath bundleTaken
  rfl

/-- R148: the yields that end are those of threads outside the bundle. -/
theorem bundleTaken_th : (bundleTaken s core port rdy b aged t).th
    = if !b.contains (chosenTh s core port rdy b aged s.th).id && sameTeam (chosenTh s core port rdy b aged s.th) t
          && (chosenTh s core port rdy b aged s.th).place.core == core && (chosenTh s core port rdy b aged s.th).place.port == port then
        { chosenTh s core port rdy b aged s.th with yielded := none }
      else chosenTh s core port rdy b aged s.th := rfl

theorem bundleTaken_th_of_mem {b : List Tid} (hs : s.th.id ∈ b) :
    (bundleTaken s core port rdy b aged t).th = chosenTh s core port rdy b aged s.th := by
  rw [bundleTaken_th, chosenTh_id, List.contains_iff_mem.mpr hs]
  rfl

theorem bundleTaken_ctx : (bundleTaken s core port rdy b aged t).th.ctx = s.th.ctx := by
  rw [bundleTaken_th]
  split <;> exact chosenTh_ctx _ _ _ _ _ _ _

theorem bundleTaken_bundle : (bundleTaken s core port rdy b aged t).bundle = s.bundle ++ b := rfl
theorem bundleTaken_mem : (bundleTaken s core port rdy b aged t).mem = s.mem := rfl
theorem bundleTaken_clusters : (bundleTaken s core port rdy b aged t).clusters = s.clusters := rfl

end

/-- R145: an ageing issue takes the path of the aged thread. -/
theorem exec_ageingIssue {s : State} {core port : Nat} {x : Thread} (h : pickAged ((onPort s core port).filter (ready s)) = some x) :
    exec (.ageingIssue core port) s = .next (takePath s core port x true) := by
  show execAgeingIssue core port s = _
  unfold execAgeingIssue
  rw [h]

/-! ## The statement -/

/-- Settles O45: a yield and a hold by the thread's own count, and an ageing issue by what it makes of the focus thread. -/
theorem pickerEvents : Obligations.PickerEvents := by
  unfold Obligations.PickerEvents
  intro s n core port x
  refine ⟨fun hy h64 => ?_, fun hy h64 => ?_, fun hh h64 => ?_, fun hh h64 => ?_, fun hx => ?_⟩
  · rw [exec_yieldExpiry_self hy, modTh, endYield, if_pos h64]
  · rw [exec_yieldExpiry_self hy, modTh, endYield, if_neg (by omega)]
  · rw [exec_mergeHoldTimeout_self hh, if_pos h64]
    exact ⟨_, rfl, releaseHolds_th (by simp [hh]), List.length_map _, ⟨rfl, rfl, rfl, rfl, rfl, rfl, rfl, rfl, rfl, rfl⟩,
      fun y hy hg hheld hpc => mem_releaseHolds_pool hy hg hheld hpc⟩
  · rw [exec_mergeHoldTimeout_self hh, if_neg (by omega)]
  · rw [exec_ageingIssue hx, takePath_eq_bundleTaken]
    refine ⟨_, rfl, bundleTaken_bundle _ _ _ _ _ _ _, fun hb hs => ?_, bundleTaken_ctx _ _ _ _ _ _ _, bundleTaken_mem _ _ _ _ _ _ _,
      bundleTaken_clusters _ _ _ _ _ _ _⟩
    rw [bundleTaken_th_of_mem _ _ _ _ _ _ hb]
    exact chosenTh_of_mem _ hb hs

end Sys2Proof.Machine
end

