-- ==== Sys2Proof/Proofs/GroupArrival.lean ====
section
/-! The arrival of a lane at a group-collective or matrix instruction (R151, R153, R177 to R183, R255): each is `arriveGroup` with the
guard and the mask of its form, behind the check of an odd pair (R126, R127). -/

namespace Sys2Proof.Machine

/-- The meaning of every instruction of `groupForm`. -/
theorem exec_groupForm {i : Instr} {p : Pred} {mask : Reg} (h : groupForm i = some (p, mask)) (s : State) :
    exec i s = if oddPairAt s.th.place.width i then illegal s else arriveGroup s p mask i := by
  cases i
  all_goals simp only [groupForm, Option.some.injEq, Prod.mk.injEq, reduceCtorEq] at h
  all_goals
    obtain ⟨rfl, rfl⟩ := h
    rfl

/-- The member set of the focus lane, its own lane among them (R151). -/
def arrivalSet (s : State) (mask : Reg) : BitVec 64 := memberSet s.th.ctx s.th.place.width s.th.place.lane mask

/-- The focus lane waiting at `i`. -/
def waitAt (s : State) (mask : Reg) (i : Instr) : State := modTh s fun t => { t with status := .rv (arrivalSet s mask) 0 i }

theorem arrivalSet_eq (s : State) (mask : Reg) :
    arrivalSet s mask = (if mask = 0 then BitVec.ofNat 64 (2 ^ s.th.place.width - 1)
      else s.th.ctx.pair mask &&& BitVec.ofNat 64 (2 ^ s.th.place.width - 1)) ||| (1#64 <<< s.th.place.lane) := by
  simp only [arrivalSet, memberSet, Fin.ext_iff]
  rfl

section
variable {s : State} {p : Pred} {mask : Reg} {i : Instr} (hp : s.th.ctx.pred p = true)
include hp

/-- R151: with nothing outstanding the lane waits, and the last of its bundle has the arrival judged. -/
theorem arriveGroup_clear (ha : s.th.accs = []) (ho : s.th.ops = []) :
    arriveGroup s p mask i
      = .next (if moreArrive (waitAt s mask i) then waitAt s mask i else judgeGroup (waitAt s mask i) (waitAt s mask i).th) := by
  unfold arriveGroup
  rw [guarded_true s p _ hp, ha, ho]
  rfl

theorem arriveGroup_outstanding (h : s.th.accs ≠ [] ∨ s.th.ops ≠ []) : arriveGroup s p mask i = .next s := by
  have hc : ¬(s.th.accs.isEmpty && s.th.ops.isEmpty) = true := by
    simpa [List.isEmpty_iff, imp_iff_not_or] using h
  unfold arriveGroup
  rw [guarded_true s p _ hp, if_neg hc]

end

/-- R151: the judgement traps each lane that is deadlocked, and none where none is. -/
theorem judgeGroup_eq (s : State) (t : Thread) :
    judgeGroup s t = (deadlocked (groupOf s t) t).foldl (fun s l => trapLane s l.id (.trap cConvDeadlock 0 0)) s := rfl

theorem judgeGroup_of_nil {s : State} {t : Thread} (h : deadlocked (groupOf s t) t = []) : judgeGroup s t = s := by
  rw [judgeGroup_eq, h, List.foldl_nil]

/-- Settles O42: by the meaning that the forms share. -/
theorem groupArrival : Obligations.GroupArrival := by
  unfold Obligations.GroupArrival
  intro s i p mask hi all m u
  have hu : u = waitAt s mask i := by
    simp only [waitAt, arrivalSet_eq]
    rfl
  have hex := exec_groupForm hi s
  refine ⟨fun hodd => by rw [hex, if_pos hodd], fun hodd hp => ?_, fun hodd hp => ?_⟩
  all_goals rw [hodd, if_neg Bool.false_ne_true] at hex
  · rw [hex]
    exact guarded_false s p _ hp
  · rw [hex, hu]
    refine ⟨fun ha ho h => ?_, fun ha ho hmore => ?_, arriveGroup_outstanding hp⟩
    · rw [arriveGroup_clear hp ha ho]
      by_cases hmore : moreArrive (waitAt s mask i) = true
      · rw [if_pos hmore]
      · rw [if_neg hmore, judgeGroup_of_nil (h.resolve_right hmore)]
    · rw [arriveGroup_clear hp ha ho, hmore, if_neg Bool.false_ne_true, judgeGroup_eq]

end Sys2Proof.Machine
end

