-- ==== Sys2Proof/Proofs/GroupRelease.lean ====
section
/-! The bundle of a complete rendezvous (R145, R151, R152): each member in turn goes on with its new registers, and every other thread
keeps its own. -/

namespace Sys2Proof.Machine

/-! ## An operation brought to another thread -/

/-- No two threads of the device have one number. -/
abbrev DistinctIds (s : State) : Prop := ((threads s).map (·.id)).Nodup

theorem distinctIds_iff (s : State) : DistinctIds s ↔ (threads s).Pairwise fun x y => x.id ≠ y.id := List.pairwise_map

theorem DistinctIds.eq {s : State} (h : DistinctIds s) {x y : Thread} (hx : x ∈ threads s) (hy : y ∈ threads s) (he : x.id = y.id) :
    x = y := List.inj_on_of_nodup_map h hx hy he

theorem id_of_unheld {x y : Thread} (h : x.unheld = y.unheld) : x.id = y.id := (congrArg Thread.id h :)
theorem ctx_of_unheld {x y : Thread} (h : x.unheld = y.unheld) : x.ctx = y.ctx := (congrArg Thread.ctx h :)
theorem status_of_unheld {x y : Thread} (h : x.unheld = y.unheld) : x.status = y.status := (congrArg Thread.status h :)
theorem exitedF_of_unheld {x y : Thread} (h : x.unheld = y.unheld) : x.exitedF = y.exitedF := (congrArg Thread.exitedF h :)

theorem map_id_unheld (l : List Thread) : (l.map Thread.unheld).map (·.id) = l.map (·.id) := by
  rw [List.map_map]
  rfl

/-- An operation of the focus thread that leaves every other thread but its merge hold, and keeps the focus. -/
structure KeepsOthers (f : State → State) : Prop where
  others : ∀ s, (f s).pool.map Thread.unheld = s.pool.map Thread.unheld
  ident : ∀ s, (f s).th.id = s.th.id
  status : ∀ s, (f s).th.status ≠ .free

/-- A thread found in the pool comes into focus, and the focus thread heads the pool. -/
theorem focus_found {s : State} {t : Tid} {x : Thread} (ht : s.th.id ≠ t) (hx : s.pool.find? (fun y => y.id == t) = some x)
    (hl : s.th.status ≠ .free) :
    focus s t = some { s with th := x, pool := s.th :: s.pool.filter fun y => y.id != t } := by
  unfold focus
  rw [if_neg ht, hx]
  dsimp only
  rw [if_neg hl]

theorem find?_pool {s : State} (hd : DistinctIds s) {x : Thread} (hx : x ∈ s.pool) :
    s.pool.find? (fun y => y.id == x.id) = some x := by
  obtain ⟨y, hy⟩ : ∃ y, s.pool.find? (fun y => y.id == x.id) = some y :=
    Option.isSome_iff_exists.mp (List.find?_isSome.mpr ⟨x, hx, beq_self_eq_true _⟩)
  have hid : y.id = x.id := by simpa using List.find?_some hy
  rw [hy, hd.eq (List.mem_cons_of_mem _ (List.mem_of_find?_eq_some hy)) (List.mem_cons_of_mem _ hx) hid]

theorem filter_pool_self {s : State} (hd : DistinctIds s) : s.pool.filter (fun y => y.id != s.th.id) = s.pool := by
  refine List.filter_eq_self.mpr fun y hy => ?_
  have hne := (List.nodup_cons.mp hd).1
  exact bne_iff_ne.mpr fun he => hne (List.mem_map.mpr ⟨y, hy, he⟩)

/-- A thread and the others are all. -/
theorem map_id_cons_filter {s : State} (hd : DistinctIds s) {x : Thread} (hx : x ∈ threads s) :
    ((threads s).map (·.id)).Perm (x.id :: ((threads s).filter fun y => y.id != x.id).map (·.id)) := by
  have h := List.perm_cons_erase (List.mem_map_of_mem (f := (·.id)) hx)
  rwa [hd.erase_eq_filter, List.filter_map] at h

/-- What comes of an operation on thread `x`: `u` is the device with `x` in focus. -/
structure BroughtTo (s : State) (x : Thread) (f : State → State) (u t : State) : Prop where
  target : u.th = x
  before : SameMemory s u
  after : SameMemory (f u) t
  focus : t.th.status ≠ .free
  threads : ((threads t).map Thread.unheld).Perm
    ((f u).th.unheld :: ((threads s).filter fun y => y.id != x.id).map Thread.unheld)

theorem onThread_brings {s : State} {f : State → State} (hf : KeepsOthers f) (hd : DistinctIds s) (hl : s.th.status ≠ .free)
    {x : Thread} (hx : x ∈ threads s) : ∃ u, BroughtTo s x f u (onThread s x.id f) := by
  by_cases hself : s.th.id = x.id
  · obtain rfl : s.th = x := hd.eq (List.mem_cons_self ..) hx hself
    refine ⟨s, rfl, .of_eq rfl rfl, ?_, ?_, ?_⟩
    all_goals rw [onThread_self]
    · exact .of_eq rfl rfl
    · exact hf.status s
    · rw [threads, threads, List.filter_cons_of_neg (by simp), filter_pool_self hd, List.map_cons, hf.others]
  · have hpool : x ∈ s.pool := (List.mem_cons.mp hx).resolve_left fun h => hself (h ▸ rfl)
    set u : State := { s with th := x, pool := s.th :: s.pool.filter fun y => y.id != x.id } with hu
    have hfocus : focus s x.id = some u := focus_found hself (find?_pool hd hpool) hl
    obtain ⟨a, rest, hp, ha, hrest⟩ := List.map_eq_cons_iff.mp (hf.others u)
    have haid : a.id = s.th.id := id_of_unheld ha
    have hne : (f u).th.id ≠ s.th.id := by
      rw [hf.ident u]
      exact fun h => hself h.symm
    have hback : focus (f u) s.th.id
        = some { f u with th := a, pool := (f u).th :: (f u).pool.filter fun y => y.id != s.th.id } :=
      focus_found hne (by rw [hp, List.find?_cons_of_pos (by simp [haid])]) (hf.status u)
    have hfilter : rest.filter (fun y => y.id != s.th.id) = rest := by
      refine List.filter_eq_self.mpr fun y hy => bne_iff_ne.mpr fun he => (List.nodup_cons.mp hd).1 ?_
      have hmem : y.id ∈ (s.pool.filter fun y => y.id != x.id).map (·.id) := by
        rw [← map_id_unheld, ← hrest, map_id_unheld]
        exact List.mem_map_of_mem hy
      obtain ⟨z, hz, hzy⟩ := List.mem_map.mp hmem
      exact List.mem_map.mpr ⟨z, (List.mem_filter.mp hz).1, hzy.trans he⟩
    have hon : onThread s x.id f = { f u with th := a, pool := (f u).th :: rest } := by
      unfold onThread
      rw [if_neg hself, hfocus]
      dsimp only
      rw [hback, hp, List.filter_cons_of_neg (by simp [haid]), hfilter]
      rfl
    refine ⟨u, rfl, .of_eq rfl rfl, ?_, ?_, ?_⟩
    all_goals rw [hon]
    · exact .of_eq rfl rfl
    · rw [status_of_unheld ha]
      exact hl
    · simp only [threads, List.map_cons, ha, hrest]
      rw [List.filter_cons_of_pos (by simpa using hself), List.map_cons]
      exact List.Perm.swap _ _ _

/-! ## The release of a member (R152) -/

/-- The member goes on with the registers `c`. -/
def releaseFocus (i : Instr) (c : Ctx) (gone : Bool) (s : State) : State :=
  goOn (issued (modTh s fun t => { t with status := .run, exitedF := t.exitedF || gone, age := 0, ctx := c })) (encode i).length

theorem releaseMember_eq (i : Instr) (mem : List Thread) (gone : Bool) (s : State) (l : Thread) :
    releaseMember i mem gone s l = onThread s l.id (releaseFocus i (groupOut i mem l) gone) := rfl

theorem releaseFocus_moved (i : Instr) (c : Ctx) (gone : Bool) (s : State) :
    Moved (modTh s fun t => { t with status := .run, exitedF := t.exitedF || gone, age := 0, ctx := c }) (releaseFocus i c gone s) :=
  (issued_moved _).trans (goOn_moved _ _)

theorem releaseFocus_keepsOthers (i : Instr) (c : Ctx) (gone : Bool) : KeepsOthers (releaseFocus i c gone) where
  others s := (releaseFocus_moved i c gone s).others
  ident s := (releaseFocus_moved i c gone s).ident
  status s := by
    rw [(releaseFocus_moved i c gone s).status]
    exact nofun

/-- Thread `x` has gone on as `y`, with the registers `c` (R152). -/
structure Released (c : Ctx) (gone : Bool) (x y : Thread) : Prop where
  status : y.status = .run
  exitedF : y.exitedF = (x.exitedF || gone)
  reg : ∀ r, y.ctx.reg r = c.reg r
  pred : ∀ p, y.ctx.pred p = c.pred p
  fpst : y.ctx.fpst = c.fpst

theorem released_releaseFocus (i : Instr) (c : Ctx) (gone : Bool) (s : State) :
    Released c gone s.th (releaseFocus i c gone s).th := by
  have m := releaseFocus_moved i c gone s
  exact ⟨m.status, m.exitedF, m.reg, m.pred, m.fpst⟩

/-- A merge hold is no part of a release. -/
theorem Released.of_unheld {c : Ctx} {gone : Bool} {x x' y y' : Thread} (h : Released c gone x y) (hx : x'.unheld = x.unheld)
    (hy : y'.unheld = y.unheld) : Released c gone x' y' := by
  refine ⟨(status_of_unheld hy).trans h.status, ?_, ?_, ?_, ?_⟩
  · rw [exitedF_of_unheld hy, exitedF_of_unheld hx]
    exact h.exitedF
  all_goals rw [ctx_of_unheld hy]
  · exact h.reg
  · exact h.pred
  · exact h.fpst

/-- What the release of the members `ms` makes of every thread. -/
structure Releases (c : Thread → Ctx) (gone : Bool) (ms : List Thread) (s t : State) : Prop where
  ids : ((threads t).map (·.id)).Perm ((threads s).map (·.id))
  focus : t.th.status ≠ .free
  memory : SameMemory s t
  threads : ∀ x ∈ threads s, ∃ y ∈ threads t, y.id = x.id ∧ (∀ l ∈ ms, l.id = x.id → Released (c l) gone x y)
    ∧ ((∀ l ∈ ms, l.id ≠ x.id) → y.unheld = x.unheld)

theorem Releases.cons {c : Thread → Ctx} {gone : Bool} {l : Thread} {ms : List Thread} {s t u : State}
    (h : Releases c gone [l] s t) (k : Releases c gone ms t u) (hl : ∀ l' ∈ ms, l'.id ≠ l.id) : Releases c gone (l :: ms) s u where
  ids := k.ids.trans h.ids
  focus := k.focus
  memory := h.memory.trans k.memory
  threads x hx := by
    obtain ⟨y, hy, hyid, hyrel, hykept⟩ := h.threads x hx
    obtain ⟨z, hz, hzid, hzrel, hzkept⟩ := k.threads y hy
    refine ⟨z, hz, hzid.trans hyid, fun l' hl' hid => ?_, fun hno => ?_⟩
    · rcases List.mem_cons.mp hl' with rfl | hmem
      · exact (hyrel l' (List.mem_singleton_self _) hid).of_unheld rfl
          (hzkept fun l'' hl'' => hyid.trans hid.symm ▸ hl l'' hl'')
      · refine (hzrel l' hmem (hid.trans hyid.symm)).of_unheld (hykept fun l'' hl'' => ?_).symm rfl
        rw [List.mem_singleton.mp hl'', ← hid]
        exact (hl l' hmem).symm
    · rw [hzkept fun l' hl' => hyid ▸ hno l' (List.mem_cons_of_mem _ hl'),
        hykept fun l' hl' => hno l' (List.mem_singleton.mp hl' ▸ List.mem_cons_self ..)]

theorem releaseMember_releases (i : Instr) (mem : List Thread) (gone : Bool) {s : State} (hd : DistinctIds s)
    (hf : s.th.status ≠ .free) {l : Thread} (hl : l.id ∈ (threads s).map (·.id)) :
    Releases (groupOut i mem) gone [l] s (releaseMember i mem gone s l) := by
  obtain ⟨x, hx, hxl⟩ := List.mem_map.mp hl
  obtain ⟨u, hu⟩ := onThread_brings (releaseFocus_keepsOthers i (groupOut i mem l) gone) hd hf hx
  rw [releaseMember_eq, ← hxl]
  have hperm := hu.threads
  have hrel := released_releaseFocus i (groupOut i mem l) gone u
  have hid := (releaseFocus_keepsOthers i (groupOut i mem l) gone).ident u
  rw [hu.target] at hrel hid
  have hback {z : Thread} (hz : z.unheld ∈ (releaseFocus i (groupOut i mem l) gone u).th.unheld
      :: ((threads s).filter fun y => y.id != x.id).map Thread.unheld) :
      ∃ y ∈ threads (onThread s x.id (releaseFocus i (groupOut i mem l) gone)), y.unheld = z.unheld :=
    List.mem_map.mp (hperm.mem_iff.mpr hz)
  refine ⟨?ids, hu.focus, (hu.before.trans ?memory).trans hu.after, fun z hz => ?threads⟩
  case ids =>
    have hids := hperm.map (·.id)
    rw [map_id_unheld, List.map_cons, map_id_unheld, show (releaseFocus i (groupOut i mem l) gone u).th.unheld.id = x.id from hid] at hids
    exact hids.trans (map_id_cons_filter hd hx).symm
  case memory =>
    have m := releaseFocus_moved i (groupOut i mem l) gone u
    exact .of_eq (congrArg MemSys.hbm m.device.mem) m.device.clusters
  case threads =>
    by_cases hzx : z.id = x.id
    · obtain rfl := hd.eq hz hx hzx
      obtain ⟨y, hy, hyu⟩ := hback (List.mem_cons_self ..)
      refine ⟨y, hy, (id_of_unheld hyu).trans hid, fun l' hl' _ => ?_, fun h => absurd hxl.symm (h l (List.mem_singleton_self _))⟩
      rw [List.mem_singleton.mp hl']
      exact hrel.of_unheld rfl hyu
    · obtain ⟨y, hy, hyu⟩ := hback (List.mem_cons_of_mem _ (List.mem_map_of_mem (List.mem_filter.mpr ⟨hz, bne_iff_ne.mpr hzx⟩)))
      refine ⟨y, hy, id_of_unheld hyu, fun l' hl' hid' => ?_, fun _ => hyu⟩
      rw [List.mem_singleton.mp hl'] at hid'
      exact absurd (hid'.symm.trans hxl.symm) hzx

theorem foldl_releaseMember_releases (i : Instr) (mem : List Thread) (gone : Bool) (ms : List Thread) {s : State} (hd : DistinctIds s)
    (hf : s.th.status ≠ .free) (hms : (ms.map (·.id)).Nodup) (hsub : ∀ l ∈ ms, l.id ∈ (threads s).map (·.id)) :
    Releases (groupOut i mem) gone ms s (ms.foldl (releaseMember i mem gone) s) := by
  induction ms generalizing s with
  | nil => exact ⟨.refl _, hf, .of_eq rfl rfl, fun x hx => ⟨x, hx, rfl, by simp, fun _ => rfl⟩⟩
  | cons l ms ih =>
    obtain ⟨hnot, hms'⟩ := List.nodup_cons.mp hms
    have h := releaseMember_releases i mem gone hd hf (hsub l (List.mem_cons_self ..))
    refine h.cons (ih (h.ids.nodup_iff.mpr hd) h.focus hms' fun l' hl' => h.ids.mem_iff.mpr (hsub l' (List.mem_cons_of_mem _ hl'))) ?_
    exact fun l' hl' he => hnot (List.mem_map.mpr ⟨l', hl', he⟩)

end Sys2Proof.Machine
end

