-- ==== Sys2Proof/Proofs/GroupValues.lean ====
section
/-! What a value-exchanging instruction writes (R152, R177 to R182): its destination alone, and there the source's word, the count or the
place of the yes lanes, or the combination of the positions. -/

namespace Sys2Proof.Machine

/-! ## A written pair (R9) -/

theorem Reg.val_ne_zero {d : Reg} (hd : d ≠ 0) : d.val ≠ 0 := fun h => hd (Fin.ext h)

theorem plusReg_one_val {d : Reg} (he : d.val % 2 = 0) : (plusReg d 1).val = d.val + 1 :=
  Nat.mod_eq_of_lt (by have := d.isLt; omega)

theorem Ctx.reg_setPair_low (c : Ctx) {d : Reg} (v : DWord) (hd : d ≠ 0) (he : d.val % 2 = 0) : (c.setPair d v).reg d = loW v := by
  have hne : d ≠ plusReg d 1 := fun h => by have := congrArg Fin.val h; have := plusReg_one_val he; omega
  rw [Ctx.setPair, if_neg (Reg.val_ne_zero hd), Ctx.reg_setReg_other _ _ _ _ hne, Ctx.reg_setReg_self _ _ _ (Reg.val_ne_zero hd)]

theorem Ctx.reg_setPair_high (c : Ctx) {d : Reg} (v : DWord) (hd : d ≠ 0) (he : d.val % 2 = 0) :
    (c.setPair d v).reg (plusReg d 1) = hiW v := by
  rw [Ctx.setPair, if_neg (Reg.val_ne_zero hd), Ctx.reg_setReg_self _ _ _ (by rw [plusReg_one_val he]; omega)]

theorem Ctx.pair_setPair (c : Ctx) {d : Reg} (v : DWord) (hd : d ≠ 0) (he : d.val % 2 = 0) : (c.setPair d v).pair d = v := by
  rw [Ctx.pair, if_neg (Reg.val_ne_zero hd), Ctx.reg_setPair_low c v hd he, Ctx.reg_setPair_high c v hd he, pairD_loW_hiW]

@[simp] theorem Ctx.pair_orFlags (c : Ctx) (w : Word) (r : Reg) : (c.orFlags w).pair r = c.pair r := rfl

theorem WritesOnly.setPairRegs {ps : List Pred} {fl di : Bool} (c : Ctx) (d : Reg) (v : DWord) :
    WritesOnly (pairRegs d) ps fl di c (c.setPair d v) :=
  .setPair (List.mem_cons_self ..) (List.mem_cons_of_mem _ (List.mem_singleton_self _)) v

/-! ## What is written -/

theorem shflOut_writes (f : FmtA) (m : ShflMode) (t : RawTy) (mem : List Thread) (l : Thread) :
    WritesOnly (match t with | .b32 => [f.d] | .b64 => pairRegs f.d) [] false false l.ctx (shflOut f m t mem l) := by
  cases t with
  | b32 => exact .setReg (List.mem_singleton_self _) _
  | b64 => exact .setPairRegs _ _ _

theorem voteOut_writes (f : FmtU) (m : VoteMode) (mem : List Thread) (l : Thread) :
    WritesOnly (pairRegs f.d) [] false false l.ctx (voteOut f m mem l) := by
  cases m with
  | mask => exact .setPairRegs _ _ _
  | count | first | last => exact .setReg (List.mem_cons_self ..) _

theorem gopPut_writes (op : GOp) (d : Reg) (c : Ctx) (r : Nat × Word) :
    WritesOnly (if gopBits op = 64 then pairRegs d else [d]) [] true false c (gopPut op d c r) := by
  unfold gopPut
  refine .trans ?_ (.orFlags _)
  split
  · exact .setPairRegs _ _ _
  · exact .setReg (List.mem_singleton_self _) _

/-- R126: the packed word, the scale register, the flags and the dither phase. -/
theorem qblkOut_writes (f : FmtU) (fmt : MxFmt) (bsel : Fin 4) (dth : Bool) (e : Reg) (mem : List Thread) (l : Thread) :
    WritesOnly [f.d, e] [] true true l.ctx (qblkOut f fmt bsel dth e mem l) := by
  have h : ∀ (w v : Word) (fl : Word), WritesOnly [f.d, e] [] true true l.ctx (((l.ctx.setReg f.d w).setReg e v).orFlags fl) := fun w v fl =>
    ((WritesOnly.setReg (by simp) w).trans (.setReg (by simp) v)).trans (.orFlags fl)
  unfold qblkOut
  dsimp only
  split
  · exact (h _ _ _).trans ⟨fun _ _ => rfl, fun _ _ => rfl, fun _ => rfl, nofun, rfl⟩
  · exact h _ _ _

theorem dqblkOut_writes (f : FmtU) (fmt : MxFmt) (bsel : Fin 4) (e : Reg) (mem : List Thread) (l : Thread) :
    WritesOnly (if l.place.width = 16 then pairRegs f.d else [f.d]) [] true false l.ctx (dqblkOut f fmt bsel e mem l) := by
  unfold dqblkOut
  dsimp only
  split
  · exact (WritesOnly.setPairRegs _ _ _).trans (.orFlags _)
  · exact (WritesOnly.setReg (List.mem_singleton_self _) _).trans (.orFlags _)

/-- R152: no exchange writes a predicate. -/
theorem groupOut_pred (i : Instr) (mem : List Thread) (l : Thread) (p : Pred) : (groupOut i mem l).pred p = l.ctx.pred p := by
  cases i
  case shfl f m t k => exact (shflOut_writes f m t mem l).preds p List.not_mem_nil
  case vote f m k => exact (voteOut_writes f m mem l).preds p List.not_mem_nil
  case gred f op k => exact (gopPut_writes op f.d l.ctx _).preds p List.not_mem_nil
  case gscan f op excl k => exact (gopPut_writes op f.d l.ctx _).preds p List.not_mem_nil
  case qblk f fmt bsel dth e k => exact (qblkOut_writes f fmt bsel dth e mem l).preds p List.not_mem_nil
  case dqblk f fmt bsel e k => exact (dqblkOut_writes f fmt bsel e mem l).preds p List.not_mem_nil
  all_goals rfl

/-! ## Shuffles (R179) -/

/-- The lane that a shuffle reads, or the member's own beyond the members. -/
theorem shflSource_eq {mem : List Thread} {l src : Thread} {n : Nat} (h : atLane mem n = some src ∨ (atLane mem n = none ∧ src = l)) :
    (atLane mem n).getD l = src := by
  rcases h with h | ⟨h, rfl⟩ <;> rw [h] <;> rfl

theorem shflOut_b32 {f : FmtA} (m : ShflMode) {mem : List Thread} {l src : Thread} (hd : f.d ≠ 0)
    (h : (atLane mem (shflLane m l.place.width l.place.lane (l.ctx.reg f.b))).getD l = src) :
    (shflOut f m .b32 mem l).reg f.d = src.ctx.reg f.a := by
  rw [shflOut, h]
  exact Ctx.reg_setReg_self _ _ _ (Reg.val_ne_zero hd)

theorem shflOut_b64 {f : FmtA} (m : ShflMode) {mem : List Thread} {l src : Thread} (hd : f.d ≠ 0) (he : f.d.val % 2 = 0)
    (h : (atLane mem (shflLane m l.place.width l.place.lane (l.ctx.reg f.b))).getD l = src) :
    (shflOut f m .b64 mem l).pair f.d = src.ctx.pair f.a := by
  rw [shflOut, h]
  exact Ctx.pair_setPair _ _ hd he

/-! ## Votes (R180) -/

/-- Lane `n` is a member and says yes. -/
def yesAt (a : Reg) (mem : List Thread) (n : Nat) : Bool :=
  match atLane mem n with
  | none => false
  | some t => t.ctx.reg a != 0

theorem yesAt_iff (a : Reg) (mem : List Thread) (n : Nat) : yesAt a mem n = true ↔ ∃ t, atLane mem n = some t ∧ t.ctx.reg a ≠ 0 := by
  unfold yesAt
  cases atLane mem n <;> simp

theorem yesLanes_eq (f : FmtU) (mem : List Thread) : yesLanes f mem = (List.range 64).filter (yesAt f.a mem) := rfl

/-- The sum of distinct powers of two has just their bits. -/
theorem testBit_foldl_two_pow (p : Nat → Bool) (N : Nat) :
    ((List.range N).filter p).foldl (fun n k => n + 2 ^ k) 0 < 2 ^ N
      ∧ ∀ n, (((List.range N).filter p).foldl (fun n k => n + 2 ^ k) 0).testBit n = (decide (n < N) && p n) := by
  induction N with
  | zero => simp
  | succ N ih =>
    obtain ⟨hlt, hbit⟩ := ih
    rw [List.range_succ, List.filter_append, List.foldl_append]
    generalize ((List.range N).filter p).foldl (fun n k => n + 2 ^ k) 0 = v at hlt hbit
    cases hp : p N with
    | false =>
      rw [List.filter_cons_of_neg (by simp [hp])]
      refine ⟨by rw [pow_succ]; exact (show v < _ by omega), fun n => (hbit n).trans ?_⟩
      rcases lt_trichotomy n N with h | rfl | h
      · simp [h, h.trans (Nat.lt_succ_self N)]
      · simp [hp]
      · simp [h.not_gt, show ¬n < N + 1 by omega]
    | true =>
      rw [List.filter_cons_of_pos hp]
      have hor : v + 2 ^ N = 2 ^ N ||| v := by
        have := Nat.two_pow_add_eq_or_of_lt hlt 1
        rwa [mul_one, Nat.add_comm] at this
      refine ⟨by rw [pow_succ]; exact (show v + 2 ^ N < _ by omega), fun n => ?_⟩
      show (v + 2 ^ N).testBit n = _
      rw [hor, Nat.testBit_or, Nat.testBit_two_pow, hbit]
      rcases lt_trichotomy n N with h | rfl | h
      · simp [h, h.ne', h.trans (Nat.lt_succ_self N)]
      · simp [hp]
      · simp [h.not_gt, h.ne, show ¬n < N + 1 by omega]

theorem head?_filter_range {p : Nat → Bool} {N n : Nat} (hn : n < N) (hp : p n = true) (hlow : ∀ j, j < n → p j = false) :
    ((List.range N).filter p).head? = some n := by
  rw [List.head?_filter, List.find?_range_eq_some]
  exact ⟨hp, List.mem_range.mpr hn, fun j hj => by simp [hlow j hj]⟩

theorem getLast?_filter_range {p : Nat → Bool} {N n : Nat} (hn : n < N) (hp : p n = true)
    (hhigh : ∀ j, n < j → j < N → p j = false) : ((List.range N).filter p).getLast? = some n := by
  induction N with
  | zero => exact absurd hn (Nat.not_lt_zero n)
  | succ N ih =>
    rw [List.range_succ, List.filter_append]
    rcases Nat.lt_succ_iff_lt_or_eq.mp hn with h | rfl
    · rw [List.filter_cons_of_neg (by simp [hhigh N h (Nat.lt_succ_self N)]), List.filter_nil, List.append_nil]
      exact ih h fun j hj hjN => hhigh j hj (hjN.trans (Nat.lt_succ_self N))
    · rw [List.filter_cons_of_pos hp, List.filter_nil, List.getLast?_concat]

section
variable (f : FmtU) (mem : List Thread) (l : Thread)

theorem voteOut_count (hd : f.d ≠ 0) : (voteOut f .count mem l).reg f.d = BitVec.ofNat 32 ((List.range 64).countP (yesAt f.a mem)) := by
  rw [List.countP_eq_length_filter]
  exact Ctx.reg_setReg_self _ _ _ (Reg.val_ne_zero hd)

theorem voteOut_mask (hd : f.d ≠ 0) (he : f.d.val % 2 = 0) {n : Nat} (hn : n < 64) :
    ((voteOut f .mask mem l).pair f.d).getLsbD n = yesAt f.a mem n := by
  obtain ⟨hlt, hbit⟩ := testBit_foldl_two_pow (yesAt f.a mem) 64
  have hv : (voteOut f .mask mem l).pair f.d
      = BitVec.ofNat 64 (((List.range 64).filter (yesAt f.a mem)).foldl (fun n k => n + 2 ^ k) 0) := Ctx.pair_setPair _ _ hd he
  rw [hv, BitVec.getLsbD_ofNat, hbit]
  simp [hn]

theorem voteOut_first (hd : f.d ≠ 0) : (voteOut f .first mem l).reg f.d
    = match ((List.range 64).filter (yesAt f.a mem)).head? with | none => 0xFFFFFFFF | some k => wOf k :=
  Ctx.reg_setReg_self _ _ _ (Reg.val_ne_zero hd)

theorem voteOut_last (hd : f.d ≠ 0) : (voteOut f .last mem l).reg f.d
    = match ((List.range 64).filter (yesAt f.a mem)).getLast? with | none => 0xFFFFFFFF | some k => wOf k :=
  Ctx.reg_setReg_self _ _ _ (Reg.val_ne_zero hd)

end

theorem filter_yes_nil {a : Reg} {mem : List Thread} (h : ∀ n, n < 64 → yesAt a mem n = false) :
    (List.range 64).filter (yesAt a mem) = [] :=
  List.filter_eq_nil_iff.mpr fun n hn => by simp [h n (List.mem_range.mp hn)]

end Sys2Proof.Machine
end

