-- ==== Sys2Proof/Proofs/GroupReductions.lean ====
section
/-! Reductions and scans (R58, R181, R182): the levels of the pairwise tree, the ascending order of a scan, and what each integer and
bitwise operation makes of its positions. -/

namespace Sys2Proof.Machine

/-! ## The positions (R181) -/

/-- The value of position `j`: its member's, or the identity. -/
def posVal (op : GOp) (a : Reg) (mem : List Thread) (j : Nat) : Nat :=
  match atLane mem j with
  | none => gopId op
  | some t => if gopBits op = 64 then (t.ctx.pair a).toNat else (t.ctx.reg a).toNat

theorem gopVals_eq (op : GOp) (a : Reg) (w : Nat) (mem : List Thread) : gopVals op a w mem = (List.range w).map (posVal op a mem) := rfl

/-- The word of position `j`: its member's, or `z`. -/
def posWord (a : Reg) (mem : List Thread) (z : Word) (j : Nat) : Word :=
  match atLane mem j with
  | none => z
  | some t => t.ctx.reg a

theorem posVal_eq_toNat {op : GOp} (hb : gopBits op ≠ 64) {z : Word} (hz : z.toNat = gopId op) (a : Reg) (mem : List Thread) (j : Nat) :
    posVal op a mem j = (posWord a mem z j).toNat := by
  unfold posVal posWord
  cases atLane mem j with
  | none => exact hz.symm
  | some t => exact if_neg hb

/-! ## The pairwise tree (R58) -/

/-- The results of two parts combined, with all their flags. -/
def joinParts (op : GOp) (x y : Nat × Word) : Nat × Word := ((gopCombine op x.1 y.1).1, x.2 ||| y.2 ||| (gopCombine op x.1 y.1).2)

theorem treeLevel_cons_cons (op : GOp) (x y : Nat × Word) (l : List (Nat × Word)) :
    treeLevel op (x :: y :: l) = joinParts op x y :: treeLevel op l := rfl

theorem pairTree_succ (op : GOp) (v : Nat → Nat) (k b : Nat) :
    pairTree op v (k + 1) b = joinParts op (pairTree op v k b) (pairTree op v k (b + 2 ^ k)) := rfl

theorem treeLevel_range (op : GOp) (g : Nat → Nat × Word) (n : Nat) :
    treeLevel op ((List.range (2 * n)).map g) = (List.range n).map fun j => joinParts op (g (2 * j)) (g (2 * j + 1)) := by
  induction n generalizing g with
  | zero => rfl
  | succ n ih =>
    rw [show 2 * (n + 1) = 2 * n + 1 + 1 by omega, List.range_succ_eq_map, List.range_succ_eq_map, List.range_succ_eq_map]
    simp only [List.map_cons, List.map_map, treeLevel_cons_cons]
    exact congrArg₂ _ rfl (ih _)

theorem treeAll_singleton (op : GOp) (n : Nat) (x : Nat × Word) : treeAll op n [x] = x := by
  cases n <;> rfl

/-- What the levels of the tree above level `i` make of its parts. -/
theorem treeAll_level (op : GOp) (v : Nat → Nat) {k n : Nat} (i : Nat) (h : k ≤ n) :
    treeAll op n ((List.range (2 ^ k)).map fun j => pairTree op v i (j * 2 ^ i)) = pairTree op v (i + k) 0 := by
  induction k generalizing n i with
  | zero => rw [show List.range (2 ^ 0) = [0] from rfl, List.map_singleton, treeAll_singleton, Nat.zero_mul, Nat.add_zero]
  | succ k ih =>
    obtain ⟨m, rfl⟩ : ∃ m, n = m + 1 := ⟨n - 1, by omega⟩
    have hlong : ¬(((List.range (2 ^ (k + 1))).map fun j => pairTree op v i (j * 2 ^ i)).length ≤ 1) := by
      have := Nat.two_pow_pos k
      rw [List.length_map, List.length_range, pow_succ]
      omega
    have hlevel (j : Nat) : joinParts op (pairTree op v i (2 * j * 2 ^ i)) (pairTree op v i ((2 * j + 1) * 2 ^ i))
        = pairTree op v (i + 1) (j * 2 ^ (i + 1)) := by
      rw [pairTree_succ, show j * 2 ^ (i + 1) = 2 * j * 2 ^ i by ring, show (2 * j + 1) * 2 ^ i = 2 * j * 2 ^ i + 2 ^ i by ring]
    rw [treeAll, if_neg hlong, pow_succ', treeLevel_range, List.map_congr_left fun j _ => hlevel j, ih (i + 1) (by omega)]
    congr 1
    omega

/-- R58: a group of 2^lg positions is combined pairwise. -/
theorem treeAll_eq_pairTree (op : GOp) (v : Nat → Nat) {lg n : Nat} (h : lg ≤ n) :
    treeAll op n (((List.range (2 ^ lg)).map v).map fun x => (x, 0)) = pairTree op v lg 0 := by
  have := treeAll_level op v 0 h
  simpa [pairTree, List.map_map, Function.comp_def] using this

/-! ## Scans (R182) -/

/-- One more position combined. -/
def nextPart (op : GOp) (x : Nat × Word) (v : Nat) : Nat × Word := ((gopCombine op x.1 v).1, x.2 ||| (gopCombine op x.1 v).2)

/-- The first `n` positions combined in rising order: a sum starts from its first position. -/
def scanParts (op : GOp) (pos : Nat → Nat) (n : Nat) : Nat × Word :=
  match op, n with
  | .addF, m + 1 => ((List.range m).map fun j => pos (j + 1)).foldl (nextPart op) (canonNan .f32 (pos 0))
  | _, n => ((List.range n).map pos).foldl (nextPart op) (gopId op, 0)

theorem scanAll_eq_scanParts (op : GOp) (pos : Nat → Nat) (n : Nat) : scanAll op ((List.range n).map pos) = scanParts op pos n := by
  cases op
  case addF =>
    cases n with
    | zero => rfl
    | succ m =>
      rw [List.range_succ_eq_map, List.map_cons, List.map_map]
      rfl
  all_goals rfl

/-! ## The combined value in its register or pair -/

/-- `c` has the value and the flags of `r` in the destination `d`, and else what `c₀` has. -/
structure HoldsPart (op : GOp) (d : Reg) (c₀ : Ctx) (r : Nat × Word) (c : Ctx) : Prop where
  fpst : c.fpst = c₀.fpst ||| r.2
  word : ¬gopBits op = 64 → c.reg d = BitVec.ofNat 32 r.1
  pair : gopBits op = 64 → d.val % 2 = 0 → c.pair d = BitVec.ofNat 64 r.1
  others : ∀ q, q ∉ (if gopBits op = 64 then pairRegs d else [d]) → c.reg q = c₀.reg q

theorem gopPut_holdsPart (op : GOp) {d : Reg} (hd : d ≠ 0) (c : Ctx) (r : Nat × Word) : HoldsPart op d c r (gopPut op d c r) where
  fpst := by
    unfold gopPut
    split
    · exact congrArg (· ||| r.2) (Ctx.setPair_fpst c d _)
    · exact congrArg (· ||| r.2) (Ctx.setReg_fpst c d _)
  word h := by
    rw [gopPut, if_neg h, Ctx.reg_orFlags]
    exact Ctx.reg_setReg_self _ _ _ (Reg.val_ne_zero hd)
  pair h he := by
    rw [gopPut, if_pos h, Ctx.pair_orFlags]
    exact Ctx.pair_setPair _ _ hd he
  others := (gopPut_writes op d c r).regs

theorem gredOut_holdsPart (op : GOp) {f : FmtU} (hd : f.d ≠ 0) (mem : List Thread) {l : Thread} {lg : Nat} (hw : l.place.width = 2 ^ lg)
    (hlg : lg ≤ 7) : HoldsPart op f.d l.ctx (pairTree op (posVal op f.a mem) lg 0) (gredOut f op mem l) := by
  have htree : treeAll op 7 ((gopVals op f.a l.place.width mem).map fun v => (v, 0)) = pairTree op (posVal op f.a mem) lg 0 := by
    rw [gopVals_eq, hw, treeAll_eq_pairTree op _ hlg]
  rw [gredOut, htree]
  exact gopPut_holdsPart op hd l.ctx _

theorem gscanOut_holdsPart (op : GOp) {f : FmtU} (hd : f.d ≠ 0) (mem : List Thread) {l : Thread} (hl : l.place.lane < l.place.width)
    (excl : Bool) : HoldsPart op f.d l.ctx (scanParts op (posVal op f.a mem) (if excl then l.place.lane else l.place.lane + 1))
      (gscanOut f op excl mem l) := by
  have hn : (if excl then l.place.lane else l.place.lane + 1) ≤ l.place.width := by split <;> omega
  unfold gscanOut
  dsimp only
  rw [gopVals_eq, ← List.map_take, List.take_range, min_eq_left hn, scanAll_eq_scanParts]
  exact gopPut_holdsPart op hd l.ctx _

/-! ## Associative operations -/

section
variable {α : Type} {φ : Nat → α} {st : α → α → α} {op : GOp}

/-- Where the operation is associative in what its values stand for, the tree combines the positions as a fold does. -/
theorem foldl_eq_pairTree (hst : ∀ a b c, st (st a b) c = st a (st b c)) (hop : ∀ x y, φ (gopCombine op x y).1 = st (φ x) (φ y))
    (v : Nat → Nat) (k b : Nat) (a : α) :
    (List.range' b (2 ^ k)).foldl (fun x j => st x (φ (v j))) a = st a (φ (pairTree op v k b).1) := by
  induction k generalizing b a with
  | zero => rfl
  | succ k ih =>
    rw [pow_succ', Nat.two_mul, ← List.range'_append_1, List.foldl_append, ih, ih, hst, pairTree_succ]
    exact congrArg (st a) (hop _ _).symm

/-- What holds of every position and is kept by the operation holds of the combination. -/
theorem pairTree_fst_induction {P : Nat → Prop} (hop : ∀ x y, P x → P y → P (gopCombine op x y).1) {v : Nat → Nat} (hv : ∀ j, P (v j))
    (k b : Nat) : P (pairTree op v k b).1 := by
  induction k generalizing b with
  | zero => exact hv b
  | succ k ih => exact hop _ _ (ih _) (ih _)

/-- R181: a reduction of words from `z` on. -/
theorem foldl_posWord (hst : ∀ a b c, st (st a b) c = st a (st b c)) (hop : ∀ x y, φ (gopCombine op x y).1 = st (φ x) (φ y))
    (hb : gopBits op ≠ 64) {z : Word} (hz : z.toNat = gopId op) (r : Reg) (mem : List Thread) (lg : Nat) (a : α) :
    ((List.range (2 ^ lg)).map (posWord r mem z)).foldl (fun x v => st x (φ v.toNat)) a
      = st a (φ (pairTree op (posVal op r mem) lg 0).1) := by
  rw [← foldl_eq_pairTree hst hop, List.foldl_map, List.range_eq_range']
  simp only [posVal_eq_toNat hb hz]

end

theorem posVal_lt {op : GOp} (hb : gopBits op ≠ 64) {z : Word} (hz : z.toNat = gopId op) (a : Reg) (mem : List Thread) (j : Nat) :
    posVal op a mem j < 2 ^ 32 := by
  rw [posVal_eq_toNat hb hz]
  exact (posWord a mem z j).isLt

/-! ## The integer and bitwise operations on words (R181) -/

section
variable (r : Reg) (mem : List Thread) (lg : Nat)

/-- The word that a reduction of words gives. -/
def gredWord (op : GOp) : Word := BitVec.ofNat 32 (pairTree op (posVal op r mem) lg 0).1

/-- The words of the positions. -/
def posWords (z : Word) : List Word := (List.range (2 ^ lg)).map (posWord r mem z)

theorem gredWord_add {t : IntTy} (ht : t.wide = false) : gredWord r mem lg (.addI t) = (posWords r mem lg 0).sum := by
  have hb : IntTyBits t = 32 := by rw [IntTyBits, ht]; rfl
  have h := foldl_posWord (φ := BitVec.ofNat 32) (st := (· + ·)) (op := .addI t) add_assoc
    (fun x y => by
      show BitVec.ofNat 32 ((x + y) % 2 ^ IntTyBits t) = _
      rw [hb]
      apply BitVec.eq_of_toNat_eq
      simp)
    (by show IntTyBits t ≠ 64; omega) (z := 0) rfl r mem lg 0
  rw [zero_add] at h
  simp only [BitVec.ofNat_toNat, BitVec.setWidth_eq] at h
  rw [List.sum_eq_foldl]
  exact h.symm

/-- A bitwise operation. -/
theorem gredWord_bitwise {op : GOp} {st : Word → Word → Word} (hst : ∀ a b c, st (st a b) c = st a (st b c))
    (hop : ∀ x y, BitVec.ofNat 32 (gopCombine op x y).1 = st (BitVec.ofNat 32 x) (BitVec.ofNat 32 y))
    (hb : gopBits op ≠ 64) {z : Word} (hz : z.toNat = gopId op) (hid : ∀ w, st z w = w) :
    gredWord r mem lg op = (posWords r mem lg z).foldl st z := by
  have h := foldl_posWord hst hop hb hz r mem lg z
  simp only [BitVec.ofNat_toNat, BitVec.setWidth_eq] at h
  rw [hid] at h
  exact h.symm

theorem gredWord_and : gredWord r mem lg (.and .b32) = (posWords r mem lg 0xFFFFFFFF).foldl (· &&& ·) 0xFFFFFFFF :=
  gredWord_bitwise r mem lg BitVec.and_assoc (fun _ _ => BitVec.ofNat_and) (by decide) rfl fun _ => BitVec.allOnes_and

theorem gredWord_or : gredWord r mem lg (.or .b32) = (posWords r mem lg 0).foldl (· ||| ·) 0 :=
  gredWord_bitwise r mem lg BitVec.or_assoc (fun _ _ => BitVec.ofNat_or) (by decide) rfl fun _ => BitVec.zero_or

theorem gredWord_xor : gredWord r mem lg (.xor .b32) = (posWords r mem lg 0).foldl (· ^^^ ·) 0 :=
  gredWord_bitwise r mem lg BitVec.xor_assoc (fun _ _ => BitVec.ofNat_xor) (by decide) rfl fun _ => BitVec.zero_xor

/-- The number of a combined word below 2^32. -/
theorem gredWord_toNat {op : GOp} (hop : ∀ x y, (gopCombine op x y).1 = x ∨ (gopCombine op x y).1 = y) (hb : gopBits op ≠ 64) {z : Word}
    (hz : z.toNat = gopId op) : (gredWord r mem lg op).toNat = (pairTree op (posVal op r mem) lg 0).1 := by
  refine Nat.mod_eq_of_lt (pairTree_fst_induction (P := (· < 2 ^ 32)) (fun x y hx hy => ?_) (posVal_lt hb hz r mem) lg 0)
  rcases hop x y with h | h <;> rw [h]
  · exact hx
  · exact hy

theorem minI_cases (t : IntTy) (x y : Nat) : (gopCombine (.minI t) x y).1 = x ∨ (gopCombine (.minI t) x y).1 = y :=
  (ite_eq_or_eq _ _ _).symm

theorem maxI_cases (t : IntTy) (x y : Nat) : (gopCombine (.maxI t) x y).1 = x ∨ (gopCombine (.maxI t) x y).1 = y :=
  (ite_eq_or_eq _ _ _).symm

theorem minI_n32 (x y : Nat) : (gopCombine (.minI .n32) x y).1 = min x y := by
  simp only [gopCombine, intSigned, Bool.false_eq_true, if_false, decide_eq_true_iff]
  split <;> omega

theorem maxI_n32 (x y : Nat) : (gopCombine (.maxI .n32) x y).1 = max x y := by
  simp only [gopCombine, intSigned, Bool.false_eq_true, if_false, decide_eq_true_iff]
  split <;> omega

theorem minI_s32 (x y : Nat) : sextN 32 (gopCombine (.minI .s32) x y).1 = min (sextN 32 x) (sextN 32 y) := by
  simp only [gopCombine, intSigned, if_true, decide_eq_true_iff, show IntTyBits .s32 = 32 from rfl]
  split <;> omega

theorem maxI_s32 (x y : Nat) : sextN 32 (gopCombine (.maxI .s32) x y).1 = max (sextN 32 x) (sextN 32 y) := by
  simp only [gopCombine, intSigned, if_true, decide_eq_true_iff, show IntTyBits .s32 = 32 from rfl]
  split <;> omega

theorem gredWord_minN : (gredWord r mem lg (.minI .n32)).toNat
    = (posWords r mem lg 0xFFFFFFFF).foldl (fun x v => min x v.toNat) 0xFFFFFFFF := by
  have hlt := (gredWord r mem lg (.minI .n32)).isLt
  have h := foldl_posWord (φ := id) (st := min) (op := .minI .n32) min_assoc minI_n32 (by decide) (z := 0xFFFFFFFF) rfl r mem lg 0xFFFFFFFF
  rw [gredWord_toNat r mem lg (minI_cases .n32) (by decide) (z := 0xFFFFFFFF) rfl] at hlt ⊢
  exact (h.trans (min_eq_right (by simp only [id]; omega))).symm

theorem gredWord_maxN : (gredWord r mem lg (.maxI .n32)).toNat = (posWords r mem lg 0).foldl (fun x v => max x v.toNat) 0 := by
  have h := foldl_posWord (φ := id) (st := max) (op := .maxI .n32) max_assoc maxI_n32 (by decide) (z := 0) rfl r mem lg 0
  rw [gredWord_toNat r mem lg (maxI_cases .n32) (by decide) (z := 0) rfl]
  exact (h.trans (max_eq_right (Nat.zero_le _))).symm

theorem sextN_toNat (v : Word) : sextN 32 v.toNat = v.toInt := by
  rw [sextN_eq_toInt 32 _ (by decide), BitVec.ofNat_toNat, BitVec.setWidth_eq]

theorem gredWord_minS : (gredWord r mem lg (.minI .s32)).toInt
    = (posWords r mem lg 0x7FFFFFFF).foldl (fun x v => min x v.toInt) 0x7FFFFFFF := by
  have hle := BitVec.toInt_lt (x := gredWord r mem lg (.minI .s32))
  have h := foldl_posWord (φ := sextN 32) (st := min) (op := .minI .s32) min_assoc minI_s32 (by decide) (z := 0x7FFFFFFF) rfl r mem lg 0x7FFFFFFF
  rw [sextN_eq_toInt 32 _ (by decide)] at h
  simp only [sextN_toNat] at h
  exact (h.trans (min_eq_right (Int.le_of_lt_add_one hle))).symm

theorem gredWord_maxS : (gredWord r mem lg (.maxI .s32)).toInt
    = (posWords r mem lg 0x80000000).foldl (fun x v => max x v.toInt) (-0x80000000) := by
  have hle := BitVec.le_toInt (gredWord r mem lg (.maxI .s32))
  have h := foldl_posWord (φ := sextN 32) (st := max) (op := .maxI .s32) max_assoc maxI_s32 (by decide) (z := 0x80000000) rfl r mem lg (-0x80000000)
  rw [sextN_eq_toInt 32 _ (by decide)] at h
  simp only [sextN_toNat] at h
  exact (h.trans (max_eq_right hle)).symm

end

end Sys2Proof.Machine
end

