-- ==== Sys2Proof/Proofs/BlockExchange.lean ====
section
/-! Block quantisation across a group (R38, R54, R126, R127): which lane holds an element, the words of a packed block, and what `qblk` and
`dqblk` write. -/

namespace Sys2Proof.Machine

/-! ## Lanes of a block (R126) -/

/-- The first lane of the block of a lane. -/
def blockBase (w lane : Nat) : Nat := if w = 64 then lane / 32 * 32 else 0

theorem posLane_laneBlock (w lane k : Nat) : posLane w (laneBlock w lane) k = blockBase w lane + k := by
  unfold posLane laneBlock blockBase
  split <;> omega

theorem lanePos_eq (w lane : Nat) : lanePos w lane = lane - blockBase w lane := by
  unfold lanePos blockBase
  split <;> omega

theorem elemLane_laneBlock (w lane j : Nat) :
    elemLane w (laneBlock w lane) j = if w = 16 then (j / 2, j % 2) else (blockBase w lane + j, 0) := by
  rw [elemLane, posLane_laneBlock]

theorem laneBlock_eq_iff (w lane k : Nat) :
    laneBlock w k = laneBlock w lane ↔ blockBase w lane ≤ k ∧ (w = 64 → k < blockBase w lane + 32) := by
  unfold laneBlock blockBase
  split <;> omega

/-! ## Words of a packed string (R38) -/

theorem getD_wordsOfNat (n k v : Nat) : (wordsOfNat n v).getD k 0 = if k < n then BitVec.ofNat 32 (v / 2 ^ (32 * k)) else 0 := by
  induction n generalizing k v with
  | zero => rfl
  | succ n ih =>
    cases k with
    | zero => simp [wordsOfNat, wOf]
    | succ k =>
      rw [wordsOfNat, List.getD_cons_succ, ih, Nat.mul_succ, Nat.add_comm (32 * k), pow_add, ← Nat.div_div_eq_div_mul]
      simp only [Nat.add_lt_add_iff_right, show (2 : Nat) ^ 32 = 0x100000000 from rfl]

theorem natOfWords_concat (l : List Word) (w : Word) : natOfWords (l ++ [w]) = natOfWords l + w.toNat * 2 ^ (32 * l.length) := by
  induction l with
  | nil => simp [natOfWords]
  | cons x l ih =>
    rw [List.cons_append, natOfWords, natOfWords, ih, List.length_cons, Nat.mul_succ, pow_add, show (2 : Nat) ^ 32 = 0x100000000 from rfl]
    ring

theorem natOfWords_range (g : Nat → Word) (n : Nat) :
    natOfWords ((List.range n).map g) = ((List.range n).map fun j => (g j).toNat * 2 ^ (32 * j)).sum := by
  induction n with
  | zero => rfl
  | succ n ih =>
    rw [List.range_succ, List.map_append, List.map_append, List.sum_append, List.map_singleton, natOfWords_concat, ih, List.length_map,
      List.length_range]
    simp

/-- The bytes of a word with one of them replaced. -/
theorem setByte_byte (v : Word) (k j : Fin 4) (x : Nat) :
    (setByte v k.val x).toNat / 2 ^ (8 * j.val) % 256 = if j = k then x % 256 else v.toNat / 2 ^ (8 * j.val) % 256 := by
  have hv := v.isLt
  have hx : x % 256 < 256 := Nat.mod_lt _ (by decide)
  simp only [setByte, wOf, BitVec.toNat_ofNat]
  generalize x % 256 = b at hx ⊢
  generalize v.toNat = n at hv ⊢
  fin_cases k <;> fin_cases j <;> simp <;> omega

/-! ## `qblk` (R126) -/

/-- The value that a lane gives from its register `r`, 0 of one that is no member and, at W = 16, of g0d (R10). -/
def numFrom (a : Reg) (w : Nat) (o : Option Thread) (r : Reg) : Num :=
  match o with
  | none => .fin false 0 0
  | some t => if w = 16 && a.val = 0 then .fin false 0 0 else numOf .f32 (t.ctx.reg r).toNat

/-- The dither index of element `j` of a lane. -/
def phaseFrom (o : Option Thread) (j : Nat) : Nat :=
  match o with
  | none => j
  | some t => j + t.ctx.dphase.toNat

section
variable (a : Reg) (w base : Nat) (mem : List Thread) (j : Nat)

/-- The member that holds element `j` of a block. -/
def elemThread : Option Thread := atLane mem (if w = 16 then j / 2 else base + j)

/-- The register of element `j`: at W = 16 the second of the pair for an odd one. -/
def elemReg : Reg := if w = 16 ∧ j % 2 = 1 then plusReg a 1 else a

/-- The value of element `j`. -/
def elemNum : Num := numFrom a w (elemThread w base mem j) (elemReg a w j)

/-- The dither index of element `j`. -/
def elemPhase : Nat := phaseFrom (elemThread w base mem j) j

end

theorem numFrom_some (a : Reg) (w : Nat) (t : Thread) (r : Reg) :
    numFrom a w (some t) r = if w = 16 ∧ a = 0 then .fin false 0 0 else numOf .f32 (t.ctx.reg r).toNat := by
  have hzero : a.val = 0 ↔ a = 0 := (Fin.ext_iff (a := a) (b := 0)).symm
  simp only [numFrom, Bool.and_eq_true, decide_eq_true_iff, hzero]

theorem plusReg_zero (a : Reg) : plusReg a 0 = a := Fin.ext (Nat.mod_eq_of_lt a.isLt)

theorem atLane_elemLane (w lane : Nat) (mem : List Thread) (j : Nat) :
    atLane mem (elemLane w (laneBlock w lane) j).1 = elemThread w (blockBase w lane) mem j := by
  rw [elemLane_laneBlock, elemThread]
  split <;> rfl

theorem plusReg_elemLane (a : Reg) (w lane j : Nat) : plusReg a (elemLane w (laneBlock w lane) j).2 = elemReg a w j := by
  rw [elemLane_laneBlock, elemReg]
  by_cases hw : w = 16
  · rw [if_pos hw]
    rcases Nat.mod_two_eq_zero_or_one j with h | h <;> simp [hw, h, plusReg_zero]
  · simp [hw, plusReg_zero]

/-- R54, R126: the block of a lane, quantised. -/
theorem qblkBlock_eq (f : FmtU) (fmt : MxFmt) (dth : Bool) (w lane : Nat) (mem : List Thread) :
    qblkBlock f fmt dth w (laneBlock w lane) mem
      = quantBlock fmt ((List.range 32).map (elemNum f.a w (blockBase w lane) mem))
          (if dth then some ((List.range 32).map (elemPhase w (blockBase w lane) mem)) else none) := by
  have h : qblkBlock f fmt dth w (laneBlock w lane) mem
      = quantBlock fmt ((List.range 32).map fun j => numFrom f.a w (atLane mem (elemLane w (laneBlock w lane) j).1)
            (plusReg f.a (elemLane w (laneBlock w lane) j).2))
          (if dth then some ((List.range 32).map fun j => phaseFrom (atLane mem (elemLane w (laneBlock w lane) j).1) j) else none) := rfl
  simp only [atLane_elemLane, plusReg_elemLane] at h
  exact h

/-- What `qblk` writes but for the dither phase: a packed word, a byte of the scale register, and flags. -/
def qblkWritten (c : Ctx) (d e : Reg) (bsel : Fin 4) (w : Word) (scale : Nat) (fl : Word) : Ctx :=
  ((c.setReg d w).setReg e (setByte ((c.setReg d w).reg e) bsel.val scale)).orFlags fl

section
variable (f : FmtU) (fmt : MxFmt) (bsel : Fin 4) (dth : Bool) (e : Reg) (mem : List Thread) (l : Thread)

/-- The quantised block of a lane. -/
def laneQuant : Nat × List Nat × Word := qblkBlock f fmt dth l.place.width (laneBlock l.place.width l.place.lane) mem

/-- The packed word of a lane. -/
def laneWord : Word :=
  (wordsOfNat (mxWords fmt) (packN (mxElem fmt).bits (laneQuant f fmt dth mem l).2.1)).getD (lanePos l.place.width l.place.lane) 0

theorem laneWord_eq : laneWord f fmt dth mem l
    = if l.place.lane - blockBase l.place.width l.place.lane < mxWords fmt then
        BitVec.ofNat 32 (packN (mxElem fmt).bits (laneQuant f fmt dth mem l).2.1
          / 2 ^ (32 * (l.place.lane - blockBase l.place.width l.place.lane)))
      else 0 := by
  rw [laneWord, getD_wordsOfNat, lanePos_eq]

theorem qblkOut_eq : qblkOut f fmt bsel dth e mem l
    = let c := qblkWritten l.ctx f.d e bsel (laneWord f fmt dth mem l) (laneQuant f fmt dth mem l).1 (laneQuant f fmt dth mem l).2.2
      if dth then { c with dphase := c.dphase + 1 } else c := rfl

theorem qblkOut_reg (r : Reg) : (qblkOut f fmt bsel dth e mem l).reg r = ((l.ctx.setReg f.d (laneWord f fmt dth mem l)).setReg e
    (setByte ((l.ctx.setReg f.d (laneWord f fmt dth mem l)).reg e) bsel.val (laneQuant f fmt dth mem l).1)).reg r := by
  rw [qblkOut_eq]
  cases dth <;> rfl

theorem qblkOut_word (hd : f.d ≠ 0) (hed : e ≠ f.d) : (qblkOut f fmt bsel dth e mem l).reg f.d = laneWord f fmt dth mem l := by
  rw [qblkOut_reg, Ctx.reg_setReg_other _ _ _ _ hed.symm, Ctx.reg_setReg_self _ _ _ (Reg.val_ne_zero hd)]

theorem qblkOut_scale (he : e ≠ 0) (hed : e ≠ f.d) :
    (qblkOut f fmt bsel dth e mem l).reg e = setByte (l.ctx.reg e) bsel.val (laneQuant f fmt dth mem l).1 := by
  rw [qblkOut_reg, Ctx.reg_setReg_self _ _ _ (Reg.val_ne_zero he), Ctx.reg_setReg_other _ _ _ _ hed]

theorem qblkOut_fpst : (qblkOut f fmt bsel dth e mem l).fpst = l.ctx.fpst ||| (laneQuant f fmt dth mem l).2.2 := by
  rw [qblkOut_eq]
  cases dth <;> simp [qblkWritten, Ctx.orFlags]

theorem qblkOut_dphase : (qblkOut f fmt bsel dth e mem l).dphase = if dth then l.ctx.dphase + 1 else l.ctx.dphase := by
  rw [qblkOut_eq]
  cases dth <;> simp [qblkWritten]

end

/-! ## `dqblk` (R127) -/

/-- The first member of a run of lanes. -/
theorem findSome?_filter_range {α : Type} {g : Nat → Option α} {p : Nat → Bool} {N n : Nat} {x : α} (hn : n < N) (hp : p n = true)
    (hg : g n = some x) (hlow : ∀ j, j < n → p j = true → g j = none) : ((List.range N).filter p).findSome? g = some x := by
  obtain ⟨k, rfl⟩ : ∃ k, N = n + (1 + k) := ⟨N - n - 1, by omega⟩
  rw [List.range_add, List.filter_append, List.findSome?_append, List.findSome?_eq_none_iff.mpr, Option.none_or, List.range_add,
    List.map_append, List.filter_append]
  · simp [hp, hg]
  · intro j hj
    obtain ⟨hj, hpj⟩ := List.mem_filter.mp hj
    exact hlow j (List.mem_range.mp hj) hpj

section
variable (f : FmtU) (fmt : MxFmt) (bsel : Fin 4) (e : Reg) (mem : List Thread) (l : Thread)

/-- The lowest-numbered member of a lane's block (log 57). -/
def blockLead : Option Thread :=
  ((List.range 64).filter fun k => laneBlock l.place.width k == laneBlock l.place.width l.place.lane).findSome? (atLane mem)

theorem blockLead_eq {lead : Thread} {n : Nat} (hn : n < 64) (hlead : atLane mem n = some lead)
    (hlow : blockBase l.place.width l.place.lane ≤ n) (hhigh : l.place.width = 64 → n < blockBase l.place.width l.place.lane + 32)
    (hfirst : ∀ j, blockBase l.place.width l.place.lane ≤ j → j < n → atLane mem j = none) : blockLead mem l = some lead := by
  refine findSome?_filter_range hn (beq_iff_eq.mpr ((laneBlock_eq_iff _ _ _).mpr ⟨hlow, hhigh⟩)) hlead fun j hj hp => ?_
  exact hfirst j ((laneBlock_eq_iff _ _ _).mp (beq_iff_eq.mp hp)).1 hj

/-- Element `j` of the packed block `str`. -/
def blockElem (scale str j : Nat) : Nat × Word := dequant fmt scale (str / 2 ^ ((mxElem fmt).bits * j) % 2 ^ (mxElem fmt).bits)

/-- The packed block of a lane. -/
def blockString : Nat :=
  ((List.range (mxWords fmt)).map fun j => (posWord f.a mem 0 (blockBase l.place.width l.place.lane + j)).toNat * 2 ^ (32 * j)).sum

theorem natOfWords_blockString :
    natOfWords ((List.range (mxWords fmt)).map fun k =>
      posWord f.a mem 0 (posLane l.place.width (laneBlock l.place.width l.place.lane) k)) = blockString f fmt mem l := by
  simp only [posLane_laneBlock]
  exact natOfWords_range _ _

/-- What `dqblk` writes: at W = 16 two elements to a pair, else one to a register, and the flags of these alone (log 38). -/
def elemsWritten (c : Ctx) (d : Reg) (w lane p : Nat) (el : Nat → Nat × Word) : Ctx :=
  if w = 16 then
    (c.setPair d (pairD (wOf (el (2 * lane)).1) (wOf (el (2 * lane + 1)).1))).orFlags ((el (2 * lane)).2 ||| (el (2 * lane + 1)).2)
  else (c.setReg d (wOf (el p).1)).orFlags (el p).2

/-- R127: of the scale of the block's first member, and of the block. -/
theorem dqblkOut_eq {lead : Thread} (hlead : blockLead mem l = some lead) : dqblkOut f fmt bsel e mem l
    = elemsWritten l.ctx f.d l.place.width l.place.lane (l.place.lane - blockBase l.place.width l.place.lane)
        (blockElem fmt ((lead.ctx.reg e).toNat / 2 ^ (8 * bsel.val) % 256) (blockString f fmt mem l)) := by
  have h : dqblkOut f fmt bsel e mem l = elemsWritten l.ctx f.d l.place.width l.place.lane (lanePos l.place.width l.place.lane)
      (blockElem fmt (match blockLead mem l with | none => 0 | some t => (t.ctx.reg e).toNat / 2 ^ (8 * bsel.val) % 256)
        (natOfWords ((List.range (mxWords fmt)).map fun k =>
          posWord f.a mem 0 (posLane l.place.width (laneBlock l.place.width l.place.lane) k)))) := rfl
  rw [h, hlead, natOfWords_blockString, lanePos_eq]

end

section
variable (c : Ctx) {d : Reg} (lane p : Nat) (el : Nat → Nat × Word)

/-- R127: two elements at W = 16. -/
theorem elemsWritten_pair (hd : d ≠ 0) (he : d.val % 2 = 0) :
    (elemsWritten c d 16 lane p el).reg d = wOf (el (2 * lane)).1
      ∧ (elemsWritten c d 16 lane p el).reg (plusReg d 1) = wOf (el (2 * lane + 1)).1
      ∧ (elemsWritten c d 16 lane p el).fpst = c.fpst ||| ((el (2 * lane)).2 ||| (el (2 * lane + 1)).2) := by
  rw [elemsWritten, if_pos rfl, Ctx.reg_orFlags, Ctx.reg_orFlags, Ctx.reg_setPair_low c _ hd he, Ctx.reg_setPair_high c _ hd he,
    loW_pairD, hiW_pairD]
  exact ⟨rfl, rfl, congrArg (· ||| _) (Ctx.setPair_fpst c d _)⟩

/-- R127: one element at any other width. -/
theorem elemsWritten_single {w : Nat} (hw : w ≠ 16) (hd : d ≠ 0) :
    (elemsWritten c d w lane p el).reg d = wOf (el p).1
      ∧ (elemsWritten c d w lane p el).fpst = c.fpst ||| (el p).2
      ∧ ∀ r, r ≠ d → (elemsWritten c d w lane p el).reg r = c.reg r := by
  rw [elemsWritten, if_neg hw, Ctx.reg_orFlags, Ctx.reg_setReg_self _ _ _ (Reg.val_ne_zero hd)]
  exact ⟨rfl, congrArg (· ||| _) (Ctx.setReg_fpst c d _), fun r hr => Ctx.reg_setReg_other c d r _ hr⟩

end

end Sys2Proof.Machine
end

