-- ==== Sys2Proof/Proofs/BlockElements.lean ====
section
/-! An element of a block times its scale as .f32 (R127): the product is exact, infinite beyond the range, and marked where it is
subnormal. -/

namespace Sys2Proof.Machine

/-! ## The significands of a format (R39) -/

theorem magNum_fin {f : NumFmt} {s s' : Bool} {mag m : Nat} {e : Int} (h : magNum f s mag = .fin s' m e) :
    m < 2 ^ (f.fbits + 1) ∧ lowExp f ≤ e := by
  have hfr : mag % 2 ^ f.fbits < 2 ^ f.fbits := Nat.mod_lt _ (by positivity)
  have hp := pow_succ 2 f.fbits
  unfold magNum at h
  unfold lowExp
  generalize mag / 2 ^ f.fbits = ex at h
  split_ifs at h <;> simp only [Num.fin.injEq] at h
  · obtain ⟨-, rfl, rfl⟩ := h
    omega
  · obtain ⟨-, rfl, rfl⟩ := h
    omega

/-- R43: an element has at most four significant bits, the last of them 2^-9 or more. -/
theorem mxElem_fin {fmt : MxFmt} {code : Nat} (hc : code < 2 ^ (mxElem fmt).bits) {s : Bool} {m : Nat} {e : Int}
    (h : numOf (mxElem fmt) code = .fin s m e) : m < 16 ∧ -9 ≤ e := by
  obtain ⟨s', mag, hmag, rfl⟩ := exists_signPart_add (mxElem fmt) hc
  rw [numOf_signPart_add (by cases fmt <;> rfl) _ hmag] at h
  obtain ⟨hm, he⟩ := magNum_fin h
  cases fmt
  all_goals
    simp only [mxElem, NumFmt.fbits, lowExp, NumFmt.bias] at hm he
    omega

/-! ## A short significand as .f32 -/

section
variable {m : Nat} {e : Int} (hm : m < 16) (he : -149 ≤ e)
include hm he

/-- Four bits from 2^-149 up need no rounding. -/
theorem unitExp_f32_le : unitExp .f32 m e ≤ e := by
  have hlog : Nat.log2 m ≤ 3 := by interval_cases m <;> decide
  simp only [unitExp, NumFmt.bias, NumFmt.fbits]
  omega

theorem roundShift_f32 (s : Bool) : (roundShift .rne s m (unitExp .f32 m e - e)).2 = false := by
  rw [roundShift_of_le _ _ _ (unitExp_f32_le hm he)]

theorem numQ_roundedSig_f32 (s : Bool) : numQ (.fin s (roundedSig .f32 .rne s m e).1 (roundedSig .f32 .rne s m e).2) = numQ (.fin s m e) := by
  rw [numQ_roundedSig, numQ_roundShift_of_le _ _ _ (unitExp_f32_le hm he)]

theorem roundedSig_mul_zpow (s : Bool) :
    ((roundedSig .f32 .rne s m e).1 : ℚ) * (2 : ℚ) ^ (roundedSig .f32 .rne s m e).2 = m * (2 : ℚ) ^ e := by
  rw [← abs_numQ_fin s, numQ_roundedSig_f32 hm he, abs_numQ_fin]

end

/-- A code of .f32 within the range stands below 2^128. -/
theorem lt_of_codeOf_le {n : Nat} {q : Int} (h : Fits .f32 n q) (hc : codeOf .f32 n q ≤ NumFmt.maxCode .f32) :
    (n : ℚ) * (2 : ℚ) ^ q < (2 : ℚ) ^ (128 : Int) := by
  have hq : q ≤ 104 := by
    by_cases hn : n < 2 ^ NumFmt.fbits .f32
    · rw [h.low hn]
      decide
    · obtain ⟨ex, fr, -, hfr, hcode, -, rfl⟩ := codeOf_fields h (Nat.not_lt.mp hn)
      rw [hcode] at hc
      simp only [NumFmt.fbits, NumFmt.maxCode, NumFmt.bias] at *
      omega
  have hn : (n : ℚ) < (2 ^ 24 : Nat) := by exact_mod_cast h.lt
  calc (n : ℚ) * 2 ^ q < (2 ^ 24 : Nat) * 2 ^ q := by gcongr
    _ ≤ 2 ^ (128 : Int) := by
      rw [two_pow_mul_two_pow]
      exact zpow_le_zpow_right₀ one_le_two (by push_cast; omega)

/-- The subnormal codes are those of values below 2^-126. -/
theorem codeOf_lt_iff {n : Nat} {q : Int} (h : Fits .f32 n q) :
    codeOf .f32 n q < 2 ^ 23 ↔ (n : ℚ) * (2 : ℚ) ^ q < (2 : ℚ) ^ (-126 : Int) := by
  have h126 : (2 : ℚ) ^ (-126 : Int) = (2 ^ 23 : Nat) * 2 ^ (-149 : Int) := by rw [two_pow_mul_two_pow]; norm_num
  by_cases hn : n < 2 ^ 23
  · have hq : q = -149 := h.low hn
    rw [codeOf_of_lt q hn, hq, h126]
    have : (n : ℚ) < (2 ^ 23 : Nat) := by exact_mod_cast hn
    exact iff_of_true hn (by gcongr)
  · obtain ⟨ex, fr, hex, -, hcode, -, -⟩ := codeOf_fields h (Nat.not_lt.mp hn)
    have hq : -149 ≤ q := h.le
    refine iff_of_false ?_ (not_lt.mpr ?_)
    · rw [hcode]
      simp only [NumFmt.fbits]
      omega
    · have hn' : ((2 ^ 23 : Nat) : ℚ) ≤ n := by exact_mod_cast Nat.not_lt.mp hn
      rw [h126]
      exact mul_le_mul hn' (zpow_le_zpow_right₀ one_le_two hq) (by positivity) (by positivity)

/-- A value of four bits below 2^128 is within the range. -/
theorem le_maxCode_f32 {m : Nat} {e : Int} (hm : m < 16) (h : (m : ℚ) * (2 : ℚ) ^ e < (2 : ℚ) ^ (128 : Int)) :
    (m : ℚ) * (2 : ℚ) ^ e ≤ numQ (numOf .f32 (NumFmt.maxCode .f32)) := by
  have hmax : numQ (numOf .f32 (NumFmt.maxCode .f32)) = (0xFFFFFF : Nat) * (2 : ℚ) ^ (104 : Int) := by
    rw [show numOf .f32 (NumFmt.maxCode .f32) = .fin false 0xFFFFFF 104 from rfl, numQ_fin]
    exact one_mul _
  rw [hmax]
  rcases le_or_gt e 104 with he | he
  · have hm' : (m : ℚ) ≤ (0xFFFFFF : Nat) := by exact_mod_cast (show m ≤ 0xFFFFFF by omega)
    exact mul_le_mul hm' (zpow_le_zpow_right₀ one_le_two he) (by positivity) (by positivity)
  · rw [← shiftLeft_mul_zpow m he.le] at h ⊢
    rw [show (2 : ℚ) ^ (128 : Int) = (2 ^ 24 : Nat) * 2 ^ (104 : Int) by rw [two_pow_mul_two_pow]; norm_num,
      mul_lt_mul_iff_left₀ (by positivity), Nat.cast_lt] at h
    have : ((m <<< (e - 104).toNat : Nat) : ℚ) ≤ (0xFFFFFF : Nat) := by exact_mod_cast (show m <<< (e - 104).toNat ≤ 0xFFFFFF by omega)
    gcongr

/-! ## Overflow (R47) -/

theorem encB_of_gt {f : NumFmt} {s : Bool} {m : Nat} {e : Int}
    (hgt : f.maxCode < codeOf f (roundedSig f .rne s m e).1 (roundedSig f .rne s m e).2) :
    encB f .rne false s m e = (overflowCode f .rne s, fOF ||| fNX) := if_pos hgt

/-! ## The product (R127) -/

/-- The product of a scale and an element, whose value is `x`, as .f32. -/
structure Dequantised (x : ℚ) (r : Nat × Word) : Prop where
  beyond : 2 ^ 128 ≤ |x| → numOf .f32 r.1 = .inf (decide (x < 0)) ∧ r.2 = fOF ||| fNX
  normal : (2 : ℚ) ^ (-126 : Int) ≤ |x| → |x| < 2 ^ 128 → numQ (numOf .f32 r.1) = x ∧ r.2 = 0
  low : |x| < (2 : ℚ) ^ (-126 : Int) → roundsTo .rne x (-149) (numQ (numOf .f32 r.1)) ∧ r.2 = if x = 0 then 0 else fUF ||| fNX

/-- `dequant` of a finite product: the flags of a subnormal one are added. -/
def markLow (m : Nat) (r : Nat × Word) : Nat × Word := if m != 0 && r.1 % 0x80000000 < 0x00800000 then (r.1, r.2 ||| fUF ||| fNX) else r

theorem dequantised_zero (s : Bool) (e : Int) : Dequantised (numQ (.fin s 0 e)) (markLow 0 (encNum .f32 .rne false (.fin s 0 e))) := by
  have hx : numQ (.fin s 0 e) = 0 := by rw [numQ_fin]; simp
  have hr : numQ (numOf .f32 (encNum .f32 .rne false (.fin s 0 e)).1) = 0 := by
    have hcode : (encNum .f32 .rne false (.fin s 0 e)).1 = signPart .f32 s + 0 := rfl
    rw [hcode, numOf_signPart_add rfl s (by decide), show magNum .f32 s 0 = .fin s 0 (-149) from rfl, numQ_fin]
    simp
  have h126 : (0 : ℚ) < 2 ^ (-126 : Int) := by positivity
  rw [hx]
  refine ⟨fun h => ?_, fun h => ?_, fun _ => ⟨?_, ?_⟩⟩
  · norm_num at h
  · rw [abs_zero] at h
    exact absurd h (not_le.mpr h126)
  · show roundsTo .rne 0 (-149) (numQ (numOf .f32 (encNum .f32 .rne false (.fin s 0 e)).1))
    rw [hr]
    exact roundsTo_self _ ⟨0, by simp⟩
  · rw [if_pos rfl]
    rfl

theorem markLow_fst (m : Nat) (r : Nat × Word) : (markLow m r).1 = r.1 := by
  unfold markLow
  split <;> rfl

/-- The mark stands on the subnormal magnitudes. -/
theorem markLow_snd {m : Nat} (hm : m ≠ 0) (s : Bool) {c : Nat} (hc : c < NumFmt.signBit .f32) (w : Word) :
    (markLow m (signPart .f32 s + c, w)).2 = if c < 2 ^ 23 then w ||| fUF ||| fNX else w := by
  have hmod : (signPart .f32 s + c) % 0x80000000 = c := by
    have hc' : c < 0x80000000 := hc
    cases s <;> simp [signPart, NumFmt.signBit, NumFmt.bits, Nat.mod_eq_of_lt hc']
  simp [markLow, hmod, hm, apply_ite Prod.snd]

section
variable {s : Bool} {m : Nat} {e : Int} (hm0 : m ≠ 0) (hm : m < 16) (he : -149 ≤ e)
include hm0 hm he

/-- A product within the range: exact, its code subnormal where its value is. -/
theorem encNum_f32_of_lt (hx : |numQ (.fin s m e)| < (2 : ℚ) ^ (128 : Int)) :
    ∃ c, c < NumFmt.signBit .f32 ∧ encNum .f32 .rne false (.fin s m e) = (signPart .f32 s + c, 0)
      ∧ numQ (numOf .f32 (signPart .f32 s + c)) = numQ (.fin s m e) ∧ (c < 2 ^ 23 ↔ |numQ (.fin s m e)| < (2 : ℚ) ^ (-126 : Int)) := by
  rw [abs_numQ_fin] at hx ⊢
  have hfits := fits_roundedSig .f32 .rne s e hm0
  have hc := codeOf_roundedSig_le (f := .f32) rfl .rne s hm0 (le_maxCode_f32 hm hx)
  have hsign := hc.trans_lt (maxCode_lt_signBit .f32)
  have henc : encNum .f32 .rne false (.fin s m e) = encB .f32 .rne false s m e := by simp [encNum, hm0, NumFmt.tapered]
  refine ⟨_, hsign, ?_, ?_, ?_⟩
  · rw [henc, encB_of_le (md := .rne) (fun _ => nofun) false s rfl hc, roundShift_f32 hm he]
    simp
  · rw [numOf_signPart_add rfl s hsign, magNum_codeOf hfits hc, numQ_roundedSig_f32 hm he]
  · rw [codeOf_lt_iff hfits, roundedSig_mul_zpow hm he]

/-- A product beyond the range. -/
theorem encNum_f32_of_le (hx : (2 : ℚ) ^ (128 : Int) ≤ |numQ (.fin s m e)|) :
    encNum .f32 .rne false (.fin s m e) = (signPart .f32 s + 0x7F800000, fOF ||| fNX) := by
  have henc : encNum .f32 .rne false (.fin s m e) = encB .f32 .rne false s m e := by simp [encNum, hm0, NumFmt.tapered]
  have hgt : NumFmt.maxCode .f32 < codeOf .f32 (roundedSig .f32 .rne s m e).1 (roundedSig .f32 .rne s m e).2 := by
    by_contra hc
    have hlt := lt_of_codeOf_le (fits_roundedSig .f32 .rne s e hm0) (Nat.not_lt.mp hc)
    rw [roundedSig_mul_zpow hm he, ← abs_numQ_fin s] at hlt
    exact absurd hx (not_le.mpr hlt)
  rw [henc, encB_of_gt hgt]
  cases s <;> rfl

theorem dequantised_fin : Dequantised (numQ (.fin s m e)) (markLow m (encNum .f32 .rne false (.fin s m e))) := by
  have hpos : (0 : ℚ) < m * 2 ^ e := by
    have : (0 : ℚ) < m := by exact_mod_cast Nat.pos_of_ne_zero hm0
    positivity
  have hneg : decide (numQ (.fin s m e) < 0) = s := by
    rw [numQ_fin]
    cases s <;> simp [signQ, hpos, hpos.le]
  have hne : numQ (.fin s m e) ≠ 0 := fun h => hpos.ne' (by rw [← abs_numQ_fin s, h, abs_zero])
  have hlow : (2 : ℚ) ^ (-126 : Int) ≤ 2 ^ (128 : Int) := zpow_le_zpow_right₀ one_le_two (by decide)
  have h128 : (2 : ℚ) ^ 128 = 2 ^ (128 : Int) := by norm_cast
  rcases lt_or_ge |numQ (.fin s m e)| ((2 : ℚ) ^ (128 : Int)) with hlt | hge
  · obtain ⟨c, hc, henc, hval, hsub⟩ := encNum_f32_of_lt hm0 hm he hlt
    rw [henc]
    refine ⟨fun h => absurd (h128 ▸ h) (not_le.mpr hlt), fun h _ => ?_, fun h => ?_⟩
    all_goals rw [markLow_fst, markLow_snd hm0 s hc, hval]
    · exact ⟨rfl, if_neg (mt hsub.mp (not_lt.mpr h))⟩
    · rw [if_pos (hsub.mpr h), if_neg hne]
      exact ⟨roundsTo_self _ ⟨_, (sgnd_shiftLeft_mul_zpow s m he).symm⟩, rfl⟩
  · rw [encNum_f32_of_le hm0 hm he hge]
    refine ⟨fun _ => ?_, fun _ h => absurd hge (not_le.mpr (h128 ▸ h)), fun h => absurd (hlow.trans hge) (not_le.mpr h)⟩
    rw [markLow_fst, markLow_snd hm0 s (by decide), hneg]
    exact ⟨(numOf_signPart_add rfl s (by decide)).trans rfl, rfl⟩

end

/-- R127: a finite element times its scale. -/
theorem dequant_fin {fmt : MxFmt} {scale code : Nat} (hs : scale ≠ 0xFF) {s : Bool} {m : Nat} {e : Int}
    (h : numOf (mxElem fmt) code = .fin s m e) :
    dequant fmt scale code = markLow m (encNum .f32 .rne false (.fin s m (e + scale - 127))) := by
  unfold dequant
  rw [if_neg hs, h]
  rfl

theorem numQ_mul_zpow (s : Bool) (m : Nat) (e k : Int) : numQ (.fin s m e) * (2 : ℚ) ^ k = numQ (.fin s m (e + k)) := by
  rw [numQ_fin, numQ_fin, zpow_add₀ (two_ne_zero' ℚ)]
  ring

theorem dequantised_dequant {fmt : MxFmt} {scale code : Nat} (hc : code < 2 ^ (mxElem fmt).bits) (hs : scale ≠ 0xFF)
    (hfin : (numOf (mxElem fmt) code).isFin = true) :
    Dequantised (numQ (numOf (mxElem fmt) code) * (2 : ℚ) ^ ((scale : Int) - 127)) (dequant fmt scale code) := by
  obtain ⟨s, m, e, h, -⟩ := isVal_of_isFin hfin
  obtain ⟨hm, he⟩ := mxElem_fin hc h
  rw [dequant_fin hs h, h, numQ_mul_zpow, add_sub_assoc]
  by_cases hm0 : m = 0
  · subst hm0
    exact dequantised_zero s _
  · exact dequantised_fin hm0 hm (by omega)

/-- R127: a scale of 0xFF, and an element that is no number. -/
theorem dequant_nan (fmt : MxFmt) {scale code : Nat} (h : scale = 0xFF ∨ (numOf (mxElem fmt) code).isFin = false) :
    dequant fmt scale code = (0x7FC00000, 0) := by
  unfold dequant
  by_cases hs : scale = 0xFF
  · rw [if_pos hs]
  · rw [if_neg hs]
    cases hn : numOf (mxElem fmt) code with
    | fin s m e => simp [hn, hs, Num.isFin] at h
    | nan q => rfl
    | inf s => rfl

end Sys2Proof.Machine
end

