-- ==== Sys2Proof/Proofs/GroupExchange.lean ====
section
/-! The issue of a complete rendezvous (R145, R151, R152), and the statement about the values that its members exchange. -/

namespace Sys2Proof.Machine

/-! ## RENDEZVOUS_ISSUE and the divergence limit (R145, R151) -/

theorem exec_rendezvousIssue {s : State} (hv : verdict (groupOf s s.th) s.th = .complete) :
    exec (.rendezvousIssue s.th.id) s = .next (runRendezvous s s.th) := by
  show execRendezvousIssue s.th.id s = _
  unfold execRendezvousIssue
  rw [findThread_self]
  exact congrArg Host.Outcome.next (if_pos hv)

section
variable {s : State} {m : BitVec 64} {n : Nat} {i : Instr} (hst : s.th.status = .rv m n i)
include hst

theorem rvMask_of_status : rvMask s.th = some m := by rw [rvMask, hst]

theorem rvInstr_of_status : rvInstr s.th = some i := by rw [rvInstr, hst]

theorem runRendezvous_of_status : runRendezvous s s.th
    = if isMatrix i then runMatrix s i (rvMembers s s.th m).1 (rvMembers s s.th m).2 s.th
      else runExchange s i (rvMembers s s.th m).1 (rvMembers s s.th m).2 := by
  rw [runRendezvous, rvMask_of_status hst, rvInstr_of_status hst]

theorem exec_divergenceWaitLimit (hv : verdict (groupOf s s.th) s.th = .limit) :
    exec (.divergenceWaitLimit s.th.id) s = .next (trapLane s s.th.id (.trap 4 0 0)) := by
  show execDivergenceWaitLimit s.th.id s = _
  unfold execDivergenceWaitLimit
  rw [findThread_self]
  dsimp only
  rw [rvMask_of_status hst]
  exact congrArg Host.Outcome.next (if_pos hv)

end

/-- The members of a rendezvous are threads of the device. -/
theorem rvMembers_sublist (s : State) (l : Thread) (m : BitVec 64) : (rvMembers s l m).1.Sublist (threads s) :=
  List.filter_sublist.trans (List.filter_sublist.trans List.filter_sublist)

/-- R152: what the exchange makes of each thread. -/
theorem runExchange_releases {s : State} {i : Instr} {mem : List Thread} (gone : Bool) (hd : DistinctIds s) (hf : s.th.status ≠ .free)
    (hsub : mem.Sublist (threads s)) : Releases (groupOut i mem) gone mem s (runExchange s i mem gone) :=
  foldl_releaseMember_releases i mem gone mem hd hf ((hsub.map _).nodup hd)
    fun _ hl => List.mem_map_of_mem (hsub.subset hl)

/-- A thread of the device is a member, or no member has its number. -/
theorem ne_id_of_not_mem {s : State} (hd : DistinctIds s) {mem : List Thread} (hsub : mem.Sublist (threads s)) {x : Thread}
    (hx : x ∈ threads s) (hn : x ∉ mem) : ∀ l ∈ mem, l.id ≠ x.id :=
  fun _ hl he => hn (hd.eq (hsub.subset hl) hx he ▸ hl)

/-! ## The statement -/

/-- Settles O43: the members are released one by one, each with the registers that `groupOut` gives it; these are read off instruction by
instruction. -/
theorem groupExchange : Obligations.GroupExchange := by
  unfold Obligations.GroupExchange
  refine ⟨?issue, ?shuffles, ?votes, ?combinations, ?words, ?identities, ?quantised, ?dequantised, ?elements, fun _ _ _ _ => rfl⟩
  case issue =>
    intro s m n i hst mem gone
    refine ⟨fun hv hm => ?_, fun hv hm => ?_, exec_divergenceWaitLimit hst⟩
    all_goals rw [exec_rendezvousIssue hv, runRendezvous_of_status hst, hm]
    · refine ⟨rfl, fun hdist => ⟨_, rfl, ?_⟩⟩
      have hd : DistinctIds s := (distinctIds_iff s).mpr hdist
      have hsub := rvMembers_sublist s s.th m
      have h := runExchange_releases (i := i) gone hd (by rw [hst]; exact nofun) hsub
      refine ⟨h.memory, fun x hx => ?_⟩
      obtain ⟨y, hy, hid, hrel, hkept⟩ := h.threads x hx
      refine ⟨y, hy, hid, fun hmem => ?_, fun hno => ?_⟩
      · obtain ⟨hstatus, hexited, hreg, hpred, hfpst⟩ := hrel x hmem rfl
        exact ⟨hstatus, hexited, hreg, fun p => (hpred p).trans (groupOut_pred _ _ _ _), hfpst⟩
      · have hu := hkept (ne_id_of_not_mem hd hsub hx hno)
        exact ⟨ctx_of_unheld hu, status_of_unheld hu⟩
    · rfl
  case shuffles =>
    intro f md k mem l hd b w seg from' u
    have hfrom : shflLane md l.place.width l.place.lane (l.ctx.reg f.b) = from' := by cases md <;> rfl
    refine ⟨fun src hsrc => ?_, fun r hr => ?_, ?_, ?_, ?_⟩
    · have hsource := hfrom ▸ shflSource_eq hsrc
      exact ⟨shflOut_b32 md hd hsource, fun he => shflOut_b64 md hd he hsource⟩
    · exact (shflOut_writes f md .b32 mem l).regs r (by simpa using hr)
    · exact (shflOut_writes f md .b64 mem l).regs
    · exact (shflOut_writes f md .b32 mem l).fpst rfl
    · exact (shflOut_writes f md .b64 mem l).fpst rfl
  case votes =>
    intro f k mem l hd yes v
    have hyes (n : Nat) (hn : n < 64) : yesAt f.a mem n = true ↔ yes n := by
      rw [yesAt_iff]
      exact (and_iff_right hn).symm
    have hno {n : Nat} (hn : n < 64) (h : ¬yes n) : yesAt f.a mem n = false := by
      rw [← Bool.not_eq_true, hyes n hn]
      exact h
    refine ⟨voteOut_count f mem l hd, fun he n hn => ?_, fun hnone => ?_, fun n hn hlow => ?_, fun n hn hhigh => ?_⟩
    · exact (voteOut_mask f mem l hd he hn).symm ▸ hyes n hn
    · have hnil := filter_yes_nil fun n hn => hno hn (hnone n)
      exact ⟨(voteOut_first f mem l hd).trans (by rw [hnil]; rfl), (voteOut_last f mem l hd).trans (by rw [hnil]; rfl)⟩
    · refine (voteOut_first f mem l hd).trans ?_
      rw [head?_filter_range hn.1 ((hyes n hn.1).mpr hn) fun j hj => hno (hj.trans hn.1) (hlow j hj)]
      rfl
    · refine (voteOut_last f mem l hd).trans ?_
      rw [getLast?_filter_range hn.1 ((hyes n hn.1).mpr hn) fun j hj hj64 => hno hj64 (hhigh j hj)]
      rfl
  case combinations =>
    intro f op k mem l lg hd hw hlg wide val pos holds next upTo
    have hholds {r : Nat × Word} {c : Ctx} (h : HoldsPart op f.d l.ctx r c) : holds c r := ⟨h.fpst, h.word, h.pair, h.others⟩
    have hupTo (n : Nat) : scanParts op (posVal op f.a mem) n = upTo n := by cases op <;> cases n <;> rfl
    refine ⟨hholds (gredOut_holdsPart op hd mem hw (by omega)), fun hl => ⟨?_, ?_⟩⟩
    · rw [← hupTo]
      exact hholds (gscanOut_holdsPart op hd mem hl false)
    · rw [← hupTo]
      exact hholds (gscanOut_holdsPart op hd mem hl true)
  case words =>
    intro f k mem l hd hw vs r
    obtain ⟨lg, hlg, hwidth⟩ : ∃ lg ≤ 7, l.place.width = 2 ^ lg := by
      rcases hw with h | h | h
      · exact ⟨4, by decide, h⟩
      · exact ⟨5, by decide, h⟩
      · exact ⟨6, by decide, h⟩
    have hr {op : GOp} (hb : gopBits op ≠ 64) : r op = gredWord f.a mem lg op :=
      (gredOut_holdsPart op hd mem hwidth hlg).word hb
    have hvs (z : Word) : vs z = posWords f.a mem lg z := by
      rw [posWords, ← hwidth]
      rfl
    simp only [hvs]
    refine ⟨?_, ?_, ?_, ?_, ?_, ?_, ?_, ?_, ?_⟩
    all_goals rw [hr (by decide)]
    · exact gredWord_add _ _ _ rfl
    · exact gredWord_add _ _ _ rfl
    · exact gredWord_and _ _ _
    · exact gredWord_or _ _ _
    · exact gredWord_xor _ _ _
    · exact gredWord_minN _ _ _
    · exact gredWord_maxN _ _ _
    · exact gredWord_minS _ _ _
    · exact gredWord_maxS _ _ _
  case identities => exact ⟨rfl, rfl, rfl, rfl, rfl, rfl, rfl, rfl, fun _ _ => ⟨rfl, rfl, rfl⟩⟩
  case quantised =>
    intro f fmt bsel dth e k mem l hd he hed _ _ w base at32 src xs ph q u p nw
    have hxs : (List.range 32).map (elemNum f.a w base mem) = xs := by
      refine List.map_congr_left fun j _ => ?_
      show numFrom f.a w (at32 j) (src j) = _
      cases at32 j with
      | none => rfl
      | some t => exact numFrom_some f.a w t (src j)
    have hq : laneQuant f fmt dth mem l = q := by
      have h := qblkBlock_eq f fmt dth w l.place.lane mem
      exact h.trans (congrArg (fun xs => quantBlock fmt xs _) hxs)
    have hnw : mxWords fmt = nw := by cases fmt <;> rfl
    have hword := (qblkOut_word f fmt bsel dth e mem l hd hed).trans (laneWord_eq f fmt dth mem l)
    rw [hq, hnw] at hword
    refine ⟨fun hp => hword.trans (if_pos hp), fun hp => hword.trans (if_neg (Nat.not_lt.mpr hp)), fun b => ?_, ?_,
      qblkOut_dphase f fmt bsel dth e mem l, fun r hrd hre => ?_⟩
    · rw [← setByte_byte, ← hq]
      exact congrArg (fun v : Word => v.toNat / 2 ^ (8 * b.val) % 256) (qblkOut_scale f fmt bsel dth e mem l he hed)
    · rw [← hq]
      exact qblkOut_fpst f fmt bsel dth e mem l
    · exact (qblkOut_writes f fmt bsel dth e mem l).regs r (by simp [hrd, hre])
  case dequantised =>
    intro f fmt bsel e k mem l lead n hd _ _ w base hlead hlow hhigh hn hfirst scale word nw str bits el u
    have hnw : mxWords fmt = nw := by cases fmt <;> rfl
    have hword (j : Nat) : (posWord f.a mem 0 (base + j)).toNat = word j := by
      simp only [posWord, word]
      cases atLane mem (base + j) <;> rfl
    have hstr : blockString f fmt mem l = str := by
      rw [blockString, hnw]
      exact congrArg List.sum (List.map_congr_left fun j _ => congrArg (· * 2 ^ (32 * j)) (hword j))
    have hu : u = elemsWritten l.ctx f.d w l.place.lane (l.place.lane - base) el := by
      have h := dqblkOut_eq f fmt bsel e mem l (blockLead_eq mem l hn hlead hlow hhigh hfirst)
      rw [hstr] at h
      exact h
    rw [hu]
    refine ⟨fun hw he => ?_, fun hw => elemsWritten_single l.ctx _ _ el hw hd⟩
    rw [hw]
    exact elemsWritten_pair l.ctx _ _ el hd he
  case elements =>
    intro fmt scale code hc _
    refine ⟨fun h => dequant_nan fmt (.inl h), fun h => dequant_nan fmt (.inr h), fun hfin hs => ?_⟩
    obtain ⟨hbeyond, hnormal, hlow⟩ := dequantised_dequant hc hs hfin
    exact ⟨hbeyond, hnormal, hlow⟩

end Sys2Proof.Machine
end


-- ==== Sys2Proof/Proofs/Canonical.lean ====

section

/-!
Canonical form (log 2) of each memory, and the rules by which a state keeps it: one lemma per function of the model says that
it keeps the form, named after the function, so that a proof reads as the calls it follows.
-/

namespace Sys2Proof.Machine

/-! ## The form of a cluster, of HBM and of an outcome -/

/-- The bytes of the allocation are in canonical form. -/
def Slot.Canonical (v : Slot) : Prop := Mem.wf v.bytes = true

/-- Every scratchpad of the cluster is in canonical form. -/
def Cluster.Canonical (k : Cluster) : Prop := ∀ v ∈ k.slots, v.Canonical

/-- The bytes of HBM are in canonical form. -/
def MemSys.Canonical (m : MemSys) : Prop := Mem.wf m.hbm = true

/-- Whatever the outcome leaves is in canonical form. -/
def Out.Canonical (o : Out) : Prop := ∀ t, o = .next t → t.Canonical

theorem State.Canonical.mem {s : State} (h : s.Canonical) : s.mem.Canonical := h.hbm

theorem State.Canonical.next {s : State} (h : s.Canonical) : Out.Canonical (.next s) :=
  fun _ e => Host.Outcome.next.inj e ▸ h

section
variable {th : Thread} {pool : List Thread} {bundle : List Tid} {agenda : List Instr} {queue : List Move} {grace fresh : Nat}
  {clusters : List Cluster} {launches : List Launch} {cores : List (Nat × Core)} {mem : MemSys} {xl : Xlat} {fab : Fabric}
  {coll0 coll1 : CollEngine} {ctl : Control} {out : List Flit}

/-- A state with other clusters, and otherwise the memories of `s`. -/
theorem State.Canonical.withClusters {s : State} (h : s.Canonical) (hk : ∀ k ∈ clusters, k.Canonical)
    (hbm : mem.hbm = s.mem.hbm := by rfl) (member : fab.member = s.fab.member := by rfl)
    (groups : fab.groups = s.fab.groups := by rfl) :
    State.Canonical ⟨th, pool, bundle, agenda, queue, grace, clusters, launches, cores, mem, xl, fab, coll0, coll1, ctl, fresh, out⟩ :=
  ⟨hbm ▸ h.hbm, hk, member ▸ h.member, groups ▸ h.groups⟩

/-- A state with the memories of `s`. -/
theorem State.Canonical.same {s : State} (h : s.Canonical) (hbm : mem.hbm = s.mem.hbm := by rfl)
    (member : fab.member = s.fab.member := by rfl) (groups : fab.groups = s.fab.groups := by rfl) :
    State.Canonical ⟨th, pool, bundle, agenda, queue, grace, s.clusters, launches, cores, mem, xl, fab, coll0, coll1, ctl, fresh, out⟩ :=
  h.withClusters h.spads hbm member groups

/-- A state that differs from `s` in its HBM. -/
theorem State.Canonical.withMem {s : State} (h : s.Canonical) (hm : mem.Canonical) (member : fab.member = s.fab.member := by rfl)
    (groups : fab.groups = s.fab.groups := by rfl) :
    State.Canonical ⟨th, pool, bundle, agenda, queue, grace, s.clusters, launches, cores, mem, xl, fab, coll0, coll1, ctl, fresh, out⟩ :=
  ⟨hm, h.spads, member ▸ h.member, groups ▸ h.groups⟩

end

theorem State.Canonical.ite {p : Prop} [Decidable p] {s t : State} (hs : s.Canonical) (ht : t.Canonical) :
    (if p then s else t).Canonical := by
  split <;> assumption

theorem Out.Canonical.ite {p : Prop} [Decidable p] {o q : Out} (ho : o.Canonical) (hq : q.Canonical) :
    Out.Canonical (if p then o else q) := by
  split <;> assumption

theorem State.Canonical.fst {α : Type} {s : State} {x : α} (h : s.Canonical) : (s, x).1.Canonical := h

theorem State.Canonical.of_fst {α : Type} {p : State × α} (h : p.1.Canonical) {s : State} {x : α} (e : p = (s, x)) : s.Canonical := by
  rw [e] at h
  exact h

theorem State.Canonical.findCluster {s : State} {c : Cid} (h : s.Canonical) :
    ∀ k, Machine.findCluster s c = some k → k.Canonical := fun k hk v hv => h.spads k (List.mem_of_find?_eq_some hk) v hv

theorem State.Canonical.findSlot {s : State} {c : Cid} {i : Nat} (h : s.Canonical) :
    ∀ v, Machine.findSlot s c i = some v → v.Canonical := by
  intro v hv
  obtain ⟨k, hk, hi⟩ := Option.bind_eq_some_iff.mp hv
  exact h.findCluster k hk v (List.mem_of_getElem? hi)

theorem State.Canonical.setCluster {s : State} {j k : Cluster} (h : s.Canonical) (hj : j.Canonical)
    (slots : k.slots = j.slots := by rfl) : (setCluster s k).Canonical := by
  refine ⟨h.hbm, fun c hc => ?_, h.member, h.groups⟩
  obtain ⟨x, hx, rfl⟩ := List.mem_map.mp hc
  split
  · exact fun v hv => hj v (slots ▸ hv)
  · exact h.spads x hx

theorem Cluster.Canonical.withSlot {k : Cluster} {v : Slot} {i : Nat} (hk : k.Canonical) (hv : v.Canonical) :
    Cluster.Canonical { k with slots := k.slots.set i v } := fun w hw => by
  rcases List.mem_or_eq_of_mem_set hw with hw | rfl
  · exact hk w hw
  · exact hv

theorem State.Canonical.setSlot {s : State} {c : Cid} {i : Nat} {v : Slot} (h : s.Canonical) (hv : v.Canonical) :
    (setSlot s c i v).Canonical := by
  unfold Machine.setSlot
  split
  · exact h
  · next k hk => exact h.setCluster ((h.findCluster k hk).withSlot hv)

theorem State.Canonical.mapClusters {s : State} {f : Cluster → Cluster} (h : s.Canonical)
    (hf : ∀ k, k.Canonical → (f k).Canonical) : State.Canonical { s with clusters := s.clusters.map f } :=
  h.withClusters fun k hk => by
    obtain ⟨x, hx, rfl⟩ := List.mem_map.mp hk
    exact hf x (h.spads x hx)

theorem Cluster.Canonical.zipWith {α : Type} {k : Cluster} {f : α → Slot → Slot} {l : List α} (hk : k.Canonical)
    (hf : ∀ x v, v.Canonical → (f x v).Canonical) : Cluster.Canonical { k with slots := l.zipWith f k.slots } := by
  intro w hw
  obtain ⟨i, hi, rfl⟩ := List.getElem_of_mem hw
  rw [List.getElem_zipWith]
  exact hf _ _ (hk _ (List.getElem_mem _))

theorem State.Canonical.foldl {α : Type} {f : State → α → State} {l : List α} {s : State} (h : s.Canonical)
    (hf : ∀ u x, u.Canonical → (f u x).Canonical) : (l.foldl f s).Canonical := by
  induction l generalizing s with
  | nil => exact h
  | cons x l ih => exact ih (hf s x h)

theorem State.Canonical.getD {s : State} {o : Option State} (h : s.Canonical) (ho : ∀ t, o = some t → t.Canonical) :
    (o.getD s).Canonical := by
  cases o with
  | none => exact h
  | some t => exact ho t rfl

theorem Slot.Canonical.write {v : Slot} {off : Nat} {bs : List Byte} (h : v.Canonical) : (v.write off bs).Canonical := Mem.store_wf h off bs

theorem Slot.Canonical.setAbsent {v : Slot} {off n : Nat} (h : v.Canonical) : (v.setAbsent off n).Canonical := h

theorem Slot.Canonical.setPresent {v : Slot} {off n : Nat} (h : v.Canonical) : (v.setPresent off n).Canonical := h

/-! ## HBM -/

theorem MemSys.Canonical.foldl {α : Type} {f : MemSys → α → MemSys} {l : List α} {m : MemSys} (h : m.Canonical)
    (hf : ∀ n x, n.Canonical → (f n x).Canonical) : (l.foldl f m).Canonical := by
  induction l generalizing m with
  | nil => exact h
  | cons x l ih => exact ih (hf m x h)

theorem MemSys.Canonical.same {m n : MemSys} (h : m.Canonical) (e : n.hbm = m.hbm := by rfl) : n.Canonical := by
  unfold MemSys.Canonical
  rw [e]
  exact h

theorem MemSys.Canonical.llcRead {m : MemSys} {die sec gen : Nat} (h : m.Canonical) : (llcRead m die sec gen).Canonical :=
  h.same (llcRead_same m die sec gen).hbm

theorem MemSys.Canonical.llcRetire {m : MemSys} {sec gen : Nat} (h : m.Canonical) : (llcRetire m sec gen).Canonical :=
  h.same (llcRetire_same m sec gen).hbm

theorem MemSys.Canonical.evict {m : MemSys} {die pa : Nat} (h : m.Canonical) : (evict m die pa).Canonical :=
  h.same (evict_same m die pa).hbm

theorem MemSys.Canonical.llcShare {m : MemSys} {die sec : Nat} (h : m.Canonical) : (llcShare m die sec).Canonical := by
  unfold Machine.llcShare
  dsimp only
  split <;> exact h

theorem MemSys.Canonical.llcHart {m : MemSys} {hart sec : Nat} {w : Bool} (h : m.Canonical) : (llcHart m hart sec w).Canonical := by
  unfold Machine.llcHart
  split <;> exact h

theorem MemSys.Canonical.retag {m : MemSys} {gen sec : Nat} (h : m.Canonical) : (retag m gen sec).Canonical := by
  unfold Machine.retag
  split
  · exact h
  · split
    · exact h
    · exact Mem.store_wf h _ _

theorem MemSys.Canonical.physStore {m : MemSys} {die gen pa : Nat} {bs : List Byte} (h : m.Canonical) :
    (physStore m die gen pa bs).Canonical :=
  Mem.store_wf (h.same (llcWrite_same m die (sectorOf pa) gen).hbm).retag pa bs

theorem MemSys.Canonical.physStoreAll {n die gen pa : Nat} {m : MemSys} {bs : List Byte} (h : m.Canonical) :
    (physStoreAll n m die gen pa bs).Canonical := by
  induction n generalizing m pa bs with
  | zero => exact h
  | succ n ih =>
    unfold Machine.physStoreAll
    split
    · exact h
    · exact ih h.physStore

theorem MemSys.Canonical.homeStore {m : MemSys} {gen pa : Nat} {bs : List Byte} (h : m.Canonical) :
    (homeStore m gen pa bs).Canonical := h.physStoreAll

theorem MemSys.Canonical.walkRetire {m : MemSys} {x : Xlat} {gen ctx root va : Nat} (h : m.Canonical) :
    (walkRetire x m gen ctx root va).Canonical := by
  exact h.foldl fun _ _ hn => hn.llcRetire

theorem MemSys.Canonical.discardLine {m : MemSys} {l : LlcLine} (h : m.Canonical) : (discardLine m l).Canonical := by
  unfold Machine.discardLine
  dsimp only
  split
  · exact Mem.store_wf h _ _
  · exact h

theorem Slot.Canonical.refillPage {s : State} {k : Cluster} {slot page : Nat} {v : Slot} (h : v.Canonical) :
    (refillPage s k slot v page).Canonical := Mem.store_wf h _ _

theorem Slot.Canonical.refillAll {s : State} {k : Cluster} {slot : Nat} {v : Slot} (h : v.Canonical) :
    (refillAll s k slot v).Canonical := by
  unfold Machine.refillAll
  suffices ∀ (l : List Nat) (v : Slot), v.Canonical → (l.foldl (Machine.refillPage s k slot) v).Canonical from this _ v h
  intro l
  induction l with
  | nil => exact fun _ hv => hv
  | cons p l ih => exact fun _ hv => ih _ hv.refillPage

/-! ### A page copied to its new place (R232) -/

/-- A canonical memory lists every byte once, addresses rising, none of them 0. -/
theorem Mem.wf_iff {m : Mem} : Mem.wf m = true ↔ m.Pairwise (fun a b => a.1 < b.1) ∧ ∀ c ∈ m, c.2 ≠ 0 := by
  suffices ∀ lo, Mem.wfFrom lo m = true ↔ (∀ c ∈ m, lo ≤ c.1) ∧ m.Pairwise (fun a b => a.1 < b.1) ∧ ∀ c ∈ m, c.2 ≠ 0 by
    simpa [Mem.wf] using this 0
  induction m with
  | nil => simp [Mem.wfFrom]
  | cons c r ih =>
    intro lo
    simp only [Mem.wfFrom, Bool.and_eq_true, decide_eq_true_eq, ih, List.mem_cons, List.pairwise_cons, forall_eq_or_imp]
    constructor
    · rintro ⟨⟨hlo, h0⟩, hr, hp, hz⟩
      exact ⟨⟨hlo, fun x hx => by have := hr x hx; omega⟩, ⟨fun x hx => hr x hx, hp⟩, by simpa using h0, hz⟩
    · rintro ⟨⟨hlo, _⟩, ⟨hr, hp⟩, h0, hz⟩
      exact ⟨⟨hlo, by simpa using h0⟩, fun x hx => hr x hx, hp, hz⟩

theorem MemSys.Canonical.copyPage {m : MemSys} {old new len : Nat} (h : m.Canonical) : (copyPage m old new len).Canonical := by
  obtain ⟨hp, hz⟩ := Mem.wf_iff.mp h
  refine Mem.wf_iff.mpr ⟨?_, ?_⟩
  · simp only [Machine.copyPage, List.append_assoc, List.pairwise_append, List.pairwise_map, List.mem_append, List.mem_map,
      List.mem_filter, Bool.and_eq_true, decide_eq_true_eq]
    refine ⟨hp.filter _, ⟨(hp.filter _).imp_of_mem ?_, hp.filter _, ?_⟩, ?_⟩
    · simp only [List.mem_filter, Bool.and_eq_true, decide_eq_true_eq]
      intro a b ha hb hab
      omega
    · rintro _ ⟨a, ha, rfl⟩ b hb
      dsimp only
      omega
    · rintro a ha b (⟨c, hc, rfl⟩ | hb)
      · dsimp only
        omega
      · omega
  · simp only [Machine.copyPage, List.mem_append, List.mem_map, List.mem_filter]
    rintro c ((hc | ⟨a, ha, rfl⟩) | hc)
    · exact hz c hc.1
    · exact hz a ha.1
    · exact hz c hc.1

end Sys2Proof.Machine

end

-- ==== Sys2Proof/Proofs/CanonicalThread.lean ====

section

/-!
Canonical form through the steps of a thread: its window, its accesses, its groups.
-/

-- Many short proofs: elaborated one after another, they need one stack and not one each.
set_option Elab.async false

namespace Sys2Proof.Machine

/-! ## Translation and launches -/

theorem State.Canonical.walked {s : State} {first core : Nat} {x : Xctx} {va : Nat} (h : s.Canonical) :
    (walked s first core x va).Canonical := h.ite (h.withMem h.mem.walkRetire)

theorem State.Canonical.setLaunch {s : State} {l : Launch} (h : s.Canonical) :
    (setLaunch s l).Canonical := h.same

theorem State.Canonical.setCore {s : State} {n : Nat} {c : Core} (h : s.Canonical) :
    (setCore s n c).Canonical := h.same

/-! ## Watches, probes and accesses to a location -/

theorem State.Canonical.remoteProbe {s : State} {writer : Option Tid} {loc : Loc} {n : Nat} (h : s.Canonical) :
    (remoteProbe s writer loc n).Canonical := by
  unfold Machine.remoteProbe
  split
  · exact h.same
  · exact h
  · exact h

theorem State.Canonical.probe {s : State} {writer : Option Tid} {loc : Loc} {n : Nat} (h : s.Canonical) :
    (probe s writer loc n).Canonical := h.same.remoteProbe

theorem State.Canonical.holdForeign {s : State} {writer : Option Tid} {pa n : Nat} {mir : Bool} {ev : Instr} (h : s.Canonical) :
    ∀ t, holdForeign s writer pa n mir ev = some t → t.Canonical := by
  intro t e
  unfold Machine.holdForeign at e
  dsimp only at e
  split at e
  · exact Option.some.inj e ▸ h.ite h.same
  · cases e

theorem State.Canonical.endForeign {s : State} {ev : Instr} (h : s.Canonical) :
    (endForeign s ev).Canonical := h.same

theorem State.Canonical.shareLoc {s : State} {die : Nat} {loc : Loc} (h : s.Canonical) :
    (shareLoc s die loc).Canonical := by
  unfold Machine.shareLoc
  split
  · exact h.ite (h.withMem h.mem.llcShare)
  · exact h
  · exact h

theorem State.Canonical.readLoc {s : State} {die gen : Nat} {loc : Loc} {n : Nat} (h : s.Canonical) :
    (readLoc s die gen loc n).1.Canonical := by
  unfold Machine.readLoc
  split
  · exact (h.withMem h.mem.llcRead).fst
  · exact h

theorem State.Canonical.pokeLoc {s : State} {die gen : Nat} {loc : Loc} {bs : List Byte} (h : s.Canonical) :
    (pokeLoc s die gen loc bs).Canonical := by
  unfold Machine.pokeLoc
  split
  · split
    · exact h.withMem h.mem.physStore.physStore
    · exact h.withMem h.mem.physStore
  · split
    · exact h
    · next v hv => exact h.setSlot (h.findSlot v hv).write
  · exact h

theorem State.Canonical.writeLoc {s : State} {writer : Option Tid} {die gen : Nat} {loc : Loc} {bs : List Byte} (h : s.Canonical) :
    (writeLoc s writer die gen loc bs).Canonical := h.pokeLoc.probe

/-! ## Threads, traps and windows -/

theorem State.Canonical.modTh {s : State} {f : Thread → Thread} (h : s.Canonical) :
    (modTh s f).Canonical := h.same

theorem State.Canonical.modCtx {s : State} {f : Ctx → Ctx} (h : s.Canonical) :
    (modCtx s f).Canonical := h.same

theorem State.Canonical.mapThreads {s : State} {f : Thread → Thread} (h : s.Canonical) :
    (mapThreads s f).Canonical := h.same

theorem State.Canonical.focus {s : State} {i : Tid} (h : s.Canonical) : ∀ t, focus s i = some t → t.Canonical := by
  intro t e
  unfold Machine.focus at e
  split at e
  · exact Option.some.inj e ▸ h
  · split at e
    · cases e
    · exact Option.some.inj e ▸ h.same

theorem State.Canonical.onThread {s : State} {t : Tid} {f : State → State} (h : s.Canonical) (hf : ∀ (a : State), a.Canonical → (f a).Canonical) :
    (onThread s t f).Canonical := by
  unfold Machine.onThread
  split
  · exact hf _ h
  · split
    · exact h
    · next hu => exact (hf _ (h.focus _ hu)).getD (hf _ (h.focus _ hu)).focus

theorem State.Canonical.recheckHolds {s : State} {g : Thread} (h : s.Canonical) :
    (recheckHolds s g).Canonical := by
  unfold Machine.recheckHolds
  exact h.mapThreads

theorem State.Canonical.arrive {s : State} {a : DWord} {brm : Bool} (h : s.Canonical) :
    (arrive s a brm).Canonical := (h.modCtx.modTh.ite h.modCtx).recheckHolds

theorem State.Canonical.issued {s : State} (h : s.Canonical) :
    (issued s).Canonical := h.modCtx

theorem State.Canonical.yieldAtEnd {s : State} {next : DWord} (h : s.Canonical) :
    (yieldAtEnd s next).Canonical := h.modTh.ite h

theorem State.Canonical.goOn_step {len : Nat} {s : State} (h : s.Canonical) :
    (goOn.step len s).Canonical := h.yieldAtEnd.same.arrive.ite h.modCtx

theorem State.Canonical.goOn {s : State} {len : Nat} (h : s.Canonical) :
    (goOn s len).Canonical := by
  unfold Machine.goOn
  dsimp only
  split
  · exact h.modCtx.ite h.same.goOn_step
  · exact h.goOn_step

theorem State.Canonical.retire {s : State} (h : s.Canonical) :
    (retire s).Canonical := h.issued.goOn.next

theorem State.Canonical.transfer {s : State} {t : DWord} {brm : Bool} (h : s.Canonical) :
    (transfer s t brm).Canonical := h.yieldAtEnd.issued.modTh.arrive

theorem State.Canonical.madeWhole {s : State} {n : Nat} (h : s.Canonical) :
    (madeWhole s n).Canonical := h.modTh

theorem State.Canonical.storeNow {s : State} {ea : DWord} {bs : List Byte} (h : s.Canonical) :
    (storeNow s ea bs).1.Canonical := by
  unfold Machine.storeNow
  split
  · exact h
  · split
    · split
      · exact h
      · exact h.writeLoc.fst
    · exact h

theorem State.Canonical.loadNow {s : State} {ea : DWord} {n : Nat} (h : s.Canonical) :
    (loadNow s ea n).1.Canonical := by
  unfold Machine.loadNow
  split
  · exact h
  · split
    · exact h.readLoc.fst
    · exact h

theorem State.Canonical.parkWindow {s : State} {t : AccT} {ea : DWord} (h : s.Canonical) :
    (parkWindow s t ea).Canonical := h.modTh

theorem State.Canonical.storeRun {s : State} {ea : DWord} {l : List (List Byte)} (h : s.Canonical) :
    (storeRun s ea l).1.Canonical := by
  induction l generalizing s ea with
  | nil => exact h
  | cons bs l ih =>
    unfold Machine.storeRun
    split
    · next hu => exact ih (h.storeNow.of_fst hu)
    · exact h.storeNow

theorem State.Canonical.loadRun {s : State} {ea : DWord} {n : Nat} (h : s.Canonical) : (loadRun s ea n).1.Canonical := by
  induction n generalizing s ea with
  | zero => exact h
  | succ n ih =>
    unfold Machine.loadRun
    split
    · next hu => exact ih (h.loadNow.of_fst hu)
    · exact h.loadNow

theorem State.Canonical.queueFrame {s : State} {t : AccT} {ea : DWord} {kind : Nat → AccKind} (h : s.Canonical) :
    (queueFrame s t ea kind).1.Canonical := by
  unfold Machine.queueFrame
  dsimp only
  split
  · exact h
  · exact h.modTh.fst

theorem State.Canonical.frameMade {s : State} (h : s.Canonical) :
    (frameMade s).Canonical := h.madeWhole

theorem State.Canonical.awaitFrame {before after : State} (h : after.Canonical) :
    (awaitFrame before after).Canonical := h.modCtx.ite h

theorem State.Canonical.callWindow {s : State} {link : DWord} (h : s.Canonical) : (callWindow s link).1.Canonical := by
  have spilled : ∀ k, (if (frameLocs s .wr s.th.ctx.spill).any inPeer then Machine.queueFrame s .wr s.th.ctx.spill k
      else match runGate s .wr s.th.ctx.spill 10 with
        | (.park, ea) => (Machine.parkWindow s .wr ea, Gate.park)
        | (.wait, _) => (s, Gate.wait)
        | _ => Machine.storeRun s s.th.ctx.spill (framePieces s.th.ctx.oldest)).1.Canonical := by
    intro k
    split
    · exact h.queueFrame
    · split
      · exact h.parkWindow
      · exact h
      · exact h.storeRun
  unfold Machine.callWindow
  dsimp only
  split
  · exact h.same.modCtx.fst
  · split
    · exact h
    · split
      · next hu => exact ((spilled _).of_fst hu).same.modCtx.fst
      · exact spilled _

theorem State.Canonical.retWindow {s : State} {tret : Bool} (h : s.Canonical) :
    (retWindow s tret).1.Canonical := by
  unfold Machine.retWindow
  dsimp only
  split
  · exact h.modCtx.fst
  · split
    · split
      · next hu => exact (h.queueFrame.of_fst hu).modCtx.fst
      · exact h.queueFrame
    · split
      · exact h.parkWindow.fst
      · exact h
      · split
        · next hbs => exact (h.loadRun.of_fst hbs).modCtx.fst
        · next fst _ _ hg => exact (h.loadRun.of_fst hg).fst

theorem State.Canonical.settleDeque {s : State} {core : Nat} (h : s.Canonical) :
    (settleDeque s core).Canonical := h.ite h.setCore

theorem State.Canonical.setTeam {s : State} {c : Cid} {t : Nat} {v : Team} (h : s.Canonical) :
    (setTeam s c t v).Canonical := by
  unfold Machine.setTeam
  split
  · exact h
  · next k hk => exact h.setCluster (h.findCluster k hk)

theorem State.Canonical.setGroup {s : State} {c : Cid} {t g : Nat} {v : Group} (h : s.Canonical) :
    (setGroup s c t g v).Canonical := by
  unfold Machine.setGroup
  split
  · exact h
  · exact h.setTeam

theorem State.Canonical.unbindGroup {s : State} {th : Thread} (h : s.Canonical) :
    (unbindGroup s th).Canonical := by
  unfold Machine.unbindGroup
  split
  · exact h
  · split
    · exact h
    · exact h.setCore.setGroup

theorem State.Canonical.releaseWaiter {s : State} (h : s.Canonical) :
    (releaseWaiter s).Canonical := h.modTh.arrive.ite h.modTh

theorem State.Canonical.settleBarriers {s : State} {th : Thread} (h : s.Canonical) :
    (settleBarriers s th).Canonical := by
  unfold Machine.settleBarriers
  split
  · exact h
  · next k hk =>
      split
      · exact h
      · exact (h.setCluster (h.findCluster k hk)).foldl fun _ _ hu => hu.onThread fun _ hu1 => hu1.releaseWaiter

theorem State.Canonical.afterEnd {s : State} (h : s.Canonical) :
    (afterEnd s).Canonical := h.recheckHolds.settleBarriers.unbindGroup

theorem State.Canonical.exitThread {s : State} (h : s.Canonical) :
    (exitThread s).Canonical := h.modTh.afterEnd

theorem State.Canonical.killLane {s : State} {pc addr : DWord} (h : s.Canonical) :
    (killLane s pc addr).Canonical := by
  unfold Machine.killLane
  dsimp only
  split
  · exact h.modTh.afterEnd
  · exact h.modTh.setGroup.afterEnd

theorem State.Canonical.stopCluster {s : State} {c : Cid} {reason : Nat} (h : s.Canonical) :
    (stopCluster s c reason).Canonical := by
  unfold Machine.stopCluster
  split
  · exact h
  · next k hk => exact h.setCluster (h.findCluster k hk)

theorem State.Canonical.dieCluster {s : State} {c : Cid} (h : s.Canonical) :
    (dieCluster s c).Canonical := by
  unfold Machine.dieCluster
  split
  · exact h
  · next k hk => exact h.setCluster (h.findCluster k hk)

theorem State.Canonical.countUe {s : State} (h : s.Canonical) :
    (countUe s).Canonical := h.same

theorem State.Canonical.fatal {s : State} {code : Nat} {nested : Bool} (h : s.Canonical) :
    (fatal s code nested).Canonical := (h.countUe.ite h).modTh.dieCluster

theorem State.Canonical.service {s : State} {code : Nat} {addr : DWord} (h : s.Canonical) :
    (service s code addr).Canonical := h.modTh.stopCluster

theorem State.Canonical.windowFault {s : State} {e : Exc} (h : s.Canonical) :
    (windowFault s e).Canonical := by
  unfold Machine.windowFault
  split
  · exact h
  · split
    · exact h.service.ite h.modTh.fatal
    · exact h.modTh.fatal

theorem State.Canonical.enterHandler {s : State} (h : s.Canonical) :
    (enterHandler s).Canonical := by
  unfold Machine.enterHandler
  split
  · next hu => exact ((h.callWindow.of_fst hu).frameMade.ite (h.callWindow.of_fst hu)).modTh.arrive.awaitFrame
  · next he => exact (h.callWindow.of_fst he).modTh.windowFault
  · next hu => exact (h.callWindow.of_fst hu).modTh
  · next hu => exact (h.callWindow.of_fst hu).modTh

theorem State.Canonical.takeExc {s : State} {e : Exc} (h : s.Canonical) :
    (takeExc s e).Canonical := by
  unfold Machine.takeExc
  split
  · exact h.killLane
  · split
    · exact h
    · split
      · exact h.service
      · split
        · exact (h.ite h.modTh).modTh.stopCluster
        · split
          · exact h.modTh.service
          · split
            · exact h.modTh.fatal
            · split
              · exact h.modTh.fatal
              · exact h.modTh.fatal.ite h.modTh.modTh.enterHandler

theorem State.Canonical.raise {s : State} {e : Exc} (h : s.Canonical) :
    (raise s e).Canonical := h.takeExc.next.ite h.next

theorem State.Canonical.raiseCode {s : State} {code : Nat} {addr : DWord} (h : s.Canonical) :
    (raiseCode s code addr).Canonical := h.raise

theorem State.Canonical.illegal {s : State} (h : s.Canonical) :
    (illegal s).Canonical := h.raiseCode

theorem State.Canonical.guarded {s : State} {p : Pred} {k : State → Out} (h : s.Canonical) (hk : ∀ (a : State), a.Canonical → (k a).Canonical) :
    (guarded s p k).Canonical := (hk _ h).ite h.retire

theorem State.Canonical.regOp {s : State} {p : Pred} {f : Ctx → Ctx} (h : s.Canonical) :
    (regOp s p f).Canonical := h.guarded fun _ hu => hu.modCtx.retire

theorem State.Canonical.oldest {s : State} {k : State → Out} (h : s.Canonical) (hk : ∀ (a : State), a.Canonical → (k a).Canonical) :
    (oldest s k).Canonical := (hk _ h).ite h.next

/-! ## The words of a clause -/

theorem State.Canonical.fetchTrap {s : State} {a : DWord} {e : Exc} (h : s.Canonical) :
    (fetchTrap s a e).Canonical := by
  unfold Machine.fetchTrap
  split
  · split
    · exact h.takeExc.next.ite h.modCtx.takeExc.next
    · exact h.takeExc.next
  · exact h.next

theorem State.Canonical.enterClause {s : State} (h : s.Canonical) :
    (enterClause s).Canonical := by
  unfold Machine.enterClause
  dsimp only
  split
  · exact h.raiseCode
  · split
    · exact h.fetchTrap
    · split
      · exact h.raiseCode
      · split
        · exact h.fetchTrap
        · exact h.raiseCode.ite h.modCtx.next

/-! ## Owed registers -/

theorem State.Canonical.issueOp {s : State} {f : FmtC} {writes : List (Reg × Word)} {flags : Word} (h : s.Canonical) :
    (issueOp s f writes flags).Canonical := h.issued.goOn.modTh.next

theorem State.Canonical.completeOp {s : State} (h : s.Canonical) :
    (completeOp s).Canonical := by
  unfold Machine.completeOp
  split
  · exact h
  · exact h.modTh

/-! ## Requests to a peer -/

theorem State.Canonical.sendRequest {s : State} {seq dev off : Nat} {r : Nat × Nat × List Byte} (h : s.Canonical) :
    (sendRequest s seq dev off r).1.Canonical := h.same.fst

theorem State.Canonical.sendWatch {s : State} {ty dev off n : Nat} {intent : Bool} (h : s.Canonical) :
    (sendWatch s ty dev off n intent).Canonical := h.same

theorem State.Canonical.sendRelease {s : State} {seq dev off n : Nat} {intent : Bool} (h : s.Canonical) :
    (sendRelease s seq dev off n intent).1.Canonical := h.same.fst

theorem State.Canonical.releaseWatch {s : State} {a : Access} (h : s.Canonical) :
    (releaseWatch s a).Canonical := by
  unfold Machine.releaseWatch
  split
  · exact h.sendWatch
  · exact h

theorem State.Canonical.dropRequest {s : State} {a : Access} (h : s.Canonical) :
    (dropRequest s a).Canonical := by
  unfold Machine.dropRequest
  split
  · exact h
  · exact h.same

/-! ## A thread's accesses, their commit and rollback -/

theorem State.Canonical.dropHead {s : State} (h : s.Canonical) :
    (dropHead s).Canonical := by
  unfold Machine.dropHead
  split
  · exact h
  · exact h.dropRequest.modTh

theorem State.Canonical.modHead {s : State} {f : Access → Access} (h : s.Canonical) :
    (modHead s f).Canonical := h.modTh

theorem State.Canonical.closeWatch {s : State} {a : Access} (h : s.Canonical) :
    (closeWatch s a).Canonical := by
  unfold Machine.closeWatch
  split
  · exact h.sendRelease.modHead
  · exact h

theorem State.Canonical.settleFrom {n : Nat} {s : State} (h : s.Canonical) : (settleFrom n s).Canonical := by
  induction n generalizing s with
  | zero => exact h
  | succ n ih =>
    unfold Machine.settleFrom
    split
    · exact h
    · refine h.ite (h.modHead.ite (h.ite (h.closeWatch.ite (State.Canonical.ite (ih (State.Canonical.dropHead ?_)) ?_))))
      all_goals exact h.modTh.ite h.modTh.releaseWatch

theorem State.Canonical.settle {s : State} (h : s.Canonical) :
    (settle s).Canonical := h.settleFrom

theorem State.Canonical.finishHead {s : State} (h : s.Canonical) :
    (finishHead s).Canonical := by
  unfold Machine.finishHead
  split
  · exact h
  · exact (h.ite h.modTh).dropHead.settle

theorem State.Canonical.cancelFrom {s : State} {keep as : List Access} {a : Access} (h : s.Canonical) :
    (cancelFrom s keep as a).Canonical := by
  unfold Machine.cancelFrom
  exact (h.foldl fun _ _ hu => hu.releaseWatch.dropRequest).modTh

theorem State.Canonical.rollback {s : State} {conflict : Bool} (h : s.Canonical) :
    (rollback s conflict).Canonical := by
  unfold Machine.rollback
  dsimp only
  split
  · exact h.modTh
  · exact h.cancelFrom.modTh

theorem State.Canonical.takeFault {s : State} {e : Exc} (h : s.Canonical) :
    (takeFault s e).Canonical := by
  unfold Machine.takeFault
  dsimp only
  split
  · exact h
  · split
    · exact h.modTh
    · split
      · exact (h.cancelFrom.modTh.ite h.cancelFrom).modTh
      · split
        · exact (h.cancelFrom.modTh.ite h.cancelFrom).windowFault
        · exact (h.cancelFrom.modTh.ite h.cancelFrom).takeExc

theorem State.Canonical.pushAcc {s : State} {a : Access} {lvl : Nat} {gov : Option Nat} (h : s.Canonical) :
    (pushAcc s a lvl gov).Canonical := h.issued.goOn.modTh.next

theorem State.Canonical.sendPeer {s : State} {a : Access} {lvl : Nat} (h : s.Canonical) :
    (sendPeer s a lvl).1.Canonical := by
  unfold Machine.sendPeer
  split
  · exact (h.sendWatch.ite h).sendRequest.fst
  · exact h

theorem State.Canonical.issueAt {s : State} {kind : AccKind} {n : Nat} {ea : DWord} {dc : Fin 7} {look hint : Nat} {res : Except Exc Loc} (h : s.Canonical) :
    (issueAt s kind n ea dc look hint res).Canonical := by
  unfold Machine.issueAt
  dsimp only
  split
  · exact h.next
  · split
    · exact h.pushAcc.ite h.raise
    · split
      · split
        · exact h.pushAcc.ite h.raise
        · exact h.pushAcc
        · exact h.pushAcc
        · split
          · split
            · exact h.readLoc.shareLoc.modCtx.pushAcc
            · exact h.pushAcc.ite (h.next.ite h.sendPeer.pushAcc)
          · exact h.sendPeer.pushAcc
      · split
        · exact h.pushAcc
        · split
          · exact h.raise
          · exact h.pushAcc
          · exact h.pushAcc
          · exact h.pushAcc

theorem State.Canonical.issueAcc {s : State} {kind : AccKind} {t : AccT} {n : Nat} {ea : DWord} {dc : Fin 7} {look hint : Nat} (h : s.Canonical) :
    (issueAcc s kind t n ea dc look hint).Canonical := h.issueAt

theorem State.Canonical.setExt {s : State} (h : s.Canonical) :
    (setExt s).Canonical := by
  unfold Machine.setExt
  split
  · exact h
  · next k hk => exact h.setCluster (h.findCluster k hk)

theorem State.Canonical.issueIrrev {s : State} {kind : AccKind} {n : Nat} {ea : DWord} {f : FmtC} (h : s.Canonical) :
    (issueIrrev s kind n ea f).Canonical := h.oldest fun _ hu => (hu.setExt.ite hu).issueAcc

theorem State.Canonical.deliver {s : State} {seq : Nat} {f : Ctx → Ctx} (h : s.Canonical) :
    (deliver s seq f).Canonical := h.modTh

theorem State.Canonical.giveLoad {s : State} {a : Access} {n : Nat} {ext : LoadExt} {ds : List Reg} {bs : List Byte} (h : s.Canonical) :
    (giveLoad s a n ext ds bs).Canonical := by
  unfold Machine.giveLoad
  split
  · exact h.modCtx
  · exact h.deliver
  · exact h.deliver
  · exact h.deliver

theorem State.Canonical.performLoad {s : State} {a : Access} (h : s.Canonical) :
    (performLoad s a).Canonical := by
  unfold Machine.performLoad
  split
  · split
    · split
      · exact h
      · split
        · exact h
        · exact h.sendRequest.modHead
    · split
      · exact h.takeFault
      · exact h.modHead
      · exact h
      · exact (h.readLoc.withMem h.readLoc.mem).giveLoad.finishHead
  · exact h

theorem State.Canonical.performWrite {s : State} {a : Access} {rmw : Bool} {f : List Byte → List Byte × (Ctx → Ctx)} (h : s.Canonical) :
    (performWrite s a rmw f).Canonical := by
  unfold Machine.performWrite
  split
  · exact h
  · split
    · exact h
    · split
      · exact h
      · exact h.sendRequest.modHead
  · split
    · exact h.takeFault
    · exact h.modHead
    · exact h.ite h.same.modHead
    · exact h.writeLoc.deliver.finishHead

/-! ## Loads and stores -/

theorem State.Canonical.loadOp {s : State} {f : FmtC} {x : Option XM} {n : Nat} {ext : LoadExt} {ds : List Reg} (h : s.Canonical) :
    (loadOp s f x n ext ds).Canonical := h.guarded fun _ hu => hu.issueAcc

theorem State.Canonical.storeOp {s : State} {f : FmtC} {x : Option XM} {bs : Ctx → List Byte} (h : s.Canonical) :
    (storeOp s f x bs).Canonical := h.guarded fun _ hu => hu.issueAcc

theorem State.Canonical.loadHead {s : State} (h : s.Canonical) :
    (loadHead s).Canonical := by
  unfold Machine.loadHead
  split
  · exact h
  · exact h.performLoad

theorem State.Canonical.storeBytes {s : State} {a : Access} (h : s.Canonical) :
    (storeBytes s a).Canonical := by
  unfold Machine.storeBytes
  split
  · exact h.performWrite
  · exact h.performWrite
  · exact h.performWrite
  all_goals exact h

theorem State.Canonical.storeHead {s : State} (h : s.Canonical) :
    (storeHead s).Canonical := by
  unfold Machine.storeHead
  split
  · exact h
  · exact h.ite h.storeBytes

theorem State.Canonical.resumeWindow {s : State} {w : Bool × Loc × DWord} (h : s.Canonical) :
    (resumeWindow s w).Canonical := by
  unfold Machine.resumeWindow
  split
  · exact h
  · exact h.modTh

theorem State.Canonical.resumeAccess {s : State} (h : s.Canonical) :
    (resumeAccess s).Canonical := by
  unfold Machine.resumeAccess
  dsimp only
  split
  · exact h
  · split
    · exact h
    · split
      · split
        · exact h
        · split
          · split
            · exact h.modTh
            · split
              · exact h.modTh.modTh
              · exact h.modTh.readLoc.shareLoc.deliver.modTh
              · exact h.modTh
          · exact h.modTh.loadHead
      · split
        · exact h
        · exact h.modTh

theorem State.Canonical.resumeParked {s : State} (h : s.Canonical) :
    (resumeParked s).Canonical := by
  unfold Machine.resumeParked
  split
  · exact h.resumeWindow
  · exact h.resumeAccess

theorem State.Canonical.trapHead {s : State} (h : s.Canonical) :
    (trapHead s).Canonical := by
  unfold Machine.trapHead
  split
  · exact h
  · split
    · exact h
    · exact h.takeFault

/-! ## Atomics and task queues -/

theorem State.Canonical.atomOp {s : State} {f : AtomF} {op : AtomOp} {wide : Bool} {e : Reg} (h : s.Canonical) :
    (atomOp s f op wide e).Canonical := h.guarded fun _ hu => hu.issueIrrev

theorem State.Canonical.tqIssue {s : State} {op : TqOp} {st d : Reg} {look : Fin 16} {dc : Fin 7} (h : s.Canonical) :
    (tqIssue s op st d look dc).Canonical := h.oldest fun _ hu => hu.raise.ite hu.pushAcc

theorem State.Canonical.tqApply {s : State} {op : TqOp} (h : s.Canonical) :
    (tqApply s op).1.Canonical := by
  unfold Machine.tqApply
  dsimp only
  split
  · exact h
  · split
    · split
      · exact h
      · split
        · exact h
        · split
          · exact h
          · exact h.setCore.fst
    · split
      · exact h
      · split
        · exact h
        · exact h.setCore.fst
    · split
      · exact h
      · split
        · exact h
        · split
          · exact h
          · exact h.setCore.fst
    · split
      · exact h
      · split
        · exact h
        · exact h.setCore.fst

theorem State.Canonical.atomBytes {s : State} {a : Access} (h : s.Canonical) :
    (atomBytes s a).Canonical := by
  unfold Machine.atomBytes
  split
  · exact h.performWrite
  · exact h.performWrite
  · split
    · exact h.takeFault
    · exact (h.tqApply.foldl fun _ _ hu => hu.settleDeque).deliver.finishHead
  all_goals exact h

theorem State.Canonical.atomHead {s : State} (h : s.Canonical) :
    (atomHead s).Canonical := by
  unfold Machine.atomHead
  split
  · exact h
  · exact h.ite h.atomBytes

theorem State.Canonical.mirrorHead_storeBytesOr {s : State} {a : Access} (h : s.Canonical) :
    (mirrorHead.storeBytesOr s a).Canonical := by
  unfold Machine.mirrorHead.storeBytesOr
  split
  · exact h.storeBytes
  · exact h

theorem State.Canonical.mirrorHead {s : State} (h : s.Canonical) :
    (mirrorHead s).Canonical := by
  unfold Machine.mirrorHead
  split
  · exact h
  · exact h.mirrorHead_storeBytesOr.atomBytes.ite h

/-! ## Barrier objects and copy requests -/

theorem State.Canonical.barAccess {s : State} {f : FmtC} {off : Option (BitVec 16)} {k : Ctx → AccKind} (h : s.Canonical) :
    (barAccess s f off k).Canonical := h.guarded fun _ hu => hu.issueAt

theorem State.Canonical.execBarTest {f : FmtC} {x : Option BarXO} {s : State} (h : s.Canonical) :
    (execBarTest f x s).Canonical := by
  unfold Machine.execBarTest
  dsimp only
  exact h.guarded fun _ hu => by
    split
    · exact hu.issueAt
    · exact hu.madeWhole.issueOp.ite hu.issueAt

theorem State.Canonical.execBarWait {f : FmtC} {x : Option BarXO} {s : State} (h : s.Canonical) :
    (execBarWait f x s).Canonical := by
  unfold Machine.execBarWait
  dsimp only
  exact h.guarded fun _ hu => by
    split
    · exact hu.raise.ite (hu.next.ite hu.pushAcc)
    · split
      · split
        · exact hu.raise
        · exact hu.next
        · exact hu.next
        · exact hu.madeWhole.modCtx.retire.ite hu.next
      · split
        · exact hu.next
        · exact hu.shareLoc.modCtx.pushAcc.ite hu.next

theorem State.Canonical.pushCopies {s : State} {ea : DWord} {n : Nat} {ph : BitVec 6} {dth : Bool} {dc : Fin 7} (h : s.Canonical) :
    (pushCopies s ea n ph dth dc).Canonical := h.next.ite h.issued.goOn.modTh.next

theorem State.Canonical.copyOp {s : State} {p : Pred} {dth : Bool} {n : Nat} {a : Reg} {look : Fin 16} {dc : Fin 7} {off : Option (BitVec 16)} (h : s.Canonical) :
    (copyOp s p dth n a look dc off).Canonical := by
  unfold Machine.copyOp
  dsimp only
  exact h.guarded fun _ hu => by
    split
    · exact hu.raise.ite (hu.next.ite hu.pushAcc)
    · exact hu.pushCopies

/-! ## Groups and barriers -/

theorem State.Canonical.trapLane {s : State} {t : Tid} {e : Exc} (h : s.Canonical) :
    (trapLane s t e).Canonical := h.onThread fun _ hu => hu.modTh.takeExc

theorem State.Canonical.judgeGroup {s : State} {t : Thread} (h : s.Canonical) :
    (judgeGroup s t).Canonical := h.foldl fun _ _ hu => hu.trapLane

theorem State.Canonical.arriveGroup {s : State} {p : Pred} {mask : Reg} {i : Instr} (h : s.Canonical) :
    (arriveGroup s p mask i).Canonical := h.guarded fun _ hu => by
      split
      · exact (hu.modTh.ite hu.modTh.judgeGroup).next
      · exact hu.next

theorem State.Canonical.releaseMember {i : Instr} {mem : List Thread} {gone : Bool} {s : State} {l : Thread} (h : s.Canonical) :
    (releaseMember i mem gone s l).Canonical := h.onThread fun _ hu => hu.modTh.issued.goOn

theorem State.Canonical.runExchange {s : State} {i : Instr} {mem : List Thread} {gone : Bool} (h : s.Canonical) :
    (runExchange s i mem gone).Canonical := h.foldl fun _ _ hu => hu.releaseMember

theorem State.Canonical.arrived {s : State} {arrive : Bool} {w : Status} (h : s.Canonical) :
    (arrived s arrive w).Canonical := ((h.ite h.modTh).issued.goOn.ite (h.ite h.modTh).issued.goOn.modTh).settleBarriers.next

theorem State.Canonical.execTbar {p : Pred} {a : Reg} {n : Fin 16} {arrive : Bool} {s : State} (h : s.Canonical) :
    (execTbar p a n arrive s).Canonical := h.guarded fun _ hu => by
      split
      · exact hu.next
      · split
        · exact hu.next
        · exact hu.setTeam.arrived

theorem State.Canonical.execCbar {p : Pred} {a : Reg} {n : Fin 4} {arrive : Bool} {s : State} (h : s.Canonical) :
    (execCbar p a n arrive s).Canonical := h.guarded fun _ hu => by
      split
      · exact hu.next
      · split
        · exact hu.next
        · next k hk => exact (hu.setCluster (hu.findCluster k hk)).arrived

/-! ## Multicast -/

theorem State.Canonical.issueGroup {s : State} {kind : AccKind} {members : List Nat} {ea : DWord} {g ty aux : Nat} {payload : List Byte} {dc : Fin 7} {look : Nat} (h : s.Canonical) :
    (issueGroup s kind members ea g ty aux payload dc look).Canonical := h.same.pushAcc

theorem State.Canonical.execMcst {f : FmtC} {c : Reg} {t : RawTy} {off : BitVec 16} {s : State} (h : s.Canonical) :
    (execMcst f c t off s).Canonical := by
  unfold Machine.execMcst
  dsimp only
  exact h.guarded fun _ hu => hu.oldest fun _ hu1 => by
      split
      all_goals
        split
        · exact hu1.setExt.raiseCode
        · split
          · exact hu1.setExt.raiseCode
          · exact hu1.setExt.retire.ite hu1.setExt.issueGroup

theorem State.Canonical.mcldPresence {s : State} {c : Cid} {slot off n : Nat} {present : Bool} (h : s.Canonical) :
    (mcldPresence s c slot off n present).Canonical := by
  unfold Machine.mcldPresence
  split
  · exact h
  · next v hv =>
      split
      · exact h.setSlot (h.findSlot v hv).setPresent
      · exact h.setSlot (h.findSlot v hv).setAbsent

theorem State.Canonical.execMcldRed {f : FmtC} {c e : Reg} {t : FloatTy} {op : RedOp} {s : State} (h : s.Canonical) :
    (execMcldRed f c e t op s).Canonical := by
  unfold Machine.execMcldRed
  dsimp only
  exact h.guarded fun _ hu => hu.oldest fun _ hu1 => by
      split
      · exact hu1.setExt.illegal
      · split
        · exact hu1.setExt.raiseCode
        · split
          · exact hu1.setExt.raiseCode
          · split
            all_goals
              split
              · exact hu1.setExt.raiseCode
              · split
                · exact hu1.setExt.raiseCode
                · split
                  · exact hu1.setExt.raise
                  · split
                    · exact hu1.setExt.raise
                    · exact hu1.next
                    · exact hu1.next
                    · split
                      · exact hu1.setExt.retire
                      · exact hu1.setExt.mcldPresence.issueGroup
                  · exact hu1.next

theorem State.Canonical.dropGather {s : State} {serial : Nat} (h : s.Canonical) :
    (dropGather s serial).Canonical := h.same

theorem State.Canonical.mcldLand {s : State} {a : Access} {serial : Nat} {members : List Nat} {op : RedOp} {bf : Bool} {count : Nat} {dst : DWord} (h : s.Canonical) :
    (mcldLand s a serial members op bf count dst).Canonical := by
  unfold Machine.mcldLand
  split
  · exact h.writeLoc.mcldPresence.dropGather
  · exact h.same.writeLoc.mcldPresence.dropGather

theorem State.Canonical.finishGroup {s : State} (h : s.Canonical) :
    (finishGroup s).Canonical := by
  unfold Machine.finishGroup
  dsimp only
  split
  · exact h
  · split
    · exact h
    · split
      · split
        · exact h.mcldLand.finishHead
        · exact h.finishHead
      · split
        · exact h.mcldLand.takeFault
        · exact h.takeFault

theorem State.Canonical.absentGroup {s : State} {e : Exc} (h : s.Canonical) :
    (absentGroup s e).Canonical := by
  unfold Machine.absentGroup
  split
  · exact h
  · split
    · exact h.mcldPresence.dropGather.takeFault
    · exact h.takeFault

theorem State.Canonical.memberDone {s : State} {dev : Nat} {e : Option Exc} (h : s.Canonical) :
    (memberDone s dev e).Canonical := by
  unfold Machine.memberDone
  dsimp only
  split
  · exact h.modHead
  · exact h.modHead.finishGroup.ite h.modHead

theorem State.Canonical.memberLost {s : State} (h : s.Canonical) :
    (memberLost s).Canonical := by
  unfold Machine.memberLost
  split
  · exact h
  · exact h.finishGroup.ite h

theorem State.Canonical.membersLost {s : State} {e : Nat → Exc} (h : s.Canonical) :
    (membersLost s e).Canonical := by
  unfold Machine.membersLost
  split
  · exact h
  · exact h.modHead.finishGroup

theorem State.Canonical.landGroup {s : State} (h : s.Canonical) :
    (landGroup s).Canonical := by
  unfold Machine.landGroup
  split
  · exact h
  · split
    · exact h.finishGroup.ite h
    · exact h

end Sys2Proof.Machine

end

-- ==== Sys2Proof/Proofs/CanonicalEngines.lean ====

section

/-!
Canonical form through the engines of a device: copies, storage, collectives and shuffles.
-/

-- Many short proofs: elaborated one after another, they need one stack and not one each.
set_option Elab.async false

namespace Sys2Proof.Machine

/-! ## The copy engine -/

theorem State.Canonical.setOp {s : State} {core : Nat} {o : CopyOp} (h : s.Canonical) :
    (setOp s core o).Canonical := h.setCore

theorem State.Canonical.delOp {s : State} {core pos : Nat} (h : s.Canonical) :
    (delOp s core pos).Canonical := h.setCore

theorem State.Canonical.copyDone {s : State} {t : Tid} {group : Nat} {dc : Fin 7} (h : s.Canonical) :
    (copyDone s t group dc).Canonical := by
  unfold Machine.copyDone
  exact h.mapThreads

theorem State.Canonical.fwPerform {s : State} {w : FwWrite} (h : s.Canonical) :
    (fwPerform s w).Canonical := h.foldl fun _ _ hu => (hu.withMem hu.mem.homeStore).probe

theorem State.Canonical.fwSend {s : State} {w : FwWrite} (h : s.Canonical) :
    (fwSend s w).Canonical := h.fwPerform.ite h.same

theorem State.Canonical.fwStore {s : State} {gen pa : Nat} {bs : List Byte} (h : s.Canonical) :
    (fwStore s gen pa bs).Canonical := (h.foldl fun _ _ hu => hu.fwSend).ite h

theorem State.Canonical.fwStep {s : State} (h : s.Canonical) :
    (fwStep s).Canonical := by
  unfold Machine.fwStep
  split
  · exact h
  · exact h.ite h.same.fwPerform

theorem State.Canonical.fwAdd {s : State} {gen pa n : Nat} (h : s.Canonical) :
    (fwAdd s gen pa n).Canonical := h.fwSend.ite h

theorem State.Canonical.fwTouch {s : State} {die gen pa n : Nat} (h : s.Canonical) :
    (fwTouch s die gen pa n).Canonical := h.withMem (h.mem.foldl fun _ _ hn1 => hn1.llcRead)

theorem State.Canonical.writeLaunchFault {s : State} {l : Launch} (h : s.Canonical) :
    (writeLaunchFault s l).Canonical := h.setLaunch.fwStore

theorem State.Canonical.recordFail_launchFail {c : Cid} {team code slot pos : Nat} {req : DWord} {s : State} (h : s.Canonical) :
    (recordFail.launchFail c team code slot pos req s).Canonical := by
  unfold Machine.recordFail.launchFail
  split
  · exact h
  · exact h.writeLaunchFault

theorem State.Canonical.recordFail {s : State} {c : Cid} {team code slot pos : Nat} {req : DWord} (h : s.Canonical) :
    (recordFail s c team code slot pos req).Canonical := by
  unfold Machine.recordFail
  dsimp only
  split
  · split
    · exact (h.countUe.ite h).recordFail_launchFail
    · exact (h.countUe.ite h).setTeam
  · exact (h.countUe.ite h).recordFail_launchFail

theorem State.Canonical.barUpdate {s : State} {c : Cid} {slot off : Nat} {f : BarObj → BarObj} (h : s.Canonical) :
    ∀ t, barUpdate s c slot off f = some t → t.Canonical := by
  intro t e
  unfold Machine.barUpdate at e
  split at e
  · exact Option.some.inj e ▸ h
  · next hv =>
      split at e
      · cases e
      · exact Option.some.inj e ▸ (h.setSlot (h.findSlot _ hv).write).probe

theorem State.Canonical.barUpdates {s : State} {o : CopyOp} {f : BarObj → BarObj} (h : s.Canonical) :
    (barUpdates s o f).Canonical := by
  unfold Machine.barUpdates
  split
  · exact h.foldl fun _ _ hu => hu.recordFail.getD hu.barUpdate
  · exact h

theorem State.Canonical.engStore {s : State} {gen : Nat} {segs : List CopySeg} {w : Nat × List Byte} (h : s.Canonical) :
    (engStore s gen segs w).Canonical := by
  unfold Machine.engStore
  dsimp only
  exact h.foldl fun _ _ hu => by
    split
    · split
      · exact hu.withMem hu.mem.homeStore.homeStore
      · exact hu.withMem hu.mem.homeStore
    · exact hu

theorem State.Canonical.spadStore {s : State} {c : Cid} {w : Nat × Nat × List Byte} (h : s.Canonical) :
    (spadStore s c w).Canonical := by
  unfold Machine.spadStore
  split
  · exact h
  · next v hv => exact h.setSlot (h.findSlot v hv).write

theorem Slot.Canonical.stillAbsent {p : CopyPlan} {i n : Nat} {v : Slot} (h : v.Canonical) : (stillAbsent p i n v).Canonical := by
  unfold Machine.stillAbsent
  dsimp only
  split <;> exact h

theorem State.Canonical.presence {s : State} {o : CopyOp} {n : Nat} (h : s.Canonical) : (presence s o n).Canonical := by
  unfold Machine.presence
  dsimp only
  split
  · exact h
  · split
    · exact h
    · next c hc => exact h.setCluster (Cluster.Canonical.zipWith (h.findCluster _ hc) fun _ _ hv => hv.stillAbsent)

theorem State.Canonical.rangesWalked {s : State} {core : Nat} {x : Xctx} {rs : List (Nat × Nat)} (h : s.Canonical) :
    (rangesWalked s core x rs).Canonical := h.foldl fun _ _ hu => hu.walked

theorem State.Canonical.opWalked {s : State} {core : Nat} {o : CopyOp} (h : s.Canonical) :
    (opWalked s core o).Canonical := h.ite h.rangesWalked

theorem State.Canonical.failEarly {s : State} {o : CopyOp} {code : Nat} (h : s.Canonical) :
    (failEarly s o code).Canonical := ((h.ite h.opWalked).barUpdates.ite (h.ite h.opWalked)).same.recordFail.modHead.finishHead.copyDone

theorem State.Canonical.probeDest {s : State} {o : CopyOp} (h : s.Canonical) :
    (probeDest s o).Canonical := by
  unfold Machine.probeDest
  dsimp only
  split
  · exact h.foldl fun _ _ hu => hu.foldl fun _ _ hu1 => (hu1.probe.probe.ite hu1.probe).ite hu1
  · split
    · exact (h.foldl fun _ _ hu => hu.probe).probe
    · exact h.foldl fun _ _ hu => hu.probe

theorem State.Canonical.clearDest {s : State} {o : CopyOp} (h : s.Canonical) : (clearDest s o).Canonical := by
  have clear : ∀ {u : State} (slot off n : Nat), u.Canonical →
      (match Machine.findSlot u o.cid slot with
        | none => u
        | some v => Machine.setSlot u o.cid slot (v.setAbsent off n)).Canonical := by
    intro u slot off n hu
    split
    · exact hu
    · next hv => exact hu.setSlot (hu.findSlot _ hv).setAbsent
  unfold Machine.clearDest
  have all := h.foldl (l := o.plan.slots) fun _ i hu => clear i (o.plan.spad % 0x100000) o.plan.spadBytes hu
  exact h.ite ((clear _ _ _ all).ite all)

theorem State.Canonical.launchOp {s : State} {core : Nat} {o : CopyOp} {locks : List RLock} (h : s.Canonical) :
    (launchOp s core o locks).Canonical := h.opWalked.clearDest.probeDest.same.setCore.same.modHead.finishHead

theorem State.Canonical.launchHead {s : State} (h : s.Canonical) :
    (launchHead s).Canonical := by
  unfold Machine.launchHead
  split
  · exact h
  · split
    · split
      · exact h.same.modHead.ite (h.ite h.modHead)
      · exact h.ite h.failEarly
      · exact h.launchOp
    · exact h

theorem State.Canonical.readSectors {s : State} {core : Nat} {o : CopyOp} {k0 k1 : Nat} (h : s.Canonical) :
    (readSectors s core o k0 k1).Canonical := by
  unfold Machine.readSectors
  split
  · exact h.foldl fun _ _ hu => by
      split
      · exact hu
      · exact hu.withMem hu.mem.llcRead
  · exact h

theorem State.Canonical.transferStep {s : State} {core : Nat} {o : CopyOp} (h : s.Canonical) :
    (transferStep s core o).Canonical := by
  unfold Machine.transferStep
  dsimp only
  split
  · exact h.setOp
  · split
    · exact h.setOp
    · split
      · split
        · exact h.setOp
        · exact (h.readSectors.foldl fun _ _ hu => hu.engStore).presence.setOp
      · split
        · exact h.setOp
        · exact (h.readSectors.foldl fun _ _ hu => hu.spadStore).presence.setOp

theorem State.Canonical.execCopyTransferStep {core pos : Nat} {s : State} (h : s.Canonical) :
    (execCopyTransferStep core pos s).Canonical := by
  unfold Machine.execCopyTransferStep
  split
  · exact h.next
  · exact (h.transferStep.ite h).next

theorem State.Canonical.execEngineCountUpdate {core pos : Nat} {s : State} (h : s.Canonical) :
    (execEngineCountUpdate core pos s).Canonical := by
  unfold Machine.execEngineCountUpdate
  split
  · exact h.next
  · exact (h.ite h.barUpdates.setOp).next

theorem State.Canonical.removeOp {s : State} {core : Nat} {o : CopyOp} (h : s.Canonical) :
    (removeOp s core o).Canonical := h.same.delOp.copyDone

theorem State.Canonical.execCopyComplete {core pos : Nat} {s : State} (h : s.Canonical) :
    (execCopyComplete core pos s).Canonical := by
  unfold Machine.execCopyComplete
  split
  · exact h.next
  · exact (h.removeOp.ite h).next

theorem State.Canonical.landMixed {s : State} {core : Nat} {o : CopyOp} (h : s.Canonical) :
    (landMixed s core o).Canonical := by
  unfold Machine.landMixed
  dsimp only
  split
  · exact h.foldl fun _ _ hu => hu.same.engStore
  · exact h.foldl fun _ _ hu => by
      split
      · exact hu
      · exact hu.same.spadStore

theorem State.Canonical.lateFail {s : State} {core : Nat} {o : CopyOp} (h : s.Canonical) :
    (lateFail s core o).Canonical := h.landMixed.presence.barUpdates.recordFail.removeOp

theorem State.Canonical.execCopyLateFail {core pos : Nat} {code : Byte} {s : State} (h : s.Canonical) :
    (execCopyLateFail core pos code s).Canonical := by
  unfold Machine.execCopyLateFail
  split
  · exact h.next
  · exact (h.lateFail.ite h).next

/-! ## Pages, keys and errors -/

theorem State.Canonical.walkReads {s : State} {ctx root va : Nat} (h : s.Canonical) :
    (walkReads s ctx root va).Canonical := h.foldl fun _ _ hu => by
      split
      · exact hu.withMem hu.mem.llcRetire
      · exact (hu.withMem hu.mem.llcRetire).same

theorem State.Canonical.execPageWalk {core lid va : Nat} {s : State} (h : s.Canonical) :
    (execPageWalk core lid va s).Canonical := by
  unfold Machine.execPageWalk
  split
  · exact h.next
  · split
    · exact h.next
    · split
      · exact h.walkReads.next
      · exact h.walkReads.same.next

theorem State.Canonical.writeInv {s : State} {v : Word} (h : s.Canonical) :
    (writeInv s v).Canonical := h.ite h.same

theorem State.Canonical.endKcmd {s : State} {status : Nat} (h : s.Canonical) :
    (endKcmd s status).Canonical := h.same

theorem State.Canonical.execKeyInstall {id : Nat} {s : State} (h : s.Canonical) :
    (execKeyInstall id s).Canonical := by
  unfold Machine.execKeyInstall
  dsimp only
  split
  · exact h.next
  · split
    · exact h.endKcmd.next
    · exact h.endKcmd.next.ite h.same.endKcmd.next

theorem State.Canonical.execKeyDestroy {id : Nat} {s : State} (h : s.Canonical) :
    (execKeyDestroy id s).Canonical := by
  unfold Machine.execKeyDestroy
  dsimp only
  split
  · exact h.next
  · split
    · exact h.endKcmd.next
    · split
      · exact h.next
      · split
        · exact h.endKcmd.next
        · exact (h.withMem (h.mem.foldl fun _ _ hn => hn.discardLine)).next

theorem State.Canonical.countSram {s : State} (h : s.Canonical) :
    (countSram s).Canonical := h.same

theorem State.Canonical.spadError {s : State} {core a : Nat} (h : s.Canonical) :
    (spadError s core a).Canonical := by
  unfold Machine.spadError
  split
  · exact h
  · split
    · exact h
    · next v hv => exact h.ite (h.setSlot (h.findSlot v hv))

theorem State.Canonical.spoilTile {s : State} {core addr : Nat} (h : s.Canonical) :
    (spoilTile s core addr).Canonical := h.setCore

theorem State.Canonical.teamEcc {s : State} {c : Cid} {team : Nat} (h : s.Canonical) :
    (teamEcc s c team).Canonical := by
  unfold Machine.teamEcc
  dsimp only
  split
  · exact h
  · split
    · exact h
    · exact (h.onThread fun _ hu => hu.modTh.fatal).ite h

theorem State.Canonical.setEng {s : State} {die : Nat} {e : CollEngine} (h : s.Canonical) :
    (setEng s die e).Canonical := h.same.ite h.same

theorem State.Canonical.failLockOwner {s : State} {w : LockOwner} (h : s.Canonical) :
    (failLockOwner s w).Canonical := by
  unfold Machine.failLockOwner
  split
  · split
    · exact h
    · exact h.ite h.setOp
  · exact h.setEng
  · exact h
  · exact h
  · exact h

theorem State.Canonical.failWatch {s : State} {i : Nat} (h : s.Canonical) :
    (failWatch s i).Canonical := by
  unfold Machine.failWatch
  split
  · exact h
  · exact h.mapThreads

theorem State.Canonical.doubleError {s : State} {arr : EccArray} {addr : Nat} (h : s.Canonical) :
    (doubleError s arr addr).Canonical := by
  unfold Machine.doubleError
  split
  · exact h
  · exact h
  · exact h.spadError
  · exact h.setCore.ite h
  · exact h.spoilTile
  · split
    · exact h
    · exact h.teamEcc
  · split
    · exact h
    · exact h.teamEcc
  · exact h.failWatch
  · exact h
  · split
    · exact h
    · exact h.failLockOwner
  · exact h.failLockOwner
  · exact h.failLockOwner
  · exact h.same

theorem State.Canonical.execSoftError_other {addr bits : Nat} {s : State} {a : EccArray} (h : s.Canonical) :
    (execSoftError.other addr bits s a).Canonical := h.ite (h.countSram.ite h.doubleError)

theorem State.Canonical.execSoftError {arr : EccArray} {addr bits : Nat} {s : State} (h : s.Canonical) :
    (execSoftError arr addr bits s).Canonical := by
  unfold Machine.execSoftError
  split
  · exact (h.ite (h.same.ite (h.same.ite h.same))).next
  · exact (h.ite (h.countSram.ite h.same)).next
  all_goals exact h.execSoftError_other.next

theorem State.Canonical.backSlot {s : State} {k : Cluster} {slot : Nat} {v : Slot} (h : s.Canonical) :
    (backSlot s k slot v).Canonical := h.foldl fun _ _ hu => hu.fwStore.fwStore

theorem State.Canonical.execScratchpadPageRefill {c : Cid} {slot page : Nat} {s : State} (h : s.Canonical) :
    (execScratchpadPageRefill c slot page s).Canonical := by
  unfold Machine.execScratchpadPageRefill
  split
  · next v _ hv1 => exact ((h.fwTouch.fwTouch.setSlot (h.findSlot v hv1).refillPage).ite h).next
  · exact h.next

/-! ## Collectives -/

theorem State.Canonical.setColl {s : State} {die : Nat} {o : CollOp} (h : s.Canonical) :
    (setColl s die o).Canonical := h.setEng

theorem State.Canonical.takeSlot {s : State} {die n : Nat} {o : CollOp} (h : s.Canonical) :
    (takeSlot s die n o).Canonical := h.setEng

theorem State.Canonical.holdCtr {s : State} {die c lid : Nat} (h : s.Canonical) :
    (holdCtr s die c lid).Canonical := h.setEng

theorem State.Canonical.setCtr {s : State} {die c : Nat} {v : Word} (h : s.Canonical) :
    (setCtr s die c v).Canonical := h.setEng

theorem State.Canonical.freeCtrs {s : State} {lid : Nat} (h : s.Canonical) :
    (freeCtrs s lid).Canonical := h.same

theorem State.Canonical.bumpOrder {s : State} {grp : Nat} (h : s.Canonical) :
    (bumpOrder s grp).Canonical := h.same

theorem State.Canonical.armColl {s : State} {die n : Nat} {o : CollOp} (h : s.Canonical) :
    (armColl s die n o).Canonical := by
  unfold Machine.armColl
  dsimp only
  split
  · exact h.takeSlot.ite h.takeSlot.setCtr
  · exact h.takeSlot.bumpOrder

theorem State.Canonical.endArm {s : State} {f : FmtC} {h : Word} {step : Bool} (hs : s.Canonical) :
    (endArm s f h step).Canonical := (hs.modCtx.issued.goOn.modTh.ite hs.modCtx.issued.goOn).next

theorem State.Canonical.execCollArm {f : FmtC} {off : Option (BitVec 16)} {s : State} (h : s.Canonical) :
    (execCollArm f off s).Canonical := by
  unfold Machine.execCollArm
  dsimp only
  exact h.guarded fun _ hu => hu.oldest fun _ hu1 => by
      split
      · exact hu1.raise
      · exact hu1.next
      · exact hu1.next
      · split
        · split
          · exact hu1.setExt.raiseCode
          · split
            · exact hu1.setExt.endArm
            · split
              · exact hu1.setExt.endArm
              · split
                · exact hu1.next
                · exact (hu1.setExt.ite hu1.setExt.holdCtr).armColl.endArm
        · split
          · exact hu1.raiseCode
          · split
            · exact hu1.endArm
            · split
              · exact hu1.endArm
              · split
                · exact hu1.next
                · exact (hu1.ite hu1.holdCtr).armColl.endArm

theorem State.Canonical.readTouch {s : State} {die : Nat} {o : CollOp} {a n : Nat} (h : s.Canonical) :
    (readTouch s die o a n).Canonical := h.foldl fun _ _ hu => by
      split
      · exact hu
      · exact hu.withMem hu.mem.llcRead

theorem State.Canonical.collTouch {s : State} {die : Nat} {o : CollOp} (h : s.Canonical) :
    (collTouch s die o).Canonical := h.readTouch

theorem State.Canonical.collWalked {s : State} {die : Nat} {o : CollOp} (h : s.Canonical) :
    (collWalked s die o).Canonical := h.rangesWalked

theorem State.Canonical.collWrite {s : State} {o : CollOp} {a : Nat} {bs : List Byte} (h : s.Canonical) :
    (collWrite s o a bs).Canonical := h.engStore.foldl fun _ _ hu => (hu.probe.probe.ite hu.probe).ite hu

theorem State.Canonical.enterColl {s : State} {die : Nat} {o : CollOp} {segs : List CopySeg} {locks : List RLock} (h : s.Canonical) :
    (enterColl s die o segs locks).Canonical := h.collWalked.same.setColl.foldl fun _ _ hu => hu.probe.ite hu

theorem State.Canonical.waitAtTables {s : State} {die : Nat} {o : CollOp} {locks : List RLock} (h : s.Canonical) :
    (waitAtTables s die o locks).Canonical := h.same.setColl.ite h

theorem State.Canonical.launchColl {s : State} {die : Nat} {o : CollOp} (h : s.Canonical) :
    (launchColl s die o).Canonical := by
  unfold Machine.launchColl
  split
  · exact h.ite h.setColl
  · exact h.setColl
  · exact h.setColl.ite (h.waitAtTables.ite h.enterColl)

theorem State.Canonical.execCollectiveFire {die slot : Nat} {s : State} (h : s.Canonical) :
    (execCollectiveFire die slot s).Canonical := by
  unfold Machine.execCollectiveFire
  dsimp only
  split
  · exact h.next
  · split
    · exact h.next
    · split
      · exact h.launchColl.next
      · exact (h.launchColl.same.collTouch.ite h.launchColl).next

theorem State.Canonical.execCollectiveData {die slot member : Nat} {data : List Byte} {s : State} (h : s.Canonical) :
    (execCollectiveData die slot member data s).Canonical := by
  unfold Machine.execCollectiveData
  split
  · exact h.next
  · exact (h.setColl.ite h).next

theorem State.Canonical.writeStatus {s : State} {die : Nat} {o : CollOp} {err : Nat} (h : s.Canonical) :
    (writeStatus s die o err).Canonical := by
  unfold Machine.writeStatus
  split
  · exact h.ite h.collWrite
  · exact h
  · exact h

theorem State.Canonical.doubtTarget {s : State} {die : Nat} {o : CollOp} (h : s.Canonical) :
    (doubtTarget s die o).Canonical := h.same.collWrite

theorem State.Canonical.endLocks {s : State} {die : Nat} {o : CollOp} (h : s.Canonical) :
    (endLocks s die o).Canonical := h.same

theorem State.Canonical.heardFrom {s : State} {w : LockOwner} {j : Nat} (h : s.Canonical) :
    (heardFrom s w j).Canonical := by
  unfold Machine.heardFrom
  dsimp only
  split
  · split
    · exact h
    · exact h.setColl.ite h
  · split
    · exact h.setEng
    · exact h.setEng.setEng.withMem h.setEng.mem
  · exact h
  · exact h
  · exact h

theorem State.Canonical.dropLocks {s : State} {w : LockOwner} (h : s.Canonical) :
    (dropLocks s w).Canonical := h.same

theorem State.Canonical.collWaitOp {f : FmtC} {shf : Bool} {s : State} (h : s.Canonical) :
    (collWaitOp f shf s).Canonical := h.guarded fun _ hu => hu.oldest fun _ hu1 => by
        split
        · exact hu1.next
        · exact hu1.issueOp

/-! ## Shuffles -/

theorem State.Canonical.evictSide {s : State} {die : Nat} {u : UnitTag} {count : Bool} (h : s.Canonical) :
    (evictSide s die u count).Canonical := h.setEng.dropLocks.same.ite h

theorem State.Canonical.enterSide {s : State} {die : Nat} {o : CollOp} {u : UnitTag} {segs : List CopySeg} (h : s.Canonical) :
    (enterSide s die o u segs).Canonical := by
  unfold Machine.enterSide
  dsimp only
  split
  · split
    · exact h.evictSide.setEng.same
    · exact h.evictSide.evictSide.setEng.same
  · exact h.evictSide.setEng.same

theorem State.Canonical.judgeSides {n die slot : Nat} {s : State} (h : s.Canonical) : (judgeSides n s die slot).Canonical := by
  induction n generalizing s with
  | zero => exact h
  | succ n ih =>
    unfold Machine.judgeSides
    split
    · exact h
    · split
      · exact h
      · split
        · exact h.ite h.setColl
        · exact ih h.setColl
        · exact ih h.setColl.enterSide

theorem State.Canonical.runSides {s : State} {die slot : Nat} (h : s.Canonical) :
    (runSides s die slot).Canonical := by
  unfold Machine.runSides
  split
  · exact h
  · exact h.judgeSides

theorem State.Canonical.execShfSide {f : FmtC} {c : Reg} {off : BitVec 16} {s : State} (h : s.Canonical) :
    (execShfSide f c off s).Canonical := by
  unfold Machine.execShfSide
  dsimp only
  exact h.guarded fun _ hu => hu.oldest fun _ hu1 => by
      split
      · exact hu1.retire
      · split
        · exact hu1.retire
        · split
          · exact hu1.setColl.retire
          · split
            · exact hu1.setColl.evictSide.retire
            · exact hu1.setColl.runSides.retire

theorem State.Canonical.execShfPost {f : FmtC} {off : Option (BitVec 16)} {s : State} (h : s.Canonical) :
    (execShfPost f off s).Canonical := by
  unfold Machine.execShfPost
  dsimp only
  exact h.guarded fun _ hu => hu.oldest fun _ hu1 => by
      split
      · exact hu1.setExt.raise
      · exact hu1.next
      · exact hu1.next
      · split
        · exact hu1.setExt.raiseCode
        · split
          · exact hu1.setExt.endArm
          · split
            · exact hu1.setExt.endArm
            · exact hu1.next
            · split
              · exact hu1.next
              · split
                · exact hu1.setExt.takeSlot.runSides.endArm
                · exact hu1.setExt.takeSlot.launchColl.runSides.endArm

theorem State.Canonical.startShuffle {s : State} {die : Nat} {o : CollOp} (h : s.Canonical) :
    (startShuffle s die o).Canonical := h.collWrite.collTouch.same.setColl

theorem State.Canonical.postedOn {s : State} {die slot : Nat} (h : s.Canonical) :
    (postedOn s die slot).Canonical := by
  unfold Machine.postedOn
  dsimp only
  split
  · exact h.runSides
  · exact h.runSides.launchColl.ite h.runSides

theorem State.Canonical.startPart {s : State} {die slot : Nat} (h : s.Canonical) :
    (startPart s die slot).Canonical := by
  unfold Machine.startPart
  split
  · exact h
  · exact (h.setColl.ite h.startShuffle).ite h

theorem State.Canonical.execShuffleStart {die slot : Nat} {s : State} (h : s.Canonical) :
    (execShuffleStart die slot s).Canonical := by
  unfold Machine.execShuffleStart
  split
  · exact h.next
  · exact h.next.ite h.postedOn.startPart.next

theorem State.Canonical.postMove {s : State} {die slot : Nat} (h : s.Canonical) :
    (postMove s die slot).Canonical := by
  unfold Machine.postMove
  split
  · exact h
  · exact h.ite (h.postedOn.startPart.ite h.postedOn)

theorem State.Canonical.countDrop {s : State} (h : s.Canonical) :
    (countDrop s).Canonical := h.same

theorem State.Canonical.landUnit {s : State} {o : CollOp} {u : UnitTag} {bs : List Byte} (h : s.Canonical) :
    (landUnit s o u bs).Canonical := h.collWrite

theorem State.Canonical.execShuffleUnitUncoded {u : UnitTag} {_fallback : Bool} {data : List Byte} {s : State} (h : s.Canonical) :
    (execShuffleUnitUncoded u _fallback data s).Canonical := by
  unfold Machine.execShuffleUnitUncoded
  split
  · exact h.countDrop.next
  · exact h.landUnit.setColl.next.ite h.countDrop.next

theorem State.Canonical.heldTouch {s : State} {die : Nat} {o : CollOp} {v : UnitTag} (h : s.Canonical) :
    (heldTouch s die o v).Canonical := by
  unfold Machine.heldTouch
  split
  · exact h
  · exact h.readTouch

theorem State.Canonical.freeResv {s : State} {die : Nat} {u v : UnitTag} (h : s.Canonical) :
    (freeResv s die u v).Canonical := h.setEng

theorem State.Canonical.codedFor {s : State} {die : Nat} {o : CollOp} {u v : UnitTag} {cu cv : Word} {data : List Byte} (h : s.Canonical) :
    (codedFor s die o u v cu cv data).Canonical := by
  unfold Machine.codedFor
  split
  · split
    · exact h.heldTouch.freeResv.landUnit.setColl
    · exact h.heldTouch.freeResv.setColl.same
  · exact h.countDrop

theorem State.Canonical.execShuffleUnitCoded {u v : UnitTag} {cu cv : Word} {data : List Byte} {s : State} (h : s.Canonical) :
    (execShuffleUnitCoded u v cu cv data s).Canonical := by
  unfold Machine.execShuffleUnitCoded
  split
  · exact h.countDrop.next
  · exact (h.codedFor.ite h.codedFor).next

theorem State.Canonical.sentAgain {s : State} {die : Nat} {o : CollOp} (h : s.Canonical) :
    (sentAgain s die o).Canonical := h.setEng

theorem State.Canonical.execFallbackRequest {u : UnitTag} {s : State} (h : s.Canonical) :
    (execFallbackRequest u s).Canonical := by
  unfold Machine.execFallbackRequest
  split
  · exact h.countDrop.next
  · split
    · exact h.readTouch.sentAgain.same.next
    · exact h.countDrop.next

theorem State.Canonical.setPair {s : State} {p : Pairing} (h : s.Canonical) :
    (setPair s p).Canonical := h.same

theorem State.Canonical.answerResv {s : State} {u : UnitTag} {ok : Bool} (h : s.Canonical) :
    (answerResv s u ok).Canonical := h.same

theorem State.Canonical.execDecodeReserve {u v : UnitTag} {s : State} (h : s.Canonical) :
    (execDecodeReserve u v s).Canonical := by
  unfold Machine.execDecodeReserve
  dsimp only
  split
  · exact h.answerResv.next
  · split
    · split
      · exact h.setEng.setPair.answerResv.next
      · exact h.answerResv.next
    · split
      · exact h.setEng.setPair.answerResv.next
      · exact h.answerResv.next

theorem State.Canonical.execReserveGrant {u v : UnitTag} {atU granted : Bool} {s : State} (h : s.Canonical) :
    (execReserveGrant u v atU granted s).Canonical := by
  unfold Machine.execReserveGrant
  dsimp only
  split
  · exact h.next
  · split
    · exact h.same.next
    · split
      · exact h.same.next
      · exact h.same.freeResv.freeResv.next
    · exact h.setPair.next

theorem State.Canonical.freePart {s : State} {die sid : Nat} (h : s.Canonical) :
    (freePart s die sid).Canonical := h.setEng.same

end Sys2Proof.Machine

end

-- ==== Sys2Proof/Proofs/CanonicalDevice.lean ====

section

/-!
Canonical form through launches, control space, the fabric and migrations.
-/

-- Many short proofs: elaborated one after another, they need one stack and not one each.
set_option Elab.async false

namespace Sys2Proof.Machine

/-! ## Launch records -/

theorem State.Canonical.launchTouch {s : State} {die : Nat} {l : Launch} {va n : Nat} (h : s.Canonical) :
    (launchTouch s die l va n).Canonical := by
  unfold Machine.launchTouch
  split
  · exact h.walked.fwTouch
  · exact h

theorem State.Canonical.chunkFail {s : State} {lid code : Nat} {req : DWord} (h : s.Canonical) :
    (chunkFail s lid code req).Canonical := by
  unfold Machine.chunkFail
  split
  · exact h
  · exact h.same.writeLaunchFault

theorem State.Canonical.armChunk {die : Nat} {l : Launch} {s : State} {c : Nat} (h : s.Canonical) :
    (armChunk die l s c).Canonical := by
  unfold Machine.armChunk
  split
  · exact h.armColl.ite h.chunkFail
  · exact h

theorem State.Canonical.startBind {s : State} {die : Nat} {l : Launch} (h : s.Canonical) :
    (startBind s die l).Canonical := (h.foldl fun _ _ hu => hu.holdCtr.setCtr).foldl fun _ _ hu => hu.armChunk

theorem State.Canonical.addZero {s : State} {pa n : Nat} (h : s.Canonical) :
    (addZero s pa n).Canonical := h.fwAdd

theorem State.Canonical.settleCons {n q : Nat} {s : State} (h : s.Canonical) : (settleCons n s q).Canonical := by
  induction n generalizing s with
  | zero => exact h
  | succ n ih =>
    unfold Machine.settleCons
    split
    · exact h
    · exact (ih h.setLaunch.addZero).ite h

theorem State.Canonical.passQueue {s : State} {q : Nat} (h : s.Canonical) :
    (passQueue s q).Canonical := h.settleCons

theorem State.Canonical.writeCompletion {s : State} {l : Launch} {status : Nat} (h : s.Canonical) :
    (writeCompletion s l status).Canonical := h.fwStore.fwStore

theorem State.Canonical.refuseLaunch {s : State} {l : Launch} (h : s.Canonical) :
    (refuseLaunch s l).Canonical := h.same.writeCompletion.passQueue

theorem State.Canonical.openLaunch {s : State} {die : Nat} {l : Launch} (h : s.Canonical) :
    (openLaunch s die l).Canonical := (h.foldl fun _ _ hu => hu.launchTouch).same.startBind

theorem State.Canonical.takeTouch {s : State} {die hdr pa : Nat} (h : s.Canonical) :
    (takeTouch s die hdr pa).Canonical := h.fwTouch.fwTouch

theorem State.Canonical.execLaunchRecordTake {die queue : Nat} {s : State} (h : s.Canonical) :
    (execLaunchRecordTake die queue s).Canonical := by
  unfold Machine.execLaunchRecordTake
  dsimp only
  split
  · exact h.next
  · split
    · exact h.next
    · split
      · exact h.next
      · split
        · exact h.takeTouch.next
        · split
          · exact h.takeTouch.refuseLaunch.next
          · exact h.takeTouch.next.ite h.takeTouch.openLaunch.next

theorem State.Canonical.cancelChunk {s : State} {x : Nat × CollOp} (h : s.Canonical) :
    (cancelChunk s x).Canonical := by
  unfold Machine.cancelChunk
  split
  · exact h.setColl
  · exact h.setColl.ite h.writeStatus.setColl.chunkFail
  · exact h.writeStatus.setColl.chunkFail

theorem State.Canonical.dropDeques {s : State} {lid : Nat} (h : s.Canonical) :
    (dropDeques s lid).1.Canonical := (h.foldl fun _ _ hu => hu.setCore).fst

theorem State.Canonical.completeLaunch {s : State} {l : Launch} (h : s.Canonical) :
    (completeLaunch s l).Canonical := h.dropDeques.setLaunch.freeCtrs.writeCompletion.passQueue.foldl fun _ _ hu => hu.settleDeque

theorem State.Canonical.settleTicket {s : State} {l : Launch} (h : s.Canonical) :
    (settleTicket s l).Canonical := h.ite h.fwStore.addZero

theorem State.Canonical.tryComplete {s : State} {lid : Nat} (h : s.Canonical) : (tryComplete s lid).Canonical := by
  unfold Machine.tryComplete
  split
  · exact h
  · next l _ =>
      have settled : (if l.complete = true then s else Machine.settleTicket s l).Canonical := h.ite h.settleTicket
      have cancelled : ∀ {cs : List (Nat × CollOp)}, (cs.foldl Machine.cancelChunk (if l.complete = true then s else Machine.settleTicket s l)).Canonical :=
        settled.foldl fun _ _ hu => hu.cancelChunk
      refine settled.ite (State.Canonical.ite ?_ cancelled)
      split
      · exact cancelled
      · exact cancelled.completeLaunch

theorem State.Canonical.writeTeamRecord {s : State} {l : Launch} {c team : Nat} {tm : Team} {status : Nat} {b : Blame} (h : s.Canonical) :
    (writeTeamRecord s l c team tm status b).Canonical := h.fwStore

theorem State.Canonical.closeLaunch {s : State} {lid : Nat} {ended : Bool} (h : s.Canonical) : (closeLaunch s lid ended).Canonical := by
  unfold Machine.closeLaunch
  split
  · exact h
  · exact (h.setLaunch.settleTicket.mapClusters fun _ hk => by split <;> exact hk).tryComplete

theorem State.Canonical.writeLaunchEnd {s : State} {v : Word} (h : s.Canonical) :
    (writeLaunchEnd s v).Canonical := by
  unfold Machine.writeLaunchEnd
  dsimp only
  split
  · exact h
  · split
    · exact h.same.foldl fun _ _ hu => hu.closeLaunch
    · exact h.same

theorem State.Canonical.endPart {s : State} {die : Nat} {o : CollOp} {err : Nat} (h : s.Canonical) : (endPart s die o err).Canonical := by
  unfold Machine.endPart
  extract_lets s0 s1 s2 s3 s4 s5 s6
  have h0 : s0.Canonical := h.countUe.ite h
  have h1 : s1.Canonical := (h0.ite (h0.doubtTarget.ite (h0.ite h0.collWrite))).ite h0
  have h2 : s2.Canonical := h1.writeStatus.endLocks
  have h3 : s3.Canonical := State.Canonical.ite (State.Canonical.foldl h2.freePart fun _ _ hu => hu.evictSide) h2
  have h5 : s5.Canonical := by
    unfold s5
    split
    · exact h3.setColl
    · exact h3.setColl.mapThreads
  exact State.Canonical.tryComplete (h5.chunkFail.ite h5)

/-! ## Control space -/

theorem State.Canonical.setHart {s : State} {h : Nat} {x : Hart} (hs : s.Canonical) :
    (setHart s h x).Canonical := hs.same

theorem State.Canonical.writeTlog {s : State} {v : Word} (h : s.Canonical) :
    (writeTlog s v).Canonical := h.same.ite h

theorem State.Canonical.writePrism {s : State} {v : Word} (h : s.Canonical) :
    (writePrism s v).Canonical := h.same.ite h

theorem State.Canonical.writePcap {s : State} {v : Word} (h : s.Canonical) :
    (writePcap s v).Canonical := h.same

theorem State.Canonical.writeKcmd {s : State} {v : Word} (h : s.Canonical) :
    (writeKcmd s v).Canonical := h.ite (h.same.endKcmd.ite h.same)

theorem State.Canonical.fabricWrite {s : State} {o : Nat} {v : Word} (h : s.Canonical) : (fabricWrite s o v).Canonical := by
  unfold Machine.fabricWrite
  refine h.writeTlog.ite (h.writePrism.ite (h.same.ite (h.same.ite (h.ite ?_))))
  exact State.Canonical.ite ⟨h.hbm, h.spads, Mem.store_wf h.member _ _, h.groups⟩ ⟨h.hbm, h.spads, h.member, Mem.store_wf h.groups _ _⟩

theorem State.Canonical.telemetryWrite {s : State} {o : Nat} {v : Word} (h : s.Canonical) :
    (telemetryWrite s o v).Canonical := by
  unfold Machine.telemetryWrite
  split
  · exact h.writePcap
  · exact h.same.ite (h.same.ite (h.same.ite h))

theorem State.Canonical.loupeWrite {s : State} {u o : Nat} {v : Word} (h : s.Canonical) :
    (loupeWrite s u o v).Canonical := h.ite h.same

theorem State.Canonical.hartFaultWrite {s : State} {h o : Nat} {v : Word} (hs : s.Canonical) :
    (hartFaultWrite s h o v).Canonical := hs.ite hs.setHart

theorem State.Canonical.regionWrite {s : State} {r : Region} {v : Word} (h : s.Canonical) :
    (regionWrite s r v).Canonical := by
  unfold Machine.regionWrite
  split
  · exact h
  · exact h.writeInv.ite (h.same.ite (h.same.ite h))
  · exact h.same
  · exact h.fabricWrite
  · exact h.setHart
  · exact h.writeKcmd.ite (h.same.ite h)
  · exact h.telemetryWrite
  · exact h.hartFaultWrite
  · exact h.writeLaunchEnd
  · exact h
  · exact h.loupeWrite

theorem State.Canonical.ctlWrite {s : State} {v : DWord} {l : List Region} (h : s.Canonical) : (ctlWrite s v l).Canonical := by
  induction l generalizing s v with
  | nil => exact h
  | cons r l ih => exact ih h.regionWrite

/-! ## Harts -/

theorem State.Canonical.hartFault {s : State} {h code pa : Nat} {st : Bool} (hs : s.Canonical) :
    (hartFault s h code pa st).Canonical := (hs.countUe.ite hs).setHart

theorem State.Canonical.hartDone {s : State} {h : Nat} {v : Option DWord} (hs : s.Canonical) :
    (hartDone s h v).Canonical := hs.setHart

theorem State.Canonical.hartTrap {s : State} {h pa size : Nat} {st : Bool} (hs : s.Canonical) :
    (hartTrap s h pa size st).Canonical := hs.setHart

theorem State.Canonical.setProc {s : State} {die : Nat} {p : Proc} (h : s.Canonical) :
    (setProc s die p).Canonical := h.same

theorem State.Canonical.procFault {s : State} {die : Nat} (h : s.Canonical) :
    (procFault s die).Canonical := h.setProc

theorem State.Canonical.procDone {s : State} {die : Nat} {v : Option DWord} (h : s.Canonical) :
    (procDone s die v).Canonical := h.setProc

theorem State.Canonical.procAccess {s : State} {die pa size : Nat} {k : Option (List Region → State)} (h : s.Canonical)
    (hk : ∀ f, k = some f → ∀ rs, (f rs).Canonical) : (procAccess s die pa size k).Canonical := by
  unfold Machine.procAccess
  refine h.ite ?_
  split
  · exact hk _ rfl _
  · exact h.procFault

theorem State.Canonical.execHartLoad {h : Nat} {m : HartMode} {pa size : Nat} {s : State} (hs : s.Canonical) :
    (execHartLoad h m pa size s).Canonical := by
  unfold Machine.execHartLoad
  dsimp only
  split
  · exact (hs.procAccess fun f e rs => Option.some.inj e ▸ hs.procDone).next
  · split
    · exact hs.next
    · split
      · split
        · exact hs.hartFault.next
        · exact hs.hartDone.next
      · split
        · exact hs.next
        · split
          · exact hs.hartTrap.next
          · split
            · exact hs.hartFault.next
            · exact (hs.withMem hs.mem.llcRead.llcHart).hartDone.next

theorem State.Canonical.hartWrite {s : State} {h g pa n : Nat} {w : Nat × Bool} {rmw : Bool} {ev : Instr} {f : Nat → List Byte × Option DWord} (hs : s.Canonical) :
    (hartWrite s h g pa n w rmw ev f).Canonical := by
  unfold Machine.hartWrite
  dsimp only
  split
  · next hu => exact (hs.holdForeign _ hu)
  · split
    · exact hs.endForeign.hartFault
    · exact ((hs.endForeign.foldl fun _ _ hu => (hu.withMem hu.mem.physStore).probe).withMem (hs.endForeign.foldl fun _ _ hu => (hu.withMem hu.mem.physStore).probe).mem.llcHart).hartDone

theorem State.Canonical.execHartStore {h : Nat} {m : HartMode} {pa size : Nat} {v : DWord} {s : State} (hs : s.Canonical) :
    (execHartStore h m pa size v s).Canonical := by
  unfold Machine.execHartStore
  dsimp only
  split
  · exact (hs.procAccess fun f e rs => Option.some.inj e ▸ hs.ctlWrite.procDone).next
  · split
    · exact hs.next
    · split
      · split
        · exact hs.hartFault.next
        · exact hs.ctlWrite.hartDone.next
      · split
        · exact hs.next
        · split
          · exact hs.hartTrap.next
          · split
            · exact hs.endForeign.hartFault.next
            · exact hs.hartWrite.next

theorem State.Canonical.execHartAmo {h : Nat} {m : HartMode} {op : AmoOp} {pa size : Nat} {v : DWord} {s : State} (hs : s.Canonical) :
    (execHartAmo h m op pa size v s).Canonical := by
  unfold Machine.execHartAmo
  dsimp only
  split
  · exact (hs.procAccess (k := none) nofun).next
  · split
    · exact hs.next
    · split
      · exact hs.hartFault.next
      · split
        · exact hs.next
        · split
          · exact hs.hartTrap.next
          · split
            · exact hs.endForeign.hartFault.next
            · exact hs.hartWrite.next

theorem State.Canonical.execControlRegisterWrite {h : Nat} {m : HartMode} {off size : Nat} {v : DWord} {s : State} (hs : s.Canonical) :
    (execControlRegisterWrite h m off size v s).Canonical := by
  unfold Machine.execControlRegisterWrite
  split
  · exact (hs.procAccess fun f e rs => Option.some.inj e ▸ hs.ctlWrite.procDone).next
  · split
    · exact hs.next
    · split
      · exact hs.ctlWrite.next
      · exact hs.hartFault.next

theorem State.Canonical.mapLoupe {s : State} {u : Nat} {f : Loupe → Loupe} (h : s.Canonical) :
    (mapLoupe s u f).Canonical := h.same

theorem State.Canonical.settleClock {s : State} (h : s.Canonical) :
    (settleClock s).Canonical := h.same

theorem State.Canonical.bringUp {s : State} (h : s.Canonical) :
    (bringUp s).Canonical := by
  unfold Machine.bringUp
  dsimp only
  split
  · split
    · exact h.same
    · exact h.same.ite h
  all_goals exact h.same

/-! ## Control transfer -/

theorem State.Canonical.branchTo {s : State} {t : DWord} {brm : Bool} (h : s.Canonical) :
    (branchTo s t brm).Canonical := by
  unfold Machine.branchTo
  split
  · exact h.raise
  · exact h.modCtx.transfer.next

theorem State.Canonical.callTo {s : State} {t : DWord} (h : s.Canonical) :
    (callTo s t).Canonical := by
  unfold Machine.callTo
  split
  · exact h.raise
  · split
    · exact h.next
    · split
      · next hu => exact ((h.callWindow.of_fst hu).frameMade.ite (h.callWindow.of_fst hu)).transfer.awaitFrame.next
      · next he => exact (h.callWindow.of_fst he).takeExc.next
      · next hu => exact (h.callWindow.of_fst hu).next
      · next hu => exact (h.callWindow.of_fst hu).next

theorem State.Canonical.leave {s : State} (h : s.Canonical) :
    (leave s).Canonical := h.oldest fun _ hu => hu.issued.exitThread.next

theorem State.Canonical.execRet {p : Pred} {s : State} (h : s.Canonical) :
    (execRet p s).Canonical := by
  unfold Machine.execRet
  dsimp only
  exact h.guarded fun _ hu => by
    split
    · exact hu.leave
    · split
      · exact hu.raise
      · split
        · exact hu.next
        · split
          · next hu1 => exact ((hu.retWindow.of_fst hu1).frameMade.ite (hu.retWindow.of_fst hu1)).modCtx.transfer.awaitFrame.next
          · next he => exact (hu.retWindow.of_fst he).takeExc.next
          · next hu1 => exact (hu.retWindow.of_fst hu1).next
          · next hu1 => exact (hu.retWindow.of_fst hu1).next

theorem State.Canonical.skipTo {s : State} {e : DWord} {f : Ctx → Ctx} (h : s.Canonical) :
    (skipTo s e f).Canonical := by
  unfold Machine.skipTo
  split
  · exact h.raise
  · exact h.modCtx.transfer.next

theorem State.Canonical.execLoop {p : Pred} {lv : Fin 3} {cnt : LoopCount} {len : Fin 256} {s : State} (h : s.Canonical) :
    (execLoop p lv cnt len s).Canonical := by
  unfold Machine.execLoop
  dsimp only
  split
  · exact h.skipTo
  · split
    · exact h.illegal
    · split
      · exact h.illegal
      · split
        · split
          · exact h.skipTo
          · exact h.modCtx.yieldAtEnd.issued.arrive.next
        · split
          · exact h.skipTo
          · exact h.modCtx.yieldAtEnd.issued.arrive.next

theorem State.Canonical.execRpt {p : Pred} {n : Fin 64} {sd sa sb : Fin 8} {s : State} (h : s.Canonical) :
    (execRpt p n sd sa sb s).Canonical := by
  unfold Machine.execRpt
  dsimp only
  split
  · exact h.raise
  · split
    · exact h.illegal
    · split
      · exact h.modCtx.next
      · exact h.modCtx.next.ite h.modCtx.goOn.next

/-! ## Inbound accesses and ports -/

theorem State.Canonical.answer {s : State} {f : Flit} {ty aux : Nat} {payload : List Byte} (h : s.Canonical) :
    (answer s f ty aux payload).Canonical := h.same

theorem State.Canonical.logInbound {s : State} {f : Flit} {code : Nat} (h : s.Canonical) :
    (logInbound s f code).Canonical := h.same.ite h.fwStore.same

theorem State.Canonical.headMove {s : State} (h : s.Canonical) :
    (headMove s).Canonical := h.same.ite h

theorem State.Canonical.refuseInbound {s : State} {f : Flit} {code : Nat} (h : s.Canonical) :
    (refuseInbound s f code).Canonical := h.ite (h.countUe.ite h).logInbound.answer

theorem State.Canonical.writeInbound {s : State} {f : Flit} {ev : Instr} {n : Nat} {rmw : Bool} {g reply : List Byte → List Byte} (h : s.Canonical) :
    (writeInbound s f ev n rmw g reply).Canonical := by
  unfold Machine.writeInbound
  dsimp only
  split
  · exact h.endForeign.refuseInbound
  · exact h
  · split
    · exact h.endForeign.refuseInbound
    · split
      · next hu => exact (h.holdForeign _ hu)
      · exact h.endForeign.writeLoc.answer

theorem State.Canonical.readInbound {s : State} {f : Flit} {a n : Nat} (h : s.Canonical) :
    (readInbound s f a n).1.Canonical := by
  unfold Machine.readInbound
  split
  · exact h
  · exact h
  · exact h.readLoc.fst

theorem State.Canonical.execRead {f : Flit} {s : State} (h : s.Canonical) :
    (execRead f s).Canonical := by
  unfold Machine.execRead
  split
  · exact h.next
  · split
    · exact h.countDrop.next
    · split
      · next hbs => exact (h.readInbound.of_fst hbs).answer.next
      · exact h.refuseInbound.next
      · exact h.next

theorem State.Canonical.execAtomic {f : Flit} {s : State} (h : s.Canonical) :
    (execAtomic f s).Canonical := by
  unfold Machine.execAtomic
  split
  · exact h.next
  · split
    · exact h.countDrop.next
    · split
      · exact h.countDrop.next
      · exact h.writeInbound.next

theorem State.Canonical.readPieces {s : State} {f : Flit} {a n : Nat} (h : s.Canonical) : (readPieces s f a n).1.Canonical := by
  induction n generalizing s a with
  | zero => exact h
  | succ n ih =>
    unfold Machine.readPieces
    split
    · next hu =>
        have hs := ih (a := a + 4) (h.readInbound.of_fst hu)
        split
        · next he => exact hs.of_fst he
        · exact hs
    · exact h.readInbound

theorem State.Canonical.answerPieces {s : State} {f : Flit} {n a : Nat} {bs : List Byte} (h : s.Canonical) :
    (answerPieces s f n a bs).Canonical := by
  induction n generalizing s a bs with
  | zero => exact h
  | succ n ih => exact h.answer.ite (ih h.same)

theorem State.Canonical.execLoadAndReduce {f : Flit} {s : State} (h : s.Canonical) :
    (execLoadAndReduce f s).Canonical := by
  unfold Machine.execLoadAndReduce
  split
  · exact h.next
  · split
    · exact h.countDrop.next
    · split
      · next hbs => exact (h.readPieces.of_fst hbs).answerPieces.next
      · exact h.refuseInbound.next
      · exact h.next

theorem State.Canonical.modAcc {s : State} {seq : Nat} {f : Access → Access} (h : s.Canonical) :
    (modAcc s seq f).Canonical := h.modTh

theorem State.Canonical.landLoad {s : State} {a : Access} {n : Nat} {ext : LoadExt} {ds : List Reg} {bs : List Byte} (h : s.Canonical) :
    (landLoad s a n ext ds bs).Canonical := by
  unfold Machine.landLoad
  split
  · exact h.giveLoad.finishHead
  · exact h.giveLoad.dropRequest.modAcc.settle

theorem State.Canonical.noRoom {s : State} {a : Access} (h : s.Canonical) :
    (noRoom s a).Canonical := h.dropRequest.modAcc

theorem State.Canonical.landRelease {s : State} {a : Access} {gone : Bool} (h : s.Canonical) :
    (landRelease s a gone).Canonical := by
  unfold Machine.landRelease
  split
  · exact h.dropRequest.modAcc.rollback
  · exact h.dropRequest.modAcc.settle

theorem State.Canonical.landAnswer {s : State} {a : Access} {f : Flit} (h : s.Canonical) :
    (landAnswer s a f).Canonical := by
  unfold Machine.landAnswer
  split
  · exact h.landRelease.ite (h.noRoom.ite h.landLoad)
  · exact h.finishHead.ite h
  · exact h.finishHead.ite h
  · exact h.deliver.finishHead.ite h
  · exact h.memberDone.ite h
  · exact (h.same.memberDone.ite h.same).ite h
  all_goals exact h

theorem State.Canonical.onRequest {s : State} {n : Nat} {k : State → Access → State} (h : s.Canonical) (hk : ∀ (a : State) (a_1 : Access), a.Canonical → (k a a_1).Canonical) :
    (onRequest s n k).Canonical := by
  unfold Machine.onRequest
  split
  · exact h.countDrop
  · exact h.onThread fun _ hu => by
      split
      · exact hu.countDrop
      · exact hk _ _ hu

theorem State.Canonical.faultAccess {s : State} {a : Access} {e : Exc} (h : s.Canonical) :
    (faultAccess s a e).Canonical := h.takeFault.ite h.dropRequest.modAcc

theorem State.Canonical.execRemoteFaultResponse {f : Flit} {s : State} (h : s.Canonical) :
    (execRemoteFaultResponse f s).Canonical := (h.ite (h.onRequest fun _ _ hu => by
      split
      · exact hu.faultAccess
      · exact hu.absentGroup.ite (hu.memberDone.ite hu))).next

theorem State.Canonical.execRemoteTimeout {serial : Nat} {s : State} (h : s.Canonical) :
    (execRemoteTimeout serial s).Canonical := by
  unfold Machine.execRemoteTimeout
  split
  · exact h.next
  · split
    · exact h.next
    · exact (h.onRequest fun _ _ hu => hu.membersLost.ite hu.faultAccess).next

theorem State.Canonical.execWatchRegister {f : Flit} {s : State} (h : s.Canonical) :
    (execWatchRegister f s).Canonical := by
  unfold Machine.execWatchRegister
  split
  · exact h.next
  · split
    · exact (h.shareLoc.same.ite h.answer).next
    · exact h.next

theorem State.Canonical.noticePeers {s : State} {dev : Nat} {hit : Nat → Nat → Bool} (h : s.Canonical) :
    (noticePeers s dev hit).Canonical := h.mapThreads

theorem State.Canonical.setPort {s : State} {n : Nat} {p : Port} (h : s.Canonical) :
    (setPort s n p).Canonical := h.same

theorem State.Canonical.allLost {s : State} (h : s.Canonical) :
    (allLost s).Canonical := h.mapThreads

theorem State.Canonical.portDown {s : State} {n : Nat} (h : s.Canonical) :
    (portDown s n).Canonical := h.setPort.allLost.ite h.setPort

theorem State.Canonical.execFlitRetry {port : Nat} {s : State} (h : s.Canonical) :
    (execFlitRetry port s).Canonical := by
  unfold Machine.execFlitRetry
  dsimp only
  split
  · exact h.next
  · exact h.next
  · exact (h.setPort.ite h.portDown).next
  · exact (h.setPort.ite h.portDown).next

theorem State.Canonical.sendFlit {s : State} {port lane : Nat} (h : s.Canonical) :
    (sendFlit s port lane).Canonical := by
  unfold Machine.sendFlit
  dsimp only
  split
  · exact h
  · split
    · exact h
    · exact h.ite h.same.setPort

theorem State.Canonical.execPeerAbsent {dev : Nat} {s : State} (h : s.Canonical) :
    (execPeerAbsent dev s).Canonical := (h.ite (h.same.noticePeers.foldl fun _ _ hu => hu.onThread fun _ hu1 => hu1.memberLost)).next

/-! ## Clusters and launches -/

theorem State.Canonical.argTouch {s : State} {core : Nat} {l : Launch} {n : Nat} (h : s.Canonical) :
    (argTouch s core l n).Canonical := by
  unfold Machine.argTouch
  dsimp only
  exact h.foldl fun _ _ hu => by
    split
    · exact hu.walked
    · exact hu.walked.withMem hu.walked.mem.llcRead

theorem State.Canonical.readArgs {s : State} {c : Cid} (h : s.Canonical) :
    (readArgs s c).Canonical := by
  unfold Machine.readArgs
  dsimp only
  split
  · next k _ hl _ =>
      split
      · exact h.argTouch.mapThreads.setCluster (h.findCluster k hl)
      · exact h
      · split
        · exact h.setCluster (h.findCluster k hl)
        · exact (h.countUe.ite h).setCluster (h.findCluster k hl)
  · exact h

theorem newCluster_canonical (l : Launch) (c : Nat) (cores : List Nat) (arrival : Nat) : (newCluster l c cores arrival).Canonical := by
  intro v hv
  obtain ⟨x, _, rfl⟩ := List.mem_map.mp hv
  exact Mem.empty_wf

theorem State.Canonical.placeCluster {s : State} {l : Launch} {c : Nat} {cores : List Nat} (h : s.Canonical) :
    (Machine.placeCluster s l c cores).Canonical := by
  unfold Machine.placeCluster
  refine State.Canonical.readArgs (State.Canonical.foldl (h.withClusters fun x hx => ?_) fun _ _ hu => hu.settleDeque)
  rcases List.mem_append.mp hx with hx | hx
  · exact h.spads x (List.mem_of_mem_filter hx)
  · obtain rfl := List.mem_singleton.mp hx
    split <;> exact newCluster_canonical l c cores s.fresh

theorem State.Canonical.execClusterClaim {die lid : Nat} {cores : List Nat} {s : State} (h : s.Canonical) :
    (execClusterClaim die lid cores s).Canonical := by
  unfold Machine.execClusterClaim
  dsimp only
  split
  · exact h.next
  · split
    · exact h.next
    · split
      · exact h.next
      · split
        · exact h.setLaunch.addZero.next
        · exact h.next.ite h.setLaunch.addZero.placeCluster.next

theorem State.Canonical.retireTeam {s : State} {c : Cid} {team : Nat} (h : s.Canonical) :
    (retireTeam s c team).Canonical := by
  unfold Machine.retireTeam
  split
  · split
    · exact h
    · split
      · exact h.setTeam.writeTeamRecord
      · exact h.setTeam.writeTeamRecord.setCtr
  · exact h

theorem State.Canonical.dropCluster {s : State} {k : Cluster} (h : s.Canonical) : (Machine.dropCluster s k).Canonical := by
  unfold Machine.dropCluster
  have settled : ∀ {u : State}, u.Canonical → ((k.slots.map (·.core)).foldl Machine.settleDeque u).Canonical :=
    fun hu => hu.foldl fun _ _ hv => hv.settleDeque
  dsimp only
  split
  · exact settled (h.withClusters fun x hx => h.spads x (List.mem_of_mem_filter hx))
  · exact (settled (h.withClusters fun x hx => h.spads x (List.mem_of_mem_filter hx))).addZero.tryComplete

theorem State.Canonical.execClusterRetire {c : Cid} {s : State} (h : s.Canonical) :
    (execClusterRetire c s).Canonical := by
  unfold Machine.execClusterRetire
  dsimp only
  split
  · exact h.next
  · split
    · exact h.next
    · split
      · exact (h.foldl fun _ _ hu => hu.retireTeam).next
      · next k1 hk1 => exact ((h.foldl fun _ _ hu => hu.retireTeam).ite (((h.foldl fun _ _ hu => hu.retireTeam).setCluster ((h.foldl fun _ _ hu => hu.retireTeam).findCluster k1 hk1)).ite (h.foldl fun _ _ hu => hu.retireTeam).dropCluster)).next

theorem State.Canonical.discardWork {s : State} {c : Cid} (h : s.Canonical) :
    (discardWork s c).Canonical := by
  unfold Machine.discardWork
  exact (h.foldl fun _ _ hu => hu.releaseWatch.dropRequest).mapThreads

theorem State.Canonical.failOp {s : State} {w : LockOwner} {core : Nat} {o : CopyOp} (h : s.Canonical) :
    (failOp s w core o).Canonical := (h.landMixed.ite h).dropLocks

theorem State.Canonical.failOps {s : State} {k : Cluster} (h : s.Canonical) (hk : k.Canonical) : (failOps s k).Canonical := by
  unfold Machine.failOps
  refine State.Canonical.same (State.Canonical.foldl ((h.foldl fun _ _ hu => hu.failOp).setCluster ?_) fun _ _ hu => hu.failOp)
  intro v hv
  obtain ⟨x, hx, rfl⟩ := List.mem_map.mp hv
  exact (hk x.2 (List.of_mem_zip hx).2).refillAll

theorem State.Canonical.endCluster {s : State} {l : Launch} {k : Cluster} (h : s.Canonical) (hk : k.Canonical) :
    (endCluster s l k).Canonical := by
  unfold Machine.endCluster
  dsimp only
  split
  · split
    · exact (((h.failOps hk).foldl fun _ _ hu => hu.ite hu.writeTeamRecord).setLaunch.ite ((h.failOps hk).foldl fun _ _ hu => hu.ite hu.writeTeamRecord)).dropCluster.closeLaunch
    · exact (((h.failOps hk).foldl fun _ _ hu => hu.ite hu.writeTeamRecord).setLaunch.ite ((h.failOps hk).foldl fun _ _ hu => hu.ite hu.writeTeamRecord)).dropCluster
  · split
    · exact (((h.failOps hk).foldl fun _ _ hu => hu.ite hu.writeTeamRecord).setLaunch.ite ((h.failOps hk).foldl fun _ _ hu => hu.ite hu.writeTeamRecord)).dropCluster.closeLaunch
    · exact (((h.failOps hk).foldl fun _ _ hu => hu.ite hu.writeTeamRecord).setLaunch.ite ((h.failOps hk).foldl fun _ _ hu => hu.ite hu.writeTeamRecord)).dropCluster

theorem State.Canonical.terminate {s : State} {c : Cid} (h : s.Canonical) :
    (terminate s c).Canonical := by
  unfold Machine.terminate
  split
  · exact h.discardWork
  · split
    · next k _ hl _ => exact h.ite (h.endCluster (h.findCluster k hl))
    · exact h

/-! ## Migration -/

theorem State.Canonical.foreignEvent {e : Instr} {s : State} (h : s.Canonical) :
    (foreignEvent e s).Canonical := by
  unfold Machine.foreignEvent
  dsimp only
  split
  · split
    · next hu => exact (h.execHartStore _ hu)
    · exact h
  · split
    · next hu => exact (h.execHartAmo _ hu)
    · exact h
  · exact h.ite (h.countDrop.ite h.writeInbound)
  · split
    · next hu => exact (h.execAtomic _ hu)
    · exact h
  · exact h.ite (h.countDrop.ite h.writeInbound)
  · exact h

theorem State.Canonical.performHeld {s : State} {t : Tid} (h : s.Canonical) :
    (performHeld s t).Canonical := h.onThread fun _ hu => by
      split
      · exact hu
      · split
        · exact hu.mirrorHead
        · split
          · exact hu.storeHead
          · exact hu.storeHead
          · exact hu.storeHead
          · exact hu.atomHead

theorem State.Canonical.retarget {s : State} {g : Migration} (h : s.Canonical) :
    (retarget s g).Canonical := h.mapThreads.same

theorem State.Canonical.performOne {s : State} {h : Held} (hs : s.Canonical) :
    (performOne s h).Canonical := by
  unfold Machine.performOne
  split
  · exact hs.performHeld
  · exact hs.foreignEvent
  · exact hs.fwStep

theorem State.Canonical.switchPage {s : State} {g : Migration} (h : s.Canonical) : (Machine.switchPage s g).Canonical := by
  have copied : ∀ {ps : List (Nat × Nat)}, (ps.foldl (fun m p => Machine.copyPage m p.1 p.2 g.len) s.mem).Canonical :=
    MemSys.Canonical.foldl h.mem fun _ _ hn => hn.copyPage
  unfold Machine.switchPage
  refine State.Canonical.foldl (State.Canonical.foldl (State.Canonical.retarget (h.withMem ?_)) fun _ _ hu => hu.probe) fun _ _ hu => hu.performOne
  exact copied

theorem State.Canonical.execMigrationSwitch {pa newPa : Nat} {s : State} (h : s.Canonical) :
    (execMigrationSwitch pa newPa s).Canonical := by
  unfold Machine.execMigrationSwitch
  split
  · exact h.next
  · exact (h.switchPage.ite h).next

end Sys2Proof.Machine

end

-- ==== Sys2Proof/Proofs/CanonicalCore.lean ====

section

/-!
Canonical form through the matrix engine, the picker, preemption and the register forms.
-/

-- Many short proofs: elaborated one after another, they need one stack and not one each.
set_option Elab.async false

namespace Sys2Proof.Machine

/-! ## The matrix engine -/

theorem State.Canonical.setName {s : State} {l : Thread} {n : Fin 4} {t : Option Nat} (h : s.Canonical) :
    (setName s l n t).Canonical := by
  unfold Machine.setName
  split
  · exact h
  · exact h.setGroup

theorem State.Canonical.allocTile {s : State} {l : Thread} {n : Fin 4} (h : s.Canonical) :
    ∀ t x, allocTile s l n = some (t, x) → t.Canonical := by
  intro t x e
  unfold Machine.allocTile at e
  split at e
  · cases e
  · exact (Prod.mk.inj (Option.some.inj e)).1 ▸ h.setCore.setName

theorem State.Canonical.takeTile {s : State} {l : Thread} {i : Instr} {n : Fin 4} (h : s.Canonical) :
    ∀ t x, takeTile s l i n = some (t, x) → t.Canonical := by
  intro t x e
  unfold Machine.takeTile at e
  dsimp only at e
  split at e
  · exact h.allocTile t x e
  · split at e
    · split at e
      · cases e
      · next hu => exact (Prod.mk.inj (Option.some.inj e)).1 ▸ (h.allocTile _ _ hu).setCore
    · exact (Prod.mk.inj (Option.some.inj e)).1 ▸ h

theorem State.Canonical.releaseName {s : State} {l : Thread} {n : Fin 4} (h : s.Canonical) :
    (releaseName s l n).Canonical := by
  unfold Machine.releaseName
  split
  · exact h
  · exact h.setName.setCore

theorem State.Canonical.pushMat {s : State} {core : Nat} {o : MatOp} (h : s.Canonical) :
    (pushMat s core o).Canonical := h.same.setCore

theorem State.Canonical.openDrain {s : State} {c : Cid} {r : Nat × Nat × Nat} (h : s.Canonical) :
    (openDrain s c r).Canonical := by
  unfold Machine.openDrain
  split
  · exact h
  · next v hv => exact (h.setSlot (h.findSlot v hv).setAbsent).probe

theorem State.Canonical.matRetire {s : State} {i : Instr} {mem : List Thread} {f : Thread → Thread} (h : s.Canonical) :
    (matRetire s i mem f).Canonical := h.foldl fun _ _ hu => hu.onThread fun _ hu1 => hu1.modTh.issued.goOn.modTh

theorem State.Canonical.matLaunch_drain {s : State} {i : Instr} {mem : List Thread} {l : Thread} {core : Nat} {n : Fin 4}
    {bound : Option Nat} {rls dth : Bool} (h : s.Canonical) :
    ∀ t, matLaunch.drain s i mem l core n bound rls dth = some t → t.Canonical := by
  intro t e
  unfold Machine.matLaunch.drain at e
  dsimp only at e
  split at e
  · cases e
  · exact Option.some.inj e ▸ (h.openDrain.pushMat.releaseName.ite h.openDrain.pushMat).matRetire

theorem State.Canonical.matLaunch {s : State} {i : Instr} {mem : List Thread} {l : Thread} (h : s.Canonical) :
    ∀ t, Machine.matLaunch s i mem l = some t → t.Canonical := by
  intro t e
  unfold Machine.matLaunch at e
  dsimp only at e
  split at e
  · cases e
  · split at e
    · split at e
      · exact Option.some.inj e ▸ h.matRetire
      · split at e
        · cases e
        · split at e
          · cases e
          · split at e
            · exact Option.some.inj e ▸ h.foldl fun _ _ hu => hu.trapLane
            · exact Option.some.inj e ▸ h.matRetire
    · split at e
      all_goals
        split at e
        · cases e
        · split at e
          · cases e
          · next hu =>
              split at e
              · cases e
              · exact Option.some.inj e ▸ (h.takeTile _ _ hu).setCore.matRetire
    · split at e
      · cases e
      · next hu =>
          split at e
          · cases e
          · exact Option.some.inj e ▸ (h.takeTile _ _ hu).setCore.matRetire
    · exact h.matLaunch_drain _ e
    · exact h.matLaunch_drain _ e
    · split at e
      · cases e
      · next hu => exact Option.some.inj e ▸ (h.takeTile _ _ hu).pushMat.matRetire

theorem State.Canonical.trapMembers {s : State} {mem : List Thread} {e : Exc} (h : s.Canonical) :
    (trapMembers s mem e).Canonical := h.foldl fun _ _ hu => hu.trapLane

theorem State.Canonical.runMatrix {s : State} {i : Instr} {mem : List Thread} {gone : Bool} {l : Thread} (h : s.Canonical) :
    (runMatrix s i mem gone l).Canonical := by
  unfold Machine.runMatrix
  split
  · exact h.trapMembers
  · exact h
  · exact h.trapMembers.ite (h.getD h.matLaunch)

theorem State.Canonical.runRendezvous {s : State} {l : Thread} (h : s.Canonical) :
    (runRendezvous s l).Canonical := by
  unfold Machine.runRendezvous
  split
  · exact h.runMatrix.ite h.runExchange
  · exact h

theorem State.Canonical.execRendezvousIssue {t : Tid} {s : State} (h : s.Canonical) :
    (execRendezvousIssue t s).Canonical := by
  unfold Machine.execRendezvousIssue
  split
  · exact h.next
  · exact (h.runRendezvous.ite h).next

theorem State.Canonical.execChainStartTileWait {t : Tid} {s : State} (h : s.Canonical) :
    (execChainStartTileWait t s).Canonical := by
  unfold Machine.execChainStartTileWait
  split
  · exact h.next
  · split
    · exact h.next
    · exact (h.runRendezvous.ite h).next

theorem State.Canonical.execDivergenceWaitLimit {t : Tid} {s : State} (h : s.Canonical) :
    (execDivergenceWaitLimit t s).Canonical := by
  unfold Machine.execDivergenceWaitLimit
  dsimp only
  split
  · exact h.next
  · split
    · exact h.next
    · split
      · exact h.trapLane.next
      · split
        · split
          · exact h.next
          · split
            · exact h.trapMembers.next
            · exact h.next
            · exact h.trapMembers.next
        · exact h.next

theorem State.Canonical.setMat {s : State} {core : Nat} {o : MatOp} (h : s.Canonical) :
    (setMat s core o).Canonical := h.setCore

theorem State.Canonical.endMat {s : State} {core : Nat} {o : MatOp} (h : s.Canonical) :
    (endMat s core o).Canonical := by
  unfold Machine.endMat
  exact h.setCore.mapThreads

theorem State.Canonical.eccMatrix {s : State} {o : MatOp} {addr : DWord} (h : s.Canonical) :
    (eccMatrix s o addr).Canonical := by
  unfold Machine.eccMatrix
  dsimp only
  split
  · exact h.dieCluster
  · exact h.onThread fun _ hu => hu.modTh.fatal

theorem State.Canonical.execMmaStart {core : Nat} {s : State} (h : s.Canonical) :
    (execMmaStart core s).Canonical := by
  unfold Machine.execMmaStart
  dsimp only
  split
  · exact h.next
  · split
    · exact h.next
    · exact (h.ite h.setMat).next

theorem State.Canonical.execMmaLastSliceRead {core : Nat} {s : State} (h : s.Canonical) :
    (execMmaLastSliceRead core s).Canonical := by
  unfold Machine.execMmaLastSliceRead
  dsimp only
  split
  · exact h.next
  · split
    · exact h.next
    · split
      · exact h.next
      · split
        · exact h.eccMatrix.next
        · exact (h.eccMatrix.ite h.setMat).next

theorem State.Canonical.execMmaComplete {core : Nat} {s : State} (h : s.Canonical) :
    (execMmaComplete core s).Canonical := by
  unfold Machine.execMmaComplete
  dsimp only
  split
  · exact h.next
  · split
    · exact h.endMat.next
    · exact h.setCore.endMat.next

theorem State.Canonical.execAccLdComplete {core op : Nat} {s : State} (h : s.Canonical) :
    (execAccLdComplete core op s).Canonical := by
  unfold Machine.execAccLdComplete
  dsimp only
  split
  · exact h.next
  · split
    · split
      · exact h.next
      · split
        · exact h.eccMatrix.next
        · exact h.endMat.next
        · exact h.setCore.endMat.next
    · exact h.next

theorem State.Canonical.execAccTileReadEnd {core op : Nat} {s : State} (h : s.Canonical) :
    (execAccTileReadEnd core op s).Canonical := by
  unfold Machine.execAccTileReadEnd
  dsimp only
  split
  · exact h.next
  · split
    · exact h.next
    · split
      · exact h.next
      · split
        · exact h.setMat.next
        · split
          · exact h.eccMatrix.next
          · exact (h.setMat.setCore.ite h.setMat).next

theorem State.Canonical.execAccSectorLanded {core op : Nat} {s : State} (h : s.Canonical) :
    (execAccSectorLanded core op s).Canonical := by
  unfold Machine.execAccSectorLanded
  dsimp only
  split
  · exact h.next
  · split
    · exact h.next
    · split
      · exact h.next
      · next v hv =>
          split
          · exact h.next
          · exact (h.setSlot (h.findSlot v hv).write.setPresent).setMat.next

theorem State.Canonical.execAccDrainComplete {core op : Nat} {s : State} (h : s.Canonical) :
    (execAccDrainComplete core op s).Canonical := by
  unfold Machine.execAccDrainComplete
  split
  · exact h.next
  · exact (h.endMat.ite h).next

/-! ## Return from a handler -/

theorem State.Canonical.tretWindow {s : State} (h : s.Canonical) :
    (tretWindow s).1.Canonical := by
  unfold Machine.tretWindow
  split
  · next hu => exact (h.retWindow.of_fst hu).modTh.fst
  · exact h.retWindow

theorem State.Canonical.resumeAt {s : State} {h t : DWord} {hdr : Nat} {ws : List Nat} (hs : s.Canonical) :
    (resumeAt s h t hdr ws).Canonical := by
  unfold Machine.resumeAt
  dsimp only
  split
  · exact hs.yieldAtEnd.issued.modTh.modCtx.modCtx
  · split
    · split
      · exact hs.yieldAtEnd.issued.modTh.modCtx.takeExc
      · exact hs.yieldAtEnd.issued.modTh.modCtx.modTh
    · split
      · exact hs.yieldAtEnd.issued.modTh.modCtx.takeExc
      · exact hs.yieldAtEnd.issued.modTh.modCtx.modTh

theorem State.Canonical.execTret_go {s : State} {traps : Bool} {k : State → State} (h : s.Canonical) (hk : ∀ (a : State), a.Canonical → (k a).Canonical) :
    (execTret.go s traps k).Canonical := by
  unfold Machine.execTret.go
  split
  · exact h.next
  · split
    · next hu => exact (hk _ ((h.tretWindow.of_fst hu).frameMade.ite (h.tretWindow.of_fst hu))).awaitFrame.next
    · next he => exact (h.tretWindow.of_fst he).windowFault.next
    · next hu => exact (h.tretWindow.of_fst hu).next
    · next hu => exact (h.tretWindow.of_fst hu).next

theorem State.Canonical.execTret {p : Pred} {s : State} (h : s.Canonical) :
    (execTret p s).Canonical := by
  unfold Machine.execTret
  dsimp only
  exact h.guarded fun _ hu => by
    split
    · exact hu.illegal
    · split
      · exact hu.leave
      · split
        · exact hu.raise
        · split
          · exact hu.raise
          · exact hu.execTret_go fun _ hu1 => hu1.modCtx.transfer
        · exact hu.execTret_go fun _ hu1 => hu1.resumeAt

/-! ## The picker -/

theorem State.Canonical.setPicker {s : State} {core port : Nat} {p : Picker} (h : s.Canonical) :
    (setPicker s core port p).Canonical := h.setCore

theorem State.Canonical.endYields {s : State} {core port : Nat} {t : Thread} {b : List Tid} (h : s.Canonical) :
    (endYields s core port t b).Canonical := h.mapThreads

theorem State.Canonical.takePath {s : State} {core port : Nat} {t : Thread} {aged : Bool} (h : s.Canonical) :
    (takePath s core port t aged).Canonical := h.mapThreads.mapThreads.mapThreads.endYields.setPicker.same

theorem State.Canonical.execAgeingIssue {core port : Nat} {s : State} (h : s.Canonical) :
    (execAgeingIssue core port s).Canonical := by
  unfold Machine.execAgeingIssue
  split
  · exact h.next
  · exact h.takePath.next

theorem State.Canonical.execYieldExpiry {t : Tid} {s : State} (h : s.Canonical) : (execYieldExpiry t s).Canonical := by
  unfold Machine.execYieldExpiry
  exact (h.onThread fun _ hu => hu.modTh).next

theorem State.Canonical.execMergeHoldTimeout {t : Tid} {s : State} (h : s.Canonical) :
    (execMergeHoldTimeout t s).Canonical := by
  unfold Machine.execMergeHoldTimeout
  split
  · exact h.next
  · split
    · exact (h.mapThreads.ite h).next
    · exact h.next

theorem State.Canonical.limits {s : State} {core port : Nat} (h : s.Canonical) : (limits s core port).Canonical := by
  have go : ∀ {u : State} {o : Out}, u.Canonical → o.Canonical → State.Canonical (match o with
      | .next t => t
      | .fault _ => u
      | .refused _ => u) := by
    intro u o hu ho
    split
    · exact ho _ rfl
    · exact hu
    · exact hu
  refine h.foldl fun u t hu => ?_
  exact go (go (go hu hu.execYieldExpiry) (State.Canonical.execMergeHoldTimeout (go hu hu.execYieldExpiry)))
    (State.Canonical.execDivergenceWaitLimit (go (go hu hu.execYieldExpiry) (State.Canonical.execMergeHoldTimeout (go hu hu.execYieldExpiry))))

theorem State.Canonical.settlePort {s : State} {core port : Nat} (h : s.Canonical) :
    (settlePort s core port).Canonical := h.foldl fun _ _ hu => hu.recheckHolds.judgeGroup

theorem State.Canonical.codeTouch {s : State} {a : DWord} {n : Nat} (h : s.Canonical) : (codeTouch s a n).Canonical := by
  induction n generalizing s a with
  | zero => exact h
  | succ n ih =>
    unfold Machine.codeTouch
    refine h.ite ?_
    dsimp only
    split
    · exact ih (h.walked.withMem h.walked.mem.llcRead)
    · exact h.walked

theorem State.Canonical.issueTouch {s : State} {t : Tid} (h : s.Canonical) :
    (issueTouch s t).Canonical := h.onThread fun _ hu => by
      split
      · exact hu.codeTouch
      · exact hu.codeTouch.foldl fun _ _ hu2 => hu2.walked

theorem State.Canonical.touchBundle {s : State} {n : Nat} (h : s.Canonical) :
    (touchBundle s n).Canonical := h.foldl fun _ _ hu => hu.issueTouch

theorem State.Canonical.pickPort {s0 : State} {core port : Nat} (h : s0.Canonical) :
    (pickPort s0 core port).Canonical := by
  unfold Machine.pickPort
  dsimp only
  split
  · exact h.settlePort.takePath.touchBundle.limits
  · exact h.settlePort.takePath.touchBundle.limits
  · exact h.settlePort.mapThreads.endYields.runRendezvous.limits
  · exact h.settlePort

/-! ## Owned waits -/

theorem State.Canonical.expireAt {s : State} {writer : Option Tid} {loc : Loc} {n : Nat} (h : s.Canonical) :
    (expireAt s writer loc n).Canonical := by
  unfold Machine.expireAt
  split
  · exact h.mapThreads.mapThreads.same
  · exact h.mapThreads

theorem State.Canonical.execOwnedWaitExpiry {t : Tid} {s : State} (h : s.Canonical) :
    (execOwnedWaitExpiry t s).Canonical := by
  unfold Machine.execOwnedWaitExpiry
  dsimp only
  split <;> exact (h.foldl fun _ _ hu => hu.expireAt).next

/-! ## Integer forms -/

theorem State.Canonical.binOp {s : State} {f : FmtA} {g : Word → Word → Word} (h : s.Canonical) :
    (binOp s f g).Canonical := h.regOp

theorem State.Canonical.unOp {s : State} {f : FmtU} {g : Word → Word} (h : s.Canonical) :
    (unOp s f g).Canonical := h.regOp

theorem State.Canonical.immOp {s : State} {f : FmtB} {g : Word → BitVec 8 → Word} (h : s.Canonical) :
    (immOp s f g).Canonical := h.regOp

theorem State.Canonical.pairOp {s : State} {f : FmtA} {g : DWord → DWord → DWord} (h : s.Canonical) :
    (pairOp s f g).Canonical := h.regOp

/-! ## Predicate forms -/

theorem State.Canonical.predOp {s : State} {f : FmtQ} {g : Bool → Bool → Bool} (h : s.Canonical) :
    (predOp s f g).Canonical := h.regOp

/-! ## Team frames -/

theorem State.Canonical.framesTouch {s : State} {die : Nat} {l : Launch} {k : Cluster} (h : s.Canonical) :
    (framesTouch s die l k).Canonical := h.foldl fun _ _ hu => hu.fwTouch

theorem State.Canonical.readThreads {bs : List Byte} {l : Launch} {c : Cid} {team : Nat} {s : State} (h : s.Canonical) :
    (readThreads bs l c team s).Canonical := h.mapThreads

theorem State.Canonical.readFrames {s : State} {l : Launch} {k : Cluster} (h : s.Canonical) :
    (readFrames s l k).1.Canonical := (h.foldl fun _ _ hu => hu.readThreads).fst

/-! ## Preemption and restore -/

theorem State.Canonical.execPreemptRequest {c : Cid} {s : State} (h : s.Canonical) :
    (execPreemptRequest c s).Canonical := by
  unfold Machine.execPreemptRequest
  split
  · exact h.next
  · exact (h.stopCluster.ite h).next

theorem State.Canonical.mapCluster {s : State} {c : Cid} {f : State → State} (h : s.Canonical) (hf : ∀ (a : State), a.Canonical → (f a).Canonical) :
    (mapCluster s c f).Canonical := h.foldl fun _ _ hu => hu.onThread fun _ hu1 => hf _ hu1

theorem State.Canonical.quiesce {s : State} (h : s.Canonical) :
    (quiesce s).Canonical := by
  unfold Machine.quiesce
  split
  · exact h.rollback
  · split
    · exact h.modTh
    · split
      · exact h
      · exact h.cancelFrom

theorem State.Canonical.finishEntry {s : State} (h : s.Canonical) :
    (finishEntry s).Canonical := h.enterHandler.ite h

theorem State.Canonical.dropCopies {s : State} (h : s.Canonical) :
    (dropCopies s).Canonical := h.modTh

theorem State.Canonical.replayCluster {s : State} {l : Launch} {k : Cluster} (h : s.Canonical) (hk : k.Canonical) :
    (replayCluster s l k).Canonical := ((h.foldl fun _ _ hu => hu.dropLocks).same.same.setCluster hk).setLaunch.foldl fun _ _ hu => hu.settleDeque

theorem Cluster.Canonical.unpinAll {k : Cluster} : Cluster.Canonical { k with slots := k.slots.map Slot.unpinAll } := by
  intro v hv
  obtain ⟨x, _, rfl⟩ := List.mem_map.mp hv
  exact Mem.empty_wf

theorem State.Canonical.saveCluster {s : State} {l : Launch} {k : Cluster} {frame back : Nat} (h : s.Canonical) :
    (Machine.saveCluster s l k frame back).Canonical := by
  unfold Machine.saveCluster
  refine State.Canonical.foldl (State.Canonical.same (State.Canonical.setCluster (State.Canonical.foldl (State.Canonical.foldl (State.Canonical.same (State.Canonical.mapThreads (State.Canonical.setLaunch h)))
    fun _ _ hu => hu.fwStore) fun _ _ hu => hu.backSlot) Cluster.Canonical.unpinAll)) fun _ _ hu => hu.settleDeque

theorem State.Canonical.stopOps {s : State} {c : Cid} (h : s.Canonical) :
    (stopOps s c).Canonical := h.foldl fun _ _ hu => hu.setOp.ite hu

theorem State.Canonical.stopMove {s : State} {c : Cid} (h : s.Canonical) :
    (stopMove s c).Canonical := by
  unfold Machine.stopMove
  split
  · next k _ hl _ =>
      split
      · exact h.mapCluster fun _ hu => hu.quiesce
      · split
        · exact h.mapCluster fun _ hu => hu.finishEntry
        · split
          · exact h.mapCluster fun _ hu => hu.dropCopies
          · split
            · exact h
            · split
              · exact h.ite (h.replayCluster (h.findCluster k hl))
              · split
                · exact h.stopOps
                · split
                  · exact h
                  · split
                    · exact h.onThread fun _ hu => hu.modTh.fatal
                    · split
                      · exact h.saveCluster
                      · exact h
  · exact h

theorem State.Canonical.moveDeque {s : State} {lid old new : Nat} (h : s.Canonical) :
    (moveDeque s lid old new).Canonical := h.ite h.setCore.setCore.settleDeque

theorem State.Canonical.placeTile {s : State} {l : Launch} {k : Cluster} {x : Nat × Tile} (h : s.Canonical) :
    (placeTile s l k x).1.Canonical := h.setCore.fst

theorem State.Canonical.placeTiles {l : Launch} {k : Cluster} {ts : List (Nat × Tile)} {s : State} (h : s.Canonical) :
    (placeTiles l k s ts).1.Canonical := by
  induction ts generalizing s with
  | nil => exact h
  | cons x ts ih => exact ih h.placeTile

theorem State.Canonical.resumeOp {k : Cluster} {s : State} {x : Nat × CopyOp} (hs : s.Canonical) :
    (resumeOp k s x).Canonical := hs.setCore.same

theorem State.Canonical.relaunch {l : Launch} {k : Cluster} {m : List (Nat × Nat)} {s : State} {o : MatOp} (hs : s.Canonical) :
    (relaunch l k m s o).Canonical := hs.pushMat

theorem State.Canonical.restoreCluster {s : State} {l : Launch} {k : Cluster} {cores : List Nat} (h : s.Canonical) (hk : k.Canonical) :
    (Machine.restoreCluster s l k cores).Canonical := by
  unfold Machine.restoreCluster
  have placed : Cluster.Canonical { k with slots := k.slots.zipWith (fun v c => { v with core := c }) cores } := by
    rw [List.zipWith_comm]
    exact Cluster.Canonical.zipWith (f := fun c v => { v with core := c }) hk fun _ _ hv => hv
  have read : (Machine.readFrames (Machine.framesTouch s (cores.headD 0 / 336) l k) l k).1.Canonical := h.framesTouch.readFrames
  refine State.Canonical.mapThreads (State.Canonical.foldl (State.Canonical.foldl (State.Canonical.foldl (State.Canonical.foldl
    (State.Canonical.setCluster (State.Canonical.placeTiles (State.Canonical.mapThreads (State.Canonical.setCluster (State.Canonical.same read) placed))) placed) ?_) ?_) ?_) ?_)
  · exact fun _ _ hu => hu.relaunch
  · exact fun _ _ hu => hu.resumeOp
  · exact fun _ _ hu => hu.settleDeque
  · exact fun _ _ hu => hu.moveDeque

theorem State.Canonical.execClusterRestore {c : Cid} {cores : List Nat} {s : State} (h : s.Canonical) :
    (execClusterRestore c cores s).Canonical := by
  unfold Machine.execClusterRestore
  split
  · next k _ hl _ => exact ((h.restoreCluster (h.findCluster k hl)).ite h).next
  · exact h.next

theorem State.Canonical.execClusterPlaceAfresh {c : Cid} {cores : List Nat} {s : State} (h : s.Canonical) :
    (execClusterPlaceAfresh c cores s).Canonical := by
  unfold Machine.execClusterPlaceAfresh
  split
  · exact (h.placeCluster.ite h).next
  · exact h.next

theorem State.Canonical.execDebugRelease {c : Cid} {s : State} (h : s.Canonical) :
    (execDebugRelease c s).Canonical := by
  unfold Machine.execDebugRelease
  split
  · exact h.next
  · next k hk => exact ((h.setCluster (h.findCluster k hk)).ite h).next

theorem State.Canonical.servePages {s : State} {c : Cid} {ok : Bool} (h : s.Canonical) :
    (servePages s c ok).Canonical := h.mapThreads.same

theorem State.Canonical.execPagesPresentReport {c : Cid} {ok : Bool} {s : State} (h : s.Canonical) :
    (execPagesPresentReport c ok s).Canonical := by
  unfold Machine.execPagesPresentReport
  split
  · exact h.servePages.next
  · next k hk =>
      split
      · exact (h.servePages.ite ((h.servePages.setCluster (h.findCluster k hk)).ite (h.servePages.mapThreads.same.setCluster (h.findCluster k hk)))).next
      · exact (h.servePages.ite (h.servePages.readArgs.ite (h.servePages.setCluster (h.findCluster k hk)))).next
      · exact h.servePages.next

theorem State.Canonical.execSpillLimitService {c : Cid} {team tid : Nat} {rslim : Option DWord} {s : State} (h : s.Canonical) :
    (execSpillLimitService c team tid rslim s).Canonical := by
  unfold Machine.execSpillLimitService
  split
  · next k _ _ ht _ _ =>
      split
      · split
        · exact h.next
        · split
          · exact (h.mapThreads.setCluster (h.findCluster k ht)).next
          · split
            · exact h.next
            · exact (h.fwStore.mapThreads.ite (h.fwStore.mapThreads.setCluster (h.findCluster k ht))).next
      · exact h.next
  · exact h.next

theorem State.Canonical.moveHeap {s : State} {lid : Nat} (h : s.Canonical) :
    (moveHeap s lid).Canonical := by
  unfold Machine.moveHeap
  split
  · exact h
  · exact h.ite h.same.setLaunch

theorem State.Canonical.frameCounters {s : State} {t : Tid} (h : s.Canonical) :
    (frameCounters s t).Canonical := by
  unfold Machine.frameCounters
  split
  · exact h.fwStore.ite h
  · exact h

theorem State.Canonical.endPartSaved {s : State} {die : Nat} {o : CollOp} {err : Nat} (h : s.Canonical) :
    (endPartSaved s die o err).Canonical := by
  unfold Machine.endPartSaved
  split
  · exact h.endPart
  · exact h.endPart.frameCounters

theorem State.Canonical.execCollectivePartComplete {die slot : Nat} {err : Byte} {s : State} (h : s.Canonical) :
    (execCollectivePartComplete die slot err s).Canonical := by
  unfold Machine.execCollectivePartComplete
  split
  · exact h.next
  · split
    · exact h.next
    · split
      · exact (h.ite h.setColl).next
      · exact (h.ite h.endPartSaved).next
      · exact h.endPartSaved.next

/-! ## Special functions -/

theorem State.Canonical.sfuOp {s : State} {f : FmtC} {fn : Sfu} (h : s.Canonical) :
    (sfuOp s f fn).Canonical := h.guarded fun _ hu => hu.issueOp

end Sys2Proof.Machine

end

-- ==== Sys2Proof/Proofs/StepKeepsCanonical.lean ====

section

/-!
Every instruction and every step keeps the memories in canonical form (O7).
-/

-- Many short proofs: elaborated one after another, they need one stack and not one each.
set_option Elab.async false

namespace Sys2Proof.Machine

/-! ## Every instruction -/

theorem State.Canonical.exec {i : Instr} {s : State} (h : s.Canonical) :
    Out.Canonical (exec i s) := by
  unfold Machine.exec
  cases i with
  | nop | hint => exact h.retire
  | add | sub | mul | mulh | div | rem | min | max | and | or | xor | andn | shl | shr | sar | rot | bfx | lea => exact h.binOp
  | mad | bfi | sel | lea64 | mov64 | movi | icmp | icmp64 | icmpImm | pnot | pmov | fadd | fsub | fmul | ffma | fmin | fmax
  | fabs | fneg | fcls | frnd | fcmp | fcvt | fcvtSat | hadd2 | hmul2 | hfma2 | pkq | upk => exact h.regOp
  | abs | neg | not | clz | popc | brev | mov => exact h.unOp
  | add64 | sub64 => exact h.pairOp
  | addImm | andImm | orImm | xorImm | shlImm | shrImm | sarImm => exact h.immOp
  | pand | por | pxor => exact h.predOp
  | bra | brm | jmp => exact h.guarded fun _ hu => hu.branchTo
  | call | callr => exact h.guarded fun _ hu => hu.callTo
  | ret => exact h.execRet
  | exit => exact h.guarded fun _ hu => hu.leave
  | loop => exact h.execLoop
  | lexit => exact h.guarded fun _ hu => hu.illegal.ite hu.skipTo
  | rpt => exact h.execRpt
  | wait | cmt => exact h.guarded fun _ hu => hu.issued.goOn.modCtx.next
  | yld => exact h.guarded fun _ hu => hu.issued.goOn.modTh.next
  | brk | trap => exact h.guarded fun _ hu => hu.raiseCode
  | crd => exact h.guarded fun _ hu => hu.modCtx.retire
  | cwr | spec => exact h.guarded fun _ hu => hu.oldest fun _ hu1 => hu1.modTh.retire
  | tret => exact h.execTret
  | qblk | dqblk => exact h.illegal.ite h.arriveGroup
  | rcp | rsq | sqrt | ex2 | lg2 | sinpi | cospi | tanh | sigm | gelu | silu | erf => exact h.sfuOp
  | ldN8 | ldS8 | ldN16 | ldS16 | ldB32 | ldB64 | ldB128 => exact h.loadOp
  | stB8 | stB16 | stB32 | stB64 | stB128 => exact h.storeOp
  | atomAdd | atomMin | atomMax | atomAnd | atomOr | atomXor | atomExch | atomCas | atomFadd => exact h.atomOp
  | red => exact h.guarded fun _ hu => hu.issueIrrev
  | shfl | vote | gred | gscan | gsync | mmaBf16 | mmaF16 | mmaE4m3 | mmaE5m2 | mmaT8 | mmaT6 | mmaMx8 | mmaMx6 | mmaMx4
  | mmaI8 | accZero | accLd | accSt | accRd | accWr | accCvt => exact h.arriveGroup
  | tbar => exact h.execTbar
  | cbar => exact h.execCbar
  | tqPush => exact h.guarded fun _ hu => (hu.setExt.ite hu).tqIssue
  | tqPop | tqSteal => exact h.guarded fun _ hu => hu.tqIssue
  | xcp | xcpq => exact h.copyOp
  | barInit | barExp | barArr => exact h.barAccess
  | barWait => exact h.execBarWait
  | barTest => exact h.execBarTest
  | rlq => exact h.guarded fun _ hu => hu.raiseCode.ite hu.issueOp
  | mcst => exact h.execMcst
  | mcldRed => exact h.execMcldRed
  | collArm => exact h.execCollArm
  | collWait | shfWait => exact h.collWaitOp
  | shfSide => exact h.execShfSide
  | shfPost => exact h.execShfPost
  | unassignedOpcode => exact h.illegal
  | ageingIssue => exact h.execAgeingIssue
  | mergeHoldTimeout => exact h.execMergeHoldTimeout
  | yieldExpiry => exact h.execYieldExpiry
  | rendezvousIssue => exact h.execRendezvousIssue
  | divergenceWaitLimit => exact h.execDivergenceWaitLimit
  | loadComplete => exact (h.onThread fun _ hu => hu.loadHead).next
  | storePerform => exact (h.onThread fun _ hu => hu.storeHead).next
  | atomicPerform => exact (h.onThread fun _ hu => hu.atomHead).next
  | instructionCompletion => exact (h.onThread fun _ hu => hu.completeOp).next
  | parkedLoadResume => exact (h.onThread fun _ hu => hu.resumeParked).next
  | conflictNotice => exact (h.onThread fun _ hu => hu.rollback.ite hu).next
  | ownedWaitExpiry => exact h.execOwnedWaitExpiry
  | deferredTrapTaken => exact (h.onThread fun _ hu => hu.trapHead).next
  | debugRelease => exact h.execDebugRelease
  | pagesPresentReport => exact h.execPagesPresentReport
  | spillLimitService => exact h.execSpillLimitService
  | preemptRequest => exact h.execPreemptRequest
  | clusterRestore => exact h.execClusterRestore
  | clusterPlaceAfresh => exact h.execClusterPlaceAfresh
  | launchRecordTake => exact h.execLaunchRecordTake
  | clusterClaim => exact h.execClusterClaim
  | clusterRetire => exact h.execClusterRetire
  | launchEnd => exact h.writeLaunchEnd.next
  | scratchpadPageRefill => exact h.execScratchpadPageRefill
  | eccFatalState => exact h.teamEcc.next
  | pageWalk => exact h.execPageWalk
  | tlbInvalidate => exact h.writeInv.next
  | invalidateComplete => exact h.next.ite h.same.same.next
  | llcEviction => exact (h.withMem h.mem.evict).next
  | mirrorWriteApply => exact (h.onThread fun _ hu => hu.mirrorHead).next
  | migrationLock | scrub => exact (h.same.ite h).next
  | migrationSwitch => exact h.execMigrationSwitch
  | copyLaunchPoint => exact (h.onThread fun _ hu => hu.launchHead).next
  | copyTransferStep => exact h.execCopyTransferStep
  | engineCountUpdate => exact h.execEngineCountUpdate
  | copyComplete => exact h.execCopyComplete
  | copyLateFail => exact h.execCopyLateFail
  | mmaStart => exact h.execMmaStart
  | mmaLastSliceRead => exact h.execMmaLastSliceRead
  | mmaComplete => exact h.execMmaComplete
  | accLdComplete => exact h.execAccLdComplete
  | accTileReadEnd => exact h.execAccTileReadEnd
  | accSectorLanded => exact h.execAccSectorLanded
  | accDrainComplete => exact h.execAccDrainComplete
  | chainStartTileWait => exact h.execChainStartTileWait
  | keyInstall => exact h.execKeyInstall
  | keyDestroy => exact h.execKeyDestroy
  | keyDestroyReceipt => exact h.next.ite h.same.endKcmd.next
  | rtoctlWrite => exact h.writeTlog.next
  | prismbufWrite => exact h.writePrism.next
  | prismbufApply | attestationRequest | sideEvict => exact h.same.next
  | pcapWrite => exact h.writePcap.next
  | loupeClear | loupeSample => exact h.mapLoupe.next
  | controlRegisterWrite => exact h.execControlRegisterWrite
  | hartLoad => exact h.execHartLoad
  | hartStore => exact h.execHartStore
  | hartAmo => exact h.execHartAmo
  | coreClockCycle => exact h.next.ite h.setCore.same.next
  | softError => exact h.execSoftError
  | telemetrySample => exact h.same.settleClock.next
  | thermalTrip => exact (h.same.settleClock.ite h).next
  | powerGood => exact (h.ite h.bringUp).next
  | collectiveFire => exact h.execCollectiveFire
  | collectivePartComplete => exact h.execCollectivePartComplete
  | shuffleStart => exact h.execShuffleStart
  | read => exact h.execRead
  | write | multicastWrite => exact (h.ite (h.countDrop.ite h.writeInbound)).next
  | atomic => exact h.execAtomic
  | response => exact (h.ite (h.onRequest fun _ _ hu => hu.landAnswer)).next
  | remoteFaultResponse => exact h.execRemoteFaultResponse
  | remoteTimeout => exact h.execRemoteTimeout
  | watchRegister => exact h.execWatchRegister
  | watchRelease => exact (h.ite (h.same.answer.ite h.same)).next
  | remoteConflictNotice => exact (h.ite h.noticePeers).next
  | loadAndReduce => exact h.execLoadAndReduce
  | collectiveData => exact h.execCollectiveData
  | shuffleUnitUncoded => exact h.execShuffleUnitUncoded
  | shuffleUnitCoded => exact h.execShuffleUnitCoded
  | sideDeclare | peerRejoin => exact (h.ite h.same).next
  | decodeReserve => exact h.execDecodeReserve
  | reserveGrant => exact h.execReserveGrant
  | fallbackRequest => exact h.execFallbackRequest
  | reservedFlitDrop => exact (h.countDrop.ite h).next
  | laneStop | laneGo | portTrain => exact (h.setPort.ite h).next
  | flitRetry => exact h.execFlitRetry
  | linkTrained => exact ((h.setPort.same.ite h.setPort).ite h).next
  | joinCleanReport => exact (h.setPort.same.ite h).next
  | linkDown => exact (h.ite h.portDown).next
  | peerAbsent => exact h.execPeerAbsent

/-! ## Issue -/

theorem State.Canonical.issueInstr {s : State} (h : s.Canonical) :
    (issueInstr s).Canonical := by
  unfold Machine.issueInstr
  split
  · exact h.fetchTrap
  · split
    · exact h.illegal
    · split
      · exact h.fetchTrap
      · split
        · exact h.next
        · split
          · exact h.illegal
          · exact h.exec

theorem State.Canonical.issuePrefixed {s : State} (h : s.Canonical) :
    (issuePrefixed s).Canonical := by
  unfold Machine.issuePrefixed
  split
  · next hu =>
      split
      · exact (h.issueInstr _ hu).issueInstr
      · exact (h.issueInstr _ hu).next
  · exact h.issueInstr

theorem State.Canonical.issueThread {s : State} (h : s.Canonical) :
    (issueThread s).Canonical := by
  unfold Machine.issueThread
  split
  · exact h.next
  · split
    · exact h.enterHandler.next
    · split
      · exact (h.modTh.takeExc.ite h).next
      · split
        · split
          · next hu =>
              split
              · exact (h.enterClause _ hu).issuePrefixed
              · exact (h.enterClause _ hu).next
          · exact h.enterClause
        · exact h.issuePrefixed

/-! ## What the device does by itself -/

theorem State.Canonical.focusIssue {s : State} {t : Tid} (h : s.Canonical) :
    (focusIssue s t).Canonical := by
  unfold Machine.focusIssue
  split
  · exact h.next
  · next hu => exact (h.focus _ hu).issueThread

theorem State.Canonical.nextOr {s : State} {o : Out} (h : s.Canonical) (ho : o.Canonical) : (nextOr s o).Canonical := by
  unfold Machine.nextOr
  split
  · exact ho _ rfl
  · exact h
  · exact h

theorem State.Canonical.tickCore {s : State} {core : Nat} (h : s.Canonical) :
    (tickCore s core).Canonical := (h.nextOr h.exec).pickPort.pickPort

theorem State.Canonical.runOwn {s : State} {f : Flit} (h : s.Canonical) :
    (runOwn s f).Canonical := by
  unfold Machine.runOwn
  split
  · exact h
  · exact h.ite (h.same.nextOr h.same.exec).same

theorem State.Canonical.launchMove {s : State} {lid : Nat} (h : s.Canonical) :
    (launchMove s lid).Canonical := h.moveHeap.ite h.tryComplete

theorem State.Canonical.runMove {s : State} {m : Move} (h : s.Canonical) :
    (runMove s m).Canonical := by
  unfold Machine.runMove
  split
  · exact h.nextOr h.exec
  · exact h.tickCore
  · exact h.runOwn
  · exact h.readArgs
  · exact h.stopMove
  · exact h.terminate
  · exact h.nextOr h.execRemoteTimeout
  · exact h.fwStep
  · split
    · exact h
    · exact h.foreignEvent
  · exact h.sendFlit
  · exact h.heardFrom
  · exact h.launchMove
  · exact h.postMove
  · exact h.headMove
  · exact h.onThread fun _ hu => hu.landGroup

theorem State.Canonical.autoStep {s : State} (h : s.Canonical) :
    (autoStep s).Canonical := by
  unfold Machine.autoStep
  split
  · exact h.next
  · exact h.same.runMove.next

theorem State.Canonical.deviceStep {s : State} (h : s.Canonical) :
    (deviceStep s).Canonical := by
  unfold Machine.deviceStep
  split
  · exact h.same.focusIssue
  · split
    · exact h.exec
    · split
      · exact h.same.exec
      · exact h.autoStep

/-- Settles O7: `deviceStep` keeps the form (`State.Canonical.deviceStep`), as every function it calls does. -/
theorem stepKeepsCanonical : Obligations.StepKeepsCanonical :=
  fun _ _ h e => h.deviceStep _ e
end Sys2Proof.Machine

end

-- ==== Sys2Proof/Proofs/StorePerforms.lean ====

section

/-!
The performing of a store (R166, R216, R219, R243, R361, R376): the store of a thread's only access leaves the bytes of `pokeLoc`,
and `pokeLoc` writes the bytes of its location alone.
-/

namespace Sys2Proof.Machine

/-! ## What a write at a location leaves of each byte -/

/-- R219: in one sector of the writer's key, a write to HBM is a plain store. -/
theorem pokeLoc_hbm (s : State) (die : Nat) {gen pa : Nat} (bs : List Byte)
    (h : ∀ g, keyGet s.mem.tags (sectorOf pa) = some g → g = gen) :
    (pokeLoc s die gen (.hbm pa false) bs).mem.hbm = Mem.store s.mem.hbm pa bs := physStore_plain s.mem die gen pa bs h

theorem pokeLoc_spad {s : State} {c : Cid} {i : Nat} {v : Slot} (die gen off : Nat) (bs : List Byte) (h : findSlot s c i = some v) :
    pokeLoc s die gen (.spad c i off) bs = setSlot s c i (v.write off bs) := by
  simp only [pokeLoc, h]

theorem setSlot_mem (s : State) (c : Cid) (i : Nat) (v : Slot) : (setSlot s c i v).mem = s.mem := by
  unfold setSlot
  split <;> rfl

theorem spadByte_of_findSlot {s : State} {c : Cid} {i : Nat} {v : Slot} (h : findSlot s c i = some v) (o : Nat) :
    s.spadByte c i o = Mem.get v.bytes o := by
  rw [State.spadByte, h]

/-- The bytes that a write to HBM, in one sector of its own key, leaves. -/
theorem pokeLoc_hbm_bytes {s : State} {gen pa : Nat} (die : Nat) (bs : List Byte) (hs : s.Canonical)
    (h : ∀ g, keyGet s.mem.tags (sectorOf pa) = some g → g = gen) :
    (∀ k, k < bs.length → (pokeLoc s die gen (.hbm pa false) bs).hbmByte (pa + k) = bs.getD k 0)
      ∧ (∀ b, b < pa ∨ pa + bs.length ≤ b → (pokeLoc s die gen (.hbm pa false) bs).hbmByte b = s.hbmByte b)
      ∧ ∀ c k o, (pokeLoc s die gen (.hbm pa false) bs).spadByte c k o = s.spadByte c k o := by
  have hb : ∀ b, (pokeLoc s die gen (.hbm pa false) bs).hbmByte b = Mem.get (Mem.store s.mem.hbm pa bs) b := fun b => by
    rw [State.hbmByte, pokeLoc_hbm s die bs h]
  refine ⟨fun k hk => ?_, fun b hd => ?_, fun _ _ _ => rfl⟩
  · rw [hb, Mem.get_store_same hs.hbm pa bs k hk]
  · rw [hb, Mem.get_store_other hs.hbm pa bs b hd, State.hbmByte]

/-- The bytes that a write to a scratchpad leaves. -/
theorem pokeLoc_spad_bytes {s : State} {c : Cid} {i : Nat} {v : Slot} (die gen off : Nat) (bs : List Byte) (hs : s.Canonical)
    (h : findSlot s c i = some v) :
    (∀ k, k < bs.length → (pokeLoc s die gen (.spad c i off) bs).spadByte c i (off + k) = bs.getD k 0)
      ∧ (∀ b, b < off ∨ off + bs.length ≤ b → (pokeLoc s die gen (.spad c i off) bs).spadByte c i b = s.spadByte c i b)
      ∧ (∀ d j b, d ≠ c ∨ j ≠ i → (pokeLoc s die gen (.spad c i off) bs).spadByte d j b = s.spadByte d j b)
      ∧ ∀ b, (pokeLoc s die gen (.spad c i off) bs).hbmByte b = s.hbmByte b := by
  have hv : v.Canonical := hs.findSlot v h
  rw [pokeLoc_spad die gen off bs h]
  have hb := spadByte_of_findSlot (findSlot_setSlot (v.write off bs) h)
  refine ⟨fun k hk => ?_, fun b hd => ?_, fun d j b hd => ?_, fun b => ?_⟩
  · rw [hb]
    exact Mem.get_store_same hv off bs k hk
  · rw [hb, spadByte_of_findSlot h]
    exact Mem.get_store_other hv off bs b hd
  · rw [State.spadByte, findSlot_setSlot_other s _ hd, State.spadByte]
  · rw [State.hbmByte, setSlot_mem, State.hbmByte]

/-! ## The store of a thread's only access -/

section

variable {s : State} {a : Access} {bs : List Byte} {loc : Loc}

theorem dropRequest_mem (s : State) (a : Access) : (dropRequest s a).mem = s.mem := by
  unfold dropRequest
  split <;> rfl

theorem dropRequest_clusters (s : State) (a : Access) : (dropRequest s a).clusters = s.clusters := by
  unfold dropRequest
  split <;> rfl

/-- The end of a thread's only access: it is committed and gone, its request and its counter released. -/
theorem finishHead_single_eq (h : s.th.accs = [a]) :
    finishHead s = modTh (dropRequest (committed s a) a) fun t => dcDrop { t with accs := [], gov := none } a.dc := by
  have ha : (committed s a).th.accs = [a] := by
    rw [committed_same s a]
    exact h
  have hf : finishHead s = settle (dropHead (committed s a)) := by
    unfold finishHead
    rw [h]
    rfl
  rw [hf, dropHead_single ha, settle_nil (by rw [modTh_th, dcDrop_same])]

/-- It changes no memory and no cluster. -/
theorem finishHead_single_device (h : s.th.accs = [a]) :
    (finishHead s).mem = s.mem ∧ (finishHead s).clusters = s.clusters := by
  have hc := committed_same s a
  rw [finishHead_single_eq h]
  refine ⟨(dropRequest_mem _ a).trans ?_, (dropRequest_clusters _ a).trans ?_⟩
  · rw [hc]
    rfl
  · rw [hc]
    rfl

theorem deliver_accs_single (seq : Nat) (f : Ctx → Ctx) (h : s.th.accs = [a]) :
    (deliver s seq f).th.accs = [{ a with snap := (if seq < a.seq then f a.snap else a.snap) }] := by
  by_cases hq : seq < a.seq <;> simp [deliver, patchSnaps, modTh, h, hq]

theorem performWrite_go {rmw : Bool} {f : List Byte → List Byte × (Ctx → Ctx)} (hl : a.loc = some loc) (hp : loc.isPeer = false)
    (hg : writeGate s a loc rmw = .go) :
    performWrite s a rmw f =
      let die := writeDie s a rmw loc
      let r := f (peekLoc s (if rmw then die else s.th.place.die) (thGen s s.th) loc a.kind.size)
      finishHead (deliver (writeLoc s (some s.th.id) die (thGen s s.th) loc r.1) a.seq r.2) := by
  cases loc with
  | peer d o own => cases hp
  | hbm pa mir => simp only [performWrite, hl, hg]
  | spad c i off => simp only [performWrite, hl, hg]

/-- What the write of a thread's only access leaves: the bytes of `pokeLoc`, and what the write gives the registers. -/
theorem performWrite_completes {rmw : Bool} {f : List Byte → List Byte × (Ctx → Ctx)} (h : s.th.accs = [a]) (hl : a.loc = some loc)
    (hp : loc.isPeer = false) (hg : writeGate s a loc rmw = .go) :
    let die := writeDie s a rmw loc
    let r := f (peekLoc s (if rmw then die else s.th.place.die) (thGen s s.th) loc a.kind.size)
    let t := performWrite s a rmw f
    t.th.accs = [] ∧ t.mem = (pokeLoc s die (thGen s s.th) loc r.1).mem
      ∧ t.clusters = (pokeLoc s die (thGen s s.th) loc r.1).clusters ∧ t.th.ctx = r.2 s.th.ctx := by
  intro die r t
  have hw := writeLoc_th s (some s.th.id) die (thGen s s.th) loc r.1
  have hd := deliver_accs_single a.seq r.2 ((congrArg Thread.accs hw).trans h)
  have ht : t = finishHead (deliver (writeLoc s (some s.th.id) die (thGen s s.th) loc r.1) a.seq r.2) := performWrite_go hl hp hg
  rw [ht]
  obtain ⟨haccs, hctx, -, -⟩ := finishHead_single hd
  obtain ⟨hmem, hcl⟩ := finishHead_single_device hd
  refine ⟨haccs, hmem.trans (writeLoc_mem ..), hcl.trans (writeLoc_clusters ..), hctx.trans ?_⟩
  show r.2 (writeLoc s (some s.th.id) die (thGen s s.th) loc r.1).th.ctx = r.2 s.th.ctx
  rw [hw]

theorem headAcc_single (h : s.th.accs = [a]) (hs : a.spec = false) (hf : a.fault = none) : headAcc s = some a := by
  simp [headAcc, h, hs, hf]

theorem storeBytes_store (s : State) (hk : a.kind = .store bs) : storeBytes s a = performWrite s a false fun _ => (bs, id) := by
  rw [storeBytes, hk]

/-- STORE_PERFORM of a thread's only access, or MIRROR_WRITE_APPLY of one on a mirror page, performs its write. -/
theorem exec_store_event (h : s.th.accs = [a]) (hs : a.spec = false) (hf : a.fault = none) (hk : a.kind = .store bs) :
    exec (if isMirror a.loc then .mirrorWriteApply s.th.id else .storePerform s.th.id) s
      = .next (performWrite s a false fun _ => (bs, id)) := by
  cases hm : isMirror a.loc with
  | false =>
    show execStorePerform s.th.id s = _
    rw [execStorePerform, onThread_self, storeHead, headAcc_single h hs hf]
    simp only [hm, storeBytes_store s hk, Bool.false_eq_true, if_false]
  | true =>
    have ha : ∀ u : State, atomBytes u a = u := fun u => by rw [atomBytes, hk]
    show execMirrorWriteApply s.th.id s = _
    rw [execMirrorWriteApply, onThread_self, mirrorHead, headAcc_single h hs hf]
    simp only [hm, if_true, ha, mirrorHead.storeBytesOr, hk, storeBytes_store s hk]

/-- R376: a store to a peer sends its request. -/
theorem performWrite_peer {d o : Nat} {own : Option Nat} (h : s.th.accs = [a]) (hk : a.kind = .store bs)
    (hl : a.loc = some (.peer d o own)) (hn : a.serial = none) (f : List Byte → List Byte × (Ctx → Ctx)) :
    performWrite s a false f = modTh (sendRequest s a.seq d o (0x02, bs.length, bs)).1
      fun t => { t with accs := [{ a with serial := some s.fab.nextSerial }] } := by
  simp [performWrite, hk, hl, hn, AccKind.request, modHead, modTh, sendRequest, h]

/-- What the event of a store leaves, at any location that is not a peer's. -/
theorem exec_store_completes (h : s.th.accs = [a]) (hs : a.spec = false) (hf : a.fault = none) (hk : a.kind = .store bs)
    (hl : a.loc = some loc) (hp : loc.isPeer = false) (hg : writeGate s a loc false = .go) :
    ∃ t : State, exec (if isMirror a.loc then .mirrorWriteApply s.th.id else .storePerform s.th.id) s = .next t ∧ t.th.accs = []
      ∧ t.mem.hbm = (pokeLoc s (writeDie s a false loc) (thGen s s.th) loc bs).mem.hbm
      ∧ t.clusters = (pokeLoc s (writeDie s a false loc) (thGen s s.th) loc bs).clusters
      ∧ SameRegsBut [] s t ∧ SamePredsBut [] s t := by
  obtain ⟨haccs, hmem, hcl, hctx⟩ := performWrite_completes (f := fun _ => (bs, id)) h hl hp hg
  exact ⟨_, exec_store_event h hs hf hk, haccs, congrArg MemSys.hbm hmem, hcl, fun r _ => congrArg (·.reg r) hctx,
    fun p _ => congrArg (·.pred p) hctx⟩

end

/-- Settles O39: the store leaves the bytes of `pokeLoc` (`exec_store_completes`), whose bytes `pokeLoc_hbm_bytes` and
`pokeLoc_spad_bytes` say; one to a peer sends its request (`performWrite_peer`). -/
theorem storePerforms : Obligations.StorePerforms := by
  unfold Obligations.StorePerforms
  intro s a bs loc hc h hs hf hk hl
  refine ⟨fun hg => ⟨?_, ?_, fun hp => exec_store_completes h hs hf hk hl hp hg⟩, ?_⟩
  · rintro pa rfl - hkey
    obtain ⟨t, ht, haccs, hmem, hcl, hregs, hpreds⟩ := exec_store_completes h hs hf hk hl rfl hg
    rw [hl] at ht
    have same := SameMemory.of_eq hmem hcl
    obtain ⟨hin, hout, hspad⟩ := pokeLoc_hbm_bytes (writeDie s a false (.hbm pa false)) bs hc hkey
    exact ⟨t, ht, haccs, fun k hk => (same.hbm _).trans (hin k hk), fun b hb => (same.hbm _).trans (hout b hb),
      fun c k o => (same.spad c k o).trans (hspad c k o), hregs, hpreds⟩
  · rintro c i o rfl hi
    obtain ⟨v, hv⟩ := Option.isSome_iff_exists.mp hi
    obtain ⟨t, ht, haccs, hmem, hcl, hregs, hpreds⟩ := exec_store_completes h hs hf hk hl rfl hg
    rw [hl] at ht
    have same := SameMemory.of_eq hmem hcl
    obtain ⟨hin, hout, hother, hhbm⟩ := pokeLoc_spad_bytes (writeDie s a false (.spad c i o)) (thGen s s.th) o bs hc hv
    exact ⟨t, ht, haccs, fun k hk => (same.spad c i _).trans (hin k hk), fun b hb => (same.spad c i b).trans (hout b hb),
      fun d j b hd => (same.spad d j b).trans (hother d j b hd), fun b => (same.hbm b).trans (hhbm b), hregs, hpreds⟩
  · rintro d o own rfl hn
    have ht := exec_store_event h hs hf hk
    rw [hl, performWrite_peer h hk hl hn] at ht
    exact ⟨_, _, ht, rfl, rfl, rfl, rfl, rfl, rfl, rfl, rfl, .of_eq rfl rfl⟩

end Sys2Proof.Machine

end

-- ==== Sys2Proof/Proofs/KeyCommands.lean ====

section

/-!
The key port (R217, R220, R221, R413): what the end of a command leaves of it, what an install and a clearing leave of the key slots,
and the three events.
-/

namespace Sys2Proof.Machine

/-! ## A command under way, and its end -/

/-- GO stands, with the operation `op` on the key id `id`. -/
def kcmdRuns (s : State) (op id : Nat) : Prop := s.ctl.kcmd.getLsbD 0 = true ∧ s.ctl.kcmdOp = op ∧ s.ctl.kcmdKey = id

theorem kcmdRuns_iff (s : State) (op id : Nat) :
    kcmdRuns s op id ↔ (s.ctl.kcmd.getLsbD 0 && s.ctl.kcmdOp == op && s.ctl.kcmdKey == id) = true := by
  simp only [kcmdRuns, Bool.and_eq_true, beq_iff_eq, and_assoc]

/-- The command has ended with status `n`, and nothing is being destroyed. -/
def kcmdEnded (t : State) (n : Nat) : Prop :=
  t.ctl.kcmd.getLsbD 0 = false ∧ t.ctl.kcmd.toNat / 2 ^ 16 % 256 = n ∧ t.ctl.kdata = List.replicate 64 0 ∧ t.ctl.destroying = false

/-- GO falls and STATUS reads the status given. -/
theorem endKcmd_ended (s : State) {n : Nat} (hn : n < 256) : kcmdEnded (endKcmd s n) n := by
  have e : (endKcmd s n).ctl.kcmd = (s.ctl.kcmd &&& 0x0000FFFE) ||| BitVec.ofNat 32 (n * 2 ^ 16) := rfl
  have hlt : n * 2 ^ 16 < 2 ^ 32 := by omega
  refine ⟨?_, ?_, rfl, rfl⟩
  · have h : (n * 2 ^ 16).testBit 0 = false := by
      rw [Nat.testBit_zero, decide_eq_false_iff_not]
      omega
    rw [e, BitVec.getLsbD_or, BitVec.getLsbD_and, BitVec.getLsbD_ofNat, h]
    simp
  · have hs : (n * 2 ^ 16) >>> 16 = n := by rw [Nat.shiftRight_eq_div_pow, Nat.mul_div_cancel _ (by decide)]
    rw [e, BitVec.toNat_or, BitVec.toNat_and, BitVec.toNat_ofNat, Nat.mod_eq_of_lt hlt, ← Nat.shiftRight_eq_div_pow,
      Nat.shiftRight_or_distrib, Nat.shiftRight_and_distrib, hs]
    simp [Nat.mod_eq_of_lt hn]

/-- The end of a command leaves memory, keys, thread and launches as they were. -/
theorem endKcmd_kept (s : State) (n : Nat) :
    (endKcmd s n).mem = s.mem ∧ (endKcmd s n).ctl.keys = s.ctl.keys ∧ (endKcmd s n).th = s.th
      ∧ (endKcmd s n).launches = s.launches := ⟨rfl, rfl, rfl, rfl⟩

/-! ## The key slots -/

theorem genOf_cons_self {s t : State} {id g : Nat} {key : List Byte} (h : t.ctl.keys = ⟨id, key, g⟩ :: s.ctl.keys) :
    genOf t id = some g := by
  simp [genOf, h]

theorem genOf_cons_other {s t : State} {id g j : Nat} {key : List Byte} (h : t.ctl.keys = ⟨id, key, g⟩ :: s.ctl.keys) (hj : j ≠ id) :
    genOf t j = genOf s j := by
  simp [genOf, h, Ne.symm hj]

theorem genOf_cleared_self {s t : State} {id : Nat} (h : t.ctl.keys = s.ctl.keys.filter fun k => k.id != id) : genOf t id = none := by
  simp [genOf, h]

theorem genOf_cleared_other {s t : State} {id j : Nat} (h : t.ctl.keys = s.ctl.keys.filter fun k => k.id != id) (hj : j ≠ id) :
    genOf t j = genOf s j := by
  have e : (fun k : KeySlot => decide ((k.id != id) = true ∧ (k.id == j) = true)) = fun k => k.id == j := by
    funext k
    by_cases hk : k.id = j <;> simp [hk, hj]
  rw [genOf, h, List.find?_filter, e, genOf]

/-! ## Install (R217, R413) -/

section

variable {s : State} {id : Nat}

theorem exec_keyInstall_idle (h : ¬kcmdRuns s 1 id) : exec (.keyInstall id) s = .next s := by
  rw [kcmdRuns_iff, Bool.not_eq_true] at h
  show execKeyInstall id s = _
  simp only [execKeyInstall, h, Bool.not_false, if_true]

/-- The state once the key in KDATA is installed under a generation of its own. -/
def keyInstalled (s : State) (id : Nat) : State :=
  { s with
    ctl := { s.ctl with keys := ⟨id, s.ctl.kdata, s.ctl.nextGen⟩ :: s.ctl.keys, nextGen := s.ctl.nextGen + 1,
                        key0Done := s.ctl.key0Done || id == 0 },
    mem := { s.mem with pairs := keyPut s.mem.pairs s.ctl.nextGen s.ctl.kdata } }

theorem keyInstalled_pair (s : State) (id : Nat) : (keyInstalled s id).mem.pair s.ctl.nextGen = s.ctl.kdata := by
  simp [MemSys.pair, keyInstalled, keyGet_keyPut]

theorem exec_keyInstall_runs (h : kcmdRuns s 1 id) :
    exec (.keyInstall id) s = .next (if id = 0 ∧ s.ctl.key0Done = true then endKcmd s 3
      else if (genOf s id).isSome then endKcmd s 2 else endKcmd (keyInstalled s id) 0) := by
  rw [kcmdRuns_iff] at h
  show execKeyInstall id s = _
  simp only [execKeyInstall, h, Bool.not_true, Bool.false_eq_true, if_false, Bool.and_eq_true, decide_eq_true_eq]
  split
  · rfl
  · split <;> rfl

/-! ## Destruction and its receipt (R169, R220, R221) -/

theorem exec_keyDestroy_idle (h : ¬kcmdRuns s 2 id ∨ s.ctl.destroying = true) : exec (.keyDestroy id) s = .next s := by
  rw [kcmdRuns_iff, Bool.not_eq_true] at h
  show execKeyDestroy id s = _
  rcases h with h | h <;> simp only [execKeyDestroy, h, Bool.not_false, Bool.true_or, Bool.or_true, if_true]

/-- The state once the slot of a key and its lines are cleared. -/
def keyCleared (s : State) (id : Nat) : State :=
  let ls := match genOf s id with
    | none => []
    | some g => s.mem.llc.filter fun l => l.gen == g
  { s with
    mem := ls.foldl discardLine s.mem,
    ctl := { s.ctl with keys := s.ctl.keys.filter fun k => k.id != id, destroying := true,
                        lines0 := linesOn ls 0, lines1 := linesOn ls 1 } }

theorem exec_keyDestroy_runs (h : kcmdRuns s 2 id) (hd : s.ctl.destroying = false) :
    exec (.keyDestroy id) s = .next (if id = 0 then endKcmd s 3 else if queuesReadable s = false then s
      else if keyInUse s id = true then endKcmd s 1 else keyCleared s id) := by
  rw [kcmdRuns_iff] at h
  show execKeyDestroy id s = _
  simp only [execKeyDestroy, h, hd, Bool.not_true, Bool.or_false, Bool.false_eq_true, if_false, Bool.not_eq_true']
  split
  · rfl
  · split
    · rfl
    · split <;> rfl

end

/-- Settles O57, an event at a time, by what ends it (`endKcmd_ended`) and what it leaves of the key slots. -/
theorem keyCommands : Obligations.KeyCommands := by
  unfold Obligations.KeyCommands
  intro s id c ended kept runs
  have finished : ∀ {i : Instr} {n : Nat}, n < 256 → exec i s = .next (endKcmd s n) →
      ∃ t, exec i s = .next t ∧ ended t n ∧ kept t :=
    fun hn e => ⟨_, e, endKcmd_ended s hn, endKcmd_kept s _⟩
  refine ⟨exec_keyInstall_idle, fun h => ?_, exec_keyDestroy_idle, fun h hd => ?_, fun hd => ?_, fun hd => ?_⟩
  · have e := exec_keyInstall_runs h
    refine ⟨fun h0 hdone => ?_, fun h0 hg => ?_, fun h0 hg => ?_⟩
    · rw [if_pos ⟨h0, hdone⟩] at e
      exact finished (by decide) e
    · rw [if_neg h0, if_pos (Option.isSome_iff_ne_none.mpr hg)] at e
      exact finished (by decide) e
    · rw [if_neg h0, if_neg (by simp [hg])] at e
      exact ⟨_, e, endKcmd_ended _ (by decide), genOf_cons_self (s := s) rfl, rfl, keyInstalled_pair s id,
        fun j hj => genOf_cons_other (s := s) rfl hj, .of_eq rfl rfl, rfl, rfl, rfl, rfl⟩
  · have e := exec_keyDestroy_runs h hd
    refine ⟨fun h0 => ?_, fun h0 hq => ?_, fun h0 hq hu => ?_, fun h0 hq hu => ?_⟩
    · rw [if_pos h0] at e
      exact finished (by decide) e
    · rw [if_neg h0, if_pos hq] at e
      exact e
    · rw [if_neg h0, if_neg (by simp [hq]), if_pos hu] at e
      exact finished (by decide) e
    · rw [if_neg h0, if_neg (by simp [hq]), if_neg (by simp [hu])] at e
      exact ⟨_, e, genOf_cleared_self (s := s) rfl, rfl, rfl, fun j hj => genOf_cleared_other (s := s) rfl hj, rfl, rfl⟩
  · show execKeyDestroyReceipt s = _
    simp only [execKeyDestroyReceipt, show s.ctl.destroying = false from hd, Bool.not_false, if_true]
  · have e : exec .keyDestroyReceipt s = execKeyDestroyReceipt s := rfl
    simp only [execKeyDestroyReceipt, show s.ctl.destroying = true from hd, Bool.not_true, Bool.false_eq_true, if_false] at e
    exact ⟨_, e, endKcmd_ended _ (by decide), endKcmd_kept _ 0, rfl, rfl⟩

end Sys2Proof.Machine

end

-- ==== Sys2Proof/Proofs/TaskQueues.lean ====

section

/-!
Task queues (R156 to R159, R171, R190, R191, R336): the issue of an operation, which may come after its cluster is marked as having
made an external effect, and what an operation does to the deque that it names.
-/

namespace Sys2Proof.Machine

/-! ## An issue after an external effect is recorded (R336) -/

/-- An access that joins a state with the thread and the bytes of `s` joins `s`. -/
theorem Joins.of_same {s u t : State} {a : Access} (hth : u.th = s.th) (hm : SameMemory s u) (j : Joins u t a) : Joins s t a := by
  obtain ⟨accs, ops, snap, iaddr, count, counter, others, preds, fpst, specials, memory⟩ := j
  have sp : SameSpecials s t := by
    obtain ⟨h1, h2, h3, h4, h5, h6, h7, h8, h9, h10, h11⟩ := specials
    rw [hth] at h1 h2 h3 h4 h5 h6 h7 h8 h9 h10 h11
    exact ⟨h1, h2, h3, h4, h5, h6, h7, h8, h9, h10, h11⟩
  rw [SamePredsBut, hth] at preds
  rw [hth] at accs ops snap iaddr count counter fpst
  exact ⟨accs, ops, snap, iaddr, count, counter, fun d hd => (others d hd).trans (by rw [hth]), preds, fpst, sp, hm.trans memory⟩

/-! ## The issue of a task-queue operation (R190, R191) -/

section

variable {s u : State} {op : TqOp} {st d : Reg} {look : Fin 16} {dc : Fin 7}

theorem tqIssue_waits (ha : s.th.accs ≠ []) : tqIssue s op st d look dc = .next s := oldest_some s _ ha

theorem tqIssue_raises (ha : s.th.accs = []) (hf : tqFails s op = true) :
    tqIssue s op st d look dc = raise s (.trap cEccFatal 0 0) := by
  rw [tqIssue, oldest_none s _ ha, if_pos hf]
  rfl

/-- The operation joins its thread, also where its cluster was just marked as having made an external effect. -/
theorem tqIssue_joins (hth : u.th = s.th) (hm : SameMemory s u) (ha : s.th.accs = []) (hf : tqFails u op = false) :
    ∃ (t : State) (a : Access), tqIssue u op st d look dc = .next t ∧ Joins s t a ∧ SameRegsBut [] s t ∧ a.dc = dc ∧ a.kind = .tq op st d
      ∧ a.spec = false ∧ a.fault = none := by
  have hu : u.th.accs = [] := (congrArg Thread.accs hth).trans ha
  obtain ⟨t, ht, hj, hr, -⟩ := pushAcc_joins u (newAcc u (.tq op st d) 0 none dc look.val 0 false) (levelFor u.th u.th.ctx.pc).1
    (levelFor u.th u.th.ctx.pc).2 rfl rfl
  refine ⟨t, _, ?_, hj.of_same hth hm, fun r hr' => (hr r hr').trans (by rw [hth]), rfl, rfl, rfl, rfl⟩
  rw [tqIssue, oldest_none u _ hu, if_neg (by simp [hf])]
  exact ht

end

/-- Is the push to a slot other than the thread's own (R336)? -/
def pushFar (s : State) (c : Reg) : Bool := match slotArg s.th.ctx c with
  | none => false
  | some n => n != s.th.place.slot

theorem exec_tqPush {s : State} {f : FmtC} (c : Reg) (hp : s.th.ctx.pred f.p = true) :
    exec (.tqPush f c) s = tqIssue (if pushFar s c && s.th.accs.isEmpty then setExt s else s)
      (.push (slotArg s.th.ctx c) (entryOf s.th.ctx f.a)) f.d 0 f.look f.dc := by
  show execTqPush f c s = _
  rw [execTqPush, guarded_true s f.p _ hp]
  rfl

theorem exec_tqPop {s : State} {f : FmtC} (c : Reg) (hp : s.th.ctx.pred f.p = true) :
    exec (.tqPop f.p f.d f.look f.dc c) s = tqIssue s .pop c f.d f.look f.dc := by
  show execTqPop f.p f.d f.look f.dc c s = _
  rw [execTqPop, guarded_true s f.p _ hp]

theorem exec_tqSteal {s : State} {f : FmtC} (c : Reg) (hp : s.th.ctx.pred f.p = true) :
    exec (.tqSteal f c) s = tqIssue s (.steal (slotArg s.th.ctx f.a)) c f.d f.look f.dc := by
  show execTqSteal f c s = _
  rw [execTqSteal, guarded_true s f.p _ hp]

/-! ## Deques (R156 to R159) -/

section

variable {s : State} {e : Vector Word 4} {n k : Nat}

theorem ownedBy_iff (s : State) (k lid : Nat) : ownedBy s k lid = true ↔ (getCore s k).owner = some lid := by
  rw [ownedBy, beq_iff_eq]

/-- R157: with task queues disabled nothing else is judged. -/
theorem tqApply_disabled (h : s.th.place.tq = false) (op : TqOp) : tqApply s op = (s, 2, none) := by
  simp [tqApply, h]

variable (h : s.th.place.tq = true)
include h

theorem tqApply_pop_foreign (ho : (getCore s s.th.place.core).owner ≠ some s.th.id.lid) : tqApply s .pop = (s, 2, none) := by
  rw [ne_eq, ← ownedBy_iff] at ho
  simp only [tqApply, h, ho]
  simp

theorem tqApply_push_foreign (ho : (getCore s s.th.place.core).owner ≠ some s.th.id.lid) :
    tqApply s (.push none e) = (s, 2, none) := by
  rw [ne_eq, ← ownedBy_iff] at ho
  simp [tqApply, h, tqCore, ho]

theorem tqApply_pop_empty (ho : (getCore s s.th.place.core).owner = some s.th.id.lid) (hd : (getCore s s.th.place.core).deque = []) :
    tqApply s .pop = (s, 0, none) := by
  rw [← ownedBy_iff] at ho
  simp [tqApply, h, ho, hd]

theorem tqApply_pop (ho : (getCore s s.th.place.core).owner = some s.th.id.lid)
    (hd : (getCore s s.th.place.core).deque.getLast? = some e) :
    tqApply s .pop = (setCore s s.th.place.core (getCore s s.th.place.core).popTask, 1, some e) := by
  rw [← ownedBy_iff] at ho
  simp [tqApply, h, ho, hd]

theorem tqApply_push (ho : (getCore s s.th.place.core).owner = some s.th.id.lid) :
    tqApply s (.push none e) = if 512 ≤ (getCore s s.th.place.core).deque.length then (s, 0, none)
      else (setCore s s.th.place.core ((getCore s s.th.place.core).pushTask e), 1, none) := by
  rw [← ownedBy_iff] at ho
  simp only [tqApply, tqCore, h, ho, Bool.not_true, Bool.false_eq_true, if_false]
  rfl

theorem tqApply_steal_none (hk : tqCore s (some n) = none) : tqApply s (.steal (some n)) = (s, 4, none) := by
  simp [tqApply, h, hk]

theorem tqApply_steal_foreign (hk : tqCore s (some n) = some k) (ho : (getCore s k).owner ≠ some s.th.id.lid) :
    tqApply s (.steal (some n)) = (s, 2, none) := by
  rw [ne_eq, ← ownedBy_iff] at ho
  simp [tqApply, h, hk, ho]

theorem tqApply_steal_empty (hk : tqCore s (some n) = some k) (ho : (getCore s k).owner = some s.th.id.lid)
    (hd : (getCore s k).deque = []) : tqApply s (.steal (some n)) = (s, 0, none) := by
  rw [← ownedBy_iff] at ho
  simp [tqApply, h, hk, ho, hd]

theorem tqApply_steal {r : List (Vector Word 4)} (hk : tqCore s (some n) = some k) (ho : (getCore s k).owner = some s.th.id.lid)
    (hd : (getCore s k).deque = e :: r) :
    ∃ u, tqApply s (.steal (some n)) = (u, 1, some e) ∧ (getCore u k).deque = r := by
  rw [← ownedBy_iff] at ho
  refine ⟨setCore s k (getCore s k).stealTask, by simp [tqApply, h, hk, ho, hd], ?_⟩
  rw [getCore_setCore, Core.stealTask, hd]
  rfl

/-- R159: an entry pushed to a deque with room is the one that its owner's pop then takes. -/
theorem tqApply_push_pop (ho : (getCore s s.th.place.core).owner = some s.th.id.lid)
    (hl : (getCore s s.th.place.core).deque.length < 512) :
    ∃ t, tqApply s (.push none e) = (t, 1, none)
      ∧ (getCore t s.th.place.core).deque = (getCore s s.th.place.core).deque ++ [e]
      ∧ ∃ u, tqApply t .pop = (u, 1, some e) ∧ (getCore u s.th.place.core).deque = (getCore s s.th.place.core).deque := by
  have hpush := tqApply_push (e := e) h ho
  rw [if_neg (by omega)] at hpush
  refine ⟨_, hpush, by rw [getCore_setCore]; rfl, ?_⟩
  generalize ht : setCore s s.th.place.core ((getCore s s.th.place.core).pushTask e) = t
  have hth : t.th = s.th := by rw [← ht]; rfl
  have hd : getCore t t.th.place.core = (getCore s s.th.place.core).pushTask e := by rw [hth, ← ht, getCore_setCore]
  have hpop := tqApply_pop (s := t) (e := e) (by rw [hth]; exact h) (by rw [hd, hth]; exact ho) (by simp [hd, Core.pushTask])
  refine ⟨_, hpop, ?_⟩
  rw [hd, hth, getCore_setCore]
  simp [Core.popTask, Core.pushTask]

end

/-- Settles O37: the three operations issue by `tqIssue`, and each then does to its deque what `tqApply` says. -/
theorem taskQueues : Obligations.TaskQueues := by
  unfold Obligations.TaskQueues
  refine ⟨fun s f c hp => ?_, fun s e n k2 => ?_⟩
  · intro sl push steal joined
    have hpush : exec (.tqPush f c) s = tqIssue (if pushFar s c && s.th.accs.isEmpty then setExt s else s) push f.d 0 f.look f.dc :=
      exec_tqPush c hp
    have hpop := exec_tqPop c hp
    have hsteal : exec (.tqSteal f c) s = tqIssue s steal c f.d f.look f.dc := exec_tqSteal c hp
    have joins : ∀ {i : Instr} {op : TqOp} {st d : Reg}, exec i s = tqIssue s op st d f.look f.dc → s.th.accs = [] →
        tqFails s op = false → joined i (.tq op st d) := fun hi ha hf => by
      obtain ⟨t, a, ht, hj⟩ := tqIssue_joins rfl (.of_eq rfl rfl) ha hf
      exact ⟨t, a, hi.trans ht, hj⟩
    refine ⟨fun ha => ⟨?_, hpop.trans (tqIssue_waits ha), hsteal.trans (tqIssue_waits ha)⟩, fun ha => ⟨?_, joins hpop ha,
      fun hf => hpop.trans (tqIssue_raises ha hf), joins hsteal ha, fun hf => hsteal.trans (tqIssue_raises ha hf)⟩⟩
    · rw [List.isEmpty_eq_false_iff.mpr ha, Bool.and_false, if_neg Bool.false_ne_true] at hpush
      exact hpush.trans (tqIssue_waits ha)
    · generalize hu : (if pushFar s c && s.th.accs.isEmpty then setExt s else s) = u at hpush
      have hth : u.th = s.th := by
        rw [← hu]
        split
        · exact setExt_th s
        · rfl
      have hm : SameMemory s u := by
        rw [← hu]
        split
        · exact setExt_same s
        · exact .of_eq rfl rfl
      obtain ⟨t, a, ht, hj⟩ := tqIssue_joins (op := push) hth hm ha (by simp [tqFails, push])
      exact ⟨t, a, hpush.trans ht, hj⟩
  · intro k c
    refine ⟨tqApply_disabled, fun h => ⟨fun ho => ⟨tqApply_pop_foreign h ho, tqApply_push_foreign h ho⟩,
      fun ho => ⟨tqApply_pop_empty h ho, tqApply_push_pop h ho, fun hl => ?_⟩, tqApply_steal_none h,
      fun hk => ⟨tqApply_steal_foreign h hk, tqApply_steal_empty h hk, fun r => tqApply_steal h hk⟩⟩⟩
    rw [tqApply_push h ho, if_pos hl]

end Sys2Proof.Machine

end

-- ==== Sys2Proof/Proofs/AtomicsIssue.lean ====

section

/-!
Atomics and reduce-stores (R171, R186 to R189, R336): their issue as a thread's oldest access, and the value that each leaves.
-/

namespace Sys2Proof.Machine

/-! ## The issue of a write as the oldest access -/

section

variable {s : State} {kind : AccKind} {n : Nat} {ea : DWord} {dc : Fin 7} {look hint : Nat} {loc : Loc}

/-- R205, R323: the oldest write's page holds it back, or not; either way it joins. -/
theorem issueAt_write_oldest {g : Gate} (hk : ∀ m ext ds, kind ≠ .load m ext ds) (ha : s.th.accs = [])
    (hg : gate s s.th.place.die .wr loc ea n = g) (hb : ∀ e, g ≠ .bad e) :
    issueAt s kind n ea dc look hint (.ok loc)
      = pushAcc s { newAcc s kind ea (some loc) dc look hint false with parked := decide (g = .park) }
          (levelFor s.th s.th.ctx.pc).1 (levelFor s.th s.th.ctx.pc).2 := by
  cases kind with
  | load m ext ds => exact absurd rfl (hk m ext ds)
  | _ =>
    simp only [issueAt, ha, hg, List.isEmpty_nil, Bool.not_true, Bool.false_and, Bool.false_eq_true, if_false]
    cases g with
    | bad e => exact absurd rfl (hb e)
    | _ => rfl

theorem issueAt_write_raises {e : Exc} (hk : ∀ m ext ds, kind ≠ .load m ext ds) (ha : s.th.accs = [])
    (hg : gate s s.th.place.die .wr loc ea n = .bad e) : issueAt s kind n ea dc look hint (.ok loc) = raise s e := by
  cases kind with
  | load m ext ds => exact absurd rfl (hk m ext ds)
  | _ => simp only [issueAt, ha, hg, List.isEmpty_nil, Bool.not_true, Bool.false_and, Bool.false_eq_true, if_false]

end

/-- The state in which an irrevocable access at `ea` issues: its cluster is marked where the access leaves the cluster (R336). -/
def extMarked (s : State) (ea : DWord) : State := if extTag ea then setExt s else s

theorem extMarked_th (s : State) (ea : DWord) : (extMarked s ea).th = s.th := by
  unfold extMarked
  split
  · exact setExt_th s
  · rfl

theorem extMarked_same (s : State) (ea : DWord) : SameMemory s (extMarked s ea) := by
  unfold extMarked
  split
  · exact setExt_same s
  · exact .of_eq rfl rfl

theorem extMarked_inside {s : State} {ea : DWord} (h : extTag ea = false) : (extMarked s ea).clusters = s.clusters := by
  rw [extMarked, h, if_neg Bool.false_ne_true]

/-- R336: the cluster of an access to global memory or the fabric is marked. -/
theorem extMarked_outside {s : State} {ea : DWord} (h : extTag ea = true) (hc : (findCluster s s.th.cid).isSome = true) :
    ∃ k, findCluster (extMarked s ea) s.th.cid = some k ∧ k.ext = true := by
  obtain ⟨k, hk⟩ := Option.isSome_iff_exists.mp hc
  have hid : k.id = s.th.cid := findCluster_id hk
  refine ⟨{ k with ext := true }, ?_, rfl⟩
  rw [extMarked, if_pos h, setExt, hk]
  exact findCluster_setCluster (k' := { k with ext := true }) hk hid

theorem findCluster_congr {s t : State} (h : t.clusters = s.clusters) (c : Cid) : findCluster t c = findCluster s c := by
  rw [findCluster, h, findCluster]

/-- An irrevocable access issues as the oldest, after its cluster is marked. -/
theorem issueIrrev_eq (s : State) (k : AccKind) (n : Nat) (ea : DWord) (f : FmtC) :
    issueIrrev s k n ea f = oldest s fun s => issueAcc (extMarked s ea) k .wr n ea f.dc f.look.val 0 := rfl

theorem atomOp_true {s : State} (f : AtomF) (op : AtomOp) (wide : Bool) (e : Reg) (hp : s.th.ctx.pred f.f.p = true) :
    atomOp s f op wide e
      = issueIrrev s (.atom op (if wide then 8 else 4) (atomWord s.th.ctx wide f.c) (atomWord s.th.ctx wide e) f.f.d)
          (if wide then 8 else 4) (eaOff s.th.ctx f.f.a f.off) f.f := by
  rw [atomOp, guarded_true s f.f.p _ hp]
  rfl

/-- Each form, under a true guard, is one irrevocable access. -/
theorem exec_atomForm {s : State} {i : Instr} {p : Pred} {dc : Fin 7} {ea : DWord} {k : AccKind} {n : Nat}
    (h : atomForm s.th.ctx i = some (p, dc, ea, k, n)) (hp : s.th.ctx.pred p = true) :
    (∀ m ext ds, k ≠ .load m ext ds) ∧ ∃ f : FmtC, f.dc = dc ∧ exec i s = issueIrrev s k n ea f := by
  cases i
  all_goals simp only [atomForm, Option.some.injEq, Prod.mk.injEq, reduceCtorEq] at h
  all_goals obtain ⟨rfl, rfl, rfl, rfl, rfl⟩ := h
  case red p op len a look dc c t off =>
    refine ⟨nofun, ⟨p, 0, a, look, dc⟩, rfl, ?_⟩
    show execRed p op len a look dc c t off s = _
    unfold execRed
    rw [guarded_true s p _ hp]
    cases t <;> rfl
  all_goals refine ⟨nofun, _, rfl, ?_⟩
  case atomAdd f t => cases t <;> exact atomOp_true f _ _ 0 hp
  case atomMin f t => cases t <;> exact atomOp_true f _ _ 0 hp
  case atomMax f t => cases t <;> exact atomOp_true f _ _ 0 hp
  case atomAnd f t => exact atomOp_true f _ _ 0 hp
  case atomOr f t => exact atomOp_true f _ _ 0 hp
  case atomXor f t => exact atomOp_true f _ _ 0 hp
  case atomExch f t => exact atomOp_true f _ _ 0 hp
  case atomCas f e t => exact atomOp_true f _ _ e hp
  case atomFadd f t => cases t <;> exact atomOp_true f _ false 0 hp

/-- The issue of an access changes nothing outside the threads. -/
theorem pushAcc_device {s t : State} {a : Access} {lvl : Nat} {gov : Option Nat} (h : pushAcc s a lvl gov = .next t) : SameDevice s t := by
  obtain ⟨u, hu, -, -, -, -, -, -, -, -, -, hdev, -⟩ := pushAcc_next s a lvl gov
  rw [h] at hu
  exact Host.Outcome.next.inj hu ▸ hdev

theorem issueIrrev_oldest (s : State) (k : AccKind) (n : Nat) (ea : DWord) (f : FmtC) (ha : s.th.accs = []) :
    issueIrrev s k n ea f
      = issueAt (extMarked s ea) k n ea f.dc f.look.val 0 (resolve (extMarked s ea) s.th .wr ea n) := by
  rw [issueIrrev_eq, oldest_none s _ ha, issueAcc, extMarked_th]

/-! ## The value that an atomic leaves (R186, R187) -/

/-- The operations on integers and bits, on words of `8 * n` bits. -/
theorem atomNew_word {n : Nat} (hn : 0 < n) (r c e : BitVec (8 * n)) :
    let v (op : AtomOp) : BitVec (8 * n) := BitVec.ofNat (8 * n) (atomNew op n r.toNat c.toNat e.toNat)
    v .addS = r + c ∧ v .addN = r + c
      ∧ (v .minS).toInt = Min.min r.toInt c.toInt ∧ (v .maxS).toInt = Max.max r.toInt c.toInt
      ∧ (v .minN).toNat = Min.min r.toNat c.toNat ∧ (v .maxN).toNat = Max.max r.toNat c.toNat
      ∧ v .and = r &&& c ∧ v .or = r ||| c ∧ v .xor = r ^^^ c ∧ v .exch = c ∧ v .cas = if r = c then e else r := by
  have hs : ∀ x : BitVec (8 * n), sextN (8 * n) x.toNat = x.toInt := fun x => by
    rw [sextN_eq_toInt _ _ (by omega), BitVec.ofNat_toNat, BitVec.setWidth_eq]
  have pick : ∀ (p : Prop) [Decidable p] (x y : BitVec (8 * n)),
      BitVec.ofNat (8 * n) (if p then x.toNat else y.toNat) = if p then x else y := fun p _ x y => by split <;> simp
  intro v
  refine ⟨?_, ?_, ?_, ?_, ?_, ?_, ?_, ?_, ?_, ?_, ?_⟩
  · exact BitVec.eq_of_toNat_eq (by simp [v, atomNew])
  · exact BitVec.eq_of_toNat_eq (by simp [v, atomNew])
  · simp only [v, atomNew, hs, pick]
    split <;> omega
  · simp only [v, atomNew, hs, pick]
    split <;> omega
  · simp only [v, atomNew, pick]
    split <;> omega
  · simp only [v, atomNew, pick]
    split <;> omega
  · exact BitVec.eq_of_toNat_eq (by simp [v, atomNew])
  · exact BitVec.eq_of_toNat_eq (by simp [v, atomNew])
  · exact BitVec.eq_of_toNat_eq (by simp [v, atomNew])
  · simp [v, atomNew]
  · simp only [v, atomNew, pick, BitVec.toNat_inj]

/-- The two halves of a sum of two .bf16. -/
theorem atomNew_faddBf (r c : BitVec 32) :
    atomNew .faddBf 4 r.toNat c.toNat 0 = (faddBits .bf16 .rne (r.toNat % 0x10000) (c.toNat % 0x10000)).1
      + 0x10000 * (faddBits .bf16 .rne (r.toNat / 0x10000) (c.toNat / 0x10000)).1 := by
  have hr : r.toNat / 0x10000 % 0x10000 = r.toNat / 0x10000 := Nat.mod_eq_of_lt (by omega)
  have hc : c.toNat / 0x10000 % 0x10000 = c.toNat / 0x10000 := Nat.mod_eq_of_lt (by omega)
  simp only [atomNew, faddWord, if_true, Nat.mul_zero, Nat.pow_zero, Nat.div_one, Nat.mul_one, Nat.reducePow, hr, hc]

/-! ## The words that a reduce-store leaves (R189) -/

theorem natOfBytes_bytesOfNat (n v : Nat) : natOfBytes (bytesOfNat n v) = v % 256 ^ n := by
  induction n generalizing v with
  | zero => simp [bytesOfNat, natOfBytes, Nat.mod_one]
  | succ n ih =>
    rw [bytesOfNat, natOfBytes, ih, Nat.pow_succ', Nat.mod_mul, BitVec.toNat_ofNat]

/-- The words of the bytes of words are those words. -/
theorem wordsOf_bytesOf (ws : List Word) : wordsOf ws.length (bytesOf ws) = ws := by
  induction ws with
  | nil => rfl
  | cons w ws ih =>
    have hl : (bytesOfW w).length = 4 := length_bytesOfNat 4 _
    rw [List.length_cons, wordsOf, bytesOf, List.take_left' hl, List.drop_left' hl, ih, bytesOfW, natOfBytes_bytesOfNat,
      Nat.mod_eq_of_lt (show w.toNat < 256 ^ 4 from w.isLt), BitVec.ofNat_toNat, BitVec.setWidth_eq]

/-- Settles O36: `exec_atomForm` gives the access of each form, and `issueAt` the cases of its checks. -/
theorem atomicsIssue : Obligations.AtomicsIssue := by
  unfold Obligations.AtomicsIssue
  refine ⟨fun s i p dc ea k n loc e hi hp => ?_, fun r c e => ?_, fun r c e => atomNew_word (n := 8) (by decide) r c e,
    fun op bf v old hl => ?_, fun f r c a b => ⟨rfl, rfl, rfl, fun op => ⟨rfl, rfl⟩⟩⟩
  · obtain ⟨hk, f, hdc, hx⟩ := exec_atomForm hi hp
    intro s1 res g joined
    refine ⟨fun ha => hx.trans (oldest_some s _ ha), fun ha => ?_⟩
    rw [issueIrrev_oldest s k n ea f ha] at hx
    have hth : (extMarked s ea).th = s.th := extMarked_th s ea
    have ha1 : (extMarked s ea).th.accs = [] := (congrArg Thread.accs hth).trans ha
    have hg1 : gate (extMarked s ea) (extMarked s ea).th.place.die .wr loc ea n = g := by rw [hth]; rfl
    have joins : res = .ok loc → ∀ v, g = v → (∀ e, v ≠ .bad e) →
        ∃ (t : State) (a : Access), joined t a ∧ a.parked = decide (v = .park) := fun hres v hg hb => by
      rw [show resolve (extMarked s ea) s.th .wr ea n = .ok loc from hres, issueAt_write_oldest hk ha1 (hg1.trans hg) hb] at hx
      obtain ⟨t, ht, hj, hr, -⟩ := pushAcc_joins (extMarked s ea) { newAcc (extMarked s ea) k ea (some loc) f.dc f.look.val 0 false with
        parked := decide (v = .park) } (levelFor (extMarked s ea).th (extMarked s ea).th.ctx.pc).1
        (levelFor (extMarked s ea).th (extMarked s ea).th.ctx.pc).2 rfl rfl
      have hcl := (pushAcc_device ht).clusters
      refine ⟨t, _, ⟨hx.trans ht, hj.of_same hth (extMarked_same s ea), fun r hr' => (hr r hr').trans (by rw [hth]), rfl, rfl, rfl, hdc,
        rfl, rfl, fun hext hc => ?_, fun hext => hcl.trans (extMarked_inside hext)⟩, rfl⟩
      rw [findCluster_congr hcl]
      exact extMarked_outside hext hc
    refine ⟨fun hres hg => ?_, fun hres hg => joins hres _ hg (by simp), fun hres hg => ?_, fun hres => ?_⟩
    · rcases hg with hg | hg
      · exact joins hres _ hg (by simp)
      · exact joins hres _ hg (by simp)
    · rw [hx, show resolve (extMarked s ea) s.th .wr ea n = .ok loc from hres, issueAt_write_raises hk ha1 (hg1.trans hg)]
      rfl
    · rw [hx, show resolve (extMarked s ea) s.th .wr ea n = .error e from hres, issueAt_raises ha1]
      rfl
  · obtain ⟨h1, h2, h3, h4, h5, h6, h7, h8, h9, h10, h11⟩ := atomNew_word (n := 4) (by decide) r c e
    exact ⟨h1, h2, h3, h4, h5, h6, h7, h8, h9, h10, h11, rfl, atomNew_faddBf r c⟩
  · rw [redBytes, ← hl, wordsOf_bytesOf]

end Sys2Proof.Machine

end

-- ==== Sys2Proof/Proofs/CollectiveEngine.lean ====

section

/-!
The collective engines (R384 to R397): what each of their operations leaves of the thread in focus, of the bytes of memory, and of the
slots, generations and trigger counters of an engine.
-/

namespace Sys2Proof.Machine

/-! ## What leaves the thread and every byte -/

/-- The thread in focus is as before but for its notice, and so is every byte of memory. -/
structure ThreadKept (s t : State) : Prop where
  thread : t.th = { s.th with notice := t.th.notice }
  memory : SameMemory s t

theorem ThreadKept.trans {a b c : State} (h : ThreadKept a b) (k : ThreadKept b c) : ThreadKept a c :=
  ⟨by rw [k.thread, h.thread], h.memory.trans k.memory⟩

theorem ThreadKept.of_eq {s t : State} (hth : t.th = s.th) (hbm : t.mem.hbm = s.mem.hbm) (hc : t.clusters = s.clusters) : ThreadKept s t :=
  ⟨by rw [hth], .of_eq hbm hc⟩

theorem ThreadKept.refl (s : State) : ThreadKept s s := .of_eq rfl rfl rfl

theorem ThreadKept.ctx {s t : State} (h : ThreadKept s t) : t.th.ctx = s.th.ctx := by rw [h.thread]
theorem ThreadKept.accs {s t : State} (h : ThreadKept s t) : t.th.accs = s.th.accs := by rw [h.thread]
theorem ThreadKept.dc {s t : State} (h : ThreadKept s t) : t.th.dc = s.th.dc := by rw [h.thread]

theorem ThreadKept.foldl {α : Type} {f : State → α → State} (hf : ∀ u x, ThreadKept u (f u x)) (l : List α) (s : State) :
    ThreadKept s (l.foldl f s) := by
  induction l generalizing s with
  | nil => exact .refl s
  | cons x l ih => exact (hf s x).trans (ih _)

/-- What an instruction leaves unchanged after such a step, it leaves unchanged. -/
theorem ThreadKept.unchangedBut {ds : List Reg} {s u t : State} (q : ThreadKept s u) (h : UnchangedBut ds u t) : UnchangedBut ds s t := by
  obtain ⟨hregs, hpreds, hfpst, hspecials, hmem⟩ := h
  have hth := q.thread
  have hctx := q.ctx
  refine ⟨fun r hr => (hregs r hr).trans (by rw [hctx]), fun p hp => (hpreds p hp).trans (by rw [hctx]), hfpst.trans (by rw [hctx]), ?_,
    q.memory.trans hmem⟩
  obtain ⟨h1, h2, h3, h4, h5, h6, h7, h8, h9, h10, h11⟩ := hspecials
  rw [hth] at h1 h2 h3 h4 h5 h6 h7 h8 h9 h10 h11
  exact ⟨h1, h2, h3, h4, h5, h6, h7, h8, h9, h10, h11⟩

theorem setExt_kept (s : State) : ThreadKept s (setExt s) := ⟨by rw [setExt_th], setExt_same s⟩

theorem probe_kept (s : State) (w : Option Tid) (loc : Loc) (n : Nat) : ThreadKept s (probe s w loc n) :=
  ⟨probe_th s w loc n, .of_eq (by rw [probe_mem]) (probe_clusters s w loc n)⟩

theorem walkRetire_hbm (x : Xlat) (m : MemSys) (gen ctx root va : Nat) : (walkRetire x m gen ctx root va).hbm = m.hbm := by
  unfold walkRetire
  generalize walkPath x m gen ctx va walkLevels root = l
  induction l generalizing m with
  | nil => rfl
  | cons r l ih => exact (ih _).trans (llcRetire_same m (sectorOf r.2.2.1) gen).hbm

theorem walked_kept (s : State) (first core : Nat) (x : Xctx) (va : Nat) : ThreadKept s (walked s first core x va) := by
  unfold walked
  split
  · exact .refl s
  · exact .of_eq rfl (walkRetire_hbm ..) rfl

theorem rangesWalked_kept (s : State) (core : Nat) (x : Xctx) (rs : List (Nat × Nat)) : ThreadKept s (rangesWalked s core x rs) :=
  .foldl (fun u va => walked_kept u 1 core x va) _ s

/-! ## The engine of a die -/

@[simp] theorem getEng_setEng (s : State) (die : Nat) (e : CollEngine) : getEng (setEng s die e) die = e := by
  unfold getEng setEng
  split <;> rfl

theorem setEng_kept (s : State) (die : Nat) (e : CollEngine) : ThreadKept s (setEng s die e) := by
  unfold setEng
  split <;> exact .of_eq rfl rfl rfl

theorem getEng_congr {s t : State} (h0 : t.coll0 = s.coll0) (h1 : t.coll1 = s.coll1) (die : Nat) : getEng t die = getEng s die := by
  rw [getEng, getEng, h0, h1]

/-- What is translated, and how, does not depend on the collective engines. -/
theorem xlateEng_setEng (s : State) (die : Nat) (e : CollEngine) (core : Nat) (x : Xctx) (va : Nat) (t : AccT) :
    xlateEng (setEng s die e) core x va t = xlateEng s core x va t := by
  unfold setEng
  split <;> rfl

theorem copySegs_setEng (s : State) (die : Nat) (e : CollEngine) (core : Nat) (x : Xctx) (t : AccT) (n va len : Nat) :
    copySegs (setEng s die e) core x t n va len = copySegs s core x t n va len := by
  induction n generalizing va len with
  | zero => rfl
  | succ n ih =>
    simp only [copySegs, ih, xlateEng_setEng]

theorem setEng_others (s : State) (die : Nat) (e : CollEngine) :
    (setEng s die e).mem = s.mem ∧ (setEng s die e).launches = s.launches ∧ (setEng s die e).fab = s.fab
      ∧ (setEng s die e).ctl = s.ctl := by
  unfold setEng
  split <;> exact ⟨rfl, rfl, rfl, rfl⟩

theorem launchXctx_congr {s t : State} (h : t.launches = s.launches) (lid ctx : Nat) : launchXctx t lid ctx = launchXctx s lid ctx := by
  rw [launchXctx, launchXctx, findLaunch, findLaunch, h]

/-- R396: nor does what a declaration meets, beside the position and the key of its shuffle. -/
theorem checkSide_setEng (s : State) (die : Nat) (e : CollEngine) (o : CollOp) (snd rcv addr : Nat) :
    checkSide (setEng s die e) die o snd rcv addr = checkSide s die o snd rcv addr := by
  obtain ⟨hmem, hl, hfab, hctl⟩ := setEng_others s die e
  have hx : o.xctx (setEng s die e) = o.xctx s := launchXctx_congr hl o.lid o.ctx
  have ho : o.own (setEng s die e) = o.own s := by rw [CollOp.own, ownPos, hfab, CollOp.own, ownPos]
  have hg : genOf (setEng s die e) o.keyId = genOf s o.keyId := by rw [genOf, hctl, genOf]
  unfold checkSide
  dsimp only
  rw [copySegs_setEng, hx, ho, hg, hmem]

end Sys2Proof.Machine

end

-- ==== Sys2Proof/Proofs/CollectiveSlots.lean ====

section

/-!
The slots, generations and trigger counters of a collective engine (R384, R387 to R389): what each step leaves of the operation in one
slot.
-/

namespace Sys2Proof.Machine

/-! ## The operation in a slot -/

theorem findColl_slot {s : State} {die n : Nat} {o : CollOp} (h : findColl s die n = some o) : o.slot = n :=
  beq_iff_eq.mp (List.find?_some (p := fun o : CollOp => o.slot == n) h)

theorem findColl_of_ops {s : State} {die : Nat} {l : List CollOp} (h : (getEng s die).ops = l) (n : Nat) :
    findColl s die n = l.find? fun o => o.slot == n := by
  rw [findColl, h]

/-- A change of every operation that leaves its slot. -/
theorem find_slot_map (l : List CollOp) {f : CollOp → CollOp} (hf : ∀ x, (f x).slot = x.slot) (n : Nat) :
    (l.map f).find? (fun o => o.slot == n) = (l.find? fun o => o.slot == n).map f := by
  rw [List.find?_map]
  congr 2
  funext x
  simp [hf]

theorem findColl_setColl {s : State} {die : Nat} {o p : CollOp} (h : findColl s die o.slot = some p) :
    findColl (setColl s die o) die o.slot = some o := by
  have hp := findColl_slot h
  rw [findColl] at h
  rw [setColl, findColl_of_ops (by rw [getEng_setEng]), find_slot_map, h]
  · simp [hp]
  · intro x
    split
    · exact Eq.symm ‹_›
    · rfl

theorem setColl_kept (s : State) (die : Nat) (o : CollOp) : ThreadKept s (setColl s die o) := setEng_kept s die _

theorem setColl_side (s : State) (die : Nat) (o : CollOp) : (getEng (setColl s die o) die).side = (getEng s die).side := by
  rw [setColl, getEng_setEng]

theorem setColl_gens (s : State) (die : Nat) (o : CollOp) : (getEng (setColl s die o) die).gens = (getEng s die).gens := by
  rw [setColl, getEng_setEng]

/-! ## Steps that keep what a part is -/

/-- The same operation, by its slot, its descriptor, its issuer and its members. -/
structure SamePart (o p : CollOp) : Prop where
  slot : p.slot = o.slot
  desc : p.desc = o.desc
  shf : p.shf = o.shf
  tid : p.tid = o.tid
  dc : p.dc = o.dc
  members : p.members = o.members

theorem SamePart.trans {o p q : CollOp} (h : SamePart o p) (k : SamePart p q) : SamePart o q :=
  ⟨k.slot.trans h.slot, k.desc.trans h.desc, k.shf.trans h.shf, k.tid.trans h.tid, k.dc.trans h.dc, k.members.trans h.members⟩

theorem SamePart.symm {o p : CollOp} (h : SamePart o p) : SamePart p o :=
  ⟨h.slot.symm, h.desc.symm, h.shf.symm, h.tid.symm, h.dc.symm, h.members.symm⟩

/-- The part in slot `n` of a die stays the same part, the generations stand, and the thread and the bytes are kept. -/
structure PartKept (die n : Nat) (s t : State) : Prop where
  kept : ThreadKept s t
  gens : (getEng t die).gens = (getEng s die).gens
  part : ∀ o, findColl s die n = some o → ∃ p, findColl t die n = some p ∧ SamePart o p

section

variable {die n : Nat} {s t u : State}

theorem PartKept.trans (h : PartKept die n s t) (k : PartKept die n t u) : PartKept die n s u := by
  refine ⟨h.kept.trans k.kept, k.gens.trans h.gens, fun o ho => ?_⟩
  obtain ⟨p, hp, hop⟩ := h.part o ho
  obtain ⟨q, hq, hpq⟩ := k.part p hp
  exact ⟨q, hq, hop.trans hpq⟩

/-- A step that leaves the operations and the generations. -/
theorem PartKept.of_ops (k : ThreadKept s t) (hops : (getEng t die).ops = (getEng s die).ops)
    (hgens : (getEng t die).gens = (getEng s die).gens) : PartKept die n s t :=
  ⟨k, hgens, fun o ho => ⟨o, by rw [findColl, hops]; exact ho, ⟨rfl, rfl, rfl, rfl, rfl, rfl⟩⟩⟩

/-- A step that leaves the engine. -/
theorem PartKept.of_eng (k : ThreadKept s t) (h : getEng t die = getEng s die) : PartKept die n s t :=
  .of_ops k (by rw [h]) (by rw [h])

theorem PartKept.refl (die n : Nat) (s : State) : PartKept die n s s := .of_eng (.refl s) rfl

theorem PartKept.foldl {α : Type} {f : State → α → State} (hf : ∀ u x, PartKept die n u (f u x)) (l : List α) (s : State) :
    PartKept die n s (l.foldl f s) := by
  induction l generalizing s with
  | nil => exact .refl die n s
  | cons x l ih => exact (hf s x).trans (ih _)

/-- A step that changes every operation of the engine, and none in what it is. -/
theorem PartKept.of_map {f : CollOp → CollOp} (k : ThreadKept s t) (hops : (getEng t die).ops = (getEng s die).ops.map f)
    (hgens : (getEng t die).gens = (getEng s die).gens) (hf : ∀ x, SamePart x (f x)) : PartKept die n s t := by
  refine ⟨k, hgens, fun o ho => ⟨f o, ?_, hf o⟩⟩
  rw [findColl_of_ops hops, find_slot_map _ fun x => (hf x).slot]
  rw [findColl] at ho
  rw [ho]
  rfl

theorem setColl_partKept {o p : CollOp} (h : findColl s die n = some o) (hp : SamePart o p) : PartKept die n s (setColl s die p) := by
  have hs : p.slot = n := hp.slot.trans (findColl_slot h)
  refine ⟨setColl_kept s die p, setColl_gens s die p, fun q hq => ⟨p, ?_, ?_⟩⟩
  · subst hs
    exact findColl_setColl h
  · rw [h] at hq
    exact Option.some.inj hq ▸ hp

end

/-! ## Side information (R396) -/

/-- The state once the entry for `u` has left the table of a die, the switch told. -/
def sideLeft (s : State) (die : Nat) (u : UnitTag) (count : Bool) : State :=
  let e := getEng s die
  let s1 := dropLocks (setEng s die { e with
    side := e.side.filter fun x => x.u != u,
    ops := e.ops.map fun o => if count && o.shf && o.st != 2 && o.sid == u.sid then { o with evict := o.evict + 1 } else o })
    (.side die u)
  { s1 with out := s1.out ++ [unitFlit s1 0x23 5 0 u] }

theorem evictSide_eq (s : State) (die : Nat) (u : UnitTag) (count : Bool) :
    evictSide s die u count = if (getEng s die).side.any (fun x => x.u == u) then sideLeft s die u count else s := rfl

theorem sideLeft_eng (s : State) (die : Nat) (u : UnitTag) (count : Bool) :
    getEng (sideLeft s die u count) die = { getEng s die with
      side := (getEng s die).side.filter fun x => x.u != u,
      ops := (getEng s die).ops.map fun o =>
        if count && o.shf && o.st != 2 && o.sid == u.sid then { o with evict := o.evict + 1 } else o } :=
  getEng_setEng s die _

theorem sideLeft_partKept (s : State) (die n : Nat) (u : UnitTag) (count : Bool) : PartKept die n s (sideLeft s die u count) := by
  refine .of_map ((setEng_kept s die _).trans (.of_eq rfl rfl rfl)) (by rw [sideLeft_eng]) (by rw [sideLeft_eng]) fun x => ?_
  split <;> exact ⟨rfl, rfl, rfl, rfl, rfl, rfl⟩

theorem evictSide_partKept (s : State) (die n : Nat) (u : UnitTag) (count : Bool) : PartKept die n s (evictSide s die u count) := by
  rw [evictSide_eq]
  split
  · exact sideLeft_partKept ..
  · exact .refl die n s

/-- The table once the entry for `u`, and where it is full the oldest one, has left it. -/
def sideRoom (s : State) (die : Nat) (u : UnitTag) : State :=
  let s0 := evictSide s die u false
  if 1024 ≤ (getEng s0 die).side.length then
    match (getEng s0 die).side with
    | [] => s0
    | x :: _ => evictSide s0 die x.u true
  else s0

theorem sideRoom_partKept (s : State) (die n : Nat) (u : UnitTag) : PartKept die n s (sideRoom s die u) := by
  have h0 := evictSide_partKept s die n u false
  unfold sideRoom
  dsimp only
  split
  · split
    · exact h0
    · exact h0.trans (evictSide_partKept ..)
  · exact h0

/-- The state once a declaration has its place in the table, its locks and its flit. -/
def sideEntered (s : State) (die : Nat) (o : CollOp) (u : UnitTag) (segs : List CopySeg) : State :=
  let e := getEng s die
  let s2 := setEng s die { e with side := e.side ++ [{ u := u, lid := o.lid, ctx := o.ctx, keyId := o.keyId, segs := segs }] }
  { s2 with mem := { s2.mem with locks := s2.mem.locks ++ rangeLocks (.side die u) die false segs },
            out := s2.out ++ [unitFlit s2 0x22 7 0 u] }

theorem enterSide_eq (s : State) (die : Nat) (o : CollOp) (u : UnitTag) (segs : List CopySeg) :
    enterSide s die o u segs = sideEntered (sideRoom s die u) die o u segs := rfl

theorem sideEntered_eng (s : State) (die : Nat) (o : CollOp) (u : UnitTag) (segs : List CopySeg) :
    getEng (sideEntered s die o u segs) die = { getEng s die with
      side := (getEng s die).side ++ [{ u := u, lid := o.lid, ctx := o.ctx, keyId := o.keyId, segs := segs }] } :=
  getEng_setEng s die _

theorem enterSide_partKept (s : State) (die n : Nat) (o : CollOp) (u : UnitTag) (segs : List CopySeg) :
    PartKept die n s (enterSide s die o u segs) := by
  rw [enterSide_eq]
  refine (sideRoom_partKept s die n u).trans (.of_ops ?_ (by rw [sideEntered_eng]) (by rw [sideEntered_eng]))
  exact (setEng_kept _ die _).trans (.of_eq rfl rfl rfl)

theorem judgeSides_partKept (fuel : Nat) (s : State) (die n : Nat) : PartKept die n s (judgeSides fuel s die n) := by
  induction fuel generalizing s with
  | zero => exact .refl die n s
  | succ fuel ih =>
    unfold judgeSides
    split
    · exact .refl die n s
    · next o ho =>
        have judged : ∀ sides lost rej, PartKept die n s (setColl s die { o with sides := sides, lost := lost, sideRej := rej }) :=
          fun _ _ _ => setColl_partKept ho ⟨rfl, rfl, rfl, rfl, rfl, rfl⟩
        split
        · exact .refl die n s
        · split
          · split
            · exact .refl die n s
            · exact setColl_partKept ho ⟨rfl, rfl, rfl, rfl, rfl, rfl⟩
          · exact (judged _ _ _).trans (ih _)
          · exact ((judged _ _ _).trans (enterSide_partKept ..)).trans (ih _)

theorem runSides_partKept (s : State) (die n : Nat) : PartKept die n s (runSides s die n) := by
  unfold runSides
  split
  · exact .refl die n s
  · exact judgeSides_partKept ..

/-! ## Launch points (R384) -/

theorem walked_partKept (die n : Nat) (s : State) (first core : Nat) (x : Xctx) (va : Nat) :
    PartKept die n s (walked s first core x va) := by
  refine .of_eng (walked_kept ..) ?_
  unfold walked
  split <;> rfl

theorem probe_partKept (die n : Nat) (s : State) (w : Option Tid) (loc : Loc) (k : Nat) : PartKept die n s (probe s w loc k) := by
  refine .of_eng (probe_kept ..) ?_
  unfold probe remoteProbe
  split <;> rfl

/-- The state once an operation has walked its ranges and entered its locks. -/
def collLocked (s : State) (die : Nat) (o : CollOp) (locks : List RLock) : State :=
  let s0 := collWalked s die o
  { s0 with mem := { s0.mem with locks := s0.mem.locks ++ locks } }

theorem collLocked_partKept (s : State) (die n : Nat) (o : CollOp) (locks : List RLock) :
    PartKept die n s (collLocked s die o locks) :=
  (PartKept.foldl (fun u va => walked_partKept die n u 1 (336 * die) (o.xctx s) va) _ s).trans (.of_eng (.of_eq rfl rfl rfl) rfl)

theorem enterColl_partKept {s : State} {die n : Nat} {o : CollOp} (h : findColl s die n = some o) (segs : List CopySeg)
    (locks : List RLock) : PartKept die n s (enterColl s die o segs locks) := by
  have h1 := collLocked_partKept s die n o locks
  obtain ⟨p, hp, hop⟩ := h1.part o h
  have running : ∀ err, SamePart o { o with segs := segs, st := 1, lost := false, err := err } :=
    fun _ => ⟨rfl, rfl, rfl, rfl, rfl, rfl⟩
  refine (h1.trans (setColl_partKept hp (hop.symm.trans (running _)))).trans (.foldl (fun u g => ?_) segs _)
  split
  · exact probe_partKept ..
  · exact .refl die n u

theorem launchColl_partKept {s : State} {die n : Nat} {o : CollOp} (h : findColl s die n = some o) :
    PartKept die n s (launchColl s die o) := by
  have changed : ∀ p, SamePart o p → PartKept die n s (setColl s die p) := fun p hp => setColl_partKept h hp
  unfold launchColl
  split
  · split
    · exact .refl die n s
    · exact changed _ ⟨rfl, rfl, rfl, rfl, rfl, rfl⟩
  · exact changed _ ⟨rfl, rfl, rfl, rfl, rfl, rfl⟩
  · split
    · exact changed _ ⟨rfl, rfl, rfl, rfl, rfl, rfl⟩
    · split
      · unfold waitAtTables
        split
        · have numbered : PartKept die n s { s with fresh := s.fresh + 1 } := .of_eng (.of_eq rfl rfl rfl) rfl
          exact numbered.trans (setColl_partKept (s := { s with fresh := s.fresh + 1 }) h ⟨rfl, rfl, rfl, rfl, rfl, rfl⟩)
        · exact .refl die n s
      · exact enterColl_partKept h _ _

/-! ## A slot taken (R384, R389) -/

theorem takeSlot_eng (s : State) (die n : Nat) (o : CollOp) :
    getEng (takeSlot s die n o) die = { getEng s die with
      ops := ((getEng s die).ops.filter fun x => x.slot != n) ++ [{ o with slot := n, gen := ((getEng s die).gens.getD n 0 + 1) % 256 }],
      gens := (getEng s die).gens.set n (((getEng s die).gens.getD n 0 + 1) % 256),
      past := (getEng s die).past ++ (getEng s die).ops.filter fun x => x.slot == n && keepsSource s die x } :=
  getEng_setEng s die _

theorem takeSlot_kept (s : State) (die n : Nat) (o : CollOp) : ThreadKept s (takeSlot s die n o) := setEng_kept s die _

/-- The operation stands in the slot that it takes. -/
theorem findColl_takeSlot (s : State) (die n : Nat) (o : CollOp) :
    findColl (takeSlot s die n o) die n = some { o with slot := n, gen := ((getEng s die).gens.getD n 0 + 1) % 256 } := by
  have hnone : ((getEng s die).ops.filter fun x => x.slot != n).find? (fun x => x.slot == n) = none := by
    rw [List.find?_eq_none]
    intro x hx
    simpa using (List.mem_filter.mp hx).2
  rw [findColl, takeSlot_eng]
  simp [List.find?_append, hnone]

/-! ## Trigger counters (R387, R388) -/

theorem holdCtr_eng (s : State) (die c lid : Nat) :
    getEng (holdCtr s die c lid) die = { getEng s die with
      ctrs := (getEng s die).ctrs.set c { getCtr s die c with holder := some lid } } := getEng_setEng s die _

theorem holdCtr_kept (s : State) (die c lid : Nat) : ThreadKept s (holdCtr s die c lid) := setEng_kept s die _

theorem getCtr_holdCtr (s : State) (die c lid : Nat) (h : c < (getEng s die).ctrs.length) :
    getCtr (holdCtr s die c lid) die c = { getCtr s die c with holder := some lid } := by
  rw [getCtr, holdCtr_eng]
  simp [List.getD_eq_getElem?_getD, h]

/-- To hold a counter does not change its value. -/
theorem getCtr_holdCtr_val (s : State) (die c lid : Nat) : (getCtr (holdCtr s die c lid) die c).val = (getCtr s die c).val := by
  by_cases h : c < (getEng s die).ctrs.length
  · rw [getCtr_holdCtr s die c lid h]
  · rw [getCtr, holdCtr_eng, getCtr, List.set_eq_of_length_le (by omega)]

theorem setCtr_kept (s : State) (die c : Nat) (v : Word) : ThreadKept s (setCtr s die c v) := setEng_kept s die _

/-- What a change of counter `c` to `v` fires. -/
def ctrFired (s : State) (die c : Nat) (v : Word) (o : CollOp) : CollOp :=
  if !o.shf && o.st == 0 && o.ctr == c && (getCtr s die c).holder == some o.lid && decide (o.thresh ≤ v.toNat) then
    { o with fired := true }
  else o

theorem ctrFired_slot (s : State) (die c : Nat) (v : Word) (o : CollOp) : (ctrFired s die c v o).slot = o.slot := by
  unfold ctrFired
  split <;> rfl

theorem setCtr_eng (s : State) (die c : Nat) (v : Word) :
    getEng (setCtr s die c v) die = { getEng s die with
      ctrs := (getEng s die).ctrs.set c { getCtr s die c with val := v }, ops := (getEng s die).ops.map (ctrFired s die c v) } :=
  getEng_setEng s die _

theorem findColl_setCtr {s : State} {die n : Nat} {o : CollOp} (c : Nat) (v : Word) (h : findColl s die n = some o) :
    findColl (setCtr s die c v) die n = some (ctrFired s die c v o) := by
  rw [findColl] at h
  rw [findColl_of_ops (by rw [setCtr_eng]), find_slot_map _ (ctrFired_slot s die c v), h]
  rfl

theorem getCtr_setCtr (s : State) (die c : Nat) (v : Word) (h : c < (getEng s die).ctrs.length) :
    getCtr (setCtr s die c v) die c = { getCtr s die c with val := v } := by
  rw [getCtr, setCtr_eng]
  simp [List.getD_eq_getElem?_getD, h]

theorem bumpOrder_eng (s : State) (grp die : Nat) :
    getEng (bumpOrder s grp) die = { getEng s die with orders := (getEng (bumpOrder s grp) die).orders } := by
  unfold getEng bumpOrder
  split <;> rfl

theorem bumpOrder_kept (s : State) (grp : Nat) : ThreadKept s (bumpOrder s grp) := .of_eq rfl rfl rfl

end Sys2Proof.Machine

end

-- ==== Sys2Proof/Proofs/FabricInstructions.lean ====

section

/-!
The fabric instructions (R171, R381, R384 to R397): each under a true guard, as its thread's only access, in each case of its checks.
-/

namespace Sys2Proof.Machine

/-! ## How an instruction goes on -/

section

variable {s u : State}

/-- An instruction that only goes on, after a step that keeps the thread. -/
theorem advance_goes (k : ThreadKept s u) (ha : s.th.accs = []) :
    UnchangedBut [] s (advance u) ∧ (advance u).th.accs = [] ∧ ∀ d, dcGet (advance u).th d = dcGet s.th d := by
  have m := advance_moved u
  refine ⟨k.unchangedBut ⟨fun r _ => m.reg r, fun p _ => m.pred p, m.fpst, m.specials, m.device.memory⟩, ?_, fun d => ?_⟩
  · rw [m.accs, k.accs, ha]
  · exact dcGet_congr (m.dc.trans k.dc) d

/-- A register written, and then on. -/
theorem setReg_goes (u : State) (d : Reg) (h : Word) (n : Nat) :
    let w := goOn (issued (modCtx u fun c => c.setReg d h)) n
    UnchangedBut [d] u w ∧ w.th.accs = u.th.accs ∧ w.th.dc = u.th.dc ∧ (d ≠ 0 → w.th.ctx.reg d = h) ∧ SameDevice u w := by
  intro w
  have m : Moved (modCtx u fun c => c.setReg d h) w := (issued_moved _).trans (goOn_moved _ _)
  have hw : WritesOnly [d] [] false false u.th.ctx (u.th.ctx.setReg d h) := .setReg (List.mem_singleton_self _) h
  have e : (modCtx u fun c => c.setReg d h).th = { u.th with ctx := u.th.ctx.setReg d h } := rfl
  have hdev : SameDevice u w := (modCtx_device u _).trans m.device
  refine ⟨⟨fun r hr => (m.reg r).trans (hw.regs r hr), fun p hp => (m.pred p).trans (hw.preds p hp), m.fpst.trans (hw.fpst rfl), ?_,
    hdev.memory⟩, m.accs, m.dc, fun hd => (m.reg d).trans (Ctx.reg_setReg_self _ d h fun h0 => hd (Fin.ext h0)), hdev⟩
  obtain ⟨h1, h2, h3, h4, h5, h6, h7, h8, h9, h10, h11⟩ := m.specials
  rw [e, hw.rest] at h1 h2 h3 h4 h5 h6 h7 h8 h9 h10 h11
  exact ⟨h1, h2, h3, h4.trans (hw.dphase rfl), h5, h6, h7, h8, h9, h10, h11⟩

/-- The end of an arm or a post, after a step that keeps the thread: the handle in its register, and its counter's step. -/
theorem endArm_goes (k : ThreadKept s u) (ha : s.th.accs = []) (f : FmtC) (h : Word) (up : Bool) :
    ∃ t, endArm u f h up = .next t ∧ UnchangedBut [f.d] s t ∧ t.th.accs = [] ∧ (∀ d, d ≠ f.dc → dcGet t.th d = dcGet s.th d)
      ∧ dcGet t.th f.dc = dcGet s.th f.dc + (if up ∧ f.dc.val < 6 then 1 else 0) ∧ (f.d ≠ 0 → t.th.ctx.reg f.d = h)
      ∧ SameDevice u t := by
  obtain ⟨hun, haccs, hdc, hreg, hdev⟩ := setReg_goes u f.d h (instrLen u)
  have hun' := k.unchangedBut hun
  have hd : ∀ d, dcGet (goOn (issued (modCtx u fun c => c.setReg f.d h)) (instrLen u)).th d = dcGet s.th d :=
    fun d => dcGet_congr (hdc.trans k.dc) d
  have hacc' := (haccs.trans k.accs).trans ha
  cases up with
  | false => exact ⟨_, rfl, hun', hacc', fun d _ => hd d, (hd f.dc).trans (by simp), hreg, hdev⟩
  | true =>
    refine ⟨modTh _ fun t => dcStep t f.dc, rfl, ?_, ?_, fun d hne => ?_, ?_, fun h0 => ?_, hdev.trans (modTh_device _ _)⟩
    · obtain ⟨h1, h2, h3, h4, h5⟩ := hun'
      refine ⟨fun r hr => ?_, fun p hp => ?_, ?_, ?_, h5.trans (modTh_device _ _).memory⟩
      · rw [modTh_th, dcStep_same]
        exact h1 r hr
      · rw [modTh_th, dcStep_same]
        exact h2 p hp
      · rw [modTh_th, dcStep_same]
        exact h3
      · obtain ⟨g1, g2, g3, g4, g5, g6, g7, g8, g9, g10, g11⟩ := h4
        constructor <;> rw [modTh_th, dcStep_same] <;> assumption
    · rw [modTh_th, dcStep_same]
      exact hacc'
    · rw [modTh_th, dcGet_step_other _ _ _ hne, hd]
    · rw [modTh_th, dcGet_step, hd]
      simp
    · rw [modTh_th, dcStep_same]
      exact hreg h0

end

/-! ## A request to every member of a group (R381) -/

/-- The flit of a request to group `g`. -/
def groupFlit (u : State) (ea : DWord) (g ty aux : Nat) (payload : List Byte) : Flit :=
  { mkFlit u ty 6 (g + 0x8000) with
    serial := u.fab.nextSerial, ctx := u.th.place.ctx, keyid := u.th.place.keyId, addr := ea.toNat, aux := aux, payload := payload }

/-- The state once such a request is sent and counts among the outstanding ones. -/
def groupSent (u : State) (ms : List Nat) (ea : DWord) (g ty aux : Nat) (payload : List Byte) : State :=
  { u with
    out := u.out ++ [groupFlit u ea g ty aux payload],
    fab := { u.fab with nextSerial := (u.fab.nextSerial + 1) % 0x100000000,
                        reqs := u.fab.reqs ++ [⟨u.fab.nextSerial, u.th.id, u.th.seq, ms.headD 0, 0⟩] } }

/-- The access that waits for the members' answers. -/
def groupAcc (u : State) (kind : AccKind) (ms : List Nat) (ea : DWord) (dc : Fin 7) (look : Nat) : Access :=
  { newAcc u kind ea none dc look 0 false with serial := some u.fab.nextSerial, awaited := ms }

theorem issueGroup_eq (u : State) (kind : AccKind) (ms : List Nat) (ea : DWord) (g ty aux : Nat) (payload : List Byte) (dc : Fin 7)
    (look : Nat) : issueGroup u kind ms ea g ty aux payload dc look
      = pushAcc (groupSent u ms ea g ty aux payload) (groupAcc u kind ms ea dc look) (levelFor u.th u.th.ctx.pc).1
          (levelFor u.th u.th.ctx.pc).2 := rfl

/-- The request's access joins its thread, in a state with the thread, the bytes, the fabric and the flits of `s`. -/
theorem issueGroup_joins {s u : State} (hth : u.th = s.th) (hm : SameMemory s u) (hfab : u.fab = s.fab) (hout : u.out = s.out)
    (kind : AccKind) (ms : List Nat) (ea : DWord) (g ty aux : Nat) (payload : List Byte) (dc : Fin 7) (look : Nat) :
    ∃ (t : State) (a : Access) (q : Flit), issueGroup u kind ms ea g ty aux payload dc look = .next t
      ∧ (Joins s t a ∧ SameRegsBut [] s t ∧ a.dc = dc ∧ a.loc = none ∧ a.spec = false ∧ a.awaited = ms
        ∧ a.serial = some s.fab.nextSerial ∧ t.out = s.out ++ [q] ∧ q.dst = g + 0x8000 ∧ q.serial = s.fab.nextSerial
        ∧ q.ctx = s.th.place.ctx)
      ∧ a.kind = kind ∧ q.ty = ty ∧ q.addr = ea.toNat ∧ q.aux = aux ∧ q.payload = payload ∧ t.clusters = u.clusters := by
  obtain ⟨t, ht, hj, hr, ho⟩ := pushAcc_joins (groupSent u ms ea g ty aux payload) (groupAcc u kind ms ea dc look)
    (levelFor u.th u.th.ctx.pc).1 (levelFor u.th u.th.ctx.pc).2 rfl rfl
  have hsent : SameMemory s (groupSent u ms ea g ty aux payload) := hm.trans (.of_eq rfl rfl)
  have hserial : u.fab.nextSerial = s.fab.nextSerial := congrArg Fabric.nextSerial hfab
  refine ⟨t, groupAcc u kind ms ea dc look, groupFlit u ea g ty aux payload, ht,
    ⟨hj.of_same (u := groupSent u ms ea g ty aux payload) hth hsent, fun r hr' => (hr r hr').trans (by rw [← hth]; rfl), rfl, rfl, rfl, rfl,
      congrArg some hserial, ho.trans (congrArg (· ++ _) hout), rfl, hserial, by rw [← hth]; rfl⟩,
    rfl, rfl, rfl, rfl, rfl, (pushAcc_device ht).clusters⟩

theorem groupOk_congr {s t : State} (h : t.fab = s.fab) (g ctx : Nat) : groupOk t g ctx = groupOk s g ctx := by
  rw [groupOk, groupBytes, groupBytes, h, groupOk, groupBytes, groupBytes]

theorem groupMembers_congr {s t : State} (h : t.fab = s.fab) (g : Nat) : groupMembers t g = groupMembers s g := by
  rw [groupMembers, groupBytes, h, groupMembers, groupBytes]

/-! ## `mcst` (R381) -/

section

variable {s : State} {f : FmtC} (c : Reg) (t : RawTy) (off : BitVec 16) (hp : s.th.ctx.pred f.p = true) (ha : s.th.accs = [])
include hp ha

/-- Bytes of the value that `mcst` sends. -/
def mcstBytes (s : State) (f : FmtC) (t : RawTy) : List Byte :=
  if t = .b64 then bytesOfD (s.th.ctx.pair f.d) else bytesOfW (s.th.ctx.reg f.d)

theorem exec_mcst :
    exec (.mcst f c t off) s =
      if (eaOff s.th.ctx f.a off).toNat % (if t = .b64 then 8 else 4) ≠ 0 then
        raiseCode (setExt s) cMisaligned (eaOff s.th.ctx f.a off)
      else if 2 ^ 46 ≤ (s.th.ctx.pair f.a).toNat ∨ 2 ^ 46 ≤ (eaOff s.th.ctx f.a off).toNat
          ∨ groupOk s ((s.th.ctx.reg c).toNat % 4096) s.th.place.ctx = false then
        raiseCode (setExt s) cProt (eaOff s.th.ctx f.a off)
      else if groupMembers s ((s.th.ctx.reg c).toNat % 4096) = [] then .next (advance (setExt s))
      else issueGroup (setExt s) (.mcst (groupMembers s ((s.th.ctx.reg c).toNat % 4096)) (mcstBytes s f t))
        (groupMembers s ((s.th.ctx.reg c).toNat % 4096)) (eaOff s.th.ctx f.a off) ((s.th.ctx.reg c).toNat % 4096) 0x10
        (if t = .b64 then 8 else 4) (mcstBytes s f t) f.dc f.look.val := by
  show execMcst f c t off s = _
  unfold execMcst
  rw [guarded_true s f.p _ hp, oldest_none s _ ha]
  simp only [setExt_th, groupOk_congr (setExt_fab s), groupMembers_congr (setExt_fab s), bne_iff_ne, Bool.or_eq_true,
    decide_eq_true_eq, Bool.not_eq_true', List.isEmpty_iff, or_assoc]
  rfl

end

/-! ## `mcld.red` (R381) -/

theorem setSlot_fab (s : State) (c : Cid) (i : Nat) (v : Slot) : (setSlot s c i v).fab = s.fab := by
  unfold setSlot
  split <;> rfl

theorem setSlot_out (s : State) (c : Cid) (i : Nat) (v : Slot) : (setSlot s c i v).out = s.out := by
  unfold setSlot
  split <;> rfl

/-- A slot put back with the same bytes. -/
theorem setSlot_same {s : State} {c : Cid} {i : Nat} {v w : Slot} (h : findSlot s c i = some v) (hb : w.bytes = v.bytes) :
    SameMemory s (setSlot s c i w) := by
  refine ⟨fun a => by rw [State.hbmByte, setSlot_mem, State.hbmByte], fun d j o => ?_⟩
  by_cases hd : d = c ∧ j = i
  · obtain ⟨rfl, rfl⟩ := hd
    rw [spadByte_of_findSlot (findSlot_setSlot w h), spadByte_of_findSlot h, hb]
  · rw [State.spadByte, findSlot_setSlot_other s w (by tauto), State.spadByte]

/-- To clear the presence of a destination changes no byte, and nothing but its slot. -/
theorem mcldPresence_same (s : State) (c : Cid) (i off n : Nat) :
    (mcldPresence s c i off n false).th = s.th ∧ (mcldPresence s c i off n false).fab = s.fab
      ∧ (mcldPresence s c i off n false).out = s.out ∧ SameMemory s (mcldPresence s c i off n false) := by
  unfold mcldPresence
  split
  · exact ⟨rfl, rfl, rfl, .of_eq rfl rfl⟩
  · next h => exact ⟨setSlot_th .., setSlot_fab .., setSlot_out .., setSlot_same h rfl⟩

theorem findSlot_mcldPresence {s : State} {c : Cid} {i : Nat} {v : Slot} (off n : Nat) (h : findSlot s c i = some v) :
    findSlot (mcldPresence s c i off n false) c i = some (v.setAbsent off n) := by
  rw [mcldPresence, h]
  exact findSlot_setSlot _ h

section

variable {s : State} {f : FmtC} (c e : Reg) (t : FloatTy) (op : RedOp)

/-- An `mcld.red` whose operands are in their limits, at its destination. -/
def mcldTo (s : State) (f : FmtC) (c e : Reg) (t : FloatTy) (op : RedOp) : Out :=
  let x := s.th.ctx
  let n := 4 * (x.reg f.d).toNat
  match resolveSpad (setExt s) (x.pair e) 16 n with
  | .error er => raise (setExt s) er
  | .ok (.spad cid slot off) =>
    (match gate (setExt s) s.th.place.die .wr (.spad cid slot off) (x.pair e) n with
     | .bad er => raise (setExt s) er
     | .park => .next s
     | .wait => .next s
     | .go =>
       let ms := groupMembers s ((x.reg c).toNat % 4096)
       if ms.isEmpty then retire (setExt s)
       else issueGroup (mcldPresence (setExt s) cid slot off n false)
         (.mcldRed ms op (t == .bf16x2) (x.reg f.d).toNat (x.pair e)) ms (x.pair f.a) ((x.reg c).toNat % 4096) 0x11
         (mcldBytes (t == .bf16x2) (x.reg f.d).toNat) [] f.dc f.look.val)
  | .ok _ => .next s

theorem exec_mcldRed (hp : s.th.ctx.pred f.p = true) (ha : s.th.accs = []) :
    exec (.mcldRed f c e t op) s =
      if mcldCount (t == .bf16x2) (s.th.ctx.reg f.d).toNat = false then illegal (setExt s)
      else if (s.th.ctx.pair f.a).toNat % 4 ≠ 0 then raiseCode (setExt s) cMisaligned (s.th.ctx.pair f.a)
      else if (s.th.ctx.pair e).toNat % 16 ≠ 0 then raiseCode (setExt s) cMisaligned (s.th.ctx.pair e)
      else if 2 ^ 46 < (s.th.ctx.pair f.a).toNat + mcldBytes (t == .bf16x2) (s.th.ctx.reg f.d).toNat
          ∨ groupOk s ((s.th.ctx.reg c).toNat % 4096) s.th.place.ctx = false then
        raiseCode (setExt s) cProt (s.th.ctx.pair f.a)
      else if spadTag (s.th.ctx.pair e) = false then raiseCode (setExt s) cProt (s.th.ctx.pair e)
      else mcldTo s f c e t op := by
  show execMcldRed f c e t op s = _
  unfold execMcldRed
  rw [guarded_true s f.p _ hp, oldest_none s _ ha]
  simp only [setExt_th, groupOk_congr (setExt_fab s), groupMembers_congr (setExt_fab s), bne_iff_ne, Bool.or_eq_true,
    decide_eq_true_eq, Bool.not_eq_true'] <;> rfl

section

variable {er : Exc} {cid : Cid} {slot off : Nat}

theorem mcldTo_error (h : resolveSpad (setExt s) (s.th.ctx.pair e) 16 (4 * (s.th.ctx.reg f.d).toNat) = .error er) :
    mcldTo s f c e t op = raise (setExt s) er := by
  simp only [mcldTo, h]

variable (h : resolveSpad (setExt s) (s.th.ctx.pair e) 16 (4 * (s.th.ctx.reg f.d).toNat) = .ok (.spad cid slot off))
include h

theorem mcldTo_bad (hg : gate (setExt s) s.th.place.die .wr (.spad cid slot off) (s.th.ctx.pair e) (4 * (s.th.ctx.reg f.d).toNat)
    = .bad er) : mcldTo s f c e t op = raise (setExt s) er := by
  simp only [mcldTo, h, hg]

theorem mcldTo_waits {g : Gate} (hg : gate (setExt s) s.th.place.die .wr (.spad cid slot off) (s.th.ctx.pair e)
    (4 * (s.th.ctx.reg f.d).toNat) = g) (hw : g = .park ∨ g = .wait) : mcldTo s f c e t op = .next s := by
  rcases hw with rfl | rfl <;> simp only [mcldTo, h, hg]

variable (hg : gate (setExt s) s.th.place.die .wr (.spad cid slot off) (s.th.ctx.pair e) (4 * (s.th.ctx.reg f.d).toNat) = .go)
include hg

theorem mcldTo_nobody (hm : groupMembers s ((s.th.ctx.reg c).toNat % 4096) = []) :
    mcldTo s f c e t op = .next (advance (setExt s)) := by
  simp only [mcldTo, h, hg, hm, List.isEmpty_nil, if_true]
  rfl

theorem mcldTo_goes (hm : groupMembers s ((s.th.ctx.reg c).toNat % 4096) ≠ []) :
    mcldTo s f c e t op
      = issueGroup (mcldPresence (setExt s) cid slot off (4 * (s.th.ctx.reg f.d).toNat) false)
          (.mcldRed (groupMembers s ((s.th.ctx.reg c).toNat % 4096)) op (t == .bf16x2) (s.th.ctx.reg f.d).toNat (s.th.ctx.pair e))
          (groupMembers s ((s.th.ctx.reg c).toNat % 4096)) (s.th.ctx.pair f.a) ((s.th.ctx.reg c).toNat % 4096) 0x11
          (mcldBytes (t == .bf16x2) (s.th.ctx.reg f.d).toNat) [] f.dc f.look.val := by
  have hne : (groupMembers s ((s.th.ctx.reg c).toNat % 4096)).isEmpty = false := List.isEmpty_eq_false_iff.mpr hm
  simp only [mcldTo, h, hg, hne, Bool.false_eq_true, if_false]

end

end

end Sys2Proof.Machine

end

-- ==== Sys2Proof/Proofs/ArmAndPost.lean ====

section

/-!
`coll.arm` and `shf.post` (R384, R387 to R389, R395): what an arm leaves of its slot and of the counter that it names, and the cases of
the two instructions.
-/

namespace Sys2Proof.Machine

/-! ## The operation that an arm leaves (R387, R389) -/

section

variable (s : State) (die n : Nat) (o : CollOp)

theorem getCtr_takeSlot (c : Nat) : getCtr (takeSlot s die n o) die c = getCtr s die c := by
  rw [getCtr, takeSlot_eng, getCtr]

theorem getCtr_bumpOrder (grp c : Nat) : getCtr (bumpOrder s grp) die c = getCtr s die c := by
  rw [getCtr, bumpOrder_eng, getCtr]

theorem findColl_bumpOrder (grp k : Nat) : findColl (bumpOrder s grp) die k = findColl s die k := by
  rw [findColl, bumpOrder_eng, findColl]

/-- An operation that runs already is not fired. -/
theorem ctrFired_running (c : Nat) (v : Word) {p : CollOp} (h : p.st ≠ 0) : ctrFired s die c v p = p := by
  rw [ctrFired, if_neg (by simp [h])]

/-- The value that an operation of kind 4 or 5 gives its counter, or the counter's own. -/
def armValue (d : List Byte) (v : Word) : Word :=
  if dKind d = 4 then satAdd v (dValue d) else if 4 ≤ dKind d then wOf (dValue d) else v

theorem armColl_kept : ThreadKept s (armColl s die n o) := by
  unfold armColl
  dsimp only
  split
  · split
    · exact takeSlot_kept ..
    · exact (takeSlot_kept ..).trans (setCtr_kept ..)
  · exact (takeSlot_kept ..).trans (bumpOrder_kept ..)

/-- An operation of kind 4 or 5 as its arm leaves it: over as soon as it is taken. -/
def armDone (o : CollOp) : CollOp := { o with st := 1, fired := true, members := [] }

theorem armColl_done (hk : 4 ≤ dKind o.desc) :
    armColl s die n o = if o.ctr = 255 then takeSlot s die n (armDone o)
      else setCtr (takeSlot s die n (armDone o)) die o.ctr (armValue o.desc (getCtr s die o.ctr).val) := by
  have hv : armValue o.desc (getCtr s die o.ctr).val
      = if dKind o.desc = 4 then satAdd (getCtr s die o.ctr).val (dValue o.desc) else wOf (dValue o.desc) := by
    rw [armValue, if_pos hk]
  rw [hv, ← getCtr_takeSlot s die n (armDone o), armColl, if_pos hk]
  rfl

/-- The operation in the slot that an arm takes. -/
theorem findColl_armColl : ∃ p, findColl (armColl s die n o) die n = some p ∧ p.desc = o.desc ∧ p.shf = o.shf
    ∧ p.gen = ((getEng s die).gens.getD n 0 + 1) % 256 ∧ p.tid = o.tid ∧ p.dc = o.dc
    ∧ p.st = (if dKind o.desc < 4 then o.st else 1)
    ∧ p.fired = (decide (4 ≤ dKind o.desc) || o.ctr == 255 || decide (o.thresh ≤ (getCtr s die o.ctr).val.toNat)) := by
  by_cases hk : 4 ≤ dKind o.desc
  · have ht := findColl_takeSlot s die n (armDone o)
    have hn : ¬dKind o.desc < 4 := by omega
    refine ⟨{ armDone o with slot := n, gen := ((getEng s die).gens.getD n 0 + 1) % 256 }, ?_, rfl, rfl, rfl, rfl, rfl,
      by rw [if_neg hn]; rfl, by simp [hk, armDone]⟩
    rw [armColl_done s die n o hk]
    split
    · exact ht
    · rw [findColl_setCtr _ _ ht, ctrFired_running _ _ _ _ (by simp [armDone])]
  · have ht := findColl_takeSlot s die n
      { o with fired := o.ctr == 255 || decide (o.thresh ≤ (getCtr s die o.ctr).val.toNat), order := armOrder s o.grp }
    rw [armColl, if_neg hk, findColl_bumpOrder]
    exact ⟨_, ht, rfl, rfl, rfl, rfl, rfl, by rw [if_pos (by omega)], by simp [hk]⟩

/-- The counter that it names. -/
theorem getCtr_armColl (hc : o.ctr ≠ 255) (hl : o.ctr < (getEng s die).ctrs.length) :
    getCtr (armColl s die n o) die o.ctr = { getCtr s die o.ctr with val := armValue o.desc (getCtr s die o.ctr).val } := by
  by_cases hk : 4 ≤ dKind o.desc
  · rw [armColl_done s die n o hk, if_neg hc, getCtr_setCtr _ _ _ _ (by rw [takeSlot_eng]; exact hl), getCtr_takeSlot]
  · rw [armColl, if_neg hk, getCtr_bumpOrder, getCtr_takeSlot, armValue, if_neg (by omega), if_neg hk]

end

/-! ## `coll.arm` (R389) -/

/-- The state in which an arm issues: its cluster is marked where the collective has data (R336). -/
def armMarked (s : State) (d : List Byte) : State := if dKind d < 4 then setExt s else s

/-- The counter of the descriptor is held by the launch. -/
def armHeld (s : State) (d : List Byte) (lid : Nat) : State :=
  if dCtr d = 255 then armMarked s d else holdCtr (armMarked s d) s.th.place.die (dCtr d) lid

/-- The state once the collective of descriptor `d` is armed in slot `n`. -/
def armed (s : State) (f : FmtC) (d : List Byte) (l : Launch) (n : Nat) : State :=
  armColl (armHeld s d l.lid) s.th.place.die n
    (mkColl (armHeld s d l.lid) l (some s.th.id) f.dc false d (dCtr d) (dThresh d) (dGroup d % 4096) none)

theorem armMarked_same (s : State) (d : List Byte) :
    (armMarked s d).th = s.th ∧ (armMarked s d).fab = s.fab ∧ (armMarked s d).coll0 = s.coll0 ∧ (armMarked s d).coll1 = s.coll1 := by
  unfold armMarked
  split
  · exact ⟨setExt_th s, setExt_fab s, setExt_coll0 s, setExt_coll1 s⟩
  · exact ⟨rfl, rfl, rfl, rfl⟩

theorem armMarked_kept (s : State) (d : List Byte) : ThreadKept s (armMarked s d) := by
  unfold armMarked
  split
  · exact setExt_kept s
  · exact .refl s

theorem armMarked_eng (s : State) (d : List Byte) (die : Nat) : getEng (armMarked s d) die = getEng s die :=
  have h := armMarked_same s d
  getEng_congr h.2.2.1 h.2.2.2 die

theorem armHeld_kept (s : State) (d : List Byte) (lid : Nat) : ThreadKept s (armHeld s d lid) := by
  unfold armHeld
  split
  · exact armMarked_kept s d
  · exact (armMarked_kept s d).trans (holdCtr_kept ..)

/-- Holding a counter leaves the generations of the engine, and its counters' values. -/
theorem armHeld_gens (s : State) (d : List Byte) (lid : Nat) :
    (getEng (armHeld s d lid) s.th.place.die).gens = (getEng s s.th.place.die).gens := by
  unfold armHeld
  split
  · rw [armMarked_eng]
  · rw [holdCtr_eng, armMarked_eng]

theorem armHeld_ctrs_length (s : State) (d : List Byte) (lid : Nat) :
    (getEng (armHeld s d lid) s.th.place.die).ctrs.length = (getEng s s.th.place.die).ctrs.length := by
  unfold armHeld
  split
  · rw [armMarked_eng]
  · rw [holdCtr_eng, armMarked_eng]
    simp

theorem armMarked_getCtr (s : State) (d : List Byte) (die c : Nat) : getCtr (armMarked s d) die c = getCtr s die c := by
  rw [getCtr, armMarked_eng, getCtr]

theorem armHeld_val (s : State) (d : List Byte) (lid : Nat) :
    (getCtr (armHeld s d lid) s.th.place.die (dCtr d)).val = (getCtr s s.th.place.die (dCtr d)).val := by
  unfold armHeld
  split
  · rw [armMarked_getCtr]
  · rw [getCtr_holdCtr_val, armMarked_getCtr]

theorem armHeld_holder {s : State} {d : List Byte} (lid : Nat) (hc : dCtr d ≠ 255)
    (hl : dCtr d < (getEng s s.th.place.die).ctrs.length) :
    (getCtr (armHeld s d lid) s.th.place.die (dCtr d)).holder = some lid := by
  rw [armHeld, if_neg hc, getCtr_holdCtr _ _ _ _ (by rw [armMarked_eng]; exact hl)]

section

variable (s : State) (f : FmtC) (d : List Byte) (l : Launch) (n : Nat)

theorem armed_kept : ThreadKept s (armed s f d l n) := (armHeld_kept s d l.lid).trans (armColl_kept ..)

/-- The collective in the slot that it takes. -/
theorem findColl_armed : ∃ p, findColl (armed s f d l n) s.th.place.die n = some p ∧ p.desc = d ∧ p.shf = false
    ∧ p.gen = ((getEng s s.th.place.die).gens.getD n 0 + 1) % 256 ∧ p.tid = some s.th.id ∧ p.dc = f.dc
    ∧ p.st = (if dKind d < 4 then 0 else 1)
    ∧ p.fired = (decide (4 ≤ dKind d) || dCtr d == 255 || decide (dThresh d ≤ (getCtr s s.th.place.die (dCtr d)).val.toNat)) := by
  obtain ⟨p, hp, hdesc, hshf, hgen, htid, hdc, hst, hfired⟩ := findColl_armColl (armHeld s d l.lid) s.th.place.die n
    (mkColl (armHeld s d l.lid) l (some s.th.id) f.dc false d (dCtr d) (dThresh d) (dGroup d % 4096) none)
  refine ⟨p, hp, hdesc, hshf, ?_, htid, hdc, hst, ?_⟩
  · rw [hgen, armHeld_gens]
  · rw [hfired, ← armHeld_val s d l.lid]
    rfl

variable {d}

/-- The counter of its descriptor, held and with its new value. -/
theorem getCtr_armed (hc : dCtr d ≠ 255) (hl : dCtr d < (getEng s s.th.place.die).ctrs.length) :
    (getCtr (armed s f d l n) s.th.place.die (dCtr d)).holder = some l.lid
      ∧ (getCtr (armed s f d l n) s.th.place.die (dCtr d)).val = armValue d (getCtr s s.th.place.die (dCtr d)).val := by
  have h := getCtr_armColl (armHeld s d l.lid) s.th.place.die n
    (mkColl (armHeld s d l.lid) l (some s.th.id) f.dc false d (dCtr d) (dThresh d) (dGroup d % 4096) none) hc
    (by rw [armHeld_ctrs_length]; exact hl)
  have hc' : (mkColl (armHeld s d l.lid) l (some s.th.id) f.dc false d (dCtr d) (dThresh d) (dGroup d % 4096) none).ctr = dCtr d := rfl
  rw [hc'] at h
  rw [armed, h]
  exact ⟨armHeld_holder l.lid hc hl, by rw [← armHeld_val s d l.lid]; rfl⟩

/-- The value that a well-formed descriptor gives a counter. -/
theorem armValue_of_ok {m : Nat} (h : collDescOk d m = true) (v : Word) :
    armValue d v = if dKind d = 4 then satAdd v (dValue d) else if dKind d = 5 then BitVec.ofNat 32 (dValue d) else v := by
  have hk : dKind d ≤ 5 := by
    unfold collDescOk at h
    simp only [Bool.and_eq_true, decide_eq_true_eq] at h
    tauto
  rw [armValue]
  split
  · rfl
  · split
    · next h4 h5 => rw [if_pos (by omega), wOf]
    · next h4 h5 => rw [if_neg (by omega)]

end

/-! ## The cases of `coll.arm` -/

section

variable {s : State} {f : FmtC} {xo : Option (BitVec 16)}

section

variable (hp : s.th.ctx.pred f.p = true) (ha : s.th.accs = [])
include hp ha

theorem exec_collArm_error {er : Exc} (h : readDesc s (eaXO s.th.ctx f.a xo) = .error er) : exec (.collArm f xo) s = raise s er := by
  show execCollArm f xo s = _
  unfold execCollArm
  rw [guarded_true s f.p _ hp, oldest_none s _ ha]
  simp only [h]

theorem exec_collArm_waits (h : readDesc s (eaXO s.th.ctx f.a xo) = .ok none) : exec (.collArm f xo) s = .next s := by
  show execCollArm f xo s = _
  unfold execCollArm
  rw [guarded_true s f.p _ hp, oldest_none s _ ha]
  simp only [h]

/-- R389: an arm with its descriptor: the group, the fields, the counter and the slot are judged in turn. -/
theorem exec_collArm {d : List Byte} {l : Launch} (h : readDesc s (eaXO s.th.ctx f.a xo) = .ok (some d))
    (hl : findLaunch s s.th.id.lid = some l) :
    exec (.collArm f xo) s =
      if dKind d < 4 ∧ dGroup d < 4096 ∧ groupOk s (dGroup d % 4096) s.th.place.ctx = false then
        raiseCode (armMarked s d) cProt (eaXO s.th.ctx f.a xo)
      else if collDescOk d (groupMembers s (dGroup d % 4096)).length = false then endArm (armMarked s d) f (errHandle 1) false
      else if dCtr d ≠ 255 ∧ ctrElse s s.th.place.die (dCtr d) l.lid = true then endArm (armMarked s d) f (errHandle 0x14) false
      else (freeSlot (getEng s s.th.place.die)).elim (.next s) fun n =>
        endArm (armed s f d l n) f (handleOf n s.th.place.die ((getEng (armed s f d l n) s.th.place.die).gens.getD n 0) false) true := by
  have hm : (if dKind d < 4 then setExt s else s) = armMarked s d := rfl
  obtain ⟨hth, hfab, -, -⟩ := armMarked_same s d
  show execCollArm f xo s = _
  unfold execCollArm
  rw [guarded_true s f.p _ hp, oldest_none s _ ha]
  simp only [h, hl, hm, hth, groupOk_congr hfab, groupMembers_congr hfab, armMarked_eng, ctrElse, armMarked_getCtr, bne_iff_ne,
    Bool.and_eq_true, decide_eq_true_eq, Bool.not_eq_true', and_assoc]
  congr 3
  cases freeSlot (getEng s s.th.place.die) <;> rfl

end

end

end Sys2Proof.Machine

end

-- ==== Sys2Proof/Proofs/ShuffleInstructions.lean ====

section

/-!
The cases of `coll.arm`, `shf.post`, the waits and `shf.side` (R389, R390, R395 to R397), by how the thread goes on.
-/

namespace Sys2Proof.Machine

/-- Instruction `i` goes on to `t`: at most the registers `ds` have changed, and counter dc of `f` has stepped where `up`. -/
def WentOn (s : State) (f : FmtC) (i : Instr) (up : Bool) (ds : List Reg) (t : State) : Prop :=
  exec i s = .next t ∧ UnchangedBut ds s t ∧ t.th.accs = [] ∧ (∀ d : Fin 7, d ≠ f.dc → dcGet t.th d = dcGet s.th d)
    ∧ dcGet t.th f.dc = dcGet s.th f.dc + (if up ∧ f.dc.val < 6 then 1 else 0)

section

variable {s u : State} {f : FmtC} {i : Instr}

/-- An instruction that only goes on, after a step that keeps the thread. -/
theorem advance_went (h : exec i s = .next (advance u)) (k : ThreadKept s u) (ha : s.th.accs = []) :
    WentOn s f i false [] (advance u) := by
  obtain ⟨hun, hacc, hd⟩ := advance_goes k ha
  exact ⟨h, hun, hacc, fun d _ => hd d, (hd f.dc).trans (by simp)⟩

/-- An arm or a post that ends with handle `h`. -/
theorem endArm_went {h : Word} {up : Bool} (he : exec i s = endArm u f h up) (k : ThreadKept s u) (ha : s.th.accs = []) :
    ∃ t, WentOn s f i up [f.d] t ∧ (f.d ≠ 0 → t.th.ctx.reg f.d = h) ∧ t.coll0 = u.coll0 ∧ t.coll1 = u.coll1 := by
  obtain ⟨t, ht, hun, hacc, hd, hdc, hreg, hdev⟩ := endArm_goes k ha f h up
  exact ⟨t, ⟨he.trans ht, hun, hacc, hd, hdc⟩, hreg, hdev.coll0, hdev.coll1⟩

end

/-! ## `coll.arm` (R389) -/

/-- The group's check passes. -/
theorem not_refused {s : State} {d : List Byte} {ctx : Nat}
    (hok : dKind d < 4 → dGroup d < 4096 → groupOk s (dGroup d % 4096) ctx = true) :
    ¬(dKind d < 4 ∧ dGroup d < 4096 ∧ groupOk s (dGroup d % 4096) ctx = false) := by
  rintro ⟨hk, hg, hf⟩
  rw [hok hk hg] at hf
  cases hf

section

variable {s : State} {f : FmtC} {xo : Option (BitVec 16)} {d : List Byte} {l : Launch} (hp : s.th.ctx.pred f.p = true)
  (ha : s.th.accs = []) (h : readDesc s (eaXO s.th.ctx f.a xo) = .ok (some d)) (hl : findLaunch s s.th.id.lid = some l)
include hp ha h hl

theorem collArm_refused (hk : dKind d < 4) (hg : dGroup d < 4096) (hok : groupOk s (dGroup d % 4096) s.th.place.ctx = false) :
    exec (.collArm f xo) s = raiseCode (armMarked s d) cProt (eaXO s.th.ctx f.a xo) := by
  rw [exec_collArm hp ha h hl, if_pos ⟨hk, hg, hok⟩]

variable (hok : dKind d < 4 → dGroup d < 4096 → groupOk s (dGroup d % 4096) s.th.place.ctx = true)
include hok

theorem collArm_bad (hb : collDescOk d (groupMembers s (dGroup d % 4096)).length = false) :
    ∃ u, WentOn s f (.collArm f xo) false [f.d] u ∧ (f.d ≠ 0 → u.th.ctx.reg f.d = 0x80000001) ∧ u.coll0 = s.coll0 ∧ u.coll1 = s.coll1 := by
  have he := exec_collArm hp ha h hl
  rw [if_neg (not_refused hok), if_pos hb] at he
  obtain ⟨-, -, h0, h1⟩ := armMarked_same s d
  obtain ⟨t, hw, hreg, g0, g1⟩ := endArm_went he (armMarked_kept s d) ha
  exact ⟨t, hw, hreg, g0.trans h0, g1.trans h1⟩

variable (hb : ¬collDescOk d (groupMembers s (dGroup d % 4096)).length = false)
include hb

theorem collArm_taken (ht : dCtr d ≠ 255 ∧ ctrElse s s.th.place.die (dCtr d) l.lid = true) :
    ∃ u, WentOn s f (.collArm f xo) false [f.d] u ∧ (f.d ≠ 0 → u.th.ctx.reg f.d = 0x80000014) ∧ u.coll0 = s.coll0 ∧ u.coll1 = s.coll1 := by
  have he := exec_collArm hp ha h hl
  rw [if_neg (not_refused hok), if_neg hb, if_pos ht] at he
  obtain ⟨-, -, h0, h1⟩ := armMarked_same s d
  obtain ⟨t, hw, hreg, g0, g1⟩ := endArm_went he (armMarked_kept s d) ha
  exact ⟨t, hw, hreg, g0.trans h0, g1.trans h1⟩

variable (ht : ¬(dCtr d ≠ 255 ∧ ctrElse s s.th.place.die (dCtr d) l.lid = true))
include ht

theorem collArm_full (hs : freeSlot (getEng s s.th.place.die) = none) : exec (.collArm f xo) s = .next s := by
  rw [exec_collArm hp ha h hl, if_neg (not_refused hok), if_neg hb, if_neg ht, hs]
  rfl

theorem collArm_takes {n : Nat} (hs : freeSlot (getEng s s.th.place.die) = some n) :
    ∃ u op, WentOn s f (.collArm f xo) true [f.d] u ∧ findColl u s.th.place.die n = some op ∧ op.desc = d ∧ op.shf = false
      ∧ op.gen = ((getEng s s.th.place.die).gens.getD n 0 + 1) % 256 ∧ op.tid = some s.th.id ∧ op.dc = f.dc
      ∧ op.st = (if dKind d < 4 then 0 else 1)
      ∧ op.fired = (decide (4 ≤ dKind d) || dCtr d == 255 || decide (dThresh d ≤ (getCtr s s.th.place.die (dCtr d)).val.toNat))
      ∧ (f.d ≠ 0 → u.th.ctx.reg f.d = handleOf n s.th.place.die ((getEng u s.th.place.die).gens.getD n 0) false)
      ∧ (dCtr d ≠ 255 → dCtr d < (getEng s s.th.place.die).ctrs.length →
        (getCtr u s.th.place.die (dCtr d)).holder = some l.lid
          ∧ (getCtr u s.th.place.die (dCtr d)).val
            = (if dKind d = 4 then satAdd (getCtr s s.th.place.die (dCtr d)).val (dValue d)
               else if dKind d = 5 then BitVec.ofNat 32 (dValue d) else (getCtr s s.th.place.die (dCtr d)).val)) := by
  have he := exec_collArm hp ha h hl
  rw [if_neg (not_refused hok), if_neg hb, if_neg ht, hs] at he
  obtain ⟨t, hw, hreg, g0, g1⟩ := endArm_went he (armed_kept s f d l n) ha
  have hg := getEng_congr g0 g1 s.th.place.die
  obtain ⟨p, hf, hdesc, hshf, hgen, htid, hdc, hst, hfired⟩ := findColl_armed s f d l n
  refine ⟨t, p, hw, by rw [findColl, hg]; exact hf, hdesc, hshf, hgen, htid, hdc, hst, hfired, by rw [hg]; exact hreg, fun hc hlen => ?_⟩
  rw [getCtr, hg, ← armValue_of_ok (Bool.eq_true_of_not_eq_false hb)]
  exact getCtr_armed s f l n hc hlen

end

/-! ## `shf.post` (R395) -/

section

variable (s : State) (f : FmtC) (d bs : List Byte) (l : Launch) (n : Nat)

/-- The shuffle that a post makes of descriptor `d` and side list `bs`. -/
def postOp : CollOp :=
  { mkColl (setExt s) l (some s.th.id) f.dc true d 255 0 (dGroup d % 4096) none with
    sides := (sideList bs (shNside d)).1, sideRej := (sideList bs (shNside d)).2 }

theorem postOp_members : (postOp s f d bs l).members = groupMembers s (dGroup d % 4096) := by
  rw [postOp, mkColl, groupMembers_congr (setExt_fab s)]

/-- The state once it has its slot. -/
def postSlot : State := takeSlot (setExt s) s.th.place.die n (postOp s f d bs l)

/-- The state once it has tried its launch point. -/
def postTaken : State :=
  match findColl (postSlot s f d bs l n) s.th.place.die n with
  | none => postSlot s f d bs l n
  | some p => launchColl (postSlot s f d bs l n) s.th.place.die p

/-- The state once its side list is judged as well. -/
def posted : State := runSides (postTaken s f d bs l n) s.th.place.die n

/-- The part that takes its slot keeps being the operation posted, through its launch point. -/
theorem postTaken_partKept : PartKept s.th.place.die n (postSlot s f d bs l n) (postTaken s f d bs l n) := by
  unfold postTaken
  split
  · exact .refl ..
  · next p hf => exact launchColl_partKept hf

theorem posted_partKept : PartKept s.th.place.die n (postTaken s f d bs l n) (posted s f d bs l n) := runSides_partKept ..

end

section

variable {s : State} {f : FmtC} {xo : Option (BitVec 16)} (hp : s.th.ctx.pred f.p = true) (ha : s.th.accs = [])
include hp ha

theorem exec_shfPost_error {er : Exc} (h : readDesc s (eaXO s.th.ctx f.a xo) = .error er) :
    exec (.shfPost f xo) s = raise (setExt s) er := by
  show execShfPost f xo s = _
  unfold execShfPost
  rw [guarded_true s f.p _ hp, oldest_none s _ ha]
  simp only [h]

theorem exec_shfPost_waits (h : readDesc s (eaXO s.th.ctx f.a xo) = .ok none) : exec (.shfPost f xo) s = .next s := by
  show execShfPost f xo s = _
  unfold execShfPost
  rw [guarded_true s f.p _ hp, oldest_none s _ ha]
  simp only [h]

end

/-- A shuffle is found in the engines alone. -/
theorem findShf_congr {s t : State} (h : ∀ die, getEng t die = getEng s die) (sid : Nat) : findShf t sid = findShf s sid := by
  unfold findShf
  simp only [h]

theorem setExt_getEng (s : State) (die : Nat) : getEng (setExt s) die = getEng s die :=
  getEng_congr (setExt_coll0 s) (setExt_coll1 s) die

/-- A post whose fields are in their limits: its side list is read, and its slot is taken. -/
def postTo (s : State) (f : FmtC) (d : List Byte) (l : Launch) : Out :=
  match readSides (setExt s) d with
  | .error _ => endArm (setExt s) f (errHandle 1) false
  | .ok none => .next s
  | .ok (some bs) =>
    match freeSlot (getEng s s.th.place.die) with
    | none => .next s
    | some n => endArm (posted s f d bs l n) f
        (handleOf n s.th.place.die ((getEng (postTaken s f d bs l n) s.th.place.die).gens.getD n 0) true) true

section

variable {s : State} (f : FmtC) {d : List Byte} (l : Launch)

theorem postTo_error {m : Nat} (h : readSides (setExt s) d = .error m) : postTo s f d l = endArm (setExt s) f (errHandle 1) false := by
  simp only [postTo, h]

theorem postTo_waits (h : readSides (setExt s) d = .ok none) : postTo s f d l = .next s := by
  simp only [postTo, h]

variable {bs : List Byte} (h : readSides (setExt s) d = .ok (some bs))
include h

theorem postTo_full (hs : freeSlot (getEng s s.th.place.die) = none) : postTo s f d l = .next s := by
  simp only [postTo, h, hs]

theorem postTo_goes {n : Nat} (hs : freeSlot (getEng s s.th.place.die) = some n) :
    postTo s f d l = endArm (posted s f d bs l n) f
      (handleOf n s.th.place.die ((getEng (postTaken s f d bs l n) s.th.place.die).gens.getD n 0) true) true := by
  simp only [postTo, h, hs]

end

section

variable {s : State} {f : FmtC} {xo : Option (BitVec 16)} {d : List Byte} {l : Launch} (hp : s.th.ctx.pred f.p = true)
  (ha : s.th.accs = []) (h : readDesc s (eaXO s.th.ctx f.a xo) = .ok (some d)) (hl : findLaunch s s.th.id.lid = some l)
include hp ha h hl

/-- R395: a post with its descriptor: the group and the fields are judged in turn. -/
theorem exec_shfPost :
    exec (.shfPost f xo) s =
      if dGroup d < 4096 ∧ groupOk s (dGroup d % 4096) s.th.place.ctx = false then raiseCode (setExt s) cProt (eaXO s.th.ctx f.a xo)
      else if shfDescOk d = false ∨ s.fab.selfIdx.toNat ∉ groupMembers s (dGroup d % 4096)
          ∨ (findShf s (sidOf l.ctx (shSid d))).isSome = true then endArm (setExt s) f (errHandle 1) false
      else postTo s f d l := by
  show execShfPost f xo s = _
  unfold execShfPost
  rw [guarded_true s f.p _ hp, oldest_none s _ ha]
  simp only [h, hl, setExt_th, groupOk_congr (setExt_fab s), groupMembers_congr (setExt_fab s), setExt_fab, setExt_getEng,
    findShf_congr (setExt_getEng s), Bool.and_eq_true, Bool.or_eq_true, decide_eq_true_eq, Bool.not_eq_true', or_assoc,
    List.contains_eq_mem, decide_eq_false_iff_not]
  rfl

theorem shfPost_refused (hg : dGroup d < 4096) (hok : groupOk s (dGroup d % 4096) s.th.place.ctx = false) :
    exec (.shfPost f xo) s = raiseCode (setExt s) cProt (eaXO s.th.ctx f.a xo) := by
  rw [exec_shfPost hp ha h hl, if_pos ⟨hg, hok⟩]

variable (hok : dGroup d < 4096 → groupOk s (dGroup d % 4096) s.th.place.ctx = true)
include hok

theorem shfPost_fields :
    exec (.shfPost f xo) s =
      if shfDescOk d = false ∨ s.fab.selfIdx.toNat ∉ groupMembers s (dGroup d % 4096)
          ∨ (findShf s (sidOf l.ctx (shSid d))).isSome = true then endArm (setExt s) f (errHandle 1) false
      else postTo s f d l := by
  rw [exec_shfPost hp ha h hl, if_neg]
  rintro ⟨hg, hf⟩
  rw [hok hg] at hf
  cases hf

theorem shfPost_bad (hb : shfDescOk d = false ∨ s.fab.selfIdx.toNat ∉ groupMembers s (dGroup d % 4096)
    ∨ (findShf s (sidOf l.ctx (shSid d))).isSome = true ∨ ∃ m, readSides (setExt s) d = .error m) :
    ∃ u, WentOn s f (.shfPost f xo) false [f.d] u ∧ (f.d ≠ 0 → u.th.ctx.reg f.d = 0x80000001) ∧ u.coll0 = s.coll0 ∧ u.coll1 = s.coll1 := by
  have he := shfPost_fields hp ha h hl hok
  have ends : exec (.shfPost f xo) s = endArm (setExt s) f (errHandle 1) false := by
    split at he
    · exact he
    · next hf =>
        obtain hb | hb | hb | ⟨m, hm⟩ := hb
        · exact absurd (.inl hb) hf
        · exact absurd (.inr (.inl hb)) hf
        · exact absurd (.inr (.inr hb)) hf
        · rw [he, postTo_error f l hm]
  obtain ⟨t, hw, hreg, g0, g1⟩ := endArm_went ends (setExt_kept s) ha
  exact ⟨t, hw, hreg, g0.trans (setExt_coll0 s), g1.trans (setExt_coll1 s)⟩

variable (hgood : shfDescOk d = true ∧ s.fab.selfIdx.toNat ∈ groupMembers s (dGroup d % 4096)
  ∧ findShf s (sidOf l.ctx (shSid d)) = none)
include hgood

theorem shfPost_judged : exec (.shfPost f xo) s = postTo s f d l := by
  obtain ⟨hd, hm, hn⟩ := hgood
  rw [shfPost_fields hp ha h hl hok, if_neg]
  simp [hd, hm, hn]

theorem shfPost_takes {bs : List Byte} {n : Nat} (hbs : readSides (setExt s) d = .ok (some bs))
    (hs : freeSlot (getEng s s.th.place.die) = some n) :
    ∃ u op, WentOn s f (.shfPost f xo) true [f.d] u ∧ findColl u s.th.place.die n = some op ∧ op.desc = d ∧ op.shf = true
      ∧ op.tid = some s.th.id ∧ op.dc = f.dc ∧ op.members = groupMembers s (dGroup d % 4096)
      ∧ (f.d ≠ 0 → u.th.ctx.reg f.d = handleOf n s.th.place.die ((getEng u s.th.place.die).gens.getD n 0) true) := by
  have he := (shfPost_judged hp ha h hl hok hgood).trans (postTo_goes f l hbs hs)
  have k1 := postTaken_partKept s f d bs l n
  have k2 := posted_partKept s f d bs l n
  have kept : ThreadKept s (posted s f d bs l n) :=
    (setExt_kept s).trans ((takeSlot_kept ..).trans (k1.trans k2).kept)
  obtain ⟨t, hw, hreg, g0, g1⟩ := endArm_went he kept ha
  have hg := getEng_congr g0 g1 s.th.place.die
  obtain ⟨p, hf, hsame⟩ := (k1.trans k2).part _ (findColl_takeSlot (setExt s) s.th.place.die n (postOp s f d bs l))
  exact ⟨t, p, hw, by rw [findColl, hg]; exact hf, hsame.desc, hsame.shf, hsame.tid, hsame.dc,
    by rw [hsame.members, ← postOp_members s f d bs l], by rw [hg, k2.gens]; exact hreg⟩

end

/-! ## The waits (R390) -/

section

variable {s : State} {f : FmtC} (shf : Bool) (hp : s.th.ctx.pred f.p = true) (ha : s.th.accs = [])
include hp ha

theorem collWaitOp_waits (h : waitAnswer s (s.th.ctx.reg f.a) shf = none) : collWaitOp f shf s = .next s := by
  rw [collWaitOp, guarded_true s f.p _ hp, oldest_none s _ ha]
  simp only [h]

theorem collWaitOp_answers {w : Word} (h : waitAnswer s (s.th.ctx.reg f.a) shf = some w) :
    ∃ u, collWaitOp f shf s = .next u ∧ UnchangedBut [] s u
      ∧ u.th.ops = s.th.ops ++ [⟨[(f.d, w)], f.dc, f.look.val, 0, s.th.seq, s.th.ctx.icount⟩] := by
  have he : collWaitOp f shf s = issueOp s f [(f.d, w)] 0 := by
    rw [collWaitOp, guarded_true s f.p _ hp, oldest_none s _ ha]
    simp only [h]
  obtain ⟨t, ht, hops, -, -, -, hregs, hpreds, hmem⟩ := issueOp_next s f [(f.d, w)] 0
  have m := advance_moved s
  have hthread : t.th = dcStep { (advance s).th with
      ops := (advance s).th.ops ++ [⟨[(f.d, w)], f.dc, f.look.val, 0, (advance s).th.seq, s.th.ctx.icount⟩],
      seq := (advance s).th.seq + 1 } f.dc := by
    cases ht
    rfl
  refine ⟨t, he.trans ht, ⟨hregs, hpreds, ?_, ?_, hmem⟩, hops⟩
  · rw [hthread, dcStep_same]
    exact m.fpst
  · obtain ⟨h1, h2, h3, h4, h5, h6, h7, h8, h9, h10, h11⟩ := m.specials
    constructor <;> rw [hthread, dcStep_same] <;> assumption

end

end Sys2Proof.Machine

end

-- ==== Sys2Proof/Proofs/ShuffleSides.lean ====

section

/-!
`shf.side` (R396, R397): a declaration is refused, waits for a page, enters the table with its locks, or leaves it.
-/

namespace Sys2Proof.Machine

/-! ## The declarations that a step leaves to judge -/

/-- The operation in slot `n` keeps the declarations that it still owes. -/
def SidesKept (die n : Nat) (s t : State) : Prop :=
  ∀ o, findColl s die n = some o → ∃ p, findColl t die n = some p ∧ p.sides = o.sides

section

variable {die n : Nat} {s t u : State}

theorem SidesKept.trans (h : SidesKept die n s t) (k : SidesKept die n t u) : SidesKept die n s u := by
  intro o ho
  obtain ⟨p, hp, hop⟩ := h o ho
  obtain ⟨q, hq, hpq⟩ := k p hp
  exact ⟨q, hq, hpq.trans hop⟩

theorem SidesKept.of_ops (h : (getEng t die).ops = (getEng s die).ops) : SidesKept die n s t :=
  fun o ho => ⟨o, by rw [findColl, h]; exact ho, rfl⟩

theorem evictSide_sidesKept (s : State) (die n : Nat) (u : UnitTag) (count : Bool) : SidesKept die n s (evictSide s die u count) := by
  rw [evictSide_eq]
  split
  · intro o ho
    rw [findColl] at ho
    rw [findColl_of_ops (by rw [sideLeft_eng]), find_slot_map, ho]
    · refine ⟨_, rfl, ?_⟩
      dsimp only
      split <;> rfl
    · intro x
      split <;> rfl
  · exact .of_ops rfl

theorem sideRoom_sidesKept (s : State) (die n : Nat) (u : UnitTag) : SidesKept die n s (sideRoom s die u) := by
  have h0 := evictSide_sidesKept s die n u false
  unfold sideRoom
  dsimp only
  split
  · split
    · exact h0
    · exact h0.trans (evictSide_sidesKept _ die n _ true)
  · exact h0

theorem enterSide_sidesKept (s : State) (die n : Nat) (o : CollOp) (u : UnitTag) (segs : List CopySeg) :
    SidesKept die n s (enterSide s die o u segs) := by
  rw [enterSide_eq]
  exact (sideRoom_sidesKept s die n u).trans (.of_ops (by rw [sideEntered_eng]))

/-- With no declaration left nothing is judged. -/
theorem judgeSides_none {s : State} {die n : Nat} {o : CollOp} (h : findColl s die n = some o) (hs : o.sides = []) (fuel : Nat) :
    judgeSides (fuel + 1) s die n = s := by
  rw [judgeSides, h]
  simp only [hs]

end

/-! ## A new declaration (R396) -/

section

variable {s : State} {die : Nat} {o : CollOp} (hf : findColl s die o.slot = some o) (hs : o.sides = []) {snd rcv addr : Nat}

/-- The state with the declaration among those that the shuffle owes. -/
def sideAsked (s : State) (die : Nat) (o : CollOp) (y : Nat × Nat × Nat) : State :=
  setColl s die { o with sides := o.sides ++ [y] }

include hf in
theorem findColl_sideAsked (y : Nat × Nat × Nat) :
    findColl (sideAsked s die o y) die o.slot = some { o with sides := o.sides ++ [y] } :=
  findColl_setColl (o := { o with sides := o.sides ++ [y] }) hf

/-- What the declaration meets is what it meets before it is recorded. -/
theorem checkSide_sideAsked (y : Nat × Nat × Nat) (ys : List (Nat × Nat × Nat)) (snd rcv addr : Nat) :
    checkSide (sideAsked s die o y) die { o with sides := ys } snd rcv addr = checkSide s die o snd rcv addr :=
  checkSide_setEng ..

include hf hs

/-- The only declaration that a shuffle owes is judged. -/
theorem runSides_sideAsked :
    runSides (sideAsked s die o (snd, rcv, addr)) die o.slot = judgeSides 2 (sideAsked s die o (snd, rcv, addr)) die o.slot := by
  rw [runSides, findColl_sideAsked hf]
  simp [hs]

theorem sideAsked_refused (hc : checkSide s die o snd rcv addr = .refuse) :
    runSides (sideAsked s die o (snd, rcv, addr)) die o.slot
      = setColl (sideAsked s die o (snd, rcv, addr)) die { o with sides := [], lost := false, sideRej := o.sideRej + 1 } := by
  have hq := findColl_sideAsked hf (snd, rcv, addr)
  have hr := findColl_setColl (o := { o with sides := [], lost := false, sideRej := o.sideRej + 1 }) hq
  rw [runSides_sideAsked hf hs, judgeSides, hq]
  simp only [hs, List.nil_append, checkSide_sideAsked, hc]
  exact judgeSides_none hr rfl 0

theorem sideAsked_lost (hc : checkSide s die o snd rcv addr = .lost) :
    findColl (runSides (sideAsked s die o (snd, rcv, addr)) die o.slot) die o.slot
      = some { o with lost := true, sides := [(snd, rcv, addr)] } := by
  have hq := findColl_sideAsked hf (snd, rcv, addr)
  rw [hs] at hq
  rw [runSides_sideAsked hf hs, judgeSides, hq]
  simp only [List.nil_append, checkSide_sideAsked, hc]
  split
  · next hl => rw [hq, ← hl, List.nil_append]
  · exact findColl_setColl (o := { o with lost := true, sides := [(snd, rcv, addr)] }) hq

theorem sideAsked_enters {segs : List CopySeg} (hc : checkSide s die o snd rcv addr = .enter segs) :
    ∃ v : State, runSides (sideAsked s die o (snd, rcv, addr)) die o.slot
      = enterSide v die { o with sides := [] } ⟨o.sid, snd, rcv, 0⟩ segs := by
  have hq := findColl_sideAsked hf (snd, rcv, addr)
  have hr := findColl_setColl (o := { o with sides := [], lost := false }) hq
  refine ⟨setColl (sideAsked s die o (snd, rcv, addr)) die { o with sides := [], lost := false }, ?_⟩
  obtain ⟨p, hp, hsides⟩ := enterSide_sidesKept _ die o.slot { o with sides := [] } ⟨o.sid, snd, rcv, 0⟩ segs _ hr
  rw [runSides_sideAsked hf hs, judgeSides, hq]
  simp only [hs, List.nil_append, checkSide_sideAsked, hc]
  exact judgeSides_none hp hsides 0

end

/-- An entry and its locks stand once they are entered. -/
theorem enterSide_entered (s : State) (die : Nat) (o : CollOp) (u : UnitTag) (segs : List CopySeg) :
    (∃ y, y ∈ (getEng (enterSide s die o u segs) die).side ∧ y.u = u ∧ y.segs = segs)
      ∧ ∀ l ∈ rangeLocks (.side die u) die false segs, l ∈ (enterSide s die o u segs).mem.locks := by
  rw [enterSide_eq]
  refine ⟨⟨{ u := u, lid := o.lid, ctx := o.ctx, keyId := o.keyId, segs := segs }, ?_, rfl, rfl⟩, fun l hl => ?_⟩
  · rw [sideEntered_eng]
    simp
  · exact List.mem_append_right _ hl

/-! ## A declaration withdrawn (R396) -/

theorem evictSide_side (s : State) (die : Nat) (u : UnitTag) (count : Bool) :
    ∀ y ∈ (getEng (evictSide s die u count) die).side, y.u ≠ u := by
  rw [evictSide_eq]
  split
  · rw [sideLeft_eng]
    intro y hy
    simpa using (List.mem_filter.mp hy).2
  · next h =>
      intro y hy hu
      exact h (List.any_eq_true.mpr ⟨y, hy, by simp [hu]⟩)

theorem evictSide_locks {s : State} {die : Nat} {u : UnitTag} (count : Bool) (h : ∃ y ∈ (getEng s die).side, y.u = u) :
    ∀ l ∈ (evictSide s die u count).mem.locks, l.owner ≠ .side die u := by
  obtain ⟨y, hy, hu⟩ := h
  rw [evictSide_eq, if_pos (List.any_eq_true.mpr ⟨y, hy, by simp [hu]⟩)]
  intro l hl
  have hl' : l ∈ List.filter (fun l => l.owner != .side die u) _ := hl
  simpa using (List.mem_filter.mp hl').2

/-! ## The cases of `shf.side` (R397) -/

section

variable (s : State) (f : FmtC) (c : Reg) (off : BitVec 16)

/-- The SID that `shf.side` names. -/
def sideSid : Nat := sidOf s.th.place.ctx ((s.th.ctx.reg c).toNat % 65536)
/-- Its declaration: sender, receiver and address. -/
def sideDecl : Nat × Nat × Nat :=
  ((s.th.ctx.reg f.d).toNat % 1024, (s.th.ctx.reg f.d).toNat / 65536 % 1024, (eaOff s.th.ctx f.a off).toNat)
/-- The bits that R397 reserves are zero. -/
def sidePlain : Bool := (s.th.ctx.reg f.d).toNat / 1024 % 64 == 0 && (s.th.ctx.reg f.d).toNat / 0x4000000 % 32 == 0

/-- What a declaration leaves of the shuffle `o` that it names. -/
def sideDone (o : CollOp) : State :=
  if !sidePlain s f then
    setColl s s.th.place.die { o with sideRej := o.sideRej + 1 }
  else if (s.th.ctx.reg f.d).toNat / 0x80000000 = 1 then
    evictSide (setColl s s.th.place.die { o with sides := o.sides.filter fun y =>
      !(y.1 == (sideDecl s f off).1 && y.2.1 == (sideDecl s f off).2.1) }) s.th.place.die
      ⟨sideSid s c, (sideDecl s f off).1, (sideDecl s f off).2.1, 0⟩ true
  else runSides (sideAsked s s.th.place.die o (sideDecl s f off)) s.th.place.die o.slot

variable {s f c off}

theorem sideDone_kept (o : CollOp) : ThreadKept s (sideDone s f c off o) := by
  unfold sideDone
  split
  · exact setColl_kept ..
  · split
    · exact (setColl_kept ..).trans (evictSide_partKept _ _ o.slot _ _).kept
    · exact (setColl_kept ..).trans (runSides_partKept _ _ _).kept

variable (hp : s.th.ctx.pred f.p = true) (ha : s.th.accs = [])
include hp ha

theorem exec_shfSide_nothing (h : findShf s (sideSid s c) = none ∨ ∃ d o, findShf s (sideSid s c) = some (d, o) ∧ d ≠ s.th.place.die) :
    exec (.shfSide f c off) s = .next (advance s) := by
  show execShfSide f c off s = _
  unfold execShfSide
  rw [guarded_true s f.p _ hp, oldest_none s _ ha]
  unfold sideSid at h
  obtain h | ⟨d, o, h, hd⟩ := h
  · simp only [h]
    rfl
  · simp only [h, bne_iff_ne, if_pos hd]
    rfl

theorem exec_shfSide {o : CollOp} (h : findShf s (sideSid s c) = some (s.th.place.die, o)) :
    exec (.shfSide f c off) s = .next (advance (sideDone s f c off o)) := by
  show execShfSide f c off s = _
  unfold execShfSide
  rw [guarded_true s f.p _ hp, oldest_none s _ ha]
  unfold sideSid at h
  simp only [h, bne_self_eq_false, Bool.false_eq_true, if_false]
  unfold sideDone
  by_cases hpl : (!sidePlain s f) = true
  · rw [if_pos hpl]
    exact if_pos hpl
  · rw [if_neg hpl]
    refine (if_neg hpl).trans ?_
    split <;> rfl

/-- Whatever it names, `shf.side` goes on. -/
theorem shfSide_went : ∃ u, WentOn s f (.shfSide f c off) false [] u := by
  have nothing : ∀ h, ∃ u, WentOn s f (.shfSide f c off) false [] u :=
    fun h => ⟨_, advance_went (exec_shfSide_nothing (off := off) (c := c) hp ha h) (.refl s) ha⟩
  cases h : findShf s (sideSid s c) with
  | none => exact nothing (.inl h)
  | some q =>
    obtain ⟨d, o⟩ := q
    by_cases hd : d = s.th.place.die
    · subst hd
      exact ⟨_, advance_went (exec_shfSide hp ha h) (sideDone_kept o) ha⟩
    · exact nothing (.inr ⟨d, o, h, hd⟩)

end

/-! ## What a declaration leaves (R396) -/

theorem advance_coll (s : State) (die : Nat) : getEng (advance s) die = getEng s die :=
  getEng_congr (advance_moved s).device.coll0 (advance_moved s).device.coll1 die

theorem advance_findColl (s : State) (die n : Nat) : findColl (advance s) die n = findColl s die n := by
  rw [findColl, advance_coll, findColl]

theorem advance_mem (s : State) : (advance s).mem = s.mem := (advance_moved s).device.mem

section

variable {s : State} {f : FmtC} {c : Reg} {off : BitVec 16} {o : CollOp}

theorem sidePlain_iff : sidePlain s f = true ↔
    (s.th.ctx.reg f.d).toNat / 1024 % 64 = 0 ∧ (s.th.ctx.reg f.d).toNat / 0x4000000 % 32 = 0 := by
  simp [sidePlain]

theorem sideDone_odd (h : ¬sidePlain s f = true) :
    sideDone s f c off o = setColl s s.th.place.die { o with sideRej := o.sideRej + 1 } := by
  rw [sideDone, if_pos (by simpa using h)]

theorem sideDone_drop (h : sidePlain s f = true) (hv : (s.th.ctx.reg f.d).toNat / 0x80000000 = 1) :
    sideDone s f c off o = evictSide (setColl s s.th.place.die { o with sides := o.sides.filter fun y =>
      !(y.1 == (sideDecl s f off).1 && y.2.1 == (sideDecl s f off).2.1) }) s.th.place.die
      ⟨sideSid s c, (sideDecl s f off).1, (sideDecl s f off).2.1, 0⟩ true := by
  rw [sideDone, if_neg (by simp [h]), if_pos hv]

theorem sideDone_ask (h : sidePlain s f = true) (hv : (s.th.ctx.reg f.d).toNat / 0x80000000 ≠ 1) :
    sideDone s f c off o = runSides (sideAsked s s.th.place.die o (sideDecl s f off)) s.th.place.die o.slot := by
  rw [sideDone, if_neg (by simp [h]), if_neg hv]

end

end Sys2Proof.Machine

end

-- ==== Sys2Proof/Proofs/FabricInstructionsSettled.lean ====

section

/-! The fabric instructions, settled. -/

namespace Sys2Proof.Machine

/-- R171: an instruction that needs its thread's accesses performed waits while one is not. -/
theorem waits_older {s : State} {p : Pred} (k : State → Out) (hp : s.th.ctx.pred p = true) (ha : s.th.accs ≠ []) :
    guarded s p (fun s => oldest s k) = .next s := by
  rw [guarded_true s p _ hp, oldest_some s _ ha]

section

variable {s : State} {f : FmtC} (hp : s.th.ctx.pred f.p = true)
include hp

theorem fabric_waits (ha : s.th.accs ≠ []) (c e : Reg) (off : BitVec 16) (xo : Option (BitVec 16)) {i : Instr}
    (hi : i ∈ [.mcst f c .b32 off, .mcst f c .b64 off, .collArm f xo, .shfPost f xo, .collWait f, .shfWait f, .shfSide f c off]
      ∨ ∃ t op, i = .mcldRed f c e t op) : exec i s = .next s := by
  simp only [List.mem_cons, List.not_mem_nil, or_false] at hi
  obtain (rfl | rfl | rfl | rfl | rfl | rfl | rfl) | ⟨t, op, rfl⟩ := hi <;> exact waits_older _ hp ha

variable (ha : s.th.accs = [])
include ha

theorem mcst_cases (c : Reg) (off : BitVec 16) (t : RawTy) :
    let g := (s.th.ctx.reg c).toNat % 4096
    let n := if t = .b64 then 8 else 4
    let ea := eaOff s.th.ctx f.a off
    let bs := if t = .b64 then bytesOfD (s.th.ctx.pair f.d) else bytesOfW (s.th.ctx.reg f.d)
    let far := 2 ^ 46 ≤ (s.th.ctx.pair f.a).toNat ∨ 2 ^ 46 ≤ ea.toNat ∨ groupOk s g s.th.place.ctx = false
    (ea.toNat % n ≠ 0 → exec (.mcst f c t off) s = raiseCode (setExt s) cMisaligned ea)
      ∧ (ea.toNat % n = 0 → far → exec (.mcst f c t off) s = raiseCode (setExt s) cProt ea)
      ∧ (ea.toNat % n = 0 → ¬far →
        (groupMembers s g = [] → ∃ u, WentOn s f (.mcst f c t off) false [] u)
          ∧ (groupMembers s g ≠ [] → ∃ u a q,
            (exec (.mcst f c t off) s = .next u ∧ Joins s u a ∧ SameRegsBut [] s u ∧ a.dc = f.dc ∧ a.loc = none ∧ a.spec = false
              ∧ a.awaited = groupMembers s g ∧ a.serial = some s.fab.nextSerial ∧ u.out = s.out ++ [q] ∧ q.dst = g + 0x8000
              ∧ q.serial = s.fab.nextSerial ∧ q.ctx = s.th.place.ctx)
            ∧ a.kind = .mcst (groupMembers s g) bs ∧ q.ty = 0x10 ∧ q.addr = ea.toNat ∧ q.aux = n ∧ q.payload = bs)) := by
  intro g n ea bs far
  have he := exec_mcst (f := f) c t off hp ha
  refine ⟨fun h => ?_, fun h hf => ?_, fun h hf => ⟨fun hm => ?_, fun hm => ?_⟩⟩
  · rw [he, if_pos h]
  · rw [he, if_neg (not_not.mpr h), if_pos hf]
  · rw [if_neg (not_not.mpr h), if_neg hf, if_pos hm] at he
    exact ⟨_, advance_went he (setExt_kept s) ha⟩
  · rw [if_neg (not_not.mpr h), if_neg hf, if_neg hm] at he
    obtain ⟨u, a, q, hu, ⟨h1, h2⟩, hk, hty, haddr, haux, hpay, -⟩ := issueGroup_joins (setExt_th s) (setExt_same s) (setExt_fab s)
      (setExt_out s) (.mcst (groupMembers s g) (mcstBytes s f t)) (groupMembers s g) ea g 0x10 n (mcstBytes s f t) f.dc f.look.val
    exact ⟨u, a, q, ⟨he.trans hu, h1, h2⟩, hk, hty, haddr, haux, hpay⟩

theorem mcldRed_cases (c e : Reg) (t : FloatTy) (op : RedOp) (cid : Cid) (slot o : Nat) (er : Exc) :
    let g := (s.th.ctx.reg c).toNat % 4096
    let ms := groupMembers s g
    let i := .mcldRed f c e t op
    let bf := t == .bf16x2
    let count := (s.th.ctx.reg f.d).toNat
    let ea := s.th.ctx.pair f.a
    let dst := s.th.ctx.pair e
    let aligned := ea.toNat % 4 = 0 ∧ dst.toNat % 16 = 0
    let far := 2 ^ 46 < ea.toNat + mcldBytes bf count ∨ groupOk s g s.th.place.ctx = false
    let at' := resolveSpad (setExt s) dst 16 (4 * count)
    let gt := gate (setExt s) s.th.place.die .wr (.spad cid slot o) dst (4 * count)
    (mcldCount bf count = false → exec i s = illegal (setExt s))
      ∧ (mcldCount bf count = true →
        (ea.toNat % 4 ≠ 0 → exec i s = raiseCode (setExt s) cMisaligned ea)
          ∧ (ea.toNat % 4 = 0 → dst.toNat % 16 ≠ 0 → exec i s = raiseCode (setExt s) cMisaligned dst)
          ∧ (aligned → far → exec i s = raiseCode (setExt s) cProt ea)
          ∧ (aligned → ¬far → spadTag dst = false → exec i s = raiseCode (setExt s) cProt dst)
          ∧ (aligned → ¬far → spadTag dst = true →
            (at' = .error er → exec i s = raise (setExt s) er)
              ∧ (at' = .ok (.spad cid slot o) →
                (gt = .bad er → exec i s = raise (setExt s) er)
                  ∧ (gt = .park ∨ gt = .wait → exec i s = .next s)
                  ∧ (gt = .go → ms = [] → ∃ u, WentOn s f i false [] u)
                  ∧ (gt = .go → ms ≠ [] → ∃ u a q,
                    (exec i s = .next u ∧ Joins s u a ∧ SameRegsBut [] s u ∧ a.dc = f.dc ∧ a.loc = none ∧ a.spec = false
                      ∧ a.awaited = ms ∧ a.serial = some s.fab.nextSerial ∧ u.out = s.out ++ [q] ∧ q.dst = g + 0x8000
                      ∧ q.serial = s.fab.nextSerial ∧ q.ctx = s.th.place.ctx)
                    ∧ a.kind = .mcldRed ms op bf count dst ∧ q.ty = 0x11 ∧ q.addr = ea.toNat ∧ q.aux = mcldBytes bf count
                    ∧ ∀ v, findSlot s cid slot = some v → ∃ w, findSlot u cid slot = some w
                      ∧ w.absent = (v.setAbsent o (4 * count)).absent)))) := by
  intro g ms i bf count ea dst aligned far at' gt
  have he := exec_mcldRed (f := f) c e t op hp ha
  refine ⟨fun h => ?_, fun hc => ?_⟩
  · rw [he, if_pos h]
  rw [if_neg (by rw [hc]; simp)] at he
  refine ⟨fun h => ?_, fun h h' => ?_, fun ⟨h, h'⟩ hf => ?_, fun ⟨h, h'⟩ hf ht => ?_, fun ⟨h, h'⟩ hf ht => ?_⟩
  · rw [he, if_pos h]
  · rw [he, if_neg (not_not.mpr h), if_pos h']
  · rw [he, if_neg (not_not.mpr h), if_neg (not_not.mpr h'), if_pos hf]
  · rw [he, if_neg (not_not.mpr h), if_neg (not_not.mpr h'), if_neg hf, if_pos ht]
  rw [if_neg (not_not.mpr h), if_neg (not_not.mpr h'), if_neg hf, if_neg (by rw [ht]; simp)] at he
  refine ⟨fun hat => he.trans (mcldTo_error c e t op hat), fun hat => ⟨fun hg => he.trans (mcldTo_bad c e t op hat hg),
    fun hg => he.trans (mcldTo_waits c e t op hat rfl hg), fun hg hm => ?_, fun hg hm => ?_⟩⟩
  · exact ⟨_, advance_went (he.trans (mcldTo_nobody c e t op hat hg hm)) (setExt_kept s) ha⟩
  · have hgo := he.trans (mcldTo_goes c e t op hat hg hm)
    obtain ⟨hth, hfab, hout, hmem⟩ := mcldPresence_same (setExt s) cid slot o (4 * count)
    obtain ⟨u, a, q, hu, ⟨h1, h2⟩, hk, hty, haddr, haux, -, hcl⟩ := issueGroup_joins (hth.trans (setExt_th s))
      ((setExt_same s).trans hmem) (hfab.trans (setExt_fab s)) (hout.trans (setExt_out s)) (.mcldRed ms op bf count dst) ms ea g 0x11
      (mcldBytes bf count) [] f.dc f.look.val
    refine ⟨u, a, q, ⟨hgo.trans hu, h1, h2⟩, hk, hty, haddr, haux, fun v hv => ⟨v.setAbsent o (4 * count), ?_, rfl⟩⟩
    have hs : findSlot u cid slot = findSlot (mcldPresence (setExt s) cid slot o (4 * count) false) cid slot := by
      rw [findSlot, findCluster, hcl, ← findCluster, ← findSlot]
    rw [hs, findSlot_mcldPresence o (4 * count) ((setExt_findSlot s cid slot).trans hv)]

theorem collArm_cases (xo : Option (BitVec 16)) (d : List Byte) (l : Launch) (n : Nat) (er : Exc) :
    let die := s.th.place.die
    let eng := getEng s die
    let ea := eaXO s.th.ctx f.a xo
    let k := dKind d
    let s2 := if k < 4 then setExt s else s
    let bad := collDescOk d (groupMembers s (dGroup d % 4096)).length = false
    let taken := dCtr d ≠ 255 ∧ ctrElse s die (dCtr d) l.lid = true
    let okGroup := groupOk s (dGroup d % 4096) s.th.place.ctx
    (readDesc s ea = .error er → exec (.collArm f xo) s = raise s er)
      ∧ (readDesc s ea = .ok none → exec (.collArm f xo) s = .next s)
      ∧ (readDesc s ea = .ok (some d) → findLaunch s s.th.id.lid = some l →
        (k < 4 → dGroup d < 4096 → okGroup = false → exec (.collArm f xo) s = raiseCode s2 cProt ea)
          ∧ ((k < 4 → dGroup d < 4096 → okGroup = true) →
            (bad → ∃ u, WentOn s f (.collArm f xo) false [f.d] u ∧ (f.d ≠ 0 → u.th.ctx.reg f.d = 0x80000001)
                ∧ u.coll0 = s.coll0 ∧ u.coll1 = s.coll1)
              ∧ (¬bad → taken → ∃ u, WentOn s f (.collArm f xo) false [f.d] u ∧ (f.d ≠ 0 → u.th.ctx.reg f.d = 0x80000014)
                ∧ u.coll0 = s.coll0 ∧ u.coll1 = s.coll1)
              ∧ (¬bad → ¬taken → freeSlot eng = none → exec (.collArm f xo) s = .next s)
              ∧ (¬bad → ¬taken → freeSlot eng = some n →
                ∃ u op, WentOn s f (.collArm f xo) true [f.d] u ∧ findColl u die n = some op ∧ op.desc = d ∧ op.shf = false
                  ∧ op.gen = ((eng.gens.getD n 0) + 1) % 256 ∧ op.tid = some s.th.id ∧ op.dc = f.dc
                  ∧ op.st = (if k < 4 then 0 else 1)
                  ∧ op.fired = (decide (4 ≤ k) || dCtr d == 255 || decide (dThresh d ≤ (getCtr s die (dCtr d)).val.toNat))
                  ∧ (f.d ≠ 0 → u.th.ctx.reg f.d = handleOf n die ((getEng u die).gens.getD n 0) false)
                  ∧ (dCtr d ≠ 255 → dCtr d < eng.ctrs.length → (getCtr u die (dCtr d)).holder = some l.lid
                    ∧ (getCtr u die (dCtr d)).val = (if k = 4 then satAdd (getCtr s die (dCtr d)).val (dValue d)
                        else if k = 5 then BitVec.ofNat 32 (dValue d) else (getCtr s die (dCtr d)).val))))) :=
  ⟨exec_collArm_error hp ha, exec_collArm_waits hp ha, fun h hl =>
    ⟨collArm_refused hp ha h hl, fun hok =>
      ⟨collArm_bad hp ha h hl hok, collArm_taken hp ha h hl hok, collArm_full hp ha h hl hok,
        fun hb ht hs => collArm_takes hp ha h hl hok hb ht hs⟩⟩⟩

theorem shfPost_cases (xo : Option (BitVec 16)) (d bs : List Byte) (l : Launch) (n : Nat) (er : Exc) :
    let die := s.th.place.die
    let eng := getEng s die
    let s1 := setExt s
    let ea := eaXO s.th.ctx f.a xo
    let bad := shfDescOk d = false ∨ s.fab.selfIdx.toNat ∉ groupMembers s (dGroup d % 4096)
      ∨ (findShf s (sidOf l.ctx (shSid d))).isSome = true ∨ (∃ m, readSides s1 d = .error m)
    let good := shfDescOk d = true ∧ s.fab.selfIdx.toNat ∈ groupMembers s (dGroup d % 4096)
      ∧ findShf s (sidOf l.ctx (shSid d)) = none
    let okGroup := groupOk s (dGroup d % 4096) s.th.place.ctx
    (readDesc s ea = .error er → exec (.shfPost f xo) s = raise s1 er)
      ∧ (readDesc s ea = .ok none → exec (.shfPost f xo) s = .next s)
      ∧ (readDesc s ea = .ok (some d) → findLaunch s s.th.id.lid = some l →
        (dGroup d < 4096 → okGroup = false → exec (.shfPost f xo) s = raiseCode s1 cProt ea)
          ∧ ((dGroup d < 4096 → okGroup = true) →
            (bad → ∃ u, WentOn s f (.shfPost f xo) false [f.d] u ∧ (f.d ≠ 0 → u.th.ctx.reg f.d = 0x80000001)
                ∧ u.coll0 = s.coll0 ∧ u.coll1 = s.coll1)
              ∧ (good → readSides s1 d = .ok none → exec (.shfPost f xo) s = .next s)
              ∧ (good → readSides s1 d = .ok (some bs) → freeSlot eng = none → exec (.shfPost f xo) s = .next s)
              ∧ (good → readSides s1 d = .ok (some bs) → freeSlot eng = some n →
                ∃ u op, WentOn s f (.shfPost f xo) true [f.d] u ∧ findColl u die n = some op ∧ op.desc = d ∧ op.shf = true
                  ∧ op.tid = some s.th.id ∧ op.dc = f.dc ∧ op.members = groupMembers s (dGroup d % 4096)
                  ∧ (f.d ≠ 0 → u.th.ctx.reg f.d = handleOf n die ((getEng u die).gens.getD n 0) true)))) :=
  ⟨exec_shfPost_error hp ha, exec_shfPost_waits hp ha, fun h hl =>
    ⟨shfPost_refused hp ha h hl, fun hok =>
      ⟨shfPost_bad hp ha h hl hok, fun hg hr => (shfPost_judged hp ha h hl hok hg).trans (postTo_waits f l hr),
        fun hg hr hs => (shfPost_judged hp ha h hl hok hg).trans (postTo_full f l hr hs),
        fun hg hr hs => shfPost_takes hp ha h hl hok hg hr hs⟩⟩⟩

theorem wait_cases {i : Instr} {shf : Bool} (hi : (i = .collWait f ∧ shf = false) ∨ (i = .shfWait f ∧ shf = true)) :
    (waitAnswer s (s.th.ctx.reg f.a) shf = none → exec i s = .next s)
      ∧ (∀ w, waitAnswer s (s.th.ctx.reg f.a) shf = some w →
        ∃ u, exec i s = .next u ∧ UnchangedBut [] s u
          ∧ u.th.ops = s.th.ops ++ [⟨[(f.d, w)], f.dc, f.look.val, 0, s.th.seq, s.th.ctx.icount⟩]) := by
  obtain ⟨rfl, rfl⟩ | ⟨rfl, rfl⟩ := hi
  · exact ⟨collWaitOp_waits false hp ha, fun w => collWaitOp_answers false hp ha⟩
  · exact ⟨collWaitOp_waits true hp ha, fun w => collWaitOp_answers true hp ha⟩

/-- R396, R397: `shf.side` for the shuffle `o` of the thread's own die. -/
theorem shfSide_cases (c : Reg) (off : BitVec 16) {o : CollOp}
    (h : findShf s (sidOf s.th.place.ctx ((s.th.ctx.reg c).toNat % 65536)) = some (s.th.place.die, o))
    (hf : findColl s s.th.place.die o.slot = some o) :
    let die := s.th.place.die
    let eng := getEng s die
    let v := (s.th.ctx.reg f.d).toNat
    let sid := sidOf s.th.place.ctx ((s.th.ctx.reg c).toNat % 65536)
    let snd := v % 1024
    let rcv := v / 65536 % 1024
    let plain := v / 1024 % 64 = 0 ∧ v / 0x4000000 % 32 = 0
    let addr := (eaOff s.th.ctx f.a off).toNat
    (¬plain → ∃ u, exec (.shfSide f c off) s = .next u ∧ findColl u die o.slot = some { o with sideRej := o.sideRej + 1 }
        ∧ (getEng u die).side = eng.side)
      ∧ (plain → v / 0x80000000 = 1 → ∃ u, exec (.shfSide f c off) s = .next u
        ∧ (∀ y ∈ (getEng u die).side, y.u ≠ ⟨sid, snd, rcv, 0⟩)
        ∧ ((∃ y ∈ eng.side, y.u = ⟨sid, snd, rcv, 0⟩) → ∀ l ∈ u.mem.locks, l.owner ≠ .side die ⟨sid, snd, rcv, 0⟩))
      ∧ (plain → v / 0x80000000 ≠ 1 → o.sides = [] →
        (checkSide s die o snd rcv addr = .refuse → ∃ u, exec (.shfSide f c off) s = .next u
            ∧ findColl u die o.slot = some { o with lost := false, sideRej := o.sideRej + 1 } ∧ (getEng u die).side = eng.side)
          ∧ (checkSide s die o snd rcv addr = .lost → ∃ u, exec (.shfSide f c off) s = .next u
            ∧ findColl u die o.slot = some { o with lost := true, sides := [(snd, rcv, addr)] })
          ∧ (∀ segs, checkSide s die o snd rcv addr = .enter segs → ∃ u y, exec (.shfSide f c off) s = .next u
            ∧ y ∈ (getEng u die).side ∧ y.u = ⟨o.sid, snd, rcv, 0⟩ ∧ y.segs = segs
            ∧ ∀ l ∈ rangeLocks (.side die ⟨o.sid, snd, rcv, 0⟩) die false segs, l ∈ u.mem.locks)) := by
  intro die eng v sid snd rcv plain addr
  have he := exec_shfSide (c := c) (off := off) hp ha h
  refine ⟨fun hpl => ?_, fun hpl hv => ?_, fun hpl hv hs => ?_⟩
  · rw [sideDone_odd (fun hb => hpl (sidePlain_iff.mp hb))] at he
    refine ⟨_, he, ?_, ?_⟩
    · rw [advance_findColl]
      exact findColl_setColl (o := { o with sideRej := o.sideRej + 1 }) hf
    · rw [advance_coll, setColl_side]
  · rw [sideDone_drop (sidePlain_iff.mpr hpl) hv] at he
    refine ⟨_, he, ?_, fun hy => ?_⟩
    · rw [advance_coll]
      exact evictSide_side _ _ ⟨sid, snd, rcv, 0⟩ true
    · rw [advance_mem]
      exact evictSide_locks true (by rw [setColl_side]; exact hy)
  · rw [sideDone_ask (sidePlain_iff.mpr hpl) hv] at he
    refine ⟨fun hc => ⟨_, he, ?_, ?_⟩, fun hc => ⟨_, he, ?_⟩, fun segs hc => ?_⟩
    · rw [advance_findColl, sideDecl, sideAsked_refused hf hs hc, hs]
      exact findColl_setColl (o := { o with sides := [], lost := false, sideRej := o.sideRej + 1 }) (findColl_sideAsked hf _)
    · rw [advance_coll, sideDecl, sideAsked_refused hf hs hc, setColl_side]
      exact setColl_side ..
    · rw [advance_findColl]
      exact sideAsked_lost hf hs hc
    · obtain ⟨w, hw⟩ := sideAsked_enters hf hs hc
      obtain ⟨⟨y, hy, hyu, hys⟩, hl⟩ := enterSide_entered w die { o with sides := [] } ⟨o.sid, snd, rcv, 0⟩ segs
      rw [← hw] at hy hl
      exact ⟨_, y, he, by rw [advance_coll]; exact hy, hyu, hys, by rw [advance_mem]; exact hl⟩

end

/-- Settles O52: the fabric instructions wait for older accesses, and else issue, raise, or go on by their checks. -/
theorem fabricInstructions : Obligations.FabricInstructions := by
  unfold Obligations.FabricInstructions
  intro s f c e off xo hp x s1 die eng g ms okGroup joined went
  refine ⟨fun ha i hi => fabric_waits hp ha c e off xo hi, fun ha => ⟨mcst_cases hp ha c off, mcldRed_cases hp ha c e,
    collArm_cases hp ha xo, shfPost_cases hp ha xo, fun i shf => wait_cases hp ha, ?_⟩⟩
  intro v sid snd rcv plain addr
  exact ⟨shfSide_went hp ha, exec_shfSide_nothing hp ha, fun o h hf => shfSide_cases hp ha c off h hf⟩

end Sys2Proof.Machine

end

-- ==== Sys2Proof/Proofs/EngineKept.lean ====

section

/-!
What leaves every engine and every range lock: the writes of an engine, of firmware and of barrier objects, failure records and
translation walks (R170, R293, R295, R342, R357).
-/

namespace Sys2Proof.Machine

/-! ## The lock table and the copies of the LLC (R210, R296, R357) -/

section

variable (m : MemSys) (die gen sec pa : Nat)

theorem llcRetire_locks : (llcRetire m sec gen).locks = m.locks := by
  have one : ∀ (m : MemSys) (x : Nat), (llcRetireSector m gen x).locks = m.locks := by
    intro m x
    unfold llcRetireSector
    split
    · rfl
    · split <;> rfl
  exact (one _ _).trans (one _ _)

theorem evict_locks : (evict m die pa).locks = m.locks := by
  unfold evict
  split
  · rfl
  · split
    · rfl
    · dsimp only
      split <;> split <;> rfl

theorem evicts_locks (l : List Nat) :
    (l.foldl (fun m n => evict (evict m die (128 * n)) die (128 * n + 64)) m).locks = m.locks := by
  induction l generalizing m with
  | nil => rfl
  | cons n r ih => exact (ih _).trans ((evict_locks ..).trans (evict_locks ..))

theorem setLru_locks (l : List Nat) : (m.setLru die l).locks = m.locks := by
  unfold MemSys.setLru
  split <;> rfl

theorem llcTrim_locks : (llcTrim m die sec).locks = m.locks := by
  unfold llcTrim
  split
  · exact setLru_locks ..
  · exact (evicts_locks ..).trans (setLru_locks ..)

theorem llcFill_locks : (llcFill m sec gen).1.locks = m.locks := by
  unfold llcFill
  dsimp only
  split
  · exact llcRetire_locks m gen sec
  · exact llcRetire_locks m gen sec

theorem llcRead_locks : (llcRead m die sec gen).locks = m.locks := by
  unfold llcRead
  dsimp only
  refine (llcTrim_locks ..).trans (Eq.trans ?_ (llcFill_locks m gen sec))
  split <;> rfl

theorem llcWrite_locks : (llcWrite m die sec gen).locks = m.locks := by
  unfold llcWrite
  dsimp only
  refine (llcTrim_locks ..).trans (Eq.trans ?_ (llcFill_locks m gen sec))
  split <;> rfl

theorem physStore_locks (bs : List Byte) : (physStore m die gen pa bs).locks = m.locks := by
  refine Eq.trans ?_ (llcWrite_locks m die gen (sectorOf pa))
  show (retag (llcWrite m die (sectorOf pa) gen) gen (sectorOf pa)).locks = _
  unfold retag
  split
  · rfl
  · split <;> rfl

theorem homeStore_locks (bs : List Byte) : (homeStore m gen pa bs).locks = m.locks := by
  unfold homeStore
  generalize bs.length / 64 + 2 = fuel
  generalize homeDie pa = die
  induction fuel generalizing m pa bs with
  | zero => rfl
  | succ fuel ih =>
    unfold physStoreAll
    split
    · rfl
    · exact (ih _ _ _).trans (physStore_locks ..)

end

/-! ## The steps that leave every engine and every lock -/

/-- Every engine, and the lock table, are as before. -/
structure EngineKept (s t : State) : Prop where
  cores : t.cores = s.cores
  locks : t.mem.locks = s.mem.locks

section

variable {s t u : State}

theorem EngineKept.trans (h : EngineKept s t) (k : EngineKept t u) : EngineKept s u :=
  ⟨k.cores.trans h.cores, k.locks.trans h.locks⟩

theorem EngineKept.refl (s : State) : EngineKept s s := ⟨rfl, rfl⟩

theorem EngineKept.foldl {α : Type} {f : State → α → State} (hf : ∀ u x, EngineKept u (f u x)) (l : List α) (s : State) :
    EngineKept s (l.foldl f s) := by
  induction l generalizing s with
  | nil => exact .refl s
  | cons x l ih => exact (hf s x).trans (ih _)

theorem EngineKept.getCore (h : EngineKept s t) (k : Nat) : Machine.getCore t k = Machine.getCore s k := by
  rw [Machine.getCore, h.cores, Machine.getCore]

theorem EngineKept.ite {p : Prop} [Decidable p] (h : EngineKept s t) (k : EngineKept s u) : EngineKept s (if p then t else u) := by
  split <;> assumption

end

theorem probe_engineKept (s : State) (w : Option Tid) (loc : Loc) (n : Nat) : EngineKept s (probe s w loc n) := by
  unfold probe remoteProbe
  split <;> exact ⟨rfl, rfl⟩

theorem walked_engineKept (s : State) (first core : Nat) (x : Xctx) (va : Nat) : EngineKept s (walked s first core x va) := by
  unfold walked
  split
  · exact .refl s
  · refine ⟨rfl, ?_⟩
    show (walkRetire s.xl s.mem (gen0 s) x.ctx x.root va).locks = s.mem.locks
    unfold walkRetire
    generalize walkPath s.xl s.mem (gen0 s) x.ctx va walkLevels x.root = l
    generalize s.mem = m
    induction l generalizing m with
    | nil => rfl
    | cons r l ih => exact (ih _).trans (llcRetire_locks ..)

theorem setSlot_engineKept (s : State) (c : Cid) (i : Nat) (v : Slot) : EngineKept s (setSlot s c i v) := by
  unfold setSlot
  split <;> exact ⟨rfl, rfl⟩

theorem setTeam_engineKept (s : State) (c : Cid) (i : Nat) (v : Team) : EngineKept s (setTeam s c i v) := by
  unfold setTeam
  split <;> exact ⟨rfl, rfl⟩

theorem copyDone_engineKept (s : State) (t : Tid) (g : Nat) (dc : Fin 7) : EngineKept s (copyDone s t g dc) := ⟨rfl, rfl⟩

/-! ## Writes of engines and of firmware (R35, R357) -/

theorem engStore_engineKept (s : State) (gen : Nat) (segs : List CopySeg) (w : Nat × List Byte) :
    EngineKept s (engStore s gen segs w) := by
  unfold engStore
  refine .foldl (fun u g => ?_) segs s
  dsimp only
  split
  · refine ⟨rfl, ?_⟩
    dsimp only
    split
    · exact (homeStore_locks ..).trans (homeStore_locks ..)
    · exact homeStore_locks ..
  · exact .refl u

theorem spadStore_engineKept (s : State) (c : Cid) (w : Nat × Nat × List Byte) : EngineKept s (spadStore s c w) := by
  unfold spadStore
  split
  · exact .refl s
  · exact setSlot_engineKept ..

theorem fwPerform_engineKept (s : State) (w : FwWrite) : EngineKept s (fwPerform s w) := by
  unfold fwPerform
  refine .foldl (fun u r => EngineKept.trans (t := { u with mem := homeStore u.mem w.gen r.1 r.2 }) ⟨rfl, homeStore_locks ..⟩ ?_) _ s
  exact probe_engineKept ..

theorem fwSend_engineKept (s : State) (w : FwWrite) : EngineKept s (fwSend s w) := by
  unfold fwSend
  split
  · exact fwPerform_engineKept s w
  · exact ⟨rfl, rfl⟩

theorem fwStore_engineKept (s : State) (gen pa : Nat) (bs : List Byte) : EngineKept s (fwStore s gen pa bs) := by
  unfold fwStore
  split
  · exact .foldl (fun u r => fwSend_engineKept u _) _ s
  · exact .refl s

/-! ## Records and barriers (R293, R295, R342) -/

theorem launchFail_engineKept (s : State) (c : Cid) (team code slot pos : Nat) (req : DWord) :
    EngineKept s (recordFail.launchFail c team code slot pos req s) := by
  unfold recordFail.launchFail
  split
  · exact .refl s
  · exact EngineKept.trans (t := setLaunch s _) ⟨rfl, rfl⟩ (fwStore_engineKept ..)

theorem recordFail_engineKept (s : State) (c : Cid) (team code slot pos : Nat) (req : DWord) :
    EngineKept s (recordFail s c team code slot pos req) := by
  have counted : EngineKept s (if code = 6 then countUe s else s) := .ite ⟨rfl, rfl⟩ (.refl s)
  unfold recordFail
  dsimp only
  split
  · split
    · exact counted.trans (launchFail_engineKept ..)
    · exact counted.trans (setTeam_engineKept ..)
  · exact counted.trans (launchFail_engineKept ..)

theorem barUpdate_engineKept {s t : State} {c : Cid} {slot off : Nat} {f : BarObj → BarObj} (h : barUpdate s c slot off f = some t) :
    EngineKept s t := by
  unfold barUpdate at h
  split at h
  · exact Option.some.inj h ▸ .refl s
  · split at h
    · cases h
    · exact Option.some.inj h ▸ (setSlot_engineKept ..).trans (probe_engineKept ..)

theorem barUpdates_engineKept (s : State) (o : CopyOp) (f : BarObj → BarObj) : EngineKept s (barUpdates s o f) := by
  unfold barUpdates
  split
  · refine .foldl (fun u i => ?_) _ s
    cases h : barUpdate u o.cid i (o.plan.bar % 0x100000) f with
    | none => exact recordFail_engineKept ..
    | some t => exact barUpdate_engineKept h
  · exact .refl s

/-! ## Elements that land (R170, R203, R302) -/

theorem presence_engineKept (s : State) (o : CopyOp) (k : Nat) : EngineKept s (presence s o k) := by
  unfold presence
  dsimp only
  split
  · exact .refl s
  · split <;> exact ⟨rfl, rfl⟩

theorem landMixed_engineKept (s : State) (core : Nat) (o : CopyOp) : EngineKept s (landMixed s core o) := by
  have later : ∀ (u : State) (n : Nat), EngineKept u { u with fresh := u.fresh + n } := fun _ _ => ⟨rfl, rfl⟩
  unfold landMixed
  dsimp only
  split
  · exact .foldl (fun u (w : Nat × List Byte) => (later u w.2.length).trans (engStore_engineKept ..)) _ s
  · refine .foldl (fun u (w : Nat × Nat × List Byte) => ?_) _ s
    split
    · exact .refl u
    · exact (later u w.2.2.length).trans (spadStore_engineKept ..)

end Sys2Proof.Machine

end

-- ==== Sys2Proof/Proofs/CopyLaunch.lean ====

section

/-!
The launch point of a copy request (R169, R295, R296, R298, R308): its locks and its position, its waits, and the report of a request
that may not launch.
-/

namespace Sys2Proof.Machine

/-! ## Steps that leave threads, bytes, engines and locks -/

/-- The thread is as before but for its notice, and so are every byte, every engine and the lock table. -/
structure PointKept (s t : State) : Prop where
  thread : ThreadKept s t
  engine : EngineKept s t

section

variable {s t u : State}

theorem PointKept.trans (h : PointKept s t) (k : PointKept t u) : PointKept s u :=
  ⟨h.thread.trans k.thread, h.engine.trans k.engine⟩

theorem PointKept.refl (s : State) : PointKept s s := ⟨.refl s, .refl s⟩

theorem PointKept.foldl {α : Type} {f : State → α → State} (hf : ∀ u x, PointKept u (f u x)) (l : List α) (s : State) :
    PointKept s (l.foldl f s) := ⟨.foldl (fun u x => (hf u x).thread) l s, .foldl (fun u x => (hf u x).engine) l s⟩

theorem PointKept.ite {p : Prop} [Decidable p] (h : PointKept s t) (k : PointKept s u) : PointKept s (if p then t else u) := by
  split <;> assumption

end

theorem probe_pointKept (s : State) (w : Option Tid) (loc : Loc) (n : Nat) : PointKept s (probe s w loc n) :=
  ⟨probe_kept .., probe_engineKept ..⟩

theorem opWalked_pointKept (s : State) (core : Nat) (o : CopyOp) : PointKept s (opWalked s core o) := by
  unfold opWalked
  split
  · exact .refl s
  · exact .foldl (fun u va => ⟨walked_kept u 1 core s.th.place.xctx va, walked_engineKept u 1 core s.th.place.xctx va⟩) _ s

theorem walked_clusters (s : State) (first core : Nat) (x : Xctx) (va : Nat) : (walked s first core x va).clusters = s.clusters := by
  unfold walked
  split <;> rfl

theorem opWalked_clusters (s : State) (core : Nat) (o : CopyOp) : (opWalked s core o).clusters = s.clusters := by
  have walks : ∀ (l : List Nat) (u : State),
      (l.foldl (fun s' va => walked s' 1 core s.th.place.xctx va) u).clusters = u.clusters := by
    intro l
    induction l with
    | nil => exact fun u => rfl
    | cons va l ih => exact fun u => (ih _).trans (walked_clusters ..)
  unfold opWalked
  split
  · rfl
  · exact walks _ s

/-- Presence bits cleared in a slot. -/
theorem setAbsent_pointKept {s : State} {c : Cid} {i : Nat} {v : Slot} (off n : Nat) (h : findSlot s c i = some v) :
    PointKept s (setSlot s c i (v.setAbsent off n)) :=
  ⟨⟨by rw [setSlot_th], setSlot_same h rfl⟩, setSlot_engineKept ..⟩

theorem clearDest_pointKept (s : State) (o : CopyOp) : PointKept s (clearDest s o) := by
  have clears : ∀ (u : State) (slot off n : Nat), PointKept u (match findSlot u o.cid slot with
      | none => u
      | some v => setSlot u o.cid slot (v.setAbsent off n)) := by
    intro u slot off n
    split
    · exact .refl u
    · next h => exact setAbsent_pointKept off n h
  have folded := PointKept.foldl (fun u i => clears u i (o.plan.spad % 0x100000) o.plan.spadBytes) o.plan.slots s
  unfold clearDest
  dsimp only
  split
  · exact .refl s
  · split
    · exact folded.trans (clears _ _ _ _)
    · exact folded

theorem probeDest_pointKept (s : State) (o : CopyOp) : PointKept s (probeDest s o) := by
  unfold probeDest
  dsimp only
  split
  · refine .foldl (fun u r => .foldl (fun w g => ?_) _ u) _ s
    split
    · exact (probe_pointKept ..).trans (.ite (probe_pointKept ..) (.refl _))
    · exact .refl w
  · have folded := PointKept.foldl (fun u i => probe_pointKept u none (.spad o.cid i (o.plan.spad % 0x100000)) o.plan.spadBytes)
      o.plan.slots s
    split
    · exact folded.trans (probe_pointKept ..)
    · exact folded

/-! ## The request leaves its thread (R307) -/

theorem dropRequest_cores (s : State) (a : Access) : (dropRequest s a).cores = s.cores := by
  unfold dropRequest
  split <;> rfl

/-- The request as it leaves: its counter falls with the operation, not with it. -/
def requestDone (u : State) : State := finishHead (modHead u fun a => { a with dc := 6 })

theorem requestDone_single {u : State} {a : Access} (h : u.th.accs = [a]) :
    (requestDone u).th.accs = [] ∧ SameMemory u (requestDone u) ∧ (requestDone u).mem = u.mem ∧ (requestDone u).clusters = u.clusters
      ∧ (requestDone u).cores = u.cores := by
  have ha : (modHead u fun a => { a with dc := 6 }).th.accs = [{ a with dc := 6 }] := by
    rw [modHead, modTh_th, h]
  obtain ⟨haccs, -, -, hmem⟩ := finishHead_single ha
  obtain ⟨hm, hc⟩ := finishHead_single_device ha
  refine ⟨haccs, .of_eq (by rw [requestDone, hm]; rfl) (by rw [requestDone, hc]; rfl), hm, hc, ?_⟩
  rw [requestDone, finishHead_single_eq ha]
  refine (dropRequest_cores _ _).trans ?_
  rw [committed_same]
  rfl

/-! ## A launch (R169, R296) -/

/-- The state once the operation has its position and its locks. -/
def copyEntered (s : State) (core : Nat) (o : CopyOp) (locks : List RLock) : State :=
  let s1 := probeDest (clearDest (opWalked s core o) o) o
  let c := getCore s1 core
  setCore { s1 with mem := { s1.mem with locks := s1.mem.locks ++ locks } } core { c with eng := c.eng ++ [o] }

theorem launchOp_eq (s : State) (core : Nat) (o : CopyOp) (locks : List RLock) :
    launchOp s core o locks = requestDone { copyEntered s core o locks with fresh := (copyEntered s core o locks).fresh + 1 } := rfl

theorem copyEntered_kept (s : State) (core : Nat) (o : CopyOp) (locks : List RLock) :
    ThreadKept s (copyEntered s core o locks) ∧ (copyEntered s core o locks).mem.locks = s.mem.locks ++ locks
      ∧ (getCore (copyEntered s core o locks) core).eng = (getCore s core).eng ++ [o] := by
  have k : PointKept s (probeDest (clearDest (opWalked s core o) o) o) :=
    ((opWalked_pointKept s core o).trans (clearDest_pointKept _ o)).trans (probeDest_pointKept _ o)
  refine ⟨k.thread.trans (.of_eq rfl rfl rfl), ?_, ?_⟩
  · rw [copyEntered, setCore_mem, k.engine.locks]
  · rw [copyEntered, getCore_setCore, k.engine.getCore]

/-- The launch of a thread's only access. -/
theorem launchOp_single {s : State} {a : Access} (ha : s.th.accs = [a]) (core : Nat) (o : CopyOp) (locks : List RLock) :
    (launchOp s core o locks).th.accs = [] ∧ SameMemory s (launchOp s core o locks)
      ∧ (getCore (launchOp s core o locks) core).eng = (getCore s core).eng ++ [o]
      ∧ (launchOp s core o locks).mem.locks = s.mem.locks ++ locks := by
  obtain ⟨k, hlocks, heng⟩ := copyEntered_kept s core o locks
  rw [launchOp_eq]
  generalize copyEntered s core o locks = u at k hlocks heng
  obtain ⟨haccs, hsame, hmem, -, hcores⟩ := requestDone_single (u := { u with fresh := u.fresh + 1 }) (k.accs.trans ha)
  have later : SameMemory u { u with fresh := u.fresh + 1 } := .of_eq rfl rfl
  refine ⟨haccs, k.memory.trans (later.trans hsame), ?_, ?_⟩
  · rw [← heng, getCore, hcores, getCore]
  · rw [hmem]
    exact hlocks

/-! ## A request that may not launch (R295, R308, R342) -/

theorem findSlot_congr {s t : State} (h : t.clusters = s.clusters) (c : Cid) (i : Nat) : findSlot t c i = findSlot s c i := by
  rw [findSlot, findCluster, h, ← findCluster, ← findSlot]

theorem findTeam_congr {s t : State} (h : t.clusters = s.clusters) (c : Cid) (i : Nat) : findTeam t c i = findTeam s c i := by
  rw [findTeam, findCluster, h, ← findCluster, ← findTeam]

theorem barNamed_congr {s t : State} (h : t.clusters = s.clusters) (o : CopyOp) : barNamed t o = barNamed s o := by
  simp only [barNamed, barsOk, inSlot, findSlot_congr h]

/-- The fault record of a team after a failure. -/
def teamFailed (tm : Team) (code slot pos : Nat) (req : DWord) : Team :=
  if tm.asyncN = 0 then { tm with asyncN := 1, asyncErr := code, asyncSlot := slot, asyncPos := pos, asyncReq := req }
  else { tm with asyncN := tm.asyncN + 1 }

theorem teamFailed_counts (tm : Team) (code slot pos : Nat) (req : DWord) :
    (teamFailed tm code slot pos req).asyncN = tm.asyncN + 1
      ∧ (tm.asyncN = 0 → (teamFailed tm code slot pos req).asyncErr = code) := by
  unfold teamFailed
  split
  · next h => exact ⟨by simp [h], fun _ => rfl⟩
  · next h => exact ⟨rfl, fun h0 => absurd h0 h⟩

/-- The state with an uncorrectable word counted, where the failure is of one. -/
def ueCounted (s : State) (code : Nat) : State := if code = 6 then countUe s else s

theorem ueCounted_kept (s : State) (code : Nat) :
    (ueCounted s code).th = s.th ∧ (ueCounted s code).mem = s.mem ∧ (ueCounted s code).clusters = s.clusters := by
  unfold ueCounted
  split <;> exact ⟨rfl, rfl, rfl⟩

theorem recordFail_team {s : State} {c : Cid} {team : Nat} {tm : Team} (h : findTeam s c team = some tm) (hr : tm.retired = false)
    (code slot pos : Nat) (req : DWord) :
    recordFail s c team code slot pos req = setTeam (ueCounted s code) c team (teamFailed tm code slot pos req) := by
  have h' : findTeam (if code = 6 then countUe s else s) c team = some tm := by
    rw [← ueCounted, findTeam_congr (ueCounted_kept s code).2.2 c team, h]
  unfold recordFail
  dsimp only
  split
  · next t ht =>
      obtain rfl := Option.some.inj (ht.symm.trans h')
      rw [if_neg (by simp [hr])]
      rfl
  · next hn => cases hn.symm.trans h'

theorem findTeam_setTeam {s : State} {c : Cid} {i : Nat} {v : Team} (w : Team) (h : findTeam s c i = some v) :
    findTeam (setTeam s c i w) c i = some w := by
  obtain ⟨k, hk, hi⟩ := Option.bind_eq_some_iff.mp h
  have hlt : i < k.teams.length := (List.getElem?_eq_some_iff.mp hi).1
  have hid : k.id = c := findCluster_id hk
  rw [setTeam, hk]
  dsimp only
  rw [findTeam, findCluster_setCluster hk (k' := { k with teams := k.teams.set i w }) hid]
  simp [hlt]

/-- The scratchpads of a cluster that is put back are its own; those of every other are as before. -/
theorem findSlot_setCluster {s : State} {c : Cid} {k k' : Cluster} (h : findCluster s c = some k) (e : k'.id = c) (d : Cid) (i : Nat) :
    findSlot (setCluster s k') d i = if d = c then k'.slots[i]? else findSlot s d i := by
  split
  · next hd =>
      subst hd
      rw [findSlot, findCluster_setCluster h e]
      rfl
  · next hd => rw [findSlot, findCluster_setCluster_other s (fun e' => hd (e'.symm.trans e)), findSlot]

theorem setTeam_same (s : State) (c : Cid) (i : Nat) (w : Team) : SameMemory s (setTeam s c i w) ∧ (setTeam s c i w).th = s.th := by
  unfold setTeam
  split
  · exact ⟨.of_eq rfl rfl, rfl⟩
  · next k hk =>
      refine ⟨⟨fun _ => rfl, fun d slot off => ?_⟩, rfl⟩
      have hid : k.id = c := findCluster_id hk
      have hs : findSlot (setCluster s { k with teams := k.teams.set i w }) d slot = findSlot s d slot := by
        rw [findSlot_setCluster hk (k' := { k with teams := k.teams.set i w }) hid]
        split
        · next hd =>
            subst hd
            rw [findSlot, hk]
            rfl
        · rfl
      rw [State.spadByte, hs, State.spadByte]

theorem copyDone_accs (s : State) (t : Tid) (g : Nat) (dc : Fin 7) : (copyDone s t g dc).th.accs = s.th.accs := by
  unfold copyDone
  dsimp only [mapThreads_th]
  split
  · rw [dcDrop_same]
  · rfl

/-- The state in which a failing request is recorded, with no barrier to tell. -/
theorem barUpdates_none {o : CopyOp} (h : o.plan.hasBar = false) (s : State) (f : BarObj → BarObj) : barUpdates s o f = s := by
  rw [barUpdates, if_neg (by simp [h])]

/-- The state once the walks of a failing request are made. -/
def failWalked (s : State) (o : CopyOp) (code : Nat) : State :=
  if code = 1 ∨ code = 2 then s else opWalked s s.th.place.core o

theorem failWalked_kept (s : State) (o : CopyOp) (code : Nat) :
    PointKept s (failWalked s o code) ∧ (failWalked s o code).clusters = s.clusters := by
  unfold failWalked
  split
  · exact ⟨.refl s, rfl⟩
  · exact ⟨opWalked_pointKept .., opWalked_clusters ..⟩

theorem failEarly_quiet {s : State} {o : CopyOp} (h : barNamed s o = false ∨ o.plan.hasBar = false) (code : Nat) :
    failEarly s o code = copyDone (requestDone (recordFail { failWalked s o code with fresh := (failWalked s o code).fresh + 1 }
      o.cid o.team code o.slot ((Config.freeWord (failWalked s o code).fresh).toNat % 256) o.reqAddr)) o.thread o.group o.dc := by
  have hb : (if barNamed (failWalked s o code) o then
      barUpdates (failWalked s o code) o fun b => b.failCount code o.slot (o.plan.wouldCount o.req o.lay) else failWalked s o code)
        = failWalked s o code := by
    obtain h | h := h
    · rw [if_neg (by rw [barNamed_congr (failWalked_kept s o code).2, h]; simp)]
    · rw [barUpdates_none h, ite_self]
  have hw : (if (code = 1 || code = 2) = true then s else opWalked s s.th.place.core o) = failWalked s o code := by
    simp only [failWalked, Bool.or_eq_true, decide_eq_true_eq]
  unfold failEarly
  dsimp only
  rw [hw, hb]
  rfl

/-- The failure of a thread's only access, with no barrier to tell, in the record of its team. -/
theorem failEarly_single {s : State} {a : Access} {o : CopyOp} {tm : Team} (ha : s.th.accs = [a])
    (hb : barNamed s o = false ∨ o.plan.hasBar = false) (ht : findTeam s o.cid o.team = some tm) (hr : tm.retired = false) (code : Nat) :
    (failEarly s o code).th.accs = [] ∧ SameMemory s (failEarly s o code)
      ∧ ∃ tm', findTeam (failEarly s o code) o.cid o.team = some tm' ∧ tm'.asyncN = tm.asyncN + 1 ∧ (tm.asyncN = 0 → tm'.asyncErr = code) := by
  obtain ⟨k, hcl⟩ := failWalked_kept s o code
  rw [failEarly_quiet hb]
  generalize failWalked s o code = u at k hcl
  generalize (Config.freeWord u.fresh).toNat % 256 = pos
  have htu : findTeam { u with fresh := u.fresh + 1 } o.cid o.team = some tm :=
    (findTeam_congr (s := s) (t := { u with fresh := u.fresh + 1 }) hcl o.cid o.team).trans ht
  obtain ⟨gth, gmem, gcl⟩ := ueCounted_kept { u with fresh := u.fresh + 1 } code
  rw [recordFail_team htu hr]
  generalize hw : ueCounted { u with fresh := u.fresh + 1 } code = w at gth gmem gcl
  have htw : findTeam w o.cid o.team = some tm := by rw [findTeam_congr gcl, htu]
  obtain ⟨hsame, hth⟩ := setTeam_same w o.cid o.team (teamFailed tm code o.slot pos o.reqAddr)
  have hfound := findTeam_setTeam (teamFailed tm code o.slot pos o.reqAddr) htw
  generalize setTeam w o.cid o.team (teamFailed tm code o.slot pos o.reqAddr) = x at hsame hth hfound
  have hax : x.th.accs = [a] := by
    rw [hth, gth]
    exact k.thread.accs.trans ha
  obtain ⟨haccs, hdone, -, hclx, -⟩ := requestDone_single hax
  refine ⟨?_, ?_, teamFailed tm code o.slot pos o.reqAddr, ?_, teamFailed_counts ..⟩
  · exact (copyDone_accs ..).trans haccs
  · exact ((((k.thread.memory.trans (.of_eq rfl rfl)).trans (.of_eq (congrArg MemSys.hbm gmem) gcl)).trans hsame).trans hdone).trans
      (.of_eq rfl rfl)
  · rw [← hfound]
    exact (findTeam_congr hclx _ _)

/-! ## The event COPY_LAUNCH_POINT (R169, R298, R308) -/

/-- The operation that a launch point judges is of the thread in focus. -/
theorem launching_op (s : State) (a : Access) (r : CopyReq) : ∃ req lay, (launching s a r).2 = mkOp s r req lay := by
  unfold launching
  split
  · split
    · exact ⟨_, _, rfl⟩
    · exact ⟨_, _, rfl⟩
    · dsimp only
      split <;> exact ⟨_, _, rfl⟩
  · exact ⟨_, _, rfl⟩

section

variable {s : State} {a : Access} {rest : List Access} {r : CopyReq} {b : CopyOp} (ha : s.th.accs = a :: rest) (hs : a.spec = false)
  (hf : a.fault = none) (hk : a.kind = .copy r)
include ha hs hf hk

/-- The launch point of the thread's oldest access, by what it answers. -/
theorem exec_launchPoint {x : Launching} (h : launching s a r = (x, b)) :
    exec (.copyLaunchPoint s.th.id) s = .next (match x with
      | .wait fault dies =>
        if a.awaited.isEmpty && !dies.isEmpty then
          modHead { s with fresh := s.fresh + 1 } fun b => { b with awaited := s.fresh :: dies, parked := fault }
        else if a.parked == fault then s else modHead s fun b => { b with parked := fault }
      | .fail code => if barNamed s b && barWaits s b then s else failEarly s b code
      | .go o locks => launchOp s s.th.place.core o locks) := by
  have hh : headAcc s = some a := by simp [headAcc, ha, hs, hf]
  show execCopyLaunchPoint s.th.id s = _
  rw [execCopyLaunchPoint, onThread_self, launchHead, hh]
  cases x <;> simp only [hk, h]

theorem launchPoint_goes {o' : CopyOp} {locks : List RLock} (h : launching s a r = (.go o' locks, b)) :
    exec (.copyLaunchPoint s.th.id) s = .next (launchOp s s.th.place.core o' locks)
      ∧ (rest = [] → ∃ t, exec (.copyLaunchPoint s.th.id) s = .next t ∧ t.th.accs = [] ∧ SameMemory s t
        ∧ (getCore t s.th.place.core).eng = (getCore s s.th.place.core).eng ++ [o'] ∧ t.mem.locks = s.mem.locks ++ locks) := by
  have he := exec_launchPoint ha hs hf hk h
  refine ⟨he, fun hr => ⟨_, he, ?_⟩⟩
  subst hr
  exact launchOp_single ha s.th.place.core o' locks

theorem launchPoint_fails {code : Nat} (h : launching s a r = (.fail code, b)) :
    ((barNamed s b && barWaits s b) = true → exec (.copyLaunchPoint s.th.id) s = .next s)
      ∧ ((barNamed s b && barWaits s b) = false → exec (.copyLaunchPoint s.th.id) s = .next (failEarly s b code)
        ∧ (rest = [] → (barNamed s b = false ∨ b.plan.hasBar = false) → ∀ tm, findTeam s s.th.cid s.th.id.team = some tm →
          tm.retired = false → ∃ t tm', exec (.copyLaunchPoint s.th.id) s = .next t ∧ t.th.accs = [] ∧ SameMemory s t
            ∧ findTeam t s.th.cid s.th.id.team = some tm' ∧ tm'.asyncN = tm.asyncN + 1 ∧ (tm.asyncN = 0 → tm'.asyncErr = code))) := by
  have he := exec_launchPoint ha hs hf hk h
  refine ⟨fun hw => ?_, fun hw => ?_⟩
  · rw [he]
    exact congrArg _ (if_pos hw)
  have hfail : exec (.copyLaunchPoint s.th.id) s = .next (failEarly s b code) := by
    rw [he]
    exact congrArg _ (if_neg (by simp [hw]))
  refine ⟨hfail, fun hr hb tm ht hret => ?_⟩
  obtain ⟨req, lay, hop⟩ := launching_op s a r
  rw [h] at hop
  subst hop hr
  obtain ⟨haccs, hmem, tm', htm⟩ := failEarly_single (o := mkOp s r req lay) ha hb ht hret code
  exact ⟨_, tm', hfail, haccs, hmem, htm⟩

theorem launchPoint_waits {flt : Bool} {dies : List Nat} (h : launching s a r = (.wait flt dies, b)) :
    (a.awaited = [] → dies ≠ [] →
        exec (.copyLaunchPoint s.th.id) s
          = .next (modHead { s with fresh := s.fresh + 1 } fun x => { x with awaited := s.fresh :: dies, parked := flt }))
      ∧ ((a.awaited ≠ [] ∨ dies = []) → a.parked = flt → exec (.copyLaunchPoint s.th.id) s = .next s)
      ∧ ((a.awaited ≠ [] ∨ dies = []) → a.parked ≠ flt →
        exec (.copyLaunchPoint s.th.id) s = .next (modHead s fun x => { x with parked := flt })) := by
  have he := exec_launchPoint ha hs hf hk h
  have stays : (a.awaited ≠ [] ∨ dies = []) → ¬(a.awaited.isEmpty && !dies.isEmpty) = true := by
    rintro (hw | rfl) <;> simp [*]
  refine ⟨fun hw hd => ?_, fun hw hpk => ?_, fun hw hpk => ?_⟩
  · rw [he]
    exact congrArg _ (if_pos (by simp [hw, hd]))
  · rw [he]
    exact congrArg _ ((if_neg (stays hw)).trans (if_pos (beq_iff_eq.mpr hpk)))
  · rw [he]
    exact congrArg _ ((if_neg (stays hw)).trans (if_neg (by simpa using hpk)))

end

end Sys2Proof.Machine

end

-- ==== Sys2Proof/Proofs/CopyLanding.lean ====

section

/-!
The bytes that the elements of a copy operation write (R282 to R290, R302, R357): where they land, and what no write reaches.
-/

namespace Sys2Proof.Machine

/-! ## A write of an engine to HBM (R219, R357) -/

theorem padTo_length (n : Nat) (bs : List Byte) : (padTo n bs).length = n := by
  simp [padTo]

theorem retag_outside {m : MemSys} (hm : m.Canonical) {gen sec x : Nat} (h : x < sec ∨ sec + 64 ≤ x) :
    Mem.get (retag m gen sec).hbm x = Mem.get m.hbm x := by
  unfold retag
  split
  · rfl
  · split
    · rfl
    · exact Mem.get_store_other hm _ _ _ (by rw [padTo_length]; exact h)

/-- A write in one sector changes no byte of another. -/
theorem physStore_outside {m : MemSys} (hm : m.Canonical) (die gen : Nat) {pa x : Nat} {bs : List Byte} (hb : pa % 64 + bs.length ≤ 64)
    (h : x < pa / 64 * 64 ∨ pa / 64 * 64 + 64 ≤ x) : Mem.get (physStore m die gen pa bs).hbm x = Mem.get m.hbm x := by
  rw [(physStore_same m die gen pa bs).hbm]
  exact (Mem.get_store_other hm.retag pa bs x (by omega)).trans (retag_outside hm h)

/-- A write of any length changes no byte outside the sectors that it meets. -/
theorem homeStore_outside {m : MemSys} (hm : m.Canonical) (gen : Nat) {pa x : Nat} {bs : List Byte}
    (h : ¬(pa / 64 * 64 ≤ x ∧ x < (pa + bs.length + 63) / 64 * 64)) : Mem.get (homeStore m gen pa bs).hbm x = Mem.get m.hbm x := by
  unfold homeStore
  generalize bs.length / 64 + 2 = fuel
  generalize homeDie pa = die
  induction fuel generalizing m pa bs with
  | zero => rfl
  | succ fuel ih =>
    unfold physStoreAll
    split
    · rfl
    · next hne =>
        have hlen : 0 < bs.length := List.length_pos_iff.mpr fun e => hne e
        have hk : (bs.take (64 - pa % 64)).length ≤ 64 - pa % 64 := by simp
        have hd : (bs.drop (64 - pa % 64)).length = bs.length - (64 - pa % 64) := by simp
        refine (ih hm.physStore ?_).trans (physStore_outside hm die gen (by omega) (by omega))
        rw [hd]
        omega

theorem physStoreAll_nil (fuel : Nat) (m : MemSys) (die gen pa : Nat) : physStoreAll fuel m die gen pa [] = m := by
  cases fuel <;> rfl

/-- In one sector of the writer's key it is a plain store. -/
theorem homeStore_plain (m : MemSys) (gen : Nat) {pa : Nat} {bs : List Byte} (hb : pa % 64 + bs.length ≤ 64) (hne : bs ≠ [])
    (h : ∀ g, keyGet m.tags (sectorOf pa) = some g → g = gen) : (homeStore m gen pa bs).hbm = Mem.store m.hbm pa bs := by
  have ht : bs.take (64 - pa % 64) = bs := List.take_of_length_le (by omega)
  have hd : bs.drop (64 - pa % 64) = [] := List.drop_of_length_le (by omega)
  unfold homeStore physStoreAll
  split
  · exact absurd rfl hne
  · simp only [ht, hd, physStoreAll_nil]
    exact physStore_plain m _ gen pa bs h

/-! ## A global write of an operation (R357, R361) -/

/-- The first byte of the write in a piece, and the end of its bytes there. -/
def segLo (g : CopySeg) (w : Nat × List Byte) : Nat := Nat.max w.1 g.va
def segHi (g : CopySeg) (w : Nat × List Byte) : Nat := Nat.min (w.1 + w.2.length) (g.va + g.len)

/-- The bytes of a write that land in a piece. -/
def segBytes (g : CopySeg) (w : Nat × List Byte) : List Byte := (w.2.drop (segLo g w - w.1)).take (segHi g w - segLo g w)

/-- What a write leaves of the memory, in one piece. -/
def segStore (gen : Nat) (w : Nat × List Byte) (m : MemSys) (g : CopySeg) : MemSys :=
  if segLo g w < segHi g w then
    if g.mir then homeStore (homeStore m gen (g.pa + (segLo g w - g.va)) (segBytes g w)) gen
      (mirrorOf (g.pa + (segLo g w - g.va))) (segBytes g w)
    else homeStore m gen (g.pa + (segLo g w - g.va)) (segBytes g w)
  else m

theorem engStore_eq (s : State) (gen : Nat) (segs : List CopySeg) (w : Nat × List Byte) :
    engStore s gen segs w = { s with mem := segs.foldl (segStore gen w) s.mem } := by
  induction segs generalizing s with
  | nil => rfl
  | cons g segs ih =>
    have step : engStore s gen (g :: segs) w = engStore { s with mem := segStore gen w s.mem g } gen segs w := by
      unfold engStore segStore
      rw [List.foldl_cons]
      dsimp only
      congr 1
      split
      · next h =>
          have h' : segLo g w < segHi g w := h
          rw [if_pos h']
          rfl
      · next h =>
          have h' : ¬segLo g w < segHi g w := h
          rw [if_neg h']
    rw [step, ih]
    rfl

theorem segBytes_length {g : CopySeg} {w : Nat × List Byte} (h : segLo g w < segHi g w) :
    (segBytes g w).length = segHi g w - segLo g w := by
  have h1 : segHi g w ≤ w.1 + w.2.length := Nat.min_le_left ..
  have h2 : w.1 ≤ segLo g w := Nat.le_max_left ..
  simp only [segBytes, List.length_take, List.length_drop]
  omega

/-- The sectors that `n` bytes at `pa` meet. -/
def inSectors (pa n x : Nat) : Prop := pa / 64 * 64 ≤ x ∧ x < (pa + n + 63) / 64 * 64

theorem segStore_canonical {gen : Nat} {w : Nat × List Byte} {m : MemSys} (g : CopySeg) (hm : m.Canonical) :
    (segStore gen w m g).Canonical := by
  unfold segStore
  split
  · split
    · exact hm.homeStore.homeStore
    · exact hm.homeStore
  · exact hm

theorem segStore_outside {gen : Nat} {w : Nat × List Byte} {m : MemSys} {g : CopySeg} {x : Nat} (hm : m.Canonical)
    (h : ∀ p ∈ replicas (g.pa + (segLo g w - g.va)) g.mir, segLo g w < segHi g w → ¬inSectors p (segHi g w - segLo g w) x) :
    Mem.get (segStore gen w m g).hbm x = Mem.get m.hbm x := by
  unfold segStore
  split
  · next hl =>
      have outside : ∀ {n : MemSys} {p}, n.Canonical → p ∈ replicas (g.pa + (segLo g w - g.va)) g.mir →
          Mem.get (homeStore n gen p (segBytes g w)).hbm x = Mem.get n.hbm x :=
        fun hn hp => homeStore_outside hn gen (by rw [segBytes_length hl]; exact h _ hp hl)
      split
      · next hmir =>
          have hr : replicas (g.pa + (segLo g w - g.va)) g.mir = [g.pa + (segLo g w - g.va), mirrorOf (g.pa + (segLo g w - g.va))] :=
            if_pos hmir
          exact (outside hm.homeStore (by rw [hr]; simp)).trans (outside hm (by rw [hr]; simp))
      · next hmir =>
          have hr : replicas (g.pa + (segLo g w - g.va)) g.mir = [g.pa + (segLo g w - g.va)] := if_neg hmir
          exact outside hm (by rw [hr]; simp)
  · rfl

/-- A global write changes no byte outside the sectors that it meets in each piece. -/
theorem engStore_outside {s : State} {segs : List CopySeg} {w : Nat × List Byte} {x : Nat} (gen : Nat) (hm : s.mem.Canonical)
    (h : ∀ g ∈ segs, ∀ p ∈ replicas (g.pa + (segLo g w - g.va)) g.mir, segLo g w < segHi g w →
      ¬inSectors p (segHi g w - segLo g w) x) :
    (engStore s gen segs w).mem.Canonical ∧ (engStore s gen segs w).hbmByte x = s.hbmByte x := by
  rw [engStore_eq, State.hbmByte, State.hbmByte]
  dsimp only
  generalize s.mem = m at hm
  induction segs generalizing m with
  | nil => exact ⟨hm, rfl⟩
  | cons g segs ih =>
    obtain ⟨hc, hx⟩ := ih (fun g' hg => h g' (List.mem_cons_of_mem _ hg)) (segStore gen w m g) (segStore_canonical g hm)
    exact ⟨hc, hx.trans (segStore_outside hm (h g List.mem_cons_self))⟩

/-- The global writes of a step, each under the key of its operation. -/
def globalLanded (o : CopyOp) (ws : List (Nat × List Byte)) (s : State) : State := ws.foldl (fun u w => engStore u (o.gen u) o.segs w) s

theorem globalLanded_outside {o : CopyOp} {ws : List (Nat × List Byte)} {s : State} {x : Nat} (hm : s.mem.Canonical)
    (h : ∀ w ∈ ws, ∀ g ∈ o.segs, ∀ p ∈ replicas (g.pa + (segLo g w - g.va)) g.mir, segLo g w < segHi g w →
      ¬inSectors p (segHi g w - segLo g w) x) : (globalLanded o ws s).hbmByte x = s.hbmByte x := by
  induction ws generalizing s with
  | nil => rfl
  | cons w ws ih =>
    obtain ⟨hc, hx⟩ := engStore_outside (o.gen s) hm (h w List.mem_cons_self)
    exact (ih hc fun v hv => h v (List.mem_cons_of_mem _ hv)).trans hx

/-- A write in one sector of its own key, within one piece, leaves its bytes. -/
theorem engStore_bytes {s : State} {gen : Nat} {g : CopySeg} {w : Nat × List Byte} (hm : s.mem.Canonical) (hmir : g.mir = false)
    (hlo : g.va ≤ w.1) (hhi : w.1 + w.2.length ≤ g.va + g.len) (hb : (g.pa + (w.1 - g.va)) % 64 + w.2.length ≤ 64)
    (ht : ∀ q, keyGet s.mem.tags (sectorOf (g.pa + (w.1 - g.va))) = some q → q = gen) {k : Nat} (hk : k < w.2.length) :
    (engStore s gen [g] w).hbmByte (g.pa + (w.1 - g.va) + k) = w.2.getD k 0 := by
  have h1 : segLo g w = w.1 := Nat.max_eq_left hlo
  have h2 : segHi g w = w.1 + w.2.length := Nat.min_eq_left hhi
  have hbs : segBytes g w = w.2 := by
    rw [segBytes, h1, h2]
    simp
  have hne : w.2 ≠ [] := List.length_pos_iff.mp (by omega)
  have hs : segStore gen w s.mem g = homeStore s.mem gen (g.pa + (w.1 - g.va)) w.2 := by
    rw [segStore, if_pos (by omega), if_neg (by simp [hmir]), h1, hbs]
  rw [engStore_eq, State.hbmByte]
  dsimp only [List.foldl_cons, List.foldl_nil]
  rw [hs, homeStore_plain s.mem gen hb hne ht]
  exact Mem.get_store_same hm _ _ k hk

theorem engStore_clusters (s : State) (gen : Nat) (segs : List CopySeg) (w : Nat × List Byte) :
    (engStore s gen segs w).clusters = s.clusters := by
  rw [engStore_eq]

theorem globalLanded_clusters (o : CopyOp) (ws : List (Nat × List Byte)) (s : State) : (globalLanded o ws s).clusters = s.clusters := by
  induction ws generalizing s with
  | nil => rfl
  | cons w ws ih => exact (ih _).trans (engStore_clusters ..)

theorem globalLanded_engineKept (o : CopyOp) (ws : List (Nat × List Byte)) (s : State) : EngineKept s (globalLanded o ws s) :=
  .foldl (fun u w => engStore_engineKept u (o.gen u) o.segs w) ws s

/-! ## The scratchpad writes of an operation (R287, R302) -/

/-- The scratchpad writes of a step. -/
def spadLanded (c : Cid) (ws : List (Nat × Nat × List Byte)) (s : State) : State := ws.foldl (fun u w => spadStore u c w) s

theorem spadStore_clusters {s t : State} (h : t.clusters = s.clusters) (c : Cid) (w : Nat × Nat × List Byte) :
    (spadStore t c w).clusters = (spadStore s c w).clusters := by
  have hf : findCluster t c = findCluster s c := findCluster_congr h c
  have set : ∀ v, (setSlot t c w.1 v).clusters = (setSlot s c w.1 v).clusters := fun v => by
    rw [setSlot, setSlot, hf]
    split
    · exact h
    · rw [setCluster_clusters, setCluster_clusters, h]
  rw [spadStore, spadStore, findSlot_congr h]
  split
  · exact h
  · exact set _

/-- What scratchpads hold after the writes depends on the clusters alone. -/
theorem spadLanded_clusters {s t : State} (h : t.clusters = s.clusters) (c : Cid) (ws : List (Nat × Nat × List Byte)) :
    (spadLanded c ws t).clusters = (spadLanded c ws s).clusters := by
  induction ws generalizing s t with
  | nil => exact h
  | cons w ws ih => exact ih (spadStore_clusters h c w)

theorem spadByte_congr {s t : State} (h : t.clusters = s.clusters) (c : Cid) (i x : Nat) : t.spadByte c i x = s.spadByte c i x := by
  rw [State.spadByte, findSlot_congr h, State.spadByte]

theorem spadStore_mem (s : State) (c : Cid) (w : Nat × Nat × List Byte) : (spadStore s c w).mem = s.mem := by
  unfold spadStore
  split
  · rfl
  · exact setSlot_mem ..

theorem spadLanded_mem (c : Cid) (ws : List (Nat × Nat × List Byte)) (s : State) : (spadLanded c ws s).mem = s.mem := by
  induction ws generalizing s with
  | nil => rfl
  | cons w ws ih => exact (ih _).trans (spadStore_mem ..)

theorem spadLanded_engineKept (c : Cid) (ws : List (Nat × Nat × List Byte)) (s : State) : EngineKept s (spadLanded c ws s) :=
  .foldl (fun u w => spadStore_engineKept u c w) ws s

theorem spadStore_slot {s : State} {c : Cid} {w : Nat × Nat × List Byte} {v : Slot} (h : findSlot s c w.1 = some v) :
    findSlot (spadStore s c w) c w.1 = some (v.write w.2.1 w.2.2) := by
  rw [spadStore, h]
  exact findSlot_setSlot _ h

theorem spadStore_slot_other (s : State) {c d : Cid} {w : Nat × Nat × List Byte} {i : Nat} (h : d ≠ c ∨ i ≠ w.1) :
    findSlot (spadStore s c w) d i = findSlot s d i := by
  unfold spadStore
  split
  · rfl
  · exact findSlot_setSlot_other s _ h

/-- No write gives a cluster a scratchpad or takes one. -/
theorem spadStore_isSome (s : State) (c : Cid) (w : Nat × Nat × List Byte) (i : Nat) :
    (findSlot (spadStore s c w) c i).isSome = (findSlot s c i).isSome := by
  by_cases hi : i = w.1
  · subst hi
    cases h : findSlot s c w.1 with
    | none => rw [spadStore, h]; simp [h]
    | some v => rw [spadStore_slot h]; rfl
  · rw [spadStore_slot_other s (.inr hi)]

theorem spadLanded_otherCluster {c d : Cid} (h : d ≠ c) (ws : List (Nat × Nat × List Byte)) (s : State) (i x : Nat) :
    (spadLanded c ws s).spadByte d i x = s.spadByte d i x := by
  induction ws generalizing s with
  | nil => rfl
  | cons w ws ih =>
    refine (ih _).trans ?_
    rw [State.spadByte, spadStore_slot_other s (.inl h), State.spadByte]

theorem spadStore_outside {s : State} {c : Cid} {w : Nat × Nat × List Byte} {i x : Nat} (hs : s.Canonical)
    (h : w.1 ≠ i ∨ x < w.2.1 ∨ w.2.1 + w.2.2.length ≤ x) : (spadStore s c w).spadByte c i x = s.spadByte c i x := by
  by_cases hi : i = w.1
  · subst hi
    cases hv : findSlot s c w.1 with
    | none => rw [spadStore, hv]
    | some v =>
      rw [spadByte_of_findSlot (spadStore_slot hv), spadByte_of_findSlot hv]
      exact Mem.get_store_other (hs.findSlot v hv) _ _ _ (h.resolve_left fun e => e rfl)
  · rw [State.spadByte, spadStore_slot_other s (.inr hi), State.spadByte]

/-- Where no write of the step reaches, a scratchpad reads as before. -/
theorem spadLanded_outside {c : Cid} {ws : List (Nat × Nat × List Byte)} {s : State} {i x : Nat} (hs : s.Canonical)
    (h : ∀ w ∈ ws, w.1 ≠ i ∨ x < w.2.1 ∨ w.2.1 + w.2.2.length ≤ x) : (spadLanded c ws s).spadByte c i x = s.spadByte c i x := by
  induction ws generalizing s with
  | nil => rfl
  | cons w ws ih =>
    exact (ih hs.spadStore fun v hv => h v (List.mem_cons_of_mem _ hv)).trans (spadStore_outside hs (h w List.mem_cons_self))

/-- Two scratchpad writes share no byte. -/
def writesApart (v w : Nat × Nat × List Byte) : Prop := v.1 ≠ w.1 ∨ v.2.1 + v.2.2.length ≤ w.2.1 ∨ w.2.1 + w.2.2.length ≤ v.2.1

/-- Each write of the step, where none shares a byte with another, leaves its bytes. -/
theorem spadLanded_bytes {c : Cid} {ws : List (Nat × Nat × List Byte)} {s : State} (hs : s.Canonical) (hp : ws.Pairwise writesApart)
    {w : Nat × Nat × List Byte} (hw : w ∈ ws) (hv : (findSlot s c w.1).isSome = true) {k : Nat} (hk : k < w.2.2.length) :
    (spadLanded c ws s).spadByte c w.1 (w.2.1 + k) = w.2.2.getD k 0 := by
  induction ws generalizing s with
  | nil => cases hw
  | cons y ws ih =>
    obtain ⟨hy, hp'⟩ := List.pairwise_cons.mp hp
    rcases List.mem_cons.mp hw with rfl | hw
    · obtain ⟨v, hv⟩ := Option.isSome_iff_exists.mp hv
      refine (spadLanded_outside hs.spadStore fun z hz => ?_).trans ?_
      · obtain h | h | h := hy z hz
        · exact .inl h.symm
        · exact .inr (.inl (by omega))
        · exact .inr (.inr (by omega))
      · rw [spadByte_of_findSlot (spadStore_slot hv)]
        exact Mem.get_store_same (hs.findSlot v hv) _ _ k hk
    · exact ih hs.spadStore hp' hw (by rw [spadStore_isSome]; exact hv)

/-! ## Presence and reads (R203, R357) -/

theorem stillAbsent_bytes (p : CopyPlan) (i k : Nat) (v : Slot) : (stillAbsent p i k v).bytes = v.bytes := rfl

theorem getElem?_zipWith_range {α β : Type} (f : Nat → α → β) (l : List α) (i : Nat) :
    ((List.range l.length).zipWith f l)[i]? = l[i]?.map (f i) := by
  by_cases h : i < l.length <;> simp [h]

/-- A cluster with the presence bits that hold once every element below `k` has landed. -/
def landedCluster (p : CopyPlan) (k : Nat) (c : Cluster) : Cluster :=
  { c with slots := (List.range c.slots.length).zipWith (fun i v => stillAbsent p i k v) c.slots }

theorem landedCluster_slot (p : CopyPlan) (k : Nat) (c : Cluster) (i : Nat) :
    (landedCluster p k c).slots[i]? = c.slots[i]?.map (stillAbsent p i k) :=
  getElem?_zipWith_range (fun i v => stillAbsent p i k v) c.slots i

theorem presence_same (s : State) (o : CopyOp) (k : Nat) : SameMemory s (presence s o k) := by
  unfold presence
  dsimp only
  split
  · exact .of_eq rfl rfl
  · split
    · exact .of_eq rfl rfl
    · next c hc =>
        refine ⟨fun _ => rfl, fun d i x => ?_⟩
        have hid : c.id = o.cid := findCluster_id hc
        change (setCluster s (landedCluster o.plan k c)).spadByte d i x = s.spadByte d i x
        rw [State.spadByte, findSlot_setCluster hc (k' := landedCluster o.plan k c) hid, State.spadByte]
        split_ifs with hd
        · subst hd
          rw [landedCluster_slot, findSlot, hc]
          cases h : c.slots[i]? with
          | none => simp [h]
          | some v => simp [h, stillAbsent_bytes]
        · rfl

theorem presence_global {o : CopyOp} (h : o.plan.dir = 1) (s : State) (k : Nat) : presence s o k = s := if_pos h

theorem readSectors_kept (s : State) (core : Nat) (o : CopyOp) (k0 k1 : Nat) :
    EngineKept s (readSectors s core o k0 k1) ∧ (readSectors s core o k0 k1).clusters = s.clusters
      ∧ (readSectors s core o k0 k1).mem.hbm = s.mem.hbm := by
  unfold readSectors
  split
  · generalize (readRanges s core o k0 k1).flatMap (fun r => (unitsOf 64 r.1 r.2).map fun u => Nat.max r.1 (64 * u)) = l
    induction l generalizing s with
    | nil => exact ⟨.refl s, rfl, rfl⟩
    | cons x l ih =>
      rw [List.foldl_cons]
      split
      · exact ih s
      · next pa mir _ =>
          obtain ⟨he, hc, hm⟩ := ih { s with
            mem := llcRead s.mem (core / 336) (sectorOf (replica pa mir (core / 336))) (o.gen s) }
          have read : EngineKept s { s with mem := llcRead s.mem (core / 336) (sectorOf (replica pa mir (core / 336))) (o.gen s) } :=
            ⟨rfl, llcRead_locks ..⟩
          exact ⟨read.trans he, hc, hm.trans (llcRead_same ..).hbm⟩
  · exact ⟨.refl s, rfl, rfl⟩

theorem readSectors_global {o : CopyOp} (h : o.plan.dir = 1) (s : State) (core k0 k1 : Nat) : readSectors s core o k0 k1 = s :=
  if_neg (by omega)

end Sys2Proof.Machine

end

-- ==== Sys2Proof/Proofs/CopyEventsSettled.lean ====

section

/-!
The events of a copy operation, settled: a step of its elements, the counts of its barriers, its end and its failure (R293 to R302,
R308, R345).
-/

namespace Sys2Proof.Machine

/-! ## The only operation of an engine -/

section

variable {s : State} {core : Nat} {o : CopyOp} (he : (getCore s core).eng = [o])
include he

theorem findOp_only : findOp s core o.pos = some o := by
  simp [findOp, he]

/-- It is the next to move its elements (R300). -/
theorem mayMove_only (h : o.state = 1 ∨ o.state = 2) : mayMove (getCore s core) o = true := by
  rcases h with h | h <;> simp [mayMove, he, h]

/-- It is put back, changed, at its position. -/
theorem setOp_only {o' : CopyOp} (hp : o'.pos = o.pos) : (getCore (setOp s core o') core).eng = [o'] := by
  simp [setOp, he, hp]

theorem delOp_only : (getCore (delOp s core o.pos) core).eng = [] := by
  simp [delOp, he]

end

theorem setOp_same (s : State) (core : Nat) (o : CopyOp) : SameMemory s (setOp s core o) := .of_eq rfl rfl

/-! ## A step of the elements (R302, R345) -/

/-- The element after those that the operation's next step moves. -/
def stepEnd (o : CopyOp) : Nat := Nat.min o.plan.count (o.next + o.plan.unit)

/-- The operation once a step has found failure `code`. -/
def stepFailed (o : CopyOp) (code : Nat) : CopyOp := { o with state := 2, fail := true, err := code }

/-- The operation once a step has moved its elements. -/
def stepDone (o : CopyOp) : CopyOp :=
  { o with state := 2, next := stepEnd o, uncounted := o.plan.countable (stepEnd o) - o.cnt }

/-- A write of the step merges with an uncorrectable word. -/
def stepWritesBad (s : State) (core : Nat) (o : CopyOp) : Bool :=
  if o.plan.dir = 1 then (globalOut s o o.next (stepEnd o)).any (globalBad s o)
  else (spadOut s core o o.next (stepEnd o)).any (spadWriteBad s o)

/-- The state once the bytes of a step have landed. -/
def stepLanded (s : State) (core : Nat) (o : CopyOp) : State :=
  let s0 := readSectors s core o o.next (stepEnd o)
  if o.plan.dir = 1 then globalLanded o (globalOut s o o.next (stepEnd o)) s0
  else spadLanded o.cid (spadOut s core o o.next (stepEnd o)) s0

/-- R302, R345: a step fails by its sources, by their coding or by its destinations, and else lands. -/
theorem transferStep_eq (s : State) (core : Nat) (o : CopyOp) :
    transferStep s core o =
      if stepBad s core o o.next (stepEnd o) then setOp s core (stepFailed o 6)
      else if stepUndecodable s core o o.next (stepEnd o) then setOp s core (stepFailed o 7)
      else if stepWritesBad s core o then setOp s core (stepFailed o 6)
      else setOp (presence (stepLanded s core o) o (stepEnd o)) core (stepDone o) := by
  have h : stepEnd o = Nat.min o.plan.count (o.next + o.plan.unit) := rfl
  unfold transferStep stepWritesBad stepLanded
  dsimp only
  rw [← h]
  by_cases hd : o.plan.dir = 1
  · simp only [if_pos hd]
    rfl
  · simp only [if_neg hd]
    rfl

theorem stepLanded_engineKept (s : State) (core : Nat) (o : CopyOp) : EngineKept s (stepLanded s core o) := by
  have h := (readSectors_kept s core o o.next (stepEnd o)).1
  unfold stepLanded
  dsimp only
  split
  · exact h.trans (globalLanded_engineKept ..)
  · exact h.trans (spadLanded_engineKept ..)

section

variable {s : State} {core : Nat} {o : CopyOp}

theorem stepLanded_global (h : o.plan.dir = 1) : stepLanded s core o = globalLanded o (globalOut s o o.next (stepEnd o)) s := by
  rw [stepLanded, if_pos h, readSectors_global h]

theorem stepLanded_spad (h : o.plan.dir ≠ 1) :
    stepLanded s core o = spadLanded o.cid (spadOut s core o o.next (stepEnd o)) (readSectors s core o o.next (stepEnd o)) := if_neg h

/-- A step to scratchpads changes no byte of HBM, and none of another cluster; its own scratchpads hold what the writes leave. -/
theorem stepLanded_spad_bytes (h : o.plan.dir ≠ 1) :
    (∀ x, (stepLanded s core o).hbmByte x = s.hbmByte x)
      ∧ (∀ c i x, c ≠ o.cid → (stepLanded s core o).spadByte c i x = s.spadByte c i x)
      ∧ ∀ i x, (stepLanded s core o).spadByte o.cid i x
          = (spadLanded o.cid (spadOut s core o o.next (stepEnd o)) s).spadByte o.cid i x := by
  obtain ⟨-, hc, hm⟩ := readSectors_kept s core o o.next (stepEnd o)
  rw [stepLanded_spad h]
  refine ⟨fun x => ?_, fun c i x hne => ?_, fun i x => ?_⟩
  · rw [State.hbmByte, spadLanded_mem, hm, State.hbmByte]
  · exact (spadLanded_otherCluster hne _ _ i x).trans (spadByte_congr hc c i x)
  · exact spadByte_congr (spadLanded_clusters hc _ _) _ i x

end

section

variable {s : State} {core : Nat} {o : CopyOp} (he : (getCore s core).eng = [o]) (hp : pagesIn s o = true)
  (hst : o.state = 1 ∨ o.state = 2) (hf : o.fail = false) (hu : o.uncounted = 0) (hn : o.next < o.plan.count)
include he hp hst hf hu hn

theorem exec_transferStep : exec (.copyTransferStep core o.pos) s = .next (transferStep s core o) := by
  show execCopyTransferStep core o.pos s = _
  rw [execCopyTransferStep, findOp_only he]
  simp [hf, hu, hn, hp, mayMove_only he hst]

theorem transferStep_fails {code : Nat} (h : transferStep s core o = setOp s core (stepFailed o code)) :
    ∃ t, exec (.copyTransferStep core o.pos) s = .next t ∧ (getCore t core).eng = [stepFailed o code] ∧ SameMemory s t :=
  ⟨_, (exec_transferStep he hp hst hf hu hn).trans (congrArg _ h), setOp_only he rfl, setOp_same ..⟩

theorem transferStep_bad (hb : stepBad s core o o.next (stepEnd o) = true) :
    ∃ t, exec (.copyTransferStep core o.pos) s = .next t ∧ (getCore t core).eng = [stepFailed o 6] ∧ SameMemory s t :=
  transferStep_fails he hp hst hf hu hn (by rw [transferStep_eq, if_pos hb])

variable (hb : stepBad s core o o.next (stepEnd o) = false)
include hb

theorem transferStep_undecodable (hd : stepUndecodable s core o o.next (stepEnd o) = true) :
    ∃ t, exec (.copyTransferStep core o.pos) s = .next t ∧ (getCore t core).eng = [stepFailed o 7] ∧ SameMemory s t :=
  transferStep_fails he hp hst hf hu hn (by rw [transferStep_eq, if_neg (by simp [hb]), if_pos hd])

variable (hd : stepUndecodable s core o o.next (stepEnd o) = false)
include hd

theorem transferStep_writesBad (hw : stepWritesBad s core o = true) :
    ∃ t, exec (.copyTransferStep core o.pos) s = .next t ∧ (getCore t core).eng = [stepFailed o 6] ∧ SameMemory s t :=
  transferStep_fails he hp hst hf hu hn (by rw [transferStep_eq, if_neg (by simp [hb]), if_neg (by simp [hd]), if_pos hw])

/-- R302: a step that meets nothing uncorrectable lands. -/
theorem transferStep_lands (hw : stepWritesBad s core o = false) :
    exec (.copyTransferStep core o.pos) s = .next (setOp (presence (stepLanded s core o) o (stepEnd o)) core (stepDone o)) := by
  rw [exec_transferStep he hp hst hf hu hn, transferStep_eq, if_neg (by simp [hb]), if_neg (by simp [hd]), if_neg (by simp [hw])]

end

/-! ## What a step leaves -/

section

variable {s : State} {core : Nat} {o : CopyOp}

/-- The state that a step which lands leaves. -/
def stepTo (s : State) (core : Nat) (o : CopyOp) : State := setOp (presence (stepLanded s core o) o (stepEnd o)) core (stepDone o)

theorem stepTo_eng (he : (getCore s core).eng = [o]) : (getCore (stepTo s core o) core).eng = [stepDone o] := by
  have k := (stepLanded_engineKept s core o).trans (presence_engineKept (stepLanded s core o) o (stepEnd o))
  have he' : (getCore (presence (stepLanded s core o) o (stepEnd o)) core).eng = [o] := by rw [k.getCore, he]
  exact setOp_only he' rfl

theorem stepTo_same (s : State) (core : Nat) (o : CopyOp) : SameMemory (stepLanded s core o) (stepTo s core o) :=
  (presence_same ..).trans (setOp_same ..)

/-- A step into global memory. -/
theorem stepTo_global (hdir : o.plan.dir = 1) :
    (stepTo s core o).clusters = s.clusters
      ∧ (stepTo s core o).mem.hbm = (globalLanded o (globalOut s o o.next (stepEnd o)) s).mem.hbm := by
  have h : stepTo s core o = setOp (globalLanded o (globalOut s o o.next (stepEnd o)) s) core (stepDone o) := by
    rw [stepTo, presence_global hdir, stepLanded_global hdir]
  rw [h]
  exact ⟨globalLanded_clusters .., rfl⟩

/-- A step into scratchpads. -/
theorem stepTo_spad (hdir : o.plan.dir ≠ 1) :
    (∀ x, (stepTo s core o).hbmByte x = s.hbmByte x)
      ∧ (∀ c i x, c ≠ o.cid → (stepTo s core o).spadByte c i x = s.spadByte c i x)
      ∧ ∀ i x, (stepTo s core o).spadByte o.cid i x
          = (spadLanded o.cid (spadOut s core o o.next (stepEnd o)) s).spadByte o.cid i x := by
  obtain ⟨hh, ho, hi⟩ := stepLanded_spad_bytes (s := s) (core := core) hdir
  have k := stepTo_same s core o
  exact ⟨fun x => (k.hbm x).trans (hh x), fun c i x hne => (k.spad c i x).trans (ho c i x hne), fun i x => (k.spad _ i x).trans (hi i x)⟩

end

/-- R282 to R290, R302, R345: one step of an engine's only operation. -/
theorem transferStep_cases {s : State} {core : Nat} {o : CopyOp} (he : (getCore s core).eng = [o]) (hp : pagesIn s o = true)
    (hst : o.state = 1 ∨ o.state = 2) (hf : o.fail = false) (hu : o.uncounted = 0) (hn : o.next < o.plan.count) :
    let failed (code : Nat) : Prop := ∃ t, exec (.copyTransferStep core o.pos) s = .next t
      ∧ (getCore t core).eng = [stepFailed o code] ∧ SameMemory s t
    (stepBad s core o o.next (stepEnd o) = true → failed 6)
      ∧ (stepBad s core o o.next (stepEnd o) = false → stepUndecodable s core o o.next (stepEnd o) = true → failed 7)
      ∧ (stepBad s core o o.next (stepEnd o) = false → stepUndecodable s core o o.next (stepEnd o) = false →
        (stepWritesBad s core o = true → failed 6)
          ∧ (stepWritesBad s core o = false →
            ∃ t, exec (.copyTransferStep core o.pos) s = .next t ∧ (getCore t core).eng = [stepDone o]
              ∧ (o.plan.dir = 1 → t.clusters = s.clusters ∧
                let ws := globalOut s o o.next (stepEnd o)
                t.mem.hbm = (globalLanded o ws s).mem.hbm
                  ∧ (Mem.wf s.mem.hbm = true →
                    (∀ x, (∀ w ∈ ws, ∀ g ∈ o.segs, ∀ p ∈ replicas (g.pa + (segLo g w - g.va)) g.mir, segLo g w < segHi g w →
                        ¬inSectors p (segHi g w - segLo g w) x) → t.hbmByte x = s.hbmByte x)
                    ∧ ∀ w g, ws = [w] → o.segs = [g] → g.mir = false → g.va ≤ w.1 → w.1 + w.2.length ≤ g.va + g.len →
                      let pa := g.pa + (w.1 - g.va)
                      pa % 64 + w.2.length ≤ 64 → (∀ q, keyGet s.mem.tags (sectorOf pa) = some q → q = o.gen s) →
                      ∀ k, k < w.2.length → t.hbmByte (pa + k) = w.2.getD k 0))
              ∧ (o.plan.dir ≠ 1 → (∀ x, t.hbmByte x = s.hbmByte x) ∧ (∀ c i x, c ≠ o.cid → t.spadByte c i x = s.spadByte c i x) ∧
                let ws := spadOut s core o o.next (stepEnd o)
                (∀ i x, t.spadByte o.cid i x = (spadLanded o.cid ws s).spadByte o.cid i x)
                  ∧ (s.Canonical →
                    (∀ i x, (∀ w ∈ ws, w.1 ≠ i ∨ x < w.2.1 ∨ w.2.1 + w.2.2.length ≤ x) → t.spadByte o.cid i x = s.spadByte o.cid i x)
                      ∧ (ws.Pairwise writesApart → ∀ w ∈ ws, (findSlot s o.cid w.1).isSome = true →
                        ∀ k, k < w.2.2.length → t.spadByte o.cid w.1 (w.2.1 + k) = w.2.2.getD k 0))))) := by
  intro failed
  refine ⟨transferStep_bad he hp hst hf hu hn, transferStep_undecodable he hp hst hf hu hn, fun hb hd =>
    ⟨transferStep_writesBad he hp hst hf hu hn hb hd, fun hw => ?_⟩⟩
  refine ⟨stepTo s core o, transferStep_lands he hp hst hf hu hn hb hd hw, stepTo_eng he, fun hdir => ?_, fun hdir => ?_⟩
  · obtain ⟨hc, hm⟩ := stepTo_global (s := s) (core := core) hdir
    have byte : ∀ x, (stepTo s core o).hbmByte x = (globalLanded o (globalOut s o o.next (stepEnd o)) s).hbmByte x := fun x => by
      rw [State.hbmByte, hm, State.hbmByte]
    refine ⟨hc, hm, fun hwf => ⟨fun x hx => (byte x).trans (globalLanded_outside hwf hx), ?_⟩⟩
    intro w g hws hsegs hmir hlo hhi pa hpa ht k hk
    rw [byte, hws, globalLanded, List.foldl_cons, List.foldl_nil, hsegs]
    exact engStore_bytes hwf hmir hlo hhi hpa ht hk
  · obtain ⟨hh, ho, hi⟩ := stepTo_spad (s := s) (core := core) hdir
    refine ⟨hh, ho, hi, fun hs => ⟨fun i x hx => (hi i x).trans (spadLanded_outside hs hx), fun hap w hw hv k hk => ?_⟩⟩
    exact (hi _ _).trans (spadLanded_bytes hs hap hw hv hk)

/-! ## Counts (R292, R293, R295) -/

/-- The operation once its bytes are counted. -/
def opCounted (s : State) (o : CopyOp) : CopyOp :=
  if countOverruns s o && !o.fail then { o with uncounted := 0, cnt := o.cnt + o.uncounted, fail := true, err := 8 }
  else { o with uncounted := 0, cnt := o.cnt + o.uncounted }

section

variable {s : State} {core : Nat} {o : CopyOp} (he : (getCore s core).eng = [o])
include he

theorem countUpdate_waits (hw : barWaits s o = true) : exec (.engineCountUpdate core o.pos) s = .next s := by
  show execEngineCountUpdate core o.pos s = _
  rw [execEngineCountUpdate, findOp_only he]
  simp [hw]

theorem lateFail_waits (hw : barWaits s o = true) (code : Byte) : exec (.copyLateFail core o.pos code) s = .next s := by
  show execCopyLateFail core o.pos code s = _
  rw [execCopyLateFail, findOp_only he]
  simp [hw]

theorem countUpdate_eng (f : BarObj → BarObj) :
    (getCore (setOp (barUpdates s o f) core (opCounted s o)) core).eng = [opCounted s o] := by
  have he' : (getCore (barUpdates s o f) core).eng = [o] := by rw [(barUpdates_engineKept s o f).getCore, he]
  refine setOp_only he' ?_
  unfold opCounted
  split <;> rfl

variable (hp : pagesIn s o = true) (hst : o.state ≠ 3)
include hp hst

/-- R293: the bytes reach the barriers, and the operation goes on or fails. -/
theorem exec_countUpdate (hu : o.uncounted ≠ 0) (hw : barWaits s o = false) :
    exec (.engineCountUpdate core o.pos) s
      = .next (setOp (barUpdates s o fun b => b.count o.uncounted) core (opCounted s o)) := by
  show execEngineCountUpdate core o.pos s = _
  rw [execEngineCountUpdate, findOp_only he]
  simp only [hp, hw, hu, hst, decide_false, Bool.or_self, Bool.not_true, Bool.false_eq_true, if_false]
  rfl

end

/-- R293: the object of an operation's only barrier slot, after an update. -/
theorem barUpdates_slot {s : State} {o : CopyOp} {i : Nat} {v : Slot} (f : BarObj → BarObj) (hb : o.plan.hasBar = true)
    (hs : o.plan.barSlots = [i]) (hv : findSlot s o.cid i = some v) (hg : v.badHit (o.plan.bar % 0x100000) 16 false = false) :
    findSlot (barUpdates s o f) o.cid i
      = some (v.write (o.plan.bar % 0x100000) (f (barOf (Mem.load v.bytes (o.plan.bar % 0x100000) 16))).bytes) := by
  have hu : barUpdates s o f = probe (setSlot s o.cid i (v.write (o.plan.bar % 0x100000)
      (f (barOf (Mem.load v.bytes (o.plan.bar % 0x100000) 16))).bytes)) none (.spad o.cid i (o.plan.bar % 0x100000)) 16 := by
    rw [barUpdates, if_pos hb, hs]
    simp only [List.foldl_cons, List.foldl_nil, barUpdate, hv, hg, Bool.false_eq_true, if_false, Option.getD_some]
  rw [hu, findSlot_congr (probe_clusters ..)]
  exact findSlot_setSlot _ hv

/-! ## The end of an operation (R170, R294, R308) -/

theorem removeOp_only {s : State} {core : Nat} {o : CopyOp} (he : (getCore s core).eng = [o]) :
    (getCore (removeOp s core o) core).eng = []
      ∧ (removeOp s core o).mem.locks = s.mem.locks.filter (fun l => l.owner != .copy core o.pos) ∧ SameMemory s (removeOp s core o) := by
  refine ⟨?_, rfl, .of_eq rfl rfl⟩
  have he' : (getCore { s with mem := { s.mem with locks := s.mem.locks.filter fun l => l.owner != .copy core o.pos } } core).eng = [o] := he
  exact delOp_only he'

section

variable {s : State} {core : Nat} {o : CopyOp} (he : (getCore s core).eng = [o])
include he

/-- R170: a failure that is reported leaves the engine and the locks as the operation's end does. -/
theorem lateFail_only : (getCore (lateFail s core o) core).eng = []
    ∧ (lateFail s core o).mem.locks = s.mem.locks.filter (fun l => l.owner != .copy core o.pos) := by
  have k : EngineKept s (recordFail (barUpdates (presence (landMixed s core o) o o.plan.count) o
      fun b => b.failCount o.err o.slot (some (o.plan.spadBytes - o.cnt))) o.cid o.team o.err o.slot o.pos o.reqAddr) :=
    (((landMixed_engineKept ..).trans (presence_engineKept ..)).trans (barUpdates_engineKept ..)).trans (recordFail_engineKept ..)
  rw [lateFail]
  generalize recordFail (barUpdates (presence (landMixed s core o) o o.plan.count) o
    fun b => b.failCount o.err o.slot (some (o.plan.spadBytes - o.cnt))) o.cid o.team o.err o.slot o.pos o.reqAddr = u at k
  obtain ⟨heng, hlocks, -⟩ := removeOp_only (s := u) (core := core) (o := o) (by rw [k.getCore, he])
  exact ⟨heng, by rw [hlocks, k.locks]⟩

theorem exec_lateFail (hp : pagesIn s o = true) (hst : o.state ≠ 3) (hf : o.fail = true) (hc : o.err < 256) (hw : barWaits s o = false) :
    exec (.copyLateFail core o.pos (BitVec.ofNat 8 o.err)) s = .next (lateFail s core o) := by
  show execCopyLateFail core o.pos (BitVec.ofNat 8 o.err) s = _
  rw [execCopyLateFail, findOp_only he]
  have herr : o.err = (BitVec.ofNat 8 o.err).toNat := by simp [Nat.mod_eq_of_lt hc]
  simp [hp, hst, hf, hw, ← herr]

theorem exec_copyComplete (hf : o.fail = false) (hn : o.next = o.plan.count) (hu : o.uncounted = 0) (hst : o.state ≠ 3) :
    exec (.copyComplete core o.pos) s = .next (removeOp s core o) := by
  show execCopyComplete core o.pos s = _
  rw [execCopyComplete, findOp_only he]
  simp [hf, hn, hu, hst]

end

/-- Settles O51: a launch takes its locks or waits or fails, each step lands or fails, counts reach the barriers, and an operation
that ends or fails leaves its engine and its locks. -/
theorem copyEvents : Obligations.CopyEvents := by
  unfold Obligations.CopyEvents
  intro s core o a rest r o' locks b
  refine ⟨fun ha hs hf hk => ⟨launchPoint_goes ha hs hf hk, fun code => launchPoint_fails ha hs hf hk,
    fun flt dies => launchPoint_waits ha hs hf hk⟩, fun he hp => ?_, fun he hf hn hu hst => ?_⟩
  · intro k1 writesBad failed
    refine ⟨transferStep_cases he hp, fun hw => ⟨countUpdate_waits he hw, lateFail_waits he hw⟩, fun hu hst hw => ?_,
      fun hf hst hc hw => ?_⟩
    · refine ⟨_, exec_countUpdate he hp hst hu hw, fun h => ?_, fun h h' => ?_, fun i v hb hs hv hg => ?_⟩
      · have hq : ¬(countOverruns s o && !o.fail) = true := by rcases h with h | h <;> simp [h]
        rw [countUpdate_eng he, opCounted, if_neg hq]
      · rw [countUpdate_eng he, opCounted, if_pos (by simp [h, h'])]
      · exact barUpdates_slot _ hb hs hv hg
    · have hx := exec_lateFail he hp hst hf hc hw
      exact ⟨hx, _, hx, lateFail_only he⟩
  · exact ⟨_, exec_copyComplete he hf hn hu hst, removeOp_only he⟩

end Sys2Proof.Machine

end
